-- ==== Sys2Proof/Word.lean ====
section
/-! DEFINITION. The words of the Bardec 340: bytes of the port frames, the 32-bit line time (R60) and the 16-bit admission
sequence (R34). The orders and sums the manual gives them stand in Machine/Ops.lean. -/

namespace Sys2Proof

/-- One byte of a port frame (R178, R192). -/
abbrev Byte := BitVec 8

/-- A line time: an unsigned 32-bit count of tenths that wraps (R60). -/
abbrev LineTime := BitVec 32

/-- An admission sequence, 0 to 65535, which wraps (R34). -/
abbrev Seq := BitVec 16

end Sys2Proof
end

