-- ==== Sys2Proof/Config.lean ====
section
/-! DEFINITION. What the part fixes once and for all (its sizes and limits), and the FREE VALUES: constants with no body
for bytes of a reply that the manual lays out without saying what they hold. -/

namespace Sys2Proof.Config

/-- Station records (R1). -/
def stations : Nat := 24

/-- Recipe entries (R18). -/
def recipes : Nat := 16

/-- Hanger records (R33). -/
def hangers : Nat := 32

/-- Burst channels (R151). -/
def channels : Nat := 8

/-- Rescue lines (R170). -/
def rescueLines : Nat := 4

/-- Notices a queue holds at most (R186). -/
def queueDepth : Nat := 16

/-- Run entries a record holds at most (R38). -/
def runEntries : Nat := 13

/-- The largest elapsed or unagitated count (R62, R63, R162). -/
def maxCount : Nat := 16777215

/-- The largest development progress (R70). -/
def maxProgress : Nat := 134217727

/-- FREE VALUE (log 7). READ-HANGER returns the place in the start order as "1–32, or none" in one byte, and R192 gives
no encoding of none for that field. -/
opaque placeNoneByte : Byte

/-- FREE VALUE (log 8). READ-TIMING returns for each edge O, E, C a crossing time or a prediction (R80); an immersion that
is not STRICT has neither, and the manual does not say what the four bytes then hold: any value for each edge (0, 1, 2) at
each line time and entry time. -/
opaque idleEdgeTime (edge : Nat) (now entry : LineTime) : LineTime

end Sys2Proof.Config
end

