-- ==== Sys2Proof/Syntax.lean ====
section
/-! DEFINITION. The commands of the Bardec 340: one constructor of `Instr` for each row of spec/opcode_table.json, with the
row's operands. The operands of a request are the fields of its payload in the order R192 lists them, as numbers (a field
outside its range is a value the rule of the request tests, so no range is built in here). -/

namespace Sys2Proof

/-- The three SPI target ports (00_scope.md, Port roles). -/
inductive PortId where
  | p0 | p1 | p2
  deriving DecidableEq, Repr

/-- The two gantries: A at the lower end of the rail, B at the upper end (00_scope.md, Identifiers). -/
inductive GantryId where
  | a | b
  deriving DecidableEq, Repr

/-- The three edges of a STRICT window (R67): open edge O, target E, close edge C. -/
inductive Edge where
  | opening | target | closing
  deriving DecidableEq, Repr

/-- What becomes of the line-time events that fall due at an advance (log 3): `taken` takes every one of them in the
advance, in the model's order; `left` leaves them to the commands of their own rows, in any order, with other commands
between them; what is still left when the tenth ends is taken first by the next advance. -/
inductive AdvanceEvents where
  | taken | left
  deriving DecidableEq, Repr

/-- One step as DRAFT-STEPS carries it (R22, R192): the fields of R19 without the class, which is read from the group when
the draft is written (R24). -/
structure RawStep where
  group : Nat
  timeA : Nat
  timeB : Nat
  timeC : Nat
  drip : Nat
  unagitated : Nat
  deriving DecidableEq, Repr

/-- The twelve settings of a bath (R83; rmin and rmax are one row there), as SET-BATH carries them and as a bath record
holds them. -/
structure BathSettings where
  /-- Setpoint Tset, centidegrees. -/
  tset : Int
  /-- Band B. -/
  band : Nat
  /-- Trip limit Tt. -/
  trip : Nat
  /-- Settle time. -/
  settle : Nat
  /-- Stale time. -/
  stale : Nat
  /-- Slew limit L; 0 means no limit. -/
  slew : Nat
  /-- Rate gain K. -/
  gain : Int
  /-- Rate shift s. -/
  shift : Nat
  /-- Deviation limit dmax. -/
  dmax : Nat
  /-- Lower rate limit. -/
  rmin : Nat
  /-- Upper rate limit. -/
  rmax : Nat
  /-- Replenish quantum. -/
  quantum : Nat
  /-- Rescue exit allowance. -/
  exitAllowance : Nat
  deriving DecidableEq, Repr

/-- The commands: one constructor for each row of spec/opcode_table.json. -/
inductive Instr where
  -- Chapter 1
  | setStation (station cls group coordinate slotCount allowance supervised rescueLine : Nat)
  | clearStation (station : Nat)
  | block (station slot : Nat)
  | unblock (station slot : Nat)
  | readStation (station : Nat)
  -- Chapter 2
  | draftRecipe (recipe stepCount : Nat)
  | draftSteps (recipe first : Nat) (steps : List RawStep)
  | writeRecipe (recipe : Nat)
  | discardStaged (recipe : Nat)
  | readRecipe (recipe version first : Nat)
  -- Chapter 3
  | admitHanger (tag recipe scale area station slot : Nat)
  | abortHanger (tag : Nat)
  | resumeHanger (tag : Nat)
  | restartHanger (tag : Nat)
  | recover (tag station slot : Nat)
  | unloaded (station slot : Nat)
  | readHanger (tag : Nat)
  | readRun (tag first : Nat)
  -- Chapter 4
  | readTiming (tag : Nat)
  -- Chapter 5
  | setBath (station : Nat) (settings : BathSettings)
  | bathReport (station : Nat) (reading : Int)
  | bathTrip (station : Nat)
  | bathClear (station : Nat)
  | replenished (station : Nat)
  | readBath (station : Nat)
  -- Chapter 6
  | readMoves (first : Nat)
  -- Chapter 7, supervisor
  | setGantry (gantry lowest highest handling pace margin : Nat)
  | setGuard (gap : Nat)
  | gantryPause (gantry : Nat)
  | gantryResume (gantry : Nat)
  | gantryReset (gantry : Nat)
  | readGantry (gantry : Nat)
  -- Chapter 8
  | setChannel (channel station enable cadence length : Nat)
  | setGasLimit (limit : Nat)
  | gasHold (channel setting : Nat)
  | readChannel (channel : Nat)
  -- Chapter 9
  | run
  | drain
  | hold
  | stop
  | holdAt (time : LineTime)
  | clearLine
  | setGrace (grace : Nat)
  | rescueClear (line : Nat)
  | readLine
  -- Section 10.5
  | setAlarm (delay : Nat)
  -- Chapters 6 and 7, gantry controllers
  | hello (gantry : GantryId)
  | homed (gantry : GantryId)
  | claim (gantry : GantryId)
  | lifted (gantry : GantryId) (move : Nat)
  | lowered (gantry : GantryId) (move : Nat)
  | done (gantry : GantryId) (move : Nat)
  | abandon (gantry : GantryId) (move coordinate : Nat)
  | fault (gantry : GantryId) (presence move code : Nat)
  -- Chapter 10, every port
  | getNotice (port : PortId)
  | setMask (port : PortId) (mask : BitVec 16)
  | ident (port : PortId)
  -- Port sessions
  | unknownRequest (port : PortId) (bytes : List Byte) (extraBits : Nat)
  | busyRefused (port : PortId) (clocked : Nat)
  | readSession (port : PortId) (clocked : Nat)
  | replyReady (port : PortId)
  -- Line time
  | lineTimeAdvance (events : AdvanceEvents)
  | edgeCrossed (tag : Nat) (edge : Edge)
  | readyTimeReached (move : Nat)
  | rescueCompareReached (tag : Nat)
  | holdAtReached
  | staleCompareReached (station : Nat)
  | moveLimitReached (move : Nat)
  | burstFallsDue (channel : Nat)
  | burstEnd (channel : Nat)
  | unagitatedLimitPassed (tag : Nat)
  | alarmAssert
  -- Device
  | powerOn
  | resetn
  deriving DecidableEq, Repr

end Sys2Proof
end

