-- ==== Sys2Proof/WellFormed.lean ====
section
/-! DEFINITION. A command is well formed when a master can send it: every operand fits the width R192 gives its payload
field, DRAFT-STEPS carries one to five steps (R22), and a session clocks what its row says. A value that fits its width but
lies outside the range of its rule is well formed: the rule answers it. -/

namespace Sys2Proof

/-- The value fits a one-byte field. -/
def fits8 (n : Nat) : Bool := decide (n < 256)

/-- The value fits a two-byte field. -/
def fits16 (n : Nat) : Bool := decide (n < 65536)

/-- The value fits a signed two-byte field (R192: two's complement). -/
def fitsI16 (z : Int) : Bool := decide (-32768 ≤ z) && decide (z ≤ 32767)

/-- Each field of a carried step fits the layout of R192. -/
def RawStep.wf (r : RawStep) : Bool :=
  fits8 r.group && fits16 r.timeA && fits16 r.timeB && fits16 r.timeC && fits16 r.drip && fits16 r.unagitated

/-- Each field of a SET-BATH payload fits the layout of R192. -/
def BathSettings.wf (b : BathSettings) : Bool :=
  fitsI16 b.tset && fits16 b.band && fits16 b.trip && fits16 b.settle && fits16 b.stale && fits16 b.slew && fitsI16 b.gain
    && fits8 b.shift && fits16 b.dmax && fits16 b.rmin && fits16 b.rmax && fits16 b.quantum && fits16 b.exitAllowance

/-- The command can be sent: every operand fits its field. -/
def Instr.wf : Instr → Bool
  | .setStation st cls grp x n al sv rl =>
    fits8 st && fits8 cls && fits8 grp && fits16 x && fits8 n && fits16 al && fits8 sv && fits8 rl
  | .clearStation st => fits8 st
  | .block st sl => fits8 st && fits8 sl
  | .unblock st sl => fits8 st && fits8 sl
  | .readStation st => fits8 st
  | .draftRecipe r n => fits8 r && fits8 n
  | .draftSteps r f steps =>
    fits8 r && fits8 f && decide (1 ≤ steps.length) && decide (steps.length ≤ 5) && steps.all RawStep.wf
  | .writeRecipe r => fits8 r
  | .discardStaged r => fits8 r
  | .readRecipe r v f => fits8 r && fits8 v && fits8 f
  | .admitHanger t r sc ar st sl => fits8 t && fits8 r && fits16 sc && fits16 ar && fits8 st && fits8 sl
  | .abortHanger t => fits8 t
  | .resumeHanger t => fits8 t
  | .restartHanger t => fits8 t
  | .recover t st sl => fits8 t && fits8 st && fits8 sl
  | .unloaded st sl => fits8 st && fits8 sl
  | .readHanger t => fits8 t
  | .readRun t f => fits8 t && fits8 f
  | .readTiming t => fits8 t
  | .setBath st b => fits8 st && b.wf
  | .bathReport st z => fits8 st && fitsI16 z
  | .bathTrip st => fits8 st
  | .bathClear st => fits8 st
  | .replenished st => fits8 st
  | .readBath st => fits8 st
  | .readMoves f => fits8 f
  | .setGantry g lo hi h p m => fits8 g && fits8 lo && fits8 hi && fits16 h && fits8 p && fits16 m
  | .setGuard gap => fits16 gap
  | .gantryPause g => fits8 g
  | .gantryResume g => fits8 g
  | .gantryReset g => fits8 g
  | .readGantry g => fits8 g
  | .setChannel c st en b len => fits8 c && fits8 st && fits8 en && fits16 b && fits8 len
  | .setGasLimit g => fits8 g
  | .gasHold c h => fits8 c && fits8 h
  | .readChannel c => fits8 c
  | .run => true
  | .drain => true
  | .hold => true
  | .stop => true
  | .holdAt _ => true
  | .clearLine => true
  | .setGrace g => fits16 g
  | .rescueClear l => fits8 l
  | .readLine => true
  | .setAlarm d => fits16 d
  | .hello _ => true
  | .homed _ => true
  | .claim _ => true
  | .lifted _ m => fits8 m
  | .lowered _ m => fits8 m
  | .done _ m => fits8 m
  | .abandon _ m x => fits8 m && fits16 x
  | .fault _ pr m c => fits8 pr && fits8 m && fits8 c
  | .getNotice _ => true
  | .setMask _ _ => true
  | .ident _ => true
  | .unknownRequest _ _ extra => decide (extra < 8)
  | .busyRefused _ n => decide (1 ≤ n)
  | .readSession _ n => decide (1 ≤ n)
  | .replyReady _ => true
  | .lineTimeAdvance _ => true
  | .edgeCrossed t _ => fits8 t
  | .readyTimeReached m => fits8 m
  | .rescueCompareReached t => fits8 t
  | .holdAtReached => true
  | .staleCompareReached st => decide (st < 24)
  | .moveLimitReached m => fits8 m
  | .burstFallsDue c => decide (c < 8)
  | .burstEnd c => decide (c < 8)
  | .unagitatedLimitPassed t => fits8 t
  | .alarmAssert => true
  | .powerOn => true
  | .resetn => true

end Sys2Proof
end

