-- ==== Sys2Proof/Decode.lean ====
section
/-! DEFINITION. The frames of the ports: what a session's bytes spell (R178, R180, R184, R192) and, after it, the frame of
each request, written from the same layouts. The opcode table gives its rows no bits, so `decodeTableWord` answers none. -/

namespace Sys2Proof

/-- The command the bits of an opcode-table row spell: the table gives no row any bits. -/
def decodeTableWord (_nbits _w : Nat) : Option Instr := none

/-! ### Bytes (R192: little-endian, two's complement) -/

/-- A one-byte field. -/
def bytes1 (n : Nat) : List Byte := [BitVec.ofNat 8 n]

/-- A two-byte field, least significant byte first. -/
def bytes2 (n : Nat) : List Byte := [BitVec.ofNat 8 n, BitVec.ofNat 8 (n / 256)]

/-- A three-byte field, least significant byte first. -/
def bytes3 (n : Nat) : List Byte := [BitVec.ofNat 8 n, BitVec.ofNat 8 (n / 256), BitVec.ofNat 8 (n / 65536)]

/-- A four-byte field, least significant byte first. -/
def bytes4 (n : Nat) : List Byte :=
  [BitVec.ofNat 8 n, BitVec.ofNat 8 (n / 256), BitVec.ofNat 8 (n / 65536), BitVec.ofNat 8 (n / 16777216)]

/-- A signed two-byte field in two's complement. -/
def bytesSigned2 (z : Int) : List Byte := bytes2 (z % 65536).toNat

/-- The number two bytes of a field hold. -/
def word2 (lo hi : Byte) : Nat := lo.toNat + 256 * hi.toNat

/-- The signed number two bytes of a field hold. -/
def signed2 (lo hi : Byte) : Int := if word2 lo hi < 32768 then (word2 lo hi : Int) else (word2 lo hi : Int) - 65536

/-- The number four bytes of a field hold. -/
def word4 (b0 b1 b2 b3 : Byte) : Nat := word2 b0 b1 + 65536 * word2 b2 b3

/-! ### From a session to a command -/

/-- The refusals the port itself makes (R180). -/
inductive FrameCheck where
  | badLength
  | unknown
  | wrongPort
  deriving DecidableEq, Repr

/-- What a session is, by its first byte and the checks of R180 (R178). -/
inductive Session where
  /-- No whole byte was clocked: the session has no effect. -/
  | nothing
  /-- A first byte of 00h: a read session of so many whole bytes. -/
  | read (clocked : Nat)
  /-- A request session that fails a check of R180. -/
  | refused (check : FrameCheck)
  /-- A request session that passes the checks, with the request it carries. -/
  | request (i : Instr)
  deriving DecidableEq, Repr

/-- R184: the request codes. -/
def knownCode (c : Nat) : Bool :=
  (decide (0x01 ≤ c) && decide (c ≤ 0x05)) || (decide (0x10 ≤ c) && decide (c ≤ 0x14)) ||
  (decide (0x20 ≤ c) && decide (c ≤ 0x28)) || (decide (0x30 ≤ c) && decide (c ≤ 0x35)) || c == 0x38 ||
  (decide (0x40 ≤ c) && decide (c ≤ 0x45)) || (decide (0x48 ≤ c) && decide (c ≤ 0x4B)) ||
  (decide (0x50 ≤ c) && decide (c ≤ 0x58)) || c == 0x5C || (decide (0x60 ≤ c) && decide (c ≤ 0x67)) ||
  c == 0x70 || c == 0x71 || c == 0x7F

/-- R184, column Ports: codes below 60h on port 0, 60h to 67h on ports 1 and 2, 70h and above on every port. -/
def permitted (p : PortId) (c : Nat) : Bool :=
  if c < 0x60 then p == .p0 else if c < 0x70 then p != .p0 else true

/-- R184: a gantry request on port 1 acts for gantry A, on port 2 for gantry B. -/
def portGantry : PortId → GantryId
  | .p0 => .a
  | .p1 => .a
  | .p2 => .b

/-- R184: gantry A is the master of port 1, gantry B of port 2. -/
def gantryPort : GantryId → PortId
  | .a => .p1
  | .b => .p2

/-- The steps of a DRAFT-STEPS payload, 11 bytes each (R192); none when the bytes are no whole number of steps. -/
def parseSteps : List Byte → Option (List RawStep)
  | [] => some []
  | g :: a0 :: a1 :: b0 :: b1 :: c0 :: c1 :: d0 :: d1 :: u0 :: u1 :: rest =>
    (parseSteps rest).map (fun l => ⟨g.toNat, word2 a0 a1, word2 b0 b1, word2 c0 c1, word2 d0 d1, word2 u0 u1⟩ :: l)
  | _ => none

/-- R22: a DRAFT-STEPS payload carries one to five steps. -/
def parseDraftSteps (r f : Byte) (rest : List Byte) : Option Instr :=
  match parseSteps rest with
  | some steps => if 1 ≤ steps.length ∧ steps.length ≤ 5 then some (.draftSteps r.toNat f.toNat steps) else none
  | none => none

/-- The request a code and a payload carry (R192); none when the payload length is not one the request accepts. -/
def parsePayload (p : PortId) (c : Nat) (payload : List Byte) : Option Instr :=
  match c, payload with
  | 0x01, [st, cl, gr, x0, x1, n, a0, a1, sv, rl] =>
    some (.setStation st.toNat cl.toNat gr.toNat (word2 x0 x1) n.toNat (word2 a0 a1) sv.toNat rl.toNat)
  | 0x02, [st] => some (.clearStation st.toNat)
  | 0x03, [st, sl] => some (.block st.toNat sl.toNat)
  | 0x04, [st, sl] => some (.unblock st.toNat sl.toNat)
  | 0x05, [st] => some (.readStation st.toNat)
  | 0x10, [r, n] => some (.draftRecipe r.toNat n.toNat)
  | 0x11, r :: f :: rest => parseDraftSteps r f rest
  | 0x12, [r] => some (.writeRecipe r.toNat)
  | 0x13, [r] => some (.discardStaged r.toNat)
  | 0x14, [r, v, f] => some (.readRecipe r.toNat v.toNat f.toNat)
  | 0x20, [t, r, s0, s1, a0, a1, st, sl] => some (.admitHanger t.toNat r.toNat (word2 s0 s1) (word2 a0 a1) st.toNat sl.toNat)
  | 0x21, [t] => some (.abortHanger t.toNat)
  | 0x22, [t] => some (.resumeHanger t.toNat)
  | 0x23, [t] => some (.restartHanger t.toNat)
  | 0x24, [t, st, sl] => some (.recover t.toNat st.toNat sl.toNat)
  | 0x25, [st, sl] => some (.unloaded st.toNat sl.toNat)
  | 0x26, [t] => some (.readHanger t.toNat)
  | 0x27, [t, f] => some (.readRun t.toNat f.toNat)
  | 0x28, [t] => some (.readTiming t.toNat)
  | 0x30, [st, t0, t1, b0, b1, l0, l1, e0, e1, f0, f1, w0, w1, k0, k1, s, d0, d1, m0, m1, n0, n1, q0, q1, x0, x1] =>
    some (.setBath st.toNat ⟨signed2 t0 t1, word2 b0 b1, word2 l0 l1, word2 e0 e1, word2 f0 f1, word2 w0 w1, signed2 k0 k1,
      s.toNat, word2 d0 d1, word2 m0 m1, word2 n0 n1, word2 q0 q1, word2 x0 x1⟩)
  | 0x31, [st, z0, z1] => some (.bathReport st.toNat (signed2 z0 z1))
  | 0x32, [st] => some (.bathTrip st.toNat)
  | 0x33, [st] => some (.bathClear st.toNat)
  | 0x34, [st] => some (.replenished st.toNat)
  | 0x35, [st] => some (.readBath st.toNat)
  | 0x38, [f] => some (.readMoves f.toNat)
  | 0x40, [g, lo, hi, h0, h1, pc, m0, m1] =>
    some (.setGantry g.toNat lo.toNat hi.toNat (word2 h0 h1) pc.toNat (word2 m0 m1))
  | 0x41, [g0, g1] => some (.setGuard (word2 g0 g1))
  | 0x42, [g] => some (.gantryPause g.toNat)
  | 0x43, [g] => some (.gantryResume g.toNat)
  | 0x44, [g] => some (.gantryReset g.toNat)
  | 0x45, [g] => some (.readGantry g.toNat)
  | 0x48, [ch, st, en, b0, b1, n] => some (.setChannel ch.toNat st.toNat en.toNat (word2 b0 b1) n.toNat)
  | 0x49, [g] => some (.setGasLimit g.toNat)
  | 0x4A, [ch, h] => some (.gasHold ch.toNat h.toNat)
  | 0x4B, [ch] => some (.readChannel ch.toNat)
  | 0x50, [] => some .run
  | 0x51, [] => some .drain
  | 0x52, [] => some .hold
  | 0x53, [] => some .stop
  | 0x54, [t0, t1, t2, t3] => some (.holdAt (BitVec.ofNat 32 (word4 t0 t1 t2 t3)))
  | 0x55, [] => some .clearLine
  | 0x56, [g0, g1] => some (.setGrace (word2 g0 g1))
  | 0x57, [l] => some (.rescueClear l.toNat)
  | 0x58, [] => some .readLine
  | 0x5C, [d0, d1] => some (.setAlarm (word2 d0 d1))
  | 0x60, [] => some (.hello (portGantry p))
  | 0x61, [] => some (.homed (portGantry p))
  | 0x62, [] => some (.claim (portGantry p))
  | 0x63, [m] => some (.lifted (portGantry p) m.toNat)
  | 0x64, [m] => some (.lowered (portGantry p) m.toNat)
  | 0x65, [m] => some (.done (portGantry p) m.toNat)
  | 0x66, [m, x0, x1] => some (.abandon (portGantry p) m.toNat (word2 x0 x1))
  | 0x67, [pr, m, k] => some (.fault (portGantry p) pr.toNat m.toNat k.toNat)
  | 0x70, [] => some (.getNotice p)
  | 0x71, [m0, m1] => some (.setMask p (BitVec.ofNat 16 (word2 m0 m1)))
  | 0x7F, [] => some (.ident p)
  | _, _ => none

/-- R180, checks 1 to 4 in order, on the bytes of a request session; `whole` says that no bits were left over. -/
def decodeRequest (p : PortId) (whole : Bool) (bytes : List Byte) : Session :=
  match bytes with
  | c :: n :: payload =>
    if whole && payload.length == n.toNat && decide (n.toNat ≤ 60) then
      if !knownCode c.toNat then .refused .unknown
      else if !permitted p c.toNat then .refused .wrongPort
      else match parsePayload p c.toNat payload with
        | some i => .request i
        | none => .refused .badLength
    else .refused .badLength
  | _ => .refused .badLength

/-- R178: what a session is. `bytes` are the whole bytes clocked in and `extraBits` the bits clocked after the last. -/
def decodeSession (p : PortId) (bytes : List Byte) (extraBits : Nat) : Session :=
  match bytes with
  | [] => .nothing
  | c :: _ => if c = 0 then .read bytes.length else decodeRequest p (extraBits == 0) bytes

/-! ### From a request to its frame -/

/-- The eleven bytes of a carried step (R192). -/
def RawStep.bytes (r : RawStep) : List Byte :=
  bytes1 r.group ++ bytes2 r.timeA ++ bytes2 r.timeB ++ bytes2 r.timeC ++ bytes2 r.drip ++ bytes2 r.unagitated

/-- The twenty-five bytes of the settings, in the order of the SET-BATH payload (R192). -/
def BathSettings.bytes (b : BathSettings) : List Byte :=
  bytesSigned2 b.tset ++ bytes2 b.band ++ bytes2 b.trip ++ bytes2 b.settle ++ bytes2 b.stale ++ bytes2 b.slew
    ++ bytesSigned2 b.gain ++ bytes1 b.shift ++ bytes2 b.dmax ++ bytes2 b.rmin ++ bytes2 b.rmax ++ bytes2 b.quantum
    ++ bytes2 b.exitAllowance

/-- A request's port, code and payload (R184, R192); none for a command that is no request frame. -/
def encodeRequest : Instr → Option (PortId × Nat × List Byte)
  | .setStation st cl gr x n al sv rl =>
    some (.p0, 0x01, bytes1 st ++ bytes1 cl ++ bytes1 gr ++ bytes2 x ++ bytes1 n ++ bytes2 al ++ bytes1 sv ++ bytes1 rl)
  | .clearStation st => some (.p0, 0x02, bytes1 st)
  | .block st sl => some (.p0, 0x03, bytes1 st ++ bytes1 sl)
  | .unblock st sl => some (.p0, 0x04, bytes1 st ++ bytes1 sl)
  | .readStation st => some (.p0, 0x05, bytes1 st)
  | .draftRecipe r n => some (.p0, 0x10, bytes1 r ++ bytes1 n)
  | .draftSteps r f steps => some (.p0, 0x11, bytes1 r ++ bytes1 f ++ steps.flatMap RawStep.bytes)
  | .writeRecipe r => some (.p0, 0x12, bytes1 r)
  | .discardStaged r => some (.p0, 0x13, bytes1 r)
  | .readRecipe r v f => some (.p0, 0x14, bytes1 r ++ bytes1 v ++ bytes1 f)
  | .admitHanger t r sc ar st sl =>
    some (.p0, 0x20, bytes1 t ++ bytes1 r ++ bytes2 sc ++ bytes2 ar ++ bytes1 st ++ bytes1 sl)
  | .abortHanger t => some (.p0, 0x21, bytes1 t)
  | .resumeHanger t => some (.p0, 0x22, bytes1 t)
  | .restartHanger t => some (.p0, 0x23, bytes1 t)
  | .recover t st sl => some (.p0, 0x24, bytes1 t ++ bytes1 st ++ bytes1 sl)
  | .unloaded st sl => some (.p0, 0x25, bytes1 st ++ bytes1 sl)
  | .readHanger t => some (.p0, 0x26, bytes1 t)
  | .readRun t f => some (.p0, 0x27, bytes1 t ++ bytes1 f)
  | .readTiming t => some (.p0, 0x28, bytes1 t)
  | .setBath st b => some (.p0, 0x30, bytes1 st ++ b.bytes)
  | .bathReport st z => some (.p0, 0x31, bytes1 st ++ bytesSigned2 z)
  | .bathTrip st => some (.p0, 0x32, bytes1 st)
  | .bathClear st => some (.p0, 0x33, bytes1 st)
  | .replenished st => some (.p0, 0x34, bytes1 st)
  | .readBath st => some (.p0, 0x35, bytes1 st)
  | .readMoves f => some (.p0, 0x38, bytes1 f)
  | .setGantry g lo hi h pc m =>
    some (.p0, 0x40, bytes1 g ++ bytes1 lo ++ bytes1 hi ++ bytes2 h ++ bytes1 pc ++ bytes2 m)
  | .setGuard gap => some (.p0, 0x41, bytes2 gap)
  | .gantryPause g => some (.p0, 0x42, bytes1 g)
  | .gantryResume g => some (.p0, 0x43, bytes1 g)
  | .gantryReset g => some (.p0, 0x44, bytes1 g)
  | .readGantry g => some (.p0, 0x45, bytes1 g)
  | .setChannel ch st en b n => some (.p0, 0x48, bytes1 ch ++ bytes1 st ++ bytes1 en ++ bytes2 b ++ bytes1 n)
  | .setGasLimit g => some (.p0, 0x49, bytes1 g)
  | .gasHold ch h => some (.p0, 0x4A, bytes1 ch ++ bytes1 h)
  | .readChannel ch => some (.p0, 0x4B, bytes1 ch)
  | .run => some (.p0, 0x50, [])
  | .drain => some (.p0, 0x51, [])
  | .hold => some (.p0, 0x52, [])
  | .stop => some (.p0, 0x53, [])
  | .holdAt t => some (.p0, 0x54, bytes4 t.toNat)
  | .clearLine => some (.p0, 0x55, [])
  | .setGrace g => some (.p0, 0x56, bytes2 g)
  | .rescueClear l => some (.p0, 0x57, bytes1 l)
  | .readLine => some (.p0, 0x58, [])
  | .setAlarm d => some (.p0, 0x5C, bytes2 d)
  | .hello g => some (gantryPort g, 0x60, [])
  | .homed g => some (gantryPort g, 0x61, [])
  | .claim g => some (gantryPort g, 0x62, [])
  | .lifted g m => some (gantryPort g, 0x63, bytes1 m)
  | .lowered g m => some (gantryPort g, 0x64, bytes1 m)
  | .done g m => some (gantryPort g, 0x65, bytes1 m)
  | .abandon g m x => some (gantryPort g, 0x66, bytes1 m ++ bytes2 x)
  | .fault g pr m k => some (gantryPort g, 0x67, bytes1 pr ++ bytes1 m ++ bytes1 k)
  | .getNotice p => some (p, 0x70, [])
  | .setMask p m => some (p, 0x71, bytes2 m.toNat)
  | .ident p => some (p, 0x7F, [])
  | .unknownRequest _ _ _ => none
  | .busyRefused _ _ => none
  | .readSession _ _ => none
  | .replyReady _ => none
  | .lineTimeAdvance _ => none
  | .edgeCrossed _ _ => none
  | .readyTimeReached _ => none
  | .rescueCompareReached _ => none
  | .holdAtReached => none
  | .staleCompareReached _ => none
  | .moveLimitReached _ => none
  | .burstFallsDue _ => none
  | .burstEnd _ => none
  | .unagitatedLimitPassed _ => none
  | .alarmAssert => none
  | .powerOn => none
  | .resetn => none

/-- The request frame of R192: the code, the payload length, the payload. -/
def requestFrame (code : Nat) (payload : List Byte) : List Byte :=
  bytes1 code ++ bytes1 payload.length ++ payload

end Sys2Proof
end

