-- ==== Sys2Proof/Machine/State.lean ====
section
/-! DEFINITION. The state of the Bardec 340 as plain data: every record, list, counter, flag and output the manual names,
the queue of the commands that wait, and the state after reset. -/

namespace Sys2Proof.Machine

/-! ### Reasons a step can stop -/

/-- The part has no fault that stops it: a refused request is answered with its status code (00_scope.md, Request and
notice names), and a gantry's FAULT is a state of its record (R146). No command raises a fault, so there is none. -/
inductive Fault where
  deriving DecidableEq, Repr

/-- Why a command is turned away by the model. -/
inductive Refusal where
  /-- The command has no meaning in the model yet. Raised by exec's arm of that command alone; safe, since the model then
  says nothing of it. No arm raises it. -/
  | notModelled (mnemonic : String)
  deriving DecidableEq, Repr

/-! ### Station map (chapter 1) -/

/-- R2: the class of a station. -/
inductive StationClass where
  | load | strict | bounded | opened | unload
  deriving DecidableEq, Repr

/-- R4: the kind of a reservation. -/
inductive ReservationKind where
  | destination | forward
  deriving DecidableEq, Repr

/-- R4: a slot record. -/
inductive Slot where
  | free
  | occupied (tag : Nat)
  | reserved (tag : Nat) (kind : ReservationKind)
  | blocked
  deriving DecidableEq, Repr

/-- A slot of a station, by their indices. -/
structure SlotRef where
  station : Nat
  slot : Nat
  deriving DecidableEq, Repr

/-- R1: a station record with its slot records. A slot place at or above the slot count does not exist and is kept FREE. -/
structure Station where
  configured : Bool
  cls : StationClass
  group : Nat
  coordinate : Nat
  slotCount : Nat
  allowance : Nat
  supervised : Bool
  rescueLine : Option Nat
  gasChannel : Option Nat
  slots : Vector Slot 4
  deriving DecidableEq, Repr

/-- R17: an absent station, every field at its power-on value. -/
def Station.absent : Station :=
  { configured := false, cls := .load, group := 0, coordinate := 0, slotCount := 1, allowance := 0, supervised := false,
    rescueLine := none, gasChannel := none, slots := Vector.replicate 4 .free }

/-! ### Recipe table (chapter 2) -/

/-- R24, R26, R192: the reason of a recipe fault. -/
inductive RecipeReason where
  | incomplete | emptyGroup | notAStep | classChanged | range | strictRepeat | noUnload | empty
  deriving DecidableEq, Repr

/-- R19: a step of a version. -/
structure RecipeStep where
  group : Nat
  cls : StationClass
  timeA : Nat
  timeB : Nat
  timeC : Nat
  drip : Nat
  unagitated : Nat
  deriving DecidableEq, Repr

/-- R18: a recipe entry. An empty active version is the empty list. -/
structure Recipe where
  active : List RecipeStep
  staged : Option (List RecipeStep)
  useCount : Nat
  valid : Bool
  lastFault : Option (Nat × RecipeReason)
  deriving DecidableEq, Repr

/-- R32: a recipe entry at power-on. -/
def Recipe.blank : Recipe := { active := [], staged := none, useCount := 0, valid := true, lastFault := none }

/-- Section 2.2: the draft; `steps` has one place for each position below the step count. -/
structure Draft where
  recipe : Nat
  steps : List (Option RawStep)
  deriving DecidableEq, Repr

/-! ### Hanger table and immersion records (chapters 3 and 4) -/

/-- R35: the state of a live hanger. -/
inductive HangerState where
  | loaded | immersed | inTransit | rescued | stranded | done | aborted
  deriving DecidableEq, Repr

/-- R33: the sub-phase of IN-TRANSIT. -/
inductive TransitPhase where
  | granted | carried
  deriving DecidableEq, Repr

/-- R33: where a hanger is. -/
inductive Location where
  | slot (ref : SlotRef)
  | gantry (g : GantryId)
  deriving DecidableEq, Repr

/-- R33: how an ABORTED hanger came to rest. -/
inductive RestCause where
  | inStep | abortMove | recovered | unstarted | exit
  deriving DecidableEq, Repr

/-- R38: the verdict on a closed entry. -/
inductive Condition where
  | onTime | early | late | under | over | aborted
  deriving DecidableEq, Repr

/-- R38, R41: the notes of a run entry. -/
structure Notes where
  uncompensated : Bool
  unagitated : Bool
  rescued : Bool
  stranded : Bool
  resumed : Bool
  deriving DecidableEq, Repr

/-- No note set. -/
def Notes.none : Notes := ⟨false, false, false, false, false⟩

/-- R38: an entry of the run record; it is open while its end time is absent. -/
structure RunEntry where
  station : Nat
  slot : Nat
  start : LineTime
  endTime : Option LineTime
  actual : Option Nat
  reference : Option Nat
  condition : Option Condition
  notes : Notes
  deriving DecidableEq, Repr

/-- R62: an immersion record; `station` is the station of the immersion (log 24). -/
structure Immersion where
  cls : Option StationClass
  station : Nat
  counting : Bool
  entryTime : LineTime
  elapsed : Nat
  unagitated : Nat
  minimum : Nat
  maximum : Nat
  effective : Nat
  opening : Nat
  closing : Nat
  progress : Nat
  crossOpening : Option LineTime
  crossTarget : Option LineTime
  crossClosing : Option LineTime
  predOpening : LineTime
  predTarget : LineTime
  predClosing : LineTime
  compare : Option LineTime
  fired : Bool
  deriving DecidableEq, Repr

/-- R62: ADMIT and RESTART-HANGER set class none, counting no and all counts 0. The fields R62 does not name there, the entry
time among them, are 0 or absent (log 30, DESIGN CHOICE). -/
def Immersion.blank : Immersion :=
  { cls := none, station := 0, counting := false, entryTime := 0, elapsed := 0, unagitated := 0, minimum := 0, maximum := 0,
    effective := 0, opening := 0, closing := 0, progress := 0, crossOpening := none, crossTarget := none,
    crossClosing := none, predOpening := 0, predTarget := 0, predClosing := 0, compare := none, fired := false }

/-- R33: a live hanger record. -/
structure Hanger where
  tag : Nat
  seq : Seq
  recipe : Nat
  bound : Bool
  scale : Nat
  area : Nat
  state : HangerState
  phase : Option TransitPhase
  step : Nat
  location : Location
  forward : Option SlotRef
  pendingAbort : Bool
  restCause : Option RestCause
  imm : Immersion
  run : List RunEntry
  dropped : Nat
  deriving DecidableEq, Repr

/-! ### Bath supervisor (chapter 5) -/

/-- R89: the readiness of an active bath. -/
inductive Readiness where
  | warming | ready | drift | stale | tripped
  deriving DecidableEq, Repr

/-- R82: where a STALE bath goes at its next reading. -/
inductive ReturnState where
  | warming | inService
  deriving DecidableEq, Repr

/-- R82: what tripped the bath. -/
inductive TripCause where
  | reading | request
  deriving DecidableEq, Repr

/-- R82: an active bath record; `activation` is the line time of its activation (log 24). -/
structure Bath where
  settings : BathSettings
  readiness : Readiness
  latest : Option (Int × LineTime)
  used : Option Int
  firstReading : Bool
  rateHeld : Bool
  deviation : Int
  rate : Nat
  warmingEntry : LineTime
  staleCompare : Option LineTime
  returnState : ReturnState
  tripCause : Option TripCause
  area : Nat
  debt : Nat
  activation : LineTime
  deriving DecidableEq, Repr

/-! ### Move list (chapter 6) -/

/-- R104: the kind of a move. -/
inductive MoveKind where
  | entry | step | exit | abort | yielding
  deriving DecidableEq, Repr

/-- R101: the state of a move. -/
inductive MoveState where
  | waiting | ready | granted | carried | placed
  deriving DecidableEq, Repr

/-- R101: an end of a move: a slot, or a coordinate for a YIELD move. -/
inductive Place where
  | slot (ref : SlotRef)
  | point (x : Nat)
  deriving DecidableEq, Repr

/-- R101: a move record; `blocked` is the blocked move a YIELD move records (R138). -/
structure Move where
  id : Nat
  kind : MoveKind
  tag : Option Nat
  seq : Option Seq
  source : Place
  dest : Option Place
  ready : LineTime
  due : Option LineTime
  deadline : Option LineTime
  drip : Nat
  state : MoveState
  gantry : Option GantryId
  grantTime : Option LineTime
  estimate : Option Nat
  limit : Option LineTime
  blocked : Option Nat
  deriving DecidableEq, Repr

/-- R124, R192: the test a held move failed. -/
inductive HoldTest where
  | mode | destination | zone | protection | gate
  deriving DecidableEq, Repr

/-! ### Gantries (chapter 7) -/

/-- R131: the link state of a gantry. -/
inductive LinkState where
  | offline | homing | ready | busy | paused | faulted
  deriving DecidableEq, Repr

/-- R127, R147: the stranded hold of a gantry. -/
structure StrandedHold where
  tag : Nat
  dest : SlotRef
  deriving DecidableEq, Repr

/-- R127: a gantry record. -/
structure Gantry where
  link : LinkState
  pausePending : Bool
  reachLow : Nat
  reachHigh : Nat
  handling : Nat
  pace : Nat
  margin : Nat
  homing : Nat
  point : Nat
  spanLow : Nat
  spanHigh : Nat
  granted : Option Nat
  last : Option Nat
  faultCode : Option Nat
  hold : Option StrandedHold
  deriving DecidableEq, Repr

/-- R127: a gantry record at power-on, with its homing target `x`. -/
def Gantry.atPowerOn (x : Nat) : Gantry :=
  { link := .offline, pausePending := false, reachLow := 0, reachHigh := 23, handling := 150, pace := 40, margin := 300,
    homing := x, point := x, spanLow := x, spanHigh := x, granted := none, last := none, faultCode := none, hold := none }

/-! ### Agitation timer (chapter 8) -/

/-- R154: the state of a burst channel. -/
inductive ChannelState where
  | off | paused | waiting | deferred | bursting | held
  deriving DecidableEq, Repr

/-- R160: a hold cause. -/
inductive HoldCause where
  | supervisor | trip | rescue
  deriving DecidableEq, Repr

/-- R151: a burst channel. -/
structure Channel where
  station : Option Nat
  enable : Bool
  cadence : Nat
  length : Nat
  interval : Nat
  remainder : Nat
  accumulator : Nat
  state : ChannelState
  nextDue : Option LineTime
  deferredDue : Option LineTime
  burstEnd : Option LineTime
  holdSupervisor : Bool
  holdTrip : Bool
  holdRescue : Bool
  empty : Bool
  bursts : Nat
  skips : Nat
  deriving DecidableEq, Repr

/-- R164: a burst channel at power-on. -/
def Channel.atPowerOn : Channel :=
  { station := none, enable := false, cadence := 10, length := 10, interval := 600, remainder := 0, accumulator := 0,
    state := .off, nextDue := none, deferredDue := none, burstEnd := none, holdSupervisor := false, holdTrip := false,
    holdRescue := false, empty := true, bursts := 0, skips := 0 }

/-! ### Line modes and rescue (chapter 9) -/

/-- R165: the line mode. -/
inductive LineMode where
  | idle | run | drain | hold
  deriving DecidableEq, Repr

/-- R170: a rescue line record; its Station field is read from the station map. -/
structure RescueLine where
  asserted : Bool
  assertTime : Option LineTime
  causeTag : Option Nat
  deriving DecidableEq, Repr

/-- R170: a rescue line record at power-on. -/
def RescueLine.atPowerOn : RescueLine := { asserted := false, assertTime := none, causeTag := none }

/-! ### Ports (chapter 10) -/

/-- R183: the status codes. -/
inductive Status where
  | ok | clamped | staged | acceptedPending | none | badLength | unknown | wrongPort | badArg | badRecipe | badReading
  | inUse | full | noSuch | notNow | busy | wrongMove | outOfOrder | tooLate | stillTripped
  deriving DecidableEq, Repr

/-- A reply before it is framed: the status and the payload bytes (R183, R192). -/
structure Reply where
  status : Status
  payload : List Byte
  deriving DecidableEq, Repr

/-- R185: the notice kinds. -/
inductive NoticeKind where
  | step | done | condition | overdue | bathState | replenish | unagitated | rescue | stranded | moveTimeout
  | gantryState | recipeSwapped | lineMode | work | pause
  deriving DecidableEq, Repr

/-- R185: a notice. -/
structure Notice where
  kind : NoticeKind
  time : LineTime
  tag : Option Nat
  station : Option Nat
  move : Option Nat
  codeA : Nat
  codeB : Nat
  codeC : Nat
  codeD : Nat
  deriving DecidableEq, Repr

/-- R179: the state of a port with its reply holder: EMPTY, WORKING with the reply being formed, HELD with the frame. -/
inductive Holder where
  | empty
  | working (reply : Reply)
  | held (frame : List Byte)
  deriving DecidableEq, Repr

/-- The record of one port. `shifted` holds the bytes its data output shifted out in the last session (R178, log 2). -/
structure Port where
  holder : Holder
  busyRefused : Bool
  queue : List Notice
  overflow : Bool
  mask : BitVec 16
  shifted : List Byte
  deriving DecidableEq, Repr

/-- R193: a port at power-on. -/
def Port.atPowerOn : Port :=
  { holder := .empty, busyRefused := false, queue := [], overflow := false, mask := 0, shifted := [] }

/-! ### The machine -/

/-- The whole state of the block, and the queue of the commands that wait for it, first in, first out (log 1). -/
structure State where
  lineTime : LineTime
  stations : Vector Station 24
  recipes : Vector Recipe 16
  draft : Option Draft
  hangers : List Hanger
  startOrder : List Nat
  admissions : Seq
  baths : Vector (Option Bath) 24
  moves : List Move
  moveCounter : Nat
  gantryA : Gantry
  gantryB : Gantry
  guardGap : Nat
  channels : Vector Channel 8
  gasLimit : Nat
  mode : LineMode
  holdAt : Option LineTime
  grace : Nat
  lines : Vector RescueLine 4
  port0 : Port
  port1 : Port
  port2 : Port
  alarmDelay : Nat
  alarm : Bool
  pending : List Instr
  deriving DecidableEq, Repr

/-- The block right after power-on or RESETN (R17, R32, R59, R60, R81, R100, R126, R127, R150, R164, R165, R170, R193). -/
def State.reset : State :=
  { lineTime := 0
    stations := Vector.replicate 24 Station.absent
    recipes := Vector.replicate 16 Recipe.blank
    draft := none
    hangers := []
    startOrder := []
    admissions := 0
    baths := Vector.replicate 24 none
    moves := []
    moveCounter := 0
    gantryA := Gantry.atPowerOn 0
    gantryB := Gantry.atPowerOn 4095
    guardGap := 200
    channels := Vector.replicate 8 Channel.atPowerOn
    gasLimit := 2
    mode := .idle
    holdAt := none
    grace := 100
    lines := Vector.replicate 4 RescueLine.atPowerOn
    port0 := Port.atPowerOn
    port1 := Port.atPowerOn
    port2 := Port.atPowerOn
    alarmDelay := 300
    alarm := false
    pending := [] }

end Sys2Proof.Machine
end

