-- ==== Sys2Proof/Machine/Flags.lean ====
section
/-! DEFINITION. The outputs of the block: the pins the manual derives from records (GAS, RESCUE, RDY, ATN) and the test behind
ALARM. -/

namespace Sys2Proof.Machine

/-- R151: GASn is asserted while channel n is BURSTING. -/
def State.gasPin (s : State) (n : Nat) : Bool :=
  match s.channels[n]? with
  | some c => c.state == .bursting
  | none => false

/-- R170: RESCUEn is asserted while rescue line record n is asserted. -/
def State.rescuePin (s : State) (n : Nat) : Bool :=
  match s.lines[n]? with
  | some l => l.asserted
  | none => false

/-- R179: the port is WORKING, which drives its RDY low. -/
def Port.working (q : Port) : Bool :=
  match q.holder with
  | .working _ => true
  | _ => false

/-- R179: RDY is high (released) in EMPTY and HELD and driven low in WORKING. -/
def Port.rdyHigh (q : Port) : Bool := !q.working

/-- R186: ATN is driven low while the queue is not empty. -/
def Port.atnLow (q : Port) : Bool := !q.queue.isEmpty

/-- R185: RESCUE and STRANDED are the non-maskable kinds of the supervisor port; every other kind is maskable. -/
def NoticeKind.maskable : NoticeKind → Bool
  | .rescue => false
  | .stranded => false
  | _ => true

/-- R190: the age of a notice is the line time less its own, mod 2^32. -/
def Notice.age (n : Notice) (now : LineTime) : Nat := (now - n.time).toNat

/-- R190: the supervisor queue holds a non-maskable notice older than the alarm delay. -/
def State.alarmDue (s : State) : Bool :=
  s.port0.queue.any (fun n => !n.kind.maskable && decide (s.alarmDelay < n.age s.lineTime))

end Sys2Proof.Machine
end

