-- ==== Sys2Proof/Machine/Operands.lean ====
section
/-! DEFINITION. The fields of request and reply payloads: the numbers of the enumerations, the encodings of none, presence
bytes, and the record layouts that more than one reply uses (R183, R185, R192). -/

namespace Sys2Proof.Machine

/-! ### Enumerations (R192: numbered from 0 in the order given) -/

def StationClass.code : StationClass → Nat
  | .load => 0 | .strict => 1 | .bounded => 2 | .opened => 3 | .unload => 4

/-- The class a class code names; none for a code outside the list (R8). -/
def stationClassOf : Nat → Option StationClass
  | 0 => some .load | 1 => some .strict | 2 => some .bounded | 3 => some .opened | 4 => some .unload | _ => none

def ReservationKind.code : ReservationKind → Nat
  | .destination => 0 | .forward => 1

def Condition.code : Condition → Nat
  | .onTime => 0 | .early => 1 | .late => 2 | .under => 3 | .over => 4 | .aborted => 5

def HangerState.code : HangerState → Nat
  | .loaded => 0 | .immersed => 1 | .inTransit => 2 | .rescued => 3 | .stranded => 4 | .done => 5 | .aborted => 6

def Readiness.code : Readiness → Nat
  | .warming => 0 | .ready => 1 | .drift => 2 | .stale => 3 | .tripped => 4

def LinkState.code : LinkState → Nat
  | .offline => 0 | .homing => 1 | .ready => 2 | .busy => 3 | .paused => 4 | .faulted => 5

def MoveKind.code : MoveKind → Nat
  | .entry => 0 | .step => 1 | .exit => 2 | .abort => 3 | .yielding => 4

def MoveState.code : MoveState → Nat
  | .waiting => 0 | .ready => 1 | .granted => 2 | .carried => 3 | .placed => 4

def LineMode.code : LineMode → Nat
  | .idle => 0 | .run => 1 | .drain => 2 | .hold => 3

def HoldTest.code : HoldTest → Nat
  | .mode => 0 | .destination => 1 | .zone => 2 | .protection => 3 | .gate => 4

def RecipeReason.code : RecipeReason → Nat
  | .incomplete => 0 | .emptyGroup => 1 | .notAStep => 2 | .classChanged => 3 | .range => 4 | .strictRepeat => 5
  | .noUnload => 6 | .empty => 7

def TransitPhase.code : TransitPhase → Nat
  | .granted => 0 | .carried => 1

def RestCause.code : RestCause → Nat
  | .inStep => 0 | .abortMove => 1 | .recovered => 2 | .unstarted => 3 | .exit => 4

def TripCause.code : TripCause → Nat
  | .reading => 0 | .request => 1

def ReturnState.code : ReturnState → Nat
  | .warming => 0 | .inService => 1

def ChannelState.code : ChannelState → Nat
  | .off => 0 | .paused => 1 | .waiting => 2 | .deferred => 3 | .bursting => 4 | .held => 5

/-- Gantry is 0 for A and 1 for B (R192). -/
def gantryCode : GantryId → Nat
  | .a => 0 | .b => 1

/-- The gantry a field names; none for a value other than A or B. -/
def gantryOf : Nat → Option GantryId
  | 0 => some .a | 1 => some .b | _ => none

/-- A yes or no field is 01h or 00h (R192); none for another value. -/
def yesNoOf : Nat → Option Bool
  | 0 => some false | 1 => some true | _ => none

/-- GAS-HOLD's setting: SET is 0 and RELEASE is 1 (R192); true for SET. -/
def holdSettingOf : Nat → Option Bool
  | 0 => some true | 1 => some false | _ => none

/-- An index field that may hold none, encoded FFh (R192), whose indices lie below `n`: the outer none is a value outside
the range. -/
def indexOrNone (n x : Nat) : Option (Option Nat) :=
  if x = 255 then some none else if x < n then some (some x) else none

/-- R183: the status codes. -/
def Status.code : Status → Nat
  | .ok => 0 | .clamped => 1 | .staged => 2 | .acceptedPending => 3 | .none => 4 | .badLength => 5 | .unknown => 6
  | .wrongPort => 7 | .badArg => 8 | .badRecipe => 9 | .badReading => 10 | .inUse => 11 | .full => 12 | .noSuch => 13
  | .notNow => 14 | .busy => 15 | .wrongMove => 16 | .outOfOrder => 17 | .tooLate => 18 | .stillTripped => 19

/-- R185: the kind codes of notices. -/
def NoticeKind.code : NoticeKind → Nat
  | .step => 0 | .done => 1 | .condition => 2 | .overdue => 3 | .bathState => 4 | .replenish => 5 | .unagitated => 6
  | .rescue => 7 | .stranded => 8 | .moveTimeout => 9 | .gantryState => 10 | .recipeSwapped => 11 | .lineMode => 12
  | .work => 0x20 | .pause => 0x21

/-- R189: the bit of a kind in its port's mask: kinds 0 to 12 on port 0, bit 0 for WORK and bit 1 for PAUSE on ports 1 and 2. -/
def NoticeKind.maskBit : NoticeKind → Nat
  | .step => 0 | .done => 1 | .condition => 2 | .overdue => 3 | .bathState => 4 | .replenish => 5 | .unagitated => 6
  | .rescue => 7 | .stranded => 8 | .moveTimeout => 9 | .gantryState => 10 | .recipeSwapped => 11 | .lineMode => 12
  | .work => 0 | .pause => 1

/-- The number of a port, as IDENT answers it (R191). -/
def portCode : PortId → Nat
  | .p0 => 0 | .p1 => 1 | .p2 => 2

/-! ### Fields of replies -/

/-- A yes or no field (R192). -/
def flagByte (b : Bool) : List Byte := bytes1 (if b then 1 else 0)

/-- A station, slot, index or enumeration field that may hold none, encoded FFh (R192). -/
def indexByte (o : Option Nat) : List Byte := bytes1 (o.getD 255)

/-- A tag or cause tag field that may hold none, encoded 00h (R192). -/
def tagByte (o : Option Nat) : List Byte := bytes1 (o.getD 0)

/-- A line time field. -/
def timeBytes (t : LineTime) : List Byte := bytes4 t.toNat

/-- A one-byte field behind a presence byte (R192). -/
def present1 : Option Nat → List Byte
  | some n => bytes1 1 ++ bytes1 n
  | none => bytes1 0 ++ bytes1 0

/-- A two-byte field behind a presence byte. -/
def present2 : Option Nat → List Byte
  | some n => bytes1 1 ++ bytes2 n
  | none => bytes1 0 ++ bytes2 0

/-- A three-byte field behind a presence byte. -/
def present3 : Option Nat → List Byte
  | some n => bytes1 1 ++ bytes3 n
  | none => bytes1 0 ++ bytes3 0

/-- A signed two-byte field behind a presence byte. -/
def presentSigned2 : Option Int → List Byte
  | some z => bytes1 1 ++ bytesSigned2 z
  | none => bytes1 0 ++ bytes2 0

/-- A line time field behind a presence byte. -/
def presentTime : Option LineTime → List Byte
  | some t => bytes1 1 ++ timeBytes t
  | none => bytes1 0 ++ bytes4 0

/-- The station and slot bytes of a slot, FFh each when there is none (R192). -/
def slotBytes : Option SlotRef → List Byte
  | some r => bytes1 r.station ++ bytes1 r.slot
  | none => indexByte none ++ indexByte none

/-- The set field of a run entry's notes: bit n for value n of the list of R192. -/
def Notes.byte (n : Notes) : List Byte :=
  bytes1 ((if n.uncompensated then 1 else 0) + (if n.unagitated then 2 else 0) + (if n.rescued then 4 else 0)
    + (if n.stranded then 8 else 0) + (if n.resumed then 16 else 0))

/-- The 13-byte notice record (R192). -/
def Notice.bytes (n : Notice) : List Byte :=
  bytes1 n.kind.code ++ timeBytes n.time ++ tagByte n.tag ++ indexByte n.station ++ present1 n.move
    ++ bytes1 n.codeA ++ bytes1 n.codeB ++ bytes1 n.codeC ++ bytes1 n.codeD

/-- R183, R192: the reply frame: the status byte with BUSY-REFUSED in its top bit, the payload length, the payload. -/
def Reply.frame (r : Reply) (busyRefused : Bool) : List Byte :=
  bytes1 (r.status.code + (if busyRefused then 128 else 0)) ++ bytes1 r.payload.length ++ r.payload

/-- A reply that carries no payload. -/
def Reply.bare (st : Status) : Reply := { status := st, payload := [] }

end Sys2Proof.Machine
end

