-- ==== Sys2Proof/Machine/Ops.lean ====
section
/-! DEFINITION. The operations every chapter's meanings are built from: the arithmetic of line times and counts, the record
accessors, the notice queues (R185 to R187), the conditions other blocks read (R29, R96), and the taking of a request by
its port (R178 to R181). -/

namespace Sys2Proof

/-! ### Gantries and ports -/

/-- R184: gantry A's master is on port 1, gantry B's on port 2. -/
def GantryId.port (g : GantryId) : PortId := gantryPort g

/-- The gantry at the other end of the rail. -/
def GantryId.other : GantryId → GantryId
  | .a => .b
  | .b => .a

namespace Machine

/-! ### Line times and counts -/

/-- R61: the compare point `t` is reached at line time `now` when `(now - t) mod 2^32` lies in 0 to 2,147,483,647. -/
def reached (now t : LineTime) : Bool := decide ((now - t).toNat < 2147483648)

/-- R61, last part: of two compare points the one the line time reaches first is the earlier. -/
def earlier (a b : LineTime) : Bool := a != b && reached b a

/-- A line time plus a duration in tenths, formed mod 2^32 (R61). -/
def plus (t : LineTime) (n : Nat) : LineTime := t + BitVec.ofNat 32 n

/-- A line time less a duration in tenths, formed mod 2^32 (R61). -/
def minus (t : LineTime) (n : Nat) : LineTime := t - BitVec.ofNat 32 n

/-- R34: hanger `a` is older than hanger `b` when `(b - a) mod 65536` lies in 1 to 32767. -/
def olderSeq (a b : Seq) : Bool := decide (1 ≤ (b - a).toNat) && decide ((b - a).toNat ≤ 32767)

/-- "Clamped to [lo, hi]" of the numeric conventions (00_scope.md). -/
def clampNat (lo hi x : Nat) : Nat := if x < lo then lo else if hi < x then hi else x

/-- "Clamped to [lo, hi]" of a signed quantity. -/
def clampInt (lo hi x : Int) : Int := if x < lo then lo else if hi < x then hi else x

/-- "Saturates at m": a count that would pass `m` holds `m` (00_scope.md). -/
def satAdd (m x y : Nat) : Nat := if m < x + y then m else x + y

/-- ceil(x / y) for a positive `y`. -/
def ceilDiv (x y : Nat) : Nat := (x + y - 1) / y

/-- A rail distance: the absolute difference of two coordinates (00_scope.md, Units). -/
def railDistance (x y : Nat) : Nat := (x - y) + (y - x)

/-! ### Records -/

namespace State

/-- The station record of an index; an index past the last names an absent station. -/
def station (s : State) (st : Nat) : Station := (s.stations[st]?).getD Station.absent

def modStation (s : State) (st : Nat) (f : Station → Station) : State :=
  { s with stations := s.stations.setIfInBounds st (f (s.station st)) }

/-- The active bath record of a station, or none (R82). -/
def bath? (s : State) (st : Nat) : Option Bath := (s.baths[st]?).join

def setBath (s : State) (st : Nat) (b : Option Bath) : State :=
  { s with baths := s.baths.setIfInBounds st b }

/-- Changes an active bath record; an inactive one stays inactive. -/
def modBath (s : State) (st : Nat) (f : Bath → Bath) : State := s.setBath st ((s.bath? st).map f)

def recipe (s : State) (r : Nat) : Recipe := (s.recipes[r]?).getD Recipe.blank

def modRecipe (s : State) (r : Nat) (f : Recipe → Recipe) : State :=
  { s with recipes := s.recipes.setIfInBounds r (f (s.recipe r)) }

def channel (s : State) (n : Nat) : Channel := (s.channels[n]?).getD Channel.atPowerOn

def modChannel (s : State) (n : Nat) (f : Channel → Channel) : State :=
  { s with channels := s.channels.setIfInBounds n (f (s.channel n)) }

def line (s : State) (n : Nat) : RescueLine := (s.lines[n]?).getD RescueLine.atPowerOn

def modLine (s : State) (n : Nat) (f : RescueLine → RescueLine) : State :=
  { s with lines := s.lines.setIfInBounds n (f (s.line n)) }

def gantry (s : State) : GantryId → Gantry
  | .a => s.gantryA
  | .b => s.gantryB

def modGantry (s : State) (g : GantryId) (f : Gantry → Gantry) : State :=
  match g with
  | .a => { s with gantryA := f s.gantryA }
  | .b => { s with gantryB := f s.gantryB }

def port (s : State) : PortId → Port
  | .p0 => s.port0
  | .p1 => s.port1
  | .p2 => s.port2

def modPort (s : State) (p : PortId) (f : Port → Port) : State :=
  match p with
  | .p0 => { s with port0 := f s.port0 }
  | .p1 => { s with port1 := f s.port1 }
  | .p2 => { s with port2 := f s.port2 }

/-- The live record that holds a tag (R33). -/
def hanger? (s : State) (tag : Nat) : Option Hanger := s.hangers.find? (fun h => h.tag == tag)

def modHanger (s : State) (tag : Nat) (f : Hanger → Hanger) : State :=
  { s with hangers := s.hangers.map (fun h => if h.tag = tag then f h else h) }

/-- The move that holds an identifier (R101). -/
def move? (s : State) (id : Nat) : Option Move := s.moves.find? (fun m => m.id == id)

def modMove (s : State) (id : Nat) (f : Move → Move) : State :=
  { s with moves := s.moves.map (fun m => if m.id = id then f m else m) }

/-- R35, R102: the hanger's move is its move in the list that has not been placed. -/
def hangerMove? (s : State) (tag : Nat) : Option Move :=
  s.moves.find? (fun m => m.tag == some tag && m.state != .placed)

/-- The YIELD move a gantry owns and has not been granted (R138, R139). -/
def ownYield? (s : State) (g : GantryId) : Option Move :=
  s.moves.find? (fun m => m.kind == .yielding && m.gantry == some g && m.state == .ready)

end State

/-! ### Slots of a station -/

/-- R4: the slot exists: the station is configured and the index lies below its slot count. -/
def Station.hasSlot (stn : Station) (i : Nat) : Bool := stn.configured && decide (i < stn.slotCount)

def Station.slot (stn : Station) (i : Nat) : Slot := (stn.slots[i]?).getD .free

def Station.setSlot (stn : Station) (i : Nat) (x : Slot) : Station :=
  { stn with slots := stn.slots.setIfInBounds i x }

/-- The slot state of a slot reference. -/
def State.slotAt (s : State) (r : SlotRef) : Slot := (s.station r.station).slot r.slot

def State.setSlot (s : State) (r : SlotRef) (x : Slot) : State :=
  s.modStation r.station (fun stn => stn.setSlot r.slot x)

/-- R155: the number of OCCUPIED slots of a station. -/
def Station.occupiedCount (stn : Station) : Nat :=
  ((List.range stn.slotCount).filter (fun i => match stn.slot i with | .occupied _ => true | _ => false)).length

/-- The lowest-indexed FREE slot of a station (R116). -/
def Station.freeSlot? (stn : Station) : Option Nat :=
  (List.range stn.slotCount).find? (fun i => stn.slot i == .free)

/-! ### Conditions read by other blocks -/

/-- R29: a recipe is startable while its active version holds a step, its mark is VALID and no staged version is present. -/
def Recipe.startable (r : Recipe) : Bool := !r.active.isEmpty && r.valid && r.staged.isNone

/-- R20: step `k` of the active version of a recipe. -/
def State.recipeStep? (s : State) (r k : Nat) : Option RecipeStep := (s.recipe r).active[k]?

/-- The drip of a step, 0 where there is none. -/
def State.stepDrip (s : State) (r k : Nat) : Nat :=
  match s.recipeStep? r k with
  | some st => st.drip
  | none => 0

/-- R174, R96: the station has a rescue line and it is asserted. -/
def State.barRaised (s : State) (st : Nat) : Bool :=
  match (s.station st).rescueLine with
  | some l => (s.line l).asserted
  | none => false

/-- R96: the bath and replenishment conditions of a station. -/
def State.bathAccepts (s : State) (st : Nat) : Bool :=
  if (s.station st).supervised then
    match s.bath? st with
    | some b => (b.readiness == .ready || b.readiness == .drift) && b.debt == 0
    | none => false
  else true

/-- R96: a station accepts lowering. -/
def State.acceptsLowering (s : State) (st : Nat) : Bool := s.bathAccepts st && !s.barRaised st

/-- The rate r of a station's bath; 1024, the rate at the setpoint, where there is no active bath. -/
def State.rateOf (s : State) (st : Nat) : Nat :=
  match s.bath? st with
  | some b => b.rate
  | none => 1024

/-! ### Notices -/

/-- R186: the port's mask masks the kind. -/
def Port.masks (q : Port) (k : NoticeKind) : Bool := q.mask.getLsbD k.maskBit

/-- R187: what a non-maskable notice removes from a full queue: the oldest maskable notice, or the oldest when none is. -/
def makeRoom (l : List Notice) : List Notice :=
  if l.any (fun n => n.kind.maskable) then l.eraseP (fun n => n.kind.maskable) else l.tail

/-- R186, R187: a notice posted to a port. -/
def Port.push (q : Port) (n : Notice) : Port :=
  if q.masks n.kind then q
  else if q.queue.length < Config.queueDepth then { q with queue := q.queue ++ [n] }
  else if n.kind.maskable then { q with overflow := true }
  else { q with queue := makeRoom q.queue ++ [n], overflow := true }

/-- R190: the ALARM output is tested. -/
def State.testAlarm (s : State) : State := { s with alarm := s.alarmDue }

/-- Posts a notice to a port. A displacement by R187 on the supervisor port tests ALARM in the same event (R190). -/
def State.post (s : State) (p : PortId) (n : Notice) : State :=
  let t := s.modPort p (fun q => q.push n)
  if p = .p0 ∧ Config.queueDepth ≤ s.port0.queue.length ∧ n.kind.maskable = false then t.testAlarm else t

/-- A notice of the supervisor port with the line time of the event (R185). -/
def State.notify (s : State) (k : NoticeKind) (tag station move : Option Nat) (a b : Nat) : State :=
  s.post .p0 { kind := k, time := s.lineTime, tag := tag, station := station, move := move,
               codeA := a, codeB := b, codeC := 0, codeD := 0 }

/-- R131: GANTRY-STATE with the gantry and its new state, and the fault code while the record holds one (log 11). -/
def State.notifyGantry (s : State) (g : GantryId) : State :=
  s.post .p0 { kind := .gantryState, time := s.lineTime, tag := none, station := none, move := none,
               codeA := gantryCode g, codeB := (s.gantry g).link.code, codeC := ((s.gantry g).faultCode).getD 0,
               codeD := if (s.gantry g).faultCode.isSome then 1 else 0 }

/-- R135: a PAUSE notice to the gantry's own port: 0 PAUSED, 1 PENDING, 2 RESUMED. -/
def State.notifyPause (s : State) (g : GantryId) (code : Nat) : State :=
  s.post g.port { kind := .pause, time := s.lineTime, tag := none, station := none, move := none,
                  codeA := code, codeB := 0, codeC := 0, codeD := 0 }

/-- The station a WORK notice names: the From station, or none for a YIELD move (R185). -/
def Move.sourceStation (m : Move) : Option Nat :=
  match m.source with
  | .slot r => some r.station
  | .point _ => none

/-- R110: a WORK notice naming a move; a second one is not queued while one stands unread in the gantry's queue. -/
def State.postWork (s : State) (g : GantryId) (m : Move) : State :=
  if (s.port g.port).queue.any (fun n => n.kind == .work) then s
  else s.post g.port { kind := .work, time := s.lineTime, tag := m.tag, station := m.sourceStation, move := some m.id,
                       codeA := 0, codeB := 0, codeC := 0, codeD := 0 }

/-! ### The taking of a request by its port -/

/-- The bytes the data output shifts out in a session of `n` bytes, by the holder at its end (log 37, DESIGN CHOICE): the held
frame, then FFh (R178). -/
def shiftOut (h : Holder) (n : Nat) : List Byte :=
  match h with
  | .held frame => (frame ++ List.replicate n 0xFF#8).take n
  | _ => List.replicate n 0xFF#8

/-- What a request session of `n` bytes that is taken leaves at its port before the owning block's rule: the unread reply is
discarded (R179). -/
def State.opened (s : State) (p : PortId) (n : Nat) : State :=
  s.modPort p (fun q => { q with holder := .empty, shifted := shiftOut q.holder n })

/-- R179: the port is WORKING on a reply. -/
def State.forming (s : State) (p : PortId) (r : Reply) : State := s.modPort p (fun q => { q with holder := .working r })

/-- R179: a request session of `n` bytes that ends in WORKING is ignored. -/
def State.ignored (s : State) (p : PortId) (n : Nat) : State :=
  s.modPort p (fun q => { q with busyRefused := true, shifted := shiftOut q.holder n })

/-- A request session of `n` bytes ends on port `p` (R179): it is ignored in WORKING; otherwise the request is handed to
`body`, and the reply it gives is being formed (R180, R181). -/
def State.takeRequest (s : State) (p : PortId) (n : Nat) (body : State → State × Reply) : State :=
  if (s.port p).working then s.ignored p n
  else (body (s.opened p n)).1.forming p (body (s.opened p n)).2

/-- A typed request: its session clocks the code, the length byte and the payload (R192). -/
def State.request (s : State) (i : Instr) (body : State → State × Reply) : Host.Outcome State Fault Refusal :=
  match encodeRequest i with
  | some (p, _, payload) => .next (s.takeRequest p (2 + payload.length) body)
  | none => .next s

/-- A reply with no payload on an unchanged state: how a request is refused, or answered with no effect. -/
def State.answer (s : State) (st : Status) : State × Reply := (s, Reply.bare st)

/-- The taking of a slot index pair by its ranges: station 0–23 and slot 0–3. -/
def slotInRange (st sl : Nat) : Bool := decide (st ≤ 23) && decide (sl ≤ 3)

end Machine

end Sys2Proof
end

