-- ==== Sys2Proof/Machine/Agitation.lean ====
section
/-! DEFINITION. Nitrogen-burst agitation (chapter 8): the cadence, the falling due of bursts, the gas arbiter, occupancy and
holds, and the meanings of SET-CHANNEL, SET-GAS-LIMIT, GAS-HOLD and READ-CHANNEL. -/

namespace Sys2Proof.Machine

/-! ### The cadence (R153) -/

/-- R153: one scheduling from the due time `due`: the accumulator steps and the next due becomes `due` plus the interval. -/
def Channel.schedule (c : Channel) (due : LineTime) : Channel :=
  if c.cadence ≤ c.accumulator + c.remainder then
    { c with accumulator := c.accumulator + c.remainder - c.cadence, nextDue := some (plus due (c.interval + 1)) }
  else
    { c with accumulator := c.accumulator + c.remainder, nextDue := some (plus due c.interval) }

/-- R153: q is floor(6000 / B). -/
def intervalBase (cadence : Nat) : Nat := 6000 / cadence

/-- R153: rm is 6000 − q × B. -/
def intervalRemainder (cadence : Nat) : Nat := 6000 - intervalBase cadence * cadence

/-! ### Hold causes -/

def Channel.hasCause (c : Channel) : HoldCause → Bool
  | .supervisor => c.holdSupervisor
  | .trip => c.holdTrip
  | .rescue => c.holdRescue

def Channel.withCause (c : Channel) (k : HoldCause) (b : Bool) : Channel :=
  match k with
  | .supervisor => { c with holdSupervisor := b }
  | .trip => { c with holdTrip := b }
  | .rescue => { c with holdRescue := b }

/-- R160: at least one hold cause stands. -/
def Channel.anyCause (c : Channel) : Bool := c.holdSupervisor || c.holdTrip || c.holdRescue

/-! ### The gas arbiter (R158) -/

/-- R158: the number of BURSTING channels. -/
def State.gasInUse (s : State) : Nat := s.channels.toList.countP (fun c => c.state == .bursting)

/-- R158: of two DEFERRED channels, the one with the earlier deferred due; on a tie the first named, which has the lower
number. -/
def earlierDeferred (best : Option (Nat × LineTime)) (n : Nat) (c : Channel) : Option (Nat × LineTime) :=
  match c.state, c.deferredDue, best with
  | .deferred, some d, none => some (n, d)
  | .deferred, some d, some (m, e) => if earlier d e then some (n, d) else some (m, e)
  | _, _, b => b

/-- R158: the DEFERRED channel whose deferred due is earliest, ties to the lower channel number. -/
def State.firstDeferred (s : State) : Option Nat :=
  ((List.range Config.channels).foldl (fun best n => earlierDeferred best n (s.channel n)) none).map Prod.fst

/-- A channel opens its valve at line time `opens`: BURSTING, with its burst end and its burst count (R156, R158). -/
def Channel.openValve (c : Channel) (opens : LineTime) : Channel :=
  { c with state := .bursting, burstEnd := some (plus opens c.length), deferredDue := none, bursts := satAdd 65535 c.bursts 1 }

/-- R158: a valve that closes is offered in the event that closes it: one closing grants one channel. -/
def State.offerValve (s : State) : State :=
  match s.firstDeferred with
  | some n => s.modChannel n (fun c => c.openValve s.lineTime)
  | none => s

/-! ### Bursts (R156, R157) -/

/-- R156: a burst with due time `due` falls due at channel `n`. -/
def State.fallDue (s : State) (n : Nat) (due : LineTime) : State :=
  match (s.channel n).state with
  | .deferred =>
    s.modChannel n (fun c => { c.schedule due with skips := satAdd 65535 c.skips 1, deferredDue := some due })
  | .bursting => s.modChannel n (fun c => { c.schedule due with skips := satAdd 65535 c.skips 1 })
  | _ =>
    if s.gasInUse < s.gasLimit then s.modChannel n (fun c => (c.schedule due).openValve due)
    else s.modChannel n (fun c => { c.schedule due with state := .deferred, deferredDue := some due })

/-- R157: the burst of channel `n` ends: the valve closes and is offered by the arbiter. -/
def State.endBurst (s : State) (n : Nat) : State :=
  (s.modChannel n (fun c =>
    if c.empty then { c with state := .paused, burstEnd := none, nextDue := none }
    else { c with state := .waiting, burstEnd := none })).offerValve

/-! ### Occupancy (R155) -/

/-- R155: the station of channel `n` becomes occupied. -/
def State.channelOccupied (s : State) (n : Nat) : State :=
  match (s.channel n).state with
  | .paused => (s.modChannel n (fun c => { c with empty := false, accumulator := 0 })).fallDue n s.lineTime
  | .held => s.modChannel n (fun c => { c with empty := false, accumulator := 0, nextDue := some s.lineTime })
  | _ => s.modChannel n (fun c => { c with empty := false })

/-- R155: the station of channel `n` becomes empty. -/
def State.channelEmptied (s : State) (n : Nat) : State :=
  match (s.channel n).state with
  | .waiting => s.modChannel n (fun c => { c with empty := true, state := .paused, nextDue := none })
  | .deferred =>
    s.modChannel n (fun c => { c with empty := true, state := .paused, nextDue := none, deferredDue := none })
  | _ => s.modChannel n (fun c => { c with empty := true })

/-- R155: the station map reports to the assigned channel a change between empty and occupied; `was` is the number of
OCCUPIED slots before the change. -/
def State.reportOccupancy (s : State) (st was : Nat) : State :=
  match (s.station st).gasChannel with
  | some n =>
    if was = 0 ∧ 0 < (s.station st).occupiedCount then s.channelOccupied n
    else if 0 < was ∧ (s.station st).occupiedCount = 0 then s.channelEmptied n
    else s
  | none => s

/-! ### Holds (R160, R161) -/

/-- R160: what becoming HELD does to a channel. -/
def Channel.hold (c : Channel) : Channel := { c with state := .held, burstEnd := none, deferredDue := none }

/-- R160: a hold cause is set on channel `n`. An open valve closes at once and is offered. -/
def State.setHold (s : State) (n : Nat) (k : HoldCause) : State :=
  let c := s.channel n
  let t := s.modChannel n (fun c => c.withCause k true)
  if c.state = .off ∨ c.anyCause then t
  else if c.state = .bursting then (t.modChannel n Channel.hold).offerValve
  else t.modChannel n Channel.hold

/-- R161: the next due is scheduled on until it is later than the line time. `fuel` bounds the schedulings. -/
def Channel.rebase (now : LineTime) : Nat → Channel → Channel
  | 0, c => c
  | fuel + 1, c =>
    match c.nextDue with
    | some d => if reached now d then rebase now fuel (c.schedule d) else c
    | none => c

/-- R161: enough schedulings to pass the line time: each adds at least the interval base. -/
def Channel.rebaseFuel (now : LineTime) (c : Channel) : Nat :=
  match c.nextDue with
  | some d => if reached now d then (now - d).toNat / c.interval + 1 else 0
  | none => 0

/-- R161: a channel leaves HELD when its last hold cause has ended. -/
def Channel.release (now : LineTime) (c : Channel) : Channel :=
  if c.state = .held ∧ c.anyCause = false then
    if c.empty then { c with state := .paused, nextDue := none }
    else { (c.rebase now (c.rebaseFuel now)) with state := .waiting }
  else c

/-- R160, R161: a hold cause ends on channel `n`. -/
def State.clearHold (s : State) (n : Nat) (k : HoldCause) : State :=
  s.modChannel n (fun c => (c.withCause k false).release s.lineTime)

/-- R93, R171: a cause is set on the channel of a station, when its Gas channel field names one. -/
def State.holdStation (s : State) (st : Nat) (k : HoldCause) : State :=
  match (s.station st).gasChannel with
  | some n => s.setHold n k
  | none => s

/-- R95, R175: a cause ends on the channel of a station, when its Gas channel field names one. -/
def State.releaseStation (s : State) (st : Nat) (k : HoldCause) : State :=
  match (s.station st).gasChannel with
  | some n => s.clearHold n k
  | none => s

/-! ### SET-CHANNEL (R152) -/

/-- R152: the burst length after its clamps for the cadence `b`: to [1, 50] and then to at most q − 1. -/
def clampLength (b len : Nat) : Nat := min (clampNat 1 50 len) (intervalBase b - 1)

/-- R152, Station changed: the Gas channel fields of the old and the new station, the counts, the causes, the occupancy. A
channel with no station is recorded empty (log 20). -/
def State.moveChannel (s : State) (n : Nat) (new : Option Nat) : State :=
  let s1 := match (s.channel n).station with
    | some old => s.modStation old (fun stn => { stn with gasChannel := none })
    | none => s
  let s2 := match new with
    | some st => s1.modStation st (fun stn => { stn with gasChannel := some n })
    | none => s1
  let tripped := match new with
    | some st => (match s.bath? st with | some b => b.readiness == .tripped | none => false)
    | none => false
  let raised := match new with
    | some st => s.barRaised st
    | none => false
  let empty := match new with
    | some st => (s.station st).occupiedCount == 0
    | none => true
  s2.modChannel n (fun c => { c with station := new, bursts := 0, skips := 0, holdTrip := tripped, holdRescue := raised,
                                     deferredDue := none, empty := empty })

/-- R152, State: a channel is started as at its first assignment. -/
def State.startChannel (s : State) (n : Nat) : State :=
  let c := s.channel n
  if c.anyCause then
    s.modChannel n (fun c => { c with state := .held, nextDue := if c.empty then none else some s.lineTime })
  else if c.empty then s.modChannel n (fun c => { c with state := .paused, nextDue := none })
  else (s.modChannel n (fun c => { c with state := .waiting })).fallDue n s.lineTime

/-- R152: a SET-CHANNEL that passes its tests, with the clamped cadence and length. -/
def State.applyChannel (s : State) (n : Nat) (new : Option Nat) (enable : Bool) (b len : Nat) : State :=
  let old := s.channel n
  let s1 := if old.station = new then s else s.moveChannel n new
  let s2 := s1.modChannel n (fun c => { c with enable := enable, cadence := b, length := len, interval := intervalBase b,
                                               remainder := intervalRemainder b, accumulator := 0 })
  if new = none ∨ enable = false then
    s2.modChannel n (fun c => { c with state := .off, nextDue := none, deferredDue := none, burstEnd := none })
  else if old.state = .off ∨ old.station ≠ new then s2.startChannel n
  else s2

/-- R152: SET-CHANNEL, its tests in their order. -/
def setChannel (ch st en b len : Nat) (s : State) : State × Reply :=
  match indexOrNone 24 st, yesNoOf en with
  | some new, some enable =>
    if 7 < ch then s.answer .badArg
    else if (s.channel ch).state = .bursting then s.answer .busy
    else
      let refusal : Option Status := match new with
        | none => none
        | some t =>
          if !(s.station t).configured then some .noSuch
          else if (s.station t).cls = .load ∨ (s.station t).cls = .unload then some .badArg
          else if (s.station t).gasChannel = none ∨ (s.station t).gasChannel = some ch then none
          else some .inUse
      match refusal with
      | some r => s.answer r
      | none =>
        let b' := clampNat 1 600 b
        let len' := clampLength b' len
        (s.applyChannel ch new enable b' len').answer (if b' = b ∧ len' = len then .ok else .clamped)
  | _, _ => s.answer .badArg

def execSetChannel (channel station enable cadence length : Nat) (s : State) : Host.Outcome State Fault Refusal :=
  s.request (.setChannel channel station enable cadence length) (setChannel channel station enable cadence length)

/-! ### SET-GAS-LIMIT, GAS-HOLD, READ-CHANNEL -/

/-- R159: SET-GAS-LIMIT. -/
def setGasLimit (g : Nat) (s : State) : State × Reply :=
  if g < 1 ∨ 4 < g then s.answer .badArg
  else if 0 < s.gasInUse then s.answer .busy
  else { s with gasLimit := g }.answer .ok

def execSetGasLimit (limit : Nat) (s : State) : Host.Outcome State Fault Refusal :=
  s.request (.setGasLimit limit) (setGasLimit limit)

/-- R160: GAS-HOLD. -/
def gasHold (ch setting : Nat) (s : State) : State × Reply :=
  match holdSettingOf setting with
  | some b =>
    if 7 < ch then s.answer .badArg
    else if b then (s.setHold ch .supervisor).answer .ok
    else (s.clearHold ch .supervisor).answer .ok
  | none => s.answer .badArg

def execGasHold (channel setting : Nat) (s : State) : Host.Outcome State Fault Refusal :=
  s.request (.gasHold channel setting) (gasHold channel setting)

/-- R160, R192: the set byte of the hold causes. -/
def Channel.causeByte (c : Channel) : List Byte :=
  bytes1 ((if c.holdSupervisor then 1 else 0) + (if c.holdTrip then 2 else 0) + (if c.holdRescue then 4 else 0))

/-- R163, R192: the READ-CHANNEL payload. -/
def channelPayload (s : State) (c : Channel) : List Byte :=
  timeBytes s.lineTime ++ indexByte c.station ++ flagByte c.enable ++ bytes2 c.cadence ++ bytes1 c.length
    ++ bytes2 c.interval ++ bytes2 c.remainder ++ bytes2 c.accumulator ++ bytes1 c.state.code ++ presentTime c.nextDue
    ++ presentTime c.deferredDue ++ presentTime c.burstEnd ++ c.causeByte ++ flagByte c.empty ++ bytes2 c.bursts
    ++ bytes2 c.skips ++ bytes1 s.gasInUse ++ bytes1 s.gasLimit

/-- R163: READ-CHANNEL. -/
def readChannel (ch : Nat) (s : State) : State × Reply :=
  if 7 < ch then s.answer .badArg else (s, { status := .ok, payload := channelPayload s (s.channel ch) })

def execReadChannel (channel : Nat) (s : State) : Host.Outcome State Fault Refusal :=
  s.request (.readChannel channel) (readChannel channel)

/-! ### The line-time events of the channels -/

/-- R156: the line time has reached the next due of a channel in WAITING, DEFERRED or BURSTING. R157 takes a burst end of the
same channel at the same line time first. -/
def State.burstDue (s : State) (n : Nat) : State :=
  let c := s.channel n
  match c.nextDue with
  | some d =>
    if (c.state = .waiting ∨ c.state = .deferred ∨ c.state = .bursting) ∧ reached s.lineTime d then s.fallDue n d else s
  | none => s

/-- R157: the line time has reached the burst end of a BURSTING channel. -/
def State.burstEndDue (s : State) (n : Nat) : State :=
  let c := s.channel n
  match c.burstEnd with
  | some e => if c.state = .bursting ∧ reached s.lineTime e then s.endBurst n else s
  | none => s

/-- R156: BURST-FALLS-DUE; a burst end of the channel that is reached too is taken first (R157). -/
def execBurstFallsDue (channel : Nat) (s : State) : Host.Outcome State Fault Refusal :=
  .next ((s.burstEndDue channel).burstDue channel)

/-- R157: BURST-END. -/
def execBurstEnd (channel : Nat) (s : State) : Host.Outcome State Fault Refusal :=
  .next (s.burstEndDue channel)

end Sys2Proof.Machine
end

