-- ==== Sys2Proof/Machine/Slots.lean ====
section
/-! DEFINITION. The five slot operations of R6, each refusing (none) when its condition does not hold, and what the other
blocks do with them: the release of all a hanger holds, and the event that
makes an operation and its other changes, or neither (R5). -/

namespace Sys2Proof.Machine

/-- R6, Reserve: the slot exists and is FREE. -/
def State.reserve (s : State) (r : SlotRef) (tag : Nat) (kind : ReservationKind) : Option State :=
  if (s.station r.station).hasSlot r.slot = true ∧ s.slotAt r = .free then some (s.setSlot r (.reserved tag kind)) else none

/-- R6, Convert: the slot is RESERVED FORWARD for this tag. -/
def State.convert (s : State) (r : SlotRef) (tag : Nat) : Option State :=
  if s.slotAt r = .reserved tag .forward then some (s.setSlot r (.reserved tag .destination)) else none

/-- R6: a slot is reserved, of either kind, for a tag. -/
def Slot.reservedFor (x : Slot) (tag : Nat) : Bool :=
  match x with
  | .reserved t _ => t == tag
  | _ => false

/-- R6, Occupy: the slot is FREE, or RESERVED for this tag. The station map reports a change of occupancy (R155). -/
def State.occupy (s : State) (r : SlotRef) (tag : Nat) : Option State :=
  if (s.station r.station).hasSlot r.slot = true ∧ (s.slotAt r = .free ∨ (s.slotAt r).reservedFor tag = true) then
    some ((s.setSlot r (.occupied tag)).reportOccupancy r.station (s.station r.station).occupiedCount)
  else none

/-- R6, Vacate: the slot is OCCUPIED by this tag. The station map reports a change of occupancy (R155). -/
def State.vacate (s : State) (r : SlotRef) (tag : Nat) : Option State :=
  if s.slotAt r = .occupied tag then
    some ((s.setSlot r .free).reportOccupancy r.station (s.station r.station).occupiedCount)
  else none

/-- R6, Release: the slot is RESERVED, of either kind, for this tag. -/
def State.release (s : State) (r : SlotRef) (tag : Nat) : Option State :=
  if (s.slotAt r).reservedFor tag = true then some (s.setSlot r .free) else none

/-- R6, Release, of every slot a station holds for a tag. -/
def Station.releaseAll (stn : Station) (tag : Nat) : Station :=
  { stn with slots := stn.slots.map (fun x => if x.reservedFor tag then .free else x) }

/-- Every reservation the hanger holds is released (R47, R48, R55, R56). By R5 these are the slots RESERVED for its tag. -/
def State.releaseAll (s : State) (tag : Nat) : State :=
  { s with stations := s.stations.map (fun stn => stn.releaseAll tag) }

/-- R5: a slot operation and the changes of the same event are made together; when the operation is refused, the event makes
neither (R6, log 26). -/
def State.together (s : State) (r : Option State) (rest : State → State) : State := (r.map rest).getD s

end Sys2Proof.Machine
end

