-- ==== Sys2Proof/Machine/Moves.lean ====
section
/-! DEFINITION. The move list (chapter 6): identifiers, the urgency order, which gantry can serve a move, the creation and
removal of moves, WORK notices, and READ-MOVES. -/

namespace Sys2Proof.Machine

/-! ### Where a hanger goes next (R36) -/

/-- R36: the target of a hanger: a step, with its group, or the exit. -/
inductive Target where
  | step (k group : Nat)
  | exit
  deriving DecidableEq, Repr

/-- R20: the following target of step `k` of a version. -/
def followingTarget (v : List RecipeStep) (k : Nat) : Option Target :=
  if k + 1 = v.length then some .exit
  else match v[k + 1]? with
    | some st => some (.step (k + 1) st.group)
    | none => none

/-- R36: the target step the hanger table derives from the Step field and the run record. -/
def State.target? (s : State) (h : Hanger) : Option Target :=
  let v := (s.recipe h.recipe).active
  if h.run.isEmpty then
    match v[0]? with
    | some st => some (.step 0 st.group)
    | none => none
  else followingTarget v h.step

/-- R3, R116: the station is one of the group a target names, or an UNLOAD station for the exit. -/
def State.serves (s : State) (t : Target) (st : Nat) : Bool :=
  (s.station st).configured && (match t with
    | .step _ g => (s.station st).group == g
    | .exit => (s.station st).cls == .unload)

/-! ### The urgency order (R111) -/

/-- R111, keys 3 and 4: the older admission sequence first, and of equal ones the lower identifier. Of two sequences 32768 apart
R34 makes neither the older; the move that stands first in the move list then goes first (log 31, DESIGN CHOICE). -/
def tieBefore (a b : Move) : Bool :=
  match a.seq, b.seq with
  | some x, some y => if x = y then decide (a.id < b.id) else olderSeq x y
  | _, _ => decide (a.id < b.id)

/-- R111, keys 1 and 2: moves with a deadline first, by deadline; then those without, by ready time. -/
def urgentBefore (a b : Move) : Bool :=
  match a.deadline, b.deadline with
  | some x, some y => if x = y then tieBefore a b else earlier x y
  | some _, none => true
  | none, some _ => false
  | none, none => if a.ready = b.ready then tieBefore a b else earlier a.ready b.ready

/-- A move takes its place in the urgency order (R112). -/
def insertUrgent (m : Move) : List Move → List Move
  | [] => [m]
  | x :: xs => if urgentBefore x m then x :: insertUrgent m xs else m :: x :: xs

/-- R111: the moves other than YIELD moves, in urgency order. -/
def State.urgencyOrder (s : State) : List Move :=
  (s.moves.filter (fun m => m.kind != .yielding)).foldr insertUrgent []

/-- R125: the walk order: the urgency order, then YIELD moves, gantry A's before gantry B's. -/
def State.walkOrder (s : State) : List Move :=
  s.urgencyOrder ++ s.moves.filter (fun m => m.kind == .yielding && m.gantry == some .a)
    ++ s.moves.filter (fun m => m.kind == .yielding && m.gantry != some .a)

/-! ### Which gantry can serve a move (R104) -/

/-- R115: the reach of a gantry holds a station index. -/
def Gantry.reaches (g : Gantry) (st : Nat) : Bool := decide (g.reachLow ≤ st) && decide (st ≤ g.reachHigh)

/-- R104: the reach holds at least one configured station a target names. -/
def State.targetInReach (s : State) (g : Gantry) (t : Target) : Bool :=
  (List.range Config.stations).any (fun st => g.reaches st && s.serves t st)

/-- The target a move without a fixed To leads to. -/
def State.moveTarget? (s : State) (m : Move) : Option Target :=
  match m.tag with
  | some tag => (s.hanger? tag).bind s.target?
  | none => none

/-- R104: a gantry can serve a move. A YIELD move is its owner's (R110). -/
def State.canServe (s : State) (g : GantryId) (m : Move) : Bool :=
  match m.source, m.dest with
  | .slot f, some (.slot d) => (s.gantry g).reaches f.station && (s.gantry g).reaches d.station
  | .slot f, none => (s.gantry g).reaches f.station && (match s.moveTarget? m with
      | some t => s.targetInReach (s.gantry g) t
      | none => false)
  | .point _, _ => m.gantry == some g
  | .slot _, some (.point _) => false

/-! ### WORK notices (R110, R134) -/

/-- R110: one gantry's share of the WORK notices of a move that becomes READY. A gantry that is not READY is sent none, though
the worked sequence under R194 queues one for a BUSY gantry (log 38, DESIGN CHOICE). -/
def State.offerWork (s : State) (g : GantryId) (m : Move) : State :=
  if (s.gantry g).link = .ready ∧ s.canServe g m = true then s.postWork g m else s

/-- R110: a move that becomes READY posts WORK to each READY gantry that can serve it. -/
def State.announce (s : State) (m : Move) : State := (s.offerWork .a m).offerWork .b m

/-- R110 for the move that holds an identifier. -/
def State.announceId (s : State) (id : Nat) : State :=
  match s.move? id with
  | some m => s.announce m
  | none => s

/-- R134: a gantry entering READY is sent one WORK notice naming the first READY, ungranted move in walk order that it can
serve, a YIELD move it owns included. -/
def State.readyWork (s : State) (g : GantryId) : State :=
  match s.walkOrder.find? (fun m => m.state == .ready && s.canServe g m) with
  | some m => s.postWork g m
  | none => s

/-! ### Creation and removal (R103, R108, R139) -/

/-- R103: the first identifier, counting upward from `start` and wrapping, that no move holds. `fuel` counts the 256 tries. -/
def freshIdFrom (used : List Nat) (start : Nat) : Nat → Nat
  | 0 => start % 256
  | fuel + 1 => if used.contains (start % 256) then freshIdFrom used (start + 1) fuel else start % 256

/-- R103: the identifier the next created move takes. -/
def State.freshId (s : State) : Nat := freshIdFrom (s.moves.map (fun m => m.id)) s.moveCounter 256

/-- R103: a move is created with the next identifier, and the counter becomes that identifier plus one. -/
def State.addMove (s : State) (m : Move) : State :=
  { s with moves := s.moves ++ [{ m with id := s.freshId }], moveCounter := (s.freshId + 1) % 256 }

/-- R105 to R107: a hanger's move is created, and one created READY posts WORK. -/
def State.createMove (s : State) (m : Move) : State :=
  let t := s.addMove m
  if m.state = .ready then t.announceId s.freshId else t

/-- R108, R139: a move is removed, and with it the YIELD move made for it that has not been granted. -/
def State.removeMove (s : State) (id : Nat) : State :=
  { s with moves := s.moves.filter (fun m =>
      m.id != id && !(m.kind == .yielding && m.state == .ready && m.blocked == some id)) }

/-- R139: the YIELD move made for a move is removed when that move is granted. -/
def State.removeYieldFor (s : State) (id : Nat) : State :=
  { s with moves := s.moves.filter (fun m => !(m.kind == .yielding && m.state == .ready && m.blocked == some id)) }

/-- R123, R131: a gantry's own YIELD move that has not been granted is removed. -/
def State.removeOwnYield (s : State) (g : GantryId) : State :=
  { s with moves := s.moves.filter (fun m => !(m.kind == .yielding && m.state == .ready && m.gantry == some g)) }

/-- The hanger's move is removed (R47, R48, R56). -/
def State.removeHangerMove (s : State) (tag : Nat) : State :=
  match s.hangerMove? tag with
  | some m => s.removeMove m.id
  | none => s

/-- A move record before its identifier is given, with every grant field absent. -/
def Move.fresh (kind : MoveKind) (source : Place) (dest : Option Place) : Move :=
  { id := 0, kind := kind, tag := none, seq := none, source := source, dest := dest, ready := 0, due := none,
    deadline := none, drip := 0, state := .ready, gantry := none, grantTime := none, estimate := none, limit := none,
    blocked := none }

/-- R105: the ENTRY move of a hanger, READY, from the slot it rests in. -/
def State.createEntry (s : State) (h : Hanger) (r : SlotRef) : State :=
  s.createMove { Move.fresh .entry (.slot r) none with tag := some h.tag, seq := some h.seq, ready := s.lineTime }

/-- R109: a WAITING move whose ready time is reached becomes READY, with its WORK notices. -/
def State.readyDue (s : State) (id : Nat) : State :=
  match s.move? id with
  | some m =>
    if m.state = .waiting ∧ reached s.lineTime m.ready then
      (s.modMove id (fun m => { m with state := .ready })).announceId id
    else s
  | none => s

/-- R109: READY-TIME-REACHED. -/
def execReadyTimeReached (move : Nat) (s : State) : Host.Outcome State Fault Refusal := .next (s.readyDue move)

/-! ### READ-MOVES (R125, R192) -/

/-- The coordinate of a place: a station's, or the point itself. -/
def State.coordOf (s : State) (p : Place) : Nat :=
  match p with
  | .slot r => (s.station r.station).coordinate
  | .point x => x

/-- The station, slot and coordinate bytes of a move's end: FFh, FFh and the coordinate for a YIELD move. -/
def State.placeBytes (s : State) (p : Place) : List Byte :=
  match p with
  | .slot r => slotBytes (some r) ++ bytes2 (s.coordOf p)
  | .point x => slotBytes none ++ bytes2 x

/-- The To bytes; an absent To has station and slot FFh and coordinate 0 (R192). -/
def State.destBytes (s : State) (p : Option Place) : List Byte :=
  match p with
  | some d => s.placeBytes d
  | none => slotBytes none ++ bytes2 0

/-- R192: one move record of READ-MOVES. -/
def State.moveBytes (s : State) (m : Move) : List Byte :=
  bytes1 m.id ++ bytes1 m.kind.code ++ tagByte m.tag ++ present2 (m.seq.map BitVec.toNat) ++ s.placeBytes m.source
    ++ s.destBytes m.dest ++ timeBytes m.ready ++ presentTime m.due ++ presentTime m.deadline ++ bytes2 m.drip
    ++ bytes1 m.state.code ++ indexByte (m.gantry.map gantryCode) ++ presentTime m.grantTime ++ present2 m.estimate
    ++ presentTime m.limit

/-- R125, R192: the READ-MOVES payload. -/
def movesPayload (s : State) (first : Nat) : List Byte :=
  bytes1 s.moves.length ++ bytes1 s.moveCounter ++ bytes1 first
    ++ (match s.walkOrder[first]? with | some m => s.moveBytes m | none => [])

/-- R125: READ-MOVES. -/
def readMoves (first : Nat) (s : State) : State × Reply :=
  if 33 < first then s.answer .badArg else (s, { status := .ok, payload := movesPayload s first })

def execReadMoves (first : Nat) (s : State) : Host.Outcome State Fault Refusal :=
  s.request (.readMoves first) (readMoves first)

end Sys2Proof.Machine
end

