-- ==== Sys2Proof/Machine/Immersion.lean ====
section
/-! DEFINITION. The run record and the immersion timer (chapters 3 and 4): run entries and their notes, the record of a
step's immersion, progress, predictions, the feeding of move times, the counts of an advance, and READ-TIMING. -/

namespace Sys2Proof.Machine

/-! ### Run entries (R38 to R41) -/

/-- R38: an entry is appended; at 13 the oldest goes and the dropped count rises. -/
def Hanger.appendEntry (h : Hanger) (e : RunEntry) : Hanger :=
  if Config.runEntries ≤ h.run.length then { h with run := h.run.tail ++ [e], dropped := satAdd 255 h.dropped 1 }
  else { h with run := h.run ++ [e] }

/-- R39: an entry opened for a slot. -/
def RunEntry.opened (r : SlotRef) (now : LineTime) : RunEntry :=
  { station := r.station, slot := r.slot, start := now, endTime := none, actual := none, reference := none,
    condition := none, notes := Notes.none }

/-- R45, R51: the exit entry, appended already closed. -/
def RunEntry.exit (r : SlotRef) (now : LineTime) (c : Condition) : RunEntry :=
  { RunEntry.opened r now with endTime := some now, actual := some 0, condition := some c }

/-- R38: an entry is open while its end time is absent. -/
def RunEntry.isOpen (e : RunEntry) : Bool := e.endTime.isNone

/-- Changes the newest entry of the run record. -/
def Hanger.modNewest (h : Hanger) (f : RunEntry → RunEntry) : Hanger :=
  match h.run.getLast? with
  | some e => { h with run := h.run.dropLast ++ [f e] }
  | none => h

/-- R38: at most the newest entry is open. -/
def Hanger.entryOpen (h : Hanger) : Bool :=
  match h.run.getLast? with
  | some e => e.isOpen
  | none => false

/-- R40: an entry closes with its end time, actual tenths, condition and, for a STRICT station, reference tenths. -/
def RunEntry.close (e : RunEntry) (now : LineTime) (i : Immersion) (c : Condition) : RunEntry :=
  { e with endTime := some now, actual := some i.elapsed,
           reference := if i.cls = some .strict then some (i.progress / 1024) else none, condition := some c }

/-- R39: RESUME-HANGER in place reopens the newest entry and adds the RESUMED note. -/
def RunEntry.reopen (e : RunEntry) : RunEntry :=
  { e with endTime := none, actual := none, reference := none, condition := none, notes := { e.notes with resumed := true } }

def RunEntry.markUncompensated (e : RunEntry) : RunEntry := { e with notes := { e.notes with uncompensated := true } }
def RunEntry.markUnagitated (e : RunEntry) : RunEntry := { e with notes := { e.notes with unagitated := true } }
def RunEntry.markRescued (e : RunEntry) : RunEntry := { e with notes := { e.notes with rescued := true } }
def RunEntry.markStranded (e : RunEntry) : RunEntry := { e with notes := { e.notes with stranded := true } }

/-- R40: CONDITION, when an entry closes with a condition other than ON-TIME. -/
def State.notifyCondition (s : State) (tag st : Nat) (c : Condition) : State :=
  if c = .onTime then s else s.notify .condition (some tag) (some st) none c.code 0

/-- R40: the open entry of a hanger closes with a condition; a record with no open entry is left as it stands. -/
def State.closeEntry (s : State) (tag : Nat) (c : Condition) : State :=
  match s.hanger? tag with
  | some h =>
    match h.run.getLast? with
    | some e =>
      if e.isOpen then
        (s.modHanger tag (fun h => h.modNewest (fun e => e.close s.lineTime h.imm c))).notifyCondition tag e.station c
      else s
    | none => s
  | none => s

/-! ### The condition at LIFTED and at a rescue (R40, R77, R172) -/

/-- R77, and R40 for BOUNDED and OPEN: the condition an entry takes at LIFTED. -/
def Immersion.liftCondition (i : Immersion) : Condition :=
  match i.cls with
  | some .strict =>
    if i.progress < i.opening * 1024 then .early else if i.closing * 1024 < i.progress then .late else .onTime
  | some .bounded =>
    if i.elapsed < i.minimum then .under else if i.maximum ≠ 0 ∧ i.maximum < i.elapsed then .over else .onTime
  | _ => if i.elapsed < i.minimum then .under else .onTime

/-- R172: the condition an open entry takes at the assertion of the rescue line. -/
def Immersion.rescueCondition (i : Immersion) : Condition :=
  if i.closing * 1024 < i.progress then .late else if i.progress < i.opening * 1024 then .under else .onTime

/-! ### The STRICT window, predictions and the compare point (R66, R67, R72, R78) -/

/-- R66: the effective target: the reference target scaled per-mille, rounded half up. -/
def effectiveTarget (target scale : Nat) : Nat := (target * scale + 500) / 1000

/-- R67: the open edge: E less the early tolerance, or 1 when that is below 1. -/
def openEdge (e early : Nat) : Nat := max 1 (e - early)

/-- R72: the prediction of an edge `x` that is not crossed. -/
def predict (now : LineTime) (x progress rate : Nat) : LineTime := plus now (ceilDiv (x * 1024 - progress) rate)

/-- R72, R78: the predictions are made anew with a rate, and an armed compare point with them. -/
def Immersion.repredict (i : Immersion) (now : LineTime) (rate grace : Nat) : Immersion :=
  let close := i.crossClosing.getD (predict now i.closing i.progress rate)
  { i with predOpening := i.crossOpening.getD (predict now i.opening i.progress rate)
           predTarget := i.crossTarget.getD (predict now i.effective i.progress rate)
           predClosing := close
           compare := i.compare.map (fun _ => plus close grace) }

/-- R78: an armed compare point is remade with a new grace. -/
def Immersion.regrace (i : Immersion) (grace : Nat) : Immersion :=
  { i with compare := i.compare.map (fun _ => plus i.predClosing grace) }

/-- R62: the record filled at the beginning of a step; fields of another class are 0 or absent (log 9). -/
def Immersion.start (now : LineTime) (st : Nat) (k : RecipeStep) (cls : StationClass) (scale rate grace : Nat) : Immersion :=
  match cls with
  | .strict =>
    let e := effectiveTarget k.timeA scale
    let i := { Immersion.blank with cls := some .strict, station := st, counting := true, entryTime := now, effective := e,
                                    opening := openEdge e k.timeB, closing := e + k.timeC, compare := some now }
    i.repredict now rate grace
  | c => { Immersion.blank with cls := some c, station := st, counting := true, entryTime := now, minimum := k.timeA,
                                maximum := k.timeB }

/-! ### The times of the move out of a station (R65, R74) -/

/-- R65, R74: a ready time: the base less the approach allowance, or the current line time when that is already reached. -/
def readyBy (now base : LineTime) (allowance : Nat) : LineTime :=
  if reached now (minus base allowance) then now else minus base allowance

/-- R65, R74: the move of a hanger takes the times its immersion gives. -/
def Move.timed (m : Move) (i : Immersion) (now : LineTime) (allowance : Nat) : Move :=
  match i.cls with
  | some .strict =>
    { m with due := some i.predTarget, deadline := some i.predClosing, ready := readyBy now i.predTarget allowance }
  | some .bounded =>
    let due := plus i.entryTime i.minimum
    { m with due := some due, deadline := if i.maximum = 0 then none else some (plus i.entryTime i.maximum),
             ready := readyBy now due allowance }
  | _ =>
    let due := plus i.entryTime i.minimum
    { m with due := some due, deadline := none, ready := readyBy now due allowance }

/-- R106: READY when the ready time is reached, WAITING otherwise. -/
def readyState (now t : LineTime) : MoveState := if reached now t then .ready else .waiting

/-- R75: the state of a rewritten move that is not granted follows from its ready time. -/
def Move.settled (m : Move) (now : LineTime) : Move :=
  if m.state = .waiting ∨ m.state = .ready then { m with state := readyState now m.ready } else m

/-- R76: the moves that predictions feed. -/
def Move.fed (m : Move) : Bool :=
  (m.kind == .step || m.kind == .exit) && (m.state == .waiting || m.state == .ready || m.state == .granted)

/-- R74 to R76: a STRICT immersion whose count runs feeds the hanger's move; a move that becomes READY posts WORK. -/
def State.feedMove (s : State) (h : Hanger) : State :=
  match s.hangerMove? h.tag with
  | some m =>
    if m.fed ∧ h.imm.cls = some .strict ∧ h.imm.counting = true then
      let m' := (m.timed h.imm s.lineTime (s.station h.imm.station).allowance).settled s.lineTime
      let t := s.modMove m.id (fun _ => m')
      if m.state = .waiting ∧ m'.state = .ready then t.announceId m.id else t
    else s
  | none => s

/-- R73, R74: the predictions of one hanger in a station whose rate changed are remade, and its move is fed. -/
def State.remakeOne (s : State) (st tag : Nat) : State :=
  match s.hanger? tag with
  | some h =>
    if h.imm.counting = true ∧ h.imm.cls = some .strict ∧ h.imm.station = st then
      let h' := { h with imm := h.imm.repredict s.lineTime (s.rateOf st) s.grace }
      (s.modHanger tag (fun _ => h')).feedMove h'
    else s
  | none => s

/-- The tags of the live hangers, in the order the model takes them within one event (log 16). -/
def State.tags (s : State) : List Nat := s.hangers.map (fun h => h.tag)

/-- R73: the hangers with a running STRICT immersion in a station. -/
def State.running (s : State) (st : Nat) : List Nat :=
  (s.hangers.filter (fun h => h.imm.counting && h.imm.cls == some .strict && h.imm.station == st)).map (fun h => h.tag)

/-- R73: every running STRICT immersion of the station is remade. -/
def State.remakeStation (s : State) (st : Nat) : State := (s.running st).foldl (fun t tag => t.remakeOne st tag) s

/-! ### UNCOMPENSATED and UNAGITATED (R79, R162) -/

/-- R79, R92: the open entries of the hangers whose count runs in the station are marked. -/
def State.markStale (s : State) (st : Nat) : State :=
  { s with hangers := s.hangers.map (fun h =>
      if h.imm.counting = true ∧ h.imm.station = st ∧ h.entryOpen = true then h.modNewest RunEntry.markUncompensated
      else h) }

/-- R79: the bath of a station is STALE. -/
def State.bathStale (s : State) (st : Nat) : Bool :=
  match s.bath? st with
  | some b => b.readiness == .stale
  | none => false

/-- R162: the unagitated count has passed the limit of its step and the note is not yet set. -/
def State.unagitatedPassed (s : State) (h : Hanger) : Bool :=
  match s.recipeStep? h.recipe h.step, h.run.getLast? with
  | some k, some e =>
    h.imm.cls == some .strict && k.unagitated != 0 && decide (k.unagitated < h.imm.unagitated) && e.isOpen
      && !e.notes.unagitated
  | _, _ => false

/-- R162: the note is set and UNAGITATED posted. -/
def State.unagitatedDue (s : State) (tag : Nat) : State :=
  match s.hanger? tag with
  | some h =>
    if s.unagitatedPassed h = true then
      (s.modHanger tag (fun h => h.modNewest RunEntry.markUnagitated)).notify .unagitated (some tag) (some h.imm.station)
        none h.step 0
    else s
  | none => s

/-- R162: UNAGITATED-LIMIT-PASSED. -/
def execUnagitatedLimitPassed (tag : Nat) (s : State) : Host.Outcome State Fault Refusal := .next (s.unagitatedDue tag)

/-! ### The counts of an advance (R63, R68, R162) -/

/-- R162: the channel assigned to a station is HELD. -/
def State.gasHeld (s : State) (st : Nat) : Bool :=
  match (s.station st).gasChannel with
  | some n => (s.channel n).state == .held
  | none => false

/-- R63, R68, R70, R162: what one advance does to an immersion record, with the station's rate and its gas held or not. -/
def Immersion.tick (i : Immersion) (rate : Nat) (held : Bool) : Immersion :=
  if i.counting then
    if i.cls = some .strict then
      { i with elapsed := satAdd Config.maxCount i.elapsed 1
               progress := satAdd Config.maxProgress i.progress rate
               unagitated := if held then satAdd Config.maxCount i.unagitated 1 else i.unagitated }
    else { i with elapsed := satAdd Config.maxCount i.elapsed 1 }
  else i

/-- R63: every counting record is advanced. -/
def State.tickCounts (s : State) : State :=
  { s with hangers := s.hangers.map (fun h =>
      { h with imm := h.imm.tick (s.rateOf h.imm.station) (s.gasHeld h.imm.station) }) }

/-! ### Edges (R71) -/

/-- R71: progress has reached the threshold of an edge whose crossing is not recorded. -/
def Immersion.edgePassed (i : Immersion) (e : Edge) : Bool :=
  i.cls == some .strict && (match e with
    | .opening => i.crossOpening.isNone && decide (i.opening * 1024 ≤ i.progress)
    | .target => i.crossTarget.isNone && decide (i.effective * 1024 ≤ i.progress)
    | .closing => i.crossClosing.isNone && decide (i.closing * 1024 ≤ i.progress))

/-- R71, R72: the crossing time is recorded, and is the prediction from then on. -/
def Immersion.cross (i : Immersion) (e : Edge) (now : LineTime) : Immersion :=
  match e with
  | .opening => { i with crossOpening := some now, predOpening := now }
  | .target => { i with crossTarget := some now, predTarget := now }
  | .closing => { i with crossClosing := some now, predClosing := now }

/-- R71: an edge is crossed. -/
def State.edgeDue (s : State) (tag : Nat) (e : Edge) : State :=
  s.modHanger tag (fun h => if h.imm.edgePassed e = true then { h with imm := h.imm.cross e s.lineTime } else h)

/-- R71: EDGE-CROSSED. -/
def execEdgeCrossed (tag : Nat) (edge : Edge) (s : State) : Host.Outcome State Fault Refusal := .next (s.edgeDue tag edge)

/-! ### READ-TIMING (R80, R192) -/

/-- R80, R192: one edge: crossed with its time, or not crossed with its prediction; outside a STRICT record a free value
(log 8). -/
def edgeBytes (free : LineTime) (strict : Bool) (cross : Option LineTime) (pred : LineTime) : List Byte :=
  if strict then
    match cross with
    | some t => bytes1 1 ++ timeBytes t
    | none => bytes1 0 ++ timeBytes pred
  else bytes1 0 ++ timeBytes free

/-- A number for a STRICT record, 0 otherwise. -/
def Immersion.strictOnly (i : Immersion) (n : Nat) : Nat := if i.cls = some .strict then n else 0

/-- A number for a BOUNDED or OPEN record, 0 otherwise. -/
def Immersion.plainOnly (i : Immersion) (n : Nat) : Nat := if i.cls = some .bounded ∨ i.cls = some .opened then n else 0

/-- R80: the 56 bytes of READ-TIMING. -/
def timingPayload (s : State) (i : Immersion) : List Byte :=
  timeBytes s.lineTime ++ indexByte (i.cls.map StationClass.code) ++ flagByte i.counting ++ timeBytes i.entryTime
    ++ bytes3 i.elapsed ++ bytes3 i.unagitated ++ bytes2 (i.plainOnly i.minimum) ++ bytes2 (i.plainOnly i.maximum)
    ++ bytes3 (i.strictOnly i.effective)
    ++ bytes3 (i.strictOnly i.opening) ++ bytes3 (i.strictOnly i.closing) ++ bytes4 (i.strictOnly i.progress)
    ++ bytes2 (i.strictOnly (s.rateOf i.station))
    ++ edgeBytes (Config.idleEdgeTime 0 s.lineTime i.entryTime) (i.cls == some .strict) i.crossOpening i.predOpening
    ++ edgeBytes (Config.idleEdgeTime 1 s.lineTime i.entryTime) (i.cls == some .strict) i.crossTarget i.predTarget
    ++ edgeBytes (Config.idleEdgeTime 2 s.lineTime i.entryTime) (i.cls == some .strict) i.crossClosing i.predClosing
    ++ presentTime i.compare ++ flagByte i.fired

/-- R80, R57, R53: the tests of a request that names a tag: 1 to 255, then a live record. -/
def State.withHanger (s : State) (tag : Nat) (body : Hanger → State × Reply) : State × Reply :=
  if tag < 1 ∨ 255 < tag then s.answer .badArg
  else match s.hanger? tag with
    | some h => body h
    | none => s.answer .noSuch

/-- R80: READ-TIMING. -/
def readTiming (tag : Nat) (s : State) : State × Reply :=
  s.withHanger tag (fun h => (s, { status := .ok, payload := timingPayload s h.imm }))

def execReadTiming (tag : Nat) (s : State) : Host.Outcome State Fault Refusal :=
  s.request (.readTiming tag) (readTiming tag)

end Sys2Proof.Machine
end

