-- ==== Sys2Proof/Machine/Rescue.lean ====
section
/-! DEFINITION. Developer rescue (sections 4.7 and 9.3 to 9.5): the compare points and their signal, the assertion of a
rescue line with its effects on hangers, moves and station, SET-GRACE and RESCUE-CLEAR. -/

namespace Sys2Proof.Machine

/-- R78: the compare point is reached and not yet signalled. -/
def Immersion.compareDue (i : Immersion) (now : LineTime) : Bool :=
  match i.compare with
  | some t => !i.fired && reached now t
  | none => false

/-- R83, R173: the rescue exit allowance held in the station's bath record. -/
def State.exitAllowance (s : State) (st : Nat) : Nat :=
  match s.bath? st with
  | some b => b.settings.exitAllowance
  | none => 0

/-- R173: the rescue exit times of a move, from the line time of the assertion or of the lowering. -/
def Move.rescueTimes (m : Move) (now : LineTime) (allowance : Nat) : Move :=
  { m with deadline := some (plus now allowance), due := some now, ready := now }

/-- R173: the move of a hanger made RESCUED; an ABORT move keeps its times. -/
def State.rescueMove (s : State) (st tag : Nat) : State :=
  match s.hangerMove? tag with
  | some m =>
    if m.kind = .abort then s
    else
      let t := s.modMove m.id (fun m =>
        let m' := m.rescueTimes s.lineTime (s.exitAllowance st)
        if m.state = .waiting then { m' with state := .ready } else m')
      if m.state = .waiting then t.announceId m.id else t
  | none => s

/-- R172: the hanger rests in a slot of the station, IMMERSED or granted out of it. -/
def Hanger.restsIn (h : Hanger) (st : Nat) : Bool :=
  (match h.location with
    | .slot r => r.station == st
    | .gantry _ => false)
  && (h.state == .immersed || (h.state == .inTransit && h.phase == some .granted))

/-- R172: the count stops and the compare point is disarmed. -/
def Hanger.rescued (h : Hanger) : Hanger :=
  { h with state := .rescued, phase := none, imm := { h.imm with counting := false, compare := none } }

/-- R78, R171: a compare point that is reached has been signalled, though the rescue the first signal causes disarms it. -/
def Hanger.signalled (h : Hanger) (now : LineTime) : Hanger :=
  { h with imm := { h.imm with fired := h.imm.fired || h.imm.compareDue now } }

/-- R172, R173: one hanger at the assertion of its station's rescue line. Its own point, where the line time has reached it,
is signalled in the same advance and finds the line asserted (R171). -/
def State.rescueHanger (s : State) (st tag : Nat) : State :=
  match s.hanger? tag with
  | some h =>
    if h.restsIn st = true then
      (((s.modHanger tag (fun h => (h.signalled s.lineTime).rescued)).closeEntry tag h.imm.rescueCondition).modHanger tag
        (fun h => h.modNewest RunEntry.markRescued)).rescueMove st tag
    else s
  | none => s

/-- R171 to R174: rescue line `l` of station `st` asserts, caused by `tag`. RESCUE joins the queue before the notices of
R172 and R173 (log 15). -/
def State.assertLine (s : State) (l st tag : Nat) : State :=
  let s1 := s.modLine l (fun _ => { asserted := true, assertTime := some s.lineTime, causeTag := some tag })
  let s2 := (s1.notify .rescue (some tag) (some st) none l 0).holdStation st .rescue
  s.tags.foldl (fun t tag' => t.rescueHanger st tag') s2

/-- R78, R171: a compare point that is reached and not fired is signalled. -/
def State.signal (s : State) (tag : Nat) : State :=
  match s.hanger? tag with
  | some h =>
    if h.imm.compareDue s.lineTime = true then
      let t := s.modHanger tag (fun h => { h with imm := { h.imm with fired := true } })
      match (s.station h.imm.station).rescueLine with
      | none => t.notify .overdue (some tag) (some h.imm.station) none 0 0
      | some l => if (s.line l).asserted then t else t.assertLine l h.imm.station tag
    else s
  | none => s

/-- R78: RESCUE-COMPARE-REACHED. -/
def execRescueCompareReached (tag : Nat) (s : State) : Host.Outcome State Fault Refusal := .next (s.signal tag)

/-- R73, R78: a change of a station's rate remakes its running STRICT immersions, then signals the compare points that the
remaking brought to a line time already reached. -/
def State.rateChanged (s : State) (st : Nat) : State :=
  (s.running st).foldl (fun t tag => t.signal tag) (s.remakeStation st)

/-! ### SET-GRACE (R169) -/

/-- R169: SET-GRACE. -/
def setGrace (g : Nat) (s : State) : State × Reply :=
  let g' := clampNat 0 600 g
  let s1 : State := { s with grace := g', hangers := s.hangers.map (fun h => { h with imm := h.imm.regrace g' }) }
  (s.tags.foldl (fun t tag => t.signal tag) s1).answer (if g' = g then .ok else .clamped)

def execSetGrace (grace : Nat) (s : State) : Host.Outcome State Fault Refusal :=
  s.request (.setGrace grace) (setGrace grace)

/-! ### RESCUE-CLEAR (R175) -/

/-- R170: the configured station whose Rescue line field names a line. -/
def State.lineStation (s : State) (l : Nat) : Option Nat :=
  (List.range Config.stations).find? (fun st => (s.station st).configured && (s.station st).rescueLine == some l)

/-- The number of RESCUED hangers resting in the slots of a station (R175, R177). -/
def State.rescuedIn (s : State) (st : Nat) : Nat :=
  s.hangers.countP (fun h => h.state == .rescued && (match h.location with
    | .slot r => r.station == st
    | .gantry _ => false))

/-- R175: RESCUE-CLEAR. -/
def rescueClear (l : Nat) (s : State) : State × Reply :=
  if 3 < l then s.answer .badArg
  else if !(s.line l).asserted then s.answer .notNow
  else
    let t := s.modLine l (fun r => { r with asserted := false })
    match s.lineStation l with
    | some st => if 0 < s.rescuedIn st then s.answer .notNow else (t.releaseStation st .rescue).answer .ok
    | none => t.answer .ok

def execRescueClear (line : Nat) (s : State) : Host.Outcome State Fault Refusal :=
  s.request (.rescueClear line) (rescueClear line)

end Sys2Proof.Machine
end

