-- ==== Sys2Proof/Machine/Baths.lean ====
section
/-! DEFINITION. Bath supervision and replenishment (chapter 5): the rate, the readiness states, readings, stale compares,
trips, area accounting, and the meanings of the six bath requests. -/

namespace Sys2Proof

/-! ### Settings (R83, R84) -/

/-- R83: the activation values of the settings. -/
def BathSettings.activation : BathSettings :=
  { tset := 2000, band := 50, trip := 500, settle := 600, stale := 3000, slew := 0, gain := 0, shift := 0, dmax := 0,
    rmin := 64, rmax := 4096, quantum := 65535, exitAllowance := 300 }

/-- R84: the settings after their clamps. -/
def BathSettings.clamped (b : BathSettings) : BathSettings :=
  { tset := Machine.clampInt (-2000) 8000 b.tset, band := Machine.clampNat 1 500 b.band, trip := Machine.clampNat 1 2000 b.trip,
    settle := Machine.clampNat 0 6000 b.settle, stale := Machine.clampNat 10 3000 b.stale, slew := Machine.clampNat 0 500 b.slew, gain := b.gain,
    shift := Machine.clampNat 0 15 b.shift, dmax := Machine.clampNat 0 1000 b.dmax, rmin := Machine.clampNat 64 4096 b.rmin,
    rmax := Machine.clampNat 64 4096 b.rmax, quantum := Machine.clampNat 1 65535 b.quantum,
    exitAllowance := Machine.clampNat 0 600 b.exitAllowance }

/-- R90, R91: a temperature within B of the setpoint. -/
def BathSettings.inBand (b : BathSettings) (t : Int) : Bool := decide ((t - b.tset).natAbs ≤ b.band)

/-- R93, R95: a temperature more than Tt from the setpoint. -/
def BathSettings.beyondTrip (b : BathSettings) (t : Int) : Bool := decide (b.trip < (t - b.tset).natAbs)

namespace Machine

/-! ### The rate (R87, R88) -/

/-- R88: the deviation d. -/
def deviationOf (b : BathSettings) (tu : Int) : Int := clampInt (-(b.dmax : Int)) b.dmax (tu - b.tset)

/-- R88: the correction q: K × d divided by 2^s, rounded toward zero. -/
def correctionOf (b : BathSettings) (d : Int) : Int := (b.gain * d).tdiv ((2 : Int) ^ b.shift)

/-- R88: the rate r. -/
def rateFor (b : BathSettings) (d : Int) : Nat := (clampInt b.rmin b.rmax (1024 + correctionOf b d)).toNat

/-- R88: d and r are recomputed from Tu; with Tu absent they stand. -/
def Bath.recompute (b : Bath) : Bath :=
  match b.used with
  | some tu => { b with deviation := deviationOf b.settings tu, rate := rateFor b.settings (deviationOf b.settings tu) }
  | none => b

/-- R87: the used temperature after a reading `z`. -/
def Bath.nextUsed (b : Bath) (z : Int) : Int :=
  match b.firstReading, b.used with
  | false, some tu =>
    if b.settings.slew = 0 ∨ (z - tu).natAbs ≤ b.settings.slew then z
    else if tu < z then tu + b.settings.slew else tu - b.settings.slew
  | _, _ => z

/-- R86, steps 1 to 3: what an accepted reading does to the record before the trip test. -/
def Bath.take (b : Bath) (z : Int) (now : LineTime) : Bath :=
  Bath.recompute { b with latest := some (z, now), staleCompare := some (plus now b.settings.stale), rateHeld := false,
                          used := some (b.nextUsed z), firstReading := false }

/-! ### Readiness (R89 to R92) -/

/-- R91: READY or DRIFT by the used temperature. -/
def Bath.serviceState (b : Bath) : Readiness :=
  if b.settings.inBand (b.used.getD b.settings.tset) then .ready else .drift

/-- R89: the readiness of a bath changes; a change posts BATH-STATE. -/
def State.setReadiness (s : State) (st : Nat) (r : Readiness) : State :=
  match s.bath? st with
  | some b =>
    if b.readiness = r then s
    else (s.modBath st (fun b => { b with readiness := r })).notify .bathState none (some st) none r.code 0
  | none => s

/-- R90: the state a WARMING reading `z` leads to. -/
def Bath.warmingState (b : Bath) (z : Int) (now : LineTime) : Readiness :=
  if reached now (plus b.warmingEntry b.settings.settle) = true ∧ b.settings.inBand z = true then b.serviceState else .warming

/-- R86 step 5, R90 to R92: the readiness an accepted reading within the trip limit settles. -/
def Bath.settledState (b : Bath) (z : Int) (now : LineTime) : Readiness :=
  match b.readiness with
  | .warming => b.warmingState z now
  | .ready => b.serviceState
  | .drift => b.serviceState
  | .stale => match b.returnState with
    | .inService => b.serviceState
    | .warming => b.warmingState z now
  | .tripped => .tripped

/-- R92: the bath goes STALE, or in TRIPPED holds its rate; the entries counting in the station are marked (R79). -/
def State.goStale (s : State) (st : Nat) : State :=
  let s1 := s.modBath st (fun b => { b with rateHeld := true, firstReading := true, staleCompare := none })
  (match s.bath? st with
    | some b => match b.readiness with
      | .warming => (s1.modBath st (fun b => { b with returnState := .warming })).setReadiness st .stale
      | .ready => (s1.modBath st (fun b => { b with returnState := .inService })).setReadiness st .stale
      | .drift => (s1.modBath st (fun b => { b with returnState := .inService })).setReadiness st .stale
      | .stale => s1
      | .tripped => s1
    | none => s1).markStale st

/-- R92: the line time has reached the stale compare of a station's bath. -/
def State.staleDue (s : State) (st : Nat) : State :=
  match (s.bath? st).bind (fun b => b.staleCompare) with
  | some t => if reached s.lineTime t then s.goStale st else s
  | none => s

/-- R92: STALE-COMPARE-REACHED. -/
def execStaleCompareReached (station : Nat) (s : State) : Host.Outcome State Fault Refusal := .next (s.staleDue station)

/-! ### Trips (R93 to R95) -/

/-- R93, R94: the bath enters TRIPPED with a cause, and the station's gas channel is held. -/
def State.tripBath (s : State) (st : Nat) (c : TripCause) : State :=
  ((s.modBath st (fun b => { b with tripCause := some c })).setReadiness st .tripped).holdStation st .trip

/-- R95: the state a cleared trip leads to, the first row of the table that holds. -/
def Bath.clearedState (b : Bath) : Readiness :=
  match b.tripCause with
  | some .reading => .warming
  | _ => if b.latest.isNone then .warming else if b.rateHeld then .stale else b.serviceState

/-- R95: what the end of a trip does to the record beside its readiness. -/
def Bath.clearTrip (b : Bath) (now : LineTime) : Bath :=
  match b.clearedState with
  | .warming => { b with tripCause := none, warmingEntry := now }
  | .stale => { b with tripCause := none, returnState := .inService }
  | _ => { b with tripCause := none }

/-- R95: the trip ends. A bath that enters STALE marks the entries counting in its station (R79). -/
def State.clearTrip (s : State) (st : Nat) (b : Bath) : State :=
  let t := ((s.modBath st (fun b => b.clearTrip s.lineTime)).releaseStation st .trip).setReadiness st b.clearedState
  if b.clearedState = .stale then t.markStale st else t

/-! ### Area accounting (R97) -/

/-- R97: whole quanta are taken from the area counter into the debt. -/
def Bath.convert (b : Bath) : Bath :=
  { b with area := b.area % b.settings.quantum, debt := satAdd 15 b.debt (b.area / b.settings.quantum) }

/-- R97: the conversion, when the counter is at or above the quantum, with its REPLENISH notice. -/
def State.convertArea (s : State) (st : Nat) : State :=
  match s.bath? st with
  | some b =>
    if b.settings.quantum ≤ b.area then
      (s.setBath st (some b.convert)).notify .replenish none (some st) none b.convert.debt 0
    else s
  | none => s

/-- R97: an area is added to the counter of a supervised station. -/
def State.addArea (s : State) (st a : Nat) : State := (s.modBath st (fun b => { b with area := b.area + a })).convertArea st

/-! ### The requests -/

/-- The tests of a request that names a bath: the index, then an active record (R82). -/
def State.withBath (s : State) (st : Nat) (body : Bath → State × Reply) : State × Reply :=
  if 23 < st then s.answer .badArg
  else match s.bath? st with
    | some b => body b
    | none => s.answer .noSuch

/-- R85, step 1: the new settings, and d and r from Tu when it is present and the rate is not held. -/
def Bath.resettle (b : Bath) (n : BathSettings) : Bath :=
  if b.rateHeld then { b with settings := n } else Bath.recompute { b with settings := n }

/-- R85, step 3: the armed stale compare from the latest reading, or the activation, and the new stale time. -/
def Bath.rearm (b : Bath) : Bath :=
  { b with staleCompare := b.staleCompare.map (fun _ =>
      plus (match b.latest with | some (_, t) => t | none => b.activation) b.settings.stale) }

/-- A bath record is stored, and a change of its rate is handed to the immersion timer (R73, R88). -/
def State.storeBath (s : State) (st : Nat) (old new : Bath) : State :=
  if old.rate = new.rate then s.setBath st (some new) else (s.setBath st (some new)).rateChanged st

/-- R85, step 2: a READY or DRIFT bath is placed by R91. -/
def State.placeInService (s : State) (st : Nat) : State :=
  match s.bath? st with
  | some b => if b.readiness = .ready ∨ b.readiness = .drift then s.setReadiness st b.serviceState else s
  | none => s

/-- R85: a SET-BATH that passes its tests. -/
def State.writeSettings (s : State) (st : Nat) (b : Bath) (n : BathSettings) : State :=
  ((((s.storeBath st b (b.resettle n)).placeInService st).modBath st Bath.rearm).staleDue st).convertArea st

/-- R84: SET-BATH, its tests in their order. -/
def setBathRequest (st : Nat) (carried : BathSettings) (s : State) : State × Reply :=
  s.withBath st (fun b =>
    let n := carried.clamped
    if n.rmax < n.rmin then s.answer .badArg
    else if n.trip ≤ n.band then s.answer .badArg
    else (s.writeSettings st b n).answer (if n = carried then .ok else .clamped))

def execSetBath (station : Nat) (settings : BathSettings) (s : State) : Host.Outcome State Fault Refusal :=
  s.request (.setBath station settings) (setBathRequest station settings)

/-- R86, steps 4 and 5: the trip test, then the readiness. `b` is the record after step 3. -/
def State.judge (s : State) (st : Nat) (b : Bath) (z : Int) : State :=
  if b.settings.beyondTrip z then s.tripBath st .reading else s.setReadiness st (b.settledState z s.lineTime)

/-- R86: an accepted reading. -/
def State.acceptReading (s : State) (st : Nat) (b : Bath) (z : Int) : State :=
  (s.storeBath st b (b.take z s.lineTime)).judge st (b.take z s.lineTime) z

/-- R86: the BATH-REPORT payload: the readiness and the rate it leaves. -/
def reportPayload (s : State) (st : Nat) : List Byte :=
  match s.bath? st with
  | some b => bytes1 b.readiness.code ++ bytes2 b.rate
  | none => []

/-- R86: BATH-REPORT. -/
def bathReport (st : Nat) (z : Int) (s : State) : State × Reply :=
  s.withBath st (fun b =>
    if z < -2000 ∨ 8000 < z then s.answer .badReading
    else
      let t := s.acceptReading st b z
      (t, { status := .ok, payload := reportPayload t st }))

def execBathReport (station : Nat) (reading : Int) (s : State) : Host.Outcome State Fault Refusal :=
  s.request (.bathReport station reading) (bathReport station reading)

/-- R94: BATH-TRIP. -/
def bathTrip (st : Nat) (s : State) : State × Reply :=
  s.withBath st (fun b => if b.readiness = .tripped then s.answer .ok else (s.tripBath st .request).answer .ok)

def execBathTrip (station : Nat) (s : State) : Host.Outcome State Fault Refusal :=
  s.request (.bathTrip station) (bathTrip station)

/-- R95: BATH-CLEAR. -/
def bathClear (st : Nat) (s : State) : State × Reply :=
  s.withBath st (fun b =>
    if b.readiness ≠ .tripped then s.answer .notNow
    else match b.latest with
      | some (z, _) => if b.settings.beyondTrip z then s.answer .stillTripped else (s.clearTrip st b).answer .ok
      | none => (s.clearTrip st b).answer .ok)

def execBathClear (station : Nat) (s : State) : Host.Outcome State Fault Refusal :=
  s.request (.bathClear station) (bathClear station)

/-- R98: REPLENISHED. -/
def replenished (st : Nat) (s : State) : State × Reply :=
  s.withBath st (fun b =>
    if b.debt = 0 then s.answer .notNow
    else (s.setBath st (some { b with debt := b.debt - 1 }), { status := .ok, payload := bytes1 (b.debt - 1) }))

def execReplenished (station : Nat) (s : State) : Host.Outcome State Fault Refusal :=
  s.request (.replenished station) (replenished station)

/-- R99, R192: the READ-BATH payload. With no reading accepted the line time of the latest reading is sent as 0 (log 17). -/
def bathPayload (s : State) (st : Nat) (b : Bath) : List Byte :=
  bytes1 b.readiness.code ++ indexByte (b.tripCause.map TripCause.code) ++ bytes1 b.returnState.code
    ++ flagByte b.firstReading ++ flagByte b.rateHeld ++ presentSigned2 (b.latest.map Prod.fst)
    ++ timeBytes ((b.latest.map Prod.snd).getD 0) ++ presentSigned2 b.used ++ bytesSigned2 b.deviation ++ bytes2 b.rate
    ++ timeBytes b.warmingEntry ++ presentTime b.staleCompare ++ bytes2 b.area ++ bytes1 b.debt
    ++ flagByte (s.acceptsLowering st) ++ b.settings.bytes

/-- R99: READ-BATH. -/
def readBath (st : Nat) (s : State) : State × Reply :=
  s.withBath st (fun b => (s, { status := .ok, payload := bathPayload s st b }))

def execReadBath (station : Nat) (s : State) : Host.Outcome State Fault Refusal :=
  s.request (.readBath station) (readBath station)

/-! ### Activation (R83, R100) -/

/-- R100: a record at its activation. -/
def Bath.activated (now : LineTime) : Bath :=
  { settings := BathSettings.activation, readiness := .warming, latest := none, used := none, firstReading := true,
    rateHeld := false, deviation := 0, rate := 1024, warmingEntry := now, staleCompare := some (plus now 3000),
    returnState := .warming, tripCause := none, area := 0, debt := 0, activation := now }

/-- R100, R89: the record of a station becomes active, with its BATH-STATE notice. -/
def State.activateBath (s : State) (st : Nat) : State :=
  (s.setBath st (some (Bath.activated s.lineTime))).notify .bathState none (some st) none Readiness.warming.code 0

/-- R10, R11, R100: the record of a station becomes inactive, and a trip no longer holds its gas channel. -/
def State.deactivateBath (s : State) (st : Nat) : State :=
  match s.bath? st with
  | some _ => (s.setBath st none).releaseStation st .trip
  | none => s

end Machine

end Sys2Proof
end

