-- ==== Sys2Proof/Machine/Hangers.lean ====
section
/-! DEFINITION. Hangers and their runs (chapter 3): admission and the start order, the beginning of a step and the exit,
abort, the return to service, withdrawal, and the reads of a hanger. -/

namespace Sys2Proof.Machine

/-! ### The start order (R42) -/

/-- R42: a hanger that rejoins stands before the first entry younger than it, or at the end. An entry is younger when it is
not older by R34. -/
def rejoinOrder (s : State) (h : Hanger) : List Nat → List Nat
  | [] => [h.tag]
  | t :: ts =>
    match s.hanger? t with
    | some e => if olderSeq e.seq h.seq then t :: rejoinOrder s h ts else h.tag :: t :: ts
    | none => t :: rejoinOrder s h ts

/-- R42: the hanger rejoins the start order. -/
def State.rejoin (s : State) (h : Hanger) : State := { s with startOrder := rejoinOrder s h s.startOrder }

/-- R42: the hanger leaves the start order. -/
def State.leaveOrder (s : State) (tag : Nat) : State := { s with startOrder := s.startOrder.filter (fun t => t != tag) }

/-! ### The swap of a recipe (R28) -/

/-- R28: the staged version becomes active, with RECIPE-SWAPPED; nothing happens where none is staged. -/
def State.swapRecipe (s : State) (r : Nat) : State :=
  match (s.recipe r).staged with
  | some v =>
    (s.modRecipe r (fun e => { e with active := v, staged := none, valid := true, lastFault := none })).notify
      .recipeSwapped none none none r 0
  | none => s

/-- R27, R28: a bound hanger leaves a recipe's use count; at 0 the swap takes place. -/
def State.leaveRecipe (s : State) (r : Nat) : State :=
  let t := s.modRecipe r (fun e => { e with useCount := e.useCount - 1 })
  if (s.recipe r).useCount - 1 = 0 then t.swapRecipe r else t

/-! ### The choice of a slot (R116, R117, R53) -/

/-- R116, R117: a station a target names, within reach, that accepts lowering and has a FREE slot. -/
def State.candidate (s : State) (reach : Nat → Bool) (t : Target) (st : Nat) : Bool :=
  s.serves t st && reach st && s.acceptsLowering st && (s.station st).freeSlot?.isSome

/-- R116: of two candidates the nearer to a coordinate; on a tie the one of lower index, which comes first. -/
def State.nearer (s : State) (x : Nat) (best : Option Nat) (st : Nat) : Option Nat :=
  match best with
  | none => some st
  | some b =>
    if railDistance (s.station st).coordinate x < railDistance (s.station b).coordinate x then some st else some b

/-- R116, R117: the lowest FREE slot of the candidate station nearest a coordinate. -/
def State.chooseSlot (s : State) (reach : Nat → Bool) (t : Target) (x : Nat) : Option SlotRef :=
  (((List.range Config.stations).filter (s.candidate reach t)).foldl (s.nearer x) none).bind
    (fun st => (s.station st).freeSlot?.map (fun i => { station := st, slot := i }))

/-! ### The beginning of a step and the exit (R44, R45) -/

/-- R106: the STEP or EXIT move out of the slot of the step the hanger is in. -/
def State.nextMove (s : State) (h : Hanger) (r : SlotRef) : Move :=
  let stn := s.station r.station
  let kind : MoveKind := if h.step + 1 < (s.recipe h.recipe).active.length then .step else .exit
  let dest := if stn.cls = .strict then h.forward.map Place.slot else none
  let m := { Move.fresh kind (.slot r) dest with tag := some h.tag, seq := some h.seq, drip := s.stepDrip h.recipe h.step }
  let m' := m.timed h.imm s.lineTime stn.allowance
  { m' with state := readyState s.lineTime m'.ready }

/-- R107: the ABORT move created at a lowering (R51). -/
def State.freshAbort (s : State) (h : Hanger) (r : SlotRef) : Move :=
  { Move.fresh .abort (.slot r) (h.forward.map Place.slot) with
      tag := some h.tag, seq := some h.seq, ready := s.lineTime, deadline := some s.lineTime,
      drip := s.stepDrip h.recipe h.step }

/-- R44: the hanger's next move is created. -/
def State.createNext (s : State) (tag : Nat) (r : SlotRef) : State :=
  match s.hanger? tag with
  | some h => s.createMove (s.nextMove h r)
  | none => s

/-- R79: an entry opened or reopened in a station whose bath is STALE is marked. -/
def State.markIfStale (s : State) (tag st : Nat) : State :=
  if s.bathStale st then s.modHanger tag (fun h => h.modNewest RunEntry.markUncompensated) else s

/-- R44, but for the move: the record at the beginning of step `k` in slot `r`. -/
def Hanger.beginAt (h : Hanger) (r : SlotRef) (k : Nat) (i : Immersion) (now : LineTime) : Hanger :=
  { h.appendEntry (RunEntry.opened r now) with
      state := .immersed, phase := none, step := k, location := .slot r, restCause := none, imm := i }

/-- R44, but for the move: step `k` begins in slot `r`, with its STEP notice. -/
def State.openStep (s : State) (tag k : Nat) (r : SlotRef) : State :=
  match s.hanger? tag with
  | some h =>
    match s.recipeStep? h.recipe k with
    | some st =>
      let i := Immersion.start s.lineTime r.station st (s.station r.station).cls h.scale (s.rateOf r.station) s.grace
      ((s.modHanger tag (fun h => h.beginAt r k i s.lineTime)).markIfStale tag r.station).notify .step (some tag)
        (some r.station) none k 0
    | none => s
  | none => s

/-- R44: step `k` begins in slot `r`. -/
def State.beginStep (s : State) (tag k : Nat) (r : SlotRef) : State := (s.openStep tag k r).createNext tag r

/-- The exit position of a hanger: the step count of its version (R33). -/
def State.exitPosition (s : State) (h : Hanger) : Nat := (s.recipe h.recipe).active.length

/-- R45: the hanger reaches the exit, with no reservation left and its DONE notice. -/
def State.reachExit (s : State) (h : Hanger) (r : SlotRef) : State :=
  ((s.releaseAll h.tag).modHanger h.tag (fun h =>
    { h.appendEntry (RunEntry.exit r s.lineTime .onTime) with
        state := .done, phase := none, step := s.exitPosition h, location := .slot r, forward := none })).notify .done (some h.tag)
    (some r.station) none 0 0

/-! ### Abort (R46 to R52) -/

/-- The count of a hanger's immersion stops (R64). -/
def Hanger.stopCount (h : Hanger) : Hanger := { h with imm := { h.imm with counting := false } }

/-- A hanger comes to rest ABORTED with a rest cause and nothing reserved (R47, R48, R51). -/
def Hanger.rest (h : Hanger) (c : RestCause) : Hanger :=
  { h with state := .aborted, phase := none, restCause := some c, pendingAbort := false, forward := none }

/-- R47: the abort of a LOADED hanger. -/
def State.abortLoaded (s : State) (tag : Nat) : State :=
  (((s.leaveOrder tag).removeHangerMove tag).releaseAll tag).modHanger tag (fun h => h.rest .unstarted)

/-- R48: the abort of a hanger IMMERSED in a BOUNDED or OPEN station. -/
def State.abortInPlace (s : State) (tag : Nat) : State :=
  ((((s.closeEntry tag .aborted).removeHangerMove tag).releaseAll tag).modHanger tag Hanger.stopCount).modHanger tag
    (fun h => h.rest .inStep)

/-- R49: a move becomes an ABORT move at a line time; one that is an ABORT move already keeps its times (log 10). -/
def Move.toAbort (m : Move) (now : LineTime) : Move :=
  if m.kind = .abort then { m with state := .ready }
  else { m with kind := .abort, due := none, ready := now, deadline := some now, state := .ready }

/-- R49: the hanger's move becomes an ABORT move, with the WORK notices of R110 (R107). -/
def State.makeAbortMove (s : State) (tag : Nat) : State :=
  match s.hangerMove? tag with
  | some m => (s.modMove m.id (fun m => m.toAbort s.lineTime)).announceId m.id
  | none => s

/-- R49: the abort of a hanger IMMERSED in a STRICT station, or RESCUED with its move not granted. -/
def State.abortStrict (s : State) (tag : Nat) : State :=
  (((s.closeEntry tag .aborted).modHanger tag Hanger.stopCount).modHanger tag
    (fun h => { h with pendingAbort := true })).makeAbortMove tag

/-- The station a hanger's slot lies in has class STRICT. -/
def State.inStrict (s : State) (h : Hanger) : Bool :=
  match h.location with
  | .slot r => (s.station r.station).cls == .strict
  | .gantry _ => false

/-- R35: the hanger's move is granted. -/
def State.moveGranted (s : State) (tag : Nat) : Bool :=
  match s.hangerMove? tag with
  | some m => m.state == .granted || m.state == .carried
  | none => false

/-- R46: ABORT-HANGER. -/
def abortHanger (tag : Nat) (s : State) : State × Reply :=
  s.withHanger tag (fun h =>
    if h.pendingAbort then s.answer .acceptedPending
    else
      let pend := (s.modHanger tag (fun h => { h with pendingAbort := true })).answer .acceptedPending
      match h.state with
      | .loaded => (s.abortLoaded tag).answer .ok
      | .immersed => if s.inStrict h then (s.abortStrict tag).answer .ok else (s.abortInPlace tag).answer .ok
      | .rescued => if s.moveGranted tag then pend else (s.abortStrict tag).answer .ok
      | .inTransit => pend
      | .stranded => s.answer .notNow
      | .done => s.answer .notNow
      | .aborted => s.answer .notNow)

def execAbortHanger (tag : Nat) (s : State) : Host.Outcome State Fault Refusal :=
  s.request (.abortHanger tag) (abortHanger tag)

/-! ### LOWERED with the pending abort set (R51)

In the first, second and last rows the hanger holds no reservation afterwards. -/

/-- R51, first row: an ABORT move into a BOUNDED, OPEN or UNLOAD station. -/
def State.restAfterAbort (s : State) (h : Hanger) (r : SlotRef) : State :=
  let k := if (s.station r.station).cls = .unload then s.exitPosition h
    else match s.target? h with
      | some (.step k _) => k
      | _ => h.step
  (s.releaseAll h.tag).modHanger h.tag (fun h => { h.rest .abortMove with step := k, location := .slot r })

/-- R51, last row: the exit move into an UNLOAD slot. -/
def State.abortAtExit (s : State) (h : Hanger) (r : SlotRef) : State :=
  ((s.releaseAll h.tag).modHanger h.tag (fun h =>
    { (h.appendEntry (RunEntry.exit r s.lineTime .aborted)).rest .exit with
        step := s.exitPosition h, location := .slot r })).notifyCondition h.tag r.station .aborted

/-- R51, second row: any other move into a BOUNDED or OPEN station. -/
def State.abortAtStep (s : State) (tag k : Nat) (r : SlotRef) : State :=
  ((((s.openStep tag k r).closeEntry tag .aborted).releaseAll tag).modHanger tag Hanger.stopCount).modHanger tag
    (fun h => h.rest .inStep)

/-- R51, third row: into a STRICT station; on a raised bar the hanger becomes RESCUED with the note (R174). -/
def State.abortIntoStrict (s : State) (tag k : Nat) (r : SlotRef) : State :=
  let s1 := ((s.openStep tag k r).closeEntry tag .aborted).modHanger tag Hanger.stopCount
  let s2 := match s1.hanger? tag with
    | some h => s1.createMove (s1.freshAbort h r)
    | none => s1
  if s.barRaised r.station then
    s2.modHanger tag (fun h => h.rescued.modNewest RunEntry.markRescued)
  else s2

/-- R51: the pending abort is applied at LOWERED of move `m` into slot `r`. -/
def State.lowerAborted (s : State) (h : Hanger) (kind : MoveKind) (r : SlotRef) : State :=
  match (s.station r.station).cls, s.target? h with
  | .strict, some (.step k _) => s.abortIntoStrict h.tag k r
  | .unload, _ => if kind = .abort then s.restAfterAbort h r else s.abortAtExit h r
  | _, some (.step k _) => if kind = .abort then s.restAfterAbort h r else s.abortAtStep h.tag k r
  | _, _ => s.restAfterAbort h r

/-! ### LOWERED without a pending abort (R44, R45, R174) -/

/-- R174: the step begins on a raised bar: the entry closes UNDER with the RESCUED note, and the move takes the rescue exit
times. -/
def State.lowerOnBar (s : State) (tag k : Nat) (r : SlotRef) : State :=
  let s1 := ((s.openStep tag k r).closeEntry tag .under).modHanger tag
    (fun h => h.rescued.modNewest RunEntry.markRescued)
  match s1.hanger? tag with
  | some h => s1.createMove { (s1.nextMove h r).rescueTimes s.lineTime (s.exitAllowance r.station) with state := .ready }
  | none => s1

/-- R142, step 4: the step the destination serves begins, or the exit is reached. -/
def State.lowerStep (s : State) (h : Hanger) (r : SlotRef) : State :=
  match s.target? h with
  | some (.step k _) => if s.barRaised r.station then s.lowerOnBar h.tag k r else s.beginStep h.tag k r
  | some .exit => s.reachExit h r
  | none => s

/-! ### ADMIT (R43) -/

/-- R43: the record ADMIT creates. -/
def Hanger.admitted (tag : Nat) (seq : Seq) (recipe scale area : Nat) (r : SlotRef) : Hanger :=
  { tag := tag, seq := seq, recipe := recipe, bound := false, scale := scale, area := area, state := .loaded, phase := none,
    step := 0, location := .slot r, forward := none, pendingAbort := false, restCause := none, imm := Immersion.blank,
    run := [], dropped := 0 }

/-- R43: the changes of an ADMIT that passes its tests. -/
def State.admitAt (s : State) (tag recipe scale area : Nat) (r : SlotRef) : State :=
  let h := Hanger.admitted tag s.admissions recipe scale area r
  s.together (s.occupy r tag) (fun t =>
    { t with hangers := t.hangers ++ [h], startOrder := t.startOrder ++ [tag], admissions := t.admissions + 1
      : State }.createEntry h r)

/-- R43: ADMIT, its tests in their order. -/
def admitRule (tag recipe scale area st sl : Nat) (s : State) : State × Reply :=
  let r : SlotRef := { station := st, slot := sl }
  if tag < 1 ∨ 255 < tag ∨ 15 < recipe ∨ !slotInRange st sl then s.answer .badArg
  else if (s.station st).cls ≠ .load ∨ !(s.station st).hasSlot sl then s.answer .badArg
  else if (s.hanger? tag).isSome then s.answer .inUse
  else if s.slotAt r ≠ .free then s.answer .inUse
  else if Config.hangers ≤ s.hangers.length then s.answer .full
  else
    let scale' := clampNat 500 2000 scale
    (s.admitAt tag recipe scale' area r).answer (if scale' = scale then .ok else .clamped)

def execAdmitHanger (tag recipe scale area station slot : Nat) (s : State) : Host.Outcome State Fault Refusal :=
  s.request (.admitHanger tag recipe scale area station slot) (admitRule tag recipe scale area station slot)

/-! ### RESUME-HANGER (R53) -/

/-- R53: a station is within the reach of either gantry that also reaches the STRICT station. -/
def State.jointReach (s : State) (strict st : Nat) : Bool :=
  (s.gantryA.reaches strict && s.gantryA.reaches st) || (s.gantryB.reaches strict && s.gantryB.reaches st)

/-- R53: step `k` begins afresh in the slot the hanger rests in; into a STRICT station only with a forward slot. A position
that names no step of the version has nothing to begin. -/
def State.beginAfresh (s : State) (h : Hanger) (k : Nat) (r : SlotRef) : State × Reply :=
  if (s.recipeStep? h.recipe k).isNone then s.answer .notNow
  else if (s.station r.station).cls = .strict then
    if s.barRaised r.station then s.answer .notNow
    else
      match (followingTarget (s.recipe h.recipe).active k).bind (fun t =>
          s.chooseSlot (s.jointReach r.station) t (s.station r.station).coordinate) with
      | some f =>
        (s.together (s.reserve f h.tag .forward) (fun t =>
          (t.modHanger h.tag (fun h => { h with forward := some f })).beginStep h.tag k r)).answer .ok
      | none => s.answer .notNow
  else (s.beginStep h.tag k r).answer .ok

/-- R53, IN-STEP: the record resumed in place. -/
def Hanger.resumed (h : Hanger) (now : LineTime) : Hanger :=
  { h.modNewest RunEntry.reopen with
      state := .immersed, phase := none, restCause := none,
      imm := { h.imm with counting := true, entryTime := minus now h.imm.elapsed } }

/-- R53, IN-STEP: the step resumes in place. -/
def State.resumeInPlace (s : State) (h : Hanger) (r : SlotRef) : State :=
  (((s.modHanger h.tag (fun h => h.resumed s.lineTime)).markIfStale h.tag r.station).notify .step (some h.tag)
    (some r.station) none h.step 0).createNext h.tag r

/-- R53, RECOVERED: the step the station of the slot decides. Where its group is that of the target step and of the step in the
Step field, both sentences of R53 apply; the model begins the target step (log 36, DESIGN CHOICE). -/
def State.recoveredStep (s : State) (h : Hanger) (st : Nat) : Option Nat :=
  let byStep : Option Nat := match s.recipeStep? h.recipe h.step with
    | some k => if !h.run.isEmpty && (s.station st).group == k.group then some h.step else none
    | none => none
  match s.target? h with
  | some (.step k g) => if (s.station st).group = g then some k else byStep
  | _ => byStep

/-- R53: an ABORTED, bound hanger taken by its rest cause. -/
def State.resumeBy (s : State) (h : Hanger) (r : SlotRef) : State × Reply :=
  match h.restCause with
  | some .inStep => (s.resumeInPlace h r).answer .ok
  | some .abortMove =>
    if (s.station r.station).cls = .unload ∨ (s.station r.station).cls = .load then s.answer .notNow
    else s.beginAfresh h h.step r
  | some .recovered =>
    match s.recoveredStep h r.station with
    | some k => s.beginAfresh h k r
    | none => s.answer .notNow
  | some .unstarted => s.answer .notNow
  | some .exit => s.answer .notNow
  | none => s.answer .notNow

/-- R53: RESUME-HANGER. -/
def resumeHanger (tag : Nat) (s : State) : State × Reply :=
  s.withHanger tag (fun h =>
    match h.location with
    | .slot r => if h.state ≠ .aborted ∨ h.bound = false then s.answer .notNow else s.resumeBy h r
    | .gantry _ => s.answer .notNow)

def execResumeHanger (tag : Nat) (s : State) : Host.Outcome State Fault Refusal :=
  s.request (.resumeHanger tag) (resumeHanger tag)

/-! ### RESTART-HANGER (R54) -/

/-- R54: the run record holds an entry of a STRICT station. -/
def State.ranStrict (s : State) (h : Hanger) : Bool := h.run.any (fun e => (s.station e.station).cls == .strict)

/-- R54: the record reset in place. -/
def Hanger.restarted (h : Hanger) : Hanger :=
  { h with run := [], dropped := 0, step := 0, imm := Immersion.blank, restCause := none, state := .loaded, phase := none }

/-- R54: RESTART-HANGER. -/
def restartHanger (tag : Nat) (s : State) : State × Reply :=
  s.withHanger tag (fun h =>
    match h.location with
    | .slot r =>
      if h.state ≠ .aborted ∨ s.inStrict h = true ∨ s.ranStrict h = true ∨ 0 < h.dropped then s.answer .notNow
      else (((s.modHanger tag Hanger.restarted).rejoin h).createEntry h r).answer .ok
    | .gantry _ => s.answer .notNow)

def execRestartHanger (tag : Nat) (s : State) : Host.Outcome State Fault Refusal :=
  s.request (.restartHanger tag) (restartHanger tag)

/-! ### RECOVER (R55) -/

/-- R147: the stranded hold of a tag is cleared. -/
def Gantry.clearHold (g : Gantry) (tag : Nat) : Gantry :=
  match g.hold with
  | some h => if h.tag = tag then { g with hold := none } else g
  | none => g

/-- R55: the changes of a RECOVER that passes its tests. -/
def State.recoverAt (s : State) (tag : Nat) (r : SlotRef) : State :=
  s.together (s.occupy r tag) (fun t =>
    let u := (t.releaseAll tag).modHanger tag (fun h =>
      { (h.rest .recovered).modNewest RunEntry.markStranded with location := .slot r })
    { u with gantryA := u.gantryA.clearHold tag, gantryB := u.gantryB.clearHold tag })

/-- R55: RECOVER, its tests in their order. -/
def recover (tag st sl : Nat) (s : State) : State × Reply :=
  let r : SlotRef := { station := st, slot := sl }
  if tag < 1 ∨ 255 < tag ∨ !slotInRange st sl then s.answer .badArg
  else match s.hanger? tag with
    | some h =>
      if !(s.station st).hasSlot sl then s.answer .noSuch
      else if h.state ≠ .stranded then s.answer .notNow
      else if s.slotAt r ≠ .free ∧ (s.slotAt r).reservedFor tag = false then s.answer .inUse
      else (s.recoverAt tag r).answer .ok
    | none => s.answer .noSuch

def execRecover (tag station slot : Nat) (s : State) : Host.Outcome State Fault Refusal :=
  s.request (.recover tag station slot) (recover tag station slot)

/-! ### UNLOADED (R56) -/

/-- R56: the LOADED, DONE or ABORTED hanger that rests in a slot. -/
def State.withdrawable (s : State) (r : SlotRef) : Option Hanger :=
  match s.slotAt r with
  | .occupied tag => (s.hanger? tag).filter (fun h => h.state == .loaded || h.state == .done || h.state == .aborted)
  | _ => none

/-- R56: the record is freed. -/
def State.dropHanger (s : State) (tag : Nat) : State := { s with hangers := s.hangers.filter (fun h => h.tag != tag) }

/-- R56: a hanger is withdrawn. -/
def State.withdraw (s : State) (h : Hanger) (r : SlotRef) : State :=
  s.together (s.vacate r h.tag) (fun t =>
    let u := (((t.leaveOrder h.tag).removeHangerMove h.tag).releaseAll h.tag).dropHanger h.tag
    if h.bound then u.leaveRecipe h.recipe else u)

/-- R56: UNLOADED. -/
def unloaded (st sl : Nat) (s : State) : State × Reply :=
  let r : SlotRef := { station := st, slot := sl }
  if !slotInRange st sl then s.answer .badArg
  else if !(s.station st).hasSlot sl then s.answer .noSuch
  else match s.withdrawable r with
    | some h => (s.withdraw h r).answer .ok
    | none => s.answer .inUse

def execUnloaded (station slot : Nat) (s : State) : Host.Outcome State Fault Refusal :=
  s.request (.unloaded station slot) (unloaded station slot)

/-! ### READ-HANGER and READ-RUN (R57, R58, R192) -/

/-- R57: the place in the start order, 1 to 32; the encoding of none is a free value (log 7). -/
def placeByte (order : List Nat) (tag : Nat) : List Byte :=
  match order.findIdx? (fun t => t == tag) with
  | some i => bytes1 (i + 1)
  | none => [Config.placeNoneByte]

/-- The location bytes of READ-HANGER. -/
def Location.bytes : Location → List Byte
  | .slot r => slotBytes (some r) ++ indexByte none
  | .gantry g => slotBytes none ++ bytes1 (gantryCode g)

/-- R57, R192: the READ-HANGER payload. -/
def hangerPayload (s : State) (h : Hanger) : List Byte :=
  bytes1 h.tag ++ bytes2 h.seq.toNat ++ bytes1 h.recipe ++ flagByte h.bound ++ bytes2 h.scale ++ bytes2 h.area
    ++ bytes1 h.state.code ++ indexByte (h.phase.map TransitPhase.code) ++ bytes1 h.step
    ++ indexByte (h.restCause.map RestCause.code) ++ flagByte h.pendingAbort ++ h.location.bytes ++ slotBytes h.forward
    ++ present1 ((s.hangerMove? h.tag).map (fun m => m.id)) ++ bytes3 h.imm.elapsed ++ bytes4 h.imm.progress
    ++ bytes3 h.imm.unagitated ++ placeByte s.startOrder h.tag ++ bytes1 h.run.length ++ bytes1 h.dropped

/-- R57: READ-HANGER. -/
def readHanger (tag : Nat) (s : State) : State × Reply :=
  s.withHanger tag (fun h => (s, { status := .ok, payload := hangerPayload s h }))

def execReadHanger (tag : Nat) (s : State) : Host.Outcome State Fault Refusal :=
  s.request (.readHanger tag) (readHanger tag)

/-- R192: one run entry of READ-RUN. -/
def RunEntry.bytes (e : RunEntry) : List Byte :=
  bytes1 e.station ++ bytes1 e.slot ++ timeBytes e.start ++ presentTime e.endTime ++ present3 e.actual
    ++ present3 e.reference ++ indexByte (e.condition.map Condition.code) ++ e.notes.byte

/-- R58, R192: the READ-RUN payload. -/
def runPayload (h : Hanger) (first : Nat) : List Byte :=
  bytes1 h.run.length ++ bytes1 h.dropped ++ bytes1 first ++ ((h.run.drop first).take 2).flatMap RunEntry.bytes

/-- R58: READ-RUN. -/
def readRun (tag first : Nat) (s : State) : State × Reply :=
  if 12 < first then s.answer .badArg
  else s.withHanger tag (fun h => (s, { status := .ok, payload := runPayload h first }))

def execReadRun (tag first : Nat) (s : State) : Host.Outcome State Fault Refusal :=
  s.request (.readRun tag first) (readRun tag first)

end Sys2Proof.Machine
end

