-- ==== Sys2Proof/Machine/Gantries.lean ====
section
/-! DEFINITION. Gantries and rail zones (chapter 7): homes and spans, link states, the supervisor's gantry requests, HELLO
and HOMED, the progress reports, the return of a move to READY, stranding, and move limits. -/

namespace Sys2Proof.Machine

/-! ### Homes and spans (R128, R137) -/

/-- R128: the configured stations within a reach, in index order. -/
def State.reachStations (s : State) (lo hi : Nat) : List Nat :=
  (List.range Config.stations).filter (fun st => (s.station st).configured && decide (lo ≤ st) && decide (st ≤ hi))

/-- R128: the home of a gantry for a reach. -/
def State.homeFor (s : State) (g : GantryId) (lo hi : Nat) : Nat :=
  match g with
  | .a => match (s.reachStations lo hi).head? with
    | some st => (s.station st).coordinate
    | none => 0
  | .b => match (s.reachStations lo hi).getLast? with
    | some st => (s.station st).coordinate
    | none => 4095

/-- R128: the home of a gantry, as derived now. -/
def State.home (s : State) (g : GantryId) : Nat := s.homeFor g (s.gantry g).reachLow (s.gantry g).reachHigh

/-- R137: a candidate span of a gantry passes the span test against the other's reserved span. -/
def State.spanTest (s : State) (g : GantryId) (lo hi : Nat) : Bool :=
  match g with
  | .a => decide (hi + s.guardGap ≤ s.gantryB.spanLow)
  | .b => decide (s.gantryA.spanHigh + s.guardGap ≤ lo)

/-- A gantry stands at a point, with its span shrunk to it (R133, R143, R144). -/
def Gantry.standAt (r : Gantry) (x : Nat) : Gantry := { r with point := x, spanLow := x, spanHigh := x }

/-! ### Link states (R131) -/

/-- R131: the link state changes, with its GANTRY-STATE notice; leaving READY for a state other than BUSY removes the
gantry's own YIELD move. -/
def State.setLink (s : State) (g : GantryId) (l : LinkState) : State :=
  if (s.gantry g).link = l then s
  else
    let t := (s.modGantry g (fun r => { r with link := l })).notifyGantry g
    if (s.gantry g).link = .ready ∧ l ≠ .busy then t.removeOwnYield g else t

/-- The supervisor's requests that name a gantry: a value other than A or B is BAD-ARG. -/
def State.withGantry (s : State) (x : Nat) (body : GantryId → State × Reply) : State × Reply :=
  match gantryOf x with
  | some g => body g
  | none => s.answer .badArg

/-! ### SET-GANTRY and SET-GUARD (R129, R130) -/

/-- R129, test 3: with a new reach of one gantry, the homes stand the guard gap apart. -/
def State.homesApart (s : State) (g : GantryId) (lo hi : Nat) : Bool :=
  match g with
  | .a => decide (s.homeFor .a lo hi + s.guardGap ≤ s.home .b)
  | .b => decide (s.home .a + s.guardGap ≤ s.homeFor .b lo hi)

/-- R129: SET-GANTRY, its tests in their order. -/
def setGantry (gx lo hi h pace margin : Nat) (s : State) : State × Reply :=
  s.withGantry gx (fun g =>
    let h' := clampNat 0 600 h
    let pace' := clampNat 1 255 pace
    let margin' := clampNat 0 600 margin
    if 23 < lo ∨ 23 < hi ∨ hi < lo then s.answer .badArg
    else if (s.gantry g).link ≠ .offline then s.answer .notNow
    else if !s.homesApart g lo hi then s.answer .badArg
    else
      (s.modGantry g (fun r => { r with reachLow := lo, reachHigh := hi, handling := h', pace := pace', margin := margin' })
        ).answer (if h' = h ∧ pace' = pace ∧ margin' = margin then .ok else .clamped))

def execSetGantry (gantry lowest highest handling pace margin : Nat) (s : State) : Host.Outcome State Fault Refusal :=
  s.request (.setGantry gantry lowest highest handling pace margin)
    (Machine.setGantry gantry lowest highest handling pace margin)

/-- R130: SET-GUARD, its tests in their order. -/
def setGuard (gap : Nat) (s : State) : State × Reply :=
  if 1000 < gap then s.answer .badArg
  else if s.gantryA.link ≠ .offline ∨ s.gantryB.link ≠ .offline then s.answer .notNow
  else if s.home .b < s.home .a + gap then s.answer .badArg
  else if s.gantryB.spanLow < s.gantryA.spanHigh + gap then s.answer .badArg
  else { s with guardGap := gap }.answer .ok

def execSetGuard (gap : Nat) (s : State) : Host.Outcome State Fault Refusal := s.request (.setGuard gap) (setGuard gap)

/-! ### GANTRY-PAUSE and GANTRY-RESUME (R135) -/

/-- R135: GANTRY-PAUSE. -/
def gantryPause (gx : Nat) (s : State) : State × Reply :=
  s.withGantry gx (fun g =>
    match (s.gantry g).link with
    | .ready => ((s.setLink g .paused).notifyPause g 0).answer .ok
    | .busy =>
      if (s.gantry g).pausePending then s.answer .ok
      else ((s.modGantry g (fun r => { r with pausePending := true })).notifyPause g 1).answer .ok
    | .paused => s.answer .ok
    | .offline => s.answer .notNow
    | .homing => s.answer .notNow
    | .faulted => s.answer .notNow)

def execGantryPause (gantry : Nat) (s : State) : Host.Outcome State Fault Refusal :=
  s.request (.gantryPause gantry) (Machine.gantryPause gantry)

/-- R135: GANTRY-RESUME. The PAUSE notice joins the queue before the WORK notice (log 15). -/
def gantryResume (gx : Nat) (s : State) : State × Reply :=
  s.withGantry gx (fun g =>
    if (s.gantry g).link = .paused then (((s.setLink g .ready).notifyPause g 2).readyWork g).answer .ok
    else if (s.gantry g).link = .busy ∧ (s.gantry g).pausePending = true then
      ((s.modGantry g (fun r => { r with pausePending := false })).notifyPause g 2).answer .ok
    else s.answer .notNow)

def execGantryResume (gantry : Nat) (s : State) : Host.Outcome State Fault Refusal :=
  s.request (.gantryResume gantry) (Machine.gantryResume gantry)

/-! ### The return of a granted move to READY (R145, R52) -/

/-- R145: the fields of a move that returns to READY. -/
def Move.returned (m : Move) : Move :=
  { m with state := .ready, gantry := none, grantTime := none, estimate := none, limit := none }

/-- R145: the state a hanger returns to: LOADED for its ENTRY move, IMMERSED for another; a RESCUED hanger stays so. -/
def Hanger.returned (h : Hanger) (kind : MoveKind) : Hanger :=
  if h.state = .inTransit then { h with state := if kind = .entry then .loaded else .immersed, phase := none } else h

/-- R52: the pending abort is applied as for the state the hanger has returned to. At GANTRY-RESET too the reservations R52
names are released, though R17 has that request leave the station map as it is (log 28, DESIGN CHOICE). -/
def State.abortReturned (s : State) (tag : Nat) (h : Hanger) : State :=
  match h.state with
  | .loaded => s.abortLoaded tag
  | .immersed => if s.inStrict h then s.abortStrict tag else s.abortInPlace tag
  | _ => s.abortStrict tag

/-- R145: the granted hanger move returns to READY. The gantry's own change is made by the caller. -/
def State.returnToReady (s : State) (m : Move) : State :=
  let s1 := s.modMove m.id Move.returned
  match m.tag.bind s.hanger? with
  | some h =>
    let h' := h.returned m.kind
    let s2 := s1.modHanger h.tag (fun h => h.returned m.kind)
    if h.pendingAbort then s2.abortReturned h.tag h'
    else if h'.state = .loaded then (s2.rejoin h').announceId m.id
    else s2.announceId m.id
  | none => s1

/-! ### Stranding, faults and resets (R136, R146, R147) -/

/-- R147: the hanger of a CARRIED move is stranded on its gantry, and the move is removed. -/
def State.strand (s : State) (g : GantryId) (m : Move) : State :=
  match m.tag, m.dest with
  | some tag, some (.slot d) =>
    ((((s.removeMove m.id).modHanger tag (fun h =>
        { h with state := .stranded, location := .gantry g, phase := none, pendingAbort := false })).modGantry g
      (fun r => { r with hold := some { tag := tag, dest := d } }))).notify .stranded (some tag) (some d.station)
        (some m.id) 0 0
  | _, _ => s.removeMove m.id

/-- R146, R148: the granted move of a gantry that fails, by its phase. -/
def State.dispose (s : State) (g : GantryId) (m : Move) : State :=
  match m.state with
  | .granted => if m.kind = .yielding then s.removeMove m.id else s.returnToReady m
  | .carried => s.strand g m
  | _ => s.removeMove m.id

/-- R146: what a failure with a fault code does to the gantry record, but for the link state. -/
def Gantry.failed (r : Gantry) (code : Option Nat) : Gantry :=
  { r with pausePending := false, last := r.granted, granted := none, faultCode := code }

/-- The move a gantry holds from its grant (R127). -/
def State.grantedMove? (s : State) (g : GantryId) : Option Move := (s.gantry g).granted.bind s.move?

/-- R146: the gantry enters FAULTED with a fault code, and its granted move is taken by its phase. -/
def State.faultGantry (s : State) (g : GantryId) (code : Nat) : State :=
  let t := (s.modGantry g (fun r => r.failed (some code))).setLink g .faulted
  match s.grantedMove? g with
  | some m => t.dispose g m
  | none => t

/-- R136: in BUSY the granted move is taken as at a FAULT with code 0, and no notice is posted for FAULTED. -/
def State.resetBusy (s : State) (g : GantryId) : State :=
  let t := s.modGantry g (fun r => { r.failed (some 0) with link := .faulted })
  match s.grantedMove? g with
  | some m => t.dispose g m
  | none => t

/-- R136: GANTRY-RESET. -/
def gantryReset (gx : Nat) (s : State) : State × Reply :=
  s.withGantry gx (fun g =>
    match (s.gantry g).link with
    | .offline => s.answer .ok
    | .busy => ((s.resetBusy g).setLink g .offline).answer .ok
    | _ => ((s.modGantry g (fun r => { r with pausePending := false })).setLink g .offline).answer .ok)

def execGantryReset (gantry : Nat) (s : State) : Host.Outcome State Fault Refusal :=
  s.request (.gantryReset gantry) (Machine.gantryReset gantry)

/-! ### HELLO and HOMED (R132, R133) -/

/-- R132: a STRANDED hanger names the gantry as its location. -/
def State.strandedOn (s : State) (g : GantryId) : Bool :=
  s.hangers.any (fun h => h.state == .stranded && h.location == .gantry g)

/-- R132: HELLO. One refused by the span test leaves the homing target as it was (log 32, DESIGN CHOICE). -/
def hello (g : GantryId) (s : State) : State × Reply :=
  let r := s.gantry g
  let x := s.home g
  let lo := min r.spanLow x
  let hi := max r.spanHigh x
  match r.link with
  | .offline =>
    if s.strandedOn g then s.answer .notNow
    else if !s.spanTest g lo hi then s.answer .notNow
    else
      ((s.modGantry g (fun r =>
        { r with homing := x, spanLow := lo, spanHigh := hi, last := none, faultCode := none })).setLink g .homing
        ).answer .ok
  | .homing => s.answer .ok
  | _ => s.answer .notNow

def execHello (gantry : GantryId) (s : State) : Host.Outcome State Fault Refusal :=
  s.request (.hello gantry) (Machine.hello gantry)

/-- R133: HOMED. -/
def homed (g : GantryId) (s : State) : State × Reply :=
  if (s.gantry g).link = .homing then
    (((s.modGantry g (fun r => r.standAt r.homing)).setLink g .ready).readyWork g).answer .ok
  else s.answer .notNow

def execHomed (gantry : GantryId) (s : State) : Host.Outcome State Fault Refusal :=
  s.request (.homed gantry) (Machine.homed gantry)

/-! ### Progress reports (R140) -/

/-- R140, tests 1 to 4, of a report that names a move: `phase` is the phase the report needs. -/
def State.report (s : State) (g : GantryId) (id : Nat) (phase : Move → Bool) (body : Move → State × Reply) :
    State × Reply :=
  if 255 < id then s.answer .badArg
  else if (s.gantry g).link = .faulted ∨ (s.gantry g).link = .offline then
    s.answer (if (s.gantry g).last = some id then .tooLate else .wrongMove)
  else if (s.gantry g).granted ≠ some id then s.answer .wrongMove
  else match s.move? id with
    | some m => if phase m then body m else s.answer .outOfOrder
    | none => s.answer .wrongMove

/-- R140: GRANTED, hanger move. -/
def Move.awaitsLift (m : Move) : Bool := m.state == .granted && m.kind != .yielding

/-- R140: PLACED; or GRANTED, YIELD move. -/
def Move.awaitsDone (m : Move) : Bool := m.state == .placed || (m.state == .granted && m.kind == .yielding)

/-- R141: the source entry closes with its condition, the count stops and the compare point is disarmed. -/
def State.endImmersion (s : State) (tag : Nat) : State :=
  match s.hanger? tag with
  | some h =>
    (s.closeEntry tag h.imm.liftCondition).modHanger tag (fun h =>
      { h with imm := { h.imm with counting := false, compare := none } })
  | none => s

/-- R141: the changes of LIFTED. -/
def State.lift (s : State) (g : GantryId) (m : Move) : State :=
  match m.tag, m.source with
  | some tag, .slot r =>
    s.together ((s.endImmersion tag).vacate r tag) (fun t =>
      (t.modHanger tag (fun h => { h with state := .inTransit, phase := some .carried, location := .gantry g })).modMove m.id
        (fun m => { m with state := .carried }))
  | _, _ => s

/-- R141: LIFTED. -/
def lifted (g : GantryId) (id : Nat) (s : State) : State × Reply :=
  s.report g id Move.awaitsLift (fun m => (s.lift g m).answer .ok)

def execLifted (gantry : GantryId) (move : Nat) (s : State) : Host.Outcome State Fault Refusal :=
  s.request (.lifted gantry move) (Machine.lifted gantry move)

/-- R142, steps 1 to 3 and 5, on the state `t` in which the slot is occupied: location, forward reservation, area, and the
PLACED move. Step 4 follows it, so that the move it creates is the hanger's move. -/
def State.place (t : State) (tag : Nat) (r : SlotRef) (area id : Nat) : State :=
  ((t.modHanger tag (fun h =>
    { h with location := .slot r, forward := if (t.station r.station).cls = .strict then h.forward else none })).addArea
      r.station area).modMove id (fun m => { m with state := .placed })

/-- R142: the changes of LOWERED. A hanger that R36 gives no target has no step to begin and no exit to reach, and rides on no
gantry; for one, the event makes no change (log 26). -/
def State.lower (s : State) (m : Move) : State :=
  match m.tag.bind s.hanger?, m.dest with
  | some h, some (.slot r) =>
    s.together (if h.pendingAbort || (s.target? h).isSome then s.occupy r h.tag else none) (fun t =>
      let u := t.place h.tag r h.area m.id
      if h.pendingAbort then u.lowerAborted h m.kind r else u.lowerStep h r)
  | _, _ => s

/-- R142: LOWERED. -/
def lowered (g : GantryId) (id : Nat) (s : State) : State × Reply :=
  s.report g id (fun m => m.state == .carried) (fun m => (s.lower m).answer .ok)

def execLowered (gantry : GantryId) (move : Nat) (s : State) : Host.Outcome State Fault Refusal :=
  s.request (.lowered gantry move) (Machine.lowered gantry move)

/-- R143, R144: the state a BUSY gantry enters when it is idle again. -/
def Gantry.idleState (r : Gantry) : LinkState := if r.pausePending then .paused else .ready

/-- R143, R144: the gantry stands idle at a coordinate, holds no move, and enters READY, with the notice of R134, or PAUSED. -/
def State.standIdle (s : State) (g : GantryId) (x : Nat) : State :=
  let l := (s.gantry g).idleState
  let t := (s.modGantry g (fun r => { r.standAt x with granted := none, pausePending := false })).setLink g l
  if l = .ready then t.readyWork g else t

/-- R143: the coordinate a move leads to. -/
def State.destCoordinate (s : State) (m : Move) (old : Nat) : Nat :=
  match m.dest with
  | some p => s.coordOf p
  | none => old

/-- R143: DONE. -/
def reportDone (g : GantryId) (id : Nat) (s : State) : State × Reply :=
  s.report g id Move.awaitsDone (fun m =>
    ((s.removeMove id).standIdle g (s.destCoordinate m (s.gantry g).point)).answer .ok)

def execDone (gantry : GantryId) (move : Nat) (s : State) : Host.Outcome State Fault Refusal :=
  s.request (.done gantry move) (reportDone gantry move)

/-- R144: ABANDON. The gantry enters READY, with the notice of R134, before the move returns to READY with those of R110. -/
def abandon (g : GantryId) (id x : Nat) (s : State) : State × Reply :=
  if 4095 < x then s.answer .badArg
  else s.report g id Move.awaitsLift (fun m =>
    if x < (s.gantry g).spanLow ∨ (s.gantry g).spanHigh < x then s.answer .badArg
    else ((s.standIdle g x).returnToReady m).answer .ok)

def execAbandon (gantry : GantryId) (move coordinate : Nat) (s : State) : Host.Outcome State Fault Refusal :=
  s.request (.abandon gantry move coordinate) (Machine.abandon gantry move coordinate)

/-- R140, R146: FAULT. The presence byte is 01h with the identifier and 00h without one; another value is out of range. With
00h the identifier byte is not read, whatever it holds (log 33, DESIGN CHOICE). -/
def fault (g : GantryId) (presence id code : Nat) (s : State) : State × Reply :=
  match yesNoOf presence with
  | some true => s.report g id (fun _ => true) (fun _ => (s.faultGantry g code).answer .ok)
  | some false =>
    if (s.gantry g).link = .faulted ∨ (s.gantry g).link = .offline then s.answer .notNow
    else (s.faultGantry g code).answer .ok
  | none => s.answer .badArg

def execFault (gantry : GantryId) (presence move code : Nat) (s : State) : Host.Outcome State Fault Refusal :=
  s.request (.fault gantry presence move code) (Machine.fault gantry presence move code)

/-! ### Move limits (R148) -/

/-- R148: MOVE-TIMEOUT, which a PLACED move does not post. -/
def State.notifyTimeout (s : State) (g : GantryId) (m : Move) : State :=
  if m.state = .placed then s else s.notify .moveTimeout m.tag none (some m.id) (gantryCode g) 0

/-- R148: the limit of a granted move is reached: its gantry enters FAULTED with no fault code, and the move is taken by its
phase. MOVE-TIMEOUT joins the queue before the notices of what becomes of the move (log 34, DESIGN CHOICE). -/
def State.timeOut (s : State) (g : GantryId) (m : Move) : State :=
  ((((s.modGantry g (fun r => r.failed none)).setLink g .faulted).notifyTimeout g m)).dispose g m

/-- R148: the line time has reached the limit of a granted move. -/
def State.limitDue (s : State) (id : Nat) : State :=
  match s.move? id with
  | some m =>
    match m.limit, m.gantry with
    | some t, some g => if reached s.lineTime t then s.timeOut g m else s
    | _, _ => s
  | none => s

/-- R148: MOVE-LIMIT-REACHED. -/
def execMoveLimitReached (move : Nat) (s : State) : Host.Outcome State Fault Refusal := .next (s.limitDue move)

/-! ### READ-GANTRY (R149, R192) -/

/-- R101: the YIELD move a gantry owns, granted or not (log 27). -/
def State.yieldOf (s : State) (g : GantryId) : Option Move :=
  s.moves.find? (fun m => m.kind == .yielding && m.gantry == some g)

/-- R149, R192: the READ-GANTRY payload. -/
def gantryPayload (s : State) (g : GantryId) : List Byte :=
  let r := s.gantry g
  let m := s.grantedMove? g
  bytes1 r.link.code ++ flagByte r.pausePending ++ bytes1 r.reachLow ++ bytes1 r.reachHigh ++ bytes2 r.handling
    ++ bytes1 r.pace ++ bytes2 r.margin ++ bytes2 r.homing ++ bytes2 (s.home g) ++ bytes2 r.point ++ bytes2 r.spanLow
    ++ bytes2 r.spanHigh ++ present1 r.granted ++ indexByte (m.map (fun m => m.state.code))
    ++ presentTime (m.bind (fun m => m.limit)) ++ present1 ((s.yieldOf g).map (fun m => m.id)) ++ present1 r.last
    ++ present1 r.faultCode ++ tagByte (r.hold.map (fun h => h.tag)) ++ slotBytes (r.hold.map (fun h => h.dest))
    ++ bytes2 s.guardGap

/-- R149: READ-GANTRY. -/
def readGantry (gx : Nat) (s : State) : State × Reply :=
  s.withGantry gx (fun g => (s, { status := .ok, payload := gantryPayload s g }))

def execReadGantry (gantry : Nat) (s : State) : Host.Outcome State Fault Refusal :=
  s.request (.readGantry gantry) (Machine.readGantry gantry)

end Sys2Proof.Machine
end

