-- ==== Sys2Proof/Machine/Claims.lean ====
section
/-! DEFINITION. CLAIM (section 6.5): the grant tests, the time estimate, YIELD moves, the grant and the NONE reply. -/

namespace Sys2Proof.Machine

/-! ### The tests (R114 to R122) -/

/-- R104: the From slot lies in a STRICT station. -/
def State.strictExit (s : State) (m : Move) : Bool :=
  match m.source with
  | .slot r => (s.station r.station).cls == .strict
  | .point _ => false

/-- R114: the line mode permits the move. -/
def State.modeAllows (s : State) (m : Move) : Bool :=
  match s.mode with
  | .idle => false
  | .run => true
  | .drain => m.kind != .entry
  | .hold => s.strictExit m || m.kind == .yielding

/-- R122: the hanger is held by its recipe: unbound, and the recipe not startable. -/
def State.heldByRecipe (s : State) (h : Hanger) : Bool := !h.bound && !(s.recipe h.recipe).startable

/-- R122: the gate hanger: the first in the start order that its recipe does not hold. -/
def State.gateHanger? (s : State) : Option Nat :=
  s.startOrder.find? (fun t => match s.hanger? t with
    | some h => !s.heldByRecipe h
    | none => false)

/-- R122: the start-order gate, made on ENTRY moves only. -/
def State.gatePasses (s : State) (m : Move) : Bool := m.kind != .entry || (m.tag.isSome && s.gateHanger? == m.tag)

/-- R115: the From station, and a fixed To station, lie in the gantry's reach. -/
def State.reachPasses (s : State) (g : GantryId) (m : Move) : Bool :=
  match m.source, m.dest with
  | .slot f, some (.slot d) => (s.gantry g).reaches f.station && (s.gantry g).reaches d.station
  | .slot f, none => (s.gantry g).reaches f.station
  | _, _ => false

/-- R116, R118: the destination: the fixed To where its station accepts lowering, or the slot chosen now. -/
def State.destinationFor (s : State) (g : GantryId) (m : Move) : Option SlotRef :=
  match m.dest with
  | some (.slot d) => if s.acceptsLowering d.station then some d else none
  | some (.point _) => none
  | none => (s.moveTarget? m).bind (fun t => s.chooseSlot (s.gantry g).reaches t (s.coordOf m.source))

/-- R117: the forward slot the hanger already holds for the step after the STRICT destination `d`. -/
def Hanger.keptForward (h : Hanger) (d : SlotRef) : Option SlotRef := h.forward.filter (fun f => f != d)

/-- R117, R118: the forward slot of a move into the STRICT station of `d`: the one kept, where its station accepts lowering,
or one chosen now. -/
def State.forwardFor (s : State) (g : GantryId) (h : Hanger) (d : SlotRef) : Option SlotRef :=
  match h.keptForward d with
  | some f => if s.acceptsLowering f.station then some f else none
  | none =>
    match s.target? h with
    | some (.step k _) => (followingTarget (s.recipe h.recipe).active k).bind (fun t =>
        s.chooseSlot (s.gantry g).reaches t (s.station d.station).coordinate)
    | _ => none

/-- R123, Slots: the destination becomes RESERVED DESTINATION and a new forward slot RESERVED FORWARD, both or neither. -/
def State.reserveRoute (s : State) (tag : Nat) (d : SlotRef) (f : Option SlotRef) : Option State :=
  let first := if s.slotAt d = .reserved tag .destination then some s
    else if s.slotAt d = .reserved tag .forward then s.convert d tag
    else s.reserve d tag .destination
  match f with
  | some f => first.bind (fun t => if t.slotAt f = .reserved tag .forward then some t else t.reserve f tag .forward)
  | none => first

/-- R116 to R118: the destination test: the destination, with a forward slot when its station is STRICT. A route whose
reservation the station map would refuse does not pass it (R5, log 26). -/
def State.routeFor (s : State) (g : GantryId) (m : Move) : Option (SlotRef × Option SlotRef) :=
  match s.destinationFor g m, m.tag.bind s.hanger? with
  | some d, some h =>
    (if (s.station d.station).cls = .strict then (s.forwardFor g h d).map (fun f => (d, some f)) else some (d, none)).filter
      (fun x => (s.reserveRoute h.tag x.1 x.2).isSome)
  | _, _ => none

/-- R120: the travel time of a distance at a pace. -/
def travelTime (dist pace : Nat) : Nat := ceilDiv (dist * pace) 100

/-- R120: the time estimate of a hanger move for a gantry, with its destination. -/
def State.estimateFor (s : State) (g : GantryId) (m : Move) (d : SlotRef) : Nat :=
  let x := s.coordOf m.source
  (s.gantry g).handling + m.drip
    + travelTime (railDistance (s.gantry g).point x + railDistance x (s.station d.station).coordinate) (s.gantry g).pace

/-- R120: the time estimate of a YIELD move. -/
def Gantry.yieldEstimate (r : Gantry) (x : Nat) : Nat := r.handling + travelTime (railDistance r.point x) r.pace

/-- R119: the lower end of the span of a hanger move. -/
def State.spanLowFor (s : State) (g : GantryId) (m : Move) (d : SlotRef) : Nat :=
  min (min (s.gantry g).point (s.coordOf m.source)) (s.station d.station).coordinate

/-- R119: the upper end of the span of a hanger move. -/
def State.spanHighFor (s : State) (g : GantryId) (m : Move) (d : SlotRef) : Nat :=
  max (max (s.gantry g).point (s.coordOf m.source)) (s.station d.station).coordinate

/-- R121: a STRICT-exit move that protects the gantry against a move of the given estimate. -/
def State.protects (s : State) (g : GantryId) (estimate : Nat) (m : Move) : Bool :=
  s.strictExit m && (m.state == .waiting || m.state == .ready) && m.dest.isSome && s.reachPasses g m
    && reached (plus s.lineTime estimate) m.ready

/-- R121: the protection test. -/
def State.protectionPasses (s : State) (g : GantryId) (m : Move) (d : SlotRef) : Bool :=
  s.strictExit m || !s.moves.any (s.protects g (s.estimateFor g m d))

/-! ### YIELD moves (R138) -/

/-- R138: the coordinates of the configured stations within a gantry's reach. -/
def State.reachCoordinates (s : State) (g : GantryId) : List Nat :=
  (s.reachStations (s.gantry g).reachLow (s.gantry g).reachHigh).map (fun st => (s.station st).coordinate)

/-- R138: the yield target of the gantry `o` for the other's candidate span. -/
def State.yieldTarget (s : State) (o : GantryId) (lo hi : Nat) : Option Nat :=
  match o with
  | .b => ((s.reachCoordinates .b).filter (fun x => decide (hi + s.guardGap ≤ x))).min?
  | .a => ((s.reachCoordinates .a).filter (fun x => decide (x + s.guardGap ≤ lo))).max?

/-- R138: a failed zone test makes a YIELD move for the other gantry when it is READY and owns none, the move passes
protection, and a target exists. -/
def State.makeYield (s : State) (g : GantryId) (m : Move) (d : SlotRef) : State :=
  let o := g.other
  if (s.gantry o).link = .ready ∧ (s.ownYield? o).isNone ∧ s.protectionPasses g m d = true then
    match s.yieldTarget o (s.spanLowFor g m d) (s.spanHighFor g m d) with
    | some x =>
      let y := { Move.fresh .yielding (.point (s.gantry o).point) (some (.point x)) with
                   ready := s.lineTime, gantry := some o, blocked := some m.id }
      (s.addMove y).postWork o { y with id := s.freshId }
    | none => s
  else s

/-! ### The grant (R123) -/

/-- R123, Move, and R148: the granted move with its estimate and limit. -/
def Move.granted (m : Move) (g : GantryId) (dest : Place) (now : LineTime) (estimate margin : Nat) : Move :=
  { m with dest := some dest, state := .granted, gantry := some g, grantTime := some now, estimate := some estimate,
           limit := some (plus (plus now estimate) margin) }

/-- R123, Hanger: IN-TRANSIT and GRANTED, unless RESCUED; the forward slot of a STRICT destination is named. -/
def Hanger.granted (h : Hanger) (f : Option SlotRef) : Hanger :=
  let h' := if h.state = .loaded ∨ h.state = .immersed then { h with state := .inTransit, phase := some .granted } else h
  match f with
  | some f => { h' with forward := some f }
  | none => h'

/-- R123, Start order and binding: the hanger of an ENTRY move leaves the start order, and an unbound one binds. -/
def State.bindEntry (s : State) (h : Hanger) : State :=
  let t := s.leaveOrder h.tag
  if h.bound then t
  else (t.modHanger h.tag (fun h => { h with bound := true })).modRecipe h.recipe
    (fun e => { e with useCount := e.useCount + 1 })

/-- R123, Gantry: BUSY with the move and its span. -/
def State.engage (s : State) (g : GantryId) (id lo hi : Nat) : State :=
  (((s.modGantry g (fun r => { r with granted := some id, spanLow := lo, spanHigh := hi })).setLink g .busy).removeYieldFor
    id).removeOwnYield g

/-- R123: the grant of a hanger move. -/
def State.grant (s : State) (g : GantryId) (m : Move) (d : SlotRef) (f : Option SlotRef) : State :=
  match m.tag.bind s.hanger? with
  | some h =>
    s.together (s.reserveRoute h.tag d f) (fun t =>
      let u := (t.modMove m.id (fun m =>
        m.granted g (.slot d) s.lineTime (s.estimateFor g m d) (s.gantry g).margin)).modHanger h.tag (fun h => h.granted f)
      (if m.kind = .entry then u.bindEntry h else u).engage g m.id (s.spanLowFor g m d) (s.spanHighFor g m d))
  | none => s

/-- R139: the grant of a YIELD move with target `x`. -/
def State.grantYield (s : State) (g : GantryId) (m : Move) (x : Nat) : State :=
  let r := s.gantry g
  (s.modMove m.id (fun m => m.granted g (.point x) s.lineTime (r.yieldEstimate x) r.margin)).engage g m.id (min r.point x)
    (max r.point x)

/-- R192: the 27 bytes of a grant, of the move as it stands after it. -/
def grantPayload (s : State) (id : Nat) : List Byte :=
  match s.move? id with
  | some m =>
    bytes1 m.id ++ bytes1 m.kind.code ++ tagByte m.tag ++ s.placeBytes m.source ++ s.destBytes m.dest ++ bytes2 m.drip
      ++ presentTime m.due ++ presentTime m.deadline ++ timeBytes (m.limit.getD 0)
  | none => []

/-! ### The walk (R113) -/

/-- What the tests make of one move at a claim. -/
inductive Trial where
  /-- Every test passes: the destination, and the forward slot of a STRICT one. -/
  | passed (dest : SlotRef) (forward : Option SlotRef)
  /-- The zone test fails, with the destination the destination test fixed. -/
  | zoned (dest : SlotRef)
  /-- Another test of R124 fails. -/
  | fails (test : HoldTest)
  /-- R115: out of the gantry's reach, which R124 does not count. -/
  | unreached
  deriving DecidableEq, Repr

/-- R113: the tests of one READY move in their order. -/
def State.trial (s : State) (g : GantryId) (m : Move) : Trial :=
  if !s.modeAllows m then .fails .mode
  else if !s.gatePasses m then .fails .gate
  else if !s.reachPasses g m then .unreached
  else match s.routeFor g m with
    | none => .fails .destination
    | some (d, f) =>
      if !s.spanTest g (s.spanLowFor g m d) (s.spanHighFor g m d) then .zoned d
      else if !s.protectionPasses g m d then .fails .protection
      else .passed d f

/-- R124: a failed move joins the held moves when the gantry can serve it. -/
def noteHeld (s : State) (g : GantryId) (m : Move) (t : HoldTest) (held : List (Nat × HoldTest)) : List (Nat × HoldTest) :=
  if s.canServe g m then held ++ [(m.id, t)] else held

/-- What a walk ends with: the state, the move granted with its route, and the moves held. -/
structure WalkEnd where
  state : State
  found : Option (Move × SlotRef × Option SlotRef)
  held : List (Nat × HoldTest)

/-- R113: the walk over the offered moves; it stops at the first that passes every test. -/
def State.walk (g : GantryId) : List Move → State → List (Nat × HoldTest) → WalkEnd
  | [], s, held => { state := s, found := none, held := held }
  | m :: ms, s, held =>
    match s.trial g m with
    | .passed d f => { state := s, found := some (m, d, f), held := held }
    | .zoned d => State.walk g ms (s.makeYield g m d) (noteHeld s g m .zone held)
    | .fails t => State.walk g ms s (noteHeld s g m t held)
    | .unreached => State.walk g ms s held

/-- R109, R113: the moves a claim offers in urgency order: READY and not granted. -/
def State.offered (s : State) : List Move := s.urgencyOrder.filter (fun m => m.state == .ready)

/-- R113, step 1: the test the gantry's own YIELD move fails, or none when it passes the mode and the zone. -/
def State.yieldFails (s : State) (g : GantryId) (m : Move) (x : Nat) : Option HoldTest :=
  let p := (s.gantry g).point
  if !s.modeAllows m then some .mode else if !s.spanTest g (min p x) (max p x) then some .zone else none

/-- R124: the earliest ready time, by R61, among the WAITING moves the gantry can serve. -/
def State.nextReady (s : State) (g : GantryId) : Option LineTime :=
  (s.moves.filter (fun m => m.state == .waiting && s.canServe g m)).foldl (fun best m =>
    match best with
    | none => some m.ready
    | some t => if earlier m.ready t then some m.ready else some t) none

/-- R124, R192: the 9 bytes of a NONE reply. -/
def nonePayload (next : Option LineTime) (held : List (Nat × HoldTest)) : List Byte :=
  presentTime next ++ bytes1 held.length ++ present1 (held.head?.map Prod.fst)
    ++ indexByte (held.head?.map (fun p => p.2.code))

/-- R113, steps 2 and 3: the walk, its grant or its NONE. `last` is the gantry's own YIELD move when it failed, which stands
last in the walk order (log 13). -/
def State.claimWalk (s : State) (g : GantryId) (last : List (Nat × HoldTest)) : State × Reply :=
  let w := State.walk g s.offered s []
  match w.found with
  | some (m, d, f) =>
    let t := w.state.grant g m d f
    (t, { status := .ok, payload := grantPayload t m.id })
  | none => (w.state, { status := .none, payload := nonePayload (s.nextReady g) (w.held ++ last) })

/-- R113: CLAIM. -/
def claim (g : GantryId) (s : State) : State × Reply :=
  if (s.gantry g).link ≠ .ready then s.answer .notNow
  else match s.ownYield? g with
    | some y => match y.dest with
      | some (.point x) => match s.yieldFails g y x with
        | none => (s.grantYield g y x, { status := .ok, payload := grantPayload (s.grantYield g y x) y.id })
        | some t => s.claimWalk g [(y.id, t)]
      | _ => s.claimWalk g []
    | none => s.claimWalk g []

def execClaim (gantry : GantryId) (s : State) : Host.Outcome State Fault Refusal := s.request (.claim gantry) (claim gantry)

end Sys2Proof.Machine
end

