-- ==== Sys2Proof/Machine/Recipes.lean ====
section
/-! DEFINITION. The recipe table (chapter 2): the draft, validation, the write and its staging, re-validation at RUN, and the
reads. -/

namespace Sys2Proof.Machine

/-! ### Validation (R24) -/

/-- R3: the class of a group; none when the group is empty. -/
def State.groupClass (s : State) (g : Nat) : Option StationClass :=
  ((List.range Config.stations).find? (fun st => (s.station st).configured && (s.station st).group == g)).map
    (fun st => (s.station st).cls)

/-- R24, line check: a configured UNLOAD station exists. -/
def State.hasUnload (s : State) : Bool :=
  (List.range Config.stations).any (fun st => (s.station st).configured && (s.station st).cls == .unload)

/-- R19: a field of a step lies in a range. -/
def within (lo hi x : Nat) : Bool := decide (lo ≤ x) && decide (x ≤ hi)

/-- R19, R24, check 4: every field the class uses is inside its range. -/
def RecipeStep.inRange (k : RecipeStep) : Bool :=
  match k.cls with
  | .strict => within 1 36000 k.timeA && within 0 600 k.timeB && within 0 600 k.timeC && within 0 300 k.drip
      && within 0 6000 k.unagitated
  | .bounded => within 1 36000 k.timeA && (k.timeB == 0 || within k.timeA 65535 k.timeB) && within 0 300 k.drip
  | _ => within 1 36000 k.timeA && within 0 300 k.drip

/-- R24, checks 1 to 5 of one step, in their order. `prev` is the group of the step before, `again` says that the check is a
re-validation. -/
def State.stepFault (s : State) (again : Bool) (prev : Option Nat) (k : RecipeStep) : Option RecipeReason :=
  match s.groupClass k.group with
  | none => some .emptyGroup
  | some c =>
    if c = .load ∨ c = .unload then some .notAStep
    else if again = true ∧ k.cls ≠ c then some .classChanged
    else if !k.inRange then some .range
    else if k.cls = .strict ∧ prev = some k.group then some .strictRepeat
    else none

/-- R24: the steps are checked from step `i` upward. -/
def State.stepsFault (s : State) (again : Bool) : Nat → Option Nat → List RecipeStep → Option (Nat × RecipeReason)
  | _, _, [] => none
  | i, prev, k :: ks =>
    match s.stepFault again prev k with
    | some r => some (i, r)
    | none => State.stepsFault s again (i + 1) (some k.group) ks

/-- R24: the step checks, then the line check, which is reported with step index 0. -/
def State.versionFault (s : State) (again : Bool) (v : List RecipeStep) : Option (Nat × RecipeReason) :=
  match s.stepsFault again 0 none v with
  | some f => some f
  | none => if s.hasUnload then none else some (0, .noUnload)

/-- R19, R24: a carried step with the class of its group; fields the class does not use are stored as 0. -/
def State.stepOf (s : State) (r : RawStep) : RecipeStep :=
  match (s.groupClass r.group).getD .load with
  | .strict => { group := r.group, cls := .strict, timeA := r.timeA, timeB := r.timeB, timeC := r.timeC, drip := r.drip,
                 unagitated := r.unagitated }
  | .bounded => { group := r.group, cls := .bounded, timeA := r.timeA, timeB := r.timeB, timeC := 0, drip := r.drip,
                  unagitated := 0 }
  | c => { group := r.group, cls := c, timeA := r.timeA, timeB := 0, timeC := 0, drip := r.drip, unagitated := 0 }

/-! ### The draft (R21, R22) -/

/-- R21: DRAFT-RECIPE. -/
def draftRecipe (r n : Nat) (s : State) : State × Reply :=
  if 15 < r ∨ n < 1 ∨ 12 < n then s.answer .badArg
  else { s with draft := some { recipe := r, steps := List.replicate n none } }.answer .ok

def execDraftRecipe (recipe stepCount : Nat) (s : State) : Host.Outcome State Fault Refusal :=
  s.request (.draftRecipe recipe stepCount) (draftRecipe recipe stepCount)

/-- R22: the carried steps replace what the draft held from a position on. -/
def storeSteps (old : List (Option RawStep)) (first : Nat) (steps : List RawStep) : List (Option RawStep) :=
  old.take first ++ steps.map some ++ old.drop (first + steps.length)

/-- R22: DRAFT-STEPS, its tests in their order. -/
def draftSteps (r first : Nat) (steps : List RawStep) (s : State) : State × Reply :=
  match s.draft with
  | some d =>
    if d.recipe ≠ r then s.answer .notNow
    else if d.steps.length < first + steps.length then s.answer .badArg
    else if steps.any (fun k => decide (15 < k.group)) then s.answer .badArg
    else { s with draft := some { d with steps := storeSteps d.steps first steps } }.answer .ok
  | none => s.answer .notNow

def execDraftSteps (recipe first : Nat) (steps : List RawStep) (s : State) : Host.Outcome State Fault Refusal :=
  s.request (.draftSteps recipe first steps) (draftSteps recipe first steps)

/-! ### WRITE-RECIPE (R23, R25) -/

/-- R23: a BAD-RECIPE refusal: the entry's last fault is stored, and the reply carries the step index and the reason. -/
def State.badRecipe (s : State) (r : Nat) (f : Nat × RecipeReason) : State × Reply :=
  (s.modRecipe r (fun e => { e with lastFault := some f }),
    { status := .badRecipe, payload := bytes1 f.1 ++ bytes1 f.2.code })

/-- R25: a version that passes becomes active at use count 0, and is staged above it. -/
def State.storeVersion (s : State) (r : Nat) (v : List RecipeStep) : State × Reply :=
  let t : State := { s with draft := none }
  if (s.recipe r).useCount = 0 then
    (t.modRecipe r (fun e => { e with active := v, valid := true, lastFault := none })).answer .ok
  else (t.modRecipe r (fun e => { e with staged := some v })).answer .staged

/-- R23: WRITE-RECIPE, its tests in their order. -/
def writeRecipe (r : Nat) (s : State) : State × Reply :=
  if 15 < r then s.answer .badArg
  else match s.draft with
    | some d =>
      if d.recipe ≠ r then s.answer .notNow
      else match d.steps.findIdx? Option.isNone with
        | some i => s.badRecipe r (i, .incomplete)
        | none =>
          let v := (d.steps.filterMap id).map s.stepOf
          match s.versionFault false v with
          | some f => s.badRecipe r f
          | none => s.storeVersion r v
    | none => s.answer .notNow

def execWriteRecipe (recipe : Nat) (s : State) : Host.Outcome State Fault Refusal :=
  s.request (.writeRecipe recipe) (writeRecipe recipe)

/-! ### Re-validation at RUN (R26) -/

/-- R26: the fault a re-validation finds in a recipe. -/
def State.revalidationFault (s : State) (e : Recipe) : Option (Nat × RecipeReason) :=
  if e.active.isEmpty then some (0, .empty) else s.versionFault true e.active

/-- R26: a recipe with the mark and the last fault its re-validation leaves. -/
def State.revalidated (s : State) (e : Recipe) : Recipe :=
  { e with valid := (s.revalidationFault e).isNone, lastFault := s.revalidationFault e }

/-- R26: every recipe is re-validated. -/
def State.revalidateAll (s : State) : State := { s with recipes := s.recipes.map s.revalidated }

/-- R26, R184: the set of recipes marked INVALID, bit n for recipe n. -/
def State.invalidSet (s : State) : Nat :=
  ((List.range Config.recipes).map (fun r => if (s.recipe r).valid then 0 else 2 ^ r)).sum

/-! ### DISCARD-STAGED and READ-RECIPE (R30, R31) -/

/-- R30: DISCARD-STAGED. -/
def discardStaged (r : Nat) (s : State) : State × Reply :=
  if 15 < r then s.answer .badArg
  else if (s.recipe r).staged.isNone then s.answer .notNow
  else (s.modRecipe r (fun e => { e with staged := none })).answer .ok

def execDiscardStaged (recipe : Nat) (s : State) : Host.Outcome State Fault Refusal :=
  s.request (.discardStaged recipe) (discardStaged recipe)

/-- R192: one step of READ-RECIPE. -/
def RecipeStep.bytes (k : RecipeStep) : List Byte :=
  bytes1 k.group ++ bytes1 k.cls.code ++ bytes2 k.timeA ++ bytes2 k.timeB ++ bytes2 k.timeC ++ bytes2 k.drip
    ++ bytes2 k.unagitated

/-- R31, R192: the READ-RECIPE payload. -/
def recipePayload (e : Recipe) (v : List RecipeStep) (first : Nat) : List Byte :=
  bytes1 (if e.valid then 0 else 1) ++ indexByte (e.lastFault.map Prod.fst)
    ++ indexByte (e.lastFault.map (fun f => f.2.code)) ++ bytes1 e.useCount ++ flagByte e.staged.isSome ++ bytes1 v.length
    ++ bytes1 first ++ ((v.drop first).take 4).flatMap RecipeStep.bytes

/-- R31: READ-RECIPE; version 0 is ACTIVE and 1 is STAGED (R192). -/
def readRecipe (r version first : Nat) (s : State) : State × Reply :=
  if 15 < r ∨ 1 < version ∨ 11 < first then s.answer .badArg
  else
    let e := s.recipe r
    let v := if version = 0 then e.active else e.staged.getD []
    (s, { status := .ok, payload := recipePayload e v first })

def execReadRecipe (recipe version first : Nat) (s : State) : Host.Outcome State Fault Refusal :=
  s.request (.readRecipe recipe version first) (readRecipe recipe version first)

end Sys2Proof.Machine
end

