-- ==== Sys2Proof/Machine/Stations.lean ====
section
/-! DEFINITION. The station map's requests (chapter 1): SET-STATION, CLEAR-STATION, BLOCK, UNBLOCK and READ-STATION. -/

namespace Sys2Proof.Machine

/-! ### SET-STATION (R7 to R10) -/

/-- The written fields of SET-STATION, once every one is in its range (R8). -/
structure StationWrite where
  cls : StationClass
  group : Nat
  coordinate : Nat
  slotCount : Nat
  supervised : Bool
  rescueLine : Option Nat
  deriving DecidableEq, Repr

/-- R8: the written fields, none when one is outside its range. -/
def stationWrite (cls grp x n sv rl : Nat) : Option StationWrite :=
  match stationClassOf cls, yesNoOf sv, indexOrNone 4 rl with
  | some c, some b, some l =>
    if grp ≤ 15 ∧ x ≤ 4095 ∧ 1 ≤ n ∧ n ≤ 4 then
      some { cls := c, group := grp, coordinate := x, slotCount := n, supervised := b, rescueLine := l }
    else none
  | _, _, _ => none

/-- R9: the configured stations other than the one being written. -/
def State.otherStations (s : State) (st : Nat) : List Nat :=
  (List.range Config.stations).filter (fun o => (s.station o).configured && o != st)

/-- R9, check 1: rail order against the nearest configured stations below and above. -/
def State.railOrder (s : State) (st x : Nat) : Bool :=
  (match ((s.otherStations st).filter (fun o => decide (o < st))).getLast? with
    | some o => decide ((s.station o).coordinate < x)
    | none => true)
  && (match ((s.otherStations st).filter (fun o => decide (st < o))).head? with
    | some o => decide (x < (s.station o).coordinate)
    | none => true)

/-- R9, check 2: the class of the group the station joins. -/
def State.groupAgrees (s : State) (st : Nat) (w : StationWrite) : Bool :=
  (s.otherStations st).all (fun o => (s.station o).group != w.group || (s.station o).cls == w.cls)

/-- R9, check 3: supervision by class. -/
def StationWrite.supervisionAgrees (w : StationWrite) : Bool :=
  match w.cls with
  | .strict => w.supervised
  | .load => !w.supervised
  | .unload => !w.supervised
  | _ => true

/-- R9, check 4: a rescue line serves one STRICT station. -/
def State.lineAgrees (s : State) (st : Nat) (w : StationWrite) : Bool :=
  match w.rescueLine with
  | some l => w.cls == .strict && (s.otherStations st).all (fun o => (s.station o).rescueLine != some l)
  | none => true

/-- R9: the structural checks. -/
def State.writeConsistent (s : State) (st : Nat) (w : StationWrite) : Bool :=
  s.railOrder st w.coordinate && s.groupAgrees st w && w.supervisionAgrees && s.lineAgrees st w

/-- R2, R8: the approach allowance as stored. -/
def StationWrite.storedAllowance (w : StationWrite) (a : Nat) : Nat :=
  if w.cls = .load ∨ w.cls = .unload then 0 else min a 600

/-- R10, Slots: places at or above the slot count become FREE. -/
def Station.trimSlots (stn : Station) (n : Nat) : Vector Slot 4 :=
  Vector.ofFn (fun i : Fin 4 => if i.val < n then stn.slot i.val else .free)

/-- R10: the record after a write. -/
def Station.written (stn : Station) (w : StationWrite) (a : Nat) : Station :=
  { configured := true, cls := w.cls, group := w.group, coordinate := w.coordinate, slotCount := w.slotCount,
    allowance := w.storedAllowance a, supervised := w.supervised, rescueLine := w.rescueLine, gasChannel := stn.gasChannel,
    slots := stn.trimSlots w.slotCount }

/-- R10: a write that passes its tests, with its effect on the bath record. -/
def State.writeStation (s : State) (st : Nat) (w : StationWrite) (a : Nat) : State :=
  let t := s.modStation st (fun stn => stn.written w a)
  match (s.bath? st).isSome, w.supervised with
  | false, true => t.activateBath st
  | true, false => t.deactivateBath st
  | _, _ => t

/-- R7, test 2, and R11, test 2: line mode IDLE and no live hanger record. -/
def State.mapWritable (s : State) : Bool := s.mode == .idle && s.hangers.isEmpty

/-- R7, test 3: the present rescue line is not asserted, or the request names the same line. -/
def State.lineFree (s : State) (st rl : Nat) : Bool :=
  match (s.station st).rescueLine with
  | some l => !(s.line l).asserted || l == rl
  | none => true

/-- R7: SET-STATION, its tests in their order. -/
def setStation (st cls grp x n a sv rl : Nat) (s : State) : State × Reply :=
  if 23 < st then s.answer .badArg
  else if !s.mapWritable then s.answer .notNow
  else if !s.lineFree st rl then s.answer .notNow
  else match stationWrite cls grp x n sv rl with
    | none => s.answer .badArg
    | some w =>
      if !s.writeConsistent st w then s.answer .badArg
      else (s.writeStation st w a).answer
        (if w.cls = .load ∨ w.cls = .unload ∨ a ≤ 600 then .ok else .clamped)

def execSetStation (station cls group coordinate slotCount allowance supervised rescueLine : Nat) (s : State) :
    Host.Outcome State Fault Refusal :=
  s.request (.setStation station cls group coordinate slotCount allowance supervised rescueLine)
    (setStation station cls group coordinate slotCount allowance supervised rescueLine)

/-! ### CLEAR-STATION (R11) -/

/-- R11: the station becomes absent and its bath record inactive. -/
def State.eraseStation (s : State) (st : Nat) : State :=
  (s.deactivateBath st).modStation st (fun _ => Station.absent)

/-- R11: CLEAR-STATION, its tests in their order. -/
def clearStation (st : Nat) (s : State) : State × Reply :=
  if 23 < st then s.answer .badArg
  else if !s.mapWritable then s.answer .notNow
  else if s.barRaised st then s.answer .notNow
  else if (s.station st).gasChannel.isSome then s.answer .inUse
  else (s.eraseStation st).answer .ok

def execClearStation (station : Nat) (s : State) : Host.Outcome State Fault Refusal :=
  s.request (.clearStation station) (clearStation station)

/-! ### BLOCK and UNBLOCK (R12, R13) -/

/-- R12: BLOCK. -/
def block (st sl : Nat) (s : State) : State × Reply :=
  if !slotInRange st sl then s.answer .badArg
  else if !(s.station st).hasSlot sl then s.answer .noSuch
  else match (s.station st).slot sl with
    | .free => (s.setSlot { station := st, slot := sl } .blocked).answer .ok
    | .blocked => s.answer .ok
    | .occupied _ => s.answer .inUse
    | .reserved _ _ => s.answer .inUse

def execBlock (station slot : Nat) (s : State) : Host.Outcome State Fault Refusal :=
  s.request (.block station slot) (block station slot)

/-- R13: UNBLOCK. -/
def unblock (st sl : Nat) (s : State) : State × Reply :=
  if !slotInRange st sl then s.answer .badArg
  else if !(s.station st).hasSlot sl then s.answer .noSuch
  else match (s.station st).slot sl with
    | .blocked => (s.setSlot { station := st, slot := sl } .free).answer .ok
    | .free => s.answer .ok
    | .occupied _ => s.answer .notNow
    | .reserved _ _ => s.answer .notNow

def execUnblock (station slot : Nat) (s : State) : Host.Outcome State Fault Refusal :=
  s.request (.unblock station slot) (unblock station slot)

/-! ### READ-STATION (R14, R192) -/

/-- R192: one slot of READ-STATION: state, tag, reservation kind. -/
def Slot.bytes : Slot → List Byte
  | .free => bytes1 0 ++ tagByte none ++ indexByte none
  | .occupied t => bytes1 1 ++ tagByte (some t) ++ indexByte none
  | .reserved t k => bytes1 2 ++ tagByte (some t) ++ bytes1 k.code
  | .blocked => bytes1 3 ++ tagByte none ++ indexByte none

/-- R14: the slot entries: none for an absent station. -/
def Station.slotEntries (stn : Station) : List Byte :=
  if stn.configured then (List.range stn.slotCount).flatMap (fun i => (stn.slot i).bytes) else []

/-- R14, R192: the READ-STATION payload. -/
def stationPayload (s : State) (st : Nat) : List Byte :=
  let stn := s.station st
  flagByte stn.configured ++ bytes1 stn.cls.code ++ bytes1 stn.group ++ bytes2 stn.coordinate ++ bytes1 stn.slotCount
    ++ bytes2 stn.allowance ++ flagByte stn.supervised ++ indexByte stn.rescueLine ++ indexByte stn.gasChannel
    ++ flagByte (s.acceptsLowering st) ++ stn.slotEntries

/-- R14: READ-STATION. -/
def readStation (st : Nat) (s : State) : State × Reply :=
  if 23 < st then s.answer .badArg else (s, { status := .ok, payload := stationPayload s st })

def execReadStation (station : Nat) (s : State) : Host.Outcome State Fault Refusal :=
  s.request (.readStation station) (readStation station)

end Sys2Proof.Machine
end

