-- ==== Sys2Proof/Machine/Lines.lean ====
section
/-! DEFINITION. Line modes (sections 9.1, 9.2 and 9.5): RUN, DRAIN, HOLD, STOP, HOLD-AT, CLEAR-LINE and READ-LINE. -/

namespace Sys2Proof.Machine

/-! ### The mode (R165, R166) -/

/-- R165: the mode changes, with its LINE-MODE notice; `cause` is 0 for REQUEST and 1 for HOLD-AT. -/
def State.setMode (s : State) (m : LineMode) (cause : Nat) : State :=
  if s.mode = m then s else { s with mode := m }.notify .lineMode none none none m.code cause

/-- R166: RUN: the re-validation of R26, then the mode. -/
def runLine (s : State) : State × Reply :=
  if s.mode = .run then s.answer .notNow
  else
    let t := s.revalidateAll
    (t.setMode .run 0, { status := .ok, payload := bytes2 t.invalidSet })

def execRun (s : State) : Host.Outcome State Fault Refusal := s.request .run runLine

/-- R166: DRAIN. -/
def drainLine (s : State) : State × Reply :=
  if s.mode = .run then (s.setMode .drain 0).answer .ok else s.answer .notNow

def execDrain (s : State) : Host.Outcome State Fault Refusal := s.request .drain drainLine

/-- R166: HOLD. -/
def holdLine (s : State) : State × Reply :=
  if s.mode = .run then (s.setMode .hold 0).answer .ok else s.answer .notNow

def execHold (s : State) : Host.Outcome State Fault Refusal := s.request .hold holdLine

/-- R166: STOP, refused while either gantry is BUSY. -/
def stopLine (s : State) : State × Reply :=
  if s.gantryA.link = .busy ∨ s.gantryB.link = .busy then s.answer .notNow else (s.setMode .idle 0).answer .ok

def execStop (s : State) : Host.Outcome State Fault Refusal := s.request .stop stopLine

/-! ### HOLD-AT (R167) -/

/-- R167: HOLD-AT. -/
def holdAt (t : LineTime) (s : State) : State × Reply :=
  if t = 0 then { s with holdAt := none }.answer .ok
  else if reached s.lineTime t then s.answer .badArg
  else { s with holdAt := some t }.answer .ok

def execHoldAt (time : LineTime) (s : State) : Host.Outcome State Fault Refusal := s.request (.holdAt time) (holdAt time)

/-- R167: the line time has reached the set point. -/
def State.holdAtDue (s : State) : State :=
  match s.holdAt with
  | some t =>
    if reached s.lineTime t then
      let u : State := { s with holdAt := none }
      if s.mode = .run then u.setMode .hold 1 else u
    else s
  | none => s

/-- R167: HOLD-AT-REACHED. -/
def execHoldAtReached (s : State) : Host.Outcome State Fault Refusal := .next s.holdAtDue

/-! ### CLEAR-LINE (R168) -/

/-- R16: the slots of a station after CLEAR-LINE. -/
def Station.cleared (stn : Station) : Station :=
  { stn with slots := stn.slots.map (fun x => match x with
      | .occupied _ => .free
      | .reserved _ _ => .free
      | x => x) }

/-- R16, R155: the slots of one station are cleared, and its channel is told when it empties. -/
def State.clearSlots (s : State) (st : Nat) : State :=
  (s.modStation st Station.cleared).reportOccupancy st (s.station st).occupiedCount

/-- R32: a recipe's use count becomes 0, and its staged version, if any, becomes active. -/
def State.clearRecipe (s : State) (r : Nat) : State := (s.modRecipe r (fun e => { e with useCount := 0 })).swapRecipe r

/-- R168: every change of CLEAR-LINE. Where several recipes swap, their RECIPE-SWAPPED notices stand in the order of the recipe
indices (log 29, DESIGN CHOICE). -/
def State.clearAll (s : State) : State :=
  let s1 : State := { s with hangers := [], startOrder := [], moves := [],
                             gantryA := { s.gantryA with hold := none }, gantryB := { s.gantryB with hold := none } }
  let s2 := (List.range Config.stations).foldl State.clearSlots s1
  (List.range Config.recipes).foldl State.clearRecipe s2

/-- R168: CLEAR-LINE. -/
def clearLine (s : State) : State × Reply := if s.mode = .idle then s.clearAll.answer .ok else s.answer .notNow

def execClearLine (s : State) : Host.Outcome State Fault Refusal := s.request .clearLine clearLine

/-! ### READ-LINE (R177, R192) -/

/-- R177: one rescue line of READ-LINE: asserted, station, assertion time, cause tag, and the RESCUED hangers resting in an
asserted line's station. -/
def State.lineBytes (s : State) (l : Nat) : List Byte :=
  flagByte (s.line l).asserted ++ indexByte (s.lineStation l) ++ presentTime (s.line l).assertTime
    ++ tagByte (s.line l).causeTag
    ++ bytes1 (match (s.line l).asserted, s.lineStation l with | true, some st => s.rescuedIn st | _, _ => 0)

/-- R177, R192: the 48 bytes of READ-LINE. -/
def linePayload (s : State) : List Byte :=
  timeBytes s.lineTime ++ bytes1 s.mode.code ++ presentTime s.holdAt ++ bytes2 s.grace
    ++ (List.range Config.rescueLines).flatMap s.lineBytes

/-- R177: READ-LINE. -/
def readLine (s : State) : State × Reply := (s, { status := .ok, payload := linePayload s })

def execReadLine (s : State) : Host.Outcome State Fault Refusal := s.request .readLine readLine

end Sys2Proof.Machine
end

