-- ==== Sys2Proof/Machine/Ports.lean ====
section
/-! DEFINITION. The ports (chapter 10): notices and masks, the ALARM delay, IDENT, the completion of a reply, read sessions
and ignored sessions. -/

namespace Sys2Proof.Machine

/-! ### GET-NOTICE and SET-MASK (R188, R189) -/

/-- R188, R192: the GET-NOTICE payload: notices left, the OVERFLOW flag as it stood, the record. -/
def noticePayload (left : Nat) (overflow : Bool) (n : Option Notice) : List Byte :=
  bytes1 left ++ flagByte overflow ++ (match n with | some n => n.bytes | none => [])

/-- R188: GET-NOTICE. The removal of a non-maskable notice from the supervisor queue tests ALARM (R190). -/
def getNotice (p : PortId) (s : State) : State × Reply :=
  match (s.port p).queue with
  | [] =>
    (s.modPort p (fun q => { q with overflow := false }),
      { status := .none, payload := noticePayload 0 (s.port p).overflow none })
  | n :: rest =>
    let t := s.modPort p (fun q => { q with queue := rest, overflow := false })
    (if p = .p0 ∧ n.kind.maskable = false then t.testAlarm else t,
      { status := .ok, payload := noticePayload rest.length (s.port p).overflow (some n) })

def execGetNotice (port : PortId) (s : State) : Host.Outcome State Fault Refusal :=
  s.request (.getNotice port) (getNotice port)

/-- R189: the bits that name a kind of the port. -/
def kindBits : PortId → BitVec 16
  | .p0 => 0x1FFF#16
  | _ => 0x0003#16

/-- R189: the mask as stored: bits 7 and 8, RESCUE and STRANDED, are not stored on port 0. -/
def storedMask (p : PortId) (m : BitVec 16) : BitVec 16 :=
  match p with
  | .p0 => m &&& 0xFE7F#16
  | _ => m

/-- R189: SET-MASK. -/
def setMask (p : PortId) (m : BitVec 16) (s : State) : State × Reply :=
  if m &&& ~~~(kindBits p) ≠ 0 then s.answer .badArg
  else (s.modPort p (fun q => { q with mask := storedMask p m }),
    { status := if storedMask p m = m then .ok else .clamped, payload := bytes2 (storedMask p m).toNat })

def execSetMask (port : PortId) (mask : BitVec 16) (s : State) : Host.Outcome State Fault Refusal :=
  s.request (.setMask port mask) (setMask port mask)

/-! ### ALARM (R190) and IDENT (R191) -/

/-- R190: SET-ALARM. -/
def setAlarm (d : Nat) (s : State) : State × Reply :=
  ({ s with alarmDelay := min d 6000 } : State).testAlarm.answer (if d ≤ 6000 then .ok else .clamped)

def execSetAlarm (delay : Nat) (s : State) : Host.Outcome State Fault Refusal := s.request (.setAlarm delay) (setAlarm delay)

/-- R190: ALARM-ASSERT: the output is asserted when a non-maskable supervisor notice is older than the alarm delay. -/
def execAlarmAssert (s : State) : Host.Outcome State Fault Refusal :=
  .next (if s.alarmDue then { s with alarm := true } else s)

/-- R191: IDENT. -/
def ident (p : PortId) (s : State) : State × Reply :=
  (s, { status := .ok, payload := bytes2 340 ++ bytes1 1 ++ bytes1 (portCode p) })

def execIdent (port : PortId) (s : State) : Host.Outcome State Fault Refusal := s.request (.ident port) (ident port)

/-! ### Sessions (R178, R179, R181, R182) -/

/-- R179, R181: the reply frame enters the holder, carrying and clearing BUSY-REFUSED. -/
def Port.complete (q : Port) : Port :=
  match q.holder with
  | .working r => { q with holder := .held (r.frame q.busyRefused), busyRefused := false }
  | _ => q

/-- R181: REPLY-READY. In a port that is not WORKING no reply is being formed, and nothing changes (log 5). -/
def execReplyReady (port : PortId) (s : State) : Host.Outcome State Fault Refusal := .next (s.modPort port Port.complete)

/-- R179, R182: a read session of `n` whole bytes. It goes by the holder at its end: a reply that entered the holder between its
bytes is shifted out from its first byte and counts as clocked (log 37, DESIGN CHOICE). -/
def Port.read (q : Port) (n : Nat) : Port :=
  match q.holder with
  | .held _ => { q with holder := if 1 ≤ n then .empty else q.holder, shifted := shiftOut q.holder n }
  | _ => { q with shifted := shiftOut q.holder n }

/-- R182: READ-SESSION. -/
def execReadSession (port : PortId) (clocked : Nat) (s : State) : Host.Outcome State Fault Refusal :=
  .next (s.modPort port (fun q => q.read clocked))

/-- R179: a request session that ends in WORKING is ignored and sets BUSY-REFUSED. -/
def Port.refuse (q : Port) (n : Nat) : Port :=
  if q.working then { q with busyRefused := true, shifted := shiftOut q.holder n } else q

/-- R179: BUSY-REFUSED. In a port that is not WORKING a request session is taken as its own row says, and this command
changes nothing (log 5). -/
def execBusyRefused (port : PortId) (clocked : Nat) (s : State) : Host.Outcome State Fault Refusal :=
  .next (s.modPort port (fun q => q.refuse clocked))

end Sys2Proof.Machine
end

