-- ==== Sys2Proof/Machine/Sessions.lean ====
section
/-! DEFINITION. A raw session (R178 to R180): what its bytes are, and the handing of a request that passes the port's checks
to the rule of its owning block. -/

namespace Sys2Proof.Machine

/-- R180: a request that passes the port's checks is taken by its block's rule. A command that is no request never reaches
this point, since `decodeRequest` answers request frames alone. -/
def handRequest (i : Instr) : State → State × Reply :=
  match i with
  | .setStation st c g x n a sv rl => setStation st c g x n a sv rl
  | .clearStation st => clearStation st
  | .block st sl => block st sl
  | .unblock st sl => unblock st sl
  | .readStation st => readStation st
  | .draftRecipe r n => draftRecipe r n
  | .draftSteps r f steps => draftSteps r f steps
  | .writeRecipe r => writeRecipe r
  | .discardStaged r => discardStaged r
  | .readRecipe r v f => readRecipe r v f
  | .admitHanger t r sc ar st sl => admitRule t r sc ar st sl
  | .abortHanger t => abortHanger t
  | .resumeHanger t => resumeHanger t
  | .restartHanger t => restartHanger t
  | .recover t st sl => recover t st sl
  | .unloaded st sl => unloaded st sl
  | .readHanger t => readHanger t
  | .readRun t f => readRun t f
  | .readTiming t => readTiming t
  | .setBath st b => setBathRequest st b
  | .bathReport st z => bathReport st z
  | .bathTrip st => bathTrip st
  | .bathClear st => bathClear st
  | .replenished st => replenished st
  | .readBath st => readBath st
  | .readMoves f => readMoves f
  | .setGantry g lo hi h p m => setGantry g lo hi h p m
  | .setGuard gap => setGuard gap
  | .gantryPause g => gantryPause g
  | .gantryResume g => gantryResume g
  | .gantryReset g => gantryReset g
  | .readGantry g => readGantry g
  | .setChannel c st en b len => setChannel c st en b len
  | .setGasLimit g => setGasLimit g
  | .gasHold c h => gasHold c h
  | .readChannel c => readChannel c
  | .run => runLine
  | .drain => drainLine
  | .hold => holdLine
  | .stop => stopLine
  | .holdAt t => holdAt t
  | .clearLine => clearLine
  | .setGrace g => setGrace g
  | .rescueClear l => rescueClear l
  | .readLine => readLine
  | .setAlarm d => setAlarm d
  | .hello g => hello g
  | .homed g => homed g
  | .claim g => claim g
  | .lifted g m => lifted g m
  | .lowered g m => lowered g m
  | .done g m => reportDone g m
  | .abandon g m x => abandon g m x
  | .fault g pr m k => fault g pr m k
  | .getNotice p => getNotice p
  | .setMask p m => setMask p m
  | .ident p => ident p
  | _ => fun s => s.answer .unknown

/-- R178 to R180: a session of whole bytes `bytes` and `extra` bits beyond them. No whole byte: no effect. A first byte of 00h
makes a read session. A request session is answered with the refusal of the first check it fails; one that passes every
check is the request it carries, and is taken as that (log 6). -/
def State.takeSession (s : State) (p : PortId) (bytes : List Byte) (extra : Nat) : State :=
  match decodeSession p bytes extra with
  | .nothing => s
  | .read n => s.modPort p (fun q => q.read n)
  | .refused .badLength => s.takeRequest p bytes.length (fun t => t.answer .badLength)
  | .refused .unknown => s.takeRequest p bytes.length (fun t => t.answer .unknown)
  | .refused .wrongPort => s.takeRequest p bytes.length (fun t => t.answer .wrongPort)
  | .request i => s.takeRequest p bytes.length (handRequest i)

/-- R180: UNKNOWN-REQUEST. -/
def execUnknownRequest (port : PortId) (bytes : List Byte) (extraBits : Nat) (s : State) :
    Host.Outcome State Fault Refusal :=
  .next (s.takeSession port bytes extraBits)

end Sys2Proof.Machine
end

