-- ==== Sys2Proof/Machine/Time.lean ====
section
/-! DEFINITION. The advance of the line time (R60, R63) and the taking of the line-time events that are due (log 3). -/

namespace Sys2Proof.Machine

/-- R71: the edges of every hanger. -/
def State.settleEdges (s : State) : State :=
  s.tags.foldl (fun t tag => ((t.edgeDue tag .opening).edgeDue tag .target).edgeDue tag .closing) s

/-- The events that are due are taken, kind by kind in the model's order: edges, unagitated limits, ready times, rescue
compares, the HOLD-AT set point, stale compares, move limits, burst ends, bursts, ALARM (log 3). Of one kind, those of hangers
and moves go in the order of their lists, those of stations and channels from the lowest number up (log 35, DESIGN CHOICE). -/
def State.settle (s : State) : State :=
  let s1 := s.settleEdges
  let s2 := s1.tags.foldl State.unagitatedDue s1
  let s3 := (s2.moves.map (fun m => m.id)).foldl State.readyDue s2
  let s4 := s3.tags.foldl State.signal s3
  let s5 := s4.holdAtDue
  let s6 := (List.range Config.stations).foldl State.staleDue s5
  let s7 := (s6.moves.map (fun m => m.id)).foldl State.limitDue s6
  let s8 := (List.range Config.channels).foldl State.burstEndDue s7
  let s9 := (List.range Config.channels).foldl State.burstDue s8
  s9.testAlarm

/-- R60, R63: the line time advances by one, and every counting immersion record with it. -/
def State.advance (s : State) : State := { s.tickCounts with lineTime := s.lineTime + 1 }

/-- R60: LINE-TIME-ADVANCE. What is still due from the tenth before is taken first; the events of the new tenth are taken
in the advance, or left to the commands of their own rows (log 3). -/
def execLineTimeAdvance (events : AdvanceEvents) (s : State) : Host.Outcome State Fault Refusal :=
  .next (match events with
    | .taken => s.settle.advance.settle
    | .left => s.settle.advance)

end Sys2Proof.Machine
end

