-- ==== Sys2Proof/Machine/Reset.lean ====
section
/-! DEFINITION. POWER-ON and RESETN: every block at its reset values (R17, R32, R59, R60, R81, R100, R126, R127, R150, R164,
R165, R170, R193). The commands that wait are outside the block and stay (log 23). -/

namespace Sys2Proof.Machine

/-- The reset values, with the waiting commands kept. -/
def State.afterReset (s : State) : State := { State.reset with pending := s.pending }

/-- R60, R150, R165: POWER-ON. -/
def execPowerOn (s : State) : Host.Outcome State Fault Refusal := .next s.afterReset

/-- R193: RESETN. -/
def execResetn (s : State) : Host.Outcome State Fault Refusal := .next s.afterReset

end Sys2Proof.Machine
end

