-- ==== Sys2Proof/Machine/Dispatch.lean ====
section
/-! DEFINITION. One arm per command: the meaning of each row of spec/opcode_table.json. -/

namespace Sys2Proof.Machine

/-- The effect of a command on everything but the queue of waiting commands. -/
def exec (i : Instr) (s : State) : Host.Outcome State Fault Refusal :=
  match i with
  -- Chapter 1
  | .setStation station cls group coordinate slotCount allowance supervised rescueLine => Sys2Proof.Machine.execSetStation station cls group coordinate slotCount allowance supervised rescueLine s
  | .clearStation station => Sys2Proof.Machine.execClearStation station s
  | .block station slot => Sys2Proof.Machine.execBlock station slot s
  | .unblock station slot => Sys2Proof.Machine.execUnblock station slot s
  | .readStation station => Sys2Proof.Machine.execReadStation station s
  -- Chapter 2
  | .draftRecipe recipe stepCount => Sys2Proof.Machine.execDraftRecipe recipe stepCount s
  | .draftSteps recipe first steps => Sys2Proof.Machine.execDraftSteps recipe first steps s
  | .writeRecipe recipe => Sys2Proof.Machine.execWriteRecipe recipe s
  | .discardStaged recipe => Sys2Proof.Machine.execDiscardStaged recipe s
  | .readRecipe recipe version first => Sys2Proof.Machine.execReadRecipe recipe version first s
  -- Chapter 3
  | .admitHanger tag recipe scale area station slot => Sys2Proof.Machine.execAdmitHanger tag recipe scale area station slot s
  | .abortHanger tag => Sys2Proof.Machine.execAbortHanger tag s
  | .resumeHanger tag => Sys2Proof.Machine.execResumeHanger tag s
  | .restartHanger tag => Sys2Proof.Machine.execRestartHanger tag s
  | .recover tag station slot => Sys2Proof.Machine.execRecover tag station slot s
  | .unloaded station slot => Sys2Proof.Machine.execUnloaded station slot s
  | .readHanger tag => Sys2Proof.Machine.execReadHanger tag s
  | .readRun tag first => Sys2Proof.Machine.execReadRun tag first s
  -- Chapter 4
  | .readTiming tag => Sys2Proof.Machine.execReadTiming tag s
  -- Chapter 5
  | .setBath station settings => Sys2Proof.Machine.execSetBath station settings s
  | .bathReport station reading => Sys2Proof.Machine.execBathReport station reading s
  | .bathTrip station => Sys2Proof.Machine.execBathTrip station s
  | .bathClear station => Sys2Proof.Machine.execBathClear station s
  | .replenished station => Sys2Proof.Machine.execReplenished station s
  | .readBath station => Sys2Proof.Machine.execReadBath station s
  -- Chapter 6
  | .readMoves first => Sys2Proof.Machine.execReadMoves first s
  -- Chapter 7, supervisor
  | .setGantry gantry lowest highest handling pace margin => Sys2Proof.Machine.execSetGantry gantry lowest highest handling pace margin s
  | .setGuard gap => Sys2Proof.Machine.execSetGuard gap s
  | .gantryPause gantry => Sys2Proof.Machine.execGantryPause gantry s
  | .gantryResume gantry => Sys2Proof.Machine.execGantryResume gantry s
  | .gantryReset gantry => Sys2Proof.Machine.execGantryReset gantry s
  | .readGantry gantry => Sys2Proof.Machine.execReadGantry gantry s
  -- Chapter 8
  | .setChannel channel station enable cadence length => Sys2Proof.Machine.execSetChannel channel station enable cadence length s
  | .setGasLimit limit => Sys2Proof.Machine.execSetGasLimit limit s
  | .gasHold channel setting => Sys2Proof.Machine.execGasHold channel setting s
  | .readChannel channel => Sys2Proof.Machine.execReadChannel channel s
  -- Chapter 9
  | .run => Sys2Proof.Machine.execRun s
  | .drain => Sys2Proof.Machine.execDrain s
  | .hold => Sys2Proof.Machine.execHold s
  | .stop => Sys2Proof.Machine.execStop s
  | .holdAt time => Sys2Proof.Machine.execHoldAt time s
  | .clearLine => Sys2Proof.Machine.execClearLine s
  | .setGrace grace => Sys2Proof.Machine.execSetGrace grace s
  | .rescueClear line => Sys2Proof.Machine.execRescueClear line s
  | .readLine => Sys2Proof.Machine.execReadLine s
  -- Section 10.5
  | .setAlarm delay => Sys2Proof.Machine.execSetAlarm delay s
  -- Chapters 6 and 7, gantry controllers
  | .hello gantry => Sys2Proof.Machine.execHello gantry s
  | .homed gantry => Sys2Proof.Machine.execHomed gantry s
  | .claim gantry => Sys2Proof.Machine.execClaim gantry s
  | .lifted gantry move => Sys2Proof.Machine.execLifted gantry move s
  | .lowered gantry move => Sys2Proof.Machine.execLowered gantry move s
  | .done gantry move => Sys2Proof.Machine.execDone gantry move s
  | .abandon gantry move coordinate => Sys2Proof.Machine.execAbandon gantry move coordinate s
  | .fault gantry presence move code => Sys2Proof.Machine.execFault gantry presence move code s
  -- Chapter 10, every port
  | .getNotice port => Sys2Proof.Machine.execGetNotice port s
  | .setMask port mask => Sys2Proof.Machine.execSetMask port mask s
  | .ident port => Sys2Proof.Machine.execIdent port s
  -- Port sessions
  | .unknownRequest port bytes extraBits => Sys2Proof.Machine.execUnknownRequest port bytes extraBits s
  | .busyRefused port clocked => Sys2Proof.Machine.execBusyRefused port clocked s
  | .readSession port clocked => Sys2Proof.Machine.execReadSession port clocked s
  | .replyReady port => Sys2Proof.Machine.execReplyReady port s
  -- Line time
  | .lineTimeAdvance events => Sys2Proof.Machine.execLineTimeAdvance events s
  | .edgeCrossed tag edge => Sys2Proof.Machine.execEdgeCrossed tag edge s
  | .readyTimeReached move => Sys2Proof.Machine.execReadyTimeReached move s
  | .rescueCompareReached tag => Sys2Proof.Machine.execRescueCompareReached tag s
  | .holdAtReached => Sys2Proof.Machine.execHoldAtReached s
  | .staleCompareReached station => Sys2Proof.Machine.execStaleCompareReached station s
  | .moveLimitReached move => Sys2Proof.Machine.execMoveLimitReached move s
  | .burstFallsDue channel => Sys2Proof.Machine.execBurstFallsDue channel s
  | .burstEnd channel => Sys2Proof.Machine.execBurstEnd channel s
  | .unagitatedLimitPassed tag => Sys2Proof.Machine.execUnagitatedLimitPassed tag s
  | .alarmAssert => Sys2Proof.Machine.execAlarmAssert s
  -- Device
  | .powerOn => Sys2Proof.Machine.execPowerOn s
  | .resetn => Sys2Proof.Machine.execResetn s

end Sys2Proof.Machine
end

