-- ==== Sys2Proof/Safety.lean ====
section
/-! DEFINITION. The vocabulary of the claims: a run that completes, a port that is free to take a request, what a command
leaves alone, and the invariants every step keeps. -/

namespace Sys2Proof

/-- The block completes `k` steps from `s` with no fault and no refusal. -/
def completes (k : Nat) (s : Machine.State) : Prop := ∃ t, core.run k s = Host.Outcome.next t

namespace Machine

/-- R179: the port is EMPTY or HELD, so a request session on it is taken. -/
def PortFree (s : State) (p : PortId) : Prop := (s.port p).working = false

/-- The command is taken at port `p`, leaves `t` but for the reply, and is answered with `r`. -/
def Answers (i : Instr) (s : State) (p : PortId) (t : State) (r : Reply) : Prop := exec i s = .next (t.forming p r)

/-- What stands outside the records: the line time, the draft, the line-wide settings and the queue of commands. -/
def KeepsSettings (s t : State) : Prop :=
  t.lineTime = s.lineTime ∧ t.draft = s.draft ∧ t.guardGap = s.guardGap ∧ t.gasLimit = s.gasLimit ∧ t.mode = s.mode
    ∧ t.holdAt = s.holdAt ∧ t.grace = s.grace ∧ t.alarmDelay = s.alarmDelay ∧ t.pending = s.pending

/-- R9: the structural checks of a write of station `st` with class code `cls`, group, coordinate, supervised and rescue line. -/
def MapAgrees (s : State) (st : Nat) (cls : StationClass) (grp x : Nat) (sv : Bool) (rl : Option Nat) : Prop :=
  (∀ o, o < st → o ≤ 23 → (s.station o).configured = true →
    (∀ o', o < o' → o' < st → o' ≤ 23 → (s.station o').configured = false) → (s.station o).coordinate < x)
  ∧ (∀ o, st < o → o ≤ 23 → (s.station o).configured = true →
    (∀ o', st < o' → o' < o → (s.station o').configured = false) → x < (s.station o).coordinate)
  ∧ (∀ o, o ≤ 23 → o ≠ st → (s.station o).configured = true → (s.station o).group = grp → (s.station o).cls = cls)
  ∧ (cls = .strict → sv = true) ∧ (cls = .load ∨ cls = .unload → sv = false)
  ∧ (∀ l, rl = some l → cls = .strict
      ∧ ∀ o, o ≤ 23 → o ≠ st → (s.station o).configured = true → (s.station o).rescueLine ≠ some l)

/-- Every hanger record but one is as it was. -/
def KeepsOtherHangers (s t : State) (tag : Nat) : Prop := ∀ tag', tag' ≠ tag → t.hanger? tag' = s.hanger? tag'

/-- Every move but one is as it was. -/
def KeepsOtherMoves (s t : State) (id : Nat) : Prop := ∀ id', id' ≠ id → t.move? id' = s.move? id'

/-- Every slot but one is as it was. -/
def KeepsOtherSlots (s t : State) (r : SlotRef) : Prop := ∀ r', r' ≠ r → t.slotAt r' = s.slotAt r'

/-- Every slot but `r` is as it was, but for those RESERVED for a tag, which are FREE (R45, R51). -/
def ReleasesOtherSlots (s t : State) (tag : Nat) (r : SlotRef) : Prop :=
  ∀ r', r' ≠ r → t.slotAt r' = if (s.slotAt r').reservedFor tag = true then .free else s.slotAt r'

/-- The stations as they were but for their slots: every other field of every record is kept. -/
def KeepsStationFields (s t : State) : Prop := ∀ st, { t.station st with slots := (s.station st).slots } = s.station st

/-- R40: the run record with its newest entry, if open, closed at `now` with condition `c`. -/
def closedRun (h : Hanger) (now : LineTime) (c : Condition) : List RunEntry :=
  match h.run.getLast? with
  | some e =>
    if e.endTime = none then
      h.run.dropLast ++ [{ e with endTime := some now, actual := some h.imm.elapsed,
                                  reference := if h.imm.cls = some .strict then some (h.imm.progress / 1024) else none,
                                  condition := some c }]
    else h.run
  | none => h.run

/-- R42: the start order with a hanger put back before the first entry younger than it, or at the end. -/
def Rejoined (s : State) (h : Hanger) (order : List Nat) : Prop :=
  ∃ before after, s.startOrder = before ++ after ∧ order = before ++ h.tag :: after
    ∧ (∀ x ∈ before, ∀ e, s.hanger? x = some e → 1 ≤ (h.seq - e.seq).toNat ∧ (h.seq - e.seq).toNat ≤ 32767)
    ∧ (∀ x rest e, after = x :: rest → s.hanger? x = some e → ¬ (1 ≤ (h.seq - e.seq).toNat ∧ (h.seq - e.seq).toNat ≤ 32767))

/-! ### Notices -/

/-- A notice with a tag and a station alone. -/
def plainNotice (k : NoticeKind) (now : LineTime) (tag station : Option Nat) (code : Nat) : Notice :=
  { kind := k, time := now, tag := tag, station := station, move := none, codeA := code, codeB := 0, codeC := 0, codeD := 0 }

/-- R40: a port after the newest entry of a hanger's run record, if open, has closed with condition `c`: CONDITION joins its
queue when `c` is not ON-TIME. -/
def closedPort (q : Port) (h : Hanger) (now : LineTime) (c : Condition) : Port :=
  match h.run.getLast? with
  | some e =>
    if e.endTime = none ∧ c ≠ .onTime then q.push (plainNotice .condition now (some h.tag) (some e.station) c.code) else q
  | none => q

/-- R110: the WORK notice that names a move. -/
def workNotice (now : LineTime) (m : Move) : Notice :=
  { kind := .work, time := now, tag := m.tag, station := match m.source with | .slot r => some r.station | .point _ => none,
    move := some m.id, codeA := 0, codeB := 0, codeC := 0, codeD := 0 }

/-- R110: a port after a WORK notice for it: one that stands unread keeps its place and no second is queued. -/
def worked (q : Port) (n : Notice) : Port := if ∀ x ∈ q.queue, x.kind ≠ .work then q.push n else q

/-- R134: the port of gantry `g` after the notice for entering READY: WORK for the first READY move in the walk order of `w` that
it can serve. -/
def offeredWork (w : State) (g : GantryId) (q : Port) : Port :=
  match w.walkOrder.find? (fun x => x.state == .ready && w.canServe g x) with
  | some x => worked q (workNotice w.lineTime x)
  | none => q

/-- R110: in the event that leads from `s` to `t`, move `m` becomes READY: the port of each READY gantry that can serve it, and
no other gantry's, is sent its WORK notice (a BUSY gantry is sent none: log 38). -/
def WorkPosted (s t : State) (m : Move) : Prop :=
  ∀ g : GantryId, t.port g.port =
    if (t.gantry g).link = .ready ∧ t.canServe g m = true then worked (s.port g.port) (workNotice s.lineTime m)
    else s.port g.port

/-- R106, R110: a move created READY is made known by R110, and one created WAITING to no gantry. -/
def MadeKnown (s t : State) (m : Move) : Prop :=
  (m.state = .ready → WorkPosted s t m) ∧ (m.state ≠ .ready → ∀ g : GantryId, t.port g.port = s.port g.port)

/-! ### Gas channels and rates -/

/-- R155: a change between empty and occupied at a station is told to its channel: PAUSED, a burst falls due at once and the
accumulator starts from 0; HELD, the next due becomes the line time; WAITING or DEFERRED, an emptied station pauses it. -/
def OccupancyTold (s t : State) (st : Nat) : Prop :=
  ((s.station st).gasChannel = none → t.channels = s.channels)
  ∧ ∀ n, (s.station st).gasChannel = some n → n ≤ 7 → ∃ c first : Channel,
    c = s.channel n ∧ first = Channel.schedule { c with empty := false, accumulator := 0 } s.lineTime
    ∧ (∀ o, o ≠ n → t.channel o = s.channel o)
    ∧ (((s.station st).occupiedCount = 0 ↔ (t.station st).occupiedCount = 0) → t.channel n = c)
    ∧ ((s.station st).occupiedCount = 0 → 0 < (t.station st).occupiedCount → t.channel n =
      match c.state with
      | .paused =>
        if s.gasInUse < s.gasLimit then
          { first with state := .bursting, burstEnd := some (s.lineTime + BitVec.ofNat 32 c.length), deferredDue := none
                       bursts := min 65535 (c.bursts + 1) }
        else { first with state := .deferred, deferredDue := some s.lineTime }
      | .held => { c with empty := false, accumulator := 0, nextDue := some s.lineTime }
      | _ => { c with empty := false })
    ∧ (0 < (s.station st).occupiedCount → (t.station st).occupiedCount = 0 → t.channel n =
      match c.state with
      | .waiting => { c with empty := true, state := .paused, nextDue := none }
      | .deferred => { c with empty := true, state := .paused, nextDue := none, deferredDue := none }
      | _ => { c with empty := true })

/-! ### Gas holds -/

/-- The channel with one hold cause standing or not (R160). -/
def causeSet (c : Channel) (k : HoldCause) (b : Bool) : Channel :=
  match k with
  | .supervisor => { c with holdSupervisor := b }
  | .trip => { c with holdTrip := b }
  | .rescue => { c with holdRescue := b }

/-- R160: no hold cause stands. -/
def NoCause (c : Channel) : Prop := c.holdSupervisor = false ∧ c.holdTrip = false ∧ c.holdRescue = false

/-- R160, R158: cause `k` is set on channel `n`: an OFF channel or one held already keeps its state; another becomes HELD, and the
valve of a BURSTING one goes to the DEFERRED channel with the earliest deferred due, ties to the lower number. -/
def HoldSet (s t : State) (n : Nat) (k : HoldCause) : Prop :=
  ∃ c : Channel, c = causeSet (s.channel n) k true
  ∧ ((c.state = .off ∨ ¬ NoCause (s.channel n)) → t.channels = s.channels.setIfInBounds n c)
  ∧ (c.state ≠ .off → NoCause (s.channel n) → (c.state ≠ .bursting ∨ ∀ m, m ≤ 7 → (s.channel m).state ≠ .deferred) →
    t.channels = s.channels.setIfInBounds n { c with state := .held, burstEnd := none, deferredDue := none })
  ∧ (∀ m d, c.state = .bursting → NoCause (s.channel n) → m ≤ 7 → (s.channel m).state = .deferred →
    (s.channel m).deferredDue = some d →
    (∀ o e, o ≤ 7 → o ≠ m → (s.channel o).state = .deferred → (s.channel o).deferredDue = some e →
      earlier d e = true ∨ (d = e ∧ m < o)) →
    t.channels = (s.channels.setIfInBounds n { c with state := .held, burstEnd := none, deferredDue := none }).setIfInBounds m
      { s.channel m with state := .bursting, burstEnd := some (s.lineTime + BitVec.ofNat 32 (s.channel m).length)
                         deferredDue := none, bursts := min 65535 ((s.channel m).bursts + 1) })

/-- R160, R161: cause `k` ends on channel `n`: a HELD channel with no cause left is PAUSED when its station is empty, and else
WAITING, scheduled on from its next due until that is later than the line time. -/
def HoldEnded (s t : State) (n : Nat) (k : HoldCause) : Prop :=
  ∃ c : Channel, c = causeSet (s.channel n) k false
  ∧ ((c.state ≠ .held ∨ ¬ NoCause c) → t.channels = s.channels.setIfInBounds n c)
  ∧ (c.state = .held → NoCause c → c.empty = true →
    t.channels = s.channels.setIfInBounds n { c with state := .paused, nextDue := none })
  ∧ (c.state = .held → NoCause c → c.empty = false → 1 ≤ c.interval → c.interval ≤ 6000 →
    ∃ (j : Nat) (f : Nat → Channel), f 0 = c
    ∧ (∀ i, i < j → ∃ d, (f i).nextDue = some d ∧ reached s.lineTime d = true ∧ f (i + 1) = (f i).schedule d)
    ∧ (∀ d, (f j).nextDue = some d → reached s.lineTime d = false)
    ∧ t.channels = s.channels.setIfInBounds n { f j with state := .waiting })

/-- R93, R171: cause `k` is set on the channel of station `st`, when its Gas channel field names one. -/
def StationHeld (s t : State) (st : Nat) (k : HoldCause) : Prop :=
  ((s.station st).gasChannel = none → t.channels = s.channels)
  ∧ ∀ n, (s.station st).gasChannel = some n → n ≤ 7 → HoldSet s t n k

/-- R95, R175: cause `k` ends on the channel of station `st`, when its Gas channel field names one. -/
def StationReleased (s t : State) (st : Nat) (k : HoldCause) : Prop :=
  ((s.station st).gasChannel = none → t.channels = s.channels)
  ∧ ∀ n, (s.station st).gasChannel = some n → n ≤ 7 → HoldEnded s t n k

/-- R73: the immersion of a STRICT station whose count runs. -/
def Immersion.RunsIn (i : Immersion) (st : Nat) : Prop := i.counting = true ∧ i.cls = some .strict ∧ i.station = st

/-- R72, R78: an immersion whose predictions and armed compare point have been remade with a rate and a grace: a crossed edge
keeps its crossing time. -/
def remadeImmersion (i : Immersion) (now : LineTime) (rate grace : Nat) : Immersion :=
  { i with
    predOpening := match i.crossOpening with | some x => x | none => predict now i.opening i.progress rate
    predTarget := match i.crossTarget with | some x => x | none => predict now i.effective i.progress rate
    predClosing := match i.crossClosing with | some x => x | none => predict now i.closing i.progress rate
    compare := i.compare.map (fun _ =>
      (match i.crossClosing with | some x => x | none => predict now i.closing i.progress rate) + BitVec.ofNat 32 grace) }

/-- R74 to R76: a STEP or EXIT move fed by an immersion: its times, and its state while it is not granted. -/
def fedMove (m : Move) (i : Immersion) (now : LineTime) (allowance : Nat) : Move :=
  { m.timed i now allowance with
    state := if m.state = .granted then .granted
      else if reached now (m.timed i now allowance).ready = true then .ready else .waiting }

/-! ### The grant tests (R113 to R122) -/

/-- R96: station `st` accepts lowering. -/
def LoweringAccepted (s : State) (st : Nat) : Prop :=
  ((s.station st).supervised = true → ∃ b, s.bath? st = some b ∧ (b.readiness = .ready ∨ b.readiness = .drift) ∧ b.debt = 0)
  ∧ ∀ l, (s.station st).rescueLine = some l → (s.line l).asserted = false

/-- R104: the From slot of the move lies in a STRICT station. -/
def StrictExit (s : State) (m : Move) : Prop := ∃ r : SlotRef, m.source = .slot r ∧ (s.station r.station).cls = .strict

/-- R114: the line mode permits the move. -/
def ModePermits (s : State) (m : Move) : Prop :=
  s.mode = .run ∨ (s.mode = .drain ∧ m.kind ≠ .entry) ∨ (s.mode = .hold ∧ (StrictExit s m ∨ m.kind = .yielding))

/-- R122, R29: the hanger is unbound and its recipe is not startable. -/
def HeldByRecipe (s : State) (h : Hanger) : Prop :=
  h.bound = false
    ∧ ((s.recipe h.recipe).active = [] ∨ (s.recipe h.recipe).valid = false ∨ (s.recipe h.recipe).staged ≠ none)

/-- R122: the move is no ENTRY move, or that of the first hanger in the start order that its recipe does not hold. -/
def GatePermits (s : State) (m : Move) : Prop :=
  m.kind = .entry → ∃ tag h before after, m.tag = some tag ∧ s.hanger? tag = some h ∧ ¬ HeldByRecipe s h
    ∧ s.startOrder = before ++ tag :: after ∧ ∀ x ∈ before, ∀ e, s.hanger? x = some e → HeldByRecipe s e

/-- R115: the station index lies in the gantry's reach. -/
def InReach (s : State) (g : GantryId) (st : Nat) : Prop := (s.gantry g).reachLow ≤ st ∧ st ≤ (s.gantry g).reachHigh

/-- R115: the reach holds the From station and, when the To is fixed, the To station. -/
def ReachPermits (s : State) (g : GantryId) (m : Move) : Prop :=
  (∃ r, m.source = .slot r ∧ InReach s g r.station) ∧ ∀ d, m.dest = some (.slot d) → InReach s g d.station

/-- R20: the following target of step `k` of a version. -/
def IsFollowing (v : List RecipeStep) (k : Nat) (x : Target) : Prop :=
  match x with
  | .step j group => j = k + 1 ∧ ∃ f, v[j]? = some f ∧ f.group = group
  | .exit => k + 1 = v.length

/-- R36: the target of a hanger. -/
def IsTarget (s : State) (h : Hanger) (x : Target) : Prop :=
  (h.run = [] ∧ ∃ f, (s.recipe h.recipe).active[0]? = some f ∧ x = .step 0 f.group)
    ∨ (h.run ≠ [] ∧ IsFollowing (s.recipe h.recipe).active h.step x)

/-- R116, R117: a candidate station for a target: configured and named by it, in reach, accepting, with a FREE slot. -/
def IsCandidate (s : State) (g : GantryId) (x : Target) (st : Nat) : Prop :=
  st ≤ 23 ∧ (s.station st).configured = true ∧ InReach s g st ∧ LoweringAccepted s st
  ∧ (match x with
    | .step _ group => (s.station st).group = group
    | .exit => (s.station st).cls = .unload)
  ∧ ∃ i, i < (s.station st).slotCount ∧ (s.station st).slot i = .free

/-- R116, R117: the slot taken for a target: the lowest FREE one of the candidate nearest coordinate `x`, ties by index. -/
def IsChosen (s : State) (g : GantryId) (target : Target) (x : Nat) (r : SlotRef) : Prop :=
  IsCandidate s g target r.station
  ∧ (∀ o, IsCandidate s g target o → o ≠ r.station →
    (((s.station r.station).coordinate : Int) - x).natAbs < (((s.station o).coordinate : Int) - x).natAbs
    ∨ ((((s.station r.station).coordinate : Int) - x).natAbs = (((s.station o).coordinate : Int) - x).natAbs ∧ r.station < o))
  ∧ r.slot < (s.station r.station).slotCount ∧ s.slotAt r = .free ∧ ∀ i, i < r.slot → (s.station r.station).slot i ≠ .free

/-- R116 to R118: slot `d` passes the destination test of hanger `h`'s move, with forward slot `f` when its station is STRICT. The
two slots differ (R117 by R24; log 26). -/
def RoutePermits (s : State) (g : GantryId) (m : Move) (h : Hanger) (d : SlotRef) (f : Option SlotRef) : Prop :=
  ((m.dest = some (.slot d) ∧ LoweringAccepted s d.station)
    ∨ (m.dest = none ∧ ∃ x, IsTarget s h x ∧ IsChosen s g x (s.coordOf m.source) d))
  ∧ ((s.station d.station).cls ≠ .strict → f = none)
  ∧ ((s.station d.station).cls = .strict → ∃ r, f = some r ∧ r ≠ d
    ∧ ((h.forward = some r ∧ LoweringAccepted s r.station)
      ∨ ((h.forward = none ∨ h.forward = some d) ∧ ∃ k group x, IsTarget s h (.step k group)
        ∧ IsFollowing (s.recipe h.recipe).active k x ∧ IsChosen s g x (s.station d.station).coordinate r)))

/-- R119, R137: the span of a hanger move to slot `d` stands the guard gap apart from the other gantry's reserved span. -/
def ZonePermits (s : State) (g : GantryId) (m : Move) (d : SlotRef) : Prop :=
  match g with
  | .a => max (max (s.gantry g).point (s.coordOf m.source)) (s.station d.station).coordinate + s.guardGap ≤ s.gantryB.spanLow
  | .b => s.gantryA.spanHigh + s.guardGap ≤ min (min (s.gantry g).point (s.coordOf m.source)) (s.station d.station).coordinate

/-- R120: the time estimate of a hanger move to slot `d`: the travel is rounded up. -/
def moveEstimate (s : State) (g : GantryId) (m : Move) (d : SlotRef) : Nat :=
  (s.gantry g).handling + m.drip
    + (((((s.gantry g).point : Int) - s.coordOf m.source).natAbs
      + ((s.coordOf m.source : Int) - (s.station d.station).coordinate).natAbs) * (s.gantry g).pace + 99) / 100

/-- R121: the move is a STRICT exit, or no STRICT exit that is not granted, with both stations in reach, has its ready time reached
by the line time plus the estimate of the move. -/
def ProtectionPermits (s : State) (g : GantryId) (m : Move) (d : SlotRef) : Prop :=
  StrictExit s m ∨ ∀ x ∈ s.moves, StrictExit s x → (x.state = .waiting ∨ x.state = .ready) →
    (∃ a b, x.source = .slot a ∧ x.dest = some (.slot b) ∧ InReach s g a.station ∧ InReach s g b.station) →
    reached (s.lineTime + BitVec.ofNat 32 (moveEstimate s g m d)) x.ready = false

/-- R111, keys 3 and 4: the older admission sequence first, and of equal ones the lower identifier. -/
def TieGoesTo (a b : Move) : Prop :=
  (∃ x y, a.seq = some x ∧ b.seq = some y ∧ 1 ≤ (y - x).toNat ∧ (y - x).toNat ≤ 32767) ∨ (a.seq = b.seq ∧ a.id < b.id)

/-- R111: move `a` stands before move `b` in the urgency order: with a deadline before without, then by deadline, or by ready
time without one, then by keys 3 and 4. -/
def MoreUrgent (a b : Move) : Prop :=
  (∃ x y, a.deadline = some x ∧ b.deadline = some y ∧ (earlier x y = true ∨ (x = y ∧ TieGoesTo a b)))
  ∨ (a.deadline ≠ none ∧ b.deadline = none)
  ∨ (a.deadline = none ∧ b.deadline = none ∧ (earlier a.ready b.ready = true ∨ (a.ready = b.ready ∧ TieGoesTo a b)))

/-! ### Yields and beginnings -/

/-- R138: the yield target of gantry `o` for the other's candidate span from `lo` to `hi`. -/
def IsYieldTarget (s : State) (o : GantryId) (lo hi x : Nat) : Prop :=
  (∃ st, st ≤ 23 ∧ (s.station st).configured = true ∧ (s.gantry o).reaches st = true ∧ (s.station st).coordinate = x)
  ∧ match o with
    | .a => x + s.guardGap ≤ lo ∧ ∀ st, st ≤ 23 → (s.station st).configured = true → (s.gantry o).reaches st = true →
      (s.station st).coordinate + s.guardGap ≤ lo → (s.station st).coordinate ≤ x
    | .b => hi + s.guardGap ≤ x ∧ ∀ st, st ≤ 23 → (s.station st).configured = true → (s.gantry o).reaches st = true →
      hi + s.guardGap ≤ (s.station st).coordinate → x ≤ (s.station st).coordinate

/-- R119, R138: at a claim of gantry `g` the failed zone test of move `m` makes the other gantry yield to coordinate `x`. -/
def ZoneYields (s : State) (g : GantryId) (m : Move) (x : Nat) : Prop :=
  ∃ d, s.trial g m = .zoned d ∧ (s.gantry g.other).link = .ready ∧ s.ownYield? g.other = none
    ∧ s.protectionPasses g m d = true ∧ IsYieldTarget s g.other (s.spanLowFor g m d) (s.spanHighFor g m d) x

/-- R138: the state `u` a claim leaves behind the moves `l` it walked past: a YIELD move for the first of them whose failed zone
test makes one, with its WORK notice. -/
def YieldMade (s u : State) (g : GantryId) (l : List Move) : Prop :=
  ((∀ m ∈ l, ∀ x, ¬ ZoneYields s g m x) → u = s)
  ∧ ∀ before m rest x, l = before ++ m :: rest → ZoneYields s g m x → (∀ m' ∈ before, ∀ x', ¬ ZoneYields s g m' x') →
    ∃ y : Move,
      y = { id := s.freshId, kind := .yielding, tag := none, seq := none, source := .point (s.gantry g.other).point,
            dest := some (.point x), ready := s.lineTime, due := none, deadline := none, drip := 0, state := .ready,
            gantry := some g.other, grantTime := none, estimate := none, limit := none, blocked := some m.id }
      ∧ u = { s with moves := s.moves ++ [y], moveCounter := (s.freshId + 1) % 256 }.modPort g.other.port
          (fun q => worked q (workNotice s.lineTime y))

/-- R44, R39: what stands after step `k`, with its fields `f`, has begun for hanger `h` in slot `r`, whose forward reservation is
then `fwd`: the record with its opened entry and its immersion, the STEP or EXIT move, the last of the list, and the notices. -/
def StepBegun (s t : State) (h : Hanger) (k : Nat) (f : RecipeStep) (r : SlotRef) (fwd : Option SlotRef) : Prop :=
  (∃ h', t.hanger? h.tag = some h' ∧ h'.state = .immersed ∧ h'.phase = none ∧ h'.step = k ∧ h'.location = .slot r
    ∧ h'.restCause = none ∧ h'.forward = fwd
    ∧ h'.imm = Immersion.start s.lineTime r.station f (s.station r.station).cls h.scale (s.rateOf r.station) s.grace
    ∧ h'.run.getLast? = some
        { station := r.station, slot := r.slot, start := s.lineTime, endTime := none, actual := none, reference := none,
          condition := none, notes := { Notes.none with uncompensated := s.bathStale r.station } }
    ∧ (∃ x : Move, t.moves = s.moves ++ [x] ∧ x.id = s.freshId ∧ x.tag = some h.tag ∧ x.seq = some h.seq
      ∧ x.kind = (if k + 1 < (s.recipe h.recipe).active.length then .step else .exit)
      ∧ x.source = .slot r ∧ x.dest = (if (s.station r.station).cls = .strict then fwd.map Place.slot else none)
      ∧ x.drip = f.drip ∧ x.gantry = none
      ∧ x = { x.timed h'.imm s.lineTime (s.station r.station).allowance with
                state := if reached s.lineTime x.ready then .ready else .waiting }
      ∧ MadeKnown s t x))
  ∧ t.moveCounter = (s.freshId + 1) % 256
  ∧ t.port0 = s.port0.push (plainNotice .step s.lineTime (some h.tag) (some r.station) k)

/-- The records of stations, recipes, hangers, baths, channels and rescue lines, and the start order, are as they were. -/
def KeepsRecords (s t : State) : Prop :=
  t.stations = s.stations ∧ t.recipes = s.recipes ∧ t.hangers = s.hangers ∧ t.startOrder = s.startOrder
    ∧ t.admissions = s.admissions ∧ t.baths = s.baths ∧ t.channels = s.channels ∧ t.lines = s.lines

/-- R131: the GANTRY-STATE notice of a gantry that enters link state `l` with fault code `k` in its record. -/
def gantryNotice (now : LineTime) (g : GantryId) (l : LinkState) (k : Option Nat) : Notice :=
  { kind := .gantryState, time := now, tag := none, station := none, move := none, codeA := gantryCode g, codeB := l.code,
    codeC := k.getD 0, codeD := if k.isSome then 1 else 0 }

/-- R136, R146, R148: command `i` takes BUSY gantry `g`, which holds move `m`, out of service into link state `l` with fault code
`k`: a FAULT, whose identifier byte is not read under presence 00h (log 33), a move limit that is reached, or GANTRY-RESET. -/
def FailsAt (s : State) (g : GantryId) (m : Move) (i : Instr) (l : LinkState) (k : Option Nat) : Prop :=
  (∃ c, k = some c ∧ l = .faulted ∧ (i = .fault g 1 m.id c ∨ ∃ id, i = .fault g 0 id c) ∧ PortFree s g.port)
    ∨ (k = none ∧ l = .faulted ∧ i = .moveLimitReached m.id ∧ m.gantry = some g
      ∧ ∃ x, m.limit = some x ∧ reached s.lineTime x = true)
    ∨ (k = some 0 ∧ l = .offline ∧ i = .gantryReset (gantryCode g) ∧ PortFree s .p0)

/-- R148: the MOVE-TIMEOUT notice. -/
def timeoutNotice (now : LineTime) (g : GantryId) (m : Move) : Notice :=
  { kind := .moveTimeout, time := now, tag := m.tag, station := none, move := some m.id, codeA := gantryCode g, codeB := 0,
    codeC := 0, codeD := 0 }

/-- R136, R144, R146, R148: the supervisor's port when gantry `g` gives up its GRANTED move `m` by command `i` and enters link
state `l` with fault code `k`, `f` being what the return of the move posts: at GANTRY-RESET before GANTRY-STATE, else after. -/
def ReturnPort (s t : State) (g : GantryId) (m : Move) (i : Instr) (l : LinkState) (k : Option Nat) (f : Port → Port) : Prop :=
  (i = .gantryReset (gantryCode g) → t.port0 =
    { (f (s.opened .p0 3).port0).push (gantryNotice s.lineTime g l k) with holder := .working (Reply.bare .ok) })
  ∧ (i = .moveLimitReached m.id → t.port0 =
    f ((s.port0.push (gantryNotice s.lineTime g l k)).push (timeoutNotice s.lineTime g m)))
  ∧ (i ≠ .gantryReset (gantryCode g) → i ≠ .moveLimitReached m.id → t.port0 =
    f (s.port0.push (gantryNotice s.lineTime g l k)))

/-- R134, R144: the port of gantry `g` when ABANDON, whose session leaves it as `q`, brings the gantry to READY or PAUSED. -/
def abandonPort (s : State) (g : GantryId) (q : Port) : Port :=
  if (s.gantry g).pausePending = true then q else offeredWork s g q

/-- R110, R136, R144, R146, R148: the own port of gantry `g` when command `i` returns or takes its move `m`: ABANDON posts the
notice of R134 and then, where `offered` says that the move becomes READY, that of R110, and is answered OK; FAULT is answered OK;
another failure leaves the port. -/
def OwnPort (s t : State) (g : GantryId) (m : Move) (i : Instr) (offered : Bool) : Prop :=
  (∀ x, i = .abandon g m.id x → ∃ q, q = abandonPort s g ((s.opened g.port 5).port g.port)
    ∧ t.port g.port = { (if offered = true ∧ (t.gantry g).link = .ready ∧ t.canServe g m = true then
        worked q (workNotice s.lineTime m) else q) with holder := .working (Reply.bare .ok) })
  ∧ (∀ p id c, i = .fault g p id c →
    t.port g.port = { (s.opened g.port 5).port g.port with holder := .working (Reply.bare .ok) })
  ∧ ((∀ x, i ≠ .abandon g m.id x) → (∀ p id c, i ≠ .fault g p id c) → t.port g.port = s.port g.port)

/-- R108, R139: the move list without move `id` and without the YIELD move made for it that is not granted. -/
def WithoutMove (s t : State) (id : Nat) : Prop :=
  t.moves = s.moves.filter (fun x => x.id != id && !(x.kind == .yielding && x.state == .ready && x.blocked == some id))

/-- R140: a progress report of a gantry that names a move. -/
def NamesMove (i : Instr) (g : GantryId) (id : Nat) : Prop :=
  i = .lifted g id ∨ i = .lowered g id ∨ i = .done g id ∨ (∃ x, x ≤ 4095 ∧ i = .abandon g id x) ∨ ∃ k, i = .fault g 1 id k

/-- R140: the phase a report needs of the move it names. -/
def PhaseFits (i : Instr) (m : Move) : Prop :=
  match i with
  | .lifted _ _ => m.state = .granted ∧ m.kind ≠ .yielding
  | .lowered _ _ => m.state = .carried
  | .done _ _ => m.state = .placed ∨ (m.state = .granted ∧ m.kind = .yielding)
  | .abandon _ _ _ => m.state = .granted ∧ m.kind ≠ .yielding
  | _ => True

/-- Gantry `g` works on move `m`, which it holds from its grant. -/
def Holds (s : State) (g : GantryId) (m : Move) : Prop :=
  (s.gantry g).link ≠ .faulted ∧ (s.gantry g).link ≠ .offline ∧ (s.gantry g).granted = some m.id ∧ s.move? m.id = some m

/-- R186: every notice queue holds at most 16 notices. -/
def QueuesBounded (s : State) : Prop := ∀ p, (s.port p).queue.length ≤ 16

/-- R158, R159: at most G valves are open. -/
def BurstsBounded (s : State) : Prop := s.gasInUse ≤ s.gasLimit

/-- R83, R84: every setting inside its range, the lowest rate not above the highest and the band below the trip limit. -/
def BathSettings.Lawful (b : BathSettings) : Prop :=
  -2000 ≤ b.tset ∧ b.tset ≤ 8000 ∧ 1 ≤ b.band ∧ b.band ≤ 500 ∧ 1 ≤ b.trip ∧ b.trip ≤ 2000 ∧ b.settle ≤ 6000 ∧ 10 ≤ b.stale
    ∧ b.stale ≤ 3000 ∧ b.slew ≤ 500 ∧ b.shift ≤ 15 ∧ b.dmax ≤ 1000 ∧ 64 ≤ b.rmin ∧ b.rmin ≤ b.rmax ∧ b.rmax ≤ 4096
    ∧ 1 ≤ b.quantum ∧ b.quantum ≤ 65535 ∧ b.exitAllowance ≤ 600 ∧ b.band < b.trip

/-- R82, R88, R97: the rate within 64 to 4096, the debt at most 15, the area counter below the quantum. -/
def Bath.Lawful (b : Bath) : Prop :=
  BathSettings.Lawful b.settings ∧ 64 ≤ b.rate ∧ b.rate ≤ 4096 ∧ b.debt ≤ 15 ∧ b.area < b.settings.quantum

/-- Every active bath record is lawful. -/
def BathsLawful (s : State) : Prop := ∀ st b, s.bath? st = some b → b.Lawful

/-! ### The events of an advance (log 3) -/

/-- The state after the commands of a list, one after the other; a command that gives no next state leaves it. -/
def takeAll (l : List Instr) (s : State) : State :=
  l.foldl (fun t i => match exec i t with | .next u => u | _ => t) s

/-- R151 to R153: cadence 1 to 600 with the interval and remainder it gives, length 1 to 50 below the interval, and the accumulator
below the cadence. -/
def Channel.Lawful (c : Channel) : Prop :=
  1 ≤ c.cadence ∧ c.cadence ≤ 600 ∧ c.interval = 6000 / c.cadence ∧ c.remainder = 6000 - c.interval * c.cadence
    ∧ 1 ≤ c.length ∧ c.length ≤ 50 ∧ c.length < c.interval ∧ c.accumulator < c.cadence

/-- Every burst channel is lawful. -/
def ChannelsLawful (s : State) : Prop := ∀ n, (s.channel n).Lawful

/-- R2, R8, R9: the written fields of a station, a configured one's with the supervision of its class and its rescue line. -/
def Station.Lawful (x : Station) : Prop :=
  x.group ≤ 15 ∧ x.coordinate ≤ 4095 ∧ 1 ≤ x.slotCount ∧ x.slotCount ≤ 4 ∧ x.allowance ≤ 600
    ∧ (x.configured = true → x.cls = .strict → x.supervised = true)
    ∧ (x.cls = .load ∨ x.cls = .unload → x.supervised = false ∧ x.allowance = 0)
    ∧ ∀ l, x.rescueLine = some l → l ≤ 3 ∧ x.cls = .strict ∧ x.configured = true

/-- R9: every station is lawful; of two configured stations the one of higher index has the higher coordinate, stations of one
group are of one class, and a rescue line serves one station. -/
def MapLawful (s : State) : Prop :=
  (∀ st, (s.station st).Lawful)
  ∧ ∀ a b, a < b → (s.station a).configured = true → (s.station b).configured = true →
    (s.station a).coordinate < (s.station b).coordinate
    ∧ ((s.station a).group = (s.station b).group → (s.station a).cls = (s.station b).cls)
    ∧ ∀ l, (s.station a).rescueLine = some l → (s.station b).rescueLine ≠ some l

/-! ### The agreement of moves, gantries, hangers and slots -/

/-- R102: the move counts as granted, from its grant until it is removed or returns to READY. -/
def Move.InWork (m : Move) : Prop := m.state = .granted ∨ m.state = .carried ∨ m.state = .placed

/-- R101, R148: the fields of a move by its kind and its state. -/
def Move.Fits (m : Move) : Prop :=
  (m.kind = .yielding → m.tag = none ∧ (∃ x, m.dest = some (.point x)) ∧ m.gantry ≠ none
    ∧ (m.state = .ready ∨ m.state = .granted))
  ∧ (m.kind ≠ .yielding → m.tag ≠ none ∧ (∀ x, m.dest ≠ some (.point x)) ∧ (¬ m.InWork → m.gantry = none))
  ∧ (m.InWork → m.dest ≠ none) ∧ (¬ m.InWork → m.limit = none)

/-- R102, R131, R139, R147: a BUSY gantry holds one granted move, which names it; a YIELD move not granted is the one move of
its kind of a READY gantry; a stranded hold is that of a FAULTED or OFFLINE gantry and names a hanger stranded on it. -/
def GantryAgrees (s : State) (g : GantryId) : Prop :=
  ((s.gantry g).link = .busy ↔ (s.gantry g).granted ≠ none)
  ∧ (∀ id, (s.gantry g).granted = some id → ∃ m ∈ s.moves, m.id = id ∧ m.InWork ∧ m.gantry = some g)
  ∧ (∀ m ∈ s.moves, m.kind = .yielding → m.state = .ready → m.gantry = some g → (s.gantry g).link = .ready
    ∧ ∀ m' ∈ s.moves, m'.kind = .yielding → m'.state = .ready → m'.gantry = some g → m' = m)
  ∧ (∀ x, (s.gantry g).hold = some x → ((s.gantry g).link = .faulted ∨ (s.gantry g).link = .offline)
    ∧ ∃ h, s.hanger? x.tag = some h ∧ h.state = .stranded ∧ h.location = .gantry g)

/-- R35: what the state of a hanger fixes of its phase, its location and its move. -/
def HangerAgrees (s : State) (h : Hanger) : Prop :=
  match h.state with
  | .loaded => h.phase = none ∧ (∃ r, h.location = .slot r) ∧ ∃ m, s.hangerMove? h.tag = some m ∧ ¬ m.InWork
  | .immersed => h.phase = none ∧ (∃ r, h.location = .slot r) ∧ ∃ m, s.hangerMove? h.tag = some m ∧ ¬ m.InWork
  | .rescued =>
    h.phase = none ∧ (∃ r, h.location = .slot r) ∧ ∃ m, s.hangerMove? h.tag = some m ∧ (m.InWork → m.state = .granted)
  | .inTransit => ∃ m, s.hangerMove? h.tag = some m
    ∧ ((h.phase = some .granted ∧ m.state = .granted ∧ ∃ r, h.location = .slot r)
      ∨ (h.phase = some .carried ∧ m.state = .carried ∧ ∃ g, h.location = .gantry g ∧ m.gantry = some g))
  | .stranded => s.hangerMove? h.tag = none ∧ h.phase = none
    ∧ ∃ g x, h.location = .gantry g ∧ (s.gantry g).hold = some x ∧ x.tag = h.tag
  | .done => s.hangerMove? h.tag = none ∧ h.phase = none ∧ ∃ r, h.location = .slot r
  | .aborted => s.hangerMove? h.tag = none ∧ h.phase = none ∧ ∃ r, h.location = .slot r

/-- R33, R35, R101 to R103, R114: tags and move identifiers name one record each, a move not placed is its live hanger's one
move, a granted move is held by its gantry, and in IDLE no gantry works. -/
def MovesAgree (s : State) : Prop :=
  (s.hangers.map Hanger.tag).Nodup ∧ s.hangers.length ≤ 32 ∧ (s.moves.map Move.id).Nodup
  ∧ (∀ m ∈ s.moves, m.Fits ∧ (m.InWork → ∃ g, m.gantry = some g ∧ (s.gantry g).granted = some m.id)
    ∧ (m.state ≠ .placed → ∀ tag, m.tag = some tag → (∃ h, s.hanger? tag = some h) ∧ s.hangerMove? tag = some m))
  ∧ (∀ h ∈ s.hangers, HangerAgrees s h) ∧ (∀ g, GantryAgrees s g) ∧ (s.mode = .idle → ∀ g, (s.gantry g).link ≠ .busy)

/-- R5, R33: a slot that is OCCUPIED or RESERVED names one live hanger, whose record, move or stranded hold names it. -/
def SlotAgrees (s : State) (r : SlotRef) : Prop :=
  match s.slotAt r with
  | .occupied tag => ∃ h, s.hanger? tag = some h ∧ h.location = .slot r
  | .reserved tag .forward => ∃ h, s.hanger? tag = some h ∧ h.forward = some r
  | .reserved tag .destination => ∃ h, s.hanger? tag = some h
    ∧ ((∃ m, s.hangerMove? tag = some m ∧ m.dest = some (.slot r))
      ∨ ∃ g, h.location = .gantry g ∧ (s.gantry g).hold = some { tag := tag, dest := r })
  | .free => True
  | .blocked => True

/-- R5, R35, R117: no hanger, move or stranded hold names a slot that does not name it; the forward reservation of a hanger whose
move has a To is that slot, or the one held for the step after its STRICT station. -/
def SlotsAgree (s : State) : Prop :=
  (∀ r, SlotAgrees s r)
  ∧ (∀ h ∈ s.hangers, (∀ r, h.location = .slot r → s.slotAt r = .occupied h.tag)
    ∧ (∀ r, h.forward = some r → (s.slotAt r).reservedFor h.tag = true ∧ h.state ≠ .done ∧ h.state ≠ .aborted))
  ∧ (∀ m ∈ s.moves, ∀ h d, m.state ≠ .placed → m.tag = some h.tag → s.hanger? h.tag = some h →
    (m.dest = some (.slot d) → (s.slotAt d).reservedFor h.tag = true
      ∧ (m.InWork → s.slotAt d = .reserved h.tag .destination
        ∧ ∀ r, h.forward = some r → ((s.station d.station).cls = .strict ↔ r ≠ d)))
    ∧ (∀ r, h.forward = some r → m.dest = some (.slot r)
      ∨ ∃ d, m.dest = some (.slot d) ∧ (s.station d.station).cls = .strict))
  ∧ (∀ g x, (s.gantry g).hold = some x → s.slotAt x.dest = .reserved x.tag .destination)

/-- R132, R137: the two reserved spans stand at least the guard gap apart; an idle gantry's span is its point, a homing gantry's
holds its homing target, and a working gantry's holds the point its move leads to. -/
def SpansAgree (s : State) : Prop :=
  s.gantryA.spanHigh + s.guardGap ≤ s.gantryB.spanLow
  ∧ ∀ g, ((s.gantry g).link = .ready ∨ (s.gantry g).link = .paused →
      (s.gantry g).spanLow = (s.gantry g).point ∧ (s.gantry g).spanHigh = (s.gantry g).point)
    ∧ ((s.gantry g).link = .homing → (s.gantry g).spanLow ≤ (s.gantry g).homing ∧ (s.gantry g).homing ≤ (s.gantry g).spanHigh)
    ∧ ∀ m ∈ s.moves, ∀ p, (s.gantry g).granted = some m.id → m.dest = some p →
      (s.gantry g).spanLow ≤ s.coordOf p ∧ s.coordOf p ≤ (s.gantry g).spanHigh

end Machine

end Sys2Proof
end

