-- ==== Sys2Proof/Certificates/Slice0/Obligations.lean ====
section
/-! DEFINITION. The statements for the provers. `Answers i s p t r` says that command `i` is taken at the free port `p`,
leaves `t` but for the reply, and is answered with `r`; `s.opened p n` is `s` with the unread reply of port `p` discarded by
a session of `n` bytes (R179), whose bytes shifted out it records (log 2, DESIGN CHOICE of the model). -/

open Sys2Proof Sys2Proof.Machine

/-! ### The queue of commands -/

/-- A step takes the command at the front of the queue and is that command's effect on the state with the queue's rest. That
commands wait in one queue, first in, first out, is log 1 (DESIGN CHOICE of the model). -/
def Obligations.StepTakesTheFrontCommand : Prop :=
  ∀ (c : Instr) (rest : List Instr) (s : State), s.pending = c :: rest → step s = exec c { s with pending := rest }

/-- No command of the table is turned away: each answers a next state from every state, one with operands outside their
fields too (log 22), and none touches the queue of the commands that wait, POWER-ON and RESETN included (log 23); on an
empty queue the block idles (log 1). All three are DESIGN CHOICES of the model. -/
def Obligations.EveryCommandAnswersAndKeepsTheQueue : Prop :=
  (∀ s : State, s.pending = [] → step s = .next s)
  ∧ (∀ (i : Instr) (s : State), ∃ t, exec i s = .next t)
  ∧ (∀ (i : Instr) (s t : State), exec i s = .next t → t.pending = s.pending)

/-! ### Reset -/

/-- R17, R32, R59, R60, R81, R100, R126, R127, R150, R164, R165, R170, R193: what power-on and RESETN leave. The commands that
wait outside the block stay (log 23, DESIGN CHOICE of the model). -/
def Obligations.ResetGivesTheStatedValues : Prop :=
  (State.reset.lineTime = 0
  ∧ (∀ st, State.reset.station st =
      { configured := false, cls := .load, group := 0, coordinate := 0, slotCount := 1, allowance := 0, supervised := false,
        rescueLine := none, gasChannel := none, slots := Vector.replicate 4 .free })
  ∧ (∀ st, State.reset.bath? st = none)
  ∧ (∀ r, State.reset.recipe r = { active := [], staged := none, useCount := 0, valid := true, lastFault := none })
  ∧ State.reset.draft = none
  ∧ State.reset.hangers = [] ∧ State.reset.startOrder = [] ∧ State.reset.admissions = 0
  ∧ State.reset.moves = [] ∧ State.reset.moveCounter = 0
  ∧ (∀ g, State.reset.gantry g =
      { link := .offline, pausePending := false, reachLow := 0, reachHigh := 23, handling := 150, pace := 40, margin := 300,
        homing := if g = .a then 0 else 4095, point := if g = .a then 0 else 4095, spanLow := if g = .a then 0 else 4095,
        spanHigh := if g = .a then 0 else 4095, granted := none, last := none, faultCode := none, hold := none })
  ∧ State.reset.guardGap = 200
  ∧ (∀ n, State.reset.channel n =
      { station := none, enable := false, cadence := 10, length := 10, interval := 600, remainder := 0, accumulator := 0,
        state := .off, nextDue := none, deferredDue := none, burstEnd := none, holdSupervisor := false, holdTrip := false,
        holdRescue := false, empty := true, bursts := 0, skips := 0 })
  ∧ State.reset.gasLimit = 2 ∧ (∀ n, State.reset.gasPin n = false)
  ∧ State.reset.mode = .idle ∧ State.reset.holdAt = none ∧ State.reset.grace = 100
  ∧ (∀ n, State.reset.line n = { asserted := false, assertTime := none, causeTag := none })
  ∧ (∀ n, State.reset.rescuePin n = false)
  ∧ (∀ p, (State.reset.port p).holder = .empty ∧ (State.reset.port p).busyRefused = false
      ∧ (State.reset.port p).queue = [] ∧ (State.reset.port p).overflow = false ∧ (State.reset.port p).mask = 0)
  ∧ State.reset.alarmDelay = 300 ∧ State.reset.alarm = false)
  ∧ (∀ s : State, exec .powerOn s = .next { State.reset with pending := s.pending }
    ∧ exec .resetn s = .next { State.reset with pending := s.pending })

/-! ### Sessions and ports -/

/-- R191. -/
def Obligations.IdentAnswersOnEveryPort : Prop :=
  ∀ (p : PortId) (s : State), PortFree s p →
    Answers (.ident p) s p (s.opened p 2)
      { status := .ok, payload := [0x54#8, 0x01#8, 0x01#8, match p with | .p0 => 0x00#8 | .p1 => 0x01#8 | .p2 => 0x02#8] }

/-- R14, R31, R57, R58, R80, R99, R125, R149, R163, R177 with R192: a read whose operands are in range is answered OK with
the content of its rule, of the length R192 gives, and changes nothing but its port; one out of range is refused. What the rules
leave open in a payload is the model's: the free bytes of READ-HANGER and READ-TIMING are logs 7 and 8 (DESIGN CHOICES), the 0 in
place of an absent reading's line time log 17, the accepted lowering of an absent station log 18, and the YIELD move still
returned while it is granted log 27 (DEDUCED by the model). -/
def Obligations.ReadRequestsChangeNoState : Prop :=
  ∀ s : State, PortFree s .p0 →
    (∀ st, (st ≤ 23 → Answers (.readStation st) s .p0 (s.opened .p0 3) ⟨.ok, stationPayload s st⟩
      ∧ (stationPayload s st).length = 12 + 3 * (if (s.station st).configured then (s.station st).slotCount else 0))
      ∧ (23 < st → Answers (.readStation st) s .p0 (s.opened .p0 3) (Reply.bare .badArg)))
    ∧ (∀ r v f, (r ≤ 15 → v ≤ 1 → f ≤ 11 → ∃ l, l = (if v = 0 then (s.recipe r).active else (s.recipe r).staged.getD [])
      ∧ Answers (.readRecipe r v f) s .p0 (s.opened .p0 5) ⟨.ok, recipePayload (s.recipe r) l f⟩
      ∧ (recipePayload (s.recipe r) l f).length = 7 + 12 * min 4 (l.length - f))
      ∧ ((15 < r ∨ 1 < v ∨ 11 < f) → Answers (.readRecipe r v f) s .p0 (s.opened .p0 5) (Reply.bare .badArg)))
    ∧ (∀ tag h, 1 ≤ tag → tag ≤ 255 → s.hanger? tag = some h →
      (Answers (.readHanger tag) s .p0 (s.opened .p0 3) ⟨.ok, hangerPayload s h⟩ ∧ (hangerPayload s h).length = 34)
      ∧ (Answers (.readTiming tag) s .p0 (s.opened .p0 3) ⟨.ok, timingPayload s h.imm⟩
        ∧ (timingPayload s h.imm).length = 56)
      ∧ (∀ f, f ≤ 12 → Answers (.readRun tag f) s .p0 (s.opened .p0 4) ⟨.ok, runPayload h f⟩
        ∧ (runPayload h f).length = 3 + 21 * min 2 (h.run.length - f)))
    ∧ (∀ tag f, 12 < f → Answers (.readRun tag f) s .p0 (s.opened .p0 4) (Reply.bare .badArg))
    ∧ (∀ st b, st ≤ 23 → s.bath? st = some b →
      Answers (.readBath st) s .p0 (s.opened .p0 3) ⟨.ok, bathPayload s st b⟩ ∧ (bathPayload s st b).length = 57)
    ∧ (∀ f, (f ≤ 33 → Answers (.readMoves f) s .p0 (s.opened .p0 3) ⟨.ok, movesPayload s f⟩
      ∧ (movesPayload s f).length = 3 + (if f < s.walkOrder.length then 45 else 0))
      ∧ (33 < f → Answers (.readMoves f) s .p0 (s.opened .p0 3) (Reply.bare .badArg)))
    ∧ (∀ g : GantryId, Answers (.readGantry (gantryCode g)) s .p0 (s.opened .p0 3) ⟨.ok, gantryPayload s g⟩
      ∧ (gantryPayload s g).length = 38)
    ∧ (∀ c, (c ≤ 7 → Answers (.readChannel c) s .p0 (s.opened .p0 3) ⟨.ok, channelPayload s (s.channel c)⟩
      ∧ (channelPayload s (s.channel c)).length = 39)
      ∧ (7 < c → Answers (.readChannel c) s .p0 (s.opened .p0 3) (Reply.bare .badArg)))
    ∧ Answers .readLine s .p0 (s.opened .p0 2) ⟨.ok, linePayload s⟩ ∧ (linePayload s).length = 48

/-- R179: a request session that ends in WORKING, whatever request it carries, well framed or not, is ignored and sets
BUSY-REFUSED; the reply in progress is not disturbed. The field with the bytes shifted out is log 2 (DESIGN CHOICE of the
model). -/
def Obligations.WorkingPortIgnoresRequests : Prop :=
  (∀ (i : Instr) (p : PortId) (c : Nat) (l : List Byte) (s : State), encodeRequest i = some (p, c, l) →
    (s.port p).working = true →
    exec i s = .next (s.modPort p (fun q =>
      { q with busyRefused := true, shifted := List.replicate (2 + l.length) 0xFF#8 })))
  ∧ (∀ (p : PortId) (n : Nat) (s : State), (s.port p).working = true →
    exec (.busyRefused p n) s = .next (s.modPort p (fun q =>
      { q with busyRefused := true, shifted := List.replicate n 0xFF#8 })))
  ∧ (∀ (p : PortId) (bytes : List Byte) (extra : Nat) (s : State), (s.port p).working = true →
    ((∃ f, decodeSession p bytes extra = .refused f) ∨ ∃ i, decodeSession p bytes extra = .request i) →
    exec (.unknownRequest p bytes extra) s = .next (s.modPort p (fun q =>
      { q with busyRefused := true, shifted := List.replicate bytes.length 0xFF#8 })))

/-- R178, R179, R181 to R183, R186: the reply enters the holder behind its status byte, whose top bit is BUSY-REFUSED, and
the flag is cleared; a read session in HELD shifts the frame out, FFh after it, and empties the holder; in EMPTY and
WORKING it clocks out FFh and has no other effect. RDY is driven low in WORKING, ATN while the queue is not empty. The
field with the bytes shifted out is log 2, and that the holder is the one of the session's end log 37 (DESIGN CHOICES of the
model). -/
def Obligations.ReplyHolderIsFilledAndRead : Prop :=
  (∀ (p : PortId) (r : Reply) (s : State), (s.port p).holder = .working r →
    exec (.replyReady p) s = .next (s.modPort p (fun q => { q with
      holder := .held (BitVec.ofNat 8 (r.status.code + (if (s.port p).busyRefused then 128 else 0))
        :: BitVec.ofNat 8 r.payload.length :: r.payload),
      busyRefused := false })))
  ∧ (∀ (p : PortId) (n : Nat) (s : State), 1 ≤ n →
    (∀ frame, (s.port p).holder = .held frame →
      exec (.readSession p n) s = .next (s.modPort p (fun q =>
        { q with holder := .empty, shifted := (frame ++ List.replicate n 0xFF#8).take n })))
    ∧ ((∀ frame, (s.port p).holder ≠ .held frame) →
      exec (.readSession p n) s = .next (s.modPort p (fun q => { q with shifted := List.replicate n 0xFF#8 }))))
  ∧ (∀ q : Port, (q.rdyHigh = false ↔ ∃ r, q.holder = .working r) ∧ (q.atnLow = true ↔ q.queue ≠ []))

/-- R178, R180, R184, R192: the checks of a request session in their order, the first that fails naming the refusal; and frames
written out from the layouts, which carry the requests they stand for. -/
def Obligations.FrameChecksAndWrittenFrames : Prop :=
  (∀ (p : PortId) (c : Byte) (rest : List Byte) (extra : Nat), c ≠ 0 →
     (rest = [] → decodeSession p (c :: rest) extra = .refused .badLength)
     ∧ ∀ (n : Byte) (payload : List Byte), rest = n :: payload →
       ((extra ≠ 0 ∨ payload.length ≠ n.toNat ∨ 60 < n.toNat) → decodeSession p (c :: rest) extra = .refused .badLength)
       ∧ (extra = 0 → payload.length = n.toNat → n.toNat ≤ 60 →
         (knownCode c.toNat = false → decodeSession p (c :: rest) extra = .refused .unknown)
         ∧ (knownCode c.toNat = true → permitted p c.toNat = false → decodeSession p (c :: rest) extra = .refused .wrongPort)
         ∧ (knownCode c.toNat = true → permitted p c.toNat = true → parsePayload p c.toNat payload = none →
           decodeSession p (c :: rest) extra = .refused .badLength)))
  ∧ (decodeSession .p0 [0x26#8, 0x01#8, 0x11#8] 0 = .request (.readHanger 17)
   ∧ decodeSession .p0 [0x01#8, 0x0A#8, 0x02#8, 0x01#8, 0x01#8, 0x80#8, 0x02#8, 0x04#8, 0x96#8, 0x00#8, 0x01#8, 0x01#8] 0
       = .request (.setStation 2 1 1 640 4 150 1 1)
   ∧ decodeSession .p0 [0x31#8, 0x03#8, 0x01#8, 0x30#8, 0xF8#8] 0 = .request (.bathReport 1 (-2000))
   ∧ decodeSession .p0 [0x54#8, 0x04#8, 0x10#8, 0xA4#8, 0x00#8, 0x00#8] 0 = .request (.holdAt 42000#32)
   ∧ decodeSession .p1 [0x66#8, 0x03#8, 0x0C#8, 0xA4#8, 0x01#8] 0 = .request (.abandon .a 12 420)
   ∧ decodeSession .p2 [0x67#8, 0x03#8, 0x01#8, 0x13#8, 0x07#8] 0 = .request (.fault .b 1 19 7)
   ∧ decodeSession .p2 [0x7F#8, 0x00#8] 0 = .request (.ident .p2))

/-- R178 to R180: what a session does on a free port: nothing without a whole byte, a read session after 00h, the request it
carries when its frame is valid, and a request session that fails a check is answered with its refusal and changes nothing
else. That raw bytes which form a read session or a valid frame are taken as that is log 6 (DESIGN CHOICE of the model). -/
def Obligations.RawSessionsAreTakenByWhatTheyCarry : Prop :=
  ∀ (p : PortId) (bytes : List Byte) (extra : Nat) (s : State), PortFree s p →
    (decodeSession p bytes extra = .nothing → exec (.unknownRequest p bytes extra) s = .next s)
    ∧ (∀ n, decodeSession p bytes extra = .read n → exec (.unknownRequest p bytes extra) s = exec (.readSession p n) s)
    ∧ (∀ i, decodeSession p bytes extra = .request i → exec (.unknownRequest p bytes extra) s = exec i s)
    ∧ (decodeSession p bytes extra = .refused .badLength →
      Answers (.unknownRequest p bytes extra) s p (s.opened p bytes.length) (Reply.bare .badLength))
    ∧ (decodeSession p bytes extra = .refused .unknown →
      Answers (.unknownRequest p bytes extra) s p (s.opened p bytes.length) (Reply.bare .unknown))
    ∧ (decodeSession p bytes extra = .refused .wrongPort →
      Answers (.unknownRequest p bytes extra) s p (s.opened p bytes.length) (Reply.bare .wrongPort))

/-- R178, R184, R192, all requests: the frame of every well-formed request, sent on its port, carries that request. -/
def Obligations.EveryRequestFrameDecodes : Prop :=
  ∀ (i : Instr) (p : PortId) (c : Nat) (l : List Byte), i.wf = true → encodeRequest i = some (p, c, l) →
    decodeSession p (requestFrame c l) 0 = .request i

/-! ### Notices, masks and ALARM -/

/-- R186 to R190: a notice that is not masked joins a queue of fewer than 16; at a full queue a maskable one is dropped and a
non-maskable one takes the place of the oldest maskable notice, or of the oldest where none is maskable, and OVERFLOW is
set. On port 0 such a displacement tests ALARM in the same event.
GET-NOTICE takes the oldest notice and clears OVERFLOW; on port 0 the removal of a non-maskable notice tests ALARM.
SET-MASK refuses a bit that names no kind of the port, does not store bits 7 and 8 on port 0, and answers with the mask as
stored; notices already queued stay. SET-ALARM stores the delay, at most 6000, and tests ALARM against it; ALARM-ASSERT
asserts the output when a non-maskable supervisor notice is older than the delay. -/
def Obligations.NoticeQueuesMasksAndAlarm : Prop :=
  ((∀ (q : Port) (n : Notice),
     (q.masks n.kind = true → q.push n = q)
     ∧ (q.masks n.kind = false → q.queue.length < 16 → q.push n = { q with queue := q.queue ++ [n] })
     ∧ (q.masks n.kind = false → q.queue.length = 16 → n.kind.maskable = true → q.push n = { q with overflow := true })
     ∧ (q.masks n.kind = false → q.queue.length = 16 → n.kind.maskable = false →
       ∃ l x r, q.queue = l ++ x :: r ∧ q.push n = { q with queue := l ++ r ++ [n], overflow := true }
         ∧ ((x.kind.maskable = true ∧ ∀ y ∈ l, y.kind.maskable = false)
           ∨ (l = [] ∧ ∀ y ∈ q.queue, y.kind.maskable = false))))
   ∧ (∀ (n : Notice) (s : State),
     (∀ p : PortId, p ≠ .p0 → s.post p n = s.modPort p (fun q => q.push n))
     ∧ ((n.kind.maskable = true ∨ s.port0.queue.length < 16) → s.post .p0 n = { s with port0 := s.port0.push n })
     ∧ (s.port0.masks n.kind = false → 16 ≤ s.port0.queue.length → n.kind.maskable = false →
       s.post .p0 n = { s with
         port0 := s.port0.push n
         alarm := (s.port0.push n).queue.any (fun x =>
           !x.kind.maskable && decide (s.alarmDelay < (s.lineTime - x.time).toNat)) }))
   ∧ (∀ (p : PortId) (s : State), PortFree s p →
     ((s.port p).queue = [] →
       Answers (.getNotice p) s p ((s.opened p 2).modPort p (fun q => { q with overflow := false }))
         { status := .none, payload := [0x00#8, if (s.port p).overflow then 0x01#8 else 0x00#8] })
     ∧ (∀ n rest, (s.port p).queue = n :: rest → (p ≠ .p0 ∨ n.kind.maskable = true) →
       Answers (.getNotice p) s p ((s.opened p 2).modPort p (fun q => { q with queue := rest, overflow := false }))
         { status := .ok, payload := [BitVec.ofNat 8 rest.length, if (s.port p).overflow then 0x01#8 else 0x00#8] ++ n.bytes })
     ∧ (∀ n rest, p = .p0 → (s.port p).queue = n :: rest → n.kind.maskable = false →
       Answers (.getNotice p) s p
         { (s.opened p 2).modPort p (fun q => { q with queue := rest, overflow := false }) with
             alarm := rest.any (fun m => !m.kind.maskable && decide (s.alarmDelay < (s.lineTime - m.time).toNat)) }
         { status := .ok, payload := [BitVec.ofNat 8 rest.length, if (s.port p).overflow then 0x01#8 else 0x00#8] ++ n.bytes })))
  ∧ (((∀ (m : BitVec 16) (s : State), PortFree s .p0 →
     (m.toNat < 8192 → ∃ st, (st = if m &&& 0x0180#16 = 0#16 then Status.ok else .clamped)
       ∧ Answers (.setMask .p0 m) s .p0 ((s.opened .p0 4).modPort .p0 (fun q => { q with mask := m &&& ~~~0x0180#16 }))
         { status := st, payload := bytes2 (m &&& ~~~0x0180#16).toNat })
     ∧ (8192 ≤ m.toNat → Answers (.setMask .p0 m) s .p0 (s.opened .p0 4) (Reply.bare .badArg)))
   ∧ (∀ (p : PortId) (m : BitVec 16) (s : State), p ≠ .p0 → PortFree s p →
     (m.toNat < 4 → Answers (.setMask p m) s p ((s.opened p 4).modPort p (fun q => { q with mask := m }))
         { status := .ok, payload := bytes2 m.toNat })
     ∧ (4 ≤ m.toNat → Answers (.setMask p m) s p (s.opened p 4) (Reply.bare .badArg))))
   ∧ ((∀ (d : Nat) (s : State), PortFree s .p0 →
     Answers (.setAlarm d) s .p0
       { s.opened .p0 4 with
           alarmDelay := min d 6000
           alarm := s.port0.queue.any (fun n => !n.kind.maskable && decide (min d 6000 < (s.lineTime - n.time).toNat)) }
       (Reply.bare (if d ≤ 6000 then .ok else .clamped)))
   ∧ (∀ s : State, (∃ n ∈ s.port0.queue, n.kind.maskable = false ∧ s.alarmDelay < (s.lineTime - n.time).toNat) →
     exec .alarmAssert s = .next { s with alarm := true })))

/-! ### Stations and slots -/

/-- R7 to R10, R82, R83, R89, R100, R160, R161: the tests of SET-STATION in their order; a write that passes them replaces the seven
written fields, keeps the gas channel and the slots below the new slot count, and makes the bath record active, with its
activation values, or inactive as R10 says, which ends the trip's hold of the station's gas channel. Every other station and
everything else stays. The line time of the activation is log 24
(DEDUCED by the model). -/
def Obligations.SetStationTestsThenWrites : Prop :=
  ∀ (st : Nat) (s : State), PortFree s .p0 →
    (∀ cls grp x n a sv rl,
      (23 < st → Answers (.setStation st cls grp x n a sv rl) s .p0 (s.opened .p0 12) (Reply.bare .badArg))
      ∧ (st ≤ 23 → (s.mode ≠ .idle ∨ s.hangers ≠ []) →
        Answers (.setStation st cls grp x n a sv rl) s .p0 (s.opened .p0 12) (Reply.bare .notNow))
      ∧ (st ≤ 23 → s.mode = .idle → s.hangers = [] →
        (∃ l, (s.station st).rescueLine = some l ∧ (s.line l).asserted = true ∧ rl ≠ l) →
        Answers (.setStation st cls grp x n a sv rl) s .p0 (s.opened .p0 12) (Reply.bare .notNow))
      ∧ (st ≤ 23 → s.mode = .idle → s.hangers = [] →
        (∀ l, (s.station st).rescueLine = some l → (s.line l).asserted = true → rl = l) →
        (4 < cls ∨ 15 < grp ∨ 4095 < x ∨ n = 0 ∨ 4 < n ∨ 1 < sv ∨ (3 < rl ∧ rl ≠ 255)) →
        Answers (.setStation st cls grp x n a sv rl) s .p0 (s.opened .p0 12) (Reply.bare .badArg)))
    ∧ (∀ (c : StationClass) (grp x n a : Nat) (sv : Bool) (rl : Option Nat),
      st ≤ 23 → s.mode = .idle → s.hangers = [] →
      (∀ l, (s.station st).rescueLine = some l → (s.line l).asserted = true → rl = some l) →
      grp ≤ 15 → x ≤ 4095 → 1 ≤ n → n ≤ 4 → (∀ l, rl = some l → l ≤ 3) →
      (¬ MapAgrees s st c grp x sv rl →
        Answers (.setStation st c.code grp x n a (if sv then 1 else 0) (rl.getD 255)) s .p0 (s.opened .p0 12)
          (Reply.bare .badArg))
      ∧ (MapAgrees s st c grp x sv rl → ∃ t u : State,
        t = { s.opened .p0 12 with
                stations := s.stations.setIfInBounds st
                  { configured := true, cls := c, group := grp, coordinate := x, slotCount := n,
                    allowance := if c = .load ∨ c = .unload then 0 else min a 600, supervised := sv, rescueLine := rl,
                    gasChannel := (s.station st).gasChannel,
                    slots := Vector.ofFn (fun i : Fin 4 => if i.val < n then (s.station st).slot i.val else .free) } }
        ∧ ((s.bath? st).isSome = sv → u = t)
        ∧ (s.bath? st = none → sv = true →
          u = { t with
                  baths := s.baths.setIfInBounds st (some
                    { settings := { tset := 2000, band := 50, trip := 500, settle := 600, stale := 3000, slew := 0, gain := 0,
                                    shift := 0, dmax := 0, rmin := 64, rmax := 4096, quantum := 65535, exitAllowance := 300 },
                      readiness := .warming, latest := none, used := none, firstReading := true, rateHeld := false,
                      deviation := 0, rate := 1024, warmingEntry := s.lineTime, staleCompare := some (s.lineTime + 3000#32),
                      returnState := .warming, tripCause := none, area := 0, debt := 0, activation := s.lineTime })
              }.post .p0 { kind := .bathState, time := s.lineTime, tag := none, station := some st, move := none,
                           codeA := 0, codeB := 0, codeC := 0, codeD := 0 })
        ∧ ((s.bath? st).isSome = true → sv = false →
          u = { t with baths := s.baths.setIfInBounds st none, channels := u.channels } ∧ StationReleased s u st .trip)
        ∧ Answers (.setStation st c.code grp x n a (if sv then 1 else 0) (rl.getD 255)) s .p0 u
          (Reply.bare (if c = .load ∨ c = .unload ∨ a ≤ 600 then .ok else .clamped))))

/-- R11, R12, R13: the tests of CLEAR-STATION in their order; the station then is absent with every slot gone, its bath record
inactive and its trip no longer a hold of a gas channel. The replies of BLOCK and UNBLOCK, and the one slot each changes. -/
def Obligations.StationsAreClearedAndSlotsBlocked : Prop :=
  (∀ (st : Nat) (s : State), PortFree s .p0 →
     (23 < st → Answers (.clearStation st) s .p0 (s.opened .p0 3) (Reply.bare .badArg))
     ∧ (st ≤ 23 → (s.mode ≠ .idle ∨ s.hangers ≠ []) →
       Answers (.clearStation st) s .p0 (s.opened .p0 3) (Reply.bare .notNow))
     ∧ (st ≤ 23 → s.mode = .idle → s.hangers = [] → s.barRaised st = true →
       Answers (.clearStation st) s .p0 (s.opened .p0 3) (Reply.bare .notNow))
     ∧ (st ≤ 23 → s.mode = .idle → s.hangers = [] → s.barRaised st = false → (s.station st).gasChannel ≠ none →
       Answers (.clearStation st) s .p0 (s.opened .p0 3) (Reply.bare .inUse))
     ∧ (st ≤ 23 → s.mode = .idle → s.hangers = [] → s.barRaised st = false → (s.station st).gasChannel = none →
       Answers (.clearStation st) s .p0
         { s.opened .p0 3 with
             baths := s.baths.setIfInBounds st none
             stations := s.stations.setIfInBounds st
               { configured := false, cls := .load, group := 0, coordinate := 0, slotCount := 1, allowance := 0,
                 supervised := false, rescueLine := none, gasChannel := none, slots := Vector.replicate 4 .free } }
         (Reply.bare .ok)))
  ∧ (∀ (st sl : Nat) (s : State), PortFree s .p0 →
     ((23 < st ∨ 3 < sl) → Answers (.block st sl) s .p0 (s.opened .p0 4) (Reply.bare .badArg)
       ∧ Answers (.unblock st sl) s .p0 (s.opened .p0 4) (Reply.bare .badArg))
     ∧ (st ≤ 23 → sl ≤ 3 → ((s.station st).configured = false ∨ (s.station st).slotCount ≤ sl) →
       Answers (.block st sl) s .p0 (s.opened .p0 4) (Reply.bare .noSuch)
       ∧ Answers (.unblock st sl) s .p0 (s.opened .p0 4) (Reply.bare .noSuch))
     ∧ (st ≤ 23 → sl ≤ 3 → (s.station st).configured = true → sl < (s.station st).slotCount →
       ((s.station st).slot sl = .free →
         Answers (.block st sl) s .p0
           { s.opened .p0 4 with
               stations := s.stations.setIfInBounds st
                 { s.station st with slots := (s.station st).slots.setIfInBounds sl .blocked } } (Reply.bare .ok)
         ∧ Answers (.unblock st sl) s .p0 (s.opened .p0 4) (Reply.bare .ok))
       ∧ ((s.station st).slot sl = .blocked →
         Answers (.block st sl) s .p0 (s.opened .p0 4) (Reply.bare .ok)
         ∧ Answers (.unblock st sl) s .p0
           { s.opened .p0 4 with
               stations := s.stations.setIfInBounds st
                 { s.station st with slots := (s.station st).slots.setIfInBounds sl .free } } (Reply.bare .ok))
       ∧ (∀ tag k, ((s.station st).slot sl = .occupied tag ∨ (s.station st).slot sl = .reserved tag k) →
         Answers (.block st sl) s .p0 (s.opened .p0 4) (Reply.bare .inUse)
         ∧ Answers (.unblock st sl) s .p0 (s.opened .p0 4) (Reply.bare .notNow))))

/-! ### Recipes -/

/-- R21, R22, R23, R25, R30: DRAFT-RECIPE opens a new draft with no steps received; each step DRAFT-STEPS carries replaces what
the draft held at its position; DISCARD-STAGED drops a staged version. The tests of WRITE-RECIPE in their order; a BAD-RECIPE
refusal stores its step and reason as the last fault and keeps the draft; a draft that passes becomes the active version at
use count 0 and the staged version above it. -/
def Obligations.DraftsAreFilledWrittenAndDiscarded : Prop :=
  ((∀ (r n : Nat) (s : State), PortFree s .p0 →
     ((15 < r ∨ n < 1 ∨ 12 < n) → Answers (.draftRecipe r n) s .p0 (s.opened .p0 4) (Reply.bare .badArg))
     ∧ (r ≤ 15 → 1 ≤ n → n ≤ 12 →
       Answers (.draftRecipe r n) s .p0 { s.opened .p0 4 with draft := some { recipe := r, steps := List.replicate n none } }
         (Reply.bare .ok))
     ∧ (15 < r → Answers (.discardStaged r) s .p0 (s.opened .p0 3) (Reply.bare .badArg))
     ∧ (r ≤ 15 → (s.recipe r).staged = none → Answers (.discardStaged r) s .p0 (s.opened .p0 3) (Reply.bare .notNow))
     ∧ (r ≤ 15 → (s.recipe r).staged ≠ none →
       Answers (.discardStaged r) s .p0
         { s.opened .p0 3 with recipes := s.recipes.setIfInBounds r { s.recipe r with staged := none } } (Reply.bare .ok)))
   ∧ (∀ (r first : Nat) (steps : List RawStep) (s : State), PortFree s .p0 →
     ((∀ d, s.draft = some d → d.recipe ≠ r) →
       Answers (.draftSteps r first steps) s .p0 (s.opened .p0 (4 + 11 * steps.length)) (Reply.bare .notNow))
     ∧ (∀ d, s.draft = some d → d.recipe = r →
       ((d.steps.length < first + steps.length ∨ ∃ k ∈ steps, 15 < k.group) →
         Answers (.draftSteps r first steps) s .p0 (s.opened .p0 (4 + 11 * steps.length)) (Reply.bare .badArg))
       ∧ (first + steps.length ≤ d.steps.length → (∀ k ∈ steps, k.group ≤ 15) → ∃ l,
         Answers (.draftSteps r first steps) s .p0
           { s.opened .p0 (4 + 11 * steps.length) with draft := some { recipe := r, steps := l } } (Reply.bare .ok)
         ∧ l.length = d.steps.length
         ∧ ∀ i, l[i]? = if first ≤ i ∧ i < first + steps.length then (steps[i - first]?).map some else d.steps[i]?))))
  ∧ (∀ (r : Nat) (s : State), PortFree s .p0 →
     (15 < r → Answers (.writeRecipe r) s .p0 (s.opened .p0 3) (Reply.bare .badArg))
     ∧ (r ≤ 15 → (∀ d, s.draft = some d → d.recipe ≠ r) →
       Answers (.writeRecipe r) s .p0 (s.opened .p0 3) (Reply.bare .notNow))
     ∧ (∀ d, r ≤ 15 → s.draft = some d → d.recipe = r →
       (∀ i, d.steps[i]? = some none → (∀ j < i, d.steps[j]? ≠ some none) →
         Answers (.writeRecipe r) s .p0
           { s.opened .p0 3 with recipes := s.recipes.setIfInBounds r { s.recipe r with lastFault := some (i, .incomplete) } }
           { status := .badRecipe, payload := [BitVec.ofNat 8 i, 0x00#8] })
       ∧ (∀ steps : List RawStep, d.steps = steps.map some →
         (∀ i reason, s.versionFault false (steps.map s.stepOf) = some (i, reason) →
           Answers (.writeRecipe r) s .p0
             { s.opened .p0 3 with recipes := s.recipes.setIfInBounds r { s.recipe r with lastFault := some (i, reason) } }
             { status := .badRecipe, payload := [BitVec.ofNat 8 i, BitVec.ofNat 8 reason.code] })
         ∧ (s.versionFault false (steps.map s.stepOf) = none → (s.recipe r).useCount = 0 →
           Answers (.writeRecipe r) s .p0
             { s.opened .p0 3 with
                 draft := none
                 recipes := s.recipes.setIfInBounds r
                   { s.recipe r with active := steps.map s.stepOf, valid := true, lastFault := none } }
             (Reply.bare .ok))
         ∧ (s.versionFault false (steps.map s.stepOf) = none → 0 < (s.recipe r).useCount →
           Answers (.writeRecipe r) s .p0
             { s.opened .p0 3 with
                 draft := none
                 recipes := s.recipes.setIfInBounds r { s.recipe r with staged := some (steps.map s.stepOf) } }
             (Reply.bare .staged)))))

/-- R24: a version is checked from step 0 upward, in each step by the checks in their order, and the line check last; the
first that fails gives the step index and the reason. -/
def Obligations.ValidationNamesTheFirstFault : Prop :=
  ∀ (s : State) (again : Bool) (v : List RecipeStep),
    (∀ prev k, s.stepFault again prev k =
      (match s.groupClass k.group with
        | none => some .emptyGroup
        | some c =>
          if c = .load ∨ c = .unload then some .notAStep
          else if again = true ∧ k.cls ≠ c then some .classChanged
          else if k.inRange = false then some .range
          else if k.cls = .strict ∧ prev = some k.group then some .strictRepeat
          else none))
    ∧ (∀ i k r, v[i]? = some k → s.stepFault again (if i = 0 then none else (v[i - 1]?).map RecipeStep.group) k = some r →
      (∀ j < i, ∀ m, v[j]? = some m → s.stepFault again (if j = 0 then none else (v[j - 1]?).map RecipeStep.group) m = none) →
      s.versionFault again v = some (i, r))
    ∧ ((∀ i k, v[i]? = some k →
        s.stepFault again (if i = 0 then none else (v[i - 1]?).map RecipeStep.group) k = none) →
      ((∃ st, st ≤ 23 ∧ (s.station st).configured = true ∧ (s.station st).cls = .unload) → s.versionFault again v = none)
      ∧ ((¬ ∃ st, st ≤ 23 ∧ (s.station st).configured = true ∧ (s.station st).cls = .unload) →
        s.versionFault again v = some (0, .noUnload)))

/-! ### Hangers -/

/-- R46, R53, R54, R57, R58, R80, R82, R84 to R86, R94, R95, R98, R99, R129, R135, R136, R149: a request that names a tag, a
bath or a gantry tests the name first, and a refusal changes nothing. -/
def Obligations.NamesAreTestedFirst : Prop :=
  (∀ (tag : Nat) (i : Instr) (s : State), PortFree s .p0 →
    (i = .abortHanger tag ∨ i = .resumeHanger tag ∨ i = .restartHanger tag ∨ i = .readHanger tag ∨ i = .readTiming tag) →
    ((tag = 0 ∨ 255 < tag) → Answers i s .p0 (s.opened .p0 3) (Reply.bare .badArg))
    ∧ (1 ≤ tag → tag ≤ 255 → s.hanger? tag = none → Answers i s .p0 (s.opened .p0 3) (Reply.bare .noSuch)))
  ∧ (∀ (tag first : Nat) (s : State), PortFree s .p0 → first ≤ 12 →
    ((tag = 0 ∨ 255 < tag) → Answers (.readRun tag first) s .p0 (s.opened .p0 4) (Reply.bare .badArg))
    ∧ (1 ≤ tag → tag ≤ 255 → s.hanger? tag = none →
      Answers (.readRun tag first) s .p0 (s.opened .p0 4) (Reply.bare .noSuch)))
  ∧ (∀ (st : Nat) (i : Instr) (n : Nat) (s : State), PortFree s .p0 →
    ((n = 3 ∧ (i = .bathTrip st ∨ i = .bathClear st ∨ i = .replenished st ∨ i = .readBath st))
      ∨ (n = 5 ∧ ∃ z, i = .bathReport st z) ∨ (n = 28 ∧ ∃ b, i = .setBath st b)) →
    (23 < st → Answers i s .p0 (s.opened .p0 n) (Reply.bare .badArg))
    ∧ (st ≤ 23 → s.bath? st = none → Answers i s .p0 (s.opened .p0 n) (Reply.bare .noSuch)))
  ∧ (∀ (g : Nat) (i : Instr) (n : Nat) (s : State), PortFree s .p0 → 1 < g →
    ((n = 3 ∧ (i = .gantryPause g ∨ i = .gantryResume g ∨ i = .gantryReset g ∨ i = .readGantry g))
      ∨ (n = 10 ∧ ∃ lo hi h p m, i = .setGantry g lo hi h p m)) →
    Answers i s .p0 (s.opened .p0 n) (Reply.bare .badArg))

/-- R43, R103, R105, R110, R155: the tests of ADMIT in their order; a request that passes creates the record, occupies the
slot, appends the hanger to the start order and creates its ENTRY move READY, with its WORK notices. A created move takes
the first identifier, counting upward from the counter and wrapping, that no move holds. That the new record stands last
in the hanger table is log 16, and the entry time and the other fields of its blank immersion log 30 (DESIGN CHOICES of the
model). -/
def Obligations.AdmitCreatesAHangerAndItsMove : Prop :=
  (∀ (tag r sc ar st sl : Nat) (s : State), PortFree s .p0 →
    ((tag = 0 ∨ 255 < tag ∨ 15 < r ∨ 23 < st ∨ 3 < sl) →
      Answers (.admitHanger tag r sc ar st sl) s .p0 (s.opened .p0 10) (Reply.bare .badArg))
    ∧ (1 ≤ tag → tag ≤ 255 → r ≤ 15 → st ≤ 23 → sl ≤ 3 →
      (((s.station st).configured = false ∨ (s.station st).cls ≠ .load ∨ (s.station st).slotCount ≤ sl) →
        Answers (.admitHanger tag r sc ar st sl) s .p0 (s.opened .p0 10) (Reply.bare .badArg))
      ∧ ((s.station st).configured = true → (s.station st).cls = .load → sl < (s.station st).slotCount →
        ((s.hanger? tag ≠ none ∨ s.slotAt ⟨st, sl⟩ ≠ .free) →
          Answers (.admitHanger tag r sc ar st sl) s .p0 (s.opened .p0 10) (Reply.bare .inUse))
        ∧ (s.hanger? tag = none → s.slotAt ⟨st, sl⟩ = .free → 32 ≤ s.hangers.length →
          Answers (.admitHanger tag r sc ar st sl) s .p0 (s.opened .p0 10) (Reply.bare .full))
        ∧ (s.hanger? tag = none → s.slotAt ⟨st, sl⟩ = .free → s.hangers.length < 32 → ∃ (t : State) (x : Move),
          Answers (.admitHanger tag r sc ar st sl) s .p0 t (Reply.bare (if 500 ≤ sc ∧ sc ≤ 2000 then .ok else .clamped))
          ∧ t.hangers = s.hangers ++
              [{ tag := tag, seq := s.admissions, recipe := r, bound := false, scale := max 500 (min sc 2000), area := ar,
                 state := .loaded, phase := none, step := 0, location := .slot ⟨st, sl⟩, forward := none,
                 pendingAbort := false, restCause := none, imm := Immersion.blank, run := [], dropped := 0 }]
          ∧ t.startOrder = s.startOrder ++ [tag] ∧ t.admissions = s.admissions + 1
          ∧ x = { id := s.freshId, kind := .entry, tag := some tag, seq := some s.admissions, source := .slot ⟨st, sl⟩,
                  dest := none, ready := s.lineTime, due := none, deadline := none, drip := 0, state := .ready,
                  gantry := none, grantTime := none, estimate := none, limit := none, blocked := none }
          ∧ t.moves = s.moves ++ [x] ∧ WorkPosted s t x ∧ t.port0 = (s.opened .p0 10).port0
          ∧ t.moveCounter = (s.freshId + 1) % 256
          ∧ t.slotAt ⟨st, sl⟩ = .occupied tag ∧ KeepsOtherSlots s t ⟨st, sl⟩ ∧ KeepsStationFields s t
          ∧ KeepsSettings s t ∧ OccupancyTold s t st
          ∧ t.recipes = s.recipes ∧ t.baths = s.baths ∧ t.gantryA = s.gantryA ∧ t.gantryB = s.gantryB ∧ t.lines = s.lines
          ∧ t.alarm = s.alarm))))
  ∧ (∀ s : State, s.moves.length < 256 →
    (∀ m ∈ s.moves, m.id ≠ s.freshId)
    ∧ ∃ k < 256, s.freshId = (s.moveCounter + k) % 256 ∧ ∀ j < k, ∃ m ∈ s.moves, m.id = (s.moveCounter + j) % 256)

/-- R46 to R50, R40, R110: ABORT-HANGER of a hanger whose pending abort is not set, by its state, with the CONDITION and WORK
notices it posts. That a move which is an ABORT move already keeps its times is log 10 (DEDUCED by the model). -/
def Obligations.AbortIsTakenByTheState : Prop :=
  ∀ (tag : Nat) (h : Hanger) (s : State), PortFree s .p0 → 1 ≤ tag → tag ≤ 255 → s.hanger? tag = some h →
    (h.pendingAbort = true → Answers (.abortHanger tag) s .p0 (s.opened .p0 3) (Reply.bare .acceptedPending))
    ∧ (h.pendingAbort = false →
      ((h.state = .stranded ∨ h.state = .done ∨ h.state = .aborted) →
        Answers (.abortHanger tag) s .p0 (s.opened .p0 3) (Reply.bare .notNow))
      ∧ ((h.state = .inTransit
          ∨ (h.state = .rescued ∧ ∃ m, s.hangerMove? tag = some m ∧ (m.state = .granted ∨ m.state = .carried))) →
        Answers (.abortHanger tag) s .p0
          { s.opened .p0 3 with hangers := s.hangers.map (fun x => if x.tag = tag then { x with pendingAbort := true } else x) }
          (Reply.bare .acceptedPending))
      ∧ (h.state = .loaded → ∃ t, Answers (.abortHanger tag) s .p0 t (Reply.bare .ok)
        ∧ t.hanger? tag = some { h with state := .aborted, phase := none, restCause := some .unstarted, forward := none }
        ∧ t.startOrder = s.startOrder.filter (fun x => x != tag)
        ∧ (∀ m, s.hangerMove? tag = some m → t.moves = (s.removeMove m.id).moves)
        ∧ (s.hangerMove? tag = none → t.moves = s.moves)
        ∧ (∀ ref, t.slotAt ref = if (s.slotAt ref).reservedFor tag = true then .free else s.slotAt ref)
        ∧ KeepsStationFields s t ∧ KeepsSettings s t ∧ KeepsOtherHangers s t tag ∧ t.port0 = (s.opened .p0 3).port0
        ∧ t.port1 = s.port1 ∧ t.port2 = s.port2 ∧ t.recipes = s.recipes ∧ t.baths = s.baths ∧ t.gantryA = s.gantryA
        ∧ t.gantryB = s.gantryB ∧ t.channels = s.channels ∧ t.lines = s.lines ∧ t.alarm = s.alarm)
      ∧ (∀ r, h.state = .immersed → h.location = .slot r → (s.station r.station).cls ≠ .strict → ∃ t,
        Answers (.abortHanger tag) s .p0 t (Reply.bare .ok)
        ∧ t.hanger? tag = some { h with state := .aborted, phase := none, restCause := some .inStep, forward := none,
                                        imm := { h.imm with counting := false }, run := closedRun h s.lineTime .aborted }
        ∧ (∀ m, s.hangerMove? tag = some m → t.moves = (s.removeMove m.id).moves)
        ∧ (s.hangerMove? tag = none → t.moves = s.moves)
        ∧ (∀ ref, t.slotAt ref = if (s.slotAt ref).reservedFor tag = true then .free else s.slotAt ref)
        ∧ KeepsStationFields s t ∧ KeepsSettings s t ∧ KeepsOtherHangers s t tag ∧ t.startOrder = s.startOrder
        ∧ t.port0 = closedPort (s.opened .p0 3).port0 h s.lineTime .aborted
        ∧ t.port1 = s.port1 ∧ t.port2 = s.port2 ∧ t.recipes = s.recipes ∧ t.baths = s.baths ∧ t.gantryA = s.gantryA
        ∧ t.gantryB = s.gantryB ∧ t.channels = s.channels ∧ t.lines = s.lines)
      ∧ (((∃ r, h.state = .immersed ∧ h.location = .slot r ∧ (s.station r.station).cls = .strict)
          ∨ (h.state = .rescued ∧ ∀ m, s.hangerMove? tag = some m → m.state ≠ .granted ∧ m.state ≠ .carried)) → ∃ t,
        Answers (.abortHanger tag) s .p0 t (Reply.bare .ok)
        ∧ t.hanger? tag = some { h with pendingAbort := true, imm := { h.imm with counting := false },
                                        run := closedRun h s.lineTime .aborted }
        ∧ (∀ m, s.hangerMove? tag = some m →
          t.move? m.id = (s.move? m.id).map (fun x => if x.kind = .abort then { x with state := .ready }
            else { x with kind := .abort, due := none, ready := s.lineTime, deadline := some s.lineTime, state := .ready })
          ∧ KeepsOtherMoves s t m.id ∧ (s.move? m.id = some m → WorkPosted s t m))
        ∧ (s.hangerMove? tag = none → t.moves = s.moves)
        ∧ t.port0 = closedPort (s.opened .p0 3).port0 h s.lineTime .aborted
        ∧ t.stations = s.stations ∧ KeepsSettings s t ∧ KeepsOtherHangers s t tag ∧ t.startOrder = s.startOrder
        ∧ t.recipes = s.recipes ∧ t.baths = s.baths ∧ t.gantryA = s.gantryA ∧ t.gantryB = s.gantryB
        ∧ t.channels = s.channels ∧ t.lines = s.lines))

/-- R53, R44, R110: RESUME-HANGER by its rest cause: refused, resumed in place, or begun afresh, in a STRICT station with the
forward slot chosen for it; a step that begins or resumes posts STEP, and its move, created READY, WORK. The fields of
another class in the immersion are log 9 (DEDUCED by the model); that a RECOVERED hanger in a station of both groups begins the
target step is log 36 (DESIGN CHOICE of the model). -/
def Obligations.ResumeIsTakenByTheRestCause : Prop :=
  ∀ (tag : Nat) (h : Hanger) (s : State), PortFree s .p0 → 1 ≤ tag → tag ≤ 255 → s.hanger? tag = some h →
    ((h.state ≠ .aborted ∨ h.bound = false ∨ (∃ g, h.location = .gantry g) ∨ h.restCause = some .unstarted
        ∨ h.restCause = some .exit) →
      Answers (.resumeHanger tag) s .p0 (s.opened .p0 3) (Reply.bare .notNow))
    ∧ (∀ r, h.state = .aborted → h.bound = true → h.location = .slot r →
      (h.restCause = some .inStep → ∃ t h' x, Answers (.resumeHanger tag) s .p0 t (Reply.bare .ok)
        ∧ t.hanger? tag = some h' ∧ h'.state = .immersed ∧ h'.restCause = none ∧ h'.step = h.step ∧ h'.location = h.location
        ∧ h'.imm = { h.imm with counting := true, entryTime := s.lineTime - BitVec.ofNat 32 h.imm.elapsed }
        ∧ (∀ e, h.run.getLast? = some e → h'.run = h.run.dropLast ++
            [{ e with endTime := none, actual := none, reference := none, condition := none,
                      notes := { e.notes with resumed := true
                                              uncompensated := e.notes.uncompensated || s.bathStale r.station } }])
        ∧ t.moves = s.moves ++ [x] ∧ x.id = s.freshId ∧ x.tag = some tag ∧ x.seq = some h.seq ∧ x.source = .slot r
        ∧ x.dest = (if (s.station r.station).cls = .strict then h.forward.map Place.slot else none)
        ∧ x.drip = s.stepDrip h.recipe h.step
        ∧ x.kind = (if h.step + 1 < (s.recipe h.recipe).active.length then .step else .exit)
        ∧ x = { x.timed h'.imm s.lineTime (s.station r.station).allowance with
                  state := if reached s.lineTime x.ready then .ready else .waiting }
        ∧ MadeKnown s t x
        ∧ t.port0 = (s.opened .p0 3).port0.push (plainNotice .step s.lineTime (some tag) (some r.station) h.step)
        ∧ t.stations = s.stations ∧ KeepsSettings s t ∧ KeepsOtherHangers s t tag ∧ t.startOrder = s.startOrder
        ∧ t.recipes = s.recipes ∧ t.baths = s.baths ∧ t.gantryA = s.gantryA ∧ t.gantryB = s.gantryB
        ∧ t.channels = s.channels ∧ t.lines = s.lines)
      ∧ (h.restCause = some .abortMove → ((s.station r.station).cls = .unload ∨ (s.station r.station).cls = .load) →
        Answers (.resumeHanger tag) s .p0 (s.opened .p0 3) (Reply.bare .notNow))
      ∧ (h.restCause = some .recovered → s.recoveredStep h r.station = none →
        Answers (.resumeHanger tag) s .p0 (s.opened .p0 3) (Reply.bare .notNow))
      ∧ (∀ k f, s.recipeStep? h.recipe k = some f →
        ((h.restCause = some .abortMove ∧ k = h.step ∧ (s.station r.station).cls ≠ .unload ∧ (s.station r.station).cls ≠ .load)
          ∨ (h.restCause = some .recovered ∧ s.recoveredStep h r.station = some k)) →
        ((s.station r.station).cls ≠ .strict → ∃ t, Answers (.resumeHanger tag) s .p0 t (Reply.bare .ok)
          ∧ StepBegun (s.opened .p0 3) t h k f r h.forward ∧ t.stations = s.stations ∧ KeepsSettings s t ∧ KeepsOtherHangers s t tag
          ∧ t.startOrder = s.startOrder ∧ t.recipes = s.recipes ∧ t.baths = s.baths ∧ t.gantryA = s.gantryA
          ∧ t.gantryB = s.gantryB ∧ t.channels = s.channels ∧ t.lines = s.lines)
        ∧ ((s.station r.station).cls = .strict →
          ((s.barRaised r.station = true ∨ (followingTarget (s.recipe h.recipe).active k).bind (fun x =>
              s.chooseSlot (s.jointReach r.station) x (s.station r.station).coordinate) = none) →
            Answers (.resumeHanger tag) s .p0 (s.opened .p0 3) (Reply.bare .notNow))
          ∧ (∀ d, (∀ st, (s.station st).slotCount ≤ 4) → s.barRaised r.station = false →
            (followingTarget (s.recipe h.recipe).active k).bind (fun x =>
              s.chooseSlot (s.jointReach r.station) x (s.station r.station).coordinate) = some d → ∃ t,
            Answers (.resumeHanger tag) s .p0 t (Reply.bare .ok)
            ∧ StepBegun (s.opened .p0 3) t h k f r (some d) ∧ t.slotAt d = .reserved tag .forward ∧ KeepsOtherSlots s t d
            ∧ KeepsStationFields s t ∧ KeepsSettings s t ∧ KeepsOtherHangers s t tag ∧ t.startOrder = s.startOrder
            ∧ t.recipes = s.recipes ∧ t.baths = s.baths ∧ t.gantryA = s.gantryA ∧ t.gantryB = s.gantryB
            ∧ t.channels = s.channels ∧ t.lines = s.lines))))

/-- R42, R54, R105, R110: RESTART-HANGER resets an ABORTED hanger in place, puts it back in the start order before the first
entry younger than it, and creates its ENTRY move READY, with its WORK notices. The entry time and the other fields of its
blank immersion are log 30 (DESIGN CHOICE of the model). -/
def Obligations.RestartResetsTheHanger : Prop :=
  ∀ (tag : Nat) (h : Hanger) (s : State), PortFree s .p0 → 1 ≤ tag → tag ≤ 255 → s.hanger? tag = some h →
    ((h.state ≠ .aborted ∨ (∃ g, h.location = .gantry g) ∨ s.inStrict h = true ∨ 0 < h.dropped
        ∨ (∃ e ∈ h.run, (s.station e.station).cls = .strict)) →
      Answers (.restartHanger tag) s .p0 (s.opened .p0 3) (Reply.bare .notNow))
    ∧ (∀ r, h.state = .aborted → h.location = .slot r → (s.station r.station).cls ≠ .strict → h.dropped = 0 →
      (∀ e ∈ h.run, (s.station e.station).cls ≠ .strict) → ∃ (t : State) (x : Move),
      Answers (.restartHanger tag) s .p0 t (Reply.bare .ok)
      ∧ t.hanger? tag = some { h with run := [], step := 0, imm := Immersion.blank, restCause := none, state := .loaded,
                                      phase := none }
      ∧ Rejoined s h t.startOrder
      ∧ x = { id := s.freshId, kind := .entry, tag := some tag, seq := some h.seq, source := .slot r, dest := none,
              ready := s.lineTime, due := none, deadline := none, drip := 0, state := .ready, gantry := none,
              grantTime := none, estimate := none, limit := none, blocked := none }
      ∧ t.moves = s.moves ++ [x] ∧ WorkPosted s t x ∧ t.port0 = (s.opened .p0 3).port0
      ∧ t.stations = s.stations ∧ KeepsSettings s t ∧ KeepsOtherHangers s t tag
      ∧ t.recipes = s.recipes ∧ t.baths = s.baths ∧ t.gantryA = s.gantryA ∧ t.gantryB = s.gantryB
      ∧ t.channels = s.channels ∧ t.lines = s.lines)

/-- R55, R155: RECOVER records where a STRANDED hanger was placed: the tests in their order, then the slot occupied, every
other reservation released, the STRANDED note set and the gantry's stranded hold cleared. -/
def Obligations.RecoverRestsTheStrandedHanger : Prop :=
  ∀ (tag st sl : Nat) (s : State), PortFree s .p0 →
    ((tag = 0 ∨ 255 < tag ∨ 23 < st ∨ 3 < sl) →
      Answers (.recover tag st sl) s .p0 (s.opened .p0 5) (Reply.bare .badArg))
    ∧ (1 ≤ tag → tag ≤ 255 → st ≤ 23 → sl ≤ 3 →
      ((s.hanger? tag = none ∨ (s.station st).hasSlot sl = false) →
        Answers (.recover tag st sl) s .p0 (s.opened .p0 5) (Reply.bare .noSuch))
      ∧ (∀ h, s.hanger? tag = some h → (s.station st).hasSlot sl = true →
        (h.state ≠ .stranded → Answers (.recover tag st sl) s .p0 (s.opened .p0 5) (Reply.bare .notNow))
        ∧ (h.state = .stranded → s.slotAt ⟨st, sl⟩ ≠ .free → (s.slotAt ⟨st, sl⟩).reservedFor tag = false →
          Answers (.recover tag st sl) s .p0 (s.opened .p0 5) (Reply.bare .inUse))
        ∧ (h.state = .stranded → (s.slotAt ⟨st, sl⟩ = .free ∨ (s.slotAt ⟨st, sl⟩).reservedFor tag = true) → ∃ t h',
          Answers (.recover tag st sl) s .p0 t (Reply.bare .ok)
          ∧ t.hanger? tag = some h' ∧ h'.state = .aborted ∧ h'.restCause = some .recovered ∧ h'.location = .slot ⟨st, sl⟩
          ∧ h'.forward = none ∧ h'.step = h.step ∧ h'.imm = h.imm ∧ h'.bound = h.bound
          ∧ (∀ e, h.run.getLast? = some e → h'.run = h.run.dropLast ++ [{ e with notes := { e.notes with stranded := true } }])
          ∧ (∀ ref : SlotRef, t.slotAt ref = if ref = ⟨st, sl⟩ then .occupied tag
              else if (s.slotAt ref).reservedFor tag = true then .free else s.slotAt ref)
          ∧ (∀ g, t.gantry g = { s.gantry g with
              hold := if ((s.gantry g).hold.map StrandedHold.tag) = some tag then none else (s.gantry g).hold })
          ∧ OccupancyTold s t st
          ∧ KeepsStationFields s t ∧ KeepsSettings s t ∧ KeepsOtherHangers s t tag ∧ t.startOrder = s.startOrder
          ∧ t.moves = s.moves ∧ t.recipes = s.recipes ∧ t.baths = s.baths ∧ t.lines = s.lines
          ∧ t.port0 = (s.opened .p0 5).port0 ∧ t.port1 = s.port1 ∧ t.port2 = s.port2)))

/-- R27, R28, R56, R155: UNLOADED withdraws a LOADED, DONE or ABORTED hanger: its slot is FREE, its record and move are gone, and
a bound one leaves its recipe's use count, at 0 with the swap and its RECIPE-SWAPPED notice. -/
def Obligations.UnloadedFreesTheRecord : Prop :=
  ∀ (st sl : Nat) (s : State), PortFree s .p0 →
    ((23 < st ∨ 3 < sl) → Answers (.unloaded st sl) s .p0 (s.opened .p0 4) (Reply.bare .badArg))
    ∧ (st ≤ 23 → sl ≤ 3 →
      ((s.station st).hasSlot sl = false → Answers (.unloaded st sl) s .p0 (s.opened .p0 4) (Reply.bare .noSuch))
      ∧ ((s.station st).hasSlot sl = true →
        (∀ tag h, s.slotAt ⟨st, sl⟩ = .occupied tag → s.hanger? tag = some h →
          h.state ≠ .loaded ∧ h.state ≠ .done ∧ h.state ≠ .aborted) →
        Answers (.unloaded st sl) s .p0 (s.opened .p0 4) (Reply.bare .inUse))
      ∧ (∀ tag h, (s.station st).hasSlot sl = true → s.slotAt ⟨st, sl⟩ = .occupied tag → s.hanger? tag = some h →
        (h.state = .loaded ∨ h.state = .done ∨ h.state = .aborted) → ∃ t,
        Answers (.unloaded st sl) s .p0 t (Reply.bare .ok)
        ∧ t.hangers = s.hangers.filter (fun x => x.tag != tag)
        ∧ t.startOrder = s.startOrder.filter (fun x => x != tag)
        ∧ (∀ m, s.hangerMove? tag = some m → t.moves = (s.removeMove m.id).moves)
        ∧ (s.hangerMove? tag = none → t.moves = s.moves)
        ∧ (∀ ref : SlotRef, t.slotAt ref = if ref = ⟨st, sl⟩ ∨ (s.slotAt ref).reservedFor tag = true then .free else s.slotAt ref)
        ∧ (∀ r, t.recipe r =
            if h.bound = true ∧ r = h.recipe ∧ r ≤ 15 then
              (match (s.recipe r).staged with
                | some v => if (s.recipe r).useCount ≤ 1 then
                    { active := v, staged := none, useCount := (s.recipe r).useCount - 1, valid := true, lastFault := none }
                  else { s.recipe r with useCount := (s.recipe r).useCount - 1 }
                | none => { s.recipe r with useCount := (s.recipe r).useCount - 1 })
            else s.recipe r)
        ∧ KeepsStationFields s t ∧ KeepsSettings s t ∧ t.baths = s.baths ∧ t.lines = s.lines
        ∧ t.port0 = (if h.bound = true ∧ (s.recipe h.recipe).useCount ≤ 1 ∧ (s.recipe h.recipe).staged ≠ none then
            (s.opened .p0 4).port0.push (plainNotice .recipeSwapped s.lineTime none none h.recipe)
          else (s.opened .p0 4).port0)
        ∧ t.gantryA = s.gantryA ∧ t.gantryB = s.gantryB ∧ t.port1 = s.port1 ∧ t.port2 = s.port2
        ∧ OccupancyTold s t st))

/-! ### Baths -/

/-- R86 to R91, R93, R160: an accepted reading becomes the latest, rearms the stale compare, moves the used temperature by at most
the slew limit, remakes the rate, and settles the readiness, with a BATH-STATE notice when it changes; one beyond the trip limit
holds the station's gas channel; the reply carries the readiness and the rate it leaves. -/
def Obligations.BathReportTakesTheReading : Prop :=
  ∀ (st : Nat) (z : Int) (b : Bath) (s : State), PortFree s .p0 → s.bath? st = some b →
    ((z < -2000 ∨ 8000 < z) → Answers (.bathReport st z) s .p0 (s.opened .p0 5) (Reply.bare .badReading))
    ∧ (-2000 ≤ z → z ≤ 8000 → ∃ t b' u,
      Answers (.bathReport st z) s .p0 t { status := .ok, payload := bytes1 b'.readiness.code ++ bytes2 b'.rate }
      ∧ t.bath? st = some b' ∧ (∀ st', st' ≠ st → t.bath? st' = s.bath? st')
      ∧ b'.settings = b.settings ∧ b'.latest = some (z, s.lineTime)
      ∧ b'.staleCompare = some (s.lineTime + BitVec.ofNat 32 b.settings.stale) ∧ b'.rateHeld = false
      ∧ b'.firstReading = false ∧ b'.area = b.area ∧ b'.debt = b.debt ∧ b'.activation = b.activation
      ∧ b'.used = some u
      ∧ ((b.firstReading = true ∨ b.used = none) → u = z)
      ∧ (∀ old, b.firstReading = false → b.used = some old →
        ((b.settings.slew = 0 ∨ (z - old).natAbs ≤ b.settings.slew) → u = z)
        ∧ (b.settings.slew ≠ 0 → b.settings.slew < (z - old).natAbs →
          u = if old < z then old + b.settings.slew else old - b.settings.slew))
      ∧ b'.deviation = max (-(b.settings.dmax : Int)) (min (b.settings.dmax : Int) (u - b.settings.tset))
      ∧ (b.settings.rmin ≤ b.settings.rmax →
        (b'.rate : Int) = max (b.settings.rmin : Int) (min (b.settings.rmax : Int)
          (1024 + (b.settings.gain * b'.deviation).tdiv ((2 : Int) ^ b.settings.shift))))
      ∧ (b.settings.trip < (z - b.settings.tset).natAbs → b'.readiness = .tripped ∧ b'.tripCause = some .reading)
      ∧ ((z - b.settings.tset).natAbs ≤ b.settings.trip →
        b'.tripCause = b.tripCause
        ∧ (b.readiness = .tripped → b'.readiness = .tripped)
        ∧ ((b.readiness = .ready ∨ b.readiness = .drift ∨ (b.readiness = .stale ∧ b.returnState = .inService)) →
          b'.readiness = if (u - b.settings.tset).natAbs ≤ b.settings.band then .ready else .drift)
        ∧ ((b.readiness = .warming ∨ (b.readiness = .stale ∧ b.returnState = .warming)) →
          b'.readiness =
            if reached s.lineTime (b.warmingEntry + BitVec.ofNat 32 b.settings.settle) = true
                ∧ (z - b.settings.tset).natAbs ≤ b.settings.band then
              (if (u - b.settings.tset).natAbs ≤ b.settings.band then .ready else .drift)
            else .warming))
      ∧ (∃ l : List Notice, (∀ n ∈ l, n.kind = .overdue ∨ n.kind = .rescue ∨ n.kind = .condition)
        ∧ ((b'.rate = b.rate ∨ ∀ h ∈ s.hangers, ¬ h.imm.RunsIn st) → l = [])
        ∧ t.port0 = if b'.readiness = b.readiness then l.foldl Port.push (s.opened .p0 5).port0
            else (l.foldl Port.push (s.opened .p0 5).port0).push
              (plainNotice .bathState s.lineTime none (some st) b'.readiness.code))
      ∧ ((b'.rate = b.rate ∨ ∀ h ∈ s.hangers, ¬ h.imm.RunsIn st) →
        (b.settings.trip < (z - b.settings.tset).natAbs → StationHeld s t st .trip)
        ∧ ((z - b.settings.tset).natAbs ≤ b.settings.trip → t.channels = s.channels))
      ∧ KeepsSettings s t ∧ t.stations = s.stations ∧ t.recipes = s.recipes ∧ t.startOrder = s.startOrder
      ∧ t.gantryA = s.gantryA ∧ t.gantryB = s.gantryB)

/-- R84, R85, R97: SET-BATH clamps, refuses crossed limits, and otherwise replaces the settings: the rate is remade from the used
temperature unless it is held, a READY or DRIFT bath is placed again, an armed stale compare is moved, and a counter at
or above the new quantum is converted, with the BATH-STATE and REPLENISH notices. The line time of the activation is log
24 (DEDUCED by the model). -/
def Obligations.SetBathReplacesTheSettings : Prop :=
  ∀ (st : Nat) (c : BathSettings) (b : Bath) (s : State), PortFree s .p0 → s.bath? st = some b →
    ∃ n : BathSettings,
      n = { tset := max (-2000) (min 8000 c.tset), band := max 1 (min 500 c.band), trip := max 1 (min 2000 c.trip),
            settle := min 6000 c.settle, stale := max 10 (min 3000 c.stale), slew := min 500 c.slew, gain := c.gain,
            shift := min 15 c.shift, dmax := min 1000 c.dmax, rmin := max 64 (min 4096 c.rmin),
            rmax := max 64 (min 4096 c.rmax), quantum := max 1 (min 65535 c.quantum),
            exitAllowance := min 600 c.exitAllowance }
      ∧ ((n.rmax < n.rmin ∨ n.trip ≤ n.band) →
        Answers (.setBath st c) s .p0 (s.opened .p0 28) (Reply.bare .badArg))
      ∧ (n.rmin ≤ n.rmax → n.band < n.trip → b.debt ≤ 15 → ∃ t b',
        Answers (.setBath st c) s .p0 t (Reply.bare (if n = c then .ok else .clamped))
        ∧ t.bath? st = some b' ∧ (∀ st', st' ≠ st → t.bath? st' = s.bath? st')
        ∧ b'.settings = n ∧ b'.latest = b.latest ∧ b'.used = b.used ∧ b'.tripCause = b.tripCause
        ∧ b'.area = b.area % n.quantum ∧ b'.debt = min 15 (b.debt + b.area / n.quantum)
        ∧ (b.rateHeld = true ∨ b.used = none → b'.rate = b.rate ∧ b'.deviation = b.deviation)
        ∧ (∀ u, b.rateHeld = false → b.used = some u →
          b'.deviation = max (-(n.dmax : Int)) (min (n.dmax : Int) (u - n.tset))
          ∧ (b'.rate : Int) = max (n.rmin : Int) (min (n.rmax : Int)
              (1024 + (n.gain * b'.deviation).tdiv ((2 : Int) ^ n.shift))))
        ∧ ((b.staleCompare = none ∨ reached s.lineTime
              ((match b.latest with | some (_, x) => x | none => b.activation) + BitVec.ofNat 32 n.stale) = false) →
          b'.staleCompare = b.staleCompare.map
            (fun _ => (match b.latest with | some (_, x) => x | none => b.activation) + BitVec.ofNat 32 n.stale)
          ∧ b'.rateHeld = b.rateHeld
          ∧ b'.readiness =
            (if b.readiness = .ready ∨ b.readiness = .drift then
              (if ((b.used.getD n.tset) - n.tset).natAbs ≤ n.band then .ready else .drift)
            else b.readiness)
          ∧ ∃ (l : List Notice) (q : Port), (∀ x ∈ l, x.kind = .overdue ∨ x.kind = .rescue ∨ x.kind = .condition)
            ∧ ((b'.rate = b.rate ∨ ∀ h ∈ s.hangers, ¬ h.imm.RunsIn st) → l = [] ∧ t.channels = s.channels)
            ∧ q = (if b'.readiness = b.readiness then l.foldl Port.push (s.opened .p0 28).port0
                else (l.foldl Port.push (s.opened .p0 28).port0).push
                  (plainNotice .bathState s.lineTime none (some st) b'.readiness.code))
            ∧ t.port0 = if n.quantum ≤ b.area then q.push (plainNotice .replenish s.lineTime none (some st) b'.debt) else q)
        ∧ KeepsSettings s t ∧ t.stations = s.stations ∧ t.recipes = s.recipes ∧ t.startOrder = s.startOrder
        ∧ t.gantryA = s.gantryA ∧ t.gantryB = s.gantryB)

/-- R72 to R76, R78: a reading or a change of settings that changes a bath's rate remakes, in the same event, the predictions
and compare points of the hangers whose STRICT count runs in its station, and each feeds its STEP or EXIT move, which goes
READY, with WORK, or back to WAITING by its new ready time, or stays granted; a compare point remade to a line time already
reached is signalled in that event. At an unchanged rate nothing is remade. The premise is the agreement of moves and
hangers (R35, R102), which every step keeps. -/
def Obligations.RateChangesRemakeTheStation : Prop :=
  ∀ (st : Nat) (i : Instr) (b b' : Bath) (s t : State), PortFree s .p0 → MovesAgree s → s.bath? st = some b →
    ((∃ z, i = .bathReport st z) ∨ ∃ c, i = .setBath st c) → exec i s = .next t → t.bath? st = some b' →
    ∃ made : Hanger → Immersion, (∀ h, made h = remadeImmersion h.imm s.lineTime b'.rate s.grace)
    ∧ (b'.rate = b.rate → t.moves = s.moves ∧ ∀ tag h, s.hanger? tag = some h → ∃ run, t.hanger? tag = some { h with run := run }
        ∧ ((∃ z, i = .bathReport st z) → run = h.run))
    ∧ (b'.rate ≠ b.rate →
      (∀ h ∈ s.hangers, h.imm.RunsIn st → h.imm.fired = true ∨ ∀ x, (made h).compare = some x → reached s.lineTime x = false) →
      (∀ tag h, s.hanger? tag = some h → ∃ run, ((∃ z, i = .bathReport st z) → run = h.run)
        ∧ (h.imm.RunsIn st → t.hanger? tag = some { h with imm := made h, run := run })
        ∧ (¬ h.imm.RunsIn st → t.hanger? tag = some { h with run := run }))
      ∧ (∀ m ∈ s.moves,
        (∀ h, m.tag = some h.tag → s.hanger? h.tag = some h → h.imm.RunsIn st → (m.kind = .step ∨ m.kind = .exit) →
          (m.state = .waiting ∨ m.state = .ready ∨ m.state = .granted) →
          t.move? m.id = some (fedMove m (made h) s.lineTime (s.station st).allowance))
        ∧ ((∀ h, m.tag = some h.tag → s.hanger? h.tag = some h → ¬ h.imm.RunsIn st) → t.move? m.id = some m)
        ∧ ((m.kind = .entry ∨ m.kind = .abort ∨ m.kind = .yielding ∨ m.state = .carried ∨ m.state = .placed) →
          t.move? m.id = some m))
      ∧ (∀ g : GantryId,
        ((∀ m ∈ s.moves, m.state = .waiting → ∀ m', t.move? m.id = some m' → m'.state = .ready → t.canServe g m = true →
            (s.gantry g).link ≠ .ready) → t.port g.port = s.port g.port)
        ∧ (∀ m ∈ s.moves, ∀ m', m.state = .waiting → t.move? m.id = some m' → m'.state = .ready → t.canServe g m = true →
          (s.gantry g).link = .ready → ∃ x ∈ s.moves, x.state = .waiting ∧ (∃ x', t.move? x.id = some x' ∧ x'.state = .ready)
            ∧ t.port g.port = worked (s.port g.port) (workNotice s.lineTime x))))
    ∧ (b'.rate ≠ b.rate → ∀ tag h x, s.hanger? tag = some h → h.imm.RunsIn st → h.imm.fired = false →
      (made h).compare = some x → reached s.lineTime x = true → ∃ h', t.hanger? tag = some h' ∧ h'.imm.fired = true
      ∧ ((s.station st).rescueLine = none → h'.state = h.state ∧ h'.imm = { made h with fired := true })
      ∧ (∀ l, (s.station st).rescueLine = some l → l ≤ 3 → (s.line l).asserted = false →
        (t.line l).asserted = true ∧ (t.line l).assertTime = some s.lineTime ∧ (h.restsIn st = true → h'.state = .rescued)))

/-- R89, R94, R95, R160, R161: BATH-TRIP trips a bath that is not TRIPPED by request, with the TRIP hold of the station's gas
channel; BATH-CLEAR ends the trip in the state its cause and readings give, and the hold with it. Each posts BATH-STATE. -/
def Obligations.BathTripAndClear : Prop :=
  ∀ (st : Nat) (b : Bath) (s : State), PortFree s .p0 → s.bath? st = some b →
    (b.readiness = .tripped → Answers (.bathTrip st) s .p0 (s.opened .p0 3) (Reply.bare .ok))
    ∧ (b.readiness ≠ .tripped → ∃ t : State,
      t = { s.opened .p0 3 with
              baths := s.baths.setIfInBounds st (some { b with readiness := .tripped, tripCause := some .request })
              port0 := (s.opened .p0 3).port0.push (plainNotice .bathState s.lineTime none (some st) 4)
              channels := t.channels }
      ∧ StationHeld s t st .trip
      ∧ Answers (.bathTrip st) s .p0 t (Reply.bare .ok))
    ∧ (b.readiness ≠ .tripped → Answers (.bathClear st) s .p0 (s.opened .p0 3) (Reply.bare .notNow))
    ∧ (b.readiness = .tripped → (∃ z x, b.latest = some (z, x) ∧ b.settings.trip < (z - b.settings.tset).natAbs) →
      Answers (.bathClear st) s .p0 (s.opened .p0 3) (Reply.bare .stillTripped))
    ∧ (b.readiness = .tripped → (∀ z x, b.latest = some (z, x) → (z - b.settings.tset).natAbs ≤ b.settings.trip) → ∃ t b',
      Answers (.bathClear st) s .p0 t (Reply.bare .ok)
      ∧ t.bath? st = some b' ∧ (∀ st', st' ≠ st → t.bath? st' = s.bath? st')
      ∧ b'.tripCause = none ∧ b'.rate = b.rate ∧ b'.used = b.used ∧ b'.latest = b.latest ∧ b'.rateHeld = b.rateHeld
      ∧ b'.staleCompare = b.staleCompare ∧ b'.settings = b.settings ∧ b'.area = b.area ∧ b'.debt = b.debt
      ∧ ((b.tripCause = some .reading ∨ b.latest = none) → b'.readiness = .warming ∧ b'.warmingEntry = s.lineTime)
      ∧ (b.tripCause = some .request → b.latest ≠ none → b.rateHeld = true →
        b'.readiness = .stale ∧ b'.returnState = .inService)
      ∧ (b.tripCause = some .request → b.latest ≠ none → b.rateHeld = false →
        b'.readiness = if ((b.used.getD b.settings.tset) - b.settings.tset).natAbs ≤ b.settings.band then .ready else .drift)
      ∧ StationReleased s t st .trip
      ∧ t.port0 = (s.opened .p0 3).port0.push (plainNotice .bathState s.lineTime none (some st) b'.readiness.code)
      ∧ KeepsSettings s t ∧ t.stations = s.stations ∧ t.recipes = s.recipes ∧ t.startOrder = s.startOrder
      ∧ t.moves = s.moves ∧ t.lines = s.lines ∧ t.gantryA = s.gantryA ∧ t.gantryB = s.gantryB
      ∧ t.port1 = s.port1 ∧ t.port2 = s.port2)

/-- R92, R79, R89: at the stale compare the rate is held and the compare disarmed, a WARMING, READY or DRIFT bath goes STALE, with
its BATH-STATE notice, and the open entries of the hangers counting in the station are marked UNCOMPENSATED. That the row
of a compare not reached changes nothing is log 4 (DESIGN CHOICE of the model). -/
def Obligations.StaleCompareHoldsTheRate : Prop :=
  ∀ (st : Nat) (s : State),
    ((∀ b x, s.bath? st = some b → b.staleCompare = some x → reached s.lineTime x = false) →
      exec (.staleCompareReached st) s = .next s)
    ∧ (∀ b x, s.bath? st = some b → b.staleCompare = some x → reached s.lineTime x = true → ∃ t b',
      exec (.staleCompareReached st) s = .next t
      ∧ t.bath? st = some b' ∧ (∀ st', st' ≠ st → t.bath? st' = s.bath? st')
      ∧ b' = { b with
                 rateHeld := true, firstReading := true, staleCompare := none
                 readiness := if b.readiness = .tripped then .tripped else .stale
                 returnState := match b.readiness with
                   | .warming => .warming
                   | .ready => .inService
                   | .drift => .inService
                   | .stale => b.returnState
                   | .tripped => b.returnState }
      ∧ t.hangers = s.hangers.map (fun h =>
          if h.imm.counting = true ∧ h.imm.station = st ∧ h.entryOpen = true then h.modNewest RunEntry.markUncompensated else h)
      ∧ KeepsSettings s t ∧ t.stations = s.stations ∧ t.recipes = s.recipes ∧ t.startOrder = s.startOrder
      ∧ t.moves = s.moves ∧ t.channels = s.channels ∧ t.lines = s.lines ∧ t.gantryA = s.gantryA ∧ t.gantryB = s.gantryB
      ∧ t.port0 = (if b.readiness = .tripped ∨ b.readiness = .stale then s.port0
          else s.port0.push (plainNotice .bathState s.lineTime none (some st) Readiness.stale.code))
      ∧ t.port1 = s.port1 ∧ t.port2 = s.port2)

/-- R98: REPLENISHED takes one from the debt; at 0 the station accepts lowering again as its bath and its rescue line allow. -/
def Obligations.ReplenishedTakesOneFromTheDebt : Prop :=
  ∀ (st : Nat) (s : State), PortFree s .p0 →
    (23 < st → Answers (.replenished st) s .p0 (s.opened .p0 3) (Reply.bare .badArg))
    ∧ (st ≤ 23 → s.bath? st = none → Answers (.replenished st) s .p0 (s.opened .p0 3) (Reply.bare .noSuch))
    ∧ (∀ b, s.bath? st = some b →
      (b.debt = 0 → Answers (.replenished st) s .p0 (s.opened .p0 3) (Reply.bare .notNow))
      ∧ (0 < b.debt → ∃ t,
        t = { s.opened .p0 3 with baths := s.baths.setIfInBounds st (some { b with debt := b.debt - 1 }) }
        ∧ Answers (.replenished st) s .p0 t { status := .ok, payload := [BitVec.ofNat 8 (b.debt - 1)] }
        ∧ (b.debt = 1 → (s.station st).supervised = true →
          t.acceptsLowering st = ((b.readiness == .ready || b.readiness == .drift) && !s.barRaised st))))

/-- R97: an area lowered into a supervised station goes to its counter; whole quanta go to the debt, which saturates at 15, with
one REPLENISH notice. -/
def Obligations.AreaIsCountedInQuanta : Prop :=
  ∀ (st a : Nat) (b : Bath) (s : State), s.bath? st = some b → 1 ≤ b.settings.quantum →
    (b.area + a < b.settings.quantum →
      s.addArea st a = { s with baths := s.baths.setIfInBounds st (some { b with area := b.area + a }) })
    ∧ (b.settings.quantum ≤ b.area + a → ∃ u : State,
      u = { s with
              baths := s.baths.setIfInBounds st (some { b with
                area := (b.area + a) % b.settings.quantum
                debt := min 15 (b.debt + (b.area + a) / b.settings.quantum) }) }
      ∧ s.addArea st a = u.post .p0
          { kind := .replenish, time := s.lineTime, tag := none, station := some st, move := none,
            codeA := min 15 (b.debt + (b.area + a) / b.settings.quantum), codeB := 0, codeC := 0, codeD := 0 })

/-! ### Moves and gantries -/

/-- R71, R72, R109, R110, R162: a WAITING move whose ready time is reached becomes READY and posts one WORK notice to each
READY gantry that can serve it and holds no unread one; an edge whose threshold progress has reached takes the line time
as its crossing and prediction, once; a passed unagitated limit sets the note and posts UNAGITATED, once. Nothing else
changes. That the row of an event not due changes nothing is log 4, and that R110 is followed where the worked sequence under
R194 sends WORK to a BUSY gantry log 38 (DESIGN CHOICES of the model). -/
def Obligations.DueTimesOfMovesAndImmersionsAreTakenOnce : Prop :=
  (∀ (id : Nat) (s : State),
    ((∀ m, s.move? id = some m → m.state ≠ .waiting ∨ reached s.lineTime m.ready = false) →
      exec (.readyTimeReached id) s = .next s)
    ∧ (∀ m, s.move? id = some m → m.state = .waiting → reached s.lineTime m.ready = true → ∃ (t : State) (n : Notice),
      n = { kind := .work, time := s.lineTime, tag := m.tag,
            station := match m.source with | .slot r => some r.station | .point _ => none,
            move := some id, codeA := 0, codeB := 0, codeC := 0, codeD := 0 }
      ∧ exec (.readyTimeReached id) s = .next t
      ∧ t.moves = s.moves.map (fun x => if x.id = id then { x with state := .ready } else x)
      ∧ (∀ g : GantryId, t.port g.port =
          if (s.gantry g).link = .ready ∧ s.canServe g m = true ∧ (∀ x ∈ (s.port g.port).queue, x.kind ≠ .work) then
            (s.port g.port).push n
          else s.port g.port)
      ∧ t = { s with moves := t.moves, port1 := t.port1, port2 := t.port2 }))
  ∧ ((∀ (tag : Nat) (s : State),
    exec (.edgeCrossed tag .opening) s = .next { s with hangers := s.hangers.map (fun h =>
      if h.tag = tag ∧ h.imm.cls = some .strict ∧ h.imm.crossOpening = none ∧ h.imm.opening * 1024 ≤ h.imm.progress then
        { h with imm := { h.imm with crossOpening := some s.lineTime, predOpening := s.lineTime } } else h) }
    ∧ exec (.edgeCrossed tag .target) s = .next { s with hangers := s.hangers.map (fun h =>
      if h.tag = tag ∧ h.imm.cls = some .strict ∧ h.imm.crossTarget = none ∧ h.imm.effective * 1024 ≤ h.imm.progress then
        { h with imm := { h.imm with crossTarget := some s.lineTime, predTarget := s.lineTime } } else h) }
    ∧ exec (.edgeCrossed tag .closing) s = .next { s with hangers := s.hangers.map (fun h =>
      if h.tag = tag ∧ h.imm.cls = some .strict ∧ h.imm.crossClosing = none ∧ h.imm.closing * 1024 ≤ h.imm.progress then
        { h with imm := { h.imm with crossClosing := some s.lineTime, predClosing := s.lineTime } } else h) })
  ∧ (∀ (tag : Nat) (h : Hanger) (k : RecipeStep) (e : RunEntry) (s : State), s.hanger? tag = some h →
    s.recipeStep? h.recipe h.step = some k → h.run.getLast? = some e →
    (h.imm.cls = some .strict → k.unagitated ≠ 0 → k.unagitated < h.imm.unagitated → e.endTime = none →
      e.notes.unagitated = false → ∃ u : State,
      u = { s with hangers := s.hangers.map (fun x =>
              if x.tag = tag then x.modNewest (fun e => { e with notes := { e.notes with unagitated := true } }) else x) }
      ∧ exec (.unagitatedLimitPassed tag) s = .next (u.post .p0
          { kind := .unagitated, time := s.lineTime, tag := some tag, station := some h.imm.station, move := none,
            codeA := h.step, codeB := 0, codeC := 0, codeD := 0 }))
    ∧ ((h.imm.cls ≠ some .strict ∨ k.unagitated = 0 ∨ h.imm.unagitated ≤ k.unagitated ∨ e.endTime ≠ none
        ∨ e.notes.unagitated = true) →
      exec (.unagitatedLimitPassed tag) s = .next s)))

/-- R128, R129, R130: the tests of SET-GANTRY and SET-GUARD in their order, and the settings each replaces. -/
def Obligations.GantrySettingsAreTestedThenReplaced : Prop :=
  (∀ (g : GantryId) (lo hi h pace margin : Nat) (s : State), PortFree s .p0 →
    ((23 < lo ∨ 23 < hi ∨ hi < lo) →
      Answers (.setGantry (gantryCode g) lo hi h pace margin) s .p0 (s.opened .p0 10) (Reply.bare .badArg))
    ∧ (lo ≤ hi → hi ≤ 23 →
      ((s.gantry g).link ≠ .offline →
        Answers (.setGantry (gantryCode g) lo hi h pace margin) s .p0 (s.opened .p0 10) (Reply.bare .notNow))
      ∧ ((s.gantry g).link = .offline →
        (s.homesApart g lo hi = false →
          Answers (.setGantry (gantryCode g) lo hi h pace margin) s .p0 (s.opened .p0 10) (Reply.bare .badArg))
        ∧ (s.homesApart g lo hi = true →
          Answers (.setGantry (gantryCode g) lo hi h pace margin) s .p0
            ((s.opened .p0 10).modGantry g (fun r => { r with
              reachLow := lo, reachHigh := hi, handling := min h 600, pace := max 1 (min pace 255), margin := min margin 600 }))
            (Reply.bare (if h ≤ 600 ∧ 1 ≤ pace ∧ pace ≤ 255 ∧ margin ≤ 600 then .ok else .clamped))))))
  ∧ (∀ (gap : Nat) (s : State), PortFree s .p0 →
    ((1000 < gap → Answers (.setGuard gap) s .p0 (s.opened .p0 4) (Reply.bare .badArg))
    ∧ (gap ≤ 1000 → (s.gantryA.link ≠ .offline ∨ s.gantryB.link ≠ .offline) →
      Answers (.setGuard gap) s .p0 (s.opened .p0 4) (Reply.bare .notNow))
    ∧ (gap ≤ 1000 → s.gantryA.link = .offline → s.gantryB.link = .offline →
      ((s.home .b < s.home .a + gap ∨ s.gantryB.spanLow < s.gantryA.spanHigh + gap) →
        Answers (.setGuard gap) s .p0 (s.opened .p0 4) (Reply.bare .badArg))
      ∧ (s.home .a + gap ≤ s.home .b → s.gantryA.spanHigh + gap ≤ s.gantryB.spanLow →
        Answers (.setGuard gap) s .p0 { s.opened .p0 4 with guardGap := gap } (Reply.bare .ok)))))

/-- R131, R132, R134, R135: GANTRY-PAUSE and GANTRY-RESUME by the link state, with the GANTRY-STATE and PAUSE notices each posts,
and at a resumption of a PAUSED gantry WORK for the first READY move in walk order that it can serve; HELLO by the link state:
in OFFLINE its tests, then HOMING with the homing span as the reserved span. The fault code in a GANTRY-STATE notice is log 11
(DEDUCED by the model); the order of PAUSE before WORK is log 15, and that a HELLO refused by the span test leaves the homing
target as it was log 32 (DESIGN CHOICES of the model). -/
def Obligations.GantryLinkFollowsPauseResumeAndHello : Prop :=
  (∀ (g : GantryId) (s : State), PortFree s .p0 → ∃ (pause : Nat → Notice) (o : State),
    (∀ c, pause c = { kind := .pause, time := s.lineTime, tag := none, station := none, move := none, codeA := c, codeB := 0,
                      codeC := 0, codeD := 0 })
    ∧ o = s.opened .p0 3
    ∧ ((s.gantry g).link = .ready → ∃ t, Answers (.gantryPause (gantryCode g)) s .p0 t (Reply.bare .ok)
      ∧ t.gantry g = { s.gantry g with link := .paused } ∧ t.gantry g.other = s.gantry g.other
      ∧ t.moves = s.moves.filter (fun m => !(m.kind == .yielding && m.state == .ready && m.gantry == some g))
      ∧ t.port g.port = (s.port g.port).push (pause 0) ∧ t.port g.other.port = s.port g.other.port
      ∧ t.port0 = o.port0.push (gantryNotice s.lineTime g .paused (s.gantry g).faultCode)
      ∧ KeepsRecords s t ∧ KeepsSettings s t)
    ∧ ((s.gantry g).link = .busy → (s.gantry g).pausePending = false →
      Answers (.gantryPause (gantryCode g)) s .p0
        ((o.modGantry g (fun r => { r with pausePending := true })).modPort g.port (fun q => q.push (pause 1)))
        (Reply.bare .ok))
    ∧ (((s.gantry g).link = .busy ∧ (s.gantry g).pausePending = true) ∨ (s.gantry g).link = .paused →
      Answers (.gantryPause (gantryCode g)) s .p0 o (Reply.bare .ok))
    ∧ ((s.gantry g).link = .offline ∨ (s.gantry g).link = .homing ∨ (s.gantry g).link = .faulted →
      Answers (.gantryPause (gantryCode g)) s .p0 o (Reply.bare .notNow))
    ∧ ((s.gantry g).link = .paused → ∃ t, Answers (.gantryResume (gantryCode g)) s .p0 t (Reply.bare .ok)
      ∧ t.gantry g = { s.gantry g with link := .ready } ∧ t.gantry g.other = s.gantry g.other ∧ t.moves = s.moves
      ∧ t.port g.port = offeredWork t g ((s.port g.port).push (pause 2))
      ∧ t.port g.other.port = s.port g.other.port
      ∧ t.port0 = o.port0.push (gantryNotice s.lineTime g .ready (s.gantry g).faultCode)
      ∧ KeepsRecords s t ∧ KeepsSettings s t)
    ∧ ((s.gantry g).link = .busy → (s.gantry g).pausePending = true →
      Answers (.gantryResume (gantryCode g)) s .p0
        ((o.modGantry g (fun r => { r with pausePending := false })).modPort g.port (fun q => q.push (pause 2)))
        (Reply.bare .ok))
    ∧ ((s.gantry g).link ≠ .paused → ((s.gantry g).link = .busy → (s.gantry g).pausePending = false) →
      Answers (.gantryResume (gantryCode g)) s .p0 o (Reply.bare .notNow)))
  ∧ (∀ (g : GantryId) (s : State), PortFree s g.port → ∃ lo hi,
    lo = min (s.gantry g).spanLow (s.home g) ∧ hi = max (s.gantry g).spanHigh (s.home g)
    ∧ ((s.gantry g).link = .homing → Answers (.hello g) s g.port (s.opened g.port 2) (Reply.bare .ok))
    ∧ ((s.gantry g).link ≠ .homing → (s.gantry g).link ≠ .offline →
      Answers (.hello g) s g.port (s.opened g.port 2) (Reply.bare .notNow))
    ∧ ((s.gantry g).link = .offline →
      ((s.strandedOn g = true ∨ s.spanTest g lo hi = false) →
        Answers (.hello g) s g.port (s.opened g.port 2) (Reply.bare .notNow))
      ∧ (s.strandedOn g = false → s.spanTest g lo hi = true → ∃ t,
        Answers (.hello g) s g.port t (Reply.bare .ok)
        ∧ t.gantry g = { s.gantry g with link := .homing, homing := s.home g, spanLow := lo, spanHigh := hi, last := none,
                                         faultCode := none }
        ∧ t.gantry g.other = s.gantry g.other ∧ t.moves = s.moves
        ∧ t.port0 = s.port0.push (gantryNotice s.lineTime g .homing none)
        ∧ t.port g.port = (s.opened g.port 2).port g.port ∧ t.port g.other.port = s.port g.other.port
        ∧ KeepsRecords s t ∧ KeepsSettings s t)))

/-- R133: HOMED in HOMING takes the homing target as the current point, shrinks the span to it and enters READY, with the notice
of R134; in any other state it is refused. -/
def Obligations.HomedEntersReady : Prop :=
  ∀ (g : GantryId) (s : State), PortFree s g.port →
    ((s.gantry g).link ≠ .homing → Answers (.homed g) s g.port (s.opened g.port 2) (Reply.bare .notNow))
    ∧ ((s.gantry g).link = .homing → ∃ t, Answers (.homed g) s g.port t (Reply.bare .ok)
      ∧ t.gantry g = { s.gantry g with link := .ready, point := (s.gantry g).homing, spanLow := (s.gantry g).homing,
                                       spanHigh := (s.gantry g).homing }
      ∧ t.gantry g.other = s.gantry g.other ∧ t.moves = s.moves
      ∧ ((s.gantry g).faultCode = none → t.port0 = s.port0.push (gantryNotice s.lineTime g .ready none))
      ∧ (∀ m, (s.walkOrder.find? (fun m => m.state == .ready && t.canServe g m)) = some m →
        (∀ x ∈ (s.port g.port).queue, x.kind ≠ .work) → ∃ n : Notice, n.kind = .work ∧ n.move = some m.id ∧ n.tag = m.tag
          ∧ n.time = s.lineTime ∧ t.port g.port = ((s.opened g.port 2).port g.port).push n)
      ∧ (((s.walkOrder.find? (fun m => m.state == .ready && t.canServe g m)) = none
          ∨ ∃ x ∈ (s.port g.port).queue, x.kind = .work) →
        t.port g.port = (s.opened g.port 2).port g.port)
      ∧ t.port g.other.port = s.port g.other.port ∧ KeepsRecords s t ∧ KeepsSettings s t)

/-- R140: the tests of a report that names a move, in their order; a refused report changes nothing. -/
def Obligations.ReportsAreTestedInOrder : Prop :=
  ∀ (i : Instr) (g : GantryId) (id : Nat) (s : State), PortFree s g.port → NamesMove i g id → ∃ n,
    (255 < id → Answers i s g.port (s.opened g.port n) (Reply.bare .badArg))
    ∧ (id ≤ 255 → ((s.gantry g).link = .faulted ∨ (s.gantry g).link = .offline) →
      Answers i s g.port (s.opened g.port n) (Reply.bare (if (s.gantry g).last = some id then .tooLate else .wrongMove)))
    ∧ (id ≤ 255 → (s.gantry g).link ≠ .faulted → (s.gantry g).link ≠ .offline →
      ((s.gantry g).granted ≠ some id → Answers i s g.port (s.opened g.port n) (Reply.bare .wrongMove))
      ∧ (∀ m, (s.gantry g).granted = some id → s.move? id = some m → ¬ PhaseFits i m →
        Answers i s g.port (s.opened g.port n) (Reply.bare .outOfOrder)))

/-- R20, R29, R36, R96, R104, R111, R113 to R122: the tests of a claim on a READY hanger move, in their order, the first that fails
naming the outcome: the mode, the start-order gate, the reach, the destination with its forward slot, the zone, and the
protection; a move that passes them all passes with the destination and forward slot they fix. The walk offers the READY moves,
and none stands directly behind a less urgent one. That the two slots of a route differ is log 26, that moves are placed by
insertion log 14 (the model's). The premises on the state are invariants of the model (R4, R5, R35). -/
def Obligations.ClaimTestsAreMadeInOrder : Prop :=
  (∀ (s : State) (h : Hanger) (x : Target), s.target? h = some x ↔ IsTarget s h x)
  ∧ (∀ (g : GantryId) (s : State) (m : Move) (d : SlotRef), s.estimateFor g m d = moveEstimate s g m d)
  ∧ (∀ s : State, (∀ m, m ∈ s.offered ↔ m ∈ s.moves ∧ m.state = .ready ∧ m.kind ≠ .yielding)
    ∧ ∀ before a b after, s.urgencyOrder = before ++ a :: b :: after → ¬ MoreUrgent b a)
  ∧ (∀ (g : GantryId) (m : Move) (h : Hanger) (s : State), MovesAgree s → SlotsAgree s →
    (∀ st, (s.station st).slotCount ≤ 4) → m ∈ s.moves → m.state = .ready → m.kind ≠ .yielding → m.tag = some h.tag →
    s.hanger? h.tag = some h →
    (¬ ModePermits s m → s.trial g m = .fails .mode)
    ∧ (ModePermits s m → ¬ GatePermits s m → s.trial g m = .fails .gate)
    ∧ (ModePermits s m → GatePermits s m → ¬ ReachPermits s g m → s.trial g m = .unreached)
    ∧ (ModePermits s m → GatePermits s m → ReachPermits s g m → (∀ d f, ¬ RoutePermits s g m h d f) →
      s.trial g m = .fails .destination)
    ∧ (∀ d f, ModePermits s m → GatePermits s m → ReachPermits s g m → RoutePermits s g m h d f →
      (¬ ZonePermits s g m d → s.trial g m = .zoned d)
      ∧ (ZonePermits s g m d → ¬ ProtectionPermits s g m d → s.trial g m = .fails .protection)
      ∧ (ZonePermits s g m d → ProtectionPermits s g m d → s.trial g m = .passed d f)))

/-- R113, R115 to R117, R119, R120, R123, R137, R138, R148: a CLAIM of a READY gantry that owns no YIELD move, or whose YIELD
move fails the mode or the zone, grants the first offered move that passes every test: slots, move, hanger, start order,
binding and gantry, with the two spans the guard gap apart. A zone test that failed before it may have made the other
gantry's YIELD move. The order of the offered moves is log 14 and the fault code in the GANTRY-STATE notice log 11 (DEDUCED
by the model). -/
def Obligations.ClaimGrantsTheFirstMoveThatPasses : Prop :=
  ∀ (g : GantryId) (m : Move) (h : Hanger) (d : SlotRef) (f : Option SlotRef) (before rest : List Move) (s : State),
    PortFree s g.port → (s.gantry g).link = .ready →
    (∀ y, s.ownYield? g = some y → ∃ x c, y.dest = some (.point x) ∧ s.yieldFails g y x = some c) →
    s.offered = before ++ m :: rest → (∀ x ∈ before, ∀ d' f', s.trial g x ≠ .passed d' f') →
    s.trial g m = .passed d f → MovesAgree s → s.moves.length < 256 → m.tag = some h.tag →
    s.hanger? h.tag = some h → h.recipe ≤ 15 → d.slot ≤ 3 → (∀ r, f = some r → r.slot ≤ 3) →
    ∃ u t, YieldMade (s.opened g.port 2) u g before
      ∧ Answers (.claim g) s g.port t { status := .ok, payload := grantPayload t m.id }
      ∧ t.moves = (u.moves.map (fun x => if x.id = m.id then { m with
            dest := some (.slot d), state := .granted, gantry := some g, grantTime := some s.lineTime
            estimate := some (s.estimateFor g m d)
            limit := some (s.lineTime + BitVec.ofNat 32 (s.estimateFor g m d) + BitVec.ofNat 32 (s.gantry g).margin) }
          else x)).filter (fun x => !(x.kind == .yielding && x.state == .ready && (x.blocked == some m.id || x.gantry == some g)))
      ∧ t.moveCounter = u.moveCounter
      ∧ t.gantry g = { s.gantry g with
          link := .busy, granted := some m.id
          spanLow := min (min (s.gantry g).point (s.coordOf m.source)) (s.station d.station).coordinate
          spanHigh := max (max (s.gantry g).point (s.coordOf m.source)) (s.station d.station).coordinate }
      ∧ t.gantry g.other = s.gantry g.other
      ∧ t.gantryA.spanHigh + s.guardGap ≤ t.gantryB.spanLow
      ∧ s.acceptsLowering d.station = true
      ∧ t.slotAt d = .reserved h.tag .destination ∧ (∀ r, f = some r → t.slotAt r = .reserved h.tag .forward)
      ∧ (∀ r, r ≠ d → f ≠ some r → t.slotAt r = s.slotAt r)
      ∧ t.hanger? h.tag = some { h with
          state := if h.state = .loaded ∨ h.state = .immersed then .inTransit else h.state
          phase := if h.state = .loaded ∨ h.state = .immersed then some .granted else h.phase
          forward := if f.isSome then f else h.forward
          bound := if m.kind = .entry then true else h.bound }
      ∧ t.startOrder = (if m.kind = .entry then s.startOrder.filter (fun x => x != h.tag) else s.startOrder)
      ∧ (∀ r, t.recipe r = if m.kind = .entry ∧ h.bound = false ∧ r = h.recipe then
          { s.recipe r with useCount := (s.recipe r).useCount + 1 } else s.recipe r)
      ∧ KeepsOtherHangers s t h.tag ∧ KeepsStationFields s t ∧ KeepsSettings s t
      ∧ t.admissions = s.admissions ∧ t.baths = s.baths ∧ t.channels = s.channels ∧ t.lines = s.lines
      ∧ t.port0 = s.port0.push (gantryNotice s.lineTime g .busy (s.gantry g).faultCode)
      ∧ ∀ o : GantryId, t.port o.port = u.port o.port

/-- R113, R114, R119, R124, R138, R139: a CLAIM is refused unless the gantry is READY; a YIELD move the gantry owns is tried first
and granted when the mode and the zone allow it, and no move leaves the list but a YIELD move not granted that was made for it
or is owned by the gantry (R139); when no offered move passes every test the claim is answered NONE, with the
next ready time, the number of tested moves the gantry can serve, and the first of them with the test it failed, MODE, GATE,
DESTINATION, ZONE or PROTECTION, and a failed zone test may have made the other gantry's YIELD move. In IDLE every move is
held for MODE. The place of the own YIELD move, last, is log 13, the fault code in the GANTRY-STATE notice log 11 (DEDUCED
by the model). -/
def Obligations.ClaimRefusedHeldOrYielding : Prop :=
  ∀ (g : GantryId) (s : State), PortFree s g.port →
    ((s.gantry g).link ≠ .ready → Answers (.claim g) s g.port (s.opened g.port 2) (Reply.bare .notNow))
    ∧ ((s.gantry g).link = .ready → s.mode = .idle → s.ownYield? g = none →
      Answers (.claim g) s g.port (s.opened g.port 2)
        { status := .none,
          payload := presentTime (s.nextReady g) ++ bytes1 (s.offered.filter (fun m => s.canServe g m)).length
            ++ present1 ((s.offered.filter (fun m => s.canServe g m)).head?.map Move.id)
            ++ [if (s.offered.filter (fun m => s.canServe g m)).isEmpty then 0xFF#8 else 0x00#8] })
    ∧ (∀ last : List (Nat × HoldTest), (s.gantry g).link = .ready → MovesAgree s → s.moves.length < 256 →
      (∀ m ∈ s.offered, ∀ d f, s.trial g m ≠ .passed d f) →
      ((s.ownYield? g = none ∧ last = [])
        ∨ ∃ y x, s.ownYield? g = some y ∧ y.dest = some (.point x)
          ∧ ((s.mode = .idle ∧ last = [(y.id, .mode)])
            ∨ (s.mode ≠ .idle ∧ s.spanTest g (min (s.gantry g).point x) (max (s.gantry g).point x) = false
              ∧ last = [(y.id, .zone)]))) →
      ∃ (held : List (Nat × HoldTest)) (u : State),
        held = (s.offered.filter (fun m => s.canServe g m)).filterMap (fun m => match s.trial g m with
          | .fails c => some (m.id, c)
          | .zoned _ => some (m.id, .zone)
          | .unreached => none
          | .passed _ _ => none) ++ last
        ∧ YieldMade (s.opened g.port 2) u g s.offered
        ∧ Answers (.claim g) s g.port u
          { status := .none,
            payload := presentTime (s.nextReady g) ++ bytes1 held.length ++ present1 (held.head?.map Prod.fst)
              ++ indexByte (held.head?.map (fun p => p.2.code)) })
    ∧ (∀ y x, (s.gantry g).link = .ready → s.mode ≠ .idle → s.ownYield? g = some y → y.dest = some (.point x) →
      s.move? y.id = some y → s.spanTest g (min (s.gantry g).point x) (max (s.gantry g).point x) = true →
      ∃ t,
      Answers (.claim g) s g.port t { status := .ok, payload := grantPayload t y.id }
      ∧ t.move? y.id = some { y with
          dest := some (.point x), state := .granted, gantry := some g, grantTime := some s.lineTime
          estimate := some ((s.gantry g).yieldEstimate x)
          limit := some (s.lineTime + BitVec.ofNat 32 ((s.gantry g).yieldEstimate x)
            + BitVec.ofNat 32 (s.gantry g).margin) }
      ∧ t.gantry g = { s.gantry g with link := .busy, granted := some y.id, spanLow := min (s.gantry g).point x,
                                       spanHigh := max (s.gantry g).point x }
      ∧ t.moves = (s.moves.map (fun z => if z.id = y.id then { z with
            dest := some (.point x), state := .granted, gantry := some g, grantTime := some s.lineTime
            estimate := some ((s.gantry g).yieldEstimate x)
            limit := some (s.lineTime + BitVec.ofNat 32 ((s.gantry g).yieldEstimate x)
              + BitVec.ofNat 32 (s.gantry g).margin) }
          else z)).filter (fun z => !(z.kind == .yielding && z.state == .ready && (z.blocked == some y.id || z.gantry == some g)))
      ∧ (MovesAgree s → (∀ z ∈ s.moves, z.blocked ≠ some y.id) → KeepsOtherMoves s t y.id)
      ∧ t.moveCounter = s.moveCounter ∧ t.alarm = s.alarm
      ∧ t.gantry g.other = s.gantry g.other ∧ KeepsRecords s t ∧ KeepsSettings s t
      ∧ t.port0 = s.port0.push (gantryNotice s.lineTime g .busy (s.gantry g).faultCode)
      ∧ t.port g.port = (s.opened g.port 2).port g.port ∧ t.port g.other.port = s.port g.other.port)

/-- R141, R40, R77, R155: LIFTED ends the hanger's time in its source slot: the open entry closes with the condition of its class
and its CONDITION notice, the count stops, the slot is FREE, an emptied station is told to its gas channel, the hanger is
carried by the gantry and the move is CARRIED. -/
def Obligations.LiftedTakesTheHangerUp : Prop :=
  ∀ (g : GantryId) (m : Move) (h : Hanger) (r : SlotRef) (s : State),
    PortFree s g.port → Holds s g m → m.id ≤ 255 → m.state = .granted → m.kind ≠ .yielding → m.tag = some h.tag →
    m.source = .slot r → s.hanger? h.tag = some h → s.slotAt r = .occupied h.tag → r.station ≤ 23 → r.slot ≤ 3 → ∃ t,
    Answers (.lifted g m.id) s g.port t (Reply.bare .ok)
    ∧ t.hanger? h.tag = some { h with
        state := .inTransit, phase := some .carried, location := .gantry g
        imm := { h.imm with counting := false, compare := none }, run := closedRun h s.lineTime h.imm.liftCondition }
    ∧ t.slotAt r = .free ∧ KeepsOtherSlots s t r ∧ KeepsStationFields s t
    ∧ t.move? m.id = some { m with state := .carried } ∧ KeepsOtherMoves s t m.id ∧ KeepsOtherHangers s t h.tag
    ∧ KeepsSettings s t ∧ t.recipes = s.recipes ∧ t.startOrder = s.startOrder ∧ t.baths = s.baths ∧ t.lines = s.lines
    ∧ t.gantryA = s.gantryA ∧ t.gantryB = s.gantryB
    ∧ t.port0 = closedPort s.port0 h s.lineTime h.imm.liftCondition
    ∧ t.port g.port = (s.opened g.port 3).port g.port ∧ t.port g.other.port = s.port g.other.port
    ∧ OccupancyTold s t r.station

/-- R142, R44, R45, R97, R155, R173, R174: LOWERED with no pending abort occupies the slot, counts the area, and begins the step,
on a raised bar as a rescued one, or reaches the exit; the move is PLACED. STEP, CONDITION, DONE and WORK are posted as the
rules name them, behind a REPLENISH of the area. The fields of another class in the immersion are log 9 (DEDUCED by the
model). -/
def Obligations.LoweredBeginsTheStepOrReachesTheExit : Prop :=
  ∀ (g : GantryId) (m : Move) (h : Hanger) (r : SlotRef) (s : State),
    PortFree s g.port → Holds s g m → m.id ≤ 255 → m.state = .carried → m.tag = some h.tag → m.dest = some (.slot r) →
    s.hanger? h.tag = some h → h.pendingAbort = false → (s.slotAt r).reservedFor h.tag = true → r.station ≤ 23 → r.slot ≤ 3 →
    (s.station r.station).hasSlot r.slot = true → ∃ (u : State) (fwd : Option SlotRef),
    u = ((s.opened g.port 3).addArea r.station h.area).modMove m.id (fun x => { x with state := .placed })
    ∧ fwd = (if (s.station r.station).cls = .strict then h.forward else none)
    ∧ (∀ k q f, s.target? h = some (.step k q) → s.recipeStep? h.recipe k = some f → s.barRaised r.station = false → ∃ t,
      Answers (.lowered g m.id) s g.port t (Reply.bare .ok) ∧ StepBegun u t h k f r fwd
      ∧ t.slotAt r = .occupied h.tag ∧ KeepsOtherSlots s t r ∧ KeepsStationFields s t ∧ KeepsOtherHangers s t h.tag
      ∧ t.baths = u.baths ∧ OccupancyTold s t r.station
      ∧ KeepsSettings s t ∧ t.recipes = s.recipes ∧ t.startOrder = s.startOrder ∧ t.lines = s.lines
      ∧ t.gantryA = s.gantryA ∧ t.gantryB = s.gantryB)
    ∧ (∀ k q f, s.target? h = some (.step k q) → s.recipeStep? h.recipe k = some f → s.barRaised r.station = true →
      ∃ t h' e x, Answers (.lowered g m.id) s g.port t (Reply.bare .ok)
      ∧ t.hanger? h.tag = some h' ∧ h'.state = .rescued ∧ h'.phase = none ∧ h'.step = k ∧ h'.location = .slot r
      ∧ h'.forward = fwd ∧ h'.imm.counting = false ∧ h'.imm.compare = none
      ∧ h'.run.getLast? = some e ∧ e.station = r.station ∧ e.slot = r.slot ∧ e.condition = some .under
      ∧ e.start = s.lineTime ∧ e.endTime = some s.lineTime ∧ e.actual = some 0
      ∧ ((s.station r.station).cls = .strict → e.reference = some 0) ∧ e.notes.rescued = true
      ∧ t.moves = u.moves ++ [x] ∧ t.moveCounter = (s.freshId + 1) % 256 ∧ x.id = s.freshId ∧ x.tag = some h.tag
      ∧ x.seq = some h.seq ∧ x.kind = (if k + 1 < (s.recipe h.recipe).active.length then .step else .exit)
      ∧ x.source = .slot r ∧ x.dest = (if (s.station r.station).cls = .strict then fwd.map Place.slot else none)
      ∧ x.drip = f.drip ∧ x.state = .ready ∧ x.gantry = none
      ∧ x.ready = s.lineTime ∧ x.due = some s.lineTime
      ∧ x.deadline = some (s.lineTime + BitVec.ofNat 32 (s.exitAllowance r.station))
      ∧ WorkPosted u t x
      ∧ t.port0 = (u.port0.push (plainNotice .step s.lineTime (some h.tag) (some r.station) k)).push
          (plainNotice .condition s.lineTime (some h.tag) (some r.station) Condition.under.code)
      ∧ t.slotAt r = .occupied h.tag ∧ KeepsOtherSlots s t r ∧ KeepsStationFields s t ∧ KeepsOtherHangers s t h.tag
      ∧ t.baths = u.baths ∧ OccupancyTold s t r.station
      ∧ KeepsSettings s t ∧ t.recipes = s.recipes ∧ t.startOrder = s.startOrder ∧ t.lines = s.lines
      ∧ t.gantryA = s.gantryA ∧ t.gantryB = s.gantryB)
    ∧ (s.target? h = some .exit → ∃ t h', Answers (.lowered g m.id) s g.port t (Reply.bare .ok)
      ∧ t.hanger? h.tag = some h' ∧ h'.state = .done ∧ h'.phase = none ∧ h'.step = (s.recipe h.recipe).active.length
      ∧ h'.location = .slot r ∧ h'.forward = none ∧ h'.imm = h.imm ∧ h'.bound = h.bound
      ∧ h'.run.getLast? = some
          { station := r.station, slot := r.slot, start := s.lineTime, endTime := some s.lineTime, actual := some 0,
            reference := none, condition := some .onTime, notes := Notes.none }
      ∧ t.moves = u.moves ∧ t.moveCounter = s.moveCounter
      ∧ t.port0 = u.port0.push (plainNotice .done s.lineTime (some h.tag) (some r.station) 0)
      ∧ (∀ o : GantryId, t.port o.port = u.port o.port)
      ∧ t.slotAt r = .occupied h.tag ∧ ReleasesOtherSlots s t h.tag r ∧ KeepsStationFields s t
      ∧ KeepsOtherHangers s t h.tag ∧ t.baths = u.baths ∧ OccupancyTold s t r.station
      ∧ KeepsSettings s t ∧ t.recipes = s.recipes ∧ t.startOrder = s.startOrder ∧ t.lines = s.lines
      ∧ t.gantryA = s.gantryA ∧ t.gantryB = s.gantryB)

/-- R51, R97, R155, R174: LOWERED with the pending abort set applies the abort, by the move and its destination, on a raised bar as
a rescue; the area is counted, the gas channel told and STEP, CONDITION and WORK posted as in any lowering. -/
def Obligations.LoweredAppliesThePendingAbort : Prop :=
  ∀ (g : GantryId) (m : Move) (h : Hanger) (r : SlotRef) (s : State),
    PortFree s g.port → Holds s g m → m.id ≤ 255 → m.state = .carried → m.tag = some h.tag → m.dest = some (.slot r) →
    s.hanger? h.tag = some h → h.pendingAbort = true → (s.slotAt r).reservedFor h.tag = true → r.station ≤ 23 → r.slot ≤ 3 →
    (s.station r.station).hasSlot r.slot = true → ∃ u : State,
    u = ((s.opened g.port 3).addArea r.station h.area).modMove m.id (fun x => { x with state := .placed })
    ∧ (∀ k q, m.kind = .abort → s.target? h = some (.step k q) → (s.station r.station).cls ≠ .strict →
      (s.station r.station).cls ≠ .unload → ∃ t, Answers (.lowered g m.id) s g.port t (Reply.bare .ok)
      ∧ t.hanger? h.tag = some { h with state := .aborted, phase := none, restCause := some .abortMove, pendingAbort := false,
                                        forward := none, step := k, location := .slot r }
      ∧ t.moves = u.moves ∧ t.moveCounter = s.moveCounter ∧ t.port0 = u.port0
      ∧ (∀ o : GantryId, t.port o.port = u.port o.port)
      ∧ t.slotAt r = .occupied h.tag ∧ ReleasesOtherSlots s t h.tag r ∧ KeepsStationFields s t
      ∧ KeepsOtherHangers s t h.tag ∧ t.baths = u.baths ∧ OccupancyTold s t r.station ∧ KeepsSettings s t
      ∧ t.recipes = s.recipes ∧ t.startOrder = s.startOrder ∧ t.lines = s.lines ∧ t.gantryA = s.gantryA
      ∧ t.gantryB = s.gantryB)
    ∧ (m.kind = .abort → (s.station r.station).cls = .unload → ∃ t, Answers (.lowered g m.id) s g.port t (Reply.bare .ok)
      ∧ t.hanger? h.tag = some { h with state := .aborted, phase := none, restCause := some .abortMove, pendingAbort := false,
                                        forward := none, step := (s.recipe h.recipe).active.length, location := .slot r }
      ∧ t.moves = u.moves ∧ t.moveCounter = s.moveCounter ∧ t.port0 = u.port0
      ∧ (∀ o : GantryId, t.port o.port = u.port o.port)
      ∧ t.slotAt r = .occupied h.tag ∧ ReleasesOtherSlots s t h.tag r ∧ KeepsStationFields s t
      ∧ KeepsOtherHangers s t h.tag ∧ t.baths = u.baths ∧ OccupancyTold s t r.station ∧ KeepsSettings s t
      ∧ t.recipes = s.recipes ∧ t.startOrder = s.startOrder ∧ t.lines = s.lines ∧ t.gantryA = s.gantryA
      ∧ t.gantryB = s.gantryB)
    ∧ (∀ k q f, m.kind ≠ .abort → s.target? h = some (.step k q) → s.recipeStep? h.recipe k = some f →
      ((s.station r.station).cls = .bounded ∨ (s.station r.station).cls = .opened) → ∃ t h' e,
      Answers (.lowered g m.id) s g.port t (Reply.bare .ok)
      ∧ t.hanger? h.tag = some h' ∧ h'.state = .aborted ∧ h'.phase = none ∧ h'.restCause = some .inStep
      ∧ h'.pendingAbort = false ∧ h'.forward = none ∧ h'.step = k ∧ h'.location = .slot r ∧ h'.imm.counting = false
      ∧ h'.run.getLast? = some e ∧ e.condition = some .aborted ∧ e.actual = some 0 ∧ e.endTime = some s.lineTime
      ∧ t.moves = u.moves ∧ t.moveCounter = s.moveCounter
      ∧ t.port0 = (u.port0.push (plainNotice .step s.lineTime (some h.tag) (some r.station) k)).push
          (plainNotice .condition s.lineTime (some h.tag) (some r.station) Condition.aborted.code)
      ∧ (∀ o : GantryId, t.port o.port = u.port o.port)
      ∧ t.slotAt r = .occupied h.tag ∧ ReleasesOtherSlots s t h.tag r ∧ KeepsStationFields s t
      ∧ KeepsOtherHangers s t h.tag ∧ t.baths = u.baths ∧ OccupancyTold s t r.station ∧ KeepsSettings s t
      ∧ t.recipes = s.recipes ∧ t.startOrder = s.startOrder ∧ t.lines = s.lines ∧ t.gantryA = s.gantryA
      ∧ t.gantryB = s.gantryB)
    ∧ (∀ k q f, s.target? h = some (.step k q) → s.recipeStep? h.recipe k = some f →
      (s.station r.station).cls = .strict → s.barRaised r.station = false → ∃ t h' e x,
      Answers (.lowered g m.id) s g.port t (Reply.bare .ok)
      ∧ t.hanger? h.tag = some h' ∧ h'.state = .immersed ∧ h'.phase = none ∧ h'.pendingAbort = true
      ∧ h'.forward = h.forward ∧ h'.step = k ∧ h'.location = .slot r ∧ h'.imm.counting = false
      ∧ h'.run.getLast? = some e ∧ e.condition = some .aborted ∧ e.actual = some 0 ∧ e.reference = some 0
      ∧ e.endTime = some s.lineTime
      ∧ t.moves = u.moves ++ [x] ∧ t.moveCounter = (s.freshId + 1) % 256 ∧ x.id = s.freshId ∧ x.kind = .abort
      ∧ x.tag = some h.tag ∧ x.seq = some h.seq ∧ x.source = .slot r ∧ x.dest = h.forward.map Place.slot
      ∧ x.ready = s.lineTime ∧ x.deadline = some s.lineTime ∧ x.due = none ∧ x.drip = f.drip ∧ x.state = .ready
      ∧ WorkPosted u t x
      ∧ t.port0 = (u.port0.push (plainNotice .step s.lineTime (some h.tag) (some r.station) k)).push
          (plainNotice .condition s.lineTime (some h.tag) (some r.station) Condition.aborted.code)
      ∧ t.slotAt r = .occupied h.tag ∧ KeepsOtherSlots s t r ∧ KeepsStationFields s t
      ∧ KeepsOtherHangers s t h.tag ∧ t.baths = u.baths ∧ OccupancyTold s t r.station ∧ KeepsSettings s t
      ∧ t.recipes = s.recipes ∧ t.startOrder = s.startOrder ∧ t.lines = s.lines ∧ t.gantryA = s.gantryA
      ∧ t.gantryB = s.gantryB)
    ∧ (∀ k q f, s.target? h = some (.step k q) → s.recipeStep? h.recipe k = some f →
      (s.station r.station).cls = .strict → s.barRaised r.station = true → ∃ t h' e x,
      Answers (.lowered g m.id) s g.port t (Reply.bare .ok)
      ∧ t.hanger? h.tag = some h' ∧ h'.state = .rescued ∧ h'.phase = none ∧ h'.pendingAbort = true
      ∧ h'.forward = h.forward ∧ h'.step = k ∧ h'.location = .slot r ∧ h'.imm.counting = false ∧ h'.imm.compare = none
      ∧ h'.run.getLast? = some e ∧ e.condition = some .aborted ∧ e.actual = some 0 ∧ e.reference = some 0
      ∧ e.endTime = some s.lineTime ∧ e.notes.rescued = true
      ∧ t.moves = u.moves ++ [x] ∧ t.moveCounter = (s.freshId + 1) % 256 ∧ x.id = s.freshId ∧ x.kind = .abort
      ∧ x.tag = some h.tag ∧ x.seq = some h.seq ∧ x.source = .slot r ∧ x.dest = h.forward.map Place.slot
      ∧ x.ready = s.lineTime ∧ x.deadline = some s.lineTime ∧ x.due = none ∧ x.drip = f.drip ∧ x.state = .ready
      ∧ WorkPosted u t x
      ∧ t.port0 = (u.port0.push (plainNotice .step s.lineTime (some h.tag) (some r.station) k)).push
          (plainNotice .condition s.lineTime (some h.tag) (some r.station) Condition.aborted.code)
      ∧ t.slotAt r = .occupied h.tag ∧ KeepsOtherSlots s t r ∧ KeepsStationFields s t
      ∧ KeepsOtherHangers s t h.tag ∧ t.baths = u.baths ∧ OccupancyTold s t r.station ∧ KeepsSettings s t
      ∧ t.recipes = s.recipes ∧ t.startOrder = s.startOrder ∧ t.lines = s.lines ∧ t.gantryA = s.gantryA
      ∧ t.gantryB = s.gantryB)
    ∧ (m.kind ≠ .abort → (s.station r.station).cls = .unload → ∃ t h' e,
      Answers (.lowered g m.id) s g.port t (Reply.bare .ok)
      ∧ t.hanger? h.tag = some h' ∧ h'.state = .aborted ∧ h'.phase = none ∧ h'.restCause = some .exit
      ∧ h'.pendingAbort = false ∧ h'.forward = none ∧ h'.step = (s.recipe h.recipe).active.length ∧ h'.location = .slot r
      ∧ h'.run.getLast? = some e ∧ e.condition = some .aborted ∧ e.actual = some 0 ∧ e.endTime = some s.lineTime
      ∧ t.moves = u.moves ∧ t.moveCounter = s.moveCounter
      ∧ t.port0 = u.port0.push (plainNotice .condition s.lineTime (some h.tag) (some r.station) Condition.aborted.code)
      ∧ (∀ o : GantryId, t.port o.port = u.port o.port)
      ∧ t.slotAt r = .occupied h.tag ∧ ReleasesOtherSlots s t h.tag r ∧ KeepsStationFields s t
      ∧ KeepsOtherHangers s t h.tag ∧ t.baths = u.baths ∧ OccupancyTold s t r.station ∧ KeepsSettings s t
      ∧ t.recipes = s.recipes ∧ t.startOrder = s.startOrder ∧ t.lines = s.lines ∧ t.gantryA = s.gantryA
      ∧ t.gantryB = s.gantryB)

/-- R42, R110, R134, R143, R144, R145: DONE and ABANDON leave the gantry idle at a coordinate, READY or PAUSED, with its span shrunk
to it and its GANTRY-STATE notice; DONE removes the move, ABANDON returns it to READY with the hanger as it was before the grant,
a LOADED one back in its place in the start order. A gantry that enters READY is sent WORK for the first READY move it can serve,
and at ABANDON the move given back is then made known to both. The coordinate at DONE is log 25, the fault code in a GANTRY-STATE
notice log 11, and that no PAUSE notice is posted on entering PAUSED log 12 (DEDUCED by the model). -/
def Obligations.DoneAndAbandonEndTheWork : Prop :=
  ∀ (g : GantryId) (m : Move) (s : State), PortFree s g.port → Holds s g m → m.id ≤ 255 → (s.gantry g).link = .busy →
    (∀ p, (m.state = .placed ∨ (m.state = .granted ∧ m.kind = .yielding)) → m.dest = some p → ∃ t,
      Answers (.done g m.id) s g.port t (Reply.bare .ok)
      ∧ t.gantry g = { s.gantry g with
          link := if (s.gantry g).pausePending then .paused else .ready, pausePending := false, granted := none
          point := s.coordOf p, spanLow := s.coordOf p, spanHigh := s.coordOf p }
      ∧ t.gantry g.other = s.gantry g.other ∧ t.moves = (s.removeMove m.id).moves ∧ t.move? m.id = none
      ∧ KeepsRecords s t ∧ KeepsSettings s t
      ∧ t.port0 = s.port0.push (gantryNotice s.lineTime g (if (s.gantry g).pausePending then .paused else .ready)
          (s.gantry g).faultCode)
      ∧ ((s.gantry g).pausePending = true → t.port g.port = (s.opened g.port 3).port g.port)
      ∧ ((s.gantry g).pausePending = false → t.port g.port = offeredWork t g ((s.opened g.port 3).port g.port))
      ∧ t.port g.other.port = s.port g.other.port)
    ∧ (∀ x, 4095 < x → Answers (.abandon g m.id x) s g.port (s.opened g.port 5) (Reply.bare .badArg))
    ∧ (∀ x, m.state = .granted → m.kind ≠ .yielding → x ≤ 4095 → (x < (s.gantry g).spanLow ∨ (s.gantry g).spanHigh < x) →
      Answers (.abandon g m.id x) s g.port (s.opened g.port 5) (Reply.bare .badArg))
    ∧ (∀ x h, m.state = .granted → m.kind ≠ .yielding → x ≤ 4095 → (s.gantry g).spanLow ≤ x → x ≤ (s.gantry g).spanHigh →
      m.tag = some h.tag → s.hanger? h.tag = some h → h.pendingAbort = false → ∃ t,
      Answers (.abandon g m.id x) s g.port t (Reply.bare .ok)
      ∧ t.gantry g = { s.gantry g with
          link := if (s.gantry g).pausePending then .paused else .ready, pausePending := false, granted := none, point := x,
          spanLow := x, spanHigh := x }
      ∧ t.gantry g.other = s.gantry g.other
      ∧ t.move? m.id = some { m with state := .ready, gantry := none, grantTime := none, estimate := none, limit := none }
      ∧ KeepsOtherMoves s t m.id
      ∧ t.hanger? h.tag = some (if h.state = .inTransit then
          { h with state := if m.kind = .entry then .loaded else .immersed, phase := none } else h)
      ∧ KeepsOtherHangers s t h.tag ∧ t.stations = s.stations ∧ t.recipes = s.recipes ∧ t.baths = s.baths
      ∧ t.channels = s.channels ∧ t.lines = s.lines ∧ KeepsSettings s t
      ∧ t.port0 = s.port0.push (gantryNotice s.lineTime g (if (s.gantry g).pausePending then .paused else .ready)
          (s.gantry g).faultCode)
      ∧ (∃ q, q = abandonPort s g ((s.opened g.port 5).port g.port)
        ∧ t.port g.port = if (t.gantry g).link = .ready ∧ t.canServe g m = true then worked q (workNotice s.lineTime m) else q)
      ∧ t.port g.other.port = (if (t.gantry g.other).link = .ready ∧ t.canServe g.other m = true then
          worked (s.port g.other.port) (workNotice s.lineTime m) else s.port g.other.port)
      ∧ (¬ (h.state = .loaded ∨ (h.state = .inTransit ∧ m.kind = .entry)) → t.startOrder = s.startOrder)
      ∧ ((h.state = .loaded ∨ (h.state = .inTransit ∧ m.kind = .entry)) → Rejoined s h t.startOrder))

/-- R136, R146, R147, R148, R42, R145, R110, R190: a FAULT, answered OK, a move limit and GANTRY-RESET take the gantry out of
service with its span kept; the move it holds returns to READY before LIFTED, a LOADED hanger back in its place in the start
order; it strands its hanger when CARRIED, and is removed otherwise, the other moves staying but for a YIELD move made for it;
GANTRY-STATE, MOVE-TIMEOUT, STRANDED and WORK are posted, and STRANDED in a full queue tests ALARM. The fault code in a
GANTRY-STATE notice is log 11 (DEDUCED); the order of the notices of one event is log 15 and log 34, and that the identifier
byte under presence 00h is not read log 33 (DESIGN CHOICES of the model). -/
def Obligations.FailuresTakeTheMoveByItsPhase : Prop :=
  ∀ (g : GantryId) (m : Move) (i : Instr) (k : Option Nat) (l : LinkState) (s : State),
    s.move? m.id = some m → m.id ≤ 255 → (s.gantry g).granted = some m.id → (s.gantry g).link = .busy →
    FailsAt s g m i l k →
    ∃ t, exec i s = .next t
      ∧ t.gantry g.other = s.gantry g.other
      ∧ t.gantry g = { s.gantry g with
          link := l, pausePending := false, last := some m.id, granted := none, faultCode := k
          hold := match m.state, m.tag, m.dest with
            | .carried, some tag, some (.slot d) => some { tag := tag, dest := d }
            | _, _, _ => (s.gantry g).hold }
      ∧ (∀ h, m.state = .granted → m.kind ≠ .yielding → m.tag = some h.tag → s.hanger? h.tag = some h →
        h.pendingAbort = false →
        t.move? m.id = some { m with state := .ready, gantry := none, grantTime := none, estimate := none, limit := none }
        ∧ KeepsOtherMoves s t m.id
        ∧ t.hanger? h.tag = some (if h.state = .inTransit then
            { h with state := if m.kind = .entry then .loaded else .immersed, phase := none } else h)
        ∧ KeepsOtherHangers s t h.tag
        ∧ (¬ (h.state = .loaded ∨ (h.state = .inTransit ∧ m.kind = .entry)) → t.startOrder = s.startOrder)
        ∧ ((h.state = .loaded ∨ (h.state = .inTransit ∧ m.kind = .entry)) → Rejoined s h t.startOrder))
      ∧ (∀ h d, m.state = .carried → m.tag = some h.tag → m.dest = some (.slot d) → s.hanger? h.tag = some h →
        t.hanger? h.tag = some { h with state := .stranded, location := .gantry g, phase := none, pendingAbort := false }
        ∧ KeepsOtherHangers s t h.tag ∧ t.move? m.id = none ∧ t.startOrder = s.startOrder)
      ∧ ((m.state = .placed ∨ (m.state = .granted ∧ m.kind = .yielding)) →
        t.move? m.id = none ∧ t.hangers = s.hangers ∧ t.startOrder = s.startOrder)
      ∧ ((m.state = .carried ∨ m.state = .placed ∨ (m.state = .granted ∧ m.kind = .yielding)) → WithoutMove s t m.id)
      ∧ (m.state ≠ .granted ∨ m.kind = .yielding ∨ (∀ x h, m.tag = some x → s.hanger? x = some h → h.pendingAbort = false) →
        t.stations = s.stations)
      ∧ ((∀ x h, m.tag = some x → s.hanger? x = some h → h.pendingAbort = false ∨ m.state ≠ .granted) →
        ∃ (out : Notice) (late stranded : List Notice), out = gantryNotice s.lineTime g l k
        ∧ late = (if i = .moveLimitReached m.id ∧ m.state ≠ .placed then [timeoutNotice s.lineTime g m] else [])
        ∧ stranded = (match m.state, m.tag, m.dest with
            | .carried, some tag, some (.slot d) =>
              [{ kind := .stranded, time := s.lineTime, tag := some tag, station := some d.station, move := some m.id,
                 codeA := 0, codeB := 0, codeC := 0, codeD := 0 }]
            | _, _, _ => [])
        ∧ (i ≠ .gantryReset (gantryCode g) → t.port0 = (out :: late ++ stranded).foldl Port.push s.port0)
        ∧ (i = .gantryReset (gantryCode g) → t.port0 =
            { (stranded ++ [out]).foldl Port.push (s.opened .p0 3).port0 with holder := .working (Reply.bare .ok) })
        ∧ t.port g.other.port = (if m.state = .granted ∧ m.kind ≠ .yielding ∧ (s.gantry g.other).link = .ready
              ∧ t.canServe g.other m = true ∧ (m.tag.bind s.hanger?).isSome = true then
            worked (s.port g.other.port) (workNotice s.lineTime m) else s.port g.other.port)
        ∧ t.alarm = (if stranded ≠ [] ∧ 16 ≤ (if i = .gantryReset (gantryCode g) then s.port0
              else (out :: late).foldl Port.push s.port0).queue.length then
            t.port0.queue.any (fun n => !n.kind.maskable && decide (s.alarmDelay < (s.lineTime - n.time).toNat))
          else s.alarm))
      ∧ OwnPort s t g m i false ∧ t.moveCounter = s.moveCounter
      ∧ t.recipes = s.recipes ∧ t.baths = s.baths ∧ t.channels = s.channels ∧ t.lines = s.lines ∧ KeepsSettings s t

/-- R52, R47, R48, R49, R110, R134, R136, R144, R145: a GRANTED move that ABANDON, a FAULT, a move limit or GANTRY-RESET returns to
READY applies the pending abort of its hanger as for the state returned to: LOADED or IMMERSED in a BOUNDED or OPEN station,
the hanger rests ABORTED, its move goes and its reservations are released; IMMERSED in a STRICT station or RESCUED, its move
is an ABORT move to the slot it was converted to. ABANDON, answered OK, leaves the gantry at its coordinate, the span shrunk to
it; FAULT is answered OK. That the pending abort is no on the ABORTED hanger is log 19, that an ABORT
move keeps its times log 10 and the fault code in a GANTRY-STATE notice log 11 (DEDUCED by the model); at GANTRY-RESET the
release is log 28, the order of the notices logs 15 and 34, and that the identifier byte under presence 00h is not read log 33
(DESIGN CHOICES of the model). -/
def Obligations.PendingAbortIsAppliedAtTheReturn : Prop :=
  ∀ (g : GantryId) (m : Move) (h : Hanger) (i : Instr) (l : LinkState) (k : Option Nat) (s : State),
    s.move? m.id = some m → (∀ m' ∈ s.moves, m'.id = m.id → m' = m) → m.id ≤ 255 → m.state = .granted → m.kind ≠ .yielding →
    (s.gantry g).granted = some m.id → (s.gantry g).link = .busy → m.tag = some h.tag → s.hanger? h.tag = some h →
    s.hangerMove? h.tag = some m → h.pendingAbort = true →
    (FailsAt s g m i l k
      ∨ (∃ x, i = .abandon g m.id x ∧ x ≤ 4095 ∧ (s.gantry g).spanLow ≤ x ∧ x ≤ (s.gantry g).spanHigh ∧ PortFree s g.port
        ∧ l = (if (s.gantry g).pausePending then .paused else .ready) ∧ k = (s.gantry g).faultCode)) →
    ∃ t, exec i s = .next t
      ∧ t.gantry g.other = s.gantry g.other
      ∧ (∀ x, i = .abandon g m.id x → t.gantry g = { s.gantry g with
          link := l, pausePending := false, granted := none, point := x, spanLow := x, spanHigh := x })
      ∧ ((∀ x, i ≠ .abandon g m.id x) → t.gantry g = { s.gantry g with
          link := l, pausePending := false, last := some m.id, granted := none, faultCode := k })
      ∧ KeepsOtherHangers s t h.tag ∧ KeepsStationFields s t ∧ t.recipes = s.recipes ∧ t.baths = s.baths
      ∧ t.channels = s.channels ∧ t.lines = s.lines ∧ KeepsSettings s t ∧ t.moveCounter = s.moveCounter
      ∧ t.alarm = s.alarm
      ∧ ((h.state = .loaded ∨ (h.state = .inTransit ∧ m.kind = .entry)) →
        t.hanger? h.tag = some { h with state := .aborted, phase := none, restCause := some .unstarted, pendingAbort := false,
                                        forward := none }
        ∧ t.moves = (s.removeMove m.id).moves ∧ t.startOrder = s.startOrder.filter (fun x => x != h.tag)
        ∧ (∀ r, t.slotAt r = if (s.slotAt r).reservedFor h.tag = true then .free else s.slotAt r)
        ∧ ReturnPort s t g m i l k (fun q => q) ∧ OwnPort s t g m i false ∧ t.port g.other.port = s.port g.other.port)
      ∧ (∀ r, (h.state = .immersed ∨ (h.state = .inTransit ∧ m.kind ≠ .entry)) → h.location = .slot r →
        (s.station r.station).cls ≠ .strict →
        t.hanger? h.tag = some { h with state := .aborted, phase := none, restCause := some .inStep, pendingAbort := false,
                                        forward := none, imm := { h.imm with counting := false },
                                        run := closedRun h s.lineTime .aborted }
        ∧ t.moves = (s.removeMove m.id).moves ∧ t.startOrder = s.startOrder
        ∧ (∀ r', t.slotAt r' = if (s.slotAt r').reservedFor h.tag = true then .free else s.slotAt r')
        ∧ ReturnPort s t g m i l k (fun q => closedPort q h s.lineTime .aborted) ∧ OwnPort s t g m i false
        ∧ t.port g.other.port = s.port g.other.port)
      ∧ ((h.state = .rescued ∨ ((h.state = .immersed ∨ (h.state = .inTransit ∧ m.kind ≠ .entry))
          ∧ ∃ r, h.location = .slot r ∧ (s.station r.station).cls = .strict)) →
        t.hanger? h.tag = some { h with
          state := if h.state = .rescued then .rescued else .immersed
          phase := if h.state = .inTransit then none else h.phase
          imm := { h.imm with counting := false }, run := closedRun h s.lineTime .aborted }
        ∧ t.move? m.id = some (if m.kind = .abort then
            { m with state := .ready, gantry := none, grantTime := none, estimate := none, limit := none }
          else { m with kind := .abort, state := .ready, gantry := none, grantTime := none, estimate := none, limit := none,
                        due := none, ready := s.lineTime, deadline := some s.lineTime })
        ∧ KeepsOtherMoves s t m.id ∧ t.stations = s.stations ∧ t.startOrder = s.startOrder
        ∧ ReturnPort s t g m i l k (fun q => closedPort q h s.lineTime .aborted) ∧ OwnPort s t g m i true
        ∧ t.port g.other.port = (if (s.gantry g.other).link = .ready ∧ t.canServe g.other m = true then
            worked (s.port g.other.port) (workNotice s.lineTime m) else s.port g.other.port))

/-- R131, R136, R140, R146, R148: an idle gantry faults with no move, a reset of an idle gantry returns it to OFFLINE with
its point and span kept, and a limit that is not reached does nothing. The fault code in a GANTRY-STATE notice is log 11
(DEDUCED); that a FAULT with presence 00h names no move, whatever its identifier byte holds, is log 33, and that a limit not
reached does nothing log 4 (DESIGN CHOICES of the model). -/
def Obligations.IdleGantriesFaultAndReset : Prop :=
  ∀ (g : GantryId) (s : State),
    (∀ id c, PortFree s g.port → ((s.gantry g).link = .faulted ∨ (s.gantry g).link = .offline) →
      Answers (.fault g 0 id c) s g.port (s.opened g.port 5) (Reply.bare .notNow))
    ∧ (∀ p id c, PortFree s g.port → 1 < p → Answers (.fault g p id c) s g.port (s.opened g.port 5) (Reply.bare .badArg))
    ∧ (∀ id c, PortFree s g.port → ((s.gantry g).link = .homing ∨ (s.gantry g).link = .ready ∨ (s.gantry g).link = .paused) →
      (s.gantry g).granted = none → ∃ t,
      Answers (.fault g 0 id c) s g.port t (Reply.bare .ok)
      ∧ t.gantry g = { s.gantry g with link := .faulted, pausePending := false, last := none, faultCode := some c }
      ∧ t.gantry g.other = s.gantry g.other
      ∧ t.moves = (if (s.gantry g).link = .ready then (s.removeOwnYield g).moves else s.moves)
      ∧ t.port0 = s.port0.push (gantryNotice s.lineTime g .faulted (some c))
      ∧ t.port g.port = (s.opened g.port 5).port g.port ∧ t.port g.other.port = s.port g.other.port
      ∧ t.alarm = s.alarm ∧ t.moveCounter = s.moveCounter ∧ KeepsRecords s t ∧ KeepsSettings s t)
    ∧ (PortFree s .p0 → (s.gantry g).link = .offline →
      Answers (.gantryReset (gantryCode g)) s .p0 (s.opened .p0 3) (Reply.bare .ok))
    ∧ (PortFree s .p0 → (s.gantry g).link ≠ .offline → (s.gantry g).link ≠ .busy → ∃ t,
      Answers (.gantryReset (gantryCode g)) s .p0 t (Reply.bare .ok)
      ∧ t.gantry g = { s.gantry g with link := .offline, pausePending := false } ∧ t.gantry g.other = s.gantry g.other
      ∧ t.moves = (if (s.gantry g).link = .ready then (s.removeOwnYield g).moves else s.moves)
      ∧ t.port0 = (s.opened .p0 3).port0.push (gantryNotice s.lineTime g .offline (s.gantry g).faultCode)
      ∧ t.port1 = s.port1 ∧ t.port2 = s.port2 ∧ t.alarm = s.alarm ∧ t.moveCounter = s.moveCounter
      ∧ KeepsRecords s t ∧ KeepsSettings s t)
    ∧ (∀ id, (∀ m x, s.move? id = some m → m.limit = some x → m.gantry ≠ none → reached s.lineTime x = false) →
      exec (.moveLimitReached id) s = .next s)

/-! ### Agitation -/

/-- R152: SET-CHANNEL: its tests in their order, the clamped settings, the station change, and the state the channel takes: OFF,
as it was, or started as at its first assignment. A channel with no station is recorded empty (log 20, DESIGN CHOICE of the
model). -/
def Obligations.SetChannelAssignsAndStarts : Prop :=
  ∀ (ch : Nat) (s : State), PortFree s .p0 →
    (∀ st en b len,
      ((7 < ch ∨ (23 < st ∧ st ≠ 255) ∨ 1 < en) →
        Answers (.setChannel ch st en b len) s .p0 (s.opened .p0 8) (Reply.bare .badArg))
      ∧ (ch ≤ 7 → (st ≤ 23 ∨ st = 255) → en ≤ 1 →
        ((s.channel ch).state = .bursting →
          Answers (.setChannel ch st en b len) s .p0 (s.opened .p0 8) (Reply.bare .busy))
        ∧ ((s.channel ch).state ≠ .bursting → st ≤ 23 →
          ((s.station st).configured = false →
            Answers (.setChannel ch st en b len) s .p0 (s.opened .p0 8) (Reply.bare .noSuch))
          ∧ ((s.station st).configured = true → ((s.station st).cls = .load ∨ (s.station st).cls = .unload) →
            Answers (.setChannel ch st en b len) s .p0 (s.opened .p0 8) (Reply.bare .badArg))
          ∧ ((s.station st).configured = true → (s.station st).cls ≠ .load → (s.station st).cls ≠ .unload →
            (∃ n, (s.station st).gasChannel = some n ∧ n ≠ ch) →
            Answers (.setChannel ch st en b len) s .p0 (s.opened .p0 8) (Reply.bare .inUse)))))
    ∧ (∀ (new : Option Nat) (en : Bool) (b len b' l' : Nat) (c base : Channel) (moved : Bool), ch ≤ 7 →
      c = s.channel ch → c.state ≠ .bursting →
      (∀ st, new = some st → st ≤ 23 ∧ (s.station st).configured = true ∧ (s.station st).cls ≠ .load
        ∧ (s.station st).cls ≠ .unload ∧ ((s.station st).gasChannel = none ∨ (s.station st).gasChannel = some ch)) →
      b' = max 1 (min b 600) → l' = min (max 1 (min len 50)) (6000 / b' - 1) →
      moved = (c.station != new) →
      base = { c with
        station := new, enable := en, cadence := b', length := l', interval := 6000 / b', remainder := 6000 - 6000 / b' * b'
        accumulator := 0
        bursts := if moved then 0 else c.bursts
        skips := if moved then 0 else c.skips
        deferredDue := if moved then none else c.deferredDue
        holdTrip := if moved then
            (match new with
              | some st => (match s.bath? st with | some x => x.readiness == .tripped | none => false)
              | none => false)
          else c.holdTrip
        holdRescue := if moved then (match new with | some st => s.barRaised st | none => false) else c.holdRescue
        empty := if moved then (match new with | some st => (s.station st).occupiedCount == 0 | none => true) else c.empty } →
      ∃ t c',
        Answers (.setChannel ch (new.getD 255) (if en then 1 else 0) b len) s .p0 t
          (Reply.bare (if b' = b ∧ l' = len then .ok else .clamped))
        ∧ t = { s.opened .p0 8 with stations := t.stations, channels := s.channels.setIfInBounds ch c' }
        ∧ (∀ o, t.station o = { s.station o with gasChannel :=
              (if moved = true ∧ new = some o then some ch
              else if moved = true ∧ c.station = some o then none else (s.station o).gasChannel) })
        ∧ ((new = none ∨ en = false) →
          c' = { base with state := .off, nextDue := none, deferredDue := none, burstEnd := none })
        ∧ (new ≠ none → en = true → c.state ≠ .off → moved = false → c' = base)
        ∧ (new ≠ none → en = true → (c.state = .off ∨ moved = true) →
          (base.anyCause = true → c' = { base with state := .held, nextDue := if base.empty then none else some s.lineTime })
          ∧ (base.anyCause = false → base.empty = true → c' = { base with state := .paused, nextDue := none })
          ∧ (base.anyCause = false → base.empty = false →
            c' = { base with
              accumulator := if b' ≤ base.remainder then base.remainder - b' else base.remainder
              nextDue := some (s.lineTime + BitVec.ofNat 32 (if b' ≤ base.remainder then 6000 / b' + 1 else 6000 / b'))
              state := if s.gasInUse < s.gasLimit then .bursting else .deferred
              burstEnd := if s.gasInUse < s.gasLimit then some (s.lineTime + BitVec.ofNat 32 l') else base.burstEnd
              deferredDue := if s.gasInUse < s.gasLimit then none else some s.lineTime
              bursts := if s.gasInUse < s.gasLimit then min 65535 (base.bursts + 1) else base.bursts })))

/-- R159 to R161: SET-GAS-LIMIT replaces G while no channel is BURSTING; GAS-HOLD sets the SUPERVISOR cause, which holds a
running channel, and releases it, which carries the channel on from a next due past the line time. -/
def Obligations.GasLimitAndHolds : Prop :=
  ∀ s : State, PortFree s .p0 →
    (∀ g, ((g < 1 ∨ 4 < g) → Answers (.setGasLimit g) s .p0 (s.opened .p0 3) (Reply.bare .badArg))
      ∧ (1 ≤ g → g ≤ 4 →
        ((∃ n, n ≤ 7 ∧ (s.channel n).state = .bursting) →
          Answers (.setGasLimit g) s .p0 (s.opened .p0 3) (Reply.bare .busy))
        ∧ ((∀ n, n ≤ 7 → (s.channel n).state ≠ .bursting) →
          Answers (.setGasLimit g) s .p0 { s.opened .p0 3 with gasLimit := g } (Reply.bare .ok))))
    ∧ (∀ ch h, (7 < ch ∨ 1 < h) → Answers (.gasHold ch h) s .p0 (s.opened .p0 4) (Reply.bare .badArg))
    ∧ (∀ ch, ch ≤ 7 →
      (∃ t, t = { s.opened .p0 4 with channels := t.channels } ∧ HoldSet s t ch .supervisor
        ∧ Answers (.gasHold ch 0) s .p0 t (Reply.bare .ok))
      ∧ (∃ t, t = { s.opened .p0 4 with channels := t.channels } ∧ HoldEnded s t ch .supervisor
        ∧ Answers (.gasHold ch 1) s .p0 t (Reply.bare .ok)))

/-- R151, R153, R156 to R158: one scheduling adds the remainder to the accumulator and the interval it gives to the due time; from
an accumulator of 0, B schedulings one after the other move the next due by 6000 tenths and return the accumulator to 0. GASn is
asserted while channel n is BURSTING; a burst falls due at a WAITING, DEFERRED or BURSTING channel whose next due is reached, and
ends at its burst end; the valve that closes goes to the DEFERRED channel with the earliest deferred due, ties to the lower
number. That the row of a burst not due changes nothing is log 4 (DESIGN CHOICE of the model). -/
def Obligations.BurstsAreSpacedFallDueAndEnd : Prop :=
  ((∀ (c : Channel) (d : LineTime),
    (c.cadence ≤ c.accumulator + c.remainder → c.schedule d =
      { c with accumulator := c.accumulator + c.remainder - c.cadence
               nextDue := some (d + BitVec.ofNat 32 (c.interval + 1)) })
    ∧ (c.accumulator + c.remainder < c.cadence → c.schedule d =
      { c with accumulator := c.accumulator + c.remainder, nextDue := some (d + BitVec.ofNat 32 c.interval) }))
  ∧ (∀ (b : Nat) (d : LineTime) (f : Nat → Channel), 1 ≤ b → b ≤ 600 →
    (f 0).cadence = b → (f 0).interval = 6000 / b → (f 0).remainder = 6000 - 6000 / b * b → (f 0).accumulator = 0 →
    (f 0).nextDue = some d → (∀ j x, (f j).nextDue = some x → f (j + 1) = (f j).schedule x) →
    (f b).nextDue = some (d + 6000#32) ∧ (f b).accumulator = 0))
  ∧ (∀ (n : Nat) (c : Channel) (s : State), n ≤ 7 → c = s.channel n →
    ((∀ d, c.nextDue = some d → reached s.lineTime d = false) → (∀ e, c.burstEnd = some e → reached s.lineTime e = false) →
      exec (.burstFallsDue n) s = .next s ∧ exec (.burstEnd n) s = .next s)
    ∧ (c.state ≠ .bursting → exec (.burstEnd n) s = .next s)
    ∧ ((c.state = .off ∨ c.state = .paused ∨ c.state = .held) → exec (.burstFallsDue n) s = .next s)
    ∧ (∀ d, c.nextDue = some d → reached s.lineTime d = true →
      (c.state = .waiting → s.gasInUse < s.gasLimit →
        exec (.burstFallsDue n) s = .next { s with channels := (s.channels.setIfInBounds n
          { c.schedule d with state := .bursting, burstEnd := some (d + BitVec.ofNat 32 c.length), deferredDue := none
                              bursts := min 65535 (c.bursts + 1) }) })
      ∧ (c.state = .waiting → s.gasLimit ≤ s.gasInUse →
        exec (.burstFallsDue n) s = .next { s with channels := (s.channels.setIfInBounds n
          { c.schedule d with state := .deferred, deferredDue := some d }) })
      ∧ (c.state = .deferred →
        exec (.burstFallsDue n) s = .next { s with channels := (s.channels.setIfInBounds n
          { c.schedule d with deferredDue := some d, skips := min 65535 (c.skips + 1) }) })
      ∧ (c.state = .bursting → (∀ e, c.burstEnd = some e → reached s.lineTime e = false) →
        exec (.burstFallsDue n) s = .next { s with channels := (s.channels.setIfInBounds n
          { c.schedule d with skips := min 65535 (c.skips + 1) }) }))
    ∧ (∀ e c', c.state = .bursting → c.burstEnd = some e → reached s.lineTime e = true →
      c' = (if c.empty then { c with state := .paused, burstEnd := none, nextDue := none }
            else { c with state := .waiting, burstEnd := none }) →
      ((∀ m, m ≤ 7 → (s.channel m).state ≠ .deferred) →
        exec (.burstEnd n) s = .next { s with channels := (s.channels.setIfInBounds n c') })
      ∧ (∀ m d, m ≤ 7 → (s.channel m).state = .deferred → (s.channel m).deferredDue = some d →
        (∀ o x, o ≤ 7 → o ≠ m → (s.channel o).state = .deferred → (s.channel o).deferredDue = some x →
          earlier d x = true ∨ (d = x ∧ m < o)) →
        exec (.burstEnd n) s = .next { s with channels := ((s.channels.setIfInBounds n c').setIfInBounds m
          { s.channel m with state := .bursting, burstEnd := some (s.lineTime + BitVec.ofNat 32 (s.channel m).length)
                             deferredDue := none, bursts := min 65535 ((s.channel m).bursts + 1) }) }))
    ∧ (∀ u, exec (.burstEnd n) s = .next u → exec (.burstFallsDue n) s = exec (.burstFallsDue n) u)
    ∧ (s.gasPin n = true ↔ c.state = .bursting))

/-! ### Line modes and rescue -/

/-- R26, R165 to R167: what RUN, DRAIN, HOLD, STOP, HOLD-AT and the set point do by the mode they find. That the row of a
set point not reached changes nothing is log 4 (DESIGN CHOICE of the model). -/
def Obligations.LineModesByRequestAndSetPoint : Prop :=
  ∀ s : State, ∃ (o : State) (note : LineMode → Nat → Notice), o = s.opened .p0 2
    ∧ (∀ m c, note m c = { kind := .lineMode, time := s.lineTime, tag := none, station := none, move := none,
                           codeA := m.code, codeB := c, codeC := 0, codeD := 0 })
    ∧ (PortFree s .p0 →
      (s.mode = .run → Answers .run s .p0 o (Reply.bare .notNow) ∧ Answers .drain s .p0
          { o with mode := .drain, port0 := o.port0.push (note .drain 0) } (Reply.bare .ok)
        ∧ Answers .hold s .p0 { o with mode := .hold, port0 := o.port0.push (note .hold 0) } (Reply.bare .ok))
      ∧ (s.mode ≠ .run → Answers .drain s .p0 o (Reply.bare .notNow) ∧ Answers .hold s .p0 o (Reply.bare .notNow)
        ∧ ∃ t : State, t = { o with mode := .run, port0 := o.port0.push (note .run 0), recipes := t.recipes }
          ∧ (∀ r, r ≤ 15 → t.recipe r =
              if (s.recipe r).active = [] then { s.recipe r with valid := false, lastFault := some (0, .empty) }
              else match s.versionFault true (s.recipe r).active with
                | some f => { s.recipe r with valid := false, lastFault := some f }
                | none => { s.recipe r with valid := true, lastFault := none })
          ∧ Answers .run s .p0 t { status := .ok, payload := bytes2 t.invalidSet })
      ∧ ((s.gantryA.link = .busy ∨ s.gantryB.link = .busy) → Answers .stop s .p0 o (Reply.bare .notNow))
      ∧ (s.gantryA.link ≠ .busy → s.gantryB.link ≠ .busy →
        (s.mode = .idle → Answers .stop s .p0 o (Reply.bare .ok))
        ∧ (s.mode ≠ .idle →
          Answers .stop s .p0 { o with mode := .idle, port0 := o.port0.push (note .idle 0) } (Reply.bare .ok)))
      ∧ Answers (.holdAt 0) s .p0 { s.opened .p0 6 with holdAt := none } (Reply.bare .ok)
      ∧ (∀ t, t ≠ 0 → reached s.lineTime t = true → Answers (.holdAt t) s .p0 (s.opened .p0 6) (Reply.bare .badArg))
      ∧ (∀ t, t ≠ 0 → reached s.lineTime t = false →
        Answers (.holdAt t) s .p0 { s.opened .p0 6 with holdAt := some t } (Reply.bare .ok)))
    ∧ ((∀ t, s.holdAt = some t → reached s.lineTime t = false) → exec .holdAtReached s = .next s)
    ∧ (∀ t, s.holdAt = some t → reached s.lineTime t = true →
      (s.mode = .run → exec .holdAtReached s = .next
        { s with holdAt := none, mode := .hold, port0 := s.port0.push (note .hold 1) })
      ∧ (s.mode ≠ .run → exec .holdAtReached s = .next { s with holdAt := none }))

/-- R16, R32, R59, R126, R150, R164, R168, R193: CLEAR-LINE outside IDLE is refused; in IDLE it discards the hangers and the moves,
frees the OCCUPIED and RESERVED slots, clears the use counts, makes the staged versions active, each with its RECIPE-SWAPPED
notice behind the queued ones, clears the stranded holds and empties the channels of the stations it empties; everything else is
kept. That these notices stand in the order of the recipe indices is log 29 (DESIGN CHOICE of the model). -/
def Obligations.ClearLineEmptiesTheLine : Prop :=
  ∀ s : State, PortFree s .p0 →
    (s.mode ≠ .idle → Answers .clearLine s .p0 (s.opened .p0 2) (Reply.bare .notNow))
    ∧ (s.mode = .idle → ∃ t, Answers .clearLine s .p0 t (Reply.bare .ok)
      ∧ t.hangers = [] ∧ t.startOrder = [] ∧ t.moves = [] ∧ t.admissions = s.admissions ∧ t.moveCounter = s.moveCounter
      ∧ (∀ g, t.gantry g = { s.gantry g with hold := none })
      ∧ (∀ r : SlotRef, t.slotAt r = if s.slotAt r = .blocked then .blocked else .free) ∧ KeepsStationFields s t
      ∧ (∀ r, r ≤ 15 → t.recipe r = match (s.recipe r).staged with
          | some v => { active := v, staged := none, useCount := 0, valid := true, lastFault := none }
          | none => { s.recipe r with useCount := 0 })
      ∧ (∀ n, n ≤ 7 →
        ((∃ st, st ≤ 23 ∧ (s.station st).gasChannel = some n ∧ 0 < (s.station st).occupiedCount) →
          t.channel n = { s.channel n with
            empty := true
            state := match (s.channel n).state with
              | .waiting => .paused
              | .deferred => .paused
              | x => x
            nextDue := match (s.channel n).state with
              | .waiting => none
              | .deferred => none
              | _ => (s.channel n).nextDue
            deferredDue := match (s.channel n).state with
              | .deferred => none
              | _ => (s.channel n).deferredDue })
        ∧ ((¬ ∃ st, st ≤ 23 ∧ (s.station st).gasChannel = some n ∧ 0 < (s.station st).occupiedCount) →
          t.channel n = s.channel n))
      ∧ t.port0 = ((List.range 16).filter (fun r => (s.recipe r).staged.isSome)).foldl
          (fun q r => q.push (plainNotice .recipeSwapped s.lineTime none none r)) (s.opened .p0 2).port0
      ∧ t.baths = s.baths ∧ t.lines = s.lines ∧ KeepsSettings s t ∧ t.port1 = s.port1 ∧ t.port2 = s.port2
      ∧ t.alarm = s.alarm)

/-- R78, R160, R171 to R174, R176: a compare point that is reached and not yet signalled is signalled once: OVERDUE with no rescue
line, nothing with the line asserted, and otherwise the assertion, which rescues every hanger resting in the station,
closes its open entry by its progress, gives its move, but for an ABORT move, the rescue exit times, and holds the station's
gas channel. That RESCUE
joins the queue before the CONDITION notices is log 15, and that the row of a point not reached does nothing log 4
(DESIGN CHOICES of the model). -/
def Obligations.ComparePointRaisesTheBarOrOverdue : Prop :=
  ∀ (tag : Nat) (s : State),
    ((∀ h x, s.hanger? tag = some h → h.imm.compare = some x → h.imm.fired = true ∨ reached s.lineTime x = false) →
      exec (.rescueCompareReached tag) s = .next s)
    ∧ (∀ h x v, s.hanger? tag = some h → h.imm.compare = some x → h.imm.fired = false → reached s.lineTime x = true →
      v = { s with hangers := s.hangers.map (fun y => if y.tag = tag then { y with imm := { y.imm with fired := true } } else y) } →
      ((s.station h.imm.station).rescueLine = none →
        exec (.rescueCompareReached tag) s = .next { v with port0 := (s.port0.push
          { kind := .overdue, time := s.lineTime, tag := some tag, station := some h.imm.station, move := none, codeA := 0,
            codeB := 0, codeC := 0, codeD := 0 }) })
      ∧ (∀ l, (s.station h.imm.station).rescueLine = some l → (s.line l).asserted = true →
        exec (.rescueCompareReached tag) s = .next v)
      ∧ (∀ l, (s.station h.imm.station).rescueLine = some l → l ≤ 3 → (s.line l).asserted = false → ∃ t,
        exec (.rescueCompareReached tag) s = .next t
        ∧ t.line l = { asserted := true, assertTime := some s.lineTime, causeTag := some tag }
        ∧ (∀ n, n ≠ l → t.line n = s.line n) ∧ t.rescuePin l = true
        ∧ (∀ tag' y, v.hanger? tag' = some y →
          (y.restsIn h.imm.station = false → t.hanger? tag' = some y)
          ∧ (y.restsIn h.imm.station = true → ∃ run,
            run = closedRun y s.lineTime
              (if y.imm.closing * 1024 < y.imm.progress then .late
               else if y.imm.progress < y.imm.opening * 1024 then .under else .onTime)
            ∧ t.hanger? tag' = some { y with
                state := .rescued, phase := none
                imm := { y.imm with
                  counting := false, compare := none
                  fired := y.imm.fired || (y.imm.compare.any (fun x => reached s.lineTime x)) }
                run := run.dropLast
                  ++ (run.getLast?.map (fun e => { e with notes := { e.notes with rescued := true } })).toList }
            ∧ (∀ m, s.hangerMove? tag' = some m → (∀ m' ∈ s.moves, m'.id = m.id → m' = m) →
              (m.kind = .abort → t.move? m.id = some m)
              ∧ (m.kind ≠ .abort → t.move? m.id = some { m with
                  deadline := some (s.lineTime + BitVec.ofNat 32 (s.exitAllowance h.imm.station)), due := some s.lineTime
                  ready := s.lineTime, state := if m.state = .waiting then .ready else m.state }))))
        ∧ (∃ notices : List Notice, (∀ n ∈ notices, n.kind = .condition)
          ∧ t.port0 = notices.foldl Port.push (s.port0.push
            { kind := .rescue, time := s.lineTime, tag := some tag, station := some h.imm.station, move := none, codeA := l,
              codeB := 0, codeC := 0, codeD := 0 }))
        ∧ StationHeld s t h.imm.station .rescue
        ∧ KeepsSettings s t ∧ t.stations = s.stations ∧ t.recipes = s.recipes ∧ t.startOrder = s.startOrder
        ∧ t.baths = s.baths ∧ t.gantryA = s.gantryA ∧ t.gantryB = s.gantryB))

/-- R78, R161, R169, R171, R175: SET-GRACE stores a grace of at most 600 and remakes the compare points; each of them brought to a
line time already reached is signalled in that event, as its own row would: the rescue line asserts, or with no rescue line the
hanger stays. RESCUE-CLEAR lowers a raised bar when no RESCUED hanger rests in its station, and the RESCUE cause of the station's
gas channel ends. The order of the signals, that of the hanger table, is log 16 (DESIGN CHOICE of the model). -/
def Obligations.GraceAndRescueClear : Prop :=
  ∀ s : State, PortFree s .p0 →
    (∀ g, ∃ u t : State,
      u = { s.opened .p0 4 with
              grace := min g 600
              hangers := s.hangers.map (fun h => { h with imm := { h.imm with
                compare := h.imm.compare.map (fun _ => h.imm.predClosing + BitVec.ofNat 32 (min g 600)) } }) }
      ∧ t = takeAll (s.hangers.map (fun h => .rescueCompareReached h.tag)) u
      ∧ Answers (.setGrace g) s .p0 t (Reply.bare (if g ≤ 600 then .ok else .clamped))
      ∧ t.grace = min g 600 ∧ t.lineTime = s.lineTime ∧ t.mode = s.mode ∧ t.stations = s.stations ∧ t.recipes = s.recipes
      ∧ t.baths = s.baths
      ∧ ((∀ h ∈ s.hangers, h.imm.compare ≠ none → h.imm.fired = true
            ∨ reached s.lineTime (h.imm.predClosing + BitVec.ofNat 32 (min g 600)) = false) → t = u)
      ∧ ((s.hangers.map Hanger.tag).Nodup → ∀ h ∈ s.hangers, h.imm.compare ≠ none → h.imm.fired = false →
        reached s.lineTime (h.imm.predClosing + BitVec.ofNat 32 (min g 600)) = true → ∃ h', t.hanger? h.tag = some h'
        ∧ h'.imm.fired = true
        ∧ (h.restsIn h.imm.station = true → (s.station h.imm.station).rescueLine = none →
          h' = { h with imm := { h.imm with
            fired := true, compare := some (h.imm.predClosing + BitVec.ofNat 32 (min g 600)) } })
        ∧ (∀ l, h.restsIn h.imm.station = true → (s.station h.imm.station).rescueLine = some l → l ≤ 3 →
          (s.line l).asserted = false →
          (∀ o, o ≤ 23 → o ≠ h.imm.station → (s.station o).rescueLine ≠ some l) →
          h'.state = .rescued ∧ (t.line l).asserted = true ∧ (t.line l).assertTime = some s.lineTime)))
    ∧ (∀ l,
      (3 < l → Answers (.rescueClear l) s .p0 (s.opened .p0 3) (Reply.bare .badArg))
      ∧ (l ≤ 3 → (s.line l).asserted = false → Answers (.rescueClear l) s .p0 (s.opened .p0 3) (Reply.bare .notNow))
      ∧ (∀ st, l ≤ 3 → (s.line l).asserted = true → st ≤ 23 → (s.station st).configured = true →
        (s.station st).rescueLine = some l →
        (∀ o, o ≤ 23 → o ≠ st → (s.station o).configured = true → (s.station o).rescueLine ≠ some l) →
        ((∃ h ∈ s.hangers, h.state = .rescued ∧ ∃ r : SlotRef, h.location = .slot r ∧ r.station = st) →
          Answers (.rescueClear l) s .p0 (s.opened .p0 3) (Reply.bare .notNow))
        ∧ ((∀ h ∈ s.hangers, h.state = .rescued → ∀ r : SlotRef, h.location = .slot r → r.station ≠ st) → ∃ t : State,
          t = { s.opened .p0 3 with lines := s.lines.setIfInBounds l { s.line l with asserted := false }, channels := t.channels }
          ∧ StationReleased s t st .rescue ∧ Answers (.rescueClear l) s .p0 t (Reply.bare .ok))))

/-! ### Line time and immersions -/

/-- R60, R63, R68, R70, R71, R78, R92, R109, R148, R156, R157, R162, R165, R167, R190: an advance adds one to the line time and one tenth to every running count; a STRICT count adds
the rate of its bath to progress, and a tenth to the unagitated count while the station's channel is HELD. The events of the
new tenth are taken in the advance or left to their own commands: taking them is taking the row of every edge, unagitated limit,
ready time, compare point, set point, stale compare, move limit, burst end and burst, each of which acts when it is due, and then
testing ALARM. The choice and the order of the kinds are log 3, the order within a kind log 35 (DESIGN CHOICES of the model); the
premise on the channels is an invariant of the model (R152). Only an advance and a
reset change the line time; only the mode requests, the set point, an advance (which takes the set point) and a reset change
the mode. A raw session may carry a mode request, so it is left out of the clause of the mode. -/
def Obligations.LineTimeIsCountedByAdvancesOnly : Prop :=
  ((∀ (e : AdvanceEvents) (s : State), ∃ t, exec (.lineTimeAdvance e) s = .next t ∧ t.lineTime = s.lineTime + 1)
   ∧ (∀ s : State, s.settle = s → ∃ t, exec (.lineTimeAdvance .left) s = .next t
     ∧ t = { s with lineTime := s.lineTime + 1, hangers := t.hangers }
     ∧ t.hangers.map (fun h => { h with imm := Immersion.blank }) = s.hangers.map (fun h => { h with imm := Immersion.blank })
     ∧ ∀ tag, t.hanger? tag = (s.hanger? tag).map (fun h =>
         if h.imm.counting = false then h
         else if h.imm.cls = some .strict then
           { h with imm := { h.imm with
               elapsed := min 16777215 (h.imm.elapsed + 1)
               progress := min 134217727 (h.imm.progress + (match s.bath? h.imm.station with | some b => b.rate | none => 1024))
               unagitated := match (s.station h.imm.station).gasChannel with
                 | some n => if (s.channel n).state = .held then min 16777215 (h.imm.unagitated + 1) else h.imm.unagitated
                 | none => h.imm.unagitated } }
         else { h with imm := { h.imm with elapsed := min 16777215 (h.imm.elapsed + 1) } }))
   ∧ (∀ s u : State, exec (.lineTimeAdvance .left) s = .next u → exec (.lineTimeAdvance .taken) s = .next u.settle)
   ∧ (∀ s : State, ChannelsLawful s →
     ∃ s1 s2 s3 s4 s5 s6 s7 s8 s9 : State,
       s1 = takeAll (s.hangers.flatMap (fun h =>
         [.edgeCrossed h.tag .opening, .edgeCrossed h.tag .target, .edgeCrossed h.tag .closing])) s
       ∧ s2 = takeAll (s1.hangers.map (fun h => .unagitatedLimitPassed h.tag)) s1
       ∧ s3 = takeAll (s2.moves.map (fun m => .readyTimeReached m.id)) s2
       ∧ s4 = takeAll (s3.hangers.map (fun h => .rescueCompareReached h.tag)) s3
       ∧ s5 = takeAll [.holdAtReached] s4
       ∧ s6 = takeAll ((List.range 24).map .staleCompareReached) s5
       ∧ s7 = takeAll (s6.moves.map (fun m => .moveLimitReached m.id)) s6
       ∧ s8 = takeAll ((List.range 8).map .burstEnd) s7
       ∧ s9 = takeAll ((List.range 8).map .burstFallsDue) s8
       ∧ s.settle = { s9 with alarm := s9.port0.queue.any (fun n =>
           !n.kind.maskable && decide (s9.alarmDelay < (s9.lineTime - n.time).toNat)) }))
  ∧ (∀ (i : Instr) (s t : State), exec i s = .next t → (∀ e, i ≠ .lineTimeAdvance e) → i ≠ .powerOn → i ≠ .resetn →
     t.lineTime = s.lineTime
     ∧ (i ≠ .run → i ≠ .drain → i ≠ .hold → i ≠ .stop → i ≠ .holdAtReached → (∀ p l n, i ≠ .unknownRequest p l n) →
       t.mode = s.mode))

/-- R40, R62, R65 to R67, R72, R74, R77, R78: the immersion a step begins with, its window, its predictions and its compare
point; the times it gives the hanger's move; the condition its lift decides; and the prediction of an edge is exact at a
constant rate. That the fields of another class are 0 or absent is log 9 (DEDUCED by the model). -/
def Obligations.ImmersionWindowsTimesAndConditions : Prop :=
  (∀ (now : LineTime) (st scale rate grace : Nat) (k : RecipeStep), ∃ e o c : Nat,
    e = (k.timeA * scale + 500) / 1000 ∧ o = max 1 (e - k.timeB) ∧ c = e + k.timeC
    ∧ Immersion.start now st k .strict scale rate grace =
      { cls := some .strict, station := st, counting := true, entryTime := now, elapsed := 0, unagitated := 0, minimum := 0,
        maximum := 0, effective := e, opening := o, closing := c, progress := 0, crossOpening := none, crossTarget := none,
        crossClosing := none, predOpening := predict now o 0 rate, predTarget := predict now e 0 rate
        predClosing := predict now c 0 rate, compare := some (predict now c 0 rate + BitVec.ofNat 32 grace), fired := false }
    ∧ ∀ cls, cls ≠ .strict → Immersion.start now st k cls scale rate grace =
      { cls := some cls, station := st, counting := true, entryTime := now, elapsed := 0, unagitated := 0,
        minimum := k.timeA, maximum := k.timeB, effective := 0, opening := 0, closing := 0, progress := 0,
        crossOpening := none, crossTarget := none, crossClosing := none, predOpening := 0, predTarget := 0, predClosing := 0,
        compare := none, fired := false })
  ∧ (∀ (now : LineTime) (x p rate : Nat), 1 ≤ rate → p < x * 1024 → ∃ n, 1 ≤ n
    ∧ predict now x p rate = now + BitVec.ofNat 32 n ∧ x * 1024 ≤ p + n * rate ∧ p + (n - 1) * rate < x * 1024)
  ∧ (∀ (m : Move) (i : Immersion) (now : LineTime) (allowance : Nat), ∃ ready : LineTime → LineTime,
    (∀ d, ready d = if reached now (d - BitVec.ofNat 32 allowance) = true then now else d - BitVec.ofNat 32 allowance)
    ∧ (i.cls = some .strict → m.timed i now allowance =
      { m with due := some i.predTarget, deadline := some i.predClosing, ready := ready i.predTarget })
    ∧ (i.cls = some .bounded → m.timed i now allowance =
      { m with due := some (i.entryTime + BitVec.ofNat 32 i.minimum)
               deadline := if i.maximum = 0 then none else some (i.entryTime + BitVec.ofNat 32 i.maximum)
               ready := ready (i.entryTime + BitVec.ofNat 32 i.minimum) })
    ∧ (i.cls = some .opened → m.timed i now allowance =
      { m with due := some (i.entryTime + BitVec.ofNat 32 i.minimum), deadline := none
               ready := ready (i.entryTime + BitVec.ofNat 32 i.minimum) }))
  ∧ (∀ i : Immersion,
    (i.cls = some .strict →
      (i.progress < i.opening * 1024 → i.liftCondition = .early)
      ∧ (i.opening * 1024 ≤ i.progress → i.progress ≤ i.closing * 1024 → i.liftCondition = .onTime)
      ∧ (i.opening * 1024 ≤ i.progress → i.closing * 1024 < i.progress → i.liftCondition = .late))
    ∧ (i.cls = some .bounded →
      (i.elapsed < i.minimum → i.liftCondition = .under)
      ∧ (i.minimum ≤ i.elapsed → i.maximum ≠ 0 → i.maximum < i.elapsed → i.liftCondition = .over)
      ∧ (i.minimum ≤ i.elapsed → (i.maximum = 0 ∨ i.elapsed ≤ i.maximum) → i.liftCondition = .onTime))
    ∧ (i.cls = some .opened →
      (i.elapsed < i.minimum → i.liftCondition = .under) ∧ (i.minimum ≤ i.elapsed → i.liftCondition = .onTime)))

/-! ### Invariants -/

/-- The reset state meets the eight invariants below. -/
def Obligations.ResetMeetsTheInvariants : Prop :=
  QueuesBounded State.reset ∧ BurstsBounded State.reset ∧ BathsLawful State.reset ∧ ChannelsLawful State.reset
    ∧ MapLawful State.reset ∧ MovesAgree State.reset ∧ SlotsAgree State.reset ∧ SpansAgree State.reset

/-- R186, R187: no step lets a notice queue grow past 16. -/
def Obligations.EveryStepKeepsTheQueuesBounded : Prop :=
  ∀ s t : State, QueuesBounded s → step s = .next t → QueuesBounded t

/-- R158, R159: no step opens more than G valves. -/
def Obligations.EveryStepKeepsTheValvesWithinTheLimit : Prop :=
  ∀ s t : State, BurstsBounded s → step s = .next t → BurstsBounded t

/-- R2, R8, R9, R83, R84, R88, R97, R151 to R153: every step keeps every active bath's settings and rate inside their ranges, its
debt at most 15 and its area counter below the quantum; every burst channel's cadence, interval, remainder, length and accumulator
as R152 and R153 make them; and the station map as R8 and R9 admit it. -/
def Obligations.EveryStepKeepsBathsChannelsAndMapLawful : Prop :=
  (∀ s t : State, BathsLawful s → step s = .next t → BathsLawful t)
  ∧ (∀ s t : State, ChannelsLawful s → step s = .next t → ChannelsLawful t)
  ∧ (∀ s t : State, MapLawful s → step s = .next t → MapLawful t)

/-- R33, R35, R101 to R103, R114, R131, R139, R147: every step keeps the agreement of hangers, moves and gantries: tags and
identifiers name one record each, a live hanger has the one move its state asks for, and a BUSY gantry holds the one granted
move that names it. So at most 34 identifiers are held at once. -/
def Obligations.EveryStepKeepsTheMovesInAgreement : Prop :=
  ∀ s : State, MovesAgree s → s.moves.length ≤ 34 ∧ ∀ t, step s = .next t → MovesAgree t

/-- R5, R35, R117: every step keeps the agreement of the station map with the hanger records: an OCCUPIED or RESERVED slot and
the location, the forward reservation, the move or the stranded hold of the hanger it names name each other. The premise
`MapLawful` is an invariant of its own: it gives a station at most four slots (R2). -/
def Obligations.EveryStepKeepsTheSlotsInAgreement : Prop :=
  ∀ s t : State, MapLawful s → MovesAgree s → SlotsAgree s → step s = .next t → SlotsAgree t

/-- R132, R137: every step keeps the two reserved spans at least the guard gap apart. -/
def Obligations.EveryStepKeepsTheSpansApart : Prop :=
  ∀ s t : State, MovesAgree s → SpansAgree s → step s = .next t → SpansAgree t
end

