-- ==== Sys2Proof/Laws/State.lean ====
section
/-! SUPPORT. One lemma per field for each update of the state: what it writes, and what it leaves as it stands. -/

namespace Sys2Proof.Machine

/-! ### modStation -/

@[simp] theorem State.modStation_lineTime (s : State) (st : Nat) (f : Station → Station) :
    (s.modStation st f).lineTime = s.lineTime := rfl
@[simp] theorem State.modStation_stations (s : State) (st : Nat) (f : Station → Station) :
    (s.modStation st f).stations = s.stations.setIfInBounds st (f (s.station st)) := rfl
@[simp] theorem State.modStation_recipes (s : State) (st : Nat) (f : Station → Station) :
    (s.modStation st f).recipes = s.recipes := rfl
@[simp] theorem State.modStation_draft (s : State) (st : Nat) (f : Station → Station) :
    (s.modStation st f).draft = s.draft := rfl
@[simp] theorem State.modStation_hangers (s : State) (st : Nat) (f : Station → Station) :
    (s.modStation st f).hangers = s.hangers := rfl
@[simp] theorem State.modStation_startOrder (s : State) (st : Nat) (f : Station → Station) :
    (s.modStation st f).startOrder = s.startOrder := rfl
@[simp] theorem State.modStation_admissions (s : State) (st : Nat) (f : Station → Station) :
    (s.modStation st f).admissions = s.admissions := rfl
@[simp] theorem State.modStation_baths (s : State) (st : Nat) (f : Station → Station) :
    (s.modStation st f).baths = s.baths := rfl
@[simp] theorem State.modStation_moves (s : State) (st : Nat) (f : Station → Station) :
    (s.modStation st f).moves = s.moves := rfl
@[simp] theorem State.modStation_moveCounter (s : State) (st : Nat) (f : Station → Station) :
    (s.modStation st f).moveCounter = s.moveCounter := rfl
@[simp] theorem State.modStation_gantryA (s : State) (st : Nat) (f : Station → Station) :
    (s.modStation st f).gantryA = s.gantryA := rfl
@[simp] theorem State.modStation_gantryB (s : State) (st : Nat) (f : Station → Station) :
    (s.modStation st f).gantryB = s.gantryB := rfl
@[simp] theorem State.modStation_guardGap (s : State) (st : Nat) (f : Station → Station) :
    (s.modStation st f).guardGap = s.guardGap := rfl
@[simp] theorem State.modStation_channels (s : State) (st : Nat) (f : Station → Station) :
    (s.modStation st f).channels = s.channels := rfl
@[simp] theorem State.modStation_gasLimit (s : State) (st : Nat) (f : Station → Station) :
    (s.modStation st f).gasLimit = s.gasLimit := rfl
@[simp] theorem State.modStation_mode (s : State) (st : Nat) (f : Station → Station) :
    (s.modStation st f).mode = s.mode := rfl
@[simp] theorem State.modStation_holdAt (s : State) (st : Nat) (f : Station → Station) :
    (s.modStation st f).holdAt = s.holdAt := rfl
@[simp] theorem State.modStation_grace (s : State) (st : Nat) (f : Station → Station) :
    (s.modStation st f).grace = s.grace := rfl
@[simp] theorem State.modStation_lines (s : State) (st : Nat) (f : Station → Station) :
    (s.modStation st f).lines = s.lines := rfl
@[simp] theorem State.modStation_port0 (s : State) (st : Nat) (f : Station → Station) :
    (s.modStation st f).port0 = s.port0 := rfl
@[simp] theorem State.modStation_port1 (s : State) (st : Nat) (f : Station → Station) :
    (s.modStation st f).port1 = s.port1 := rfl
@[simp] theorem State.modStation_port2 (s : State) (st : Nat) (f : Station → Station) :
    (s.modStation st f).port2 = s.port2 := rfl
@[simp] theorem State.modStation_alarmDelay (s : State) (st : Nat) (f : Station → Station) :
    (s.modStation st f).alarmDelay = s.alarmDelay := rfl
@[simp] theorem State.modStation_alarm (s : State) (st : Nat) (f : Station → Station) :
    (s.modStation st f).alarm = s.alarm := rfl
@[simp] theorem State.modStation_pending (s : State) (st : Nat) (f : Station → Station) :
    (s.modStation st f).pending = s.pending := rfl

/-! ### setBath -/

@[simp] theorem State.setBath_lineTime (s : State) (st : Nat) (b : Option Bath) :
    (s.setBath st b).lineTime = s.lineTime := rfl
@[simp] theorem State.setBath_stations (s : State) (st : Nat) (b : Option Bath) :
    (s.setBath st b).stations = s.stations := rfl
@[simp] theorem State.setBath_recipes (s : State) (st : Nat) (b : Option Bath) :
    (s.setBath st b).recipes = s.recipes := rfl
@[simp] theorem State.setBath_draft (s : State) (st : Nat) (b : Option Bath) :
    (s.setBath st b).draft = s.draft := rfl
@[simp] theorem State.setBath_hangers (s : State) (st : Nat) (b : Option Bath) :
    (s.setBath st b).hangers = s.hangers := rfl
@[simp] theorem State.setBath_startOrder (s : State) (st : Nat) (b : Option Bath) :
    (s.setBath st b).startOrder = s.startOrder := rfl
@[simp] theorem State.setBath_admissions (s : State) (st : Nat) (b : Option Bath) :
    (s.setBath st b).admissions = s.admissions := rfl
@[simp] theorem State.setBath_baths (s : State) (st : Nat) (b : Option Bath) :
    (s.setBath st b).baths = s.baths.setIfInBounds st b := rfl
@[simp] theorem State.setBath_moves (s : State) (st : Nat) (b : Option Bath) :
    (s.setBath st b).moves = s.moves := rfl
@[simp] theorem State.setBath_moveCounter (s : State) (st : Nat) (b : Option Bath) :
    (s.setBath st b).moveCounter = s.moveCounter := rfl
@[simp] theorem State.setBath_gantryA (s : State) (st : Nat) (b : Option Bath) :
    (s.setBath st b).gantryA = s.gantryA := rfl
@[simp] theorem State.setBath_gantryB (s : State) (st : Nat) (b : Option Bath) :
    (s.setBath st b).gantryB = s.gantryB := rfl
@[simp] theorem State.setBath_guardGap (s : State) (st : Nat) (b : Option Bath) :
    (s.setBath st b).guardGap = s.guardGap := rfl
@[simp] theorem State.setBath_channels (s : State) (st : Nat) (b : Option Bath) :
    (s.setBath st b).channels = s.channels := rfl
@[simp] theorem State.setBath_gasLimit (s : State) (st : Nat) (b : Option Bath) :
    (s.setBath st b).gasLimit = s.gasLimit := rfl
@[simp] theorem State.setBath_mode (s : State) (st : Nat) (b : Option Bath) :
    (s.setBath st b).mode = s.mode := rfl
@[simp] theorem State.setBath_holdAt (s : State) (st : Nat) (b : Option Bath) :
    (s.setBath st b).holdAt = s.holdAt := rfl
@[simp] theorem State.setBath_grace (s : State) (st : Nat) (b : Option Bath) :
    (s.setBath st b).grace = s.grace := rfl
@[simp] theorem State.setBath_lines (s : State) (st : Nat) (b : Option Bath) :
    (s.setBath st b).lines = s.lines := rfl
@[simp] theorem State.setBath_port0 (s : State) (st : Nat) (b : Option Bath) :
    (s.setBath st b).port0 = s.port0 := rfl
@[simp] theorem State.setBath_port1 (s : State) (st : Nat) (b : Option Bath) :
    (s.setBath st b).port1 = s.port1 := rfl
@[simp] theorem State.setBath_port2 (s : State) (st : Nat) (b : Option Bath) :
    (s.setBath st b).port2 = s.port2 := rfl
@[simp] theorem State.setBath_alarmDelay (s : State) (st : Nat) (b : Option Bath) :
    (s.setBath st b).alarmDelay = s.alarmDelay := rfl
@[simp] theorem State.setBath_alarm (s : State) (st : Nat) (b : Option Bath) :
    (s.setBath st b).alarm = s.alarm := rfl
@[simp] theorem State.setBath_pending (s : State) (st : Nat) (b : Option Bath) :
    (s.setBath st b).pending = s.pending := rfl

/-! ### modBath -/

@[simp] theorem State.modBath_lineTime (s : State) (st : Nat) (f : Bath → Bath) :
    (s.modBath st f).lineTime = s.lineTime := rfl
@[simp] theorem State.modBath_stations (s : State) (st : Nat) (f : Bath → Bath) :
    (s.modBath st f).stations = s.stations := rfl
@[simp] theorem State.modBath_recipes (s : State) (st : Nat) (f : Bath → Bath) :
    (s.modBath st f).recipes = s.recipes := rfl
@[simp] theorem State.modBath_draft (s : State) (st : Nat) (f : Bath → Bath) :
    (s.modBath st f).draft = s.draft := rfl
@[simp] theorem State.modBath_hangers (s : State) (st : Nat) (f : Bath → Bath) :
    (s.modBath st f).hangers = s.hangers := rfl
@[simp] theorem State.modBath_startOrder (s : State) (st : Nat) (f : Bath → Bath) :
    (s.modBath st f).startOrder = s.startOrder := rfl
@[simp] theorem State.modBath_admissions (s : State) (st : Nat) (f : Bath → Bath) :
    (s.modBath st f).admissions = s.admissions := rfl
@[simp] theorem State.modBath_baths (s : State) (st : Nat) (f : Bath → Bath) :
    (s.modBath st f).baths = s.baths.setIfInBounds st ((s.bath? st).map f) := rfl
@[simp] theorem State.modBath_moves (s : State) (st : Nat) (f : Bath → Bath) :
    (s.modBath st f).moves = s.moves := rfl
@[simp] theorem State.modBath_moveCounter (s : State) (st : Nat) (f : Bath → Bath) :
    (s.modBath st f).moveCounter = s.moveCounter := rfl
@[simp] theorem State.modBath_gantryA (s : State) (st : Nat) (f : Bath → Bath) :
    (s.modBath st f).gantryA = s.gantryA := rfl
@[simp] theorem State.modBath_gantryB (s : State) (st : Nat) (f : Bath → Bath) :
    (s.modBath st f).gantryB = s.gantryB := rfl
@[simp] theorem State.modBath_guardGap (s : State) (st : Nat) (f : Bath → Bath) :
    (s.modBath st f).guardGap = s.guardGap := rfl
@[simp] theorem State.modBath_channels (s : State) (st : Nat) (f : Bath → Bath) :
    (s.modBath st f).channels = s.channels := rfl
@[simp] theorem State.modBath_gasLimit (s : State) (st : Nat) (f : Bath → Bath) :
    (s.modBath st f).gasLimit = s.gasLimit := rfl
@[simp] theorem State.modBath_mode (s : State) (st : Nat) (f : Bath → Bath) :
    (s.modBath st f).mode = s.mode := rfl
@[simp] theorem State.modBath_holdAt (s : State) (st : Nat) (f : Bath → Bath) :
    (s.modBath st f).holdAt = s.holdAt := rfl
@[simp] theorem State.modBath_grace (s : State) (st : Nat) (f : Bath → Bath) :
    (s.modBath st f).grace = s.grace := rfl
@[simp] theorem State.modBath_lines (s : State) (st : Nat) (f : Bath → Bath) :
    (s.modBath st f).lines = s.lines := rfl
@[simp] theorem State.modBath_port0 (s : State) (st : Nat) (f : Bath → Bath) :
    (s.modBath st f).port0 = s.port0 := rfl
@[simp] theorem State.modBath_port1 (s : State) (st : Nat) (f : Bath → Bath) :
    (s.modBath st f).port1 = s.port1 := rfl
@[simp] theorem State.modBath_port2 (s : State) (st : Nat) (f : Bath → Bath) :
    (s.modBath st f).port2 = s.port2 := rfl
@[simp] theorem State.modBath_alarmDelay (s : State) (st : Nat) (f : Bath → Bath) :
    (s.modBath st f).alarmDelay = s.alarmDelay := rfl
@[simp] theorem State.modBath_alarm (s : State) (st : Nat) (f : Bath → Bath) :
    (s.modBath st f).alarm = s.alarm := rfl
@[simp] theorem State.modBath_pending (s : State) (st : Nat) (f : Bath → Bath) :
    (s.modBath st f).pending = s.pending := rfl

/-! ### modRecipe -/

@[simp] theorem State.modRecipe_lineTime (s : State) (r : Nat) (f : Recipe → Recipe) :
    (s.modRecipe r f).lineTime = s.lineTime := rfl
@[simp] theorem State.modRecipe_stations (s : State) (r : Nat) (f : Recipe → Recipe) :
    (s.modRecipe r f).stations = s.stations := rfl
@[simp] theorem State.modRecipe_recipes (s : State) (r : Nat) (f : Recipe → Recipe) :
    (s.modRecipe r f).recipes = s.recipes.setIfInBounds r (f (s.recipe r)) := rfl
@[simp] theorem State.modRecipe_draft (s : State) (r : Nat) (f : Recipe → Recipe) :
    (s.modRecipe r f).draft = s.draft := rfl
@[simp] theorem State.modRecipe_hangers (s : State) (r : Nat) (f : Recipe → Recipe) :
    (s.modRecipe r f).hangers = s.hangers := rfl
@[simp] theorem State.modRecipe_startOrder (s : State) (r : Nat) (f : Recipe → Recipe) :
    (s.modRecipe r f).startOrder = s.startOrder := rfl
@[simp] theorem State.modRecipe_admissions (s : State) (r : Nat) (f : Recipe → Recipe) :
    (s.modRecipe r f).admissions = s.admissions := rfl
@[simp] theorem State.modRecipe_baths (s : State) (r : Nat) (f : Recipe → Recipe) :
    (s.modRecipe r f).baths = s.baths := rfl
@[simp] theorem State.modRecipe_moves (s : State) (r : Nat) (f : Recipe → Recipe) :
    (s.modRecipe r f).moves = s.moves := rfl
@[simp] theorem State.modRecipe_moveCounter (s : State) (r : Nat) (f : Recipe → Recipe) :
    (s.modRecipe r f).moveCounter = s.moveCounter := rfl
@[simp] theorem State.modRecipe_gantryA (s : State) (r : Nat) (f : Recipe → Recipe) :
    (s.modRecipe r f).gantryA = s.gantryA := rfl
@[simp] theorem State.modRecipe_gantryB (s : State) (r : Nat) (f : Recipe → Recipe) :
    (s.modRecipe r f).gantryB = s.gantryB := rfl
@[simp] theorem State.modRecipe_guardGap (s : State) (r : Nat) (f : Recipe → Recipe) :
    (s.modRecipe r f).guardGap = s.guardGap := rfl
@[simp] theorem State.modRecipe_channels (s : State) (r : Nat) (f : Recipe → Recipe) :
    (s.modRecipe r f).channels = s.channels := rfl
@[simp] theorem State.modRecipe_gasLimit (s : State) (r : Nat) (f : Recipe → Recipe) :
    (s.modRecipe r f).gasLimit = s.gasLimit := rfl
@[simp] theorem State.modRecipe_mode (s : State) (r : Nat) (f : Recipe → Recipe) :
    (s.modRecipe r f).mode = s.mode := rfl
@[simp] theorem State.modRecipe_holdAt (s : State) (r : Nat) (f : Recipe → Recipe) :
    (s.modRecipe r f).holdAt = s.holdAt := rfl
@[simp] theorem State.modRecipe_grace (s : State) (r : Nat) (f : Recipe → Recipe) :
    (s.modRecipe r f).grace = s.grace := rfl
@[simp] theorem State.modRecipe_lines (s : State) (r : Nat) (f : Recipe → Recipe) :
    (s.modRecipe r f).lines = s.lines := rfl
@[simp] theorem State.modRecipe_port0 (s : State) (r : Nat) (f : Recipe → Recipe) :
    (s.modRecipe r f).port0 = s.port0 := rfl
@[simp] theorem State.modRecipe_port1 (s : State) (r : Nat) (f : Recipe → Recipe) :
    (s.modRecipe r f).port1 = s.port1 := rfl
@[simp] theorem State.modRecipe_port2 (s : State) (r : Nat) (f : Recipe → Recipe) :
    (s.modRecipe r f).port2 = s.port2 := rfl
@[simp] theorem State.modRecipe_alarmDelay (s : State) (r : Nat) (f : Recipe → Recipe) :
    (s.modRecipe r f).alarmDelay = s.alarmDelay := rfl
@[simp] theorem State.modRecipe_alarm (s : State) (r : Nat) (f : Recipe → Recipe) :
    (s.modRecipe r f).alarm = s.alarm := rfl
@[simp] theorem State.modRecipe_pending (s : State) (r : Nat) (f : Recipe → Recipe) :
    (s.modRecipe r f).pending = s.pending := rfl

/-! ### modChannel -/

@[simp] theorem State.modChannel_lineTime (s : State) (n : Nat) (f : Channel → Channel) :
    (s.modChannel n f).lineTime = s.lineTime := rfl
@[simp] theorem State.modChannel_stations (s : State) (n : Nat) (f : Channel → Channel) :
    (s.modChannel n f).stations = s.stations := rfl
@[simp] theorem State.modChannel_recipes (s : State) (n : Nat) (f : Channel → Channel) :
    (s.modChannel n f).recipes = s.recipes := rfl
@[simp] theorem State.modChannel_draft (s : State) (n : Nat) (f : Channel → Channel) :
    (s.modChannel n f).draft = s.draft := rfl
@[simp] theorem State.modChannel_hangers (s : State) (n : Nat) (f : Channel → Channel) :
    (s.modChannel n f).hangers = s.hangers := rfl
@[simp] theorem State.modChannel_startOrder (s : State) (n : Nat) (f : Channel → Channel) :
    (s.modChannel n f).startOrder = s.startOrder := rfl
@[simp] theorem State.modChannel_admissions (s : State) (n : Nat) (f : Channel → Channel) :
    (s.modChannel n f).admissions = s.admissions := rfl
@[simp] theorem State.modChannel_baths (s : State) (n : Nat) (f : Channel → Channel) :
    (s.modChannel n f).baths = s.baths := rfl
@[simp] theorem State.modChannel_moves (s : State) (n : Nat) (f : Channel → Channel) :
    (s.modChannel n f).moves = s.moves := rfl
@[simp] theorem State.modChannel_moveCounter (s : State) (n : Nat) (f : Channel → Channel) :
    (s.modChannel n f).moveCounter = s.moveCounter := rfl
@[simp] theorem State.modChannel_gantryA (s : State) (n : Nat) (f : Channel → Channel) :
    (s.modChannel n f).gantryA = s.gantryA := rfl
@[simp] theorem State.modChannel_gantryB (s : State) (n : Nat) (f : Channel → Channel) :
    (s.modChannel n f).gantryB = s.gantryB := rfl
@[simp] theorem State.modChannel_guardGap (s : State) (n : Nat) (f : Channel → Channel) :
    (s.modChannel n f).guardGap = s.guardGap := rfl
@[simp] theorem State.modChannel_channels (s : State) (n : Nat) (f : Channel → Channel) :
    (s.modChannel n f).channels = s.channels.setIfInBounds n (f (s.channel n)) := rfl
@[simp] theorem State.modChannel_gasLimit (s : State) (n : Nat) (f : Channel → Channel) :
    (s.modChannel n f).gasLimit = s.gasLimit := rfl
@[simp] theorem State.modChannel_mode (s : State) (n : Nat) (f : Channel → Channel) :
    (s.modChannel n f).mode = s.mode := rfl
@[simp] theorem State.modChannel_holdAt (s : State) (n : Nat) (f : Channel → Channel) :
    (s.modChannel n f).holdAt = s.holdAt := rfl
@[simp] theorem State.modChannel_grace (s : State) (n : Nat) (f : Channel → Channel) :
    (s.modChannel n f).grace = s.grace := rfl
@[simp] theorem State.modChannel_lines (s : State) (n : Nat) (f : Channel → Channel) :
    (s.modChannel n f).lines = s.lines := rfl
@[simp] theorem State.modChannel_port0 (s : State) (n : Nat) (f : Channel → Channel) :
    (s.modChannel n f).port0 = s.port0 := rfl
@[simp] theorem State.modChannel_port1 (s : State) (n : Nat) (f : Channel → Channel) :
    (s.modChannel n f).port1 = s.port1 := rfl
@[simp] theorem State.modChannel_port2 (s : State) (n : Nat) (f : Channel → Channel) :
    (s.modChannel n f).port2 = s.port2 := rfl
@[simp] theorem State.modChannel_alarmDelay (s : State) (n : Nat) (f : Channel → Channel) :
    (s.modChannel n f).alarmDelay = s.alarmDelay := rfl
@[simp] theorem State.modChannel_alarm (s : State) (n : Nat) (f : Channel → Channel) :
    (s.modChannel n f).alarm = s.alarm := rfl
@[simp] theorem State.modChannel_pending (s : State) (n : Nat) (f : Channel → Channel) :
    (s.modChannel n f).pending = s.pending := rfl

/-! ### modLine -/

@[simp] theorem State.modLine_lineTime (s : State) (n : Nat) (f : RescueLine → RescueLine) :
    (s.modLine n f).lineTime = s.lineTime := rfl
@[simp] theorem State.modLine_stations (s : State) (n : Nat) (f : RescueLine → RescueLine) :
    (s.modLine n f).stations = s.stations := rfl
@[simp] theorem State.modLine_recipes (s : State) (n : Nat) (f : RescueLine → RescueLine) :
    (s.modLine n f).recipes = s.recipes := rfl
@[simp] theorem State.modLine_draft (s : State) (n : Nat) (f : RescueLine → RescueLine) :
    (s.modLine n f).draft = s.draft := rfl
@[simp] theorem State.modLine_hangers (s : State) (n : Nat) (f : RescueLine → RescueLine) :
    (s.modLine n f).hangers = s.hangers := rfl
@[simp] theorem State.modLine_startOrder (s : State) (n : Nat) (f : RescueLine → RescueLine) :
    (s.modLine n f).startOrder = s.startOrder := rfl
@[simp] theorem State.modLine_admissions (s : State) (n : Nat) (f : RescueLine → RescueLine) :
    (s.modLine n f).admissions = s.admissions := rfl
@[simp] theorem State.modLine_baths (s : State) (n : Nat) (f : RescueLine → RescueLine) :
    (s.modLine n f).baths = s.baths := rfl
@[simp] theorem State.modLine_moves (s : State) (n : Nat) (f : RescueLine → RescueLine) :
    (s.modLine n f).moves = s.moves := rfl
@[simp] theorem State.modLine_moveCounter (s : State) (n : Nat) (f : RescueLine → RescueLine) :
    (s.modLine n f).moveCounter = s.moveCounter := rfl
@[simp] theorem State.modLine_gantryA (s : State) (n : Nat) (f : RescueLine → RescueLine) :
    (s.modLine n f).gantryA = s.gantryA := rfl
@[simp] theorem State.modLine_gantryB (s : State) (n : Nat) (f : RescueLine → RescueLine) :
    (s.modLine n f).gantryB = s.gantryB := rfl
@[simp] theorem State.modLine_guardGap (s : State) (n : Nat) (f : RescueLine → RescueLine) :
    (s.modLine n f).guardGap = s.guardGap := rfl
@[simp] theorem State.modLine_channels (s : State) (n : Nat) (f : RescueLine → RescueLine) :
    (s.modLine n f).channels = s.channels := rfl
@[simp] theorem State.modLine_gasLimit (s : State) (n : Nat) (f : RescueLine → RescueLine) :
    (s.modLine n f).gasLimit = s.gasLimit := rfl
@[simp] theorem State.modLine_mode (s : State) (n : Nat) (f : RescueLine → RescueLine) :
    (s.modLine n f).mode = s.mode := rfl
@[simp] theorem State.modLine_holdAt (s : State) (n : Nat) (f : RescueLine → RescueLine) :
    (s.modLine n f).holdAt = s.holdAt := rfl
@[simp] theorem State.modLine_grace (s : State) (n : Nat) (f : RescueLine → RescueLine) :
    (s.modLine n f).grace = s.grace := rfl
@[simp] theorem State.modLine_lines (s : State) (n : Nat) (f : RescueLine → RescueLine) :
    (s.modLine n f).lines = s.lines.setIfInBounds n (f (s.line n)) := rfl
@[simp] theorem State.modLine_port0 (s : State) (n : Nat) (f : RescueLine → RescueLine) :
    (s.modLine n f).port0 = s.port0 := rfl
@[simp] theorem State.modLine_port1 (s : State) (n : Nat) (f : RescueLine → RescueLine) :
    (s.modLine n f).port1 = s.port1 := rfl
@[simp] theorem State.modLine_port2 (s : State) (n : Nat) (f : RescueLine → RescueLine) :
    (s.modLine n f).port2 = s.port2 := rfl
@[simp] theorem State.modLine_alarmDelay (s : State) (n : Nat) (f : RescueLine → RescueLine) :
    (s.modLine n f).alarmDelay = s.alarmDelay := rfl
@[simp] theorem State.modLine_alarm (s : State) (n : Nat) (f : RescueLine → RescueLine) :
    (s.modLine n f).alarm = s.alarm := rfl
@[simp] theorem State.modLine_pending (s : State) (n : Nat) (f : RescueLine → RescueLine) :
    (s.modLine n f).pending = s.pending := rfl

/-! ### modGantry -/

@[simp] theorem State.modGantry_lineTime (s : State) (g : GantryId) (f : Gantry → Gantry) :
    (s.modGantry g f).lineTime = s.lineTime := by cases g <;> rfl
@[simp] theorem State.modGantry_stations (s : State) (g : GantryId) (f : Gantry → Gantry) :
    (s.modGantry g f).stations = s.stations := by cases g <;> rfl
@[simp] theorem State.modGantry_recipes (s : State) (g : GantryId) (f : Gantry → Gantry) :
    (s.modGantry g f).recipes = s.recipes := by cases g <;> rfl
@[simp] theorem State.modGantry_draft (s : State) (g : GantryId) (f : Gantry → Gantry) :
    (s.modGantry g f).draft = s.draft := by cases g <;> rfl
@[simp] theorem State.modGantry_hangers (s : State) (g : GantryId) (f : Gantry → Gantry) :
    (s.modGantry g f).hangers = s.hangers := by cases g <;> rfl
@[simp] theorem State.modGantry_startOrder (s : State) (g : GantryId) (f : Gantry → Gantry) :
    (s.modGantry g f).startOrder = s.startOrder := by cases g <;> rfl
@[simp] theorem State.modGantry_admissions (s : State) (g : GantryId) (f : Gantry → Gantry) :
    (s.modGantry g f).admissions = s.admissions := by cases g <;> rfl
@[simp] theorem State.modGantry_baths (s : State) (g : GantryId) (f : Gantry → Gantry) :
    (s.modGantry g f).baths = s.baths := by cases g <;> rfl
@[simp] theorem State.modGantry_moves (s : State) (g : GantryId) (f : Gantry → Gantry) :
    (s.modGantry g f).moves = s.moves := by cases g <;> rfl
@[simp] theorem State.modGantry_moveCounter (s : State) (g : GantryId) (f : Gantry → Gantry) :
    (s.modGantry g f).moveCounter = s.moveCounter := by cases g <;> rfl
@[simp] theorem State.modGantry_guardGap (s : State) (g : GantryId) (f : Gantry → Gantry) :
    (s.modGantry g f).guardGap = s.guardGap := by cases g <;> rfl
@[simp] theorem State.modGantry_channels (s : State) (g : GantryId) (f : Gantry → Gantry) :
    (s.modGantry g f).channels = s.channels := by cases g <;> rfl
@[simp] theorem State.modGantry_gasLimit (s : State) (g : GantryId) (f : Gantry → Gantry) :
    (s.modGantry g f).gasLimit = s.gasLimit := by cases g <;> rfl
@[simp] theorem State.modGantry_mode (s : State) (g : GantryId) (f : Gantry → Gantry) :
    (s.modGantry g f).mode = s.mode := by cases g <;> rfl
@[simp] theorem State.modGantry_holdAt (s : State) (g : GantryId) (f : Gantry → Gantry) :
    (s.modGantry g f).holdAt = s.holdAt := by cases g <;> rfl
@[simp] theorem State.modGantry_grace (s : State) (g : GantryId) (f : Gantry → Gantry) :
    (s.modGantry g f).grace = s.grace := by cases g <;> rfl
@[simp] theorem State.modGantry_lines (s : State) (g : GantryId) (f : Gantry → Gantry) :
    (s.modGantry g f).lines = s.lines := by cases g <;> rfl
@[simp] theorem State.modGantry_port0 (s : State) (g : GantryId) (f : Gantry → Gantry) :
    (s.modGantry g f).port0 = s.port0 := by cases g <;> rfl
@[simp] theorem State.modGantry_port1 (s : State) (g : GantryId) (f : Gantry → Gantry) :
    (s.modGantry g f).port1 = s.port1 := by cases g <;> rfl
@[simp] theorem State.modGantry_port2 (s : State) (g : GantryId) (f : Gantry → Gantry) :
    (s.modGantry g f).port2 = s.port2 := by cases g <;> rfl
@[simp] theorem State.modGantry_alarmDelay (s : State) (g : GantryId) (f : Gantry → Gantry) :
    (s.modGantry g f).alarmDelay = s.alarmDelay := by cases g <;> rfl
@[simp] theorem State.modGantry_alarm (s : State) (g : GantryId) (f : Gantry → Gantry) :
    (s.modGantry g f).alarm = s.alarm := by cases g <;> rfl
@[simp] theorem State.modGantry_pending (s : State) (g : GantryId) (f : Gantry → Gantry) :
    (s.modGantry g f).pending = s.pending := by cases g <;> rfl

/-! ### modPort -/

@[simp] theorem State.modPort_lineTime (s : State) (p : PortId) (f : Port → Port) :
    (s.modPort p f).lineTime = s.lineTime := by cases p <;> rfl
@[simp] theorem State.modPort_stations (s : State) (p : PortId) (f : Port → Port) :
    (s.modPort p f).stations = s.stations := by cases p <;> rfl
@[simp] theorem State.modPort_recipes (s : State) (p : PortId) (f : Port → Port) :
    (s.modPort p f).recipes = s.recipes := by cases p <;> rfl
@[simp] theorem State.modPort_draft (s : State) (p : PortId) (f : Port → Port) :
    (s.modPort p f).draft = s.draft := by cases p <;> rfl
@[simp] theorem State.modPort_hangers (s : State) (p : PortId) (f : Port → Port) :
    (s.modPort p f).hangers = s.hangers := by cases p <;> rfl
@[simp] theorem State.modPort_startOrder (s : State) (p : PortId) (f : Port → Port) :
    (s.modPort p f).startOrder = s.startOrder := by cases p <;> rfl
@[simp] theorem State.modPort_admissions (s : State) (p : PortId) (f : Port → Port) :
    (s.modPort p f).admissions = s.admissions := by cases p <;> rfl
@[simp] theorem State.modPort_baths (s : State) (p : PortId) (f : Port → Port) :
    (s.modPort p f).baths = s.baths := by cases p <;> rfl
@[simp] theorem State.modPort_moves (s : State) (p : PortId) (f : Port → Port) :
    (s.modPort p f).moves = s.moves := by cases p <;> rfl
@[simp] theorem State.modPort_moveCounter (s : State) (p : PortId) (f : Port → Port) :
    (s.modPort p f).moveCounter = s.moveCounter := by cases p <;> rfl
@[simp] theorem State.modPort_gantryA (s : State) (p : PortId) (f : Port → Port) :
    (s.modPort p f).gantryA = s.gantryA := by cases p <;> rfl
@[simp] theorem State.modPort_gantryB (s : State) (p : PortId) (f : Port → Port) :
    (s.modPort p f).gantryB = s.gantryB := by cases p <;> rfl
@[simp] theorem State.modPort_guardGap (s : State) (p : PortId) (f : Port → Port) :
    (s.modPort p f).guardGap = s.guardGap := by cases p <;> rfl
@[simp] theorem State.modPort_channels (s : State) (p : PortId) (f : Port → Port) :
    (s.modPort p f).channels = s.channels := by cases p <;> rfl
@[simp] theorem State.modPort_gasLimit (s : State) (p : PortId) (f : Port → Port) :
    (s.modPort p f).gasLimit = s.gasLimit := by cases p <;> rfl
@[simp] theorem State.modPort_mode (s : State) (p : PortId) (f : Port → Port) :
    (s.modPort p f).mode = s.mode := by cases p <;> rfl
@[simp] theorem State.modPort_holdAt (s : State) (p : PortId) (f : Port → Port) :
    (s.modPort p f).holdAt = s.holdAt := by cases p <;> rfl
@[simp] theorem State.modPort_grace (s : State) (p : PortId) (f : Port → Port) :
    (s.modPort p f).grace = s.grace := by cases p <;> rfl
@[simp] theorem State.modPort_lines (s : State) (p : PortId) (f : Port → Port) :
    (s.modPort p f).lines = s.lines := by cases p <;> rfl
@[simp] theorem State.modPort_alarmDelay (s : State) (p : PortId) (f : Port → Port) :
    (s.modPort p f).alarmDelay = s.alarmDelay := by cases p <;> rfl
@[simp] theorem State.modPort_alarm (s : State) (p : PortId) (f : Port → Port) :
    (s.modPort p f).alarm = s.alarm := by cases p <;> rfl
@[simp] theorem State.modPort_pending (s : State) (p : PortId) (f : Port → Port) :
    (s.modPort p f).pending = s.pending := by cases p <;> rfl

/-! ### modHanger -/

@[simp] theorem State.modHanger_lineTime (s : State) (tag : Nat) (f : Hanger → Hanger) :
    (s.modHanger tag f).lineTime = s.lineTime := rfl
@[simp] theorem State.modHanger_stations (s : State) (tag : Nat) (f : Hanger → Hanger) :
    (s.modHanger tag f).stations = s.stations := rfl
@[simp] theorem State.modHanger_recipes (s : State) (tag : Nat) (f : Hanger → Hanger) :
    (s.modHanger tag f).recipes = s.recipes := rfl
@[simp] theorem State.modHanger_draft (s : State) (tag : Nat) (f : Hanger → Hanger) :
    (s.modHanger tag f).draft = s.draft := rfl
@[simp] theorem State.modHanger_hangers (s : State) (tag : Nat) (f : Hanger → Hanger) :
    (s.modHanger tag f).hangers = s.hangers.map (fun h => if h.tag = tag then f h else h) := rfl
@[simp] theorem State.modHanger_startOrder (s : State) (tag : Nat) (f : Hanger → Hanger) :
    (s.modHanger tag f).startOrder = s.startOrder := rfl
@[simp] theorem State.modHanger_admissions (s : State) (tag : Nat) (f : Hanger → Hanger) :
    (s.modHanger tag f).admissions = s.admissions := rfl
@[simp] theorem State.modHanger_baths (s : State) (tag : Nat) (f : Hanger → Hanger) :
    (s.modHanger tag f).baths = s.baths := rfl
@[simp] theorem State.modHanger_moves (s : State) (tag : Nat) (f : Hanger → Hanger) :
    (s.modHanger tag f).moves = s.moves := rfl
@[simp] theorem State.modHanger_moveCounter (s : State) (tag : Nat) (f : Hanger → Hanger) :
    (s.modHanger tag f).moveCounter = s.moveCounter := rfl
@[simp] theorem State.modHanger_gantryA (s : State) (tag : Nat) (f : Hanger → Hanger) :
    (s.modHanger tag f).gantryA = s.gantryA := rfl
@[simp] theorem State.modHanger_gantryB (s : State) (tag : Nat) (f : Hanger → Hanger) :
    (s.modHanger tag f).gantryB = s.gantryB := rfl
@[simp] theorem State.modHanger_guardGap (s : State) (tag : Nat) (f : Hanger → Hanger) :
    (s.modHanger tag f).guardGap = s.guardGap := rfl
@[simp] theorem State.modHanger_channels (s : State) (tag : Nat) (f : Hanger → Hanger) :
    (s.modHanger tag f).channels = s.channels := rfl
@[simp] theorem State.modHanger_gasLimit (s : State) (tag : Nat) (f : Hanger → Hanger) :
    (s.modHanger tag f).gasLimit = s.gasLimit := rfl
@[simp] theorem State.modHanger_mode (s : State) (tag : Nat) (f : Hanger → Hanger) :
    (s.modHanger tag f).mode = s.mode := rfl
@[simp] theorem State.modHanger_holdAt (s : State) (tag : Nat) (f : Hanger → Hanger) :
    (s.modHanger tag f).holdAt = s.holdAt := rfl
@[simp] theorem State.modHanger_grace (s : State) (tag : Nat) (f : Hanger → Hanger) :
    (s.modHanger tag f).grace = s.grace := rfl
@[simp] theorem State.modHanger_lines (s : State) (tag : Nat) (f : Hanger → Hanger) :
    (s.modHanger tag f).lines = s.lines := rfl
@[simp] theorem State.modHanger_port0 (s : State) (tag : Nat) (f : Hanger → Hanger) :
    (s.modHanger tag f).port0 = s.port0 := rfl
@[simp] theorem State.modHanger_port1 (s : State) (tag : Nat) (f : Hanger → Hanger) :
    (s.modHanger tag f).port1 = s.port1 := rfl
@[simp] theorem State.modHanger_port2 (s : State) (tag : Nat) (f : Hanger → Hanger) :
    (s.modHanger tag f).port2 = s.port2 := rfl
@[simp] theorem State.modHanger_alarmDelay (s : State) (tag : Nat) (f : Hanger → Hanger) :
    (s.modHanger tag f).alarmDelay = s.alarmDelay := rfl
@[simp] theorem State.modHanger_alarm (s : State) (tag : Nat) (f : Hanger → Hanger) :
    (s.modHanger tag f).alarm = s.alarm := rfl
@[simp] theorem State.modHanger_pending (s : State) (tag : Nat) (f : Hanger → Hanger) :
    (s.modHanger tag f).pending = s.pending := rfl

/-! ### modMove -/

@[simp] theorem State.modMove_lineTime (s : State) (id : Nat) (f : Move → Move) :
    (s.modMove id f).lineTime = s.lineTime := rfl
@[simp] theorem State.modMove_stations (s : State) (id : Nat) (f : Move → Move) :
    (s.modMove id f).stations = s.stations := rfl
@[simp] theorem State.modMove_recipes (s : State) (id : Nat) (f : Move → Move) :
    (s.modMove id f).recipes = s.recipes := rfl
@[simp] theorem State.modMove_draft (s : State) (id : Nat) (f : Move → Move) :
    (s.modMove id f).draft = s.draft := rfl
@[simp] theorem State.modMove_hangers (s : State) (id : Nat) (f : Move → Move) :
    (s.modMove id f).hangers = s.hangers := rfl
@[simp] theorem State.modMove_startOrder (s : State) (id : Nat) (f : Move → Move) :
    (s.modMove id f).startOrder = s.startOrder := rfl
@[simp] theorem State.modMove_admissions (s : State) (id : Nat) (f : Move → Move) :
    (s.modMove id f).admissions = s.admissions := rfl
@[simp] theorem State.modMove_baths (s : State) (id : Nat) (f : Move → Move) :
    (s.modMove id f).baths = s.baths := rfl
@[simp] theorem State.modMove_moves (s : State) (id : Nat) (f : Move → Move) :
    (s.modMove id f).moves = s.moves.map (fun m => if m.id = id then f m else m) := rfl
@[simp] theorem State.modMove_moveCounter (s : State) (id : Nat) (f : Move → Move) :
    (s.modMove id f).moveCounter = s.moveCounter := rfl
@[simp] theorem State.modMove_gantryA (s : State) (id : Nat) (f : Move → Move) :
    (s.modMove id f).gantryA = s.gantryA := rfl
@[simp] theorem State.modMove_gantryB (s : State) (id : Nat) (f : Move → Move) :
    (s.modMove id f).gantryB = s.gantryB := rfl
@[simp] theorem State.modMove_guardGap (s : State) (id : Nat) (f : Move → Move) :
    (s.modMove id f).guardGap = s.guardGap := rfl
@[simp] theorem State.modMove_channels (s : State) (id : Nat) (f : Move → Move) :
    (s.modMove id f).channels = s.channels := rfl
@[simp] theorem State.modMove_gasLimit (s : State) (id : Nat) (f : Move → Move) :
    (s.modMove id f).gasLimit = s.gasLimit := rfl
@[simp] theorem State.modMove_mode (s : State) (id : Nat) (f : Move → Move) :
    (s.modMove id f).mode = s.mode := rfl
@[simp] theorem State.modMove_holdAt (s : State) (id : Nat) (f : Move → Move) :
    (s.modMove id f).holdAt = s.holdAt := rfl
@[simp] theorem State.modMove_grace (s : State) (id : Nat) (f : Move → Move) :
    (s.modMove id f).grace = s.grace := rfl
@[simp] theorem State.modMove_lines (s : State) (id : Nat) (f : Move → Move) :
    (s.modMove id f).lines = s.lines := rfl
@[simp] theorem State.modMove_port0 (s : State) (id : Nat) (f : Move → Move) :
    (s.modMove id f).port0 = s.port0 := rfl
@[simp] theorem State.modMove_port1 (s : State) (id : Nat) (f : Move → Move) :
    (s.modMove id f).port1 = s.port1 := rfl
@[simp] theorem State.modMove_port2 (s : State) (id : Nat) (f : Move → Move) :
    (s.modMove id f).port2 = s.port2 := rfl
@[simp] theorem State.modMove_alarmDelay (s : State) (id : Nat) (f : Move → Move) :
    (s.modMove id f).alarmDelay = s.alarmDelay := rfl
@[simp] theorem State.modMove_alarm (s : State) (id : Nat) (f : Move → Move) :
    (s.modMove id f).alarm = s.alarm := rfl
@[simp] theorem State.modMove_pending (s : State) (id : Nat) (f : Move → Move) :
    (s.modMove id f).pending = s.pending := rfl

/-! ### setSlot -/

@[simp] theorem State.setSlot_lineTime (s : State) (r : SlotRef) (x : Slot) :
    (s.setSlot r x).lineTime = s.lineTime := rfl
@[simp] theorem State.setSlot_recipes (s : State) (r : SlotRef) (x : Slot) :
    (s.setSlot r x).recipes = s.recipes := rfl
@[simp] theorem State.setSlot_draft (s : State) (r : SlotRef) (x : Slot) :
    (s.setSlot r x).draft = s.draft := rfl
@[simp] theorem State.setSlot_hangers (s : State) (r : SlotRef) (x : Slot) :
    (s.setSlot r x).hangers = s.hangers := rfl
@[simp] theorem State.setSlot_startOrder (s : State) (r : SlotRef) (x : Slot) :
    (s.setSlot r x).startOrder = s.startOrder := rfl
@[simp] theorem State.setSlot_admissions (s : State) (r : SlotRef) (x : Slot) :
    (s.setSlot r x).admissions = s.admissions := rfl
@[simp] theorem State.setSlot_baths (s : State) (r : SlotRef) (x : Slot) :
    (s.setSlot r x).baths = s.baths := rfl
@[simp] theorem State.setSlot_moves (s : State) (r : SlotRef) (x : Slot) :
    (s.setSlot r x).moves = s.moves := rfl
@[simp] theorem State.setSlot_moveCounter (s : State) (r : SlotRef) (x : Slot) :
    (s.setSlot r x).moveCounter = s.moveCounter := rfl
@[simp] theorem State.setSlot_gantryA (s : State) (r : SlotRef) (x : Slot) :
    (s.setSlot r x).gantryA = s.gantryA := rfl
@[simp] theorem State.setSlot_gantryB (s : State) (r : SlotRef) (x : Slot) :
    (s.setSlot r x).gantryB = s.gantryB := rfl
@[simp] theorem State.setSlot_guardGap (s : State) (r : SlotRef) (x : Slot) :
    (s.setSlot r x).guardGap = s.guardGap := rfl
@[simp] theorem State.setSlot_channels (s : State) (r : SlotRef) (x : Slot) :
    (s.setSlot r x).channels = s.channels := rfl
@[simp] theorem State.setSlot_gasLimit (s : State) (r : SlotRef) (x : Slot) :
    (s.setSlot r x).gasLimit = s.gasLimit := rfl
@[simp] theorem State.setSlot_mode (s : State) (r : SlotRef) (x : Slot) :
    (s.setSlot r x).mode = s.mode := rfl
@[simp] theorem State.setSlot_holdAt (s : State) (r : SlotRef) (x : Slot) :
    (s.setSlot r x).holdAt = s.holdAt := rfl
@[simp] theorem State.setSlot_grace (s : State) (r : SlotRef) (x : Slot) :
    (s.setSlot r x).grace = s.grace := rfl
@[simp] theorem State.setSlot_lines (s : State) (r : SlotRef) (x : Slot) :
    (s.setSlot r x).lines = s.lines := rfl
@[simp] theorem State.setSlot_port0 (s : State) (r : SlotRef) (x : Slot) :
    (s.setSlot r x).port0 = s.port0 := rfl
@[simp] theorem State.setSlot_port1 (s : State) (r : SlotRef) (x : Slot) :
    (s.setSlot r x).port1 = s.port1 := rfl
@[simp] theorem State.setSlot_port2 (s : State) (r : SlotRef) (x : Slot) :
    (s.setSlot r x).port2 = s.port2 := rfl
@[simp] theorem State.setSlot_alarmDelay (s : State) (r : SlotRef) (x : Slot) :
    (s.setSlot r x).alarmDelay = s.alarmDelay := rfl
@[simp] theorem State.setSlot_alarm (s : State) (r : SlotRef) (x : Slot) :
    (s.setSlot r x).alarm = s.alarm := rfl
@[simp] theorem State.setSlot_pending (s : State) (r : SlotRef) (x : Slot) :
    (s.setSlot r x).pending = s.pending := rfl

/-! ### opened -/

@[simp] theorem State.opened_lineTime (s : State) (p : PortId) (n : Nat) :
    (s.opened p n).lineTime = s.lineTime := by cases p <;> rfl
@[simp] theorem State.opened_stations (s : State) (p : PortId) (n : Nat) :
    (s.opened p n).stations = s.stations := by cases p <;> rfl
@[simp] theorem State.opened_recipes (s : State) (p : PortId) (n : Nat) :
    (s.opened p n).recipes = s.recipes := by cases p <;> rfl
@[simp] theorem State.opened_draft (s : State) (p : PortId) (n : Nat) :
    (s.opened p n).draft = s.draft := by cases p <;> rfl
@[simp] theorem State.opened_hangers (s : State) (p : PortId) (n : Nat) :
    (s.opened p n).hangers = s.hangers := by cases p <;> rfl
@[simp] theorem State.opened_startOrder (s : State) (p : PortId) (n : Nat) :
    (s.opened p n).startOrder = s.startOrder := by cases p <;> rfl
@[simp] theorem State.opened_admissions (s : State) (p : PortId) (n : Nat) :
    (s.opened p n).admissions = s.admissions := by cases p <;> rfl
@[simp] theorem State.opened_baths (s : State) (p : PortId) (n : Nat) :
    (s.opened p n).baths = s.baths := by cases p <;> rfl
@[simp] theorem State.opened_moves (s : State) (p : PortId) (n : Nat) :
    (s.opened p n).moves = s.moves := by cases p <;> rfl
@[simp] theorem State.opened_moveCounter (s : State) (p : PortId) (n : Nat) :
    (s.opened p n).moveCounter = s.moveCounter := by cases p <;> rfl
@[simp] theorem State.opened_gantryA (s : State) (p : PortId) (n : Nat) :
    (s.opened p n).gantryA = s.gantryA := by cases p <;> rfl
@[simp] theorem State.opened_gantryB (s : State) (p : PortId) (n : Nat) :
    (s.opened p n).gantryB = s.gantryB := by cases p <;> rfl
@[simp] theorem State.opened_guardGap (s : State) (p : PortId) (n : Nat) :
    (s.opened p n).guardGap = s.guardGap := by cases p <;> rfl
@[simp] theorem State.opened_channels (s : State) (p : PortId) (n : Nat) :
    (s.opened p n).channels = s.channels := by cases p <;> rfl
@[simp] theorem State.opened_gasLimit (s : State) (p : PortId) (n : Nat) :
    (s.opened p n).gasLimit = s.gasLimit := by cases p <;> rfl
@[simp] theorem State.opened_mode (s : State) (p : PortId) (n : Nat) :
    (s.opened p n).mode = s.mode := by cases p <;> rfl
@[simp] theorem State.opened_holdAt (s : State) (p : PortId) (n : Nat) :
    (s.opened p n).holdAt = s.holdAt := by cases p <;> rfl
@[simp] theorem State.opened_grace (s : State) (p : PortId) (n : Nat) :
    (s.opened p n).grace = s.grace := by cases p <;> rfl
@[simp] theorem State.opened_lines (s : State) (p : PortId) (n : Nat) :
    (s.opened p n).lines = s.lines := by cases p <;> rfl
@[simp] theorem State.opened_alarmDelay (s : State) (p : PortId) (n : Nat) :
    (s.opened p n).alarmDelay = s.alarmDelay := by cases p <;> rfl
@[simp] theorem State.opened_alarm (s : State) (p : PortId) (n : Nat) :
    (s.opened p n).alarm = s.alarm := by cases p <;> rfl
@[simp] theorem State.opened_pending (s : State) (p : PortId) (n : Nat) :
    (s.opened p n).pending = s.pending := by cases p <;> rfl

/-! ### forming -/

@[simp] theorem State.forming_lineTime (s : State) (p : PortId) (r : Reply) :
    (s.forming p r).lineTime = s.lineTime := by cases p <;> rfl
@[simp] theorem State.forming_stations (s : State) (p : PortId) (r : Reply) :
    (s.forming p r).stations = s.stations := by cases p <;> rfl
@[simp] theorem State.forming_recipes (s : State) (p : PortId) (r : Reply) :
    (s.forming p r).recipes = s.recipes := by cases p <;> rfl
@[simp] theorem State.forming_draft (s : State) (p : PortId) (r : Reply) :
    (s.forming p r).draft = s.draft := by cases p <;> rfl
@[simp] theorem State.forming_hangers (s : State) (p : PortId) (r : Reply) :
    (s.forming p r).hangers = s.hangers := by cases p <;> rfl
@[simp] theorem State.forming_startOrder (s : State) (p : PortId) (r : Reply) :
    (s.forming p r).startOrder = s.startOrder := by cases p <;> rfl
@[simp] theorem State.forming_admissions (s : State) (p : PortId) (r : Reply) :
    (s.forming p r).admissions = s.admissions := by cases p <;> rfl
@[simp] theorem State.forming_baths (s : State) (p : PortId) (r : Reply) :
    (s.forming p r).baths = s.baths := by cases p <;> rfl
@[simp] theorem State.forming_moves (s : State) (p : PortId) (r : Reply) :
    (s.forming p r).moves = s.moves := by cases p <;> rfl
@[simp] theorem State.forming_moveCounter (s : State) (p : PortId) (r : Reply) :
    (s.forming p r).moveCounter = s.moveCounter := by cases p <;> rfl
@[simp] theorem State.forming_gantryA (s : State) (p : PortId) (r : Reply) :
    (s.forming p r).gantryA = s.gantryA := by cases p <;> rfl
@[simp] theorem State.forming_gantryB (s : State) (p : PortId) (r : Reply) :
    (s.forming p r).gantryB = s.gantryB := by cases p <;> rfl
@[simp] theorem State.forming_guardGap (s : State) (p : PortId) (r : Reply) :
    (s.forming p r).guardGap = s.guardGap := by cases p <;> rfl
@[simp] theorem State.forming_channels (s : State) (p : PortId) (r : Reply) :
    (s.forming p r).channels = s.channels := by cases p <;> rfl
@[simp] theorem State.forming_gasLimit (s : State) (p : PortId) (r : Reply) :
    (s.forming p r).gasLimit = s.gasLimit := by cases p <;> rfl
@[simp] theorem State.forming_mode (s : State) (p : PortId) (r : Reply) :
    (s.forming p r).mode = s.mode := by cases p <;> rfl
@[simp] theorem State.forming_holdAt (s : State) (p : PortId) (r : Reply) :
    (s.forming p r).holdAt = s.holdAt := by cases p <;> rfl
@[simp] theorem State.forming_grace (s : State) (p : PortId) (r : Reply) :
    (s.forming p r).grace = s.grace := by cases p <;> rfl
@[simp] theorem State.forming_lines (s : State) (p : PortId) (r : Reply) :
    (s.forming p r).lines = s.lines := by cases p <;> rfl
@[simp] theorem State.forming_alarmDelay (s : State) (p : PortId) (r : Reply) :
    (s.forming p r).alarmDelay = s.alarmDelay := by cases p <;> rfl
@[simp] theorem State.forming_alarm (s : State) (p : PortId) (r : Reply) :
    (s.forming p r).alarm = s.alarm := by cases p <;> rfl
@[simp] theorem State.forming_pending (s : State) (p : PortId) (r : Reply) :
    (s.forming p r).pending = s.pending := by cases p <;> rfl

/-! ### ignored -/

@[simp] theorem State.ignored_lineTime (s : State) (p : PortId) (n : Nat) :
    (s.ignored p n).lineTime = s.lineTime := by cases p <;> rfl
@[simp] theorem State.ignored_stations (s : State) (p : PortId) (n : Nat) :
    (s.ignored p n).stations = s.stations := by cases p <;> rfl
@[simp] theorem State.ignored_recipes (s : State) (p : PortId) (n : Nat) :
    (s.ignored p n).recipes = s.recipes := by cases p <;> rfl
@[simp] theorem State.ignored_draft (s : State) (p : PortId) (n : Nat) :
    (s.ignored p n).draft = s.draft := by cases p <;> rfl
@[simp] theorem State.ignored_hangers (s : State) (p : PortId) (n : Nat) :
    (s.ignored p n).hangers = s.hangers := by cases p <;> rfl
@[simp] theorem State.ignored_startOrder (s : State) (p : PortId) (n : Nat) :
    (s.ignored p n).startOrder = s.startOrder := by cases p <;> rfl
@[simp] theorem State.ignored_admissions (s : State) (p : PortId) (n : Nat) :
    (s.ignored p n).admissions = s.admissions := by cases p <;> rfl
@[simp] theorem State.ignored_baths (s : State) (p : PortId) (n : Nat) :
    (s.ignored p n).baths = s.baths := by cases p <;> rfl
@[simp] theorem State.ignored_moves (s : State) (p : PortId) (n : Nat) :
    (s.ignored p n).moves = s.moves := by cases p <;> rfl
@[simp] theorem State.ignored_moveCounter (s : State) (p : PortId) (n : Nat) :
    (s.ignored p n).moveCounter = s.moveCounter := by cases p <;> rfl
@[simp] theorem State.ignored_gantryA (s : State) (p : PortId) (n : Nat) :
    (s.ignored p n).gantryA = s.gantryA := by cases p <;> rfl
@[simp] theorem State.ignored_gantryB (s : State) (p : PortId) (n : Nat) :
    (s.ignored p n).gantryB = s.gantryB := by cases p <;> rfl
@[simp] theorem State.ignored_guardGap (s : State) (p : PortId) (n : Nat) :
    (s.ignored p n).guardGap = s.guardGap := by cases p <;> rfl
@[simp] theorem State.ignored_channels (s : State) (p : PortId) (n : Nat) :
    (s.ignored p n).channels = s.channels := by cases p <;> rfl
@[simp] theorem State.ignored_gasLimit (s : State) (p : PortId) (n : Nat) :
    (s.ignored p n).gasLimit = s.gasLimit := by cases p <;> rfl
@[simp] theorem State.ignored_mode (s : State) (p : PortId) (n : Nat) :
    (s.ignored p n).mode = s.mode := by cases p <;> rfl
@[simp] theorem State.ignored_holdAt (s : State) (p : PortId) (n : Nat) :
    (s.ignored p n).holdAt = s.holdAt := by cases p <;> rfl
@[simp] theorem State.ignored_grace (s : State) (p : PortId) (n : Nat) :
    (s.ignored p n).grace = s.grace := by cases p <;> rfl
@[simp] theorem State.ignored_lines (s : State) (p : PortId) (n : Nat) :
    (s.ignored p n).lines = s.lines := by cases p <;> rfl
@[simp] theorem State.ignored_alarmDelay (s : State) (p : PortId) (n : Nat) :
    (s.ignored p n).alarmDelay = s.alarmDelay := by cases p <;> rfl
@[simp] theorem State.ignored_alarm (s : State) (p : PortId) (n : Nat) :
    (s.ignored p n).alarm = s.alarm := by cases p <;> rfl
@[simp] theorem State.ignored_pending (s : State) (p : PortId) (n : Nat) :
    (s.ignored p n).pending = s.pending := by cases p <;> rfl

/-! ### testAlarm -/

@[simp] theorem State.testAlarm_lineTime (s : State) :
    (s.testAlarm).lineTime = s.lineTime := rfl
@[simp] theorem State.testAlarm_stations (s : State) :
    (s.testAlarm).stations = s.stations := rfl
@[simp] theorem State.testAlarm_recipes (s : State) :
    (s.testAlarm).recipes = s.recipes := rfl
@[simp] theorem State.testAlarm_draft (s : State) :
    (s.testAlarm).draft = s.draft := rfl
@[simp] theorem State.testAlarm_hangers (s : State) :
    (s.testAlarm).hangers = s.hangers := rfl
@[simp] theorem State.testAlarm_startOrder (s : State) :
    (s.testAlarm).startOrder = s.startOrder := rfl
@[simp] theorem State.testAlarm_admissions (s : State) :
    (s.testAlarm).admissions = s.admissions := rfl
@[simp] theorem State.testAlarm_baths (s : State) :
    (s.testAlarm).baths = s.baths := rfl
@[simp] theorem State.testAlarm_moves (s : State) :
    (s.testAlarm).moves = s.moves := rfl
@[simp] theorem State.testAlarm_moveCounter (s : State) :
    (s.testAlarm).moveCounter = s.moveCounter := rfl
@[simp] theorem State.testAlarm_gantryA (s : State) :
    (s.testAlarm).gantryA = s.gantryA := rfl
@[simp] theorem State.testAlarm_gantryB (s : State) :
    (s.testAlarm).gantryB = s.gantryB := rfl
@[simp] theorem State.testAlarm_guardGap (s : State) :
    (s.testAlarm).guardGap = s.guardGap := rfl
@[simp] theorem State.testAlarm_channels (s : State) :
    (s.testAlarm).channels = s.channels := rfl
@[simp] theorem State.testAlarm_gasLimit (s : State) :
    (s.testAlarm).gasLimit = s.gasLimit := rfl
@[simp] theorem State.testAlarm_mode (s : State) :
    (s.testAlarm).mode = s.mode := rfl
@[simp] theorem State.testAlarm_holdAt (s : State) :
    (s.testAlarm).holdAt = s.holdAt := rfl
@[simp] theorem State.testAlarm_grace (s : State) :
    (s.testAlarm).grace = s.grace := rfl
@[simp] theorem State.testAlarm_lines (s : State) :
    (s.testAlarm).lines = s.lines := rfl
@[simp] theorem State.testAlarm_port0 (s : State) :
    (s.testAlarm).port0 = s.port0 := rfl
@[simp] theorem State.testAlarm_port1 (s : State) :
    (s.testAlarm).port1 = s.port1 := rfl
@[simp] theorem State.testAlarm_port2 (s : State) :
    (s.testAlarm).port2 = s.port2 := rfl
@[simp] theorem State.testAlarm_alarmDelay (s : State) :
    (s.testAlarm).alarmDelay = s.alarmDelay := rfl
@[simp] theorem State.testAlarm_alarm (s : State) :
    (s.testAlarm).alarm = s.alarmDue := rfl
@[simp] theorem State.testAlarm_pending (s : State) :
    (s.testAlarm).pending = s.pending := rfl

/-! ### addMove -/

@[simp] theorem State.addMove_lineTime (s : State) (m : Move) :
    (s.addMove m).lineTime = s.lineTime := rfl
@[simp] theorem State.addMove_stations (s : State) (m : Move) :
    (s.addMove m).stations = s.stations := rfl
@[simp] theorem State.addMove_recipes (s : State) (m : Move) :
    (s.addMove m).recipes = s.recipes := rfl
@[simp] theorem State.addMove_draft (s : State) (m : Move) :
    (s.addMove m).draft = s.draft := rfl
@[simp] theorem State.addMove_hangers (s : State) (m : Move) :
    (s.addMove m).hangers = s.hangers := rfl
@[simp] theorem State.addMove_startOrder (s : State) (m : Move) :
    (s.addMove m).startOrder = s.startOrder := rfl
@[simp] theorem State.addMove_admissions (s : State) (m : Move) :
    (s.addMove m).admissions = s.admissions := rfl
@[simp] theorem State.addMove_baths (s : State) (m : Move) :
    (s.addMove m).baths = s.baths := rfl
@[simp] theorem State.addMove_moves (s : State) (m : Move) :
    (s.addMove m).moves = s.moves ++ [{ m with id := s.freshId }] := rfl
@[simp] theorem State.addMove_moveCounter (s : State) (m : Move) :
    (s.addMove m).moveCounter = (s.freshId + 1) % 256 := rfl
@[simp] theorem State.addMove_gantryA (s : State) (m : Move) :
    (s.addMove m).gantryA = s.gantryA := rfl
@[simp] theorem State.addMove_gantryB (s : State) (m : Move) :
    (s.addMove m).gantryB = s.gantryB := rfl
@[simp] theorem State.addMove_guardGap (s : State) (m : Move) :
    (s.addMove m).guardGap = s.guardGap := rfl
@[simp] theorem State.addMove_channels (s : State) (m : Move) :
    (s.addMove m).channels = s.channels := rfl
@[simp] theorem State.addMove_gasLimit (s : State) (m : Move) :
    (s.addMove m).gasLimit = s.gasLimit := rfl
@[simp] theorem State.addMove_mode (s : State) (m : Move) :
    (s.addMove m).mode = s.mode := rfl
@[simp] theorem State.addMove_holdAt (s : State) (m : Move) :
    (s.addMove m).holdAt = s.holdAt := rfl
@[simp] theorem State.addMove_grace (s : State) (m : Move) :
    (s.addMove m).grace = s.grace := rfl
@[simp] theorem State.addMove_lines (s : State) (m : Move) :
    (s.addMove m).lines = s.lines := rfl
@[simp] theorem State.addMove_port0 (s : State) (m : Move) :
    (s.addMove m).port0 = s.port0 := rfl
@[simp] theorem State.addMove_port1 (s : State) (m : Move) :
    (s.addMove m).port1 = s.port1 := rfl
@[simp] theorem State.addMove_port2 (s : State) (m : Move) :
    (s.addMove m).port2 = s.port2 := rfl
@[simp] theorem State.addMove_alarmDelay (s : State) (m : Move) :
    (s.addMove m).alarmDelay = s.alarmDelay := rfl
@[simp] theorem State.addMove_alarm (s : State) (m : Move) :
    (s.addMove m).alarm = s.alarm := rfl
@[simp] theorem State.addMove_pending (s : State) (m : Move) :
    (s.addMove m).pending = s.pending := rfl

/-! ### removeMove -/

@[simp] theorem State.removeMove_lineTime (s : State) (id : Nat) :
    (s.removeMove id).lineTime = s.lineTime := rfl
@[simp] theorem State.removeMove_stations (s : State) (id : Nat) :
    (s.removeMove id).stations = s.stations := rfl
@[simp] theorem State.removeMove_recipes (s : State) (id : Nat) :
    (s.removeMove id).recipes = s.recipes := rfl
@[simp] theorem State.removeMove_draft (s : State) (id : Nat) :
    (s.removeMove id).draft = s.draft := rfl
@[simp] theorem State.removeMove_hangers (s : State) (id : Nat) :
    (s.removeMove id).hangers = s.hangers := rfl
@[simp] theorem State.removeMove_startOrder (s : State) (id : Nat) :
    (s.removeMove id).startOrder = s.startOrder := rfl
@[simp] theorem State.removeMove_admissions (s : State) (id : Nat) :
    (s.removeMove id).admissions = s.admissions := rfl
@[simp] theorem State.removeMove_baths (s : State) (id : Nat) :
    (s.removeMove id).baths = s.baths := rfl
@[simp] theorem State.removeMove_moveCounter (s : State) (id : Nat) :
    (s.removeMove id).moveCounter = s.moveCounter := rfl
@[simp] theorem State.removeMove_gantryA (s : State) (id : Nat) :
    (s.removeMove id).gantryA = s.gantryA := rfl
@[simp] theorem State.removeMove_gantryB (s : State) (id : Nat) :
    (s.removeMove id).gantryB = s.gantryB := rfl
@[simp] theorem State.removeMove_guardGap (s : State) (id : Nat) :
    (s.removeMove id).guardGap = s.guardGap := rfl
@[simp] theorem State.removeMove_channels (s : State) (id : Nat) :
    (s.removeMove id).channels = s.channels := rfl
@[simp] theorem State.removeMove_gasLimit (s : State) (id : Nat) :
    (s.removeMove id).gasLimit = s.gasLimit := rfl
@[simp] theorem State.removeMove_mode (s : State) (id : Nat) :
    (s.removeMove id).mode = s.mode := rfl
@[simp] theorem State.removeMove_holdAt (s : State) (id : Nat) :
    (s.removeMove id).holdAt = s.holdAt := rfl
@[simp] theorem State.removeMove_grace (s : State) (id : Nat) :
    (s.removeMove id).grace = s.grace := rfl
@[simp] theorem State.removeMove_lines (s : State) (id : Nat) :
    (s.removeMove id).lines = s.lines := rfl
@[simp] theorem State.removeMove_port0 (s : State) (id : Nat) :
    (s.removeMove id).port0 = s.port0 := rfl
@[simp] theorem State.removeMove_port1 (s : State) (id : Nat) :
    (s.removeMove id).port1 = s.port1 := rfl
@[simp] theorem State.removeMove_port2 (s : State) (id : Nat) :
    (s.removeMove id).port2 = s.port2 := rfl
@[simp] theorem State.removeMove_alarmDelay (s : State) (id : Nat) :
    (s.removeMove id).alarmDelay = s.alarmDelay := rfl
@[simp] theorem State.removeMove_alarm (s : State) (id : Nat) :
    (s.removeMove id).alarm = s.alarm := rfl
@[simp] theorem State.removeMove_pending (s : State) (id : Nat) :
    (s.removeMove id).pending = s.pending := rfl

/-! ### removeYieldFor -/

@[simp] theorem State.removeYieldFor_lineTime (s : State) (id : Nat) :
    (s.removeYieldFor id).lineTime = s.lineTime := rfl
@[simp] theorem State.removeYieldFor_stations (s : State) (id : Nat) :
    (s.removeYieldFor id).stations = s.stations := rfl
@[simp] theorem State.removeYieldFor_recipes (s : State) (id : Nat) :
    (s.removeYieldFor id).recipes = s.recipes := rfl
@[simp] theorem State.removeYieldFor_draft (s : State) (id : Nat) :
    (s.removeYieldFor id).draft = s.draft := rfl
@[simp] theorem State.removeYieldFor_hangers (s : State) (id : Nat) :
    (s.removeYieldFor id).hangers = s.hangers := rfl
@[simp] theorem State.removeYieldFor_startOrder (s : State) (id : Nat) :
    (s.removeYieldFor id).startOrder = s.startOrder := rfl
@[simp] theorem State.removeYieldFor_admissions (s : State) (id : Nat) :
    (s.removeYieldFor id).admissions = s.admissions := rfl
@[simp] theorem State.removeYieldFor_baths (s : State) (id : Nat) :
    (s.removeYieldFor id).baths = s.baths := rfl
@[simp] theorem State.removeYieldFor_moveCounter (s : State) (id : Nat) :
    (s.removeYieldFor id).moveCounter = s.moveCounter := rfl
@[simp] theorem State.removeYieldFor_gantryA (s : State) (id : Nat) :
    (s.removeYieldFor id).gantryA = s.gantryA := rfl
@[simp] theorem State.removeYieldFor_gantryB (s : State) (id : Nat) :
    (s.removeYieldFor id).gantryB = s.gantryB := rfl
@[simp] theorem State.removeYieldFor_guardGap (s : State) (id : Nat) :
    (s.removeYieldFor id).guardGap = s.guardGap := rfl
@[simp] theorem State.removeYieldFor_channels (s : State) (id : Nat) :
    (s.removeYieldFor id).channels = s.channels := rfl
@[simp] theorem State.removeYieldFor_gasLimit (s : State) (id : Nat) :
    (s.removeYieldFor id).gasLimit = s.gasLimit := rfl
@[simp] theorem State.removeYieldFor_mode (s : State) (id : Nat) :
    (s.removeYieldFor id).mode = s.mode := rfl
@[simp] theorem State.removeYieldFor_holdAt (s : State) (id : Nat) :
    (s.removeYieldFor id).holdAt = s.holdAt := rfl
@[simp] theorem State.removeYieldFor_grace (s : State) (id : Nat) :
    (s.removeYieldFor id).grace = s.grace := rfl
@[simp] theorem State.removeYieldFor_lines (s : State) (id : Nat) :
    (s.removeYieldFor id).lines = s.lines := rfl
@[simp] theorem State.removeYieldFor_port0 (s : State) (id : Nat) :
    (s.removeYieldFor id).port0 = s.port0 := rfl
@[simp] theorem State.removeYieldFor_port1 (s : State) (id : Nat) :
    (s.removeYieldFor id).port1 = s.port1 := rfl
@[simp] theorem State.removeYieldFor_port2 (s : State) (id : Nat) :
    (s.removeYieldFor id).port2 = s.port2 := rfl
@[simp] theorem State.removeYieldFor_alarmDelay (s : State) (id : Nat) :
    (s.removeYieldFor id).alarmDelay = s.alarmDelay := rfl
@[simp] theorem State.removeYieldFor_alarm (s : State) (id : Nat) :
    (s.removeYieldFor id).alarm = s.alarm := rfl
@[simp] theorem State.removeYieldFor_pending (s : State) (id : Nat) :
    (s.removeYieldFor id).pending = s.pending := rfl

/-! ### removeOwnYield -/

@[simp] theorem State.removeOwnYield_lineTime (s : State) (g : GantryId) :
    (s.removeOwnYield g).lineTime = s.lineTime := rfl
@[simp] theorem State.removeOwnYield_stations (s : State) (g : GantryId) :
    (s.removeOwnYield g).stations = s.stations := rfl
@[simp] theorem State.removeOwnYield_recipes (s : State) (g : GantryId) :
    (s.removeOwnYield g).recipes = s.recipes := rfl
@[simp] theorem State.removeOwnYield_draft (s : State) (g : GantryId) :
    (s.removeOwnYield g).draft = s.draft := rfl
@[simp] theorem State.removeOwnYield_hangers (s : State) (g : GantryId) :
    (s.removeOwnYield g).hangers = s.hangers := rfl
@[simp] theorem State.removeOwnYield_startOrder (s : State) (g : GantryId) :
    (s.removeOwnYield g).startOrder = s.startOrder := rfl
@[simp] theorem State.removeOwnYield_admissions (s : State) (g : GantryId) :
    (s.removeOwnYield g).admissions = s.admissions := rfl
@[simp] theorem State.removeOwnYield_baths (s : State) (g : GantryId) :
    (s.removeOwnYield g).baths = s.baths := rfl
@[simp] theorem State.removeOwnYield_moveCounter (s : State) (g : GantryId) :
    (s.removeOwnYield g).moveCounter = s.moveCounter := rfl
@[simp] theorem State.removeOwnYield_gantryA (s : State) (g : GantryId) :
    (s.removeOwnYield g).gantryA = s.gantryA := rfl
@[simp] theorem State.removeOwnYield_gantryB (s : State) (g : GantryId) :
    (s.removeOwnYield g).gantryB = s.gantryB := rfl
@[simp] theorem State.removeOwnYield_guardGap (s : State) (g : GantryId) :
    (s.removeOwnYield g).guardGap = s.guardGap := rfl
@[simp] theorem State.removeOwnYield_channels (s : State) (g : GantryId) :
    (s.removeOwnYield g).channels = s.channels := rfl
@[simp] theorem State.removeOwnYield_gasLimit (s : State) (g : GantryId) :
    (s.removeOwnYield g).gasLimit = s.gasLimit := rfl
@[simp] theorem State.removeOwnYield_mode (s : State) (g : GantryId) :
    (s.removeOwnYield g).mode = s.mode := rfl
@[simp] theorem State.removeOwnYield_holdAt (s : State) (g : GantryId) :
    (s.removeOwnYield g).holdAt = s.holdAt := rfl
@[simp] theorem State.removeOwnYield_grace (s : State) (g : GantryId) :
    (s.removeOwnYield g).grace = s.grace := rfl
@[simp] theorem State.removeOwnYield_lines (s : State) (g : GantryId) :
    (s.removeOwnYield g).lines = s.lines := rfl
@[simp] theorem State.removeOwnYield_port0 (s : State) (g : GantryId) :
    (s.removeOwnYield g).port0 = s.port0 := rfl
@[simp] theorem State.removeOwnYield_port1 (s : State) (g : GantryId) :
    (s.removeOwnYield g).port1 = s.port1 := rfl
@[simp] theorem State.removeOwnYield_port2 (s : State) (g : GantryId) :
    (s.removeOwnYield g).port2 = s.port2 := rfl
@[simp] theorem State.removeOwnYield_alarmDelay (s : State) (g : GantryId) :
    (s.removeOwnYield g).alarmDelay = s.alarmDelay := rfl
@[simp] theorem State.removeOwnYield_alarm (s : State) (g : GantryId) :
    (s.removeOwnYield g).alarm = s.alarm := rfl
@[simp] theorem State.removeOwnYield_pending (s : State) (g : GantryId) :
    (s.removeOwnYield g).pending = s.pending := rfl

/-! ### releaseAll -/

@[simp] theorem State.releaseAll_lineTime (s : State) (tag : Nat) :
    (s.releaseAll tag).lineTime = s.lineTime := rfl
@[simp] theorem State.releaseAll_stations (s : State) (tag : Nat) :
    (s.releaseAll tag).stations = s.stations.map (fun stn => stn.releaseAll tag) := rfl
@[simp] theorem State.releaseAll_recipes (s : State) (tag : Nat) :
    (s.releaseAll tag).recipes = s.recipes := rfl
@[simp] theorem State.releaseAll_draft (s : State) (tag : Nat) :
    (s.releaseAll tag).draft = s.draft := rfl
@[simp] theorem State.releaseAll_hangers (s : State) (tag : Nat) :
    (s.releaseAll tag).hangers = s.hangers := rfl
@[simp] theorem State.releaseAll_startOrder (s : State) (tag : Nat) :
    (s.releaseAll tag).startOrder = s.startOrder := rfl
@[simp] theorem State.releaseAll_admissions (s : State) (tag : Nat) :
    (s.releaseAll tag).admissions = s.admissions := rfl
@[simp] theorem State.releaseAll_baths (s : State) (tag : Nat) :
    (s.releaseAll tag).baths = s.baths := rfl
@[simp] theorem State.releaseAll_moves (s : State) (tag : Nat) :
    (s.releaseAll tag).moves = s.moves := rfl
@[simp] theorem State.releaseAll_moveCounter (s : State) (tag : Nat) :
    (s.releaseAll tag).moveCounter = s.moveCounter := rfl
@[simp] theorem State.releaseAll_gantryA (s : State) (tag : Nat) :
    (s.releaseAll tag).gantryA = s.gantryA := rfl
@[simp] theorem State.releaseAll_gantryB (s : State) (tag : Nat) :
    (s.releaseAll tag).gantryB = s.gantryB := rfl
@[simp] theorem State.releaseAll_guardGap (s : State) (tag : Nat) :
    (s.releaseAll tag).guardGap = s.guardGap := rfl
@[simp] theorem State.releaseAll_channels (s : State) (tag : Nat) :
    (s.releaseAll tag).channels = s.channels := rfl
@[simp] theorem State.releaseAll_gasLimit (s : State) (tag : Nat) :
    (s.releaseAll tag).gasLimit = s.gasLimit := rfl
@[simp] theorem State.releaseAll_mode (s : State) (tag : Nat) :
    (s.releaseAll tag).mode = s.mode := rfl
@[simp] theorem State.releaseAll_holdAt (s : State) (tag : Nat) :
    (s.releaseAll tag).holdAt = s.holdAt := rfl
@[simp] theorem State.releaseAll_grace (s : State) (tag : Nat) :
    (s.releaseAll tag).grace = s.grace := rfl
@[simp] theorem State.releaseAll_lines (s : State) (tag : Nat) :
    (s.releaseAll tag).lines = s.lines := rfl
@[simp] theorem State.releaseAll_port0 (s : State) (tag : Nat) :
    (s.releaseAll tag).port0 = s.port0 := rfl
@[simp] theorem State.releaseAll_port1 (s : State) (tag : Nat) :
    (s.releaseAll tag).port1 = s.port1 := rfl
@[simp] theorem State.releaseAll_port2 (s : State) (tag : Nat) :
    (s.releaseAll tag).port2 = s.port2 := rfl
@[simp] theorem State.releaseAll_alarmDelay (s : State) (tag : Nat) :
    (s.releaseAll tag).alarmDelay = s.alarmDelay := rfl
@[simp] theorem State.releaseAll_alarm (s : State) (tag : Nat) :
    (s.releaseAll tag).alarm = s.alarm := rfl
@[simp] theorem State.releaseAll_pending (s : State) (tag : Nat) :
    (s.releaseAll tag).pending = s.pending := rfl

/-! ### leaveOrder -/

@[simp] theorem State.leaveOrder_lineTime (s : State) (tag : Nat) :
    (s.leaveOrder tag).lineTime = s.lineTime := rfl
@[simp] theorem State.leaveOrder_stations (s : State) (tag : Nat) :
    (s.leaveOrder tag).stations = s.stations := rfl
@[simp] theorem State.leaveOrder_recipes (s : State) (tag : Nat) :
    (s.leaveOrder tag).recipes = s.recipes := rfl
@[simp] theorem State.leaveOrder_draft (s : State) (tag : Nat) :
    (s.leaveOrder tag).draft = s.draft := rfl
@[simp] theorem State.leaveOrder_hangers (s : State) (tag : Nat) :
    (s.leaveOrder tag).hangers = s.hangers := rfl
@[simp] theorem State.leaveOrder_startOrder (s : State) (tag : Nat) :
    (s.leaveOrder tag).startOrder = s.startOrder.filter (fun t => t != tag) := rfl
@[simp] theorem State.leaveOrder_admissions (s : State) (tag : Nat) :
    (s.leaveOrder tag).admissions = s.admissions := rfl
@[simp] theorem State.leaveOrder_baths (s : State) (tag : Nat) :
    (s.leaveOrder tag).baths = s.baths := rfl
@[simp] theorem State.leaveOrder_moves (s : State) (tag : Nat) :
    (s.leaveOrder tag).moves = s.moves := rfl
@[simp] theorem State.leaveOrder_moveCounter (s : State) (tag : Nat) :
    (s.leaveOrder tag).moveCounter = s.moveCounter := rfl
@[simp] theorem State.leaveOrder_gantryA (s : State) (tag : Nat) :
    (s.leaveOrder tag).gantryA = s.gantryA := rfl
@[simp] theorem State.leaveOrder_gantryB (s : State) (tag : Nat) :
    (s.leaveOrder tag).gantryB = s.gantryB := rfl
@[simp] theorem State.leaveOrder_guardGap (s : State) (tag : Nat) :
    (s.leaveOrder tag).guardGap = s.guardGap := rfl
@[simp] theorem State.leaveOrder_channels (s : State) (tag : Nat) :
    (s.leaveOrder tag).channels = s.channels := rfl
@[simp] theorem State.leaveOrder_gasLimit (s : State) (tag : Nat) :
    (s.leaveOrder tag).gasLimit = s.gasLimit := rfl
@[simp] theorem State.leaveOrder_mode (s : State) (tag : Nat) :
    (s.leaveOrder tag).mode = s.mode := rfl
@[simp] theorem State.leaveOrder_holdAt (s : State) (tag : Nat) :
    (s.leaveOrder tag).holdAt = s.holdAt := rfl
@[simp] theorem State.leaveOrder_grace (s : State) (tag : Nat) :
    (s.leaveOrder tag).grace = s.grace := rfl
@[simp] theorem State.leaveOrder_lines (s : State) (tag : Nat) :
    (s.leaveOrder tag).lines = s.lines := rfl
@[simp] theorem State.leaveOrder_port0 (s : State) (tag : Nat) :
    (s.leaveOrder tag).port0 = s.port0 := rfl
@[simp] theorem State.leaveOrder_port1 (s : State) (tag : Nat) :
    (s.leaveOrder tag).port1 = s.port1 := rfl
@[simp] theorem State.leaveOrder_port2 (s : State) (tag : Nat) :
    (s.leaveOrder tag).port2 = s.port2 := rfl
@[simp] theorem State.leaveOrder_alarmDelay (s : State) (tag : Nat) :
    (s.leaveOrder tag).alarmDelay = s.alarmDelay := rfl
@[simp] theorem State.leaveOrder_alarm (s : State) (tag : Nat) :
    (s.leaveOrder tag).alarm = s.alarm := rfl
@[simp] theorem State.leaveOrder_pending (s : State) (tag : Nat) :
    (s.leaveOrder tag).pending = s.pending := rfl

/-! ### rejoin -/

@[simp] theorem State.rejoin_lineTime (s : State) (h : Hanger) :
    (s.rejoin h).lineTime = s.lineTime := rfl
@[simp] theorem State.rejoin_stations (s : State) (h : Hanger) :
    (s.rejoin h).stations = s.stations := rfl
@[simp] theorem State.rejoin_recipes (s : State) (h : Hanger) :
    (s.rejoin h).recipes = s.recipes := rfl
@[simp] theorem State.rejoin_draft (s : State) (h : Hanger) :
    (s.rejoin h).draft = s.draft := rfl
@[simp] theorem State.rejoin_hangers (s : State) (h : Hanger) :
    (s.rejoin h).hangers = s.hangers := rfl
@[simp] theorem State.rejoin_startOrder (s : State) (h : Hanger) :
    (s.rejoin h).startOrder = rejoinOrder s h s.startOrder := rfl
@[simp] theorem State.rejoin_admissions (s : State) (h : Hanger) :
    (s.rejoin h).admissions = s.admissions := rfl
@[simp] theorem State.rejoin_baths (s : State) (h : Hanger) :
    (s.rejoin h).baths = s.baths := rfl
@[simp] theorem State.rejoin_moves (s : State) (h : Hanger) :
    (s.rejoin h).moves = s.moves := rfl
@[simp] theorem State.rejoin_moveCounter (s : State) (h : Hanger) :
    (s.rejoin h).moveCounter = s.moveCounter := rfl
@[simp] theorem State.rejoin_gantryA (s : State) (h : Hanger) :
    (s.rejoin h).gantryA = s.gantryA := rfl
@[simp] theorem State.rejoin_gantryB (s : State) (h : Hanger) :
    (s.rejoin h).gantryB = s.gantryB := rfl
@[simp] theorem State.rejoin_guardGap (s : State) (h : Hanger) :
    (s.rejoin h).guardGap = s.guardGap := rfl
@[simp] theorem State.rejoin_channels (s : State) (h : Hanger) :
    (s.rejoin h).channels = s.channels := rfl
@[simp] theorem State.rejoin_gasLimit (s : State) (h : Hanger) :
    (s.rejoin h).gasLimit = s.gasLimit := rfl
@[simp] theorem State.rejoin_mode (s : State) (h : Hanger) :
    (s.rejoin h).mode = s.mode := rfl
@[simp] theorem State.rejoin_holdAt (s : State) (h : Hanger) :
    (s.rejoin h).holdAt = s.holdAt := rfl
@[simp] theorem State.rejoin_grace (s : State) (h : Hanger) :
    (s.rejoin h).grace = s.grace := rfl
@[simp] theorem State.rejoin_lines (s : State) (h : Hanger) :
    (s.rejoin h).lines = s.lines := rfl
@[simp] theorem State.rejoin_port0 (s : State) (h : Hanger) :
    (s.rejoin h).port0 = s.port0 := rfl
@[simp] theorem State.rejoin_port1 (s : State) (h : Hanger) :
    (s.rejoin h).port1 = s.port1 := rfl
@[simp] theorem State.rejoin_port2 (s : State) (h : Hanger) :
    (s.rejoin h).port2 = s.port2 := rfl
@[simp] theorem State.rejoin_alarmDelay (s : State) (h : Hanger) :
    (s.rejoin h).alarmDelay = s.alarmDelay := rfl
@[simp] theorem State.rejoin_alarm (s : State) (h : Hanger) :
    (s.rejoin h).alarm = s.alarm := rfl
@[simp] theorem State.rejoin_pending (s : State) (h : Hanger) :
    (s.rejoin h).pending = s.pending := rfl

/-! ### dropHanger -/

@[simp] theorem State.dropHanger_lineTime (s : State) (tag : Nat) :
    (s.dropHanger tag).lineTime = s.lineTime := rfl
@[simp] theorem State.dropHanger_stations (s : State) (tag : Nat) :
    (s.dropHanger tag).stations = s.stations := rfl
@[simp] theorem State.dropHanger_recipes (s : State) (tag : Nat) :
    (s.dropHanger tag).recipes = s.recipes := rfl
@[simp] theorem State.dropHanger_draft (s : State) (tag : Nat) :
    (s.dropHanger tag).draft = s.draft := rfl
@[simp] theorem State.dropHanger_hangers (s : State) (tag : Nat) :
    (s.dropHanger tag).hangers = s.hangers.filter (fun h => h.tag != tag) := rfl
@[simp] theorem State.dropHanger_startOrder (s : State) (tag : Nat) :
    (s.dropHanger tag).startOrder = s.startOrder := rfl
@[simp] theorem State.dropHanger_admissions (s : State) (tag : Nat) :
    (s.dropHanger tag).admissions = s.admissions := rfl
@[simp] theorem State.dropHanger_baths (s : State) (tag : Nat) :
    (s.dropHanger tag).baths = s.baths := rfl
@[simp] theorem State.dropHanger_moves (s : State) (tag : Nat) :
    (s.dropHanger tag).moves = s.moves := rfl
@[simp] theorem State.dropHanger_moveCounter (s : State) (tag : Nat) :
    (s.dropHanger tag).moveCounter = s.moveCounter := rfl
@[simp] theorem State.dropHanger_gantryA (s : State) (tag : Nat) :
    (s.dropHanger tag).gantryA = s.gantryA := rfl
@[simp] theorem State.dropHanger_gantryB (s : State) (tag : Nat) :
    (s.dropHanger tag).gantryB = s.gantryB := rfl
@[simp] theorem State.dropHanger_guardGap (s : State) (tag : Nat) :
    (s.dropHanger tag).guardGap = s.guardGap := rfl
@[simp] theorem State.dropHanger_channels (s : State) (tag : Nat) :
    (s.dropHanger tag).channels = s.channels := rfl
@[simp] theorem State.dropHanger_gasLimit (s : State) (tag : Nat) :
    (s.dropHanger tag).gasLimit = s.gasLimit := rfl
@[simp] theorem State.dropHanger_mode (s : State) (tag : Nat) :
    (s.dropHanger tag).mode = s.mode := rfl
@[simp] theorem State.dropHanger_holdAt (s : State) (tag : Nat) :
    (s.dropHanger tag).holdAt = s.holdAt := rfl
@[simp] theorem State.dropHanger_grace (s : State) (tag : Nat) :
    (s.dropHanger tag).grace = s.grace := rfl
@[simp] theorem State.dropHanger_lines (s : State) (tag : Nat) :
    (s.dropHanger tag).lines = s.lines := rfl
@[simp] theorem State.dropHanger_port0 (s : State) (tag : Nat) :
    (s.dropHanger tag).port0 = s.port0 := rfl
@[simp] theorem State.dropHanger_port1 (s : State) (tag : Nat) :
    (s.dropHanger tag).port1 = s.port1 := rfl
@[simp] theorem State.dropHanger_port2 (s : State) (tag : Nat) :
    (s.dropHanger tag).port2 = s.port2 := rfl
@[simp] theorem State.dropHanger_alarmDelay (s : State) (tag : Nat) :
    (s.dropHanger tag).alarmDelay = s.alarmDelay := rfl
@[simp] theorem State.dropHanger_alarm (s : State) (tag : Nat) :
    (s.dropHanger tag).alarm = s.alarm := rfl
@[simp] theorem State.dropHanger_pending (s : State) (tag : Nat) :
    (s.dropHanger tag).pending = s.pending := rfl

/-! ### markStale -/

@[simp] theorem State.markStale_lineTime (s : State) (st : Nat) :
    (s.markStale st).lineTime = s.lineTime := rfl
@[simp] theorem State.markStale_stations (s : State) (st : Nat) :
    (s.markStale st).stations = s.stations := rfl
@[simp] theorem State.markStale_recipes (s : State) (st : Nat) :
    (s.markStale st).recipes = s.recipes := rfl
@[simp] theorem State.markStale_draft (s : State) (st : Nat) :
    (s.markStale st).draft = s.draft := rfl
@[simp] theorem State.markStale_startOrder (s : State) (st : Nat) :
    (s.markStale st).startOrder = s.startOrder := rfl
@[simp] theorem State.markStale_admissions (s : State) (st : Nat) :
    (s.markStale st).admissions = s.admissions := rfl
@[simp] theorem State.markStale_baths (s : State) (st : Nat) :
    (s.markStale st).baths = s.baths := rfl
@[simp] theorem State.markStale_moves (s : State) (st : Nat) :
    (s.markStale st).moves = s.moves := rfl
@[simp] theorem State.markStale_moveCounter (s : State) (st : Nat) :
    (s.markStale st).moveCounter = s.moveCounter := rfl
@[simp] theorem State.markStale_gantryA (s : State) (st : Nat) :
    (s.markStale st).gantryA = s.gantryA := rfl
@[simp] theorem State.markStale_gantryB (s : State) (st : Nat) :
    (s.markStale st).gantryB = s.gantryB := rfl
@[simp] theorem State.markStale_guardGap (s : State) (st : Nat) :
    (s.markStale st).guardGap = s.guardGap := rfl
@[simp] theorem State.markStale_channels (s : State) (st : Nat) :
    (s.markStale st).channels = s.channels := rfl
@[simp] theorem State.markStale_gasLimit (s : State) (st : Nat) :
    (s.markStale st).gasLimit = s.gasLimit := rfl
@[simp] theorem State.markStale_mode (s : State) (st : Nat) :
    (s.markStale st).mode = s.mode := rfl
@[simp] theorem State.markStale_holdAt (s : State) (st : Nat) :
    (s.markStale st).holdAt = s.holdAt := rfl
@[simp] theorem State.markStale_grace (s : State) (st : Nat) :
    (s.markStale st).grace = s.grace := rfl
@[simp] theorem State.markStale_lines (s : State) (st : Nat) :
    (s.markStale st).lines = s.lines := rfl
@[simp] theorem State.markStale_port0 (s : State) (st : Nat) :
    (s.markStale st).port0 = s.port0 := rfl
@[simp] theorem State.markStale_port1 (s : State) (st : Nat) :
    (s.markStale st).port1 = s.port1 := rfl
@[simp] theorem State.markStale_port2 (s : State) (st : Nat) :
    (s.markStale st).port2 = s.port2 := rfl
@[simp] theorem State.markStale_alarmDelay (s : State) (st : Nat) :
    (s.markStale st).alarmDelay = s.alarmDelay := rfl
@[simp] theorem State.markStale_alarm (s : State) (st : Nat) :
    (s.markStale st).alarm = s.alarm := rfl
@[simp] theorem State.markStale_pending (s : State) (st : Nat) :
    (s.markStale st).pending = s.pending := rfl

/-! ### tickCounts -/

@[simp] theorem State.tickCounts_lineTime (s : State) :
    (s.tickCounts).lineTime = s.lineTime := rfl
@[simp] theorem State.tickCounts_stations (s : State) :
    (s.tickCounts).stations = s.stations := rfl
@[simp] theorem State.tickCounts_recipes (s : State) :
    (s.tickCounts).recipes = s.recipes := rfl
@[simp] theorem State.tickCounts_draft (s : State) :
    (s.tickCounts).draft = s.draft := rfl
@[simp] theorem State.tickCounts_startOrder (s : State) :
    (s.tickCounts).startOrder = s.startOrder := rfl
@[simp] theorem State.tickCounts_admissions (s : State) :
    (s.tickCounts).admissions = s.admissions := rfl
@[simp] theorem State.tickCounts_baths (s : State) :
    (s.tickCounts).baths = s.baths := rfl
@[simp] theorem State.tickCounts_moves (s : State) :
    (s.tickCounts).moves = s.moves := rfl
@[simp] theorem State.tickCounts_moveCounter (s : State) :
    (s.tickCounts).moveCounter = s.moveCounter := rfl
@[simp] theorem State.tickCounts_gantryA (s : State) :
    (s.tickCounts).gantryA = s.gantryA := rfl
@[simp] theorem State.tickCounts_gantryB (s : State) :
    (s.tickCounts).gantryB = s.gantryB := rfl
@[simp] theorem State.tickCounts_guardGap (s : State) :
    (s.tickCounts).guardGap = s.guardGap := rfl
@[simp] theorem State.tickCounts_channels (s : State) :
    (s.tickCounts).channels = s.channels := rfl
@[simp] theorem State.tickCounts_gasLimit (s : State) :
    (s.tickCounts).gasLimit = s.gasLimit := rfl
@[simp] theorem State.tickCounts_mode (s : State) :
    (s.tickCounts).mode = s.mode := rfl
@[simp] theorem State.tickCounts_holdAt (s : State) :
    (s.tickCounts).holdAt = s.holdAt := rfl
@[simp] theorem State.tickCounts_grace (s : State) :
    (s.tickCounts).grace = s.grace := rfl
@[simp] theorem State.tickCounts_lines (s : State) :
    (s.tickCounts).lines = s.lines := rfl
@[simp] theorem State.tickCounts_port0 (s : State) :
    (s.tickCounts).port0 = s.port0 := rfl
@[simp] theorem State.tickCounts_port1 (s : State) :
    (s.tickCounts).port1 = s.port1 := rfl
@[simp] theorem State.tickCounts_port2 (s : State) :
    (s.tickCounts).port2 = s.port2 := rfl
@[simp] theorem State.tickCounts_alarmDelay (s : State) :
    (s.tickCounts).alarmDelay = s.alarmDelay := rfl
@[simp] theorem State.tickCounts_alarm (s : State) :
    (s.tickCounts).alarm = s.alarm := rfl
@[simp] theorem State.tickCounts_pending (s : State) :
    (s.tickCounts).pending = s.pending := rfl

/-! ### revalidateAll -/

@[simp] theorem State.revalidateAll_lineTime (s : State) :
    (s.revalidateAll).lineTime = s.lineTime := rfl
@[simp] theorem State.revalidateAll_stations (s : State) :
    (s.revalidateAll).stations = s.stations := rfl
@[simp] theorem State.revalidateAll_recipes (s : State) :
    (s.revalidateAll).recipes = s.recipes.map s.revalidated := rfl
@[simp] theorem State.revalidateAll_draft (s : State) :
    (s.revalidateAll).draft = s.draft := rfl
@[simp] theorem State.revalidateAll_hangers (s : State) :
    (s.revalidateAll).hangers = s.hangers := rfl
@[simp] theorem State.revalidateAll_startOrder (s : State) :
    (s.revalidateAll).startOrder = s.startOrder := rfl
@[simp] theorem State.revalidateAll_admissions (s : State) :
    (s.revalidateAll).admissions = s.admissions := rfl
@[simp] theorem State.revalidateAll_baths (s : State) :
    (s.revalidateAll).baths = s.baths := rfl
@[simp] theorem State.revalidateAll_moves (s : State) :
    (s.revalidateAll).moves = s.moves := rfl
@[simp] theorem State.revalidateAll_moveCounter (s : State) :
    (s.revalidateAll).moveCounter = s.moveCounter := rfl
@[simp] theorem State.revalidateAll_gantryA (s : State) :
    (s.revalidateAll).gantryA = s.gantryA := rfl
@[simp] theorem State.revalidateAll_gantryB (s : State) :
    (s.revalidateAll).gantryB = s.gantryB := rfl
@[simp] theorem State.revalidateAll_guardGap (s : State) :
    (s.revalidateAll).guardGap = s.guardGap := rfl
@[simp] theorem State.revalidateAll_channels (s : State) :
    (s.revalidateAll).channels = s.channels := rfl
@[simp] theorem State.revalidateAll_gasLimit (s : State) :
    (s.revalidateAll).gasLimit = s.gasLimit := rfl
@[simp] theorem State.revalidateAll_mode (s : State) :
    (s.revalidateAll).mode = s.mode := rfl
@[simp] theorem State.revalidateAll_holdAt (s : State) :
    (s.revalidateAll).holdAt = s.holdAt := rfl
@[simp] theorem State.revalidateAll_grace (s : State) :
    (s.revalidateAll).grace = s.grace := rfl
@[simp] theorem State.revalidateAll_lines (s : State) :
    (s.revalidateAll).lines = s.lines := rfl
@[simp] theorem State.revalidateAll_port0 (s : State) :
    (s.revalidateAll).port0 = s.port0 := rfl
@[simp] theorem State.revalidateAll_port1 (s : State) :
    (s.revalidateAll).port1 = s.port1 := rfl
@[simp] theorem State.revalidateAll_port2 (s : State) :
    (s.revalidateAll).port2 = s.port2 := rfl
@[simp] theorem State.revalidateAll_alarmDelay (s : State) :
    (s.revalidateAll).alarmDelay = s.alarmDelay := rfl
@[simp] theorem State.revalidateAll_alarm (s : State) :
    (s.revalidateAll).alarm = s.alarm := rfl
@[simp] theorem State.revalidateAll_pending (s : State) :
    (s.revalidateAll).pending = s.pending := rfl

/-! ### The fields modGantry and modPort change -/

@[simp] theorem State.modGantry_a (s : State) (f : Gantry → Gantry) :
    s.modGantry .a f = { s with gantryA := f s.gantryA } := rfl
@[simp] theorem State.modGantry_b (s : State) (f : Gantry → Gantry) :
    s.modGantry .b f = { s with gantryB := f s.gantryB } := rfl
@[simp] theorem State.modPort_p0 (s : State) (f : Port → Port) :
    s.modPort .p0 f = { s with port0 := f s.port0 } := rfl
@[simp] theorem State.modPort_p1 (s : State) (f : Port → Port) :
    s.modPort .p1 f = { s with port1 := f s.port1 } := rfl
@[simp] theorem State.modPort_p2 (s : State) (f : Port → Port) :
    s.modPort .p2 f = { s with port2 := f s.port2 } := rfl

end Sys2Proof.Machine
end

