-- ==== Sys2Proof/Laws/Frames.lean ====
section
/-! SUPPORT. What the notices and the burst channels leave alone: a notice touches the ports and ALARM only, a burst, a hold or a
change of occupancy the channels only. -/

namespace Sys2Proof.Machine

/-! ### post -/

@[simp] theorem State.post_lineTime (s : State) (p : PortId) (n : Notice) :
    (s.post p n).lineTime = s.lineTime := by unfold State.post; dsimp only; split <;> simp
@[simp] theorem State.post_stations (s : State) (p : PortId) (n : Notice) :
    (s.post p n).stations = s.stations := by unfold State.post; dsimp only; split <;> simp
@[simp] theorem State.post_recipes (s : State) (p : PortId) (n : Notice) :
    (s.post p n).recipes = s.recipes := by unfold State.post; dsimp only; split <;> simp
@[simp] theorem State.post_draft (s : State) (p : PortId) (n : Notice) :
    (s.post p n).draft = s.draft := by unfold State.post; dsimp only; split <;> simp
@[simp] theorem State.post_hangers (s : State) (p : PortId) (n : Notice) :
    (s.post p n).hangers = s.hangers := by unfold State.post; dsimp only; split <;> simp
@[simp] theorem State.post_startOrder (s : State) (p : PortId) (n : Notice) :
    (s.post p n).startOrder = s.startOrder := by unfold State.post; dsimp only; split <;> simp
@[simp] theorem State.post_admissions (s : State) (p : PortId) (n : Notice) :
    (s.post p n).admissions = s.admissions := by unfold State.post; dsimp only; split <;> simp
@[simp] theorem State.post_baths (s : State) (p : PortId) (n : Notice) :
    (s.post p n).baths = s.baths := by unfold State.post; dsimp only; split <;> simp
@[simp] theorem State.post_moves (s : State) (p : PortId) (n : Notice) :
    (s.post p n).moves = s.moves := by unfold State.post; dsimp only; split <;> simp
@[simp] theorem State.post_moveCounter (s : State) (p : PortId) (n : Notice) :
    (s.post p n).moveCounter = s.moveCounter := by unfold State.post; dsimp only; split <;> simp
@[simp] theorem State.post_gantryA (s : State) (p : PortId) (n : Notice) :
    (s.post p n).gantryA = s.gantryA := by unfold State.post; dsimp only; split <;> simp
@[simp] theorem State.post_gantryB (s : State) (p : PortId) (n : Notice) :
    (s.post p n).gantryB = s.gantryB := by unfold State.post; dsimp only; split <;> simp
@[simp] theorem State.post_guardGap (s : State) (p : PortId) (n : Notice) :
    (s.post p n).guardGap = s.guardGap := by unfold State.post; dsimp only; split <;> simp
@[simp] theorem State.post_channels (s : State) (p : PortId) (n : Notice) :
    (s.post p n).channels = s.channels := by unfold State.post; dsimp only; split <;> simp
@[simp] theorem State.post_gasLimit (s : State) (p : PortId) (n : Notice) :
    (s.post p n).gasLimit = s.gasLimit := by unfold State.post; dsimp only; split <;> simp
@[simp] theorem State.post_mode (s : State) (p : PortId) (n : Notice) :
    (s.post p n).mode = s.mode := by unfold State.post; dsimp only; split <;> simp
@[simp] theorem State.post_holdAt (s : State) (p : PortId) (n : Notice) :
    (s.post p n).holdAt = s.holdAt := by unfold State.post; dsimp only; split <;> simp
@[simp] theorem State.post_grace (s : State) (p : PortId) (n : Notice) :
    (s.post p n).grace = s.grace := by unfold State.post; dsimp only; split <;> simp
@[simp] theorem State.post_lines (s : State) (p : PortId) (n : Notice) :
    (s.post p n).lines = s.lines := by unfold State.post; dsimp only; split <;> simp
@[simp] theorem State.post_alarmDelay (s : State) (p : PortId) (n : Notice) :
    (s.post p n).alarmDelay = s.alarmDelay := by unfold State.post; dsimp only; split <;> simp
@[simp] theorem State.post_pending (s : State) (p : PortId) (n : Notice) :
    (s.post p n).pending = s.pending := by unfold State.post; dsimp only; split <;> simp

/-! ### notify -/

@[simp] theorem State.notify_lineTime (s : State) (k : NoticeKind) (tag station move : Option Nat) (a b : Nat) :
    (s.notify k tag station move a b).lineTime = s.lineTime := by simp [State.notify]
@[simp] theorem State.notify_stations (s : State) (k : NoticeKind) (tag station move : Option Nat) (a b : Nat) :
    (s.notify k tag station move a b).stations = s.stations := by simp [State.notify]
@[simp] theorem State.notify_recipes (s : State) (k : NoticeKind) (tag station move : Option Nat) (a b : Nat) :
    (s.notify k tag station move a b).recipes = s.recipes := by simp [State.notify]
@[simp] theorem State.notify_draft (s : State) (k : NoticeKind) (tag station move : Option Nat) (a b : Nat) :
    (s.notify k tag station move a b).draft = s.draft := by simp [State.notify]
@[simp] theorem State.notify_hangers (s : State) (k : NoticeKind) (tag station move : Option Nat) (a b : Nat) :
    (s.notify k tag station move a b).hangers = s.hangers := by simp [State.notify]
@[simp] theorem State.notify_startOrder (s : State) (k : NoticeKind) (tag station move : Option Nat) (a b : Nat) :
    (s.notify k tag station move a b).startOrder = s.startOrder := by simp [State.notify]
@[simp] theorem State.notify_admissions (s : State) (k : NoticeKind) (tag station move : Option Nat) (a b : Nat) :
    (s.notify k tag station move a b).admissions = s.admissions := by simp [State.notify]
@[simp] theorem State.notify_baths (s : State) (k : NoticeKind) (tag station move : Option Nat) (a b : Nat) :
    (s.notify k tag station move a b).baths = s.baths := by simp [State.notify]
@[simp] theorem State.notify_moves (s : State) (k : NoticeKind) (tag station move : Option Nat) (a b : Nat) :
    (s.notify k tag station move a b).moves = s.moves := by simp [State.notify]
@[simp] theorem State.notify_moveCounter (s : State) (k : NoticeKind) (tag station move : Option Nat) (a b : Nat) :
    (s.notify k tag station move a b).moveCounter = s.moveCounter := by simp [State.notify]
@[simp] theorem State.notify_gantryA (s : State) (k : NoticeKind) (tag station move : Option Nat) (a b : Nat) :
    (s.notify k tag station move a b).gantryA = s.gantryA := by simp [State.notify]
@[simp] theorem State.notify_gantryB (s : State) (k : NoticeKind) (tag station move : Option Nat) (a b : Nat) :
    (s.notify k tag station move a b).gantryB = s.gantryB := by simp [State.notify]
@[simp] theorem State.notify_guardGap (s : State) (k : NoticeKind) (tag station move : Option Nat) (a b : Nat) :
    (s.notify k tag station move a b).guardGap = s.guardGap := by simp [State.notify]
@[simp] theorem State.notify_channels (s : State) (k : NoticeKind) (tag station move : Option Nat) (a b : Nat) :
    (s.notify k tag station move a b).channels = s.channels := by simp [State.notify]
@[simp] theorem State.notify_gasLimit (s : State) (k : NoticeKind) (tag station move : Option Nat) (a b : Nat) :
    (s.notify k tag station move a b).gasLimit = s.gasLimit := by simp [State.notify]
@[simp] theorem State.notify_mode (s : State) (k : NoticeKind) (tag station move : Option Nat) (a b : Nat) :
    (s.notify k tag station move a b).mode = s.mode := by simp [State.notify]
@[simp] theorem State.notify_holdAt (s : State) (k : NoticeKind) (tag station move : Option Nat) (a b : Nat) :
    (s.notify k tag station move a b).holdAt = s.holdAt := by simp [State.notify]
@[simp] theorem State.notify_grace (s : State) (k : NoticeKind) (tag station move : Option Nat) (a b : Nat) :
    (s.notify k tag station move a b).grace = s.grace := by simp [State.notify]
@[simp] theorem State.notify_lines (s : State) (k : NoticeKind) (tag station move : Option Nat) (a b : Nat) :
    (s.notify k tag station move a b).lines = s.lines := by simp [State.notify]
@[simp] theorem State.notify_alarmDelay (s : State) (k : NoticeKind) (tag station move : Option Nat) (a b : Nat) :
    (s.notify k tag station move a b).alarmDelay = s.alarmDelay := by simp [State.notify]
@[simp] theorem State.notify_pending (s : State) (k : NoticeKind) (tag station move : Option Nat) (a b : Nat) :
    (s.notify k tag station move a b).pending = s.pending := by simp [State.notify]

/-! ### notifyGantry -/

@[simp] theorem State.notifyGantry_lineTime (s : State) (g : GantryId) :
    (s.notifyGantry g).lineTime = s.lineTime := by simp [State.notifyGantry]
@[simp] theorem State.notifyGantry_stations (s : State) (g : GantryId) :
    (s.notifyGantry g).stations = s.stations := by simp [State.notifyGantry]
@[simp] theorem State.notifyGantry_recipes (s : State) (g : GantryId) :
    (s.notifyGantry g).recipes = s.recipes := by simp [State.notifyGantry]
@[simp] theorem State.notifyGantry_draft (s : State) (g : GantryId) :
    (s.notifyGantry g).draft = s.draft := by simp [State.notifyGantry]
@[simp] theorem State.notifyGantry_hangers (s : State) (g : GantryId) :
    (s.notifyGantry g).hangers = s.hangers := by simp [State.notifyGantry]
@[simp] theorem State.notifyGantry_startOrder (s : State) (g : GantryId) :
    (s.notifyGantry g).startOrder = s.startOrder := by simp [State.notifyGantry]
@[simp] theorem State.notifyGantry_admissions (s : State) (g : GantryId) :
    (s.notifyGantry g).admissions = s.admissions := by simp [State.notifyGantry]
@[simp] theorem State.notifyGantry_baths (s : State) (g : GantryId) :
    (s.notifyGantry g).baths = s.baths := by simp [State.notifyGantry]
@[simp] theorem State.notifyGantry_moves (s : State) (g : GantryId) :
    (s.notifyGantry g).moves = s.moves := by simp [State.notifyGantry]
@[simp] theorem State.notifyGantry_moveCounter (s : State) (g : GantryId) :
    (s.notifyGantry g).moveCounter = s.moveCounter := by simp [State.notifyGantry]
@[simp] theorem State.notifyGantry_gantryA (s : State) (g : GantryId) :
    (s.notifyGantry g).gantryA = s.gantryA := by simp [State.notifyGantry]
@[simp] theorem State.notifyGantry_gantryB (s : State) (g : GantryId) :
    (s.notifyGantry g).gantryB = s.gantryB := by simp [State.notifyGantry]
@[simp] theorem State.notifyGantry_guardGap (s : State) (g : GantryId) :
    (s.notifyGantry g).guardGap = s.guardGap := by simp [State.notifyGantry]
@[simp] theorem State.notifyGantry_channels (s : State) (g : GantryId) :
    (s.notifyGantry g).channels = s.channels := by simp [State.notifyGantry]
@[simp] theorem State.notifyGantry_gasLimit (s : State) (g : GantryId) :
    (s.notifyGantry g).gasLimit = s.gasLimit := by simp [State.notifyGantry]
@[simp] theorem State.notifyGantry_mode (s : State) (g : GantryId) :
    (s.notifyGantry g).mode = s.mode := by simp [State.notifyGantry]
@[simp] theorem State.notifyGantry_holdAt (s : State) (g : GantryId) :
    (s.notifyGantry g).holdAt = s.holdAt := by simp [State.notifyGantry]
@[simp] theorem State.notifyGantry_grace (s : State) (g : GantryId) :
    (s.notifyGantry g).grace = s.grace := by simp [State.notifyGantry]
@[simp] theorem State.notifyGantry_lines (s : State) (g : GantryId) :
    (s.notifyGantry g).lines = s.lines := by simp [State.notifyGantry]
@[simp] theorem State.notifyGantry_alarmDelay (s : State) (g : GantryId) :
    (s.notifyGantry g).alarmDelay = s.alarmDelay := by simp [State.notifyGantry]
@[simp] theorem State.notifyGantry_pending (s : State) (g : GantryId) :
    (s.notifyGantry g).pending = s.pending := by simp [State.notifyGantry]

/-! ### notifyPause -/

@[simp] theorem State.notifyPause_lineTime (s : State) (g : GantryId) (code : Nat) :
    (s.notifyPause g code).lineTime = s.lineTime := by simp [State.notifyPause]
@[simp] theorem State.notifyPause_stations (s : State) (g : GantryId) (code : Nat) :
    (s.notifyPause g code).stations = s.stations := by simp [State.notifyPause]
@[simp] theorem State.notifyPause_recipes (s : State) (g : GantryId) (code : Nat) :
    (s.notifyPause g code).recipes = s.recipes := by simp [State.notifyPause]
@[simp] theorem State.notifyPause_draft (s : State) (g : GantryId) (code : Nat) :
    (s.notifyPause g code).draft = s.draft := by simp [State.notifyPause]
@[simp] theorem State.notifyPause_hangers (s : State) (g : GantryId) (code : Nat) :
    (s.notifyPause g code).hangers = s.hangers := by simp [State.notifyPause]
@[simp] theorem State.notifyPause_startOrder (s : State) (g : GantryId) (code : Nat) :
    (s.notifyPause g code).startOrder = s.startOrder := by simp [State.notifyPause]
@[simp] theorem State.notifyPause_admissions (s : State) (g : GantryId) (code : Nat) :
    (s.notifyPause g code).admissions = s.admissions := by simp [State.notifyPause]
@[simp] theorem State.notifyPause_baths (s : State) (g : GantryId) (code : Nat) :
    (s.notifyPause g code).baths = s.baths := by simp [State.notifyPause]
@[simp] theorem State.notifyPause_moves (s : State) (g : GantryId) (code : Nat) :
    (s.notifyPause g code).moves = s.moves := by simp [State.notifyPause]
@[simp] theorem State.notifyPause_moveCounter (s : State) (g : GantryId) (code : Nat) :
    (s.notifyPause g code).moveCounter = s.moveCounter := by simp [State.notifyPause]
@[simp] theorem State.notifyPause_gantryA (s : State) (g : GantryId) (code : Nat) :
    (s.notifyPause g code).gantryA = s.gantryA := by simp [State.notifyPause]
@[simp] theorem State.notifyPause_gantryB (s : State) (g : GantryId) (code : Nat) :
    (s.notifyPause g code).gantryB = s.gantryB := by simp [State.notifyPause]
@[simp] theorem State.notifyPause_guardGap (s : State) (g : GantryId) (code : Nat) :
    (s.notifyPause g code).guardGap = s.guardGap := by simp [State.notifyPause]
@[simp] theorem State.notifyPause_channels (s : State) (g : GantryId) (code : Nat) :
    (s.notifyPause g code).channels = s.channels := by simp [State.notifyPause]
@[simp] theorem State.notifyPause_gasLimit (s : State) (g : GantryId) (code : Nat) :
    (s.notifyPause g code).gasLimit = s.gasLimit := by simp [State.notifyPause]
@[simp] theorem State.notifyPause_mode (s : State) (g : GantryId) (code : Nat) :
    (s.notifyPause g code).mode = s.mode := by simp [State.notifyPause]
@[simp] theorem State.notifyPause_holdAt (s : State) (g : GantryId) (code : Nat) :
    (s.notifyPause g code).holdAt = s.holdAt := by simp [State.notifyPause]
@[simp] theorem State.notifyPause_grace (s : State) (g : GantryId) (code : Nat) :
    (s.notifyPause g code).grace = s.grace := by simp [State.notifyPause]
@[simp] theorem State.notifyPause_lines (s : State) (g : GantryId) (code : Nat) :
    (s.notifyPause g code).lines = s.lines := by simp [State.notifyPause]
@[simp] theorem State.notifyPause_alarmDelay (s : State) (g : GantryId) (code : Nat) :
    (s.notifyPause g code).alarmDelay = s.alarmDelay := by simp [State.notifyPause]
@[simp] theorem State.notifyPause_pending (s : State) (g : GantryId) (code : Nat) :
    (s.notifyPause g code).pending = s.pending := by simp [State.notifyPause]

/-! ### postWork -/

@[simp] theorem State.postWork_lineTime (s : State) (g : GantryId) (m : Move) :
    (s.postWork g m).lineTime = s.lineTime := by unfold State.postWork; split <;> simp
@[simp] theorem State.postWork_stations (s : State) (g : GantryId) (m : Move) :
    (s.postWork g m).stations = s.stations := by unfold State.postWork; split <;> simp
@[simp] theorem State.postWork_recipes (s : State) (g : GantryId) (m : Move) :
    (s.postWork g m).recipes = s.recipes := by unfold State.postWork; split <;> simp
@[simp] theorem State.postWork_draft (s : State) (g : GantryId) (m : Move) :
    (s.postWork g m).draft = s.draft := by unfold State.postWork; split <;> simp
@[simp] theorem State.postWork_hangers (s : State) (g : GantryId) (m : Move) :
    (s.postWork g m).hangers = s.hangers := by unfold State.postWork; split <;> simp
@[simp] theorem State.postWork_startOrder (s : State) (g : GantryId) (m : Move) :
    (s.postWork g m).startOrder = s.startOrder := by unfold State.postWork; split <;> simp
@[simp] theorem State.postWork_admissions (s : State) (g : GantryId) (m : Move) :
    (s.postWork g m).admissions = s.admissions := by unfold State.postWork; split <;> simp
@[simp] theorem State.postWork_baths (s : State) (g : GantryId) (m : Move) :
    (s.postWork g m).baths = s.baths := by unfold State.postWork; split <;> simp
@[simp] theorem State.postWork_moves (s : State) (g : GantryId) (m : Move) :
    (s.postWork g m).moves = s.moves := by unfold State.postWork; split <;> simp
@[simp] theorem State.postWork_moveCounter (s : State) (g : GantryId) (m : Move) :
    (s.postWork g m).moveCounter = s.moveCounter := by unfold State.postWork; split <;> simp
@[simp] theorem State.postWork_gantryA (s : State) (g : GantryId) (m : Move) :
    (s.postWork g m).gantryA = s.gantryA := by unfold State.postWork; split <;> simp
@[simp] theorem State.postWork_gantryB (s : State) (g : GantryId) (m : Move) :
    (s.postWork g m).gantryB = s.gantryB := by unfold State.postWork; split <;> simp
@[simp] theorem State.postWork_guardGap (s : State) (g : GantryId) (m : Move) :
    (s.postWork g m).guardGap = s.guardGap := by unfold State.postWork; split <;> simp
@[simp] theorem State.postWork_channels (s : State) (g : GantryId) (m : Move) :
    (s.postWork g m).channels = s.channels := by unfold State.postWork; split <;> simp
@[simp] theorem State.postWork_gasLimit (s : State) (g : GantryId) (m : Move) :
    (s.postWork g m).gasLimit = s.gasLimit := by unfold State.postWork; split <;> simp
@[simp] theorem State.postWork_mode (s : State) (g : GantryId) (m : Move) :
    (s.postWork g m).mode = s.mode := by unfold State.postWork; split <;> simp
@[simp] theorem State.postWork_holdAt (s : State) (g : GantryId) (m : Move) :
    (s.postWork g m).holdAt = s.holdAt := by unfold State.postWork; split <;> simp
@[simp] theorem State.postWork_grace (s : State) (g : GantryId) (m : Move) :
    (s.postWork g m).grace = s.grace := by unfold State.postWork; split <;> simp
@[simp] theorem State.postWork_lines (s : State) (g : GantryId) (m : Move) :
    (s.postWork g m).lines = s.lines := by unfold State.postWork; split <;> simp
@[simp] theorem State.postWork_alarmDelay (s : State) (g : GantryId) (m : Move) :
    (s.postWork g m).alarmDelay = s.alarmDelay := by unfold State.postWork; split <;> simp
@[simp] theorem State.postWork_pending (s : State) (g : GantryId) (m : Move) :
    (s.postWork g m).pending = s.pending := by unfold State.postWork; split <;> simp

/-! ### offerWork -/

@[simp] theorem State.offerWork_lineTime (s : State) (g : GantryId) (m : Move) :
    (s.offerWork g m).lineTime = s.lineTime := by unfold State.offerWork; split <;> simp
@[simp] theorem State.offerWork_stations (s : State) (g : GantryId) (m : Move) :
    (s.offerWork g m).stations = s.stations := by unfold State.offerWork; split <;> simp
@[simp] theorem State.offerWork_recipes (s : State) (g : GantryId) (m : Move) :
    (s.offerWork g m).recipes = s.recipes := by unfold State.offerWork; split <;> simp
@[simp] theorem State.offerWork_draft (s : State) (g : GantryId) (m : Move) :
    (s.offerWork g m).draft = s.draft := by unfold State.offerWork; split <;> simp
@[simp] theorem State.offerWork_hangers (s : State) (g : GantryId) (m : Move) :
    (s.offerWork g m).hangers = s.hangers := by unfold State.offerWork; split <;> simp
@[simp] theorem State.offerWork_startOrder (s : State) (g : GantryId) (m : Move) :
    (s.offerWork g m).startOrder = s.startOrder := by unfold State.offerWork; split <;> simp
@[simp] theorem State.offerWork_admissions (s : State) (g : GantryId) (m : Move) :
    (s.offerWork g m).admissions = s.admissions := by unfold State.offerWork; split <;> simp
@[simp] theorem State.offerWork_baths (s : State) (g : GantryId) (m : Move) :
    (s.offerWork g m).baths = s.baths := by unfold State.offerWork; split <;> simp
@[simp] theorem State.offerWork_moves (s : State) (g : GantryId) (m : Move) :
    (s.offerWork g m).moves = s.moves := by unfold State.offerWork; split <;> simp
@[simp] theorem State.offerWork_moveCounter (s : State) (g : GantryId) (m : Move) :
    (s.offerWork g m).moveCounter = s.moveCounter := by unfold State.offerWork; split <;> simp
@[simp] theorem State.offerWork_gantryA (s : State) (g : GantryId) (m : Move) :
    (s.offerWork g m).gantryA = s.gantryA := by unfold State.offerWork; split <;> simp
@[simp] theorem State.offerWork_gantryB (s : State) (g : GantryId) (m : Move) :
    (s.offerWork g m).gantryB = s.gantryB := by unfold State.offerWork; split <;> simp
@[simp] theorem State.offerWork_guardGap (s : State) (g : GantryId) (m : Move) :
    (s.offerWork g m).guardGap = s.guardGap := by unfold State.offerWork; split <;> simp
@[simp] theorem State.offerWork_channels (s : State) (g : GantryId) (m : Move) :
    (s.offerWork g m).channels = s.channels := by unfold State.offerWork; split <;> simp
@[simp] theorem State.offerWork_gasLimit (s : State) (g : GantryId) (m : Move) :
    (s.offerWork g m).gasLimit = s.gasLimit := by unfold State.offerWork; split <;> simp
@[simp] theorem State.offerWork_mode (s : State) (g : GantryId) (m : Move) :
    (s.offerWork g m).mode = s.mode := by unfold State.offerWork; split <;> simp
@[simp] theorem State.offerWork_holdAt (s : State) (g : GantryId) (m : Move) :
    (s.offerWork g m).holdAt = s.holdAt := by unfold State.offerWork; split <;> simp
@[simp] theorem State.offerWork_grace (s : State) (g : GantryId) (m : Move) :
    (s.offerWork g m).grace = s.grace := by unfold State.offerWork; split <;> simp
@[simp] theorem State.offerWork_lines (s : State) (g : GantryId) (m : Move) :
    (s.offerWork g m).lines = s.lines := by unfold State.offerWork; split <;> simp
@[simp] theorem State.offerWork_alarmDelay (s : State) (g : GantryId) (m : Move) :
    (s.offerWork g m).alarmDelay = s.alarmDelay := by unfold State.offerWork; split <;> simp
@[simp] theorem State.offerWork_pending (s : State) (g : GantryId) (m : Move) :
    (s.offerWork g m).pending = s.pending := by unfold State.offerWork; split <;> simp

/-! ### announce -/

@[simp] theorem State.announce_lineTime (s : State) (m : Move) :
    (s.announce m).lineTime = s.lineTime := by simp [State.announce]
@[simp] theorem State.announce_stations (s : State) (m : Move) :
    (s.announce m).stations = s.stations := by simp [State.announce]
@[simp] theorem State.announce_recipes (s : State) (m : Move) :
    (s.announce m).recipes = s.recipes := by simp [State.announce]
@[simp] theorem State.announce_draft (s : State) (m : Move) :
    (s.announce m).draft = s.draft := by simp [State.announce]
@[simp] theorem State.announce_hangers (s : State) (m : Move) :
    (s.announce m).hangers = s.hangers := by simp [State.announce]
@[simp] theorem State.announce_startOrder (s : State) (m : Move) :
    (s.announce m).startOrder = s.startOrder := by simp [State.announce]
@[simp] theorem State.announce_admissions (s : State) (m : Move) :
    (s.announce m).admissions = s.admissions := by simp [State.announce]
@[simp] theorem State.announce_baths (s : State) (m : Move) :
    (s.announce m).baths = s.baths := by simp [State.announce]
@[simp] theorem State.announce_moves (s : State) (m : Move) :
    (s.announce m).moves = s.moves := by simp [State.announce]
@[simp] theorem State.announce_moveCounter (s : State) (m : Move) :
    (s.announce m).moveCounter = s.moveCounter := by simp [State.announce]
@[simp] theorem State.announce_gantryA (s : State) (m : Move) :
    (s.announce m).gantryA = s.gantryA := by simp [State.announce]
@[simp] theorem State.announce_gantryB (s : State) (m : Move) :
    (s.announce m).gantryB = s.gantryB := by simp [State.announce]
@[simp] theorem State.announce_guardGap (s : State) (m : Move) :
    (s.announce m).guardGap = s.guardGap := by simp [State.announce]
@[simp] theorem State.announce_channels (s : State) (m : Move) :
    (s.announce m).channels = s.channels := by simp [State.announce]
@[simp] theorem State.announce_gasLimit (s : State) (m : Move) :
    (s.announce m).gasLimit = s.gasLimit := by simp [State.announce]
@[simp] theorem State.announce_mode (s : State) (m : Move) :
    (s.announce m).mode = s.mode := by simp [State.announce]
@[simp] theorem State.announce_holdAt (s : State) (m : Move) :
    (s.announce m).holdAt = s.holdAt := by simp [State.announce]
@[simp] theorem State.announce_grace (s : State) (m : Move) :
    (s.announce m).grace = s.grace := by simp [State.announce]
@[simp] theorem State.announce_lines (s : State) (m : Move) :
    (s.announce m).lines = s.lines := by simp [State.announce]
@[simp] theorem State.announce_alarmDelay (s : State) (m : Move) :
    (s.announce m).alarmDelay = s.alarmDelay := by simp [State.announce]
@[simp] theorem State.announce_pending (s : State) (m : Move) :
    (s.announce m).pending = s.pending := by simp [State.announce]

/-! ### announceId -/

@[simp] theorem State.announceId_lineTime (s : State) (id : Nat) :
    (s.announceId id).lineTime = s.lineTime := by unfold State.announceId; split <;> simp
@[simp] theorem State.announceId_stations (s : State) (id : Nat) :
    (s.announceId id).stations = s.stations := by unfold State.announceId; split <;> simp
@[simp] theorem State.announceId_recipes (s : State) (id : Nat) :
    (s.announceId id).recipes = s.recipes := by unfold State.announceId; split <;> simp
@[simp] theorem State.announceId_draft (s : State) (id : Nat) :
    (s.announceId id).draft = s.draft := by unfold State.announceId; split <;> simp
@[simp] theorem State.announceId_hangers (s : State) (id : Nat) :
    (s.announceId id).hangers = s.hangers := by unfold State.announceId; split <;> simp
@[simp] theorem State.announceId_startOrder (s : State) (id : Nat) :
    (s.announceId id).startOrder = s.startOrder := by unfold State.announceId; split <;> simp
@[simp] theorem State.announceId_admissions (s : State) (id : Nat) :
    (s.announceId id).admissions = s.admissions := by unfold State.announceId; split <;> simp
@[simp] theorem State.announceId_baths (s : State) (id : Nat) :
    (s.announceId id).baths = s.baths := by unfold State.announceId; split <;> simp
@[simp] theorem State.announceId_moves (s : State) (id : Nat) :
    (s.announceId id).moves = s.moves := by unfold State.announceId; split <;> simp
@[simp] theorem State.announceId_moveCounter (s : State) (id : Nat) :
    (s.announceId id).moveCounter = s.moveCounter := by unfold State.announceId; split <;> simp
@[simp] theorem State.announceId_gantryA (s : State) (id : Nat) :
    (s.announceId id).gantryA = s.gantryA := by unfold State.announceId; split <;> simp
@[simp] theorem State.announceId_gantryB (s : State) (id : Nat) :
    (s.announceId id).gantryB = s.gantryB := by unfold State.announceId; split <;> simp
@[simp] theorem State.announceId_guardGap (s : State) (id : Nat) :
    (s.announceId id).guardGap = s.guardGap := by unfold State.announceId; split <;> simp
@[simp] theorem State.announceId_channels (s : State) (id : Nat) :
    (s.announceId id).channels = s.channels := by unfold State.announceId; split <;> simp
@[simp] theorem State.announceId_gasLimit (s : State) (id : Nat) :
    (s.announceId id).gasLimit = s.gasLimit := by unfold State.announceId; split <;> simp
@[simp] theorem State.announceId_mode (s : State) (id : Nat) :
    (s.announceId id).mode = s.mode := by unfold State.announceId; split <;> simp
@[simp] theorem State.announceId_holdAt (s : State) (id : Nat) :
    (s.announceId id).holdAt = s.holdAt := by unfold State.announceId; split <;> simp
@[simp] theorem State.announceId_grace (s : State) (id : Nat) :
    (s.announceId id).grace = s.grace := by unfold State.announceId; split <;> simp
@[simp] theorem State.announceId_lines (s : State) (id : Nat) :
    (s.announceId id).lines = s.lines := by unfold State.announceId; split <;> simp
@[simp] theorem State.announceId_alarmDelay (s : State) (id : Nat) :
    (s.announceId id).alarmDelay = s.alarmDelay := by unfold State.announceId; split <;> simp
@[simp] theorem State.announceId_pending (s : State) (id : Nat) :
    (s.announceId id).pending = s.pending := by unfold State.announceId; split <;> simp

/-! ### readyWork -/

@[simp] theorem State.readyWork_lineTime (s : State) (g : GantryId) :
    (s.readyWork g).lineTime = s.lineTime := by unfold State.readyWork; split <;> simp
@[simp] theorem State.readyWork_stations (s : State) (g : GantryId) :
    (s.readyWork g).stations = s.stations := by unfold State.readyWork; split <;> simp
@[simp] theorem State.readyWork_recipes (s : State) (g : GantryId) :
    (s.readyWork g).recipes = s.recipes := by unfold State.readyWork; split <;> simp
@[simp] theorem State.readyWork_draft (s : State) (g : GantryId) :
    (s.readyWork g).draft = s.draft := by unfold State.readyWork; split <;> simp
@[simp] theorem State.readyWork_hangers (s : State) (g : GantryId) :
    (s.readyWork g).hangers = s.hangers := by unfold State.readyWork; split <;> simp
@[simp] theorem State.readyWork_startOrder (s : State) (g : GantryId) :
    (s.readyWork g).startOrder = s.startOrder := by unfold State.readyWork; split <;> simp
@[simp] theorem State.readyWork_admissions (s : State) (g : GantryId) :
    (s.readyWork g).admissions = s.admissions := by unfold State.readyWork; split <;> simp
@[simp] theorem State.readyWork_baths (s : State) (g : GantryId) :
    (s.readyWork g).baths = s.baths := by unfold State.readyWork; split <;> simp
@[simp] theorem State.readyWork_moves (s : State) (g : GantryId) :
    (s.readyWork g).moves = s.moves := by unfold State.readyWork; split <;> simp
@[simp] theorem State.readyWork_moveCounter (s : State) (g : GantryId) :
    (s.readyWork g).moveCounter = s.moveCounter := by unfold State.readyWork; split <;> simp
@[simp] theorem State.readyWork_gantryA (s : State) (g : GantryId) :
    (s.readyWork g).gantryA = s.gantryA := by unfold State.readyWork; split <;> simp
@[simp] theorem State.readyWork_gantryB (s : State) (g : GantryId) :
    (s.readyWork g).gantryB = s.gantryB := by unfold State.readyWork; split <;> simp
@[simp] theorem State.readyWork_guardGap (s : State) (g : GantryId) :
    (s.readyWork g).guardGap = s.guardGap := by unfold State.readyWork; split <;> simp
@[simp] theorem State.readyWork_channels (s : State) (g : GantryId) :
    (s.readyWork g).channels = s.channels := by unfold State.readyWork; split <;> simp
@[simp] theorem State.readyWork_gasLimit (s : State) (g : GantryId) :
    (s.readyWork g).gasLimit = s.gasLimit := by unfold State.readyWork; split <;> simp
@[simp] theorem State.readyWork_mode (s : State) (g : GantryId) :
    (s.readyWork g).mode = s.mode := by unfold State.readyWork; split <;> simp
@[simp] theorem State.readyWork_holdAt (s : State) (g : GantryId) :
    (s.readyWork g).holdAt = s.holdAt := by unfold State.readyWork; split <;> simp
@[simp] theorem State.readyWork_grace (s : State) (g : GantryId) :
    (s.readyWork g).grace = s.grace := by unfold State.readyWork; split <;> simp
@[simp] theorem State.readyWork_lines (s : State) (g : GantryId) :
    (s.readyWork g).lines = s.lines := by unfold State.readyWork; split <;> simp
@[simp] theorem State.readyWork_alarmDelay (s : State) (g : GantryId) :
    (s.readyWork g).alarmDelay = s.alarmDelay := by unfold State.readyWork; split <;> simp
@[simp] theorem State.readyWork_pending (s : State) (g : GantryId) :
    (s.readyWork g).pending = s.pending := by unfold State.readyWork; split <;> simp

/-! ### notifyCondition -/

@[simp] theorem State.notifyCondition_lineTime (s : State) (tag st : Nat) (c : Condition) :
    (s.notifyCondition tag st c).lineTime = s.lineTime := by unfold State.notifyCondition; split <;> simp
@[simp] theorem State.notifyCondition_stations (s : State) (tag st : Nat) (c : Condition) :
    (s.notifyCondition tag st c).stations = s.stations := by unfold State.notifyCondition; split <;> simp
@[simp] theorem State.notifyCondition_recipes (s : State) (tag st : Nat) (c : Condition) :
    (s.notifyCondition tag st c).recipes = s.recipes := by unfold State.notifyCondition; split <;> simp
@[simp] theorem State.notifyCondition_draft (s : State) (tag st : Nat) (c : Condition) :
    (s.notifyCondition tag st c).draft = s.draft := by unfold State.notifyCondition; split <;> simp
@[simp] theorem State.notifyCondition_hangers (s : State) (tag st : Nat) (c : Condition) :
    (s.notifyCondition tag st c).hangers = s.hangers := by unfold State.notifyCondition; split <;> simp
@[simp] theorem State.notifyCondition_startOrder (s : State) (tag st : Nat) (c : Condition) :
    (s.notifyCondition tag st c).startOrder = s.startOrder := by unfold State.notifyCondition; split <;> simp
@[simp] theorem State.notifyCondition_admissions (s : State) (tag st : Nat) (c : Condition) :
    (s.notifyCondition tag st c).admissions = s.admissions := by unfold State.notifyCondition; split <;> simp
@[simp] theorem State.notifyCondition_baths (s : State) (tag st : Nat) (c : Condition) :
    (s.notifyCondition tag st c).baths = s.baths := by unfold State.notifyCondition; split <;> simp
@[simp] theorem State.notifyCondition_moves (s : State) (tag st : Nat) (c : Condition) :
    (s.notifyCondition tag st c).moves = s.moves := by unfold State.notifyCondition; split <;> simp
@[simp] theorem State.notifyCondition_moveCounter (s : State) (tag st : Nat) (c : Condition) :
    (s.notifyCondition tag st c).moveCounter = s.moveCounter := by unfold State.notifyCondition; split <;> simp
@[simp] theorem State.notifyCondition_gantryA (s : State) (tag st : Nat) (c : Condition) :
    (s.notifyCondition tag st c).gantryA = s.gantryA := by unfold State.notifyCondition; split <;> simp
@[simp] theorem State.notifyCondition_gantryB (s : State) (tag st : Nat) (c : Condition) :
    (s.notifyCondition tag st c).gantryB = s.gantryB := by unfold State.notifyCondition; split <;> simp
@[simp] theorem State.notifyCondition_guardGap (s : State) (tag st : Nat) (c : Condition) :
    (s.notifyCondition tag st c).guardGap = s.guardGap := by unfold State.notifyCondition; split <;> simp
@[simp] theorem State.notifyCondition_channels (s : State) (tag st : Nat) (c : Condition) :
    (s.notifyCondition tag st c).channels = s.channels := by unfold State.notifyCondition; split <;> simp
@[simp] theorem State.notifyCondition_gasLimit (s : State) (tag st : Nat) (c : Condition) :
    (s.notifyCondition tag st c).gasLimit = s.gasLimit := by unfold State.notifyCondition; split <;> simp
@[simp] theorem State.notifyCondition_mode (s : State) (tag st : Nat) (c : Condition) :
    (s.notifyCondition tag st c).mode = s.mode := by unfold State.notifyCondition; split <;> simp
@[simp] theorem State.notifyCondition_holdAt (s : State) (tag st : Nat) (c : Condition) :
    (s.notifyCondition tag st c).holdAt = s.holdAt := by unfold State.notifyCondition; split <;> simp
@[simp] theorem State.notifyCondition_grace (s : State) (tag st : Nat) (c : Condition) :
    (s.notifyCondition tag st c).grace = s.grace := by unfold State.notifyCondition; split <;> simp
@[simp] theorem State.notifyCondition_lines (s : State) (tag st : Nat) (c : Condition) :
    (s.notifyCondition tag st c).lines = s.lines := by unfold State.notifyCondition; split <;> simp
@[simp] theorem State.notifyCondition_alarmDelay (s : State) (tag st : Nat) (c : Condition) :
    (s.notifyCondition tag st c).alarmDelay = s.alarmDelay := by unfold State.notifyCondition; split <;> simp
@[simp] theorem State.notifyCondition_pending (s : State) (tag st : Nat) (c : Condition) :
    (s.notifyCondition tag st c).pending = s.pending := by unfold State.notifyCondition; split <;> simp

/-! ### offerValve -/

@[simp] theorem State.offerValve_lineTime (s : State) :
    (s.offerValve).lineTime = s.lineTime := by unfold State.offerValve; split <;> simp
@[simp] theorem State.offerValve_stations (s : State) :
    (s.offerValve).stations = s.stations := by unfold State.offerValve; split <;> simp
@[simp] theorem State.offerValve_recipes (s : State) :
    (s.offerValve).recipes = s.recipes := by unfold State.offerValve; split <;> simp
@[simp] theorem State.offerValve_draft (s : State) :
    (s.offerValve).draft = s.draft := by unfold State.offerValve; split <;> simp
@[simp] theorem State.offerValve_hangers (s : State) :
    (s.offerValve).hangers = s.hangers := by unfold State.offerValve; split <;> simp
@[simp] theorem State.offerValve_startOrder (s : State) :
    (s.offerValve).startOrder = s.startOrder := by unfold State.offerValve; split <;> simp
@[simp] theorem State.offerValve_admissions (s : State) :
    (s.offerValve).admissions = s.admissions := by unfold State.offerValve; split <;> simp
@[simp] theorem State.offerValve_baths (s : State) :
    (s.offerValve).baths = s.baths := by unfold State.offerValve; split <;> simp
@[simp] theorem State.offerValve_moves (s : State) :
    (s.offerValve).moves = s.moves := by unfold State.offerValve; split <;> simp
@[simp] theorem State.offerValve_moveCounter (s : State) :
    (s.offerValve).moveCounter = s.moveCounter := by unfold State.offerValve; split <;> simp
@[simp] theorem State.offerValve_gantryA (s : State) :
    (s.offerValve).gantryA = s.gantryA := by unfold State.offerValve; split <;> simp
@[simp] theorem State.offerValve_gantryB (s : State) :
    (s.offerValve).gantryB = s.gantryB := by unfold State.offerValve; split <;> simp
@[simp] theorem State.offerValve_guardGap (s : State) :
    (s.offerValve).guardGap = s.guardGap := by unfold State.offerValve; split <;> simp
@[simp] theorem State.offerValve_gasLimit (s : State) :
    (s.offerValve).gasLimit = s.gasLimit := by unfold State.offerValve; split <;> simp
@[simp] theorem State.offerValve_mode (s : State) :
    (s.offerValve).mode = s.mode := by unfold State.offerValve; split <;> simp
@[simp] theorem State.offerValve_holdAt (s : State) :
    (s.offerValve).holdAt = s.holdAt := by unfold State.offerValve; split <;> simp
@[simp] theorem State.offerValve_grace (s : State) :
    (s.offerValve).grace = s.grace := by unfold State.offerValve; split <;> simp
@[simp] theorem State.offerValve_lines (s : State) :
    (s.offerValve).lines = s.lines := by unfold State.offerValve; split <;> simp
@[simp] theorem State.offerValve_port0 (s : State) :
    (s.offerValve).port0 = s.port0 := by unfold State.offerValve; split <;> simp
@[simp] theorem State.offerValve_port1 (s : State) :
    (s.offerValve).port1 = s.port1 := by unfold State.offerValve; split <;> simp
@[simp] theorem State.offerValve_port2 (s : State) :
    (s.offerValve).port2 = s.port2 := by unfold State.offerValve; split <;> simp
@[simp] theorem State.offerValve_alarmDelay (s : State) :
    (s.offerValve).alarmDelay = s.alarmDelay := by unfold State.offerValve; split <;> simp
@[simp] theorem State.offerValve_alarm (s : State) :
    (s.offerValve).alarm = s.alarm := by unfold State.offerValve; split <;> simp
@[simp] theorem State.offerValve_pending (s : State) :
    (s.offerValve).pending = s.pending := by unfold State.offerValve; split <;> simp

/-! ### fallDue -/

@[simp] theorem State.fallDue_lineTime (s : State) (n : Nat) (due : LineTime) :
    (s.fallDue n due).lineTime = s.lineTime := by unfold State.fallDue; split <;> (try split) <;> simp
@[simp] theorem State.fallDue_stations (s : State) (n : Nat) (due : LineTime) :
    (s.fallDue n due).stations = s.stations := by unfold State.fallDue; split <;> (try split) <;> simp
@[simp] theorem State.fallDue_recipes (s : State) (n : Nat) (due : LineTime) :
    (s.fallDue n due).recipes = s.recipes := by unfold State.fallDue; split <;> (try split) <;> simp
@[simp] theorem State.fallDue_draft (s : State) (n : Nat) (due : LineTime) :
    (s.fallDue n due).draft = s.draft := by unfold State.fallDue; split <;> (try split) <;> simp
@[simp] theorem State.fallDue_hangers (s : State) (n : Nat) (due : LineTime) :
    (s.fallDue n due).hangers = s.hangers := by unfold State.fallDue; split <;> (try split) <;> simp
@[simp] theorem State.fallDue_startOrder (s : State) (n : Nat) (due : LineTime) :
    (s.fallDue n due).startOrder = s.startOrder := by unfold State.fallDue; split <;> (try split) <;> simp
@[simp] theorem State.fallDue_admissions (s : State) (n : Nat) (due : LineTime) :
    (s.fallDue n due).admissions = s.admissions := by unfold State.fallDue; split <;> (try split) <;> simp
@[simp] theorem State.fallDue_baths (s : State) (n : Nat) (due : LineTime) :
    (s.fallDue n due).baths = s.baths := by unfold State.fallDue; split <;> (try split) <;> simp
@[simp] theorem State.fallDue_moves (s : State) (n : Nat) (due : LineTime) :
    (s.fallDue n due).moves = s.moves := by unfold State.fallDue; split <;> (try split) <;> simp
@[simp] theorem State.fallDue_moveCounter (s : State) (n : Nat) (due : LineTime) :
    (s.fallDue n due).moveCounter = s.moveCounter := by unfold State.fallDue; split <;> (try split) <;> simp
@[simp] theorem State.fallDue_gantryA (s : State) (n : Nat) (due : LineTime) :
    (s.fallDue n due).gantryA = s.gantryA := by unfold State.fallDue; split <;> (try split) <;> simp
@[simp] theorem State.fallDue_gantryB (s : State) (n : Nat) (due : LineTime) :
    (s.fallDue n due).gantryB = s.gantryB := by unfold State.fallDue; split <;> (try split) <;> simp
@[simp] theorem State.fallDue_guardGap (s : State) (n : Nat) (due : LineTime) :
    (s.fallDue n due).guardGap = s.guardGap := by unfold State.fallDue; split <;> (try split) <;> simp
@[simp] theorem State.fallDue_gasLimit (s : State) (n : Nat) (due : LineTime) :
    (s.fallDue n due).gasLimit = s.gasLimit := by unfold State.fallDue; split <;> (try split) <;> simp
@[simp] theorem State.fallDue_mode (s : State) (n : Nat) (due : LineTime) :
    (s.fallDue n due).mode = s.mode := by unfold State.fallDue; split <;> (try split) <;> simp
@[simp] theorem State.fallDue_holdAt (s : State) (n : Nat) (due : LineTime) :
    (s.fallDue n due).holdAt = s.holdAt := by unfold State.fallDue; split <;> (try split) <;> simp
@[simp] theorem State.fallDue_grace (s : State) (n : Nat) (due : LineTime) :
    (s.fallDue n due).grace = s.grace := by unfold State.fallDue; split <;> (try split) <;> simp
@[simp] theorem State.fallDue_lines (s : State) (n : Nat) (due : LineTime) :
    (s.fallDue n due).lines = s.lines := by unfold State.fallDue; split <;> (try split) <;> simp
@[simp] theorem State.fallDue_port0 (s : State) (n : Nat) (due : LineTime) :
    (s.fallDue n due).port0 = s.port0 := by unfold State.fallDue; split <;> (try split) <;> simp
@[simp] theorem State.fallDue_port1 (s : State) (n : Nat) (due : LineTime) :
    (s.fallDue n due).port1 = s.port1 := by unfold State.fallDue; split <;> (try split) <;> simp
@[simp] theorem State.fallDue_port2 (s : State) (n : Nat) (due : LineTime) :
    (s.fallDue n due).port2 = s.port2 := by unfold State.fallDue; split <;> (try split) <;> simp
@[simp] theorem State.fallDue_alarmDelay (s : State) (n : Nat) (due : LineTime) :
    (s.fallDue n due).alarmDelay = s.alarmDelay := by unfold State.fallDue; split <;> (try split) <;> simp
@[simp] theorem State.fallDue_alarm (s : State) (n : Nat) (due : LineTime) :
    (s.fallDue n due).alarm = s.alarm := by unfold State.fallDue; split <;> (try split) <;> simp
@[simp] theorem State.fallDue_pending (s : State) (n : Nat) (due : LineTime) :
    (s.fallDue n due).pending = s.pending := by unfold State.fallDue; split <;> (try split) <;> simp

/-! ### endBurst -/

@[simp] theorem State.endBurst_lineTime (s : State) (n : Nat) :
    (s.endBurst n).lineTime = s.lineTime := by simp [State.endBurst]
@[simp] theorem State.endBurst_stations (s : State) (n : Nat) :
    (s.endBurst n).stations = s.stations := by simp [State.endBurst]
@[simp] theorem State.endBurst_recipes (s : State) (n : Nat) :
    (s.endBurst n).recipes = s.recipes := by simp [State.endBurst]
@[simp] theorem State.endBurst_draft (s : State) (n : Nat) :
    (s.endBurst n).draft = s.draft := by simp [State.endBurst]
@[simp] theorem State.endBurst_hangers (s : State) (n : Nat) :
    (s.endBurst n).hangers = s.hangers := by simp [State.endBurst]
@[simp] theorem State.endBurst_startOrder (s : State) (n : Nat) :
    (s.endBurst n).startOrder = s.startOrder := by simp [State.endBurst]
@[simp] theorem State.endBurst_admissions (s : State) (n : Nat) :
    (s.endBurst n).admissions = s.admissions := by simp [State.endBurst]
@[simp] theorem State.endBurst_baths (s : State) (n : Nat) :
    (s.endBurst n).baths = s.baths := by simp [State.endBurst]
@[simp] theorem State.endBurst_moves (s : State) (n : Nat) :
    (s.endBurst n).moves = s.moves := by simp [State.endBurst]
@[simp] theorem State.endBurst_moveCounter (s : State) (n : Nat) :
    (s.endBurst n).moveCounter = s.moveCounter := by simp [State.endBurst]
@[simp] theorem State.endBurst_gantryA (s : State) (n : Nat) :
    (s.endBurst n).gantryA = s.gantryA := by simp [State.endBurst]
@[simp] theorem State.endBurst_gantryB (s : State) (n : Nat) :
    (s.endBurst n).gantryB = s.gantryB := by simp [State.endBurst]
@[simp] theorem State.endBurst_guardGap (s : State) (n : Nat) :
    (s.endBurst n).guardGap = s.guardGap := by simp [State.endBurst]
@[simp] theorem State.endBurst_gasLimit (s : State) (n : Nat) :
    (s.endBurst n).gasLimit = s.gasLimit := by simp [State.endBurst]
@[simp] theorem State.endBurst_mode (s : State) (n : Nat) :
    (s.endBurst n).mode = s.mode := by simp [State.endBurst]
@[simp] theorem State.endBurst_holdAt (s : State) (n : Nat) :
    (s.endBurst n).holdAt = s.holdAt := by simp [State.endBurst]
@[simp] theorem State.endBurst_grace (s : State) (n : Nat) :
    (s.endBurst n).grace = s.grace := by simp [State.endBurst]
@[simp] theorem State.endBurst_lines (s : State) (n : Nat) :
    (s.endBurst n).lines = s.lines := by simp [State.endBurst]
@[simp] theorem State.endBurst_port0 (s : State) (n : Nat) :
    (s.endBurst n).port0 = s.port0 := by simp [State.endBurst]
@[simp] theorem State.endBurst_port1 (s : State) (n : Nat) :
    (s.endBurst n).port1 = s.port1 := by simp [State.endBurst]
@[simp] theorem State.endBurst_port2 (s : State) (n : Nat) :
    (s.endBurst n).port2 = s.port2 := by simp [State.endBurst]
@[simp] theorem State.endBurst_alarmDelay (s : State) (n : Nat) :
    (s.endBurst n).alarmDelay = s.alarmDelay := by simp [State.endBurst]
@[simp] theorem State.endBurst_alarm (s : State) (n : Nat) :
    (s.endBurst n).alarm = s.alarm := by simp [State.endBurst]
@[simp] theorem State.endBurst_pending (s : State) (n : Nat) :
    (s.endBurst n).pending = s.pending := by simp [State.endBurst]

/-! ### channelOccupied -/

@[simp] theorem State.channelOccupied_lineTime (s : State) (n : Nat) :
    (s.channelOccupied n).lineTime = s.lineTime := by unfold State.channelOccupied; split <;> simp
@[simp] theorem State.channelOccupied_stations (s : State) (n : Nat) :
    (s.channelOccupied n).stations = s.stations := by unfold State.channelOccupied; split <;> simp
@[simp] theorem State.channelOccupied_recipes (s : State) (n : Nat) :
    (s.channelOccupied n).recipes = s.recipes := by unfold State.channelOccupied; split <;> simp
@[simp] theorem State.channelOccupied_draft (s : State) (n : Nat) :
    (s.channelOccupied n).draft = s.draft := by unfold State.channelOccupied; split <;> simp
@[simp] theorem State.channelOccupied_hangers (s : State) (n : Nat) :
    (s.channelOccupied n).hangers = s.hangers := by unfold State.channelOccupied; split <;> simp
@[simp] theorem State.channelOccupied_startOrder (s : State) (n : Nat) :
    (s.channelOccupied n).startOrder = s.startOrder := by unfold State.channelOccupied; split <;> simp
@[simp] theorem State.channelOccupied_admissions (s : State) (n : Nat) :
    (s.channelOccupied n).admissions = s.admissions := by unfold State.channelOccupied; split <;> simp
@[simp] theorem State.channelOccupied_baths (s : State) (n : Nat) :
    (s.channelOccupied n).baths = s.baths := by unfold State.channelOccupied; split <;> simp
@[simp] theorem State.channelOccupied_moves (s : State) (n : Nat) :
    (s.channelOccupied n).moves = s.moves := by unfold State.channelOccupied; split <;> simp
@[simp] theorem State.channelOccupied_moveCounter (s : State) (n : Nat) :
    (s.channelOccupied n).moveCounter = s.moveCounter := by unfold State.channelOccupied; split <;> simp
@[simp] theorem State.channelOccupied_gantryA (s : State) (n : Nat) :
    (s.channelOccupied n).gantryA = s.gantryA := by unfold State.channelOccupied; split <;> simp
@[simp] theorem State.channelOccupied_gantryB (s : State) (n : Nat) :
    (s.channelOccupied n).gantryB = s.gantryB := by unfold State.channelOccupied; split <;> simp
@[simp] theorem State.channelOccupied_guardGap (s : State) (n : Nat) :
    (s.channelOccupied n).guardGap = s.guardGap := by unfold State.channelOccupied; split <;> simp
@[simp] theorem State.channelOccupied_gasLimit (s : State) (n : Nat) :
    (s.channelOccupied n).gasLimit = s.gasLimit := by unfold State.channelOccupied; split <;> simp
@[simp] theorem State.channelOccupied_mode (s : State) (n : Nat) :
    (s.channelOccupied n).mode = s.mode := by unfold State.channelOccupied; split <;> simp
@[simp] theorem State.channelOccupied_holdAt (s : State) (n : Nat) :
    (s.channelOccupied n).holdAt = s.holdAt := by unfold State.channelOccupied; split <;> simp
@[simp] theorem State.channelOccupied_grace (s : State) (n : Nat) :
    (s.channelOccupied n).grace = s.grace := by unfold State.channelOccupied; split <;> simp
@[simp] theorem State.channelOccupied_lines (s : State) (n : Nat) :
    (s.channelOccupied n).lines = s.lines := by unfold State.channelOccupied; split <;> simp
@[simp] theorem State.channelOccupied_port0 (s : State) (n : Nat) :
    (s.channelOccupied n).port0 = s.port0 := by unfold State.channelOccupied; split <;> simp
@[simp] theorem State.channelOccupied_port1 (s : State) (n : Nat) :
    (s.channelOccupied n).port1 = s.port1 := by unfold State.channelOccupied; split <;> simp
@[simp] theorem State.channelOccupied_port2 (s : State) (n : Nat) :
    (s.channelOccupied n).port2 = s.port2 := by unfold State.channelOccupied; split <;> simp
@[simp] theorem State.channelOccupied_alarmDelay (s : State) (n : Nat) :
    (s.channelOccupied n).alarmDelay = s.alarmDelay := by unfold State.channelOccupied; split <;> simp
@[simp] theorem State.channelOccupied_alarm (s : State) (n : Nat) :
    (s.channelOccupied n).alarm = s.alarm := by unfold State.channelOccupied; split <;> simp
@[simp] theorem State.channelOccupied_pending (s : State) (n : Nat) :
    (s.channelOccupied n).pending = s.pending := by unfold State.channelOccupied; split <;> simp

/-! ### channelEmptied -/

@[simp] theorem State.channelEmptied_lineTime (s : State) (n : Nat) :
    (s.channelEmptied n).lineTime = s.lineTime := by unfold State.channelEmptied; split <;> simp
@[simp] theorem State.channelEmptied_stations (s : State) (n : Nat) :
    (s.channelEmptied n).stations = s.stations := by unfold State.channelEmptied; split <;> simp
@[simp] theorem State.channelEmptied_recipes (s : State) (n : Nat) :
    (s.channelEmptied n).recipes = s.recipes := by unfold State.channelEmptied; split <;> simp
@[simp] theorem State.channelEmptied_draft (s : State) (n : Nat) :
    (s.channelEmptied n).draft = s.draft := by unfold State.channelEmptied; split <;> simp
@[simp] theorem State.channelEmptied_hangers (s : State) (n : Nat) :
    (s.channelEmptied n).hangers = s.hangers := by unfold State.channelEmptied; split <;> simp
@[simp] theorem State.channelEmptied_startOrder (s : State) (n : Nat) :
    (s.channelEmptied n).startOrder = s.startOrder := by unfold State.channelEmptied; split <;> simp
@[simp] theorem State.channelEmptied_admissions (s : State) (n : Nat) :
    (s.channelEmptied n).admissions = s.admissions := by unfold State.channelEmptied; split <;> simp
@[simp] theorem State.channelEmptied_baths (s : State) (n : Nat) :
    (s.channelEmptied n).baths = s.baths := by unfold State.channelEmptied; split <;> simp
@[simp] theorem State.channelEmptied_moves (s : State) (n : Nat) :
    (s.channelEmptied n).moves = s.moves := by unfold State.channelEmptied; split <;> simp
@[simp] theorem State.channelEmptied_moveCounter (s : State) (n : Nat) :
    (s.channelEmptied n).moveCounter = s.moveCounter := by unfold State.channelEmptied; split <;> simp
@[simp] theorem State.channelEmptied_gantryA (s : State) (n : Nat) :
    (s.channelEmptied n).gantryA = s.gantryA := by unfold State.channelEmptied; split <;> simp
@[simp] theorem State.channelEmptied_gantryB (s : State) (n : Nat) :
    (s.channelEmptied n).gantryB = s.gantryB := by unfold State.channelEmptied; split <;> simp
@[simp] theorem State.channelEmptied_guardGap (s : State) (n : Nat) :
    (s.channelEmptied n).guardGap = s.guardGap := by unfold State.channelEmptied; split <;> simp
@[simp] theorem State.channelEmptied_gasLimit (s : State) (n : Nat) :
    (s.channelEmptied n).gasLimit = s.gasLimit := by unfold State.channelEmptied; split <;> simp
@[simp] theorem State.channelEmptied_mode (s : State) (n : Nat) :
    (s.channelEmptied n).mode = s.mode := by unfold State.channelEmptied; split <;> simp
@[simp] theorem State.channelEmptied_holdAt (s : State) (n : Nat) :
    (s.channelEmptied n).holdAt = s.holdAt := by unfold State.channelEmptied; split <;> simp
@[simp] theorem State.channelEmptied_grace (s : State) (n : Nat) :
    (s.channelEmptied n).grace = s.grace := by unfold State.channelEmptied; split <;> simp
@[simp] theorem State.channelEmptied_lines (s : State) (n : Nat) :
    (s.channelEmptied n).lines = s.lines := by unfold State.channelEmptied; split <;> simp
@[simp] theorem State.channelEmptied_port0 (s : State) (n : Nat) :
    (s.channelEmptied n).port0 = s.port0 := by unfold State.channelEmptied; split <;> simp
@[simp] theorem State.channelEmptied_port1 (s : State) (n : Nat) :
    (s.channelEmptied n).port1 = s.port1 := by unfold State.channelEmptied; split <;> simp
@[simp] theorem State.channelEmptied_port2 (s : State) (n : Nat) :
    (s.channelEmptied n).port2 = s.port2 := by unfold State.channelEmptied; split <;> simp
@[simp] theorem State.channelEmptied_alarmDelay (s : State) (n : Nat) :
    (s.channelEmptied n).alarmDelay = s.alarmDelay := by unfold State.channelEmptied; split <;> simp
@[simp] theorem State.channelEmptied_alarm (s : State) (n : Nat) :
    (s.channelEmptied n).alarm = s.alarm := by unfold State.channelEmptied; split <;> simp
@[simp] theorem State.channelEmptied_pending (s : State) (n : Nat) :
    (s.channelEmptied n).pending = s.pending := by unfold State.channelEmptied; split <;> simp

/-! ### reportOccupancy -/

@[simp] theorem State.reportOccupancy_lineTime (s : State) (st was : Nat) :
    (s.reportOccupancy st was).lineTime = s.lineTime := by unfold State.reportOccupancy; split <;> (try split) <;> (try split) <;> simp
@[simp] theorem State.reportOccupancy_stations (s : State) (st was : Nat) :
    (s.reportOccupancy st was).stations = s.stations := by unfold State.reportOccupancy; split <;> (try split) <;> (try split) <;> simp
@[simp] theorem State.reportOccupancy_recipes (s : State) (st was : Nat) :
    (s.reportOccupancy st was).recipes = s.recipes := by unfold State.reportOccupancy; split <;> (try split) <;> (try split) <;> simp
@[simp] theorem State.reportOccupancy_draft (s : State) (st was : Nat) :
    (s.reportOccupancy st was).draft = s.draft := by unfold State.reportOccupancy; split <;> (try split) <;> (try split) <;> simp
@[simp] theorem State.reportOccupancy_hangers (s : State) (st was : Nat) :
    (s.reportOccupancy st was).hangers = s.hangers := by unfold State.reportOccupancy; split <;> (try split) <;> (try split) <;> simp
@[simp] theorem State.reportOccupancy_startOrder (s : State) (st was : Nat) :
    (s.reportOccupancy st was).startOrder = s.startOrder := by unfold State.reportOccupancy; split <;> (try split) <;> (try split) <;> simp
@[simp] theorem State.reportOccupancy_admissions (s : State) (st was : Nat) :
    (s.reportOccupancy st was).admissions = s.admissions := by unfold State.reportOccupancy; split <;> (try split) <;> (try split) <;> simp
@[simp] theorem State.reportOccupancy_baths (s : State) (st was : Nat) :
    (s.reportOccupancy st was).baths = s.baths := by unfold State.reportOccupancy; split <;> (try split) <;> (try split) <;> simp
@[simp] theorem State.reportOccupancy_moves (s : State) (st was : Nat) :
    (s.reportOccupancy st was).moves = s.moves := by unfold State.reportOccupancy; split <;> (try split) <;> (try split) <;> simp
@[simp] theorem State.reportOccupancy_moveCounter (s : State) (st was : Nat) :
    (s.reportOccupancy st was).moveCounter = s.moveCounter := by unfold State.reportOccupancy; split <;> (try split) <;> (try split) <;> simp
@[simp] theorem State.reportOccupancy_gantryA (s : State) (st was : Nat) :
    (s.reportOccupancy st was).gantryA = s.gantryA := by unfold State.reportOccupancy; split <;> (try split) <;> (try split) <;> simp
@[simp] theorem State.reportOccupancy_gantryB (s : State) (st was : Nat) :
    (s.reportOccupancy st was).gantryB = s.gantryB := by unfold State.reportOccupancy; split <;> (try split) <;> (try split) <;> simp
@[simp] theorem State.reportOccupancy_guardGap (s : State) (st was : Nat) :
    (s.reportOccupancy st was).guardGap = s.guardGap := by unfold State.reportOccupancy; split <;> (try split) <;> (try split) <;> simp
@[simp] theorem State.reportOccupancy_gasLimit (s : State) (st was : Nat) :
    (s.reportOccupancy st was).gasLimit = s.gasLimit := by unfold State.reportOccupancy; split <;> (try split) <;> (try split) <;> simp
@[simp] theorem State.reportOccupancy_mode (s : State) (st was : Nat) :
    (s.reportOccupancy st was).mode = s.mode := by unfold State.reportOccupancy; split <;> (try split) <;> (try split) <;> simp
@[simp] theorem State.reportOccupancy_holdAt (s : State) (st was : Nat) :
    (s.reportOccupancy st was).holdAt = s.holdAt := by unfold State.reportOccupancy; split <;> (try split) <;> (try split) <;> simp
@[simp] theorem State.reportOccupancy_grace (s : State) (st was : Nat) :
    (s.reportOccupancy st was).grace = s.grace := by unfold State.reportOccupancy; split <;> (try split) <;> (try split) <;> simp
@[simp] theorem State.reportOccupancy_lines (s : State) (st was : Nat) :
    (s.reportOccupancy st was).lines = s.lines := by unfold State.reportOccupancy; split <;> (try split) <;> (try split) <;> simp
@[simp] theorem State.reportOccupancy_port0 (s : State) (st was : Nat) :
    (s.reportOccupancy st was).port0 = s.port0 := by unfold State.reportOccupancy; split <;> (try split) <;> (try split) <;> simp
@[simp] theorem State.reportOccupancy_port1 (s : State) (st was : Nat) :
    (s.reportOccupancy st was).port1 = s.port1 := by unfold State.reportOccupancy; split <;> (try split) <;> (try split) <;> simp
@[simp] theorem State.reportOccupancy_port2 (s : State) (st was : Nat) :
    (s.reportOccupancy st was).port2 = s.port2 := by unfold State.reportOccupancy; split <;> (try split) <;> (try split) <;> simp
@[simp] theorem State.reportOccupancy_alarmDelay (s : State) (st was : Nat) :
    (s.reportOccupancy st was).alarmDelay = s.alarmDelay := by unfold State.reportOccupancy; split <;> (try split) <;> (try split) <;> simp
@[simp] theorem State.reportOccupancy_alarm (s : State) (st was : Nat) :
    (s.reportOccupancy st was).alarm = s.alarm := by unfold State.reportOccupancy; split <;> (try split) <;> (try split) <;> simp
@[simp] theorem State.reportOccupancy_pending (s : State) (st was : Nat) :
    (s.reportOccupancy st was).pending = s.pending := by unfold State.reportOccupancy; split <;> (try split) <;> (try split) <;> simp

/-! ### setHold -/

@[simp] theorem State.setHold_lineTime (s : State) (n : Nat) (k : HoldCause) :
    (s.setHold n k).lineTime = s.lineTime := by unfold State.setHold; dsimp only; split <;> (try split) <;> simp
@[simp] theorem State.setHold_stations (s : State) (n : Nat) (k : HoldCause) :
    (s.setHold n k).stations = s.stations := by unfold State.setHold; dsimp only; split <;> (try split) <;> simp
@[simp] theorem State.setHold_recipes (s : State) (n : Nat) (k : HoldCause) :
    (s.setHold n k).recipes = s.recipes := by unfold State.setHold; dsimp only; split <;> (try split) <;> simp
@[simp] theorem State.setHold_draft (s : State) (n : Nat) (k : HoldCause) :
    (s.setHold n k).draft = s.draft := by unfold State.setHold; dsimp only; split <;> (try split) <;> simp
@[simp] theorem State.setHold_hangers (s : State) (n : Nat) (k : HoldCause) :
    (s.setHold n k).hangers = s.hangers := by unfold State.setHold; dsimp only; split <;> (try split) <;> simp
@[simp] theorem State.setHold_startOrder (s : State) (n : Nat) (k : HoldCause) :
    (s.setHold n k).startOrder = s.startOrder := by unfold State.setHold; dsimp only; split <;> (try split) <;> simp
@[simp] theorem State.setHold_admissions (s : State) (n : Nat) (k : HoldCause) :
    (s.setHold n k).admissions = s.admissions := by unfold State.setHold; dsimp only; split <;> (try split) <;> simp
@[simp] theorem State.setHold_baths (s : State) (n : Nat) (k : HoldCause) :
    (s.setHold n k).baths = s.baths := by unfold State.setHold; dsimp only; split <;> (try split) <;> simp
@[simp] theorem State.setHold_moves (s : State) (n : Nat) (k : HoldCause) :
    (s.setHold n k).moves = s.moves := by unfold State.setHold; dsimp only; split <;> (try split) <;> simp
@[simp] theorem State.setHold_moveCounter (s : State) (n : Nat) (k : HoldCause) :
    (s.setHold n k).moveCounter = s.moveCounter := by unfold State.setHold; dsimp only; split <;> (try split) <;> simp
@[simp] theorem State.setHold_gantryA (s : State) (n : Nat) (k : HoldCause) :
    (s.setHold n k).gantryA = s.gantryA := by unfold State.setHold; dsimp only; split <;> (try split) <;> simp
@[simp] theorem State.setHold_gantryB (s : State) (n : Nat) (k : HoldCause) :
    (s.setHold n k).gantryB = s.gantryB := by unfold State.setHold; dsimp only; split <;> (try split) <;> simp
@[simp] theorem State.setHold_guardGap (s : State) (n : Nat) (k : HoldCause) :
    (s.setHold n k).guardGap = s.guardGap := by unfold State.setHold; dsimp only; split <;> (try split) <;> simp
@[simp] theorem State.setHold_gasLimit (s : State) (n : Nat) (k : HoldCause) :
    (s.setHold n k).gasLimit = s.gasLimit := by unfold State.setHold; dsimp only; split <;> (try split) <;> simp
@[simp] theorem State.setHold_mode (s : State) (n : Nat) (k : HoldCause) :
    (s.setHold n k).mode = s.mode := by unfold State.setHold; dsimp only; split <;> (try split) <;> simp
@[simp] theorem State.setHold_holdAt (s : State) (n : Nat) (k : HoldCause) :
    (s.setHold n k).holdAt = s.holdAt := by unfold State.setHold; dsimp only; split <;> (try split) <;> simp
@[simp] theorem State.setHold_grace (s : State) (n : Nat) (k : HoldCause) :
    (s.setHold n k).grace = s.grace := by unfold State.setHold; dsimp only; split <;> (try split) <;> simp
@[simp] theorem State.setHold_lines (s : State) (n : Nat) (k : HoldCause) :
    (s.setHold n k).lines = s.lines := by unfold State.setHold; dsimp only; split <;> (try split) <;> simp
@[simp] theorem State.setHold_port0 (s : State) (n : Nat) (k : HoldCause) :
    (s.setHold n k).port0 = s.port0 := by unfold State.setHold; dsimp only; split <;> (try split) <;> simp
@[simp] theorem State.setHold_port1 (s : State) (n : Nat) (k : HoldCause) :
    (s.setHold n k).port1 = s.port1 := by unfold State.setHold; dsimp only; split <;> (try split) <;> simp
@[simp] theorem State.setHold_port2 (s : State) (n : Nat) (k : HoldCause) :
    (s.setHold n k).port2 = s.port2 := by unfold State.setHold; dsimp only; split <;> (try split) <;> simp
@[simp] theorem State.setHold_alarmDelay (s : State) (n : Nat) (k : HoldCause) :
    (s.setHold n k).alarmDelay = s.alarmDelay := by unfold State.setHold; dsimp only; split <;> (try split) <;> simp
@[simp] theorem State.setHold_alarm (s : State) (n : Nat) (k : HoldCause) :
    (s.setHold n k).alarm = s.alarm := by unfold State.setHold; dsimp only; split <;> (try split) <;> simp
@[simp] theorem State.setHold_pending (s : State) (n : Nat) (k : HoldCause) :
    (s.setHold n k).pending = s.pending := by unfold State.setHold; dsimp only; split <;> (try split) <;> simp

/-! ### clearHold -/

@[simp] theorem State.clearHold_lineTime (s : State) (n : Nat) (k : HoldCause) :
    (s.clearHold n k).lineTime = s.lineTime := by simp [State.clearHold]
@[simp] theorem State.clearHold_stations (s : State) (n : Nat) (k : HoldCause) :
    (s.clearHold n k).stations = s.stations := by simp [State.clearHold]
@[simp] theorem State.clearHold_recipes (s : State) (n : Nat) (k : HoldCause) :
    (s.clearHold n k).recipes = s.recipes := by simp [State.clearHold]
@[simp] theorem State.clearHold_draft (s : State) (n : Nat) (k : HoldCause) :
    (s.clearHold n k).draft = s.draft := by simp [State.clearHold]
@[simp] theorem State.clearHold_hangers (s : State) (n : Nat) (k : HoldCause) :
    (s.clearHold n k).hangers = s.hangers := by simp [State.clearHold]
@[simp] theorem State.clearHold_startOrder (s : State) (n : Nat) (k : HoldCause) :
    (s.clearHold n k).startOrder = s.startOrder := by simp [State.clearHold]
@[simp] theorem State.clearHold_admissions (s : State) (n : Nat) (k : HoldCause) :
    (s.clearHold n k).admissions = s.admissions := by simp [State.clearHold]
@[simp] theorem State.clearHold_baths (s : State) (n : Nat) (k : HoldCause) :
    (s.clearHold n k).baths = s.baths := by simp [State.clearHold]
@[simp] theorem State.clearHold_moves (s : State) (n : Nat) (k : HoldCause) :
    (s.clearHold n k).moves = s.moves := by simp [State.clearHold]
@[simp] theorem State.clearHold_moveCounter (s : State) (n : Nat) (k : HoldCause) :
    (s.clearHold n k).moveCounter = s.moveCounter := by simp [State.clearHold]
@[simp] theorem State.clearHold_gantryA (s : State) (n : Nat) (k : HoldCause) :
    (s.clearHold n k).gantryA = s.gantryA := by simp [State.clearHold]
@[simp] theorem State.clearHold_gantryB (s : State) (n : Nat) (k : HoldCause) :
    (s.clearHold n k).gantryB = s.gantryB := by simp [State.clearHold]
@[simp] theorem State.clearHold_guardGap (s : State) (n : Nat) (k : HoldCause) :
    (s.clearHold n k).guardGap = s.guardGap := by simp [State.clearHold]
@[simp] theorem State.clearHold_gasLimit (s : State) (n : Nat) (k : HoldCause) :
    (s.clearHold n k).gasLimit = s.gasLimit := by simp [State.clearHold]
@[simp] theorem State.clearHold_mode (s : State) (n : Nat) (k : HoldCause) :
    (s.clearHold n k).mode = s.mode := by simp [State.clearHold]
@[simp] theorem State.clearHold_holdAt (s : State) (n : Nat) (k : HoldCause) :
    (s.clearHold n k).holdAt = s.holdAt := by simp [State.clearHold]
@[simp] theorem State.clearHold_grace (s : State) (n : Nat) (k : HoldCause) :
    (s.clearHold n k).grace = s.grace := by simp [State.clearHold]
@[simp] theorem State.clearHold_lines (s : State) (n : Nat) (k : HoldCause) :
    (s.clearHold n k).lines = s.lines := by simp [State.clearHold]
@[simp] theorem State.clearHold_port0 (s : State) (n : Nat) (k : HoldCause) :
    (s.clearHold n k).port0 = s.port0 := by simp [State.clearHold]
@[simp] theorem State.clearHold_port1 (s : State) (n : Nat) (k : HoldCause) :
    (s.clearHold n k).port1 = s.port1 := by simp [State.clearHold]
@[simp] theorem State.clearHold_port2 (s : State) (n : Nat) (k : HoldCause) :
    (s.clearHold n k).port2 = s.port2 := by simp [State.clearHold]
@[simp] theorem State.clearHold_alarmDelay (s : State) (n : Nat) (k : HoldCause) :
    (s.clearHold n k).alarmDelay = s.alarmDelay := by simp [State.clearHold]
@[simp] theorem State.clearHold_alarm (s : State) (n : Nat) (k : HoldCause) :
    (s.clearHold n k).alarm = s.alarm := by simp [State.clearHold]
@[simp] theorem State.clearHold_pending (s : State) (n : Nat) (k : HoldCause) :
    (s.clearHold n k).pending = s.pending := by simp [State.clearHold]

/-! ### holdStation -/

@[simp] theorem State.holdStation_lineTime (s : State) (st : Nat) (k : HoldCause) :
    (s.holdStation st k).lineTime = s.lineTime := by unfold State.holdStation; split <;> simp
@[simp] theorem State.holdStation_stations (s : State) (st : Nat) (k : HoldCause) :
    (s.holdStation st k).stations = s.stations := by unfold State.holdStation; split <;> simp
@[simp] theorem State.holdStation_recipes (s : State) (st : Nat) (k : HoldCause) :
    (s.holdStation st k).recipes = s.recipes := by unfold State.holdStation; split <;> simp
@[simp] theorem State.holdStation_draft (s : State) (st : Nat) (k : HoldCause) :
    (s.holdStation st k).draft = s.draft := by unfold State.holdStation; split <;> simp
@[simp] theorem State.holdStation_hangers (s : State) (st : Nat) (k : HoldCause) :
    (s.holdStation st k).hangers = s.hangers := by unfold State.holdStation; split <;> simp
@[simp] theorem State.holdStation_startOrder (s : State) (st : Nat) (k : HoldCause) :
    (s.holdStation st k).startOrder = s.startOrder := by unfold State.holdStation; split <;> simp
@[simp] theorem State.holdStation_admissions (s : State) (st : Nat) (k : HoldCause) :
    (s.holdStation st k).admissions = s.admissions := by unfold State.holdStation; split <;> simp
@[simp] theorem State.holdStation_baths (s : State) (st : Nat) (k : HoldCause) :
    (s.holdStation st k).baths = s.baths := by unfold State.holdStation; split <;> simp
@[simp] theorem State.holdStation_moves (s : State) (st : Nat) (k : HoldCause) :
    (s.holdStation st k).moves = s.moves := by unfold State.holdStation; split <;> simp
@[simp] theorem State.holdStation_moveCounter (s : State) (st : Nat) (k : HoldCause) :
    (s.holdStation st k).moveCounter = s.moveCounter := by unfold State.holdStation; split <;> simp
@[simp] theorem State.holdStation_gantryA (s : State) (st : Nat) (k : HoldCause) :
    (s.holdStation st k).gantryA = s.gantryA := by unfold State.holdStation; split <;> simp
@[simp] theorem State.holdStation_gantryB (s : State) (st : Nat) (k : HoldCause) :
    (s.holdStation st k).gantryB = s.gantryB := by unfold State.holdStation; split <;> simp
@[simp] theorem State.holdStation_guardGap (s : State) (st : Nat) (k : HoldCause) :
    (s.holdStation st k).guardGap = s.guardGap := by unfold State.holdStation; split <;> simp
@[simp] theorem State.holdStation_gasLimit (s : State) (st : Nat) (k : HoldCause) :
    (s.holdStation st k).gasLimit = s.gasLimit := by unfold State.holdStation; split <;> simp
@[simp] theorem State.holdStation_mode (s : State) (st : Nat) (k : HoldCause) :
    (s.holdStation st k).mode = s.mode := by unfold State.holdStation; split <;> simp
@[simp] theorem State.holdStation_holdAt (s : State) (st : Nat) (k : HoldCause) :
    (s.holdStation st k).holdAt = s.holdAt := by unfold State.holdStation; split <;> simp
@[simp] theorem State.holdStation_grace (s : State) (st : Nat) (k : HoldCause) :
    (s.holdStation st k).grace = s.grace := by unfold State.holdStation; split <;> simp
@[simp] theorem State.holdStation_lines (s : State) (st : Nat) (k : HoldCause) :
    (s.holdStation st k).lines = s.lines := by unfold State.holdStation; split <;> simp
@[simp] theorem State.holdStation_port0 (s : State) (st : Nat) (k : HoldCause) :
    (s.holdStation st k).port0 = s.port0 := by unfold State.holdStation; split <;> simp
@[simp] theorem State.holdStation_port1 (s : State) (st : Nat) (k : HoldCause) :
    (s.holdStation st k).port1 = s.port1 := by unfold State.holdStation; split <;> simp
@[simp] theorem State.holdStation_port2 (s : State) (st : Nat) (k : HoldCause) :
    (s.holdStation st k).port2 = s.port2 := by unfold State.holdStation; split <;> simp
@[simp] theorem State.holdStation_alarmDelay (s : State) (st : Nat) (k : HoldCause) :
    (s.holdStation st k).alarmDelay = s.alarmDelay := by unfold State.holdStation; split <;> simp
@[simp] theorem State.holdStation_alarm (s : State) (st : Nat) (k : HoldCause) :
    (s.holdStation st k).alarm = s.alarm := by unfold State.holdStation; split <;> simp
@[simp] theorem State.holdStation_pending (s : State) (st : Nat) (k : HoldCause) :
    (s.holdStation st k).pending = s.pending := by unfold State.holdStation; split <;> simp

/-! ### releaseStation -/

@[simp] theorem State.releaseStation_lineTime (s : State) (st : Nat) (k : HoldCause) :
    (s.releaseStation st k).lineTime = s.lineTime := by unfold State.releaseStation; split <;> simp
@[simp] theorem State.releaseStation_stations (s : State) (st : Nat) (k : HoldCause) :
    (s.releaseStation st k).stations = s.stations := by unfold State.releaseStation; split <;> simp
@[simp] theorem State.releaseStation_recipes (s : State) (st : Nat) (k : HoldCause) :
    (s.releaseStation st k).recipes = s.recipes := by unfold State.releaseStation; split <;> simp
@[simp] theorem State.releaseStation_draft (s : State) (st : Nat) (k : HoldCause) :
    (s.releaseStation st k).draft = s.draft := by unfold State.releaseStation; split <;> simp
@[simp] theorem State.releaseStation_hangers (s : State) (st : Nat) (k : HoldCause) :
    (s.releaseStation st k).hangers = s.hangers := by unfold State.releaseStation; split <;> simp
@[simp] theorem State.releaseStation_startOrder (s : State) (st : Nat) (k : HoldCause) :
    (s.releaseStation st k).startOrder = s.startOrder := by unfold State.releaseStation; split <;> simp
@[simp] theorem State.releaseStation_admissions (s : State) (st : Nat) (k : HoldCause) :
    (s.releaseStation st k).admissions = s.admissions := by unfold State.releaseStation; split <;> simp
@[simp] theorem State.releaseStation_baths (s : State) (st : Nat) (k : HoldCause) :
    (s.releaseStation st k).baths = s.baths := by unfold State.releaseStation; split <;> simp
@[simp] theorem State.releaseStation_moves (s : State) (st : Nat) (k : HoldCause) :
    (s.releaseStation st k).moves = s.moves := by unfold State.releaseStation; split <;> simp
@[simp] theorem State.releaseStation_moveCounter (s : State) (st : Nat) (k : HoldCause) :
    (s.releaseStation st k).moveCounter = s.moveCounter := by unfold State.releaseStation; split <;> simp
@[simp] theorem State.releaseStation_gantryA (s : State) (st : Nat) (k : HoldCause) :
    (s.releaseStation st k).gantryA = s.gantryA := by unfold State.releaseStation; split <;> simp
@[simp] theorem State.releaseStation_gantryB (s : State) (st : Nat) (k : HoldCause) :
    (s.releaseStation st k).gantryB = s.gantryB := by unfold State.releaseStation; split <;> simp
@[simp] theorem State.releaseStation_guardGap (s : State) (st : Nat) (k : HoldCause) :
    (s.releaseStation st k).guardGap = s.guardGap := by unfold State.releaseStation; split <;> simp
@[simp] theorem State.releaseStation_gasLimit (s : State) (st : Nat) (k : HoldCause) :
    (s.releaseStation st k).gasLimit = s.gasLimit := by unfold State.releaseStation; split <;> simp
@[simp] theorem State.releaseStation_mode (s : State) (st : Nat) (k : HoldCause) :
    (s.releaseStation st k).mode = s.mode := by unfold State.releaseStation; split <;> simp
@[simp] theorem State.releaseStation_holdAt (s : State) (st : Nat) (k : HoldCause) :
    (s.releaseStation st k).holdAt = s.holdAt := by unfold State.releaseStation; split <;> simp
@[simp] theorem State.releaseStation_grace (s : State) (st : Nat) (k : HoldCause) :
    (s.releaseStation st k).grace = s.grace := by unfold State.releaseStation; split <;> simp
@[simp] theorem State.releaseStation_lines (s : State) (st : Nat) (k : HoldCause) :
    (s.releaseStation st k).lines = s.lines := by unfold State.releaseStation; split <;> simp
@[simp] theorem State.releaseStation_port0 (s : State) (st : Nat) (k : HoldCause) :
    (s.releaseStation st k).port0 = s.port0 := by unfold State.releaseStation; split <;> simp
@[simp] theorem State.releaseStation_port1 (s : State) (st : Nat) (k : HoldCause) :
    (s.releaseStation st k).port1 = s.port1 := by unfold State.releaseStation; split <;> simp
@[simp] theorem State.releaseStation_port2 (s : State) (st : Nat) (k : HoldCause) :
    (s.releaseStation st k).port2 = s.port2 := by unfold State.releaseStation; split <;> simp
@[simp] theorem State.releaseStation_alarmDelay (s : State) (st : Nat) (k : HoldCause) :
    (s.releaseStation st k).alarmDelay = s.alarmDelay := by unfold State.releaseStation; split <;> simp
@[simp] theorem State.releaseStation_alarm (s : State) (st : Nat) (k : HoldCause) :
    (s.releaseStation st k).alarm = s.alarm := by unfold State.releaseStation; split <;> simp
@[simp] theorem State.releaseStation_pending (s : State) (st : Nat) (k : HoldCause) :
    (s.releaseStation st k).pending = s.pending := by unfold State.releaseStation; split <;> simp

end Sys2Proof.Machine
end

