-- ==== Sys2Proof/Laws/Records.lean ====
section
/-! SUPPORT. What the operations over several records leave alone: one lemma per operation and field it does not touch. -/

namespace Sys2Proof.Machine

/-! ### createMove -/

@[simp] theorem State.createMove_lineTime (s : State) (m : Move) :
    (s.createMove m).lineTime = s.lineTime := by unfold State.createMove; dsimp only; (repeat' split) <;> simp
@[simp] theorem State.createMove_stations (s : State) (m : Move) :
    (s.createMove m).stations = s.stations := by unfold State.createMove; dsimp only; (repeat' split) <;> simp
@[simp] theorem State.createMove_recipes (s : State) (m : Move) :
    (s.createMove m).recipes = s.recipes := by unfold State.createMove; dsimp only; (repeat' split) <;> simp
@[simp] theorem State.createMove_draft (s : State) (m : Move) :
    (s.createMove m).draft = s.draft := by unfold State.createMove; dsimp only; (repeat' split) <;> simp
@[simp] theorem State.createMove_hangers (s : State) (m : Move) :
    (s.createMove m).hangers = s.hangers := by unfold State.createMove; dsimp only; (repeat' split) <;> simp
@[simp] theorem State.createMove_startOrder (s : State) (m : Move) :
    (s.createMove m).startOrder = s.startOrder := by unfold State.createMove; dsimp only; (repeat' split) <;> simp
@[simp] theorem State.createMove_admissions (s : State) (m : Move) :
    (s.createMove m).admissions = s.admissions := by unfold State.createMove; dsimp only; (repeat' split) <;> simp
@[simp] theorem State.createMove_baths (s : State) (m : Move) :
    (s.createMove m).baths = s.baths := by unfold State.createMove; dsimp only; (repeat' split) <;> simp
@[simp] theorem State.createMove_gantryA (s : State) (m : Move) :
    (s.createMove m).gantryA = s.gantryA := by unfold State.createMove; dsimp only; (repeat' split) <;> simp
@[simp] theorem State.createMove_gantryB (s : State) (m : Move) :
    (s.createMove m).gantryB = s.gantryB := by unfold State.createMove; dsimp only; (repeat' split) <;> simp
@[simp] theorem State.createMove_guardGap (s : State) (m : Move) :
    (s.createMove m).guardGap = s.guardGap := by unfold State.createMove; dsimp only; (repeat' split) <;> simp
@[simp] theorem State.createMove_channels (s : State) (m : Move) :
    (s.createMove m).channels = s.channels := by unfold State.createMove; dsimp only; (repeat' split) <;> simp
@[simp] theorem State.createMove_gasLimit (s : State) (m : Move) :
    (s.createMove m).gasLimit = s.gasLimit := by unfold State.createMove; dsimp only; (repeat' split) <;> simp
@[simp] theorem State.createMove_mode (s : State) (m : Move) :
    (s.createMove m).mode = s.mode := by unfold State.createMove; dsimp only; (repeat' split) <;> simp
@[simp] theorem State.createMove_holdAt (s : State) (m : Move) :
    (s.createMove m).holdAt = s.holdAt := by unfold State.createMove; dsimp only; (repeat' split) <;> simp
@[simp] theorem State.createMove_grace (s : State) (m : Move) :
    (s.createMove m).grace = s.grace := by unfold State.createMove; dsimp only; (repeat' split) <;> simp
@[simp] theorem State.createMove_lines (s : State) (m : Move) :
    (s.createMove m).lines = s.lines := by unfold State.createMove; dsimp only; (repeat' split) <;> simp
@[simp] theorem State.createMove_alarmDelay (s : State) (m : Move) :
    (s.createMove m).alarmDelay = s.alarmDelay := by unfold State.createMove; dsimp only; (repeat' split) <;> simp
@[simp] theorem State.createMove_pending (s : State) (m : Move) :
    (s.createMove m).pending = s.pending := by unfold State.createMove; dsimp only; (repeat' split) <;> simp

/-! ### createEntry -/

@[simp] theorem State.createEntry_lineTime (s : State) (h : Hanger) (r : SlotRef) :
    (s.createEntry h r).lineTime = s.lineTime := by simp [State.createEntry]
@[simp] theorem State.createEntry_stations (s : State) (h : Hanger) (r : SlotRef) :
    (s.createEntry h r).stations = s.stations := by simp [State.createEntry]
@[simp] theorem State.createEntry_recipes (s : State) (h : Hanger) (r : SlotRef) :
    (s.createEntry h r).recipes = s.recipes := by simp [State.createEntry]
@[simp] theorem State.createEntry_draft (s : State) (h : Hanger) (r : SlotRef) :
    (s.createEntry h r).draft = s.draft := by simp [State.createEntry]
@[simp] theorem State.createEntry_hangers (s : State) (h : Hanger) (r : SlotRef) :
    (s.createEntry h r).hangers = s.hangers := by simp [State.createEntry]
@[simp] theorem State.createEntry_startOrder (s : State) (h : Hanger) (r : SlotRef) :
    (s.createEntry h r).startOrder = s.startOrder := by simp [State.createEntry]
@[simp] theorem State.createEntry_admissions (s : State) (h : Hanger) (r : SlotRef) :
    (s.createEntry h r).admissions = s.admissions := by simp [State.createEntry]
@[simp] theorem State.createEntry_baths (s : State) (h : Hanger) (r : SlotRef) :
    (s.createEntry h r).baths = s.baths := by simp [State.createEntry]
@[simp] theorem State.createEntry_gantryA (s : State) (h : Hanger) (r : SlotRef) :
    (s.createEntry h r).gantryA = s.gantryA := by simp [State.createEntry]
@[simp] theorem State.createEntry_gantryB (s : State) (h : Hanger) (r : SlotRef) :
    (s.createEntry h r).gantryB = s.gantryB := by simp [State.createEntry]
@[simp] theorem State.createEntry_guardGap (s : State) (h : Hanger) (r : SlotRef) :
    (s.createEntry h r).guardGap = s.guardGap := by simp [State.createEntry]
@[simp] theorem State.createEntry_channels (s : State) (h : Hanger) (r : SlotRef) :
    (s.createEntry h r).channels = s.channels := by simp [State.createEntry]
@[simp] theorem State.createEntry_gasLimit (s : State) (h : Hanger) (r : SlotRef) :
    (s.createEntry h r).gasLimit = s.gasLimit := by simp [State.createEntry]
@[simp] theorem State.createEntry_mode (s : State) (h : Hanger) (r : SlotRef) :
    (s.createEntry h r).mode = s.mode := by simp [State.createEntry]
@[simp] theorem State.createEntry_holdAt (s : State) (h : Hanger) (r : SlotRef) :
    (s.createEntry h r).holdAt = s.holdAt := by simp [State.createEntry]
@[simp] theorem State.createEntry_grace (s : State) (h : Hanger) (r : SlotRef) :
    (s.createEntry h r).grace = s.grace := by simp [State.createEntry]
@[simp] theorem State.createEntry_lines (s : State) (h : Hanger) (r : SlotRef) :
    (s.createEntry h r).lines = s.lines := by simp [State.createEntry]
@[simp] theorem State.createEntry_alarmDelay (s : State) (h : Hanger) (r : SlotRef) :
    (s.createEntry h r).alarmDelay = s.alarmDelay := by simp [State.createEntry]
@[simp] theorem State.createEntry_pending (s : State) (h : Hanger) (r : SlotRef) :
    (s.createEntry h r).pending = s.pending := by simp [State.createEntry]

/-! ### removeHangerMove -/

@[simp] theorem State.removeHangerMove_lineTime (s : State) (tag : Nat) :
    (s.removeHangerMove tag).lineTime = s.lineTime := by unfold State.removeHangerMove; (repeat' split) <;> simp
@[simp] theorem State.removeHangerMove_stations (s : State) (tag : Nat) :
    (s.removeHangerMove tag).stations = s.stations := by unfold State.removeHangerMove; (repeat' split) <;> simp
@[simp] theorem State.removeHangerMove_recipes (s : State) (tag : Nat) :
    (s.removeHangerMove tag).recipes = s.recipes := by unfold State.removeHangerMove; (repeat' split) <;> simp
@[simp] theorem State.removeHangerMove_draft (s : State) (tag : Nat) :
    (s.removeHangerMove tag).draft = s.draft := by unfold State.removeHangerMove; (repeat' split) <;> simp
@[simp] theorem State.removeHangerMove_hangers (s : State) (tag : Nat) :
    (s.removeHangerMove tag).hangers = s.hangers := by unfold State.removeHangerMove; (repeat' split) <;> simp
@[simp] theorem State.removeHangerMove_startOrder (s : State) (tag : Nat) :
    (s.removeHangerMove tag).startOrder = s.startOrder := by unfold State.removeHangerMove; (repeat' split) <;> simp
@[simp] theorem State.removeHangerMove_admissions (s : State) (tag : Nat) :
    (s.removeHangerMove tag).admissions = s.admissions := by unfold State.removeHangerMove; (repeat' split) <;> simp
@[simp] theorem State.removeHangerMove_baths (s : State) (tag : Nat) :
    (s.removeHangerMove tag).baths = s.baths := by unfold State.removeHangerMove; (repeat' split) <;> simp
@[simp] theorem State.removeHangerMove_moveCounter (s : State) (tag : Nat) :
    (s.removeHangerMove tag).moveCounter = s.moveCounter := by unfold State.removeHangerMove; (repeat' split) <;> simp
@[simp] theorem State.removeHangerMove_gantryA (s : State) (tag : Nat) :
    (s.removeHangerMove tag).gantryA = s.gantryA := by unfold State.removeHangerMove; (repeat' split) <;> simp
@[simp] theorem State.removeHangerMove_gantryB (s : State) (tag : Nat) :
    (s.removeHangerMove tag).gantryB = s.gantryB := by unfold State.removeHangerMove; (repeat' split) <;> simp
@[simp] theorem State.removeHangerMove_guardGap (s : State) (tag : Nat) :
    (s.removeHangerMove tag).guardGap = s.guardGap := by unfold State.removeHangerMove; (repeat' split) <;> simp
@[simp] theorem State.removeHangerMove_channels (s : State) (tag : Nat) :
    (s.removeHangerMove tag).channels = s.channels := by unfold State.removeHangerMove; (repeat' split) <;> simp
@[simp] theorem State.removeHangerMove_gasLimit (s : State) (tag : Nat) :
    (s.removeHangerMove tag).gasLimit = s.gasLimit := by unfold State.removeHangerMove; (repeat' split) <;> simp
@[simp] theorem State.removeHangerMove_mode (s : State) (tag : Nat) :
    (s.removeHangerMove tag).mode = s.mode := by unfold State.removeHangerMove; (repeat' split) <;> simp
@[simp] theorem State.removeHangerMove_holdAt (s : State) (tag : Nat) :
    (s.removeHangerMove tag).holdAt = s.holdAt := by unfold State.removeHangerMove; (repeat' split) <;> simp
@[simp] theorem State.removeHangerMove_grace (s : State) (tag : Nat) :
    (s.removeHangerMove tag).grace = s.grace := by unfold State.removeHangerMove; (repeat' split) <;> simp
@[simp] theorem State.removeHangerMove_lines (s : State) (tag : Nat) :
    (s.removeHangerMove tag).lines = s.lines := by unfold State.removeHangerMove; (repeat' split) <;> simp
@[simp] theorem State.removeHangerMove_port0 (s : State) (tag : Nat) :
    (s.removeHangerMove tag).port0 = s.port0 := by unfold State.removeHangerMove; (repeat' split) <;> simp
@[simp] theorem State.removeHangerMove_port1 (s : State) (tag : Nat) :
    (s.removeHangerMove tag).port1 = s.port1 := by unfold State.removeHangerMove; (repeat' split) <;> simp
@[simp] theorem State.removeHangerMove_port2 (s : State) (tag : Nat) :
    (s.removeHangerMove tag).port2 = s.port2 := by unfold State.removeHangerMove; (repeat' split) <;> simp
@[simp] theorem State.removeHangerMove_alarmDelay (s : State) (tag : Nat) :
    (s.removeHangerMove tag).alarmDelay = s.alarmDelay := by unfold State.removeHangerMove; (repeat' split) <;> simp
@[simp] theorem State.removeHangerMove_alarm (s : State) (tag : Nat) :
    (s.removeHangerMove tag).alarm = s.alarm := by unfold State.removeHangerMove; (repeat' split) <;> simp
@[simp] theorem State.removeHangerMove_pending (s : State) (tag : Nat) :
    (s.removeHangerMove tag).pending = s.pending := by unfold State.removeHangerMove; (repeat' split) <;> simp

/-! ### readyDue -/

@[simp] theorem State.readyDue_lineTime (s : State) (id : Nat) :
    (s.readyDue id).lineTime = s.lineTime := by unfold State.readyDue; (repeat' split) <;> simp
@[simp] theorem State.readyDue_stations (s : State) (id : Nat) :
    (s.readyDue id).stations = s.stations := by unfold State.readyDue; (repeat' split) <;> simp
@[simp] theorem State.readyDue_recipes (s : State) (id : Nat) :
    (s.readyDue id).recipes = s.recipes := by unfold State.readyDue; (repeat' split) <;> simp
@[simp] theorem State.readyDue_draft (s : State) (id : Nat) :
    (s.readyDue id).draft = s.draft := by unfold State.readyDue; (repeat' split) <;> simp
@[simp] theorem State.readyDue_hangers (s : State) (id : Nat) :
    (s.readyDue id).hangers = s.hangers := by unfold State.readyDue; (repeat' split) <;> simp
@[simp] theorem State.readyDue_startOrder (s : State) (id : Nat) :
    (s.readyDue id).startOrder = s.startOrder := by unfold State.readyDue; (repeat' split) <;> simp
@[simp] theorem State.readyDue_admissions (s : State) (id : Nat) :
    (s.readyDue id).admissions = s.admissions := by unfold State.readyDue; (repeat' split) <;> simp
@[simp] theorem State.readyDue_baths (s : State) (id : Nat) :
    (s.readyDue id).baths = s.baths := by unfold State.readyDue; (repeat' split) <;> simp
@[simp] theorem State.readyDue_moveCounter (s : State) (id : Nat) :
    (s.readyDue id).moveCounter = s.moveCounter := by unfold State.readyDue; (repeat' split) <;> simp
@[simp] theorem State.readyDue_gantryA (s : State) (id : Nat) :
    (s.readyDue id).gantryA = s.gantryA := by unfold State.readyDue; (repeat' split) <;> simp
@[simp] theorem State.readyDue_gantryB (s : State) (id : Nat) :
    (s.readyDue id).gantryB = s.gantryB := by unfold State.readyDue; (repeat' split) <;> simp
@[simp] theorem State.readyDue_guardGap (s : State) (id : Nat) :
    (s.readyDue id).guardGap = s.guardGap := by unfold State.readyDue; (repeat' split) <;> simp
@[simp] theorem State.readyDue_channels (s : State) (id : Nat) :
    (s.readyDue id).channels = s.channels := by unfold State.readyDue; (repeat' split) <;> simp
@[simp] theorem State.readyDue_gasLimit (s : State) (id : Nat) :
    (s.readyDue id).gasLimit = s.gasLimit := by unfold State.readyDue; (repeat' split) <;> simp
@[simp] theorem State.readyDue_mode (s : State) (id : Nat) :
    (s.readyDue id).mode = s.mode := by unfold State.readyDue; (repeat' split) <;> simp
@[simp] theorem State.readyDue_holdAt (s : State) (id : Nat) :
    (s.readyDue id).holdAt = s.holdAt := by unfold State.readyDue; (repeat' split) <;> simp
@[simp] theorem State.readyDue_grace (s : State) (id : Nat) :
    (s.readyDue id).grace = s.grace := by unfold State.readyDue; (repeat' split) <;> simp
@[simp] theorem State.readyDue_lines (s : State) (id : Nat) :
    (s.readyDue id).lines = s.lines := by unfold State.readyDue; (repeat' split) <;> simp
@[simp] theorem State.readyDue_alarmDelay (s : State) (id : Nat) :
    (s.readyDue id).alarmDelay = s.alarmDelay := by unfold State.readyDue; (repeat' split) <;> simp
@[simp] theorem State.readyDue_pending (s : State) (id : Nat) :
    (s.readyDue id).pending = s.pending := by unfold State.readyDue; (repeat' split) <;> simp

/-! ### closeEntry -/

@[simp] theorem State.closeEntry_lineTime (s : State) (tag : Nat) (c : Condition) :
    (s.closeEntry tag c).lineTime = s.lineTime := by unfold State.closeEntry; (repeat' split) <;> simp
@[simp] theorem State.closeEntry_stations (s : State) (tag : Nat) (c : Condition) :
    (s.closeEntry tag c).stations = s.stations := by unfold State.closeEntry; (repeat' split) <;> simp
@[simp] theorem State.closeEntry_recipes (s : State) (tag : Nat) (c : Condition) :
    (s.closeEntry tag c).recipes = s.recipes := by unfold State.closeEntry; (repeat' split) <;> simp
@[simp] theorem State.closeEntry_draft (s : State) (tag : Nat) (c : Condition) :
    (s.closeEntry tag c).draft = s.draft := by unfold State.closeEntry; (repeat' split) <;> simp
@[simp] theorem State.closeEntry_startOrder (s : State) (tag : Nat) (c : Condition) :
    (s.closeEntry tag c).startOrder = s.startOrder := by unfold State.closeEntry; (repeat' split) <;> simp
@[simp] theorem State.closeEntry_admissions (s : State) (tag : Nat) (c : Condition) :
    (s.closeEntry tag c).admissions = s.admissions := by unfold State.closeEntry; (repeat' split) <;> simp
@[simp] theorem State.closeEntry_baths (s : State) (tag : Nat) (c : Condition) :
    (s.closeEntry tag c).baths = s.baths := by unfold State.closeEntry; (repeat' split) <;> simp
@[simp] theorem State.closeEntry_moves (s : State) (tag : Nat) (c : Condition) :
    (s.closeEntry tag c).moves = s.moves := by unfold State.closeEntry; (repeat' split) <;> simp
@[simp] theorem State.closeEntry_moveCounter (s : State) (tag : Nat) (c : Condition) :
    (s.closeEntry tag c).moveCounter = s.moveCounter := by unfold State.closeEntry; (repeat' split) <;> simp
@[simp] theorem State.closeEntry_gantryA (s : State) (tag : Nat) (c : Condition) :
    (s.closeEntry tag c).gantryA = s.gantryA := by unfold State.closeEntry; (repeat' split) <;> simp
@[simp] theorem State.closeEntry_gantryB (s : State) (tag : Nat) (c : Condition) :
    (s.closeEntry tag c).gantryB = s.gantryB := by unfold State.closeEntry; (repeat' split) <;> simp
@[simp] theorem State.closeEntry_guardGap (s : State) (tag : Nat) (c : Condition) :
    (s.closeEntry tag c).guardGap = s.guardGap := by unfold State.closeEntry; (repeat' split) <;> simp
@[simp] theorem State.closeEntry_channels (s : State) (tag : Nat) (c : Condition) :
    (s.closeEntry tag c).channels = s.channels := by unfold State.closeEntry; (repeat' split) <;> simp
@[simp] theorem State.closeEntry_gasLimit (s : State) (tag : Nat) (c : Condition) :
    (s.closeEntry tag c).gasLimit = s.gasLimit := by unfold State.closeEntry; (repeat' split) <;> simp
@[simp] theorem State.closeEntry_mode (s : State) (tag : Nat) (c : Condition) :
    (s.closeEntry tag c).mode = s.mode := by unfold State.closeEntry; (repeat' split) <;> simp
@[simp] theorem State.closeEntry_holdAt (s : State) (tag : Nat) (c : Condition) :
    (s.closeEntry tag c).holdAt = s.holdAt := by unfold State.closeEntry; (repeat' split) <;> simp
@[simp] theorem State.closeEntry_grace (s : State) (tag : Nat) (c : Condition) :
    (s.closeEntry tag c).grace = s.grace := by unfold State.closeEntry; (repeat' split) <;> simp
@[simp] theorem State.closeEntry_lines (s : State) (tag : Nat) (c : Condition) :
    (s.closeEntry tag c).lines = s.lines := by unfold State.closeEntry; (repeat' split) <;> simp
@[simp] theorem State.closeEntry_alarmDelay (s : State) (tag : Nat) (c : Condition) :
    (s.closeEntry tag c).alarmDelay = s.alarmDelay := by unfold State.closeEntry; (repeat' split) <;> simp
@[simp] theorem State.closeEntry_pending (s : State) (tag : Nat) (c : Condition) :
    (s.closeEntry tag c).pending = s.pending := by unfold State.closeEntry; (repeat' split) <;> simp

/-! ### feedMove -/

@[simp] theorem State.feedMove_lineTime (s : State) (h : Hanger) :
    (s.feedMove h).lineTime = s.lineTime := by unfold State.feedMove; dsimp only; (repeat' split) <;> simp
@[simp] theorem State.feedMove_stations (s : State) (h : Hanger) :
    (s.feedMove h).stations = s.stations := by unfold State.feedMove; dsimp only; (repeat' split) <;> simp
@[simp] theorem State.feedMove_recipes (s : State) (h : Hanger) :
    (s.feedMove h).recipes = s.recipes := by unfold State.feedMove; dsimp only; (repeat' split) <;> simp
@[simp] theorem State.feedMove_draft (s : State) (h : Hanger) :
    (s.feedMove h).draft = s.draft := by unfold State.feedMove; dsimp only; (repeat' split) <;> simp
@[simp] theorem State.feedMove_hangers (s : State) (h : Hanger) :
    (s.feedMove h).hangers = s.hangers := by unfold State.feedMove; dsimp only; (repeat' split) <;> simp
@[simp] theorem State.feedMove_startOrder (s : State) (h : Hanger) :
    (s.feedMove h).startOrder = s.startOrder := by unfold State.feedMove; dsimp only; (repeat' split) <;> simp
@[simp] theorem State.feedMove_admissions (s : State) (h : Hanger) :
    (s.feedMove h).admissions = s.admissions := by unfold State.feedMove; dsimp only; (repeat' split) <;> simp
@[simp] theorem State.feedMove_baths (s : State) (h : Hanger) :
    (s.feedMove h).baths = s.baths := by unfold State.feedMove; dsimp only; (repeat' split) <;> simp
@[simp] theorem State.feedMove_moveCounter (s : State) (h : Hanger) :
    (s.feedMove h).moveCounter = s.moveCounter := by unfold State.feedMove; dsimp only; (repeat' split) <;> simp
@[simp] theorem State.feedMove_gantryA (s : State) (h : Hanger) :
    (s.feedMove h).gantryA = s.gantryA := by unfold State.feedMove; dsimp only; (repeat' split) <;> simp
@[simp] theorem State.feedMove_gantryB (s : State) (h : Hanger) :
    (s.feedMove h).gantryB = s.gantryB := by unfold State.feedMove; dsimp only; (repeat' split) <;> simp
@[simp] theorem State.feedMove_guardGap (s : State) (h : Hanger) :
    (s.feedMove h).guardGap = s.guardGap := by unfold State.feedMove; dsimp only; (repeat' split) <;> simp
@[simp] theorem State.feedMove_channels (s : State) (h : Hanger) :
    (s.feedMove h).channels = s.channels := by unfold State.feedMove; dsimp only; (repeat' split) <;> simp
@[simp] theorem State.feedMove_gasLimit (s : State) (h : Hanger) :
    (s.feedMove h).gasLimit = s.gasLimit := by unfold State.feedMove; dsimp only; (repeat' split) <;> simp
@[simp] theorem State.feedMove_mode (s : State) (h : Hanger) :
    (s.feedMove h).mode = s.mode := by unfold State.feedMove; dsimp only; (repeat' split) <;> simp
@[simp] theorem State.feedMove_holdAt (s : State) (h : Hanger) :
    (s.feedMove h).holdAt = s.holdAt := by unfold State.feedMove; dsimp only; (repeat' split) <;> simp
@[simp] theorem State.feedMove_grace (s : State) (h : Hanger) :
    (s.feedMove h).grace = s.grace := by unfold State.feedMove; dsimp only; (repeat' split) <;> simp
@[simp] theorem State.feedMove_lines (s : State) (h : Hanger) :
    (s.feedMove h).lines = s.lines := by unfold State.feedMove; dsimp only; (repeat' split) <;> simp
@[simp] theorem State.feedMove_alarmDelay (s : State) (h : Hanger) :
    (s.feedMove h).alarmDelay = s.alarmDelay := by unfold State.feedMove; dsimp only; (repeat' split) <;> simp
@[simp] theorem State.feedMove_pending (s : State) (h : Hanger) :
    (s.feedMove h).pending = s.pending := by unfold State.feedMove; dsimp only; (repeat' split) <;> simp

/-! ### remakeOne -/

@[simp] theorem State.remakeOne_lineTime (s : State) (st tag : Nat) :
    (s.remakeOne st tag).lineTime = s.lineTime := by unfold State.remakeOne; dsimp only; (repeat' split) <;> simp
@[simp] theorem State.remakeOne_stations (s : State) (st tag : Nat) :
    (s.remakeOne st tag).stations = s.stations := by unfold State.remakeOne; dsimp only; (repeat' split) <;> simp
@[simp] theorem State.remakeOne_recipes (s : State) (st tag : Nat) :
    (s.remakeOne st tag).recipes = s.recipes := by unfold State.remakeOne; dsimp only; (repeat' split) <;> simp
@[simp] theorem State.remakeOne_draft (s : State) (st tag : Nat) :
    (s.remakeOne st tag).draft = s.draft := by unfold State.remakeOne; dsimp only; (repeat' split) <;> simp
@[simp] theorem State.remakeOne_startOrder (s : State) (st tag : Nat) :
    (s.remakeOne st tag).startOrder = s.startOrder := by unfold State.remakeOne; dsimp only; (repeat' split) <;> simp
@[simp] theorem State.remakeOne_admissions (s : State) (st tag : Nat) :
    (s.remakeOne st tag).admissions = s.admissions := by unfold State.remakeOne; dsimp only; (repeat' split) <;> simp
@[simp] theorem State.remakeOne_baths (s : State) (st tag : Nat) :
    (s.remakeOne st tag).baths = s.baths := by unfold State.remakeOne; dsimp only; (repeat' split) <;> simp
@[simp] theorem State.remakeOne_moveCounter (s : State) (st tag : Nat) :
    (s.remakeOne st tag).moveCounter = s.moveCounter := by unfold State.remakeOne; dsimp only; (repeat' split) <;> simp
@[simp] theorem State.remakeOne_gantryA (s : State) (st tag : Nat) :
    (s.remakeOne st tag).gantryA = s.gantryA := by unfold State.remakeOne; dsimp only; (repeat' split) <;> simp
@[simp] theorem State.remakeOne_gantryB (s : State) (st tag : Nat) :
    (s.remakeOne st tag).gantryB = s.gantryB := by unfold State.remakeOne; dsimp only; (repeat' split) <;> simp
@[simp] theorem State.remakeOne_guardGap (s : State) (st tag : Nat) :
    (s.remakeOne st tag).guardGap = s.guardGap := by unfold State.remakeOne; dsimp only; (repeat' split) <;> simp
@[simp] theorem State.remakeOne_channels (s : State) (st tag : Nat) :
    (s.remakeOne st tag).channels = s.channels := by unfold State.remakeOne; dsimp only; (repeat' split) <;> simp
@[simp] theorem State.remakeOne_gasLimit (s : State) (st tag : Nat) :
    (s.remakeOne st tag).gasLimit = s.gasLimit := by unfold State.remakeOne; dsimp only; (repeat' split) <;> simp
@[simp] theorem State.remakeOne_mode (s : State) (st tag : Nat) :
    (s.remakeOne st tag).mode = s.mode := by unfold State.remakeOne; dsimp only; (repeat' split) <;> simp
@[simp] theorem State.remakeOne_holdAt (s : State) (st tag : Nat) :
    (s.remakeOne st tag).holdAt = s.holdAt := by unfold State.remakeOne; dsimp only; (repeat' split) <;> simp
@[simp] theorem State.remakeOne_grace (s : State) (st tag : Nat) :
    (s.remakeOne st tag).grace = s.grace := by unfold State.remakeOne; dsimp only; (repeat' split) <;> simp
@[simp] theorem State.remakeOne_lines (s : State) (st tag : Nat) :
    (s.remakeOne st tag).lines = s.lines := by unfold State.remakeOne; dsimp only; (repeat' split) <;> simp
@[simp] theorem State.remakeOne_alarmDelay (s : State) (st tag : Nat) :
    (s.remakeOne st tag).alarmDelay = s.alarmDelay := by unfold State.remakeOne; dsimp only; (repeat' split) <;> simp
@[simp] theorem State.remakeOne_pending (s : State) (st tag : Nat) :
    (s.remakeOne st tag).pending = s.pending := by unfold State.remakeOne; dsimp only; (repeat' split) <;> simp

/-! ### unagitatedDue -/

@[simp] theorem State.unagitatedDue_lineTime (s : State) (tag : Nat) :
    (s.unagitatedDue tag).lineTime = s.lineTime := by unfold State.unagitatedDue; (repeat' split) <;> simp
@[simp] theorem State.unagitatedDue_stations (s : State) (tag : Nat) :
    (s.unagitatedDue tag).stations = s.stations := by unfold State.unagitatedDue; (repeat' split) <;> simp
@[simp] theorem State.unagitatedDue_recipes (s : State) (tag : Nat) :
    (s.unagitatedDue tag).recipes = s.recipes := by unfold State.unagitatedDue; (repeat' split) <;> simp
@[simp] theorem State.unagitatedDue_draft (s : State) (tag : Nat) :
    (s.unagitatedDue tag).draft = s.draft := by unfold State.unagitatedDue; (repeat' split) <;> simp
@[simp] theorem State.unagitatedDue_startOrder (s : State) (tag : Nat) :
    (s.unagitatedDue tag).startOrder = s.startOrder := by unfold State.unagitatedDue; (repeat' split) <;> simp
@[simp] theorem State.unagitatedDue_admissions (s : State) (tag : Nat) :
    (s.unagitatedDue tag).admissions = s.admissions := by unfold State.unagitatedDue; (repeat' split) <;> simp
@[simp] theorem State.unagitatedDue_baths (s : State) (tag : Nat) :
    (s.unagitatedDue tag).baths = s.baths := by unfold State.unagitatedDue; (repeat' split) <;> simp
@[simp] theorem State.unagitatedDue_moves (s : State) (tag : Nat) :
    (s.unagitatedDue tag).moves = s.moves := by unfold State.unagitatedDue; (repeat' split) <;> simp
@[simp] theorem State.unagitatedDue_moveCounter (s : State) (tag : Nat) :
    (s.unagitatedDue tag).moveCounter = s.moveCounter := by unfold State.unagitatedDue; (repeat' split) <;> simp
@[simp] theorem State.unagitatedDue_gantryA (s : State) (tag : Nat) :
    (s.unagitatedDue tag).gantryA = s.gantryA := by unfold State.unagitatedDue; (repeat' split) <;> simp
@[simp] theorem State.unagitatedDue_gantryB (s : State) (tag : Nat) :
    (s.unagitatedDue tag).gantryB = s.gantryB := by unfold State.unagitatedDue; (repeat' split) <;> simp
@[simp] theorem State.unagitatedDue_guardGap (s : State) (tag : Nat) :
    (s.unagitatedDue tag).guardGap = s.guardGap := by unfold State.unagitatedDue; (repeat' split) <;> simp
@[simp] theorem State.unagitatedDue_channels (s : State) (tag : Nat) :
    (s.unagitatedDue tag).channels = s.channels := by unfold State.unagitatedDue; (repeat' split) <;> simp
@[simp] theorem State.unagitatedDue_gasLimit (s : State) (tag : Nat) :
    (s.unagitatedDue tag).gasLimit = s.gasLimit := by unfold State.unagitatedDue; (repeat' split) <;> simp
@[simp] theorem State.unagitatedDue_mode (s : State) (tag : Nat) :
    (s.unagitatedDue tag).mode = s.mode := by unfold State.unagitatedDue; (repeat' split) <;> simp
@[simp] theorem State.unagitatedDue_holdAt (s : State) (tag : Nat) :
    (s.unagitatedDue tag).holdAt = s.holdAt := by unfold State.unagitatedDue; (repeat' split) <;> simp
@[simp] theorem State.unagitatedDue_grace (s : State) (tag : Nat) :
    (s.unagitatedDue tag).grace = s.grace := by unfold State.unagitatedDue; (repeat' split) <;> simp
@[simp] theorem State.unagitatedDue_lines (s : State) (tag : Nat) :
    (s.unagitatedDue tag).lines = s.lines := by unfold State.unagitatedDue; (repeat' split) <;> simp
@[simp] theorem State.unagitatedDue_alarmDelay (s : State) (tag : Nat) :
    (s.unagitatedDue tag).alarmDelay = s.alarmDelay := by unfold State.unagitatedDue; (repeat' split) <;> simp
@[simp] theorem State.unagitatedDue_pending (s : State) (tag : Nat) :
    (s.unagitatedDue tag).pending = s.pending := by unfold State.unagitatedDue; (repeat' split) <;> simp

/-! ### rescueMove -/

@[simp] theorem State.rescueMove_lineTime (s : State) (st tag : Nat) :
    (s.rescueMove st tag).lineTime = s.lineTime := by unfold State.rescueMove; dsimp only; (repeat' split) <;> simp
@[simp] theorem State.rescueMove_stations (s : State) (st tag : Nat) :
    (s.rescueMove st tag).stations = s.stations := by unfold State.rescueMove; dsimp only; (repeat' split) <;> simp
@[simp] theorem State.rescueMove_recipes (s : State) (st tag : Nat) :
    (s.rescueMove st tag).recipes = s.recipes := by unfold State.rescueMove; dsimp only; (repeat' split) <;> simp
@[simp] theorem State.rescueMove_draft (s : State) (st tag : Nat) :
    (s.rescueMove st tag).draft = s.draft := by unfold State.rescueMove; dsimp only; (repeat' split) <;> simp
@[simp] theorem State.rescueMove_hangers (s : State) (st tag : Nat) :
    (s.rescueMove st tag).hangers = s.hangers := by unfold State.rescueMove; dsimp only; (repeat' split) <;> simp
@[simp] theorem State.rescueMove_startOrder (s : State) (st tag : Nat) :
    (s.rescueMove st tag).startOrder = s.startOrder := by unfold State.rescueMove; dsimp only; (repeat' split) <;> simp
@[simp] theorem State.rescueMove_admissions (s : State) (st tag : Nat) :
    (s.rescueMove st tag).admissions = s.admissions := by unfold State.rescueMove; dsimp only; (repeat' split) <;> simp
@[simp] theorem State.rescueMove_baths (s : State) (st tag : Nat) :
    (s.rescueMove st tag).baths = s.baths := by unfold State.rescueMove; dsimp only; (repeat' split) <;> simp
@[simp] theorem State.rescueMove_moveCounter (s : State) (st tag : Nat) :
    (s.rescueMove st tag).moveCounter = s.moveCounter := by unfold State.rescueMove; dsimp only; (repeat' split) <;> simp
@[simp] theorem State.rescueMove_gantryA (s : State) (st tag : Nat) :
    (s.rescueMove st tag).gantryA = s.gantryA := by unfold State.rescueMove; dsimp only; (repeat' split) <;> simp
@[simp] theorem State.rescueMove_gantryB (s : State) (st tag : Nat) :
    (s.rescueMove st tag).gantryB = s.gantryB := by unfold State.rescueMove; dsimp only; (repeat' split) <;> simp
@[simp] theorem State.rescueMove_guardGap (s : State) (st tag : Nat) :
    (s.rescueMove st tag).guardGap = s.guardGap := by unfold State.rescueMove; dsimp only; (repeat' split) <;> simp
@[simp] theorem State.rescueMove_channels (s : State) (st tag : Nat) :
    (s.rescueMove st tag).channels = s.channels := by unfold State.rescueMove; dsimp only; (repeat' split) <;> simp
@[simp] theorem State.rescueMove_gasLimit (s : State) (st tag : Nat) :
    (s.rescueMove st tag).gasLimit = s.gasLimit := by unfold State.rescueMove; dsimp only; (repeat' split) <;> simp
@[simp] theorem State.rescueMove_mode (s : State) (st tag : Nat) :
    (s.rescueMove st tag).mode = s.mode := by unfold State.rescueMove; dsimp only; (repeat' split) <;> simp
@[simp] theorem State.rescueMove_holdAt (s : State) (st tag : Nat) :
    (s.rescueMove st tag).holdAt = s.holdAt := by unfold State.rescueMove; dsimp only; (repeat' split) <;> simp
@[simp] theorem State.rescueMove_grace (s : State) (st tag : Nat) :
    (s.rescueMove st tag).grace = s.grace := by unfold State.rescueMove; dsimp only; (repeat' split) <;> simp
@[simp] theorem State.rescueMove_lines (s : State) (st tag : Nat) :
    (s.rescueMove st tag).lines = s.lines := by unfold State.rescueMove; dsimp only; (repeat' split) <;> simp
@[simp] theorem State.rescueMove_alarmDelay (s : State) (st tag : Nat) :
    (s.rescueMove st tag).alarmDelay = s.alarmDelay := by unfold State.rescueMove; dsimp only; (repeat' split) <;> simp
@[simp] theorem State.rescueMove_pending (s : State) (st tag : Nat) :
    (s.rescueMove st tag).pending = s.pending := by unfold State.rescueMove; dsimp only; (repeat' split) <;> simp

/-! ### rescueHanger -/

@[simp] theorem State.rescueHanger_lineTime (s : State) (st tag : Nat) :
    (s.rescueHanger st tag).lineTime = s.lineTime := by unfold State.rescueHanger; (repeat' split) <;> simp
@[simp] theorem State.rescueHanger_stations (s : State) (st tag : Nat) :
    (s.rescueHanger st tag).stations = s.stations := by unfold State.rescueHanger; (repeat' split) <;> simp
@[simp] theorem State.rescueHanger_recipes (s : State) (st tag : Nat) :
    (s.rescueHanger st tag).recipes = s.recipes := by unfold State.rescueHanger; (repeat' split) <;> simp
@[simp] theorem State.rescueHanger_draft (s : State) (st tag : Nat) :
    (s.rescueHanger st tag).draft = s.draft := by unfold State.rescueHanger; (repeat' split) <;> simp
@[simp] theorem State.rescueHanger_startOrder (s : State) (st tag : Nat) :
    (s.rescueHanger st tag).startOrder = s.startOrder := by unfold State.rescueHanger; (repeat' split) <;> simp
@[simp] theorem State.rescueHanger_admissions (s : State) (st tag : Nat) :
    (s.rescueHanger st tag).admissions = s.admissions := by unfold State.rescueHanger; (repeat' split) <;> simp
@[simp] theorem State.rescueHanger_baths (s : State) (st tag : Nat) :
    (s.rescueHanger st tag).baths = s.baths := by unfold State.rescueHanger; (repeat' split) <;> simp
@[simp] theorem State.rescueHanger_moveCounter (s : State) (st tag : Nat) :
    (s.rescueHanger st tag).moveCounter = s.moveCounter := by unfold State.rescueHanger; (repeat' split) <;> simp
@[simp] theorem State.rescueHanger_gantryA (s : State) (st tag : Nat) :
    (s.rescueHanger st tag).gantryA = s.gantryA := by unfold State.rescueHanger; (repeat' split) <;> simp
@[simp] theorem State.rescueHanger_gantryB (s : State) (st tag : Nat) :
    (s.rescueHanger st tag).gantryB = s.gantryB := by unfold State.rescueHanger; (repeat' split) <;> simp
@[simp] theorem State.rescueHanger_guardGap (s : State) (st tag : Nat) :
    (s.rescueHanger st tag).guardGap = s.guardGap := by unfold State.rescueHanger; (repeat' split) <;> simp
@[simp] theorem State.rescueHanger_channels (s : State) (st tag : Nat) :
    (s.rescueHanger st tag).channels = s.channels := by unfold State.rescueHanger; (repeat' split) <;> simp
@[simp] theorem State.rescueHanger_gasLimit (s : State) (st tag : Nat) :
    (s.rescueHanger st tag).gasLimit = s.gasLimit := by unfold State.rescueHanger; (repeat' split) <;> simp
@[simp] theorem State.rescueHanger_mode (s : State) (st tag : Nat) :
    (s.rescueHanger st tag).mode = s.mode := by unfold State.rescueHanger; (repeat' split) <;> simp
@[simp] theorem State.rescueHanger_holdAt (s : State) (st tag : Nat) :
    (s.rescueHanger st tag).holdAt = s.holdAt := by unfold State.rescueHanger; (repeat' split) <;> simp
@[simp] theorem State.rescueHanger_grace (s : State) (st tag : Nat) :
    (s.rescueHanger st tag).grace = s.grace := by unfold State.rescueHanger; (repeat' split) <;> simp
@[simp] theorem State.rescueHanger_lines (s : State) (st tag : Nat) :
    (s.rescueHanger st tag).lines = s.lines := by unfold State.rescueHanger; (repeat' split) <;> simp
@[simp] theorem State.rescueHanger_alarmDelay (s : State) (st tag : Nat) :
    (s.rescueHanger st tag).alarmDelay = s.alarmDelay := by unfold State.rescueHanger; (repeat' split) <;> simp
@[simp] theorem State.rescueHanger_pending (s : State) (st tag : Nat) :
    (s.rescueHanger st tag).pending = s.pending := by unfold State.rescueHanger; (repeat' split) <;> simp

/-! ### setReadiness -/

@[simp] theorem State.setReadiness_lineTime (s : State) (st : Nat) (r : Readiness) :
    (s.setReadiness st r).lineTime = s.lineTime := by unfold State.setReadiness; (repeat' split) <;> simp
@[simp] theorem State.setReadiness_stations (s : State) (st : Nat) (r : Readiness) :
    (s.setReadiness st r).stations = s.stations := by unfold State.setReadiness; (repeat' split) <;> simp
@[simp] theorem State.setReadiness_recipes (s : State) (st : Nat) (r : Readiness) :
    (s.setReadiness st r).recipes = s.recipes := by unfold State.setReadiness; (repeat' split) <;> simp
@[simp] theorem State.setReadiness_draft (s : State) (st : Nat) (r : Readiness) :
    (s.setReadiness st r).draft = s.draft := by unfold State.setReadiness; (repeat' split) <;> simp
@[simp] theorem State.setReadiness_hangers (s : State) (st : Nat) (r : Readiness) :
    (s.setReadiness st r).hangers = s.hangers := by unfold State.setReadiness; (repeat' split) <;> simp
@[simp] theorem State.setReadiness_startOrder (s : State) (st : Nat) (r : Readiness) :
    (s.setReadiness st r).startOrder = s.startOrder := by unfold State.setReadiness; (repeat' split) <;> simp
@[simp] theorem State.setReadiness_admissions (s : State) (st : Nat) (r : Readiness) :
    (s.setReadiness st r).admissions = s.admissions := by unfold State.setReadiness; (repeat' split) <;> simp
@[simp] theorem State.setReadiness_moves (s : State) (st : Nat) (r : Readiness) :
    (s.setReadiness st r).moves = s.moves := by unfold State.setReadiness; (repeat' split) <;> simp
@[simp] theorem State.setReadiness_moveCounter (s : State) (st : Nat) (r : Readiness) :
    (s.setReadiness st r).moveCounter = s.moveCounter := by unfold State.setReadiness; (repeat' split) <;> simp
@[simp] theorem State.setReadiness_gantryA (s : State) (st : Nat) (r : Readiness) :
    (s.setReadiness st r).gantryA = s.gantryA := by unfold State.setReadiness; (repeat' split) <;> simp
@[simp] theorem State.setReadiness_gantryB (s : State) (st : Nat) (r : Readiness) :
    (s.setReadiness st r).gantryB = s.gantryB := by unfold State.setReadiness; (repeat' split) <;> simp
@[simp] theorem State.setReadiness_guardGap (s : State) (st : Nat) (r : Readiness) :
    (s.setReadiness st r).guardGap = s.guardGap := by unfold State.setReadiness; (repeat' split) <;> simp
@[simp] theorem State.setReadiness_channels (s : State) (st : Nat) (r : Readiness) :
    (s.setReadiness st r).channels = s.channels := by unfold State.setReadiness; (repeat' split) <;> simp
@[simp] theorem State.setReadiness_gasLimit (s : State) (st : Nat) (r : Readiness) :
    (s.setReadiness st r).gasLimit = s.gasLimit := by unfold State.setReadiness; (repeat' split) <;> simp
@[simp] theorem State.setReadiness_mode (s : State) (st : Nat) (r : Readiness) :
    (s.setReadiness st r).mode = s.mode := by unfold State.setReadiness; (repeat' split) <;> simp
@[simp] theorem State.setReadiness_holdAt (s : State) (st : Nat) (r : Readiness) :
    (s.setReadiness st r).holdAt = s.holdAt := by unfold State.setReadiness; (repeat' split) <;> simp
@[simp] theorem State.setReadiness_grace (s : State) (st : Nat) (r : Readiness) :
    (s.setReadiness st r).grace = s.grace := by unfold State.setReadiness; (repeat' split) <;> simp
@[simp] theorem State.setReadiness_lines (s : State) (st : Nat) (r : Readiness) :
    (s.setReadiness st r).lines = s.lines := by unfold State.setReadiness; (repeat' split) <;> simp
@[simp] theorem State.setReadiness_alarmDelay (s : State) (st : Nat) (r : Readiness) :
    (s.setReadiness st r).alarmDelay = s.alarmDelay := by unfold State.setReadiness; (repeat' split) <;> simp
@[simp] theorem State.setReadiness_pending (s : State) (st : Nat) (r : Readiness) :
    (s.setReadiness st r).pending = s.pending := by unfold State.setReadiness; (repeat' split) <;> simp

/-! ### swapRecipe -/

@[simp] theorem State.swapRecipe_lineTime (s : State) (r : Nat) :
    (s.swapRecipe r).lineTime = s.lineTime := by unfold State.swapRecipe; (repeat' split) <;> simp
@[simp] theorem State.swapRecipe_stations (s : State) (r : Nat) :
    (s.swapRecipe r).stations = s.stations := by unfold State.swapRecipe; (repeat' split) <;> simp
@[simp] theorem State.swapRecipe_draft (s : State) (r : Nat) :
    (s.swapRecipe r).draft = s.draft := by unfold State.swapRecipe; (repeat' split) <;> simp
@[simp] theorem State.swapRecipe_hangers (s : State) (r : Nat) :
    (s.swapRecipe r).hangers = s.hangers := by unfold State.swapRecipe; (repeat' split) <;> simp
@[simp] theorem State.swapRecipe_startOrder (s : State) (r : Nat) :
    (s.swapRecipe r).startOrder = s.startOrder := by unfold State.swapRecipe; (repeat' split) <;> simp
@[simp] theorem State.swapRecipe_admissions (s : State) (r : Nat) :
    (s.swapRecipe r).admissions = s.admissions := by unfold State.swapRecipe; (repeat' split) <;> simp
@[simp] theorem State.swapRecipe_baths (s : State) (r : Nat) :
    (s.swapRecipe r).baths = s.baths := by unfold State.swapRecipe; (repeat' split) <;> simp
@[simp] theorem State.swapRecipe_moves (s : State) (r : Nat) :
    (s.swapRecipe r).moves = s.moves := by unfold State.swapRecipe; (repeat' split) <;> simp
@[simp] theorem State.swapRecipe_moveCounter (s : State) (r : Nat) :
    (s.swapRecipe r).moveCounter = s.moveCounter := by unfold State.swapRecipe; (repeat' split) <;> simp
@[simp] theorem State.swapRecipe_gantryA (s : State) (r : Nat) :
    (s.swapRecipe r).gantryA = s.gantryA := by unfold State.swapRecipe; (repeat' split) <;> simp
@[simp] theorem State.swapRecipe_gantryB (s : State) (r : Nat) :
    (s.swapRecipe r).gantryB = s.gantryB := by unfold State.swapRecipe; (repeat' split) <;> simp
@[simp] theorem State.swapRecipe_guardGap (s : State) (r : Nat) :
    (s.swapRecipe r).guardGap = s.guardGap := by unfold State.swapRecipe; (repeat' split) <;> simp
@[simp] theorem State.swapRecipe_channels (s : State) (r : Nat) :
    (s.swapRecipe r).channels = s.channels := by unfold State.swapRecipe; (repeat' split) <;> simp
@[simp] theorem State.swapRecipe_gasLimit (s : State) (r : Nat) :
    (s.swapRecipe r).gasLimit = s.gasLimit := by unfold State.swapRecipe; (repeat' split) <;> simp
@[simp] theorem State.swapRecipe_mode (s : State) (r : Nat) :
    (s.swapRecipe r).mode = s.mode := by unfold State.swapRecipe; (repeat' split) <;> simp
@[simp] theorem State.swapRecipe_holdAt (s : State) (r : Nat) :
    (s.swapRecipe r).holdAt = s.holdAt := by unfold State.swapRecipe; (repeat' split) <;> simp
@[simp] theorem State.swapRecipe_grace (s : State) (r : Nat) :
    (s.swapRecipe r).grace = s.grace := by unfold State.swapRecipe; (repeat' split) <;> simp
@[simp] theorem State.swapRecipe_lines (s : State) (r : Nat) :
    (s.swapRecipe r).lines = s.lines := by unfold State.swapRecipe; (repeat' split) <;> simp
@[simp] theorem State.swapRecipe_alarmDelay (s : State) (r : Nat) :
    (s.swapRecipe r).alarmDelay = s.alarmDelay := by unfold State.swapRecipe; (repeat' split) <;> simp
@[simp] theorem State.swapRecipe_pending (s : State) (r : Nat) :
    (s.swapRecipe r).pending = s.pending := by unfold State.swapRecipe; (repeat' split) <;> simp

/-! ### leaveRecipe -/

@[simp] theorem State.leaveRecipe_lineTime (s : State) (r : Nat) :
    (s.leaveRecipe r).lineTime = s.lineTime := by unfold State.leaveRecipe; dsimp only; (repeat' split) <;> simp
@[simp] theorem State.leaveRecipe_stations (s : State) (r : Nat) :
    (s.leaveRecipe r).stations = s.stations := by unfold State.leaveRecipe; dsimp only; (repeat' split) <;> simp
@[simp] theorem State.leaveRecipe_draft (s : State) (r : Nat) :
    (s.leaveRecipe r).draft = s.draft := by unfold State.leaveRecipe; dsimp only; (repeat' split) <;> simp
@[simp] theorem State.leaveRecipe_hangers (s : State) (r : Nat) :
    (s.leaveRecipe r).hangers = s.hangers := by unfold State.leaveRecipe; dsimp only; (repeat' split) <;> simp
@[simp] theorem State.leaveRecipe_startOrder (s : State) (r : Nat) :
    (s.leaveRecipe r).startOrder = s.startOrder := by unfold State.leaveRecipe; dsimp only; (repeat' split) <;> simp
@[simp] theorem State.leaveRecipe_admissions (s : State) (r : Nat) :
    (s.leaveRecipe r).admissions = s.admissions := by unfold State.leaveRecipe; dsimp only; (repeat' split) <;> simp
@[simp] theorem State.leaveRecipe_baths (s : State) (r : Nat) :
    (s.leaveRecipe r).baths = s.baths := by unfold State.leaveRecipe; dsimp only; (repeat' split) <;> simp
@[simp] theorem State.leaveRecipe_moves (s : State) (r : Nat) :
    (s.leaveRecipe r).moves = s.moves := by unfold State.leaveRecipe; dsimp only; (repeat' split) <;> simp
@[simp] theorem State.leaveRecipe_moveCounter (s : State) (r : Nat) :
    (s.leaveRecipe r).moveCounter = s.moveCounter := by unfold State.leaveRecipe; dsimp only; (repeat' split) <;> simp
@[simp] theorem State.leaveRecipe_gantryA (s : State) (r : Nat) :
    (s.leaveRecipe r).gantryA = s.gantryA := by unfold State.leaveRecipe; dsimp only; (repeat' split) <;> simp
@[simp] theorem State.leaveRecipe_gantryB (s : State) (r : Nat) :
    (s.leaveRecipe r).gantryB = s.gantryB := by unfold State.leaveRecipe; dsimp only; (repeat' split) <;> simp
@[simp] theorem State.leaveRecipe_guardGap (s : State) (r : Nat) :
    (s.leaveRecipe r).guardGap = s.guardGap := by unfold State.leaveRecipe; dsimp only; (repeat' split) <;> simp
@[simp] theorem State.leaveRecipe_channels (s : State) (r : Nat) :
    (s.leaveRecipe r).channels = s.channels := by unfold State.leaveRecipe; dsimp only; (repeat' split) <;> simp
@[simp] theorem State.leaveRecipe_gasLimit (s : State) (r : Nat) :
    (s.leaveRecipe r).gasLimit = s.gasLimit := by unfold State.leaveRecipe; dsimp only; (repeat' split) <;> simp
@[simp] theorem State.leaveRecipe_mode (s : State) (r : Nat) :
    (s.leaveRecipe r).mode = s.mode := by unfold State.leaveRecipe; dsimp only; (repeat' split) <;> simp
@[simp] theorem State.leaveRecipe_holdAt (s : State) (r : Nat) :
    (s.leaveRecipe r).holdAt = s.holdAt := by unfold State.leaveRecipe; dsimp only; (repeat' split) <;> simp
@[simp] theorem State.leaveRecipe_grace (s : State) (r : Nat) :
    (s.leaveRecipe r).grace = s.grace := by unfold State.leaveRecipe; dsimp only; (repeat' split) <;> simp
@[simp] theorem State.leaveRecipe_lines (s : State) (r : Nat) :
    (s.leaveRecipe r).lines = s.lines := by unfold State.leaveRecipe; dsimp only; (repeat' split) <;> simp
@[simp] theorem State.leaveRecipe_alarmDelay (s : State) (r : Nat) :
    (s.leaveRecipe r).alarmDelay = s.alarmDelay := by unfold State.leaveRecipe; dsimp only; (repeat' split) <;> simp
@[simp] theorem State.leaveRecipe_pending (s : State) (r : Nat) :
    (s.leaveRecipe r).pending = s.pending := by unfold State.leaveRecipe; dsimp only; (repeat' split) <;> simp

/-! ### createNext -/

@[simp] theorem State.createNext_lineTime (s : State) (tag : Nat) (r : SlotRef) :
    (s.createNext tag r).lineTime = s.lineTime := by unfold State.createNext; (repeat' split) <;> simp
@[simp] theorem State.createNext_stations (s : State) (tag : Nat) (r : SlotRef) :
    (s.createNext tag r).stations = s.stations := by unfold State.createNext; (repeat' split) <;> simp
@[simp] theorem State.createNext_recipes (s : State) (tag : Nat) (r : SlotRef) :
    (s.createNext tag r).recipes = s.recipes := by unfold State.createNext; (repeat' split) <;> simp
@[simp] theorem State.createNext_draft (s : State) (tag : Nat) (r : SlotRef) :
    (s.createNext tag r).draft = s.draft := by unfold State.createNext; (repeat' split) <;> simp
@[simp] theorem State.createNext_hangers (s : State) (tag : Nat) (r : SlotRef) :
    (s.createNext tag r).hangers = s.hangers := by unfold State.createNext; (repeat' split) <;> simp
@[simp] theorem State.createNext_startOrder (s : State) (tag : Nat) (r : SlotRef) :
    (s.createNext tag r).startOrder = s.startOrder := by unfold State.createNext; (repeat' split) <;> simp
@[simp] theorem State.createNext_admissions (s : State) (tag : Nat) (r : SlotRef) :
    (s.createNext tag r).admissions = s.admissions := by unfold State.createNext; (repeat' split) <;> simp
@[simp] theorem State.createNext_baths (s : State) (tag : Nat) (r : SlotRef) :
    (s.createNext tag r).baths = s.baths := by unfold State.createNext; (repeat' split) <;> simp
@[simp] theorem State.createNext_gantryA (s : State) (tag : Nat) (r : SlotRef) :
    (s.createNext tag r).gantryA = s.gantryA := by unfold State.createNext; (repeat' split) <;> simp
@[simp] theorem State.createNext_gantryB (s : State) (tag : Nat) (r : SlotRef) :
    (s.createNext tag r).gantryB = s.gantryB := by unfold State.createNext; (repeat' split) <;> simp
@[simp] theorem State.createNext_guardGap (s : State) (tag : Nat) (r : SlotRef) :
    (s.createNext tag r).guardGap = s.guardGap := by unfold State.createNext; (repeat' split) <;> simp
@[simp] theorem State.createNext_channels (s : State) (tag : Nat) (r : SlotRef) :
    (s.createNext tag r).channels = s.channels := by unfold State.createNext; (repeat' split) <;> simp
@[simp] theorem State.createNext_gasLimit (s : State) (tag : Nat) (r : SlotRef) :
    (s.createNext tag r).gasLimit = s.gasLimit := by unfold State.createNext; (repeat' split) <;> simp
@[simp] theorem State.createNext_mode (s : State) (tag : Nat) (r : SlotRef) :
    (s.createNext tag r).mode = s.mode := by unfold State.createNext; (repeat' split) <;> simp
@[simp] theorem State.createNext_holdAt (s : State) (tag : Nat) (r : SlotRef) :
    (s.createNext tag r).holdAt = s.holdAt := by unfold State.createNext; (repeat' split) <;> simp
@[simp] theorem State.createNext_grace (s : State) (tag : Nat) (r : SlotRef) :
    (s.createNext tag r).grace = s.grace := by unfold State.createNext; (repeat' split) <;> simp
@[simp] theorem State.createNext_lines (s : State) (tag : Nat) (r : SlotRef) :
    (s.createNext tag r).lines = s.lines := by unfold State.createNext; (repeat' split) <;> simp
@[simp] theorem State.createNext_alarmDelay (s : State) (tag : Nat) (r : SlotRef) :
    (s.createNext tag r).alarmDelay = s.alarmDelay := by unfold State.createNext; (repeat' split) <;> simp
@[simp] theorem State.createNext_pending (s : State) (tag : Nat) (r : SlotRef) :
    (s.createNext tag r).pending = s.pending := by unfold State.createNext; (repeat' split) <;> simp

/-! ### markIfStale -/

@[simp] theorem State.markIfStale_lineTime (s : State) (tag st : Nat) :
    (s.markIfStale tag st).lineTime = s.lineTime := by unfold State.markIfStale; (repeat' split) <;> simp
@[simp] theorem State.markIfStale_stations (s : State) (tag st : Nat) :
    (s.markIfStale tag st).stations = s.stations := by unfold State.markIfStale; (repeat' split) <;> simp
@[simp] theorem State.markIfStale_recipes (s : State) (tag st : Nat) :
    (s.markIfStale tag st).recipes = s.recipes := by unfold State.markIfStale; (repeat' split) <;> simp
@[simp] theorem State.markIfStale_draft (s : State) (tag st : Nat) :
    (s.markIfStale tag st).draft = s.draft := by unfold State.markIfStale; (repeat' split) <;> simp
@[simp] theorem State.markIfStale_startOrder (s : State) (tag st : Nat) :
    (s.markIfStale tag st).startOrder = s.startOrder := by unfold State.markIfStale; (repeat' split) <;> simp
@[simp] theorem State.markIfStale_admissions (s : State) (tag st : Nat) :
    (s.markIfStale tag st).admissions = s.admissions := by unfold State.markIfStale; (repeat' split) <;> simp
@[simp] theorem State.markIfStale_baths (s : State) (tag st : Nat) :
    (s.markIfStale tag st).baths = s.baths := by unfold State.markIfStale; (repeat' split) <;> simp
@[simp] theorem State.markIfStale_moves (s : State) (tag st : Nat) :
    (s.markIfStale tag st).moves = s.moves := by unfold State.markIfStale; (repeat' split) <;> simp
@[simp] theorem State.markIfStale_moveCounter (s : State) (tag st : Nat) :
    (s.markIfStale tag st).moveCounter = s.moveCounter := by unfold State.markIfStale; (repeat' split) <;> simp
@[simp] theorem State.markIfStale_gantryA (s : State) (tag st : Nat) :
    (s.markIfStale tag st).gantryA = s.gantryA := by unfold State.markIfStale; (repeat' split) <;> simp
@[simp] theorem State.markIfStale_gantryB (s : State) (tag st : Nat) :
    (s.markIfStale tag st).gantryB = s.gantryB := by unfold State.markIfStale; (repeat' split) <;> simp
@[simp] theorem State.markIfStale_guardGap (s : State) (tag st : Nat) :
    (s.markIfStale tag st).guardGap = s.guardGap := by unfold State.markIfStale; (repeat' split) <;> simp
@[simp] theorem State.markIfStale_channels (s : State) (tag st : Nat) :
    (s.markIfStale tag st).channels = s.channels := by unfold State.markIfStale; (repeat' split) <;> simp
@[simp] theorem State.markIfStale_gasLimit (s : State) (tag st : Nat) :
    (s.markIfStale tag st).gasLimit = s.gasLimit := by unfold State.markIfStale; (repeat' split) <;> simp
@[simp] theorem State.markIfStale_mode (s : State) (tag st : Nat) :
    (s.markIfStale tag st).mode = s.mode := by unfold State.markIfStale; (repeat' split) <;> simp
@[simp] theorem State.markIfStale_holdAt (s : State) (tag st : Nat) :
    (s.markIfStale tag st).holdAt = s.holdAt := by unfold State.markIfStale; (repeat' split) <;> simp
@[simp] theorem State.markIfStale_grace (s : State) (tag st : Nat) :
    (s.markIfStale tag st).grace = s.grace := by unfold State.markIfStale; (repeat' split) <;> simp
@[simp] theorem State.markIfStale_lines (s : State) (tag st : Nat) :
    (s.markIfStale tag st).lines = s.lines := by unfold State.markIfStale; (repeat' split) <;> simp
@[simp] theorem State.markIfStale_port0 (s : State) (tag st : Nat) :
    (s.markIfStale tag st).port0 = s.port0 := by unfold State.markIfStale; (repeat' split) <;> simp
@[simp] theorem State.markIfStale_port1 (s : State) (tag st : Nat) :
    (s.markIfStale tag st).port1 = s.port1 := by unfold State.markIfStale; (repeat' split) <;> simp
@[simp] theorem State.markIfStale_port2 (s : State) (tag st : Nat) :
    (s.markIfStale tag st).port2 = s.port2 := by unfold State.markIfStale; (repeat' split) <;> simp
@[simp] theorem State.markIfStale_alarmDelay (s : State) (tag st : Nat) :
    (s.markIfStale tag st).alarmDelay = s.alarmDelay := by unfold State.markIfStale; (repeat' split) <;> simp
@[simp] theorem State.markIfStale_alarm (s : State) (tag st : Nat) :
    (s.markIfStale tag st).alarm = s.alarm := by unfold State.markIfStale; (repeat' split) <;> simp
@[simp] theorem State.markIfStale_pending (s : State) (tag st : Nat) :
    (s.markIfStale tag st).pending = s.pending := by unfold State.markIfStale; (repeat' split) <;> simp

/-! ### openStep -/

@[simp] theorem State.openStep_lineTime (s : State) (tag k : Nat) (r : SlotRef) :
    (s.openStep tag k r).lineTime = s.lineTime := by unfold State.openStep; dsimp only; (repeat' split) <;> simp
@[simp] theorem State.openStep_stations (s : State) (tag k : Nat) (r : SlotRef) :
    (s.openStep tag k r).stations = s.stations := by unfold State.openStep; dsimp only; (repeat' split) <;> simp
@[simp] theorem State.openStep_recipes (s : State) (tag k : Nat) (r : SlotRef) :
    (s.openStep tag k r).recipes = s.recipes := by unfold State.openStep; dsimp only; (repeat' split) <;> simp
@[simp] theorem State.openStep_draft (s : State) (tag k : Nat) (r : SlotRef) :
    (s.openStep tag k r).draft = s.draft := by unfold State.openStep; dsimp only; (repeat' split) <;> simp
@[simp] theorem State.openStep_startOrder (s : State) (tag k : Nat) (r : SlotRef) :
    (s.openStep tag k r).startOrder = s.startOrder := by unfold State.openStep; dsimp only; (repeat' split) <;> simp
@[simp] theorem State.openStep_admissions (s : State) (tag k : Nat) (r : SlotRef) :
    (s.openStep tag k r).admissions = s.admissions := by unfold State.openStep; dsimp only; (repeat' split) <;> simp
@[simp] theorem State.openStep_baths (s : State) (tag k : Nat) (r : SlotRef) :
    (s.openStep tag k r).baths = s.baths := by unfold State.openStep; dsimp only; (repeat' split) <;> simp
@[simp] theorem State.openStep_moves (s : State) (tag k : Nat) (r : SlotRef) :
    (s.openStep tag k r).moves = s.moves := by unfold State.openStep; dsimp only; (repeat' split) <;> simp
@[simp] theorem State.openStep_moveCounter (s : State) (tag k : Nat) (r : SlotRef) :
    (s.openStep tag k r).moveCounter = s.moveCounter := by unfold State.openStep; dsimp only; (repeat' split) <;> simp
@[simp] theorem State.openStep_gantryA (s : State) (tag k : Nat) (r : SlotRef) :
    (s.openStep tag k r).gantryA = s.gantryA := by unfold State.openStep; dsimp only; (repeat' split) <;> simp
@[simp] theorem State.openStep_gantryB (s : State) (tag k : Nat) (r : SlotRef) :
    (s.openStep tag k r).gantryB = s.gantryB := by unfold State.openStep; dsimp only; (repeat' split) <;> simp
@[simp] theorem State.openStep_guardGap (s : State) (tag k : Nat) (r : SlotRef) :
    (s.openStep tag k r).guardGap = s.guardGap := by unfold State.openStep; dsimp only; (repeat' split) <;> simp
@[simp] theorem State.openStep_channels (s : State) (tag k : Nat) (r : SlotRef) :
    (s.openStep tag k r).channels = s.channels := by unfold State.openStep; dsimp only; (repeat' split) <;> simp
@[simp] theorem State.openStep_gasLimit (s : State) (tag k : Nat) (r : SlotRef) :
    (s.openStep tag k r).gasLimit = s.gasLimit := by unfold State.openStep; dsimp only; (repeat' split) <;> simp
@[simp] theorem State.openStep_mode (s : State) (tag k : Nat) (r : SlotRef) :
    (s.openStep tag k r).mode = s.mode := by unfold State.openStep; dsimp only; (repeat' split) <;> simp
@[simp] theorem State.openStep_holdAt (s : State) (tag k : Nat) (r : SlotRef) :
    (s.openStep tag k r).holdAt = s.holdAt := by unfold State.openStep; dsimp only; (repeat' split) <;> simp
@[simp] theorem State.openStep_grace (s : State) (tag k : Nat) (r : SlotRef) :
    (s.openStep tag k r).grace = s.grace := by unfold State.openStep; dsimp only; (repeat' split) <;> simp
@[simp] theorem State.openStep_lines (s : State) (tag k : Nat) (r : SlotRef) :
    (s.openStep tag k r).lines = s.lines := by unfold State.openStep; dsimp only; (repeat' split) <;> simp
@[simp] theorem State.openStep_alarmDelay (s : State) (tag k : Nat) (r : SlotRef) :
    (s.openStep tag k r).alarmDelay = s.alarmDelay := by unfold State.openStep; dsimp only; (repeat' split) <;> simp
@[simp] theorem State.openStep_pending (s : State) (tag k : Nat) (r : SlotRef) :
    (s.openStep tag k r).pending = s.pending := by unfold State.openStep; dsimp only; (repeat' split) <;> simp

/-! ### beginStep -/

@[simp] theorem State.beginStep_lineTime (s : State) (tag k : Nat) (r : SlotRef) :
    (s.beginStep tag k r).lineTime = s.lineTime := by simp [State.beginStep]
@[simp] theorem State.beginStep_stations (s : State) (tag k : Nat) (r : SlotRef) :
    (s.beginStep tag k r).stations = s.stations := by simp [State.beginStep]
@[simp] theorem State.beginStep_recipes (s : State) (tag k : Nat) (r : SlotRef) :
    (s.beginStep tag k r).recipes = s.recipes := by simp [State.beginStep]
@[simp] theorem State.beginStep_draft (s : State) (tag k : Nat) (r : SlotRef) :
    (s.beginStep tag k r).draft = s.draft := by simp [State.beginStep]
@[simp] theorem State.beginStep_startOrder (s : State) (tag k : Nat) (r : SlotRef) :
    (s.beginStep tag k r).startOrder = s.startOrder := by simp [State.beginStep]
@[simp] theorem State.beginStep_admissions (s : State) (tag k : Nat) (r : SlotRef) :
    (s.beginStep tag k r).admissions = s.admissions := by simp [State.beginStep]
@[simp] theorem State.beginStep_baths (s : State) (tag k : Nat) (r : SlotRef) :
    (s.beginStep tag k r).baths = s.baths := by simp [State.beginStep]
@[simp] theorem State.beginStep_gantryA (s : State) (tag k : Nat) (r : SlotRef) :
    (s.beginStep tag k r).gantryA = s.gantryA := by simp [State.beginStep]
@[simp] theorem State.beginStep_gantryB (s : State) (tag k : Nat) (r : SlotRef) :
    (s.beginStep tag k r).gantryB = s.gantryB := by simp [State.beginStep]
@[simp] theorem State.beginStep_guardGap (s : State) (tag k : Nat) (r : SlotRef) :
    (s.beginStep tag k r).guardGap = s.guardGap := by simp [State.beginStep]
@[simp] theorem State.beginStep_channels (s : State) (tag k : Nat) (r : SlotRef) :
    (s.beginStep tag k r).channels = s.channels := by simp [State.beginStep]
@[simp] theorem State.beginStep_gasLimit (s : State) (tag k : Nat) (r : SlotRef) :
    (s.beginStep tag k r).gasLimit = s.gasLimit := by simp [State.beginStep]
@[simp] theorem State.beginStep_mode (s : State) (tag k : Nat) (r : SlotRef) :
    (s.beginStep tag k r).mode = s.mode := by simp [State.beginStep]
@[simp] theorem State.beginStep_holdAt (s : State) (tag k : Nat) (r : SlotRef) :
    (s.beginStep tag k r).holdAt = s.holdAt := by simp [State.beginStep]
@[simp] theorem State.beginStep_grace (s : State) (tag k : Nat) (r : SlotRef) :
    (s.beginStep tag k r).grace = s.grace := by simp [State.beginStep]
@[simp] theorem State.beginStep_lines (s : State) (tag k : Nat) (r : SlotRef) :
    (s.beginStep tag k r).lines = s.lines := by simp [State.beginStep]
@[simp] theorem State.beginStep_alarmDelay (s : State) (tag k : Nat) (r : SlotRef) :
    (s.beginStep tag k r).alarmDelay = s.alarmDelay := by simp [State.beginStep]
@[simp] theorem State.beginStep_pending (s : State) (tag k : Nat) (r : SlotRef) :
    (s.beginStep tag k r).pending = s.pending := by simp [State.beginStep]

/-! ### reachExit -/

@[simp] theorem State.reachExit_lineTime (s : State) (h : Hanger) (r : SlotRef) :
    (s.reachExit h r).lineTime = s.lineTime := by simp [State.reachExit]
@[simp] theorem State.reachExit_recipes (s : State) (h : Hanger) (r : SlotRef) :
    (s.reachExit h r).recipes = s.recipes := by simp [State.reachExit]
@[simp] theorem State.reachExit_draft (s : State) (h : Hanger) (r : SlotRef) :
    (s.reachExit h r).draft = s.draft := by simp [State.reachExit]
@[simp] theorem State.reachExit_startOrder (s : State) (h : Hanger) (r : SlotRef) :
    (s.reachExit h r).startOrder = s.startOrder := by simp [State.reachExit]
@[simp] theorem State.reachExit_admissions (s : State) (h : Hanger) (r : SlotRef) :
    (s.reachExit h r).admissions = s.admissions := by simp [State.reachExit]
@[simp] theorem State.reachExit_baths (s : State) (h : Hanger) (r : SlotRef) :
    (s.reachExit h r).baths = s.baths := by simp [State.reachExit]
@[simp] theorem State.reachExit_moves (s : State) (h : Hanger) (r : SlotRef) :
    (s.reachExit h r).moves = s.moves := by simp [State.reachExit]
@[simp] theorem State.reachExit_moveCounter (s : State) (h : Hanger) (r : SlotRef) :
    (s.reachExit h r).moveCounter = s.moveCounter := by simp [State.reachExit]
@[simp] theorem State.reachExit_gantryA (s : State) (h : Hanger) (r : SlotRef) :
    (s.reachExit h r).gantryA = s.gantryA := by simp [State.reachExit]
@[simp] theorem State.reachExit_gantryB (s : State) (h : Hanger) (r : SlotRef) :
    (s.reachExit h r).gantryB = s.gantryB := by simp [State.reachExit]
@[simp] theorem State.reachExit_guardGap (s : State) (h : Hanger) (r : SlotRef) :
    (s.reachExit h r).guardGap = s.guardGap := by simp [State.reachExit]
@[simp] theorem State.reachExit_channels (s : State) (h : Hanger) (r : SlotRef) :
    (s.reachExit h r).channels = s.channels := by simp [State.reachExit]
@[simp] theorem State.reachExit_gasLimit (s : State) (h : Hanger) (r : SlotRef) :
    (s.reachExit h r).gasLimit = s.gasLimit := by simp [State.reachExit]
@[simp] theorem State.reachExit_mode (s : State) (h : Hanger) (r : SlotRef) :
    (s.reachExit h r).mode = s.mode := by simp [State.reachExit]
@[simp] theorem State.reachExit_holdAt (s : State) (h : Hanger) (r : SlotRef) :
    (s.reachExit h r).holdAt = s.holdAt := by simp [State.reachExit]
@[simp] theorem State.reachExit_grace (s : State) (h : Hanger) (r : SlotRef) :
    (s.reachExit h r).grace = s.grace := by simp [State.reachExit]
@[simp] theorem State.reachExit_lines (s : State) (h : Hanger) (r : SlotRef) :
    (s.reachExit h r).lines = s.lines := by simp [State.reachExit]
@[simp] theorem State.reachExit_alarmDelay (s : State) (h : Hanger) (r : SlotRef) :
    (s.reachExit h r).alarmDelay = s.alarmDelay := by simp [State.reachExit]
@[simp] theorem State.reachExit_pending (s : State) (h : Hanger) (r : SlotRef) :
    (s.reachExit h r).pending = s.pending := by simp [State.reachExit]

/-! ### abortLoaded -/

@[simp] theorem State.abortLoaded_lineTime (s : State) (tag : Nat) :
    (s.abortLoaded tag).lineTime = s.lineTime := by simp [State.abortLoaded]
@[simp] theorem State.abortLoaded_recipes (s : State) (tag : Nat) :
    (s.abortLoaded tag).recipes = s.recipes := by simp [State.abortLoaded]
@[simp] theorem State.abortLoaded_draft (s : State) (tag : Nat) :
    (s.abortLoaded tag).draft = s.draft := by simp [State.abortLoaded]
@[simp] theorem State.abortLoaded_admissions (s : State) (tag : Nat) :
    (s.abortLoaded tag).admissions = s.admissions := by simp [State.abortLoaded]
@[simp] theorem State.abortLoaded_baths (s : State) (tag : Nat) :
    (s.abortLoaded tag).baths = s.baths := by simp [State.abortLoaded]
@[simp] theorem State.abortLoaded_moveCounter (s : State) (tag : Nat) :
    (s.abortLoaded tag).moveCounter = s.moveCounter := by simp [State.abortLoaded]
@[simp] theorem State.abortLoaded_gantryA (s : State) (tag : Nat) :
    (s.abortLoaded tag).gantryA = s.gantryA := by simp [State.abortLoaded]
@[simp] theorem State.abortLoaded_gantryB (s : State) (tag : Nat) :
    (s.abortLoaded tag).gantryB = s.gantryB := by simp [State.abortLoaded]
@[simp] theorem State.abortLoaded_guardGap (s : State) (tag : Nat) :
    (s.abortLoaded tag).guardGap = s.guardGap := by simp [State.abortLoaded]
@[simp] theorem State.abortLoaded_channels (s : State) (tag : Nat) :
    (s.abortLoaded tag).channels = s.channels := by simp [State.abortLoaded]
@[simp] theorem State.abortLoaded_gasLimit (s : State) (tag : Nat) :
    (s.abortLoaded tag).gasLimit = s.gasLimit := by simp [State.abortLoaded]
@[simp] theorem State.abortLoaded_mode (s : State) (tag : Nat) :
    (s.abortLoaded tag).mode = s.mode := by simp [State.abortLoaded]
@[simp] theorem State.abortLoaded_holdAt (s : State) (tag : Nat) :
    (s.abortLoaded tag).holdAt = s.holdAt := by simp [State.abortLoaded]
@[simp] theorem State.abortLoaded_grace (s : State) (tag : Nat) :
    (s.abortLoaded tag).grace = s.grace := by simp [State.abortLoaded]
@[simp] theorem State.abortLoaded_lines (s : State) (tag : Nat) :
    (s.abortLoaded tag).lines = s.lines := by simp [State.abortLoaded]
@[simp] theorem State.abortLoaded_port0 (s : State) (tag : Nat) :
    (s.abortLoaded tag).port0 = s.port0 := by simp [State.abortLoaded]
@[simp] theorem State.abortLoaded_port1 (s : State) (tag : Nat) :
    (s.abortLoaded tag).port1 = s.port1 := by simp [State.abortLoaded]
@[simp] theorem State.abortLoaded_port2 (s : State) (tag : Nat) :
    (s.abortLoaded tag).port2 = s.port2 := by simp [State.abortLoaded]
@[simp] theorem State.abortLoaded_alarmDelay (s : State) (tag : Nat) :
    (s.abortLoaded tag).alarmDelay = s.alarmDelay := by simp [State.abortLoaded]
@[simp] theorem State.abortLoaded_alarm (s : State) (tag : Nat) :
    (s.abortLoaded tag).alarm = s.alarm := by simp [State.abortLoaded]
@[simp] theorem State.abortLoaded_pending (s : State) (tag : Nat) :
    (s.abortLoaded tag).pending = s.pending := by simp [State.abortLoaded]

/-! ### abortInPlace -/

@[simp] theorem State.abortInPlace_lineTime (s : State) (tag : Nat) :
    (s.abortInPlace tag).lineTime = s.lineTime := by simp [State.abortInPlace]
@[simp] theorem State.abortInPlace_recipes (s : State) (tag : Nat) :
    (s.abortInPlace tag).recipes = s.recipes := by simp [State.abortInPlace]
@[simp] theorem State.abortInPlace_draft (s : State) (tag : Nat) :
    (s.abortInPlace tag).draft = s.draft := by simp [State.abortInPlace]
@[simp] theorem State.abortInPlace_startOrder (s : State) (tag : Nat) :
    (s.abortInPlace tag).startOrder = s.startOrder := by simp [State.abortInPlace]
@[simp] theorem State.abortInPlace_admissions (s : State) (tag : Nat) :
    (s.abortInPlace tag).admissions = s.admissions := by simp [State.abortInPlace]
@[simp] theorem State.abortInPlace_baths (s : State) (tag : Nat) :
    (s.abortInPlace tag).baths = s.baths := by simp [State.abortInPlace]
@[simp] theorem State.abortInPlace_moveCounter (s : State) (tag : Nat) :
    (s.abortInPlace tag).moveCounter = s.moveCounter := by simp [State.abortInPlace]
@[simp] theorem State.abortInPlace_gantryA (s : State) (tag : Nat) :
    (s.abortInPlace tag).gantryA = s.gantryA := by simp [State.abortInPlace]
@[simp] theorem State.abortInPlace_gantryB (s : State) (tag : Nat) :
    (s.abortInPlace tag).gantryB = s.gantryB := by simp [State.abortInPlace]
@[simp] theorem State.abortInPlace_guardGap (s : State) (tag : Nat) :
    (s.abortInPlace tag).guardGap = s.guardGap := by simp [State.abortInPlace]
@[simp] theorem State.abortInPlace_channels (s : State) (tag : Nat) :
    (s.abortInPlace tag).channels = s.channels := by simp [State.abortInPlace]
@[simp] theorem State.abortInPlace_gasLimit (s : State) (tag : Nat) :
    (s.abortInPlace tag).gasLimit = s.gasLimit := by simp [State.abortInPlace]
@[simp] theorem State.abortInPlace_mode (s : State) (tag : Nat) :
    (s.abortInPlace tag).mode = s.mode := by simp [State.abortInPlace]
@[simp] theorem State.abortInPlace_holdAt (s : State) (tag : Nat) :
    (s.abortInPlace tag).holdAt = s.holdAt := by simp [State.abortInPlace]
@[simp] theorem State.abortInPlace_grace (s : State) (tag : Nat) :
    (s.abortInPlace tag).grace = s.grace := by simp [State.abortInPlace]
@[simp] theorem State.abortInPlace_lines (s : State) (tag : Nat) :
    (s.abortInPlace tag).lines = s.lines := by simp [State.abortInPlace]
@[simp] theorem State.abortInPlace_alarmDelay (s : State) (tag : Nat) :
    (s.abortInPlace tag).alarmDelay = s.alarmDelay := by simp [State.abortInPlace]
@[simp] theorem State.abortInPlace_pending (s : State) (tag : Nat) :
    (s.abortInPlace tag).pending = s.pending := by simp [State.abortInPlace]

/-! ### makeAbortMove -/

@[simp] theorem State.makeAbortMove_lineTime (s : State) (tag : Nat) :
    (s.makeAbortMove tag).lineTime = s.lineTime := by unfold State.makeAbortMove; (repeat' split) <;> simp
@[simp] theorem State.makeAbortMove_stations (s : State) (tag : Nat) :
    (s.makeAbortMove tag).stations = s.stations := by unfold State.makeAbortMove; (repeat' split) <;> simp
@[simp] theorem State.makeAbortMove_recipes (s : State) (tag : Nat) :
    (s.makeAbortMove tag).recipes = s.recipes := by unfold State.makeAbortMove; (repeat' split) <;> simp
@[simp] theorem State.makeAbortMove_draft (s : State) (tag : Nat) :
    (s.makeAbortMove tag).draft = s.draft := by unfold State.makeAbortMove; (repeat' split) <;> simp
@[simp] theorem State.makeAbortMove_hangers (s : State) (tag : Nat) :
    (s.makeAbortMove tag).hangers = s.hangers := by unfold State.makeAbortMove; (repeat' split) <;> simp
@[simp] theorem State.makeAbortMove_startOrder (s : State) (tag : Nat) :
    (s.makeAbortMove tag).startOrder = s.startOrder := by unfold State.makeAbortMove; (repeat' split) <;> simp
@[simp] theorem State.makeAbortMove_admissions (s : State) (tag : Nat) :
    (s.makeAbortMove tag).admissions = s.admissions := by unfold State.makeAbortMove; (repeat' split) <;> simp
@[simp] theorem State.makeAbortMove_baths (s : State) (tag : Nat) :
    (s.makeAbortMove tag).baths = s.baths := by unfold State.makeAbortMove; (repeat' split) <;> simp
@[simp] theorem State.makeAbortMove_moveCounter (s : State) (tag : Nat) :
    (s.makeAbortMove tag).moveCounter = s.moveCounter := by unfold State.makeAbortMove; (repeat' split) <;> simp
@[simp] theorem State.makeAbortMove_gantryA (s : State) (tag : Nat) :
    (s.makeAbortMove tag).gantryA = s.gantryA := by unfold State.makeAbortMove; (repeat' split) <;> simp
@[simp] theorem State.makeAbortMove_gantryB (s : State) (tag : Nat) :
    (s.makeAbortMove tag).gantryB = s.gantryB := by unfold State.makeAbortMove; (repeat' split) <;> simp
@[simp] theorem State.makeAbortMove_guardGap (s : State) (tag : Nat) :
    (s.makeAbortMove tag).guardGap = s.guardGap := by unfold State.makeAbortMove; (repeat' split) <;> simp
@[simp] theorem State.makeAbortMove_channels (s : State) (tag : Nat) :
    (s.makeAbortMove tag).channels = s.channels := by unfold State.makeAbortMove; (repeat' split) <;> simp
@[simp] theorem State.makeAbortMove_gasLimit (s : State) (tag : Nat) :
    (s.makeAbortMove tag).gasLimit = s.gasLimit := by unfold State.makeAbortMove; (repeat' split) <;> simp
@[simp] theorem State.makeAbortMove_mode (s : State) (tag : Nat) :
    (s.makeAbortMove tag).mode = s.mode := by unfold State.makeAbortMove; (repeat' split) <;> simp
@[simp] theorem State.makeAbortMove_holdAt (s : State) (tag : Nat) :
    (s.makeAbortMove tag).holdAt = s.holdAt := by unfold State.makeAbortMove; (repeat' split) <;> simp
@[simp] theorem State.makeAbortMove_grace (s : State) (tag : Nat) :
    (s.makeAbortMove tag).grace = s.grace := by unfold State.makeAbortMove; (repeat' split) <;> simp
@[simp] theorem State.makeAbortMove_lines (s : State) (tag : Nat) :
    (s.makeAbortMove tag).lines = s.lines := by unfold State.makeAbortMove; (repeat' split) <;> simp
@[simp] theorem State.makeAbortMove_alarmDelay (s : State) (tag : Nat) :
    (s.makeAbortMove tag).alarmDelay = s.alarmDelay := by unfold State.makeAbortMove; (repeat' split) <;> simp
@[simp] theorem State.makeAbortMove_pending (s : State) (tag : Nat) :
    (s.makeAbortMove tag).pending = s.pending := by unfold State.makeAbortMove; (repeat' split) <;> simp

/-! ### abortStrict -/

@[simp] theorem State.abortStrict_lineTime (s : State) (tag : Nat) :
    (s.abortStrict tag).lineTime = s.lineTime := by simp [State.abortStrict]
@[simp] theorem State.abortStrict_stations (s : State) (tag : Nat) :
    (s.abortStrict tag).stations = s.stations := by simp [State.abortStrict]
@[simp] theorem State.abortStrict_recipes (s : State) (tag : Nat) :
    (s.abortStrict tag).recipes = s.recipes := by simp [State.abortStrict]
@[simp] theorem State.abortStrict_draft (s : State) (tag : Nat) :
    (s.abortStrict tag).draft = s.draft := by simp [State.abortStrict]
@[simp] theorem State.abortStrict_startOrder (s : State) (tag : Nat) :
    (s.abortStrict tag).startOrder = s.startOrder := by simp [State.abortStrict]
@[simp] theorem State.abortStrict_admissions (s : State) (tag : Nat) :
    (s.abortStrict tag).admissions = s.admissions := by simp [State.abortStrict]
@[simp] theorem State.abortStrict_baths (s : State) (tag : Nat) :
    (s.abortStrict tag).baths = s.baths := by simp [State.abortStrict]
@[simp] theorem State.abortStrict_moveCounter (s : State) (tag : Nat) :
    (s.abortStrict tag).moveCounter = s.moveCounter := by simp [State.abortStrict]
@[simp] theorem State.abortStrict_gantryA (s : State) (tag : Nat) :
    (s.abortStrict tag).gantryA = s.gantryA := by simp [State.abortStrict]
@[simp] theorem State.abortStrict_gantryB (s : State) (tag : Nat) :
    (s.abortStrict tag).gantryB = s.gantryB := by simp [State.abortStrict]
@[simp] theorem State.abortStrict_guardGap (s : State) (tag : Nat) :
    (s.abortStrict tag).guardGap = s.guardGap := by simp [State.abortStrict]
@[simp] theorem State.abortStrict_channels (s : State) (tag : Nat) :
    (s.abortStrict tag).channels = s.channels := by simp [State.abortStrict]
@[simp] theorem State.abortStrict_gasLimit (s : State) (tag : Nat) :
    (s.abortStrict tag).gasLimit = s.gasLimit := by simp [State.abortStrict]
@[simp] theorem State.abortStrict_mode (s : State) (tag : Nat) :
    (s.abortStrict tag).mode = s.mode := by simp [State.abortStrict]
@[simp] theorem State.abortStrict_holdAt (s : State) (tag : Nat) :
    (s.abortStrict tag).holdAt = s.holdAt := by simp [State.abortStrict]
@[simp] theorem State.abortStrict_grace (s : State) (tag : Nat) :
    (s.abortStrict tag).grace = s.grace := by simp [State.abortStrict]
@[simp] theorem State.abortStrict_lines (s : State) (tag : Nat) :
    (s.abortStrict tag).lines = s.lines := by simp [State.abortStrict]
@[simp] theorem State.abortStrict_alarmDelay (s : State) (tag : Nat) :
    (s.abortStrict tag).alarmDelay = s.alarmDelay := by simp [State.abortStrict]
@[simp] theorem State.abortStrict_pending (s : State) (tag : Nat) :
    (s.abortStrict tag).pending = s.pending := by simp [State.abortStrict]

/-! ### setLink -/

@[simp] theorem State.setLink_lineTime (s : State) (g : GantryId) (l : LinkState) :
    (s.setLink g l).lineTime = s.lineTime := by unfold State.setLink; dsimp only; (repeat' split) <;> simp
@[simp] theorem State.setLink_stations (s : State) (g : GantryId) (l : LinkState) :
    (s.setLink g l).stations = s.stations := by unfold State.setLink; dsimp only; (repeat' split) <;> simp
@[simp] theorem State.setLink_recipes (s : State) (g : GantryId) (l : LinkState) :
    (s.setLink g l).recipes = s.recipes := by unfold State.setLink; dsimp only; (repeat' split) <;> simp
@[simp] theorem State.setLink_draft (s : State) (g : GantryId) (l : LinkState) :
    (s.setLink g l).draft = s.draft := by unfold State.setLink; dsimp only; (repeat' split) <;> simp
@[simp] theorem State.setLink_hangers (s : State) (g : GantryId) (l : LinkState) :
    (s.setLink g l).hangers = s.hangers := by unfold State.setLink; dsimp only; (repeat' split) <;> simp
@[simp] theorem State.setLink_startOrder (s : State) (g : GantryId) (l : LinkState) :
    (s.setLink g l).startOrder = s.startOrder := by unfold State.setLink; dsimp only; (repeat' split) <;> simp
@[simp] theorem State.setLink_admissions (s : State) (g : GantryId) (l : LinkState) :
    (s.setLink g l).admissions = s.admissions := by unfold State.setLink; dsimp only; (repeat' split) <;> simp
@[simp] theorem State.setLink_baths (s : State) (g : GantryId) (l : LinkState) :
    (s.setLink g l).baths = s.baths := by unfold State.setLink; dsimp only; (repeat' split) <;> simp
@[simp] theorem State.setLink_moveCounter (s : State) (g : GantryId) (l : LinkState) :
    (s.setLink g l).moveCounter = s.moveCounter := by unfold State.setLink; dsimp only; (repeat' split) <;> simp
@[simp] theorem State.setLink_guardGap (s : State) (g : GantryId) (l : LinkState) :
    (s.setLink g l).guardGap = s.guardGap := by unfold State.setLink; dsimp only; (repeat' split) <;> simp
@[simp] theorem State.setLink_channels (s : State) (g : GantryId) (l : LinkState) :
    (s.setLink g l).channels = s.channels := by unfold State.setLink; dsimp only; (repeat' split) <;> simp
@[simp] theorem State.setLink_gasLimit (s : State) (g : GantryId) (l : LinkState) :
    (s.setLink g l).gasLimit = s.gasLimit := by unfold State.setLink; dsimp only; (repeat' split) <;> simp
@[simp] theorem State.setLink_mode (s : State) (g : GantryId) (l : LinkState) :
    (s.setLink g l).mode = s.mode := by unfold State.setLink; dsimp only; (repeat' split) <;> simp
@[simp] theorem State.setLink_holdAt (s : State) (g : GantryId) (l : LinkState) :
    (s.setLink g l).holdAt = s.holdAt := by unfold State.setLink; dsimp only; (repeat' split) <;> simp
@[simp] theorem State.setLink_grace (s : State) (g : GantryId) (l : LinkState) :
    (s.setLink g l).grace = s.grace := by unfold State.setLink; dsimp only; (repeat' split) <;> simp
@[simp] theorem State.setLink_lines (s : State) (g : GantryId) (l : LinkState) :
    (s.setLink g l).lines = s.lines := by unfold State.setLink; dsimp only; (repeat' split) <;> simp
@[simp] theorem State.setLink_alarmDelay (s : State) (g : GantryId) (l : LinkState) :
    (s.setLink g l).alarmDelay = s.alarmDelay := by unfold State.setLink; dsimp only; (repeat' split) <;> simp
@[simp] theorem State.setLink_pending (s : State) (g : GantryId) (l : LinkState) :
    (s.setLink g l).pending = s.pending := by unfold State.setLink; dsimp only; (repeat' split) <;> simp

/-! ### endImmersion -/

@[simp] theorem State.endImmersion_lineTime (s : State) (tag : Nat) :
    (s.endImmersion tag).lineTime = s.lineTime := by unfold State.endImmersion; (repeat' split) <;> simp
@[simp] theorem State.endImmersion_stations (s : State) (tag : Nat) :
    (s.endImmersion tag).stations = s.stations := by unfold State.endImmersion; (repeat' split) <;> simp
@[simp] theorem State.endImmersion_recipes (s : State) (tag : Nat) :
    (s.endImmersion tag).recipes = s.recipes := by unfold State.endImmersion; (repeat' split) <;> simp
@[simp] theorem State.endImmersion_draft (s : State) (tag : Nat) :
    (s.endImmersion tag).draft = s.draft := by unfold State.endImmersion; (repeat' split) <;> simp
@[simp] theorem State.endImmersion_startOrder (s : State) (tag : Nat) :
    (s.endImmersion tag).startOrder = s.startOrder := by unfold State.endImmersion; (repeat' split) <;> simp
@[simp] theorem State.endImmersion_admissions (s : State) (tag : Nat) :
    (s.endImmersion tag).admissions = s.admissions := by unfold State.endImmersion; (repeat' split) <;> simp
@[simp] theorem State.endImmersion_baths (s : State) (tag : Nat) :
    (s.endImmersion tag).baths = s.baths := by unfold State.endImmersion; (repeat' split) <;> simp
@[simp] theorem State.endImmersion_moves (s : State) (tag : Nat) :
    (s.endImmersion tag).moves = s.moves := by unfold State.endImmersion; (repeat' split) <;> simp
@[simp] theorem State.endImmersion_moveCounter (s : State) (tag : Nat) :
    (s.endImmersion tag).moveCounter = s.moveCounter := by unfold State.endImmersion; (repeat' split) <;> simp
@[simp] theorem State.endImmersion_gantryA (s : State) (tag : Nat) :
    (s.endImmersion tag).gantryA = s.gantryA := by unfold State.endImmersion; (repeat' split) <;> simp
@[simp] theorem State.endImmersion_gantryB (s : State) (tag : Nat) :
    (s.endImmersion tag).gantryB = s.gantryB := by unfold State.endImmersion; (repeat' split) <;> simp
@[simp] theorem State.endImmersion_guardGap (s : State) (tag : Nat) :
    (s.endImmersion tag).guardGap = s.guardGap := by unfold State.endImmersion; (repeat' split) <;> simp
@[simp] theorem State.endImmersion_channels (s : State) (tag : Nat) :
    (s.endImmersion tag).channels = s.channels := by unfold State.endImmersion; (repeat' split) <;> simp
@[simp] theorem State.endImmersion_gasLimit (s : State) (tag : Nat) :
    (s.endImmersion tag).gasLimit = s.gasLimit := by unfold State.endImmersion; (repeat' split) <;> simp
@[simp] theorem State.endImmersion_mode (s : State) (tag : Nat) :
    (s.endImmersion tag).mode = s.mode := by unfold State.endImmersion; (repeat' split) <;> simp
@[simp] theorem State.endImmersion_holdAt (s : State) (tag : Nat) :
    (s.endImmersion tag).holdAt = s.holdAt := by unfold State.endImmersion; (repeat' split) <;> simp
@[simp] theorem State.endImmersion_grace (s : State) (tag : Nat) :
    (s.endImmersion tag).grace = s.grace := by unfold State.endImmersion; (repeat' split) <;> simp
@[simp] theorem State.endImmersion_lines (s : State) (tag : Nat) :
    (s.endImmersion tag).lines = s.lines := by unfold State.endImmersion; (repeat' split) <;> simp
@[simp] theorem State.endImmersion_alarmDelay (s : State) (tag : Nat) :
    (s.endImmersion tag).alarmDelay = s.alarmDelay := by unfold State.endImmersion; (repeat' split) <;> simp
@[simp] theorem State.endImmersion_pending (s : State) (tag : Nat) :
    (s.endImmersion tag).pending = s.pending := by unfold State.endImmersion; (repeat' split) <;> simp

/-! ### standIdle -/

@[simp] theorem State.standIdle_lineTime (s : State) (g : GantryId) (x : Nat) :
    (s.standIdle g x).lineTime = s.lineTime := by unfold State.standIdle; dsimp only; (repeat' split) <;> simp
@[simp] theorem State.standIdle_stations (s : State) (g : GantryId) (x : Nat) :
    (s.standIdle g x).stations = s.stations := by unfold State.standIdle; dsimp only; (repeat' split) <;> simp
@[simp] theorem State.standIdle_recipes (s : State) (g : GantryId) (x : Nat) :
    (s.standIdle g x).recipes = s.recipes := by unfold State.standIdle; dsimp only; (repeat' split) <;> simp
@[simp] theorem State.standIdle_draft (s : State) (g : GantryId) (x : Nat) :
    (s.standIdle g x).draft = s.draft := by unfold State.standIdle; dsimp only; (repeat' split) <;> simp
@[simp] theorem State.standIdle_hangers (s : State) (g : GantryId) (x : Nat) :
    (s.standIdle g x).hangers = s.hangers := by unfold State.standIdle; dsimp only; (repeat' split) <;> simp
@[simp] theorem State.standIdle_startOrder (s : State) (g : GantryId) (x : Nat) :
    (s.standIdle g x).startOrder = s.startOrder := by unfold State.standIdle; dsimp only; (repeat' split) <;> simp
@[simp] theorem State.standIdle_admissions (s : State) (g : GantryId) (x : Nat) :
    (s.standIdle g x).admissions = s.admissions := by unfold State.standIdle; dsimp only; (repeat' split) <;> simp
@[simp] theorem State.standIdle_baths (s : State) (g : GantryId) (x : Nat) :
    (s.standIdle g x).baths = s.baths := by unfold State.standIdle; dsimp only; (repeat' split) <;> simp
@[simp] theorem State.standIdle_moveCounter (s : State) (g : GantryId) (x : Nat) :
    (s.standIdle g x).moveCounter = s.moveCounter := by unfold State.standIdle; dsimp only; (repeat' split) <;> simp
@[simp] theorem State.standIdle_guardGap (s : State) (g : GantryId) (x : Nat) :
    (s.standIdle g x).guardGap = s.guardGap := by unfold State.standIdle; dsimp only; (repeat' split) <;> simp
@[simp] theorem State.standIdle_channels (s : State) (g : GantryId) (x : Nat) :
    (s.standIdle g x).channels = s.channels := by unfold State.standIdle; dsimp only; (repeat' split) <;> simp
@[simp] theorem State.standIdle_gasLimit (s : State) (g : GantryId) (x : Nat) :
    (s.standIdle g x).gasLimit = s.gasLimit := by unfold State.standIdle; dsimp only; (repeat' split) <;> simp
@[simp] theorem State.standIdle_mode (s : State) (g : GantryId) (x : Nat) :
    (s.standIdle g x).mode = s.mode := by unfold State.standIdle; dsimp only; (repeat' split) <;> simp
@[simp] theorem State.standIdle_holdAt (s : State) (g : GantryId) (x : Nat) :
    (s.standIdle g x).holdAt = s.holdAt := by unfold State.standIdle; dsimp only; (repeat' split) <;> simp
@[simp] theorem State.standIdle_grace (s : State) (g : GantryId) (x : Nat) :
    (s.standIdle g x).grace = s.grace := by unfold State.standIdle; dsimp only; (repeat' split) <;> simp
@[simp] theorem State.standIdle_lines (s : State) (g : GantryId) (x : Nat) :
    (s.standIdle g x).lines = s.lines := by unfold State.standIdle; dsimp only; (repeat' split) <;> simp
@[simp] theorem State.standIdle_alarmDelay (s : State) (g : GantryId) (x : Nat) :
    (s.standIdle g x).alarmDelay = s.alarmDelay := by unfold State.standIdle; dsimp only; (repeat' split) <;> simp
@[simp] theorem State.standIdle_pending (s : State) (g : GantryId) (x : Nat) :
    (s.standIdle g x).pending = s.pending := by unfold State.standIdle; dsimp only; (repeat' split) <;> simp

/-! ### notifyTimeout -/

@[simp] theorem State.notifyTimeout_lineTime (s : State) (g : GantryId) (m : Move) :
    (s.notifyTimeout g m).lineTime = s.lineTime := by unfold State.notifyTimeout; (repeat' split) <;> simp
@[simp] theorem State.notifyTimeout_stations (s : State) (g : GantryId) (m : Move) :
    (s.notifyTimeout g m).stations = s.stations := by unfold State.notifyTimeout; (repeat' split) <;> simp
@[simp] theorem State.notifyTimeout_recipes (s : State) (g : GantryId) (m : Move) :
    (s.notifyTimeout g m).recipes = s.recipes := by unfold State.notifyTimeout; (repeat' split) <;> simp
@[simp] theorem State.notifyTimeout_draft (s : State) (g : GantryId) (m : Move) :
    (s.notifyTimeout g m).draft = s.draft := by unfold State.notifyTimeout; (repeat' split) <;> simp
@[simp] theorem State.notifyTimeout_hangers (s : State) (g : GantryId) (m : Move) :
    (s.notifyTimeout g m).hangers = s.hangers := by unfold State.notifyTimeout; (repeat' split) <;> simp
@[simp] theorem State.notifyTimeout_startOrder (s : State) (g : GantryId) (m : Move) :
    (s.notifyTimeout g m).startOrder = s.startOrder := by unfold State.notifyTimeout; (repeat' split) <;> simp
@[simp] theorem State.notifyTimeout_admissions (s : State) (g : GantryId) (m : Move) :
    (s.notifyTimeout g m).admissions = s.admissions := by unfold State.notifyTimeout; (repeat' split) <;> simp
@[simp] theorem State.notifyTimeout_baths (s : State) (g : GantryId) (m : Move) :
    (s.notifyTimeout g m).baths = s.baths := by unfold State.notifyTimeout; (repeat' split) <;> simp
@[simp] theorem State.notifyTimeout_moves (s : State) (g : GantryId) (m : Move) :
    (s.notifyTimeout g m).moves = s.moves := by unfold State.notifyTimeout; (repeat' split) <;> simp
@[simp] theorem State.notifyTimeout_moveCounter (s : State) (g : GantryId) (m : Move) :
    (s.notifyTimeout g m).moveCounter = s.moveCounter := by unfold State.notifyTimeout; (repeat' split) <;> simp
@[simp] theorem State.notifyTimeout_gantryA (s : State) (g : GantryId) (m : Move) :
    (s.notifyTimeout g m).gantryA = s.gantryA := by unfold State.notifyTimeout; (repeat' split) <;> simp
@[simp] theorem State.notifyTimeout_gantryB (s : State) (g : GantryId) (m : Move) :
    (s.notifyTimeout g m).gantryB = s.gantryB := by unfold State.notifyTimeout; (repeat' split) <;> simp
@[simp] theorem State.notifyTimeout_guardGap (s : State) (g : GantryId) (m : Move) :
    (s.notifyTimeout g m).guardGap = s.guardGap := by unfold State.notifyTimeout; (repeat' split) <;> simp
@[simp] theorem State.notifyTimeout_channels (s : State) (g : GantryId) (m : Move) :
    (s.notifyTimeout g m).channels = s.channels := by unfold State.notifyTimeout; (repeat' split) <;> simp
@[simp] theorem State.notifyTimeout_gasLimit (s : State) (g : GantryId) (m : Move) :
    (s.notifyTimeout g m).gasLimit = s.gasLimit := by unfold State.notifyTimeout; (repeat' split) <;> simp
@[simp] theorem State.notifyTimeout_mode (s : State) (g : GantryId) (m : Move) :
    (s.notifyTimeout g m).mode = s.mode := by unfold State.notifyTimeout; (repeat' split) <;> simp
@[simp] theorem State.notifyTimeout_holdAt (s : State) (g : GantryId) (m : Move) :
    (s.notifyTimeout g m).holdAt = s.holdAt := by unfold State.notifyTimeout; (repeat' split) <;> simp
@[simp] theorem State.notifyTimeout_grace (s : State) (g : GantryId) (m : Move) :
    (s.notifyTimeout g m).grace = s.grace := by unfold State.notifyTimeout; (repeat' split) <;> simp
@[simp] theorem State.notifyTimeout_lines (s : State) (g : GantryId) (m : Move) :
    (s.notifyTimeout g m).lines = s.lines := by unfold State.notifyTimeout; (repeat' split) <;> simp
@[simp] theorem State.notifyTimeout_alarmDelay (s : State) (g : GantryId) (m : Move) :
    (s.notifyTimeout g m).alarmDelay = s.alarmDelay := by unfold State.notifyTimeout; (repeat' split) <;> simp
@[simp] theorem State.notifyTimeout_pending (s : State) (g : GantryId) (m : Move) :
    (s.notifyTimeout g m).pending = s.pending := by unfold State.notifyTimeout; (repeat' split) <;> simp

/-! ### makeYield -/

@[simp] theorem State.makeYield_lineTime (s : State) (g : GantryId) (m : Move) (d : SlotRef) :
    (s.makeYield g m d).lineTime = s.lineTime := by unfold State.makeYield; dsimp only; (repeat' split) <;> simp
@[simp] theorem State.makeYield_stations (s : State) (g : GantryId) (m : Move) (d : SlotRef) :
    (s.makeYield g m d).stations = s.stations := by unfold State.makeYield; dsimp only; (repeat' split) <;> simp
@[simp] theorem State.makeYield_recipes (s : State) (g : GantryId) (m : Move) (d : SlotRef) :
    (s.makeYield g m d).recipes = s.recipes := by unfold State.makeYield; dsimp only; (repeat' split) <;> simp
@[simp] theorem State.makeYield_draft (s : State) (g : GantryId) (m : Move) (d : SlotRef) :
    (s.makeYield g m d).draft = s.draft := by unfold State.makeYield; dsimp only; (repeat' split) <;> simp
@[simp] theorem State.makeYield_hangers (s : State) (g : GantryId) (m : Move) (d : SlotRef) :
    (s.makeYield g m d).hangers = s.hangers := by unfold State.makeYield; dsimp only; (repeat' split) <;> simp
@[simp] theorem State.makeYield_startOrder (s : State) (g : GantryId) (m : Move) (d : SlotRef) :
    (s.makeYield g m d).startOrder = s.startOrder := by unfold State.makeYield; dsimp only; (repeat' split) <;> simp
@[simp] theorem State.makeYield_admissions (s : State) (g : GantryId) (m : Move) (d : SlotRef) :
    (s.makeYield g m d).admissions = s.admissions := by unfold State.makeYield; dsimp only; (repeat' split) <;> simp
@[simp] theorem State.makeYield_baths (s : State) (g : GantryId) (m : Move) (d : SlotRef) :
    (s.makeYield g m d).baths = s.baths := by unfold State.makeYield; dsimp only; (repeat' split) <;> simp
@[simp] theorem State.makeYield_gantryA (s : State) (g : GantryId) (m : Move) (d : SlotRef) :
    (s.makeYield g m d).gantryA = s.gantryA := by unfold State.makeYield; dsimp only; (repeat' split) <;> simp
@[simp] theorem State.makeYield_gantryB (s : State) (g : GantryId) (m : Move) (d : SlotRef) :
    (s.makeYield g m d).gantryB = s.gantryB := by unfold State.makeYield; dsimp only; (repeat' split) <;> simp
@[simp] theorem State.makeYield_guardGap (s : State) (g : GantryId) (m : Move) (d : SlotRef) :
    (s.makeYield g m d).guardGap = s.guardGap := by unfold State.makeYield; dsimp only; (repeat' split) <;> simp
@[simp] theorem State.makeYield_channels (s : State) (g : GantryId) (m : Move) (d : SlotRef) :
    (s.makeYield g m d).channels = s.channels := by unfold State.makeYield; dsimp only; (repeat' split) <;> simp
@[simp] theorem State.makeYield_gasLimit (s : State) (g : GantryId) (m : Move) (d : SlotRef) :
    (s.makeYield g m d).gasLimit = s.gasLimit := by unfold State.makeYield; dsimp only; (repeat' split) <;> simp
@[simp] theorem State.makeYield_mode (s : State) (g : GantryId) (m : Move) (d : SlotRef) :
    (s.makeYield g m d).mode = s.mode := by unfold State.makeYield; dsimp only; (repeat' split) <;> simp
@[simp] theorem State.makeYield_holdAt (s : State) (g : GantryId) (m : Move) (d : SlotRef) :
    (s.makeYield g m d).holdAt = s.holdAt := by unfold State.makeYield; dsimp only; (repeat' split) <;> simp
@[simp] theorem State.makeYield_grace (s : State) (g : GantryId) (m : Move) (d : SlotRef) :
    (s.makeYield g m d).grace = s.grace := by unfold State.makeYield; dsimp only; (repeat' split) <;> simp
@[simp] theorem State.makeYield_lines (s : State) (g : GantryId) (m : Move) (d : SlotRef) :
    (s.makeYield g m d).lines = s.lines := by unfold State.makeYield; dsimp only; (repeat' split) <;> simp
@[simp] theorem State.makeYield_alarmDelay (s : State) (g : GantryId) (m : Move) (d : SlotRef) :
    (s.makeYield g m d).alarmDelay = s.alarmDelay := by unfold State.makeYield; dsimp only; (repeat' split) <;> simp
@[simp] theorem State.makeYield_pending (s : State) (g : GantryId) (m : Move) (d : SlotRef) :
    (s.makeYield g m d).pending = s.pending := by unfold State.makeYield; dsimp only; (repeat' split) <;> simp

/-! ### activateBath -/

@[simp] theorem State.activateBath_lineTime (s : State) (st : Nat) :
    (s.activateBath st).lineTime = s.lineTime := by simp [State.activateBath]
@[simp] theorem State.activateBath_stations (s : State) (st : Nat) :
    (s.activateBath st).stations = s.stations := by simp [State.activateBath]
@[simp] theorem State.activateBath_recipes (s : State) (st : Nat) :
    (s.activateBath st).recipes = s.recipes := by simp [State.activateBath]
@[simp] theorem State.activateBath_draft (s : State) (st : Nat) :
    (s.activateBath st).draft = s.draft := by simp [State.activateBath]
@[simp] theorem State.activateBath_hangers (s : State) (st : Nat) :
    (s.activateBath st).hangers = s.hangers := by simp [State.activateBath]
@[simp] theorem State.activateBath_startOrder (s : State) (st : Nat) :
    (s.activateBath st).startOrder = s.startOrder := by simp [State.activateBath]
@[simp] theorem State.activateBath_admissions (s : State) (st : Nat) :
    (s.activateBath st).admissions = s.admissions := by simp [State.activateBath]
@[simp] theorem State.activateBath_moves (s : State) (st : Nat) :
    (s.activateBath st).moves = s.moves := by simp [State.activateBath]
@[simp] theorem State.activateBath_moveCounter (s : State) (st : Nat) :
    (s.activateBath st).moveCounter = s.moveCounter := by simp [State.activateBath]
@[simp] theorem State.activateBath_gantryA (s : State) (st : Nat) :
    (s.activateBath st).gantryA = s.gantryA := by simp [State.activateBath]
@[simp] theorem State.activateBath_gantryB (s : State) (st : Nat) :
    (s.activateBath st).gantryB = s.gantryB := by simp [State.activateBath]
@[simp] theorem State.activateBath_guardGap (s : State) (st : Nat) :
    (s.activateBath st).guardGap = s.guardGap := by simp [State.activateBath]
@[simp] theorem State.activateBath_channels (s : State) (st : Nat) :
    (s.activateBath st).channels = s.channels := by simp [State.activateBath]
@[simp] theorem State.activateBath_gasLimit (s : State) (st : Nat) :
    (s.activateBath st).gasLimit = s.gasLimit := by simp [State.activateBath]
@[simp] theorem State.activateBath_mode (s : State) (st : Nat) :
    (s.activateBath st).mode = s.mode := by simp [State.activateBath]
@[simp] theorem State.activateBath_holdAt (s : State) (st : Nat) :
    (s.activateBath st).holdAt = s.holdAt := by simp [State.activateBath]
@[simp] theorem State.activateBath_grace (s : State) (st : Nat) :
    (s.activateBath st).grace = s.grace := by simp [State.activateBath]
@[simp] theorem State.activateBath_lines (s : State) (st : Nat) :
    (s.activateBath st).lines = s.lines := by simp [State.activateBath]
@[simp] theorem State.activateBath_alarmDelay (s : State) (st : Nat) :
    (s.activateBath st).alarmDelay = s.alarmDelay := by simp [State.activateBath]
@[simp] theorem State.activateBath_pending (s : State) (st : Nat) :
    (s.activateBath st).pending = s.pending := by simp [State.activateBath]

/-! ### deactivateBath -/

@[simp] theorem State.deactivateBath_lineTime (s : State) (st : Nat) :
    (s.deactivateBath st).lineTime = s.lineTime := by unfold State.deactivateBath; (repeat' split) <;> simp
@[simp] theorem State.deactivateBath_stations (s : State) (st : Nat) :
    (s.deactivateBath st).stations = s.stations := by unfold State.deactivateBath; (repeat' split) <;> simp
@[simp] theorem State.deactivateBath_recipes (s : State) (st : Nat) :
    (s.deactivateBath st).recipes = s.recipes := by unfold State.deactivateBath; (repeat' split) <;> simp
@[simp] theorem State.deactivateBath_draft (s : State) (st : Nat) :
    (s.deactivateBath st).draft = s.draft := by unfold State.deactivateBath; (repeat' split) <;> simp
@[simp] theorem State.deactivateBath_hangers (s : State) (st : Nat) :
    (s.deactivateBath st).hangers = s.hangers := by unfold State.deactivateBath; (repeat' split) <;> simp
@[simp] theorem State.deactivateBath_startOrder (s : State) (st : Nat) :
    (s.deactivateBath st).startOrder = s.startOrder := by unfold State.deactivateBath; (repeat' split) <;> simp
@[simp] theorem State.deactivateBath_admissions (s : State) (st : Nat) :
    (s.deactivateBath st).admissions = s.admissions := by unfold State.deactivateBath; (repeat' split) <;> simp
@[simp] theorem State.deactivateBath_moves (s : State) (st : Nat) :
    (s.deactivateBath st).moves = s.moves := by unfold State.deactivateBath; (repeat' split) <;> simp
@[simp] theorem State.deactivateBath_moveCounter (s : State) (st : Nat) :
    (s.deactivateBath st).moveCounter = s.moveCounter := by unfold State.deactivateBath; (repeat' split) <;> simp
@[simp] theorem State.deactivateBath_gantryA (s : State) (st : Nat) :
    (s.deactivateBath st).gantryA = s.gantryA := by unfold State.deactivateBath; (repeat' split) <;> simp
@[simp] theorem State.deactivateBath_gantryB (s : State) (st : Nat) :
    (s.deactivateBath st).gantryB = s.gantryB := by unfold State.deactivateBath; (repeat' split) <;> simp
@[simp] theorem State.deactivateBath_guardGap (s : State) (st : Nat) :
    (s.deactivateBath st).guardGap = s.guardGap := by unfold State.deactivateBath; (repeat' split) <;> simp
@[simp] theorem State.deactivateBath_gasLimit (s : State) (st : Nat) :
    (s.deactivateBath st).gasLimit = s.gasLimit := by unfold State.deactivateBath; (repeat' split) <;> simp
@[simp] theorem State.deactivateBath_mode (s : State) (st : Nat) :
    (s.deactivateBath st).mode = s.mode := by unfold State.deactivateBath; (repeat' split) <;> simp
@[simp] theorem State.deactivateBath_holdAt (s : State) (st : Nat) :
    (s.deactivateBath st).holdAt = s.holdAt := by unfold State.deactivateBath; (repeat' split) <;> simp
@[simp] theorem State.deactivateBath_grace (s : State) (st : Nat) :
    (s.deactivateBath st).grace = s.grace := by unfold State.deactivateBath; (repeat' split) <;> simp
@[simp] theorem State.deactivateBath_lines (s : State) (st : Nat) :
    (s.deactivateBath st).lines = s.lines := by unfold State.deactivateBath; (repeat' split) <;> simp
@[simp] theorem State.deactivateBath_port0 (s : State) (st : Nat) :
    (s.deactivateBath st).port0 = s.port0 := by unfold State.deactivateBath; (repeat' split) <;> simp
@[simp] theorem State.deactivateBath_port1 (s : State) (st : Nat) :
    (s.deactivateBath st).port1 = s.port1 := by unfold State.deactivateBath; (repeat' split) <;> simp
@[simp] theorem State.deactivateBath_port2 (s : State) (st : Nat) :
    (s.deactivateBath st).port2 = s.port2 := by unfold State.deactivateBath; (repeat' split) <;> simp
@[simp] theorem State.deactivateBath_alarmDelay (s : State) (st : Nat) :
    (s.deactivateBath st).alarmDelay = s.alarmDelay := by unfold State.deactivateBath; (repeat' split) <;> simp
@[simp] theorem State.deactivateBath_alarm (s : State) (st : Nat) :
    (s.deactivateBath st).alarm = s.alarm := by unfold State.deactivateBath; (repeat' split) <;> simp
@[simp] theorem State.deactivateBath_pending (s : State) (st : Nat) :
    (s.deactivateBath st).pending = s.pending := by unfold State.deactivateBath; (repeat' split) <;> simp

/-! ### tripBath -/

@[simp] theorem State.tripBath_lineTime (s : State) (st : Nat) (c : TripCause) :
    (s.tripBath st c).lineTime = s.lineTime := by simp [State.tripBath]
@[simp] theorem State.tripBath_stations (s : State) (st : Nat) (c : TripCause) :
    (s.tripBath st c).stations = s.stations := by simp [State.tripBath]
@[simp] theorem State.tripBath_recipes (s : State) (st : Nat) (c : TripCause) :
    (s.tripBath st c).recipes = s.recipes := by simp [State.tripBath]
@[simp] theorem State.tripBath_draft (s : State) (st : Nat) (c : TripCause) :
    (s.tripBath st c).draft = s.draft := by simp [State.tripBath]
@[simp] theorem State.tripBath_hangers (s : State) (st : Nat) (c : TripCause) :
    (s.tripBath st c).hangers = s.hangers := by simp [State.tripBath]
@[simp] theorem State.tripBath_startOrder (s : State) (st : Nat) (c : TripCause) :
    (s.tripBath st c).startOrder = s.startOrder := by simp [State.tripBath]
@[simp] theorem State.tripBath_admissions (s : State) (st : Nat) (c : TripCause) :
    (s.tripBath st c).admissions = s.admissions := by simp [State.tripBath]
@[simp] theorem State.tripBath_moves (s : State) (st : Nat) (c : TripCause) :
    (s.tripBath st c).moves = s.moves := by simp [State.tripBath]
@[simp] theorem State.tripBath_moveCounter (s : State) (st : Nat) (c : TripCause) :
    (s.tripBath st c).moveCounter = s.moveCounter := by simp [State.tripBath]
@[simp] theorem State.tripBath_gantryA (s : State) (st : Nat) (c : TripCause) :
    (s.tripBath st c).gantryA = s.gantryA := by simp [State.tripBath]
@[simp] theorem State.tripBath_gantryB (s : State) (st : Nat) (c : TripCause) :
    (s.tripBath st c).gantryB = s.gantryB := by simp [State.tripBath]
@[simp] theorem State.tripBath_guardGap (s : State) (st : Nat) (c : TripCause) :
    (s.tripBath st c).guardGap = s.guardGap := by simp [State.tripBath]
@[simp] theorem State.tripBath_gasLimit (s : State) (st : Nat) (c : TripCause) :
    (s.tripBath st c).gasLimit = s.gasLimit := by simp [State.tripBath]
@[simp] theorem State.tripBath_mode (s : State) (st : Nat) (c : TripCause) :
    (s.tripBath st c).mode = s.mode := by simp [State.tripBath]
@[simp] theorem State.tripBath_holdAt (s : State) (st : Nat) (c : TripCause) :
    (s.tripBath st c).holdAt = s.holdAt := by simp [State.tripBath]
@[simp] theorem State.tripBath_grace (s : State) (st : Nat) (c : TripCause) :
    (s.tripBath st c).grace = s.grace := by simp [State.tripBath]
@[simp] theorem State.tripBath_lines (s : State) (st : Nat) (c : TripCause) :
    (s.tripBath st c).lines = s.lines := by simp [State.tripBath]
@[simp] theorem State.tripBath_alarmDelay (s : State) (st : Nat) (c : TripCause) :
    (s.tripBath st c).alarmDelay = s.alarmDelay := by simp [State.tripBath]
@[simp] theorem State.tripBath_pending (s : State) (st : Nat) (c : TripCause) :
    (s.tripBath st c).pending = s.pending := by simp [State.tripBath]

/-! ### convertArea -/

@[simp] theorem State.convertArea_lineTime (s : State) (st : Nat) :
    (s.convertArea st).lineTime = s.lineTime := by unfold State.convertArea; (repeat' split) <;> simp
@[simp] theorem State.convertArea_stations (s : State) (st : Nat) :
    (s.convertArea st).stations = s.stations := by unfold State.convertArea; (repeat' split) <;> simp
@[simp] theorem State.convertArea_recipes (s : State) (st : Nat) :
    (s.convertArea st).recipes = s.recipes := by unfold State.convertArea; (repeat' split) <;> simp
@[simp] theorem State.convertArea_draft (s : State) (st : Nat) :
    (s.convertArea st).draft = s.draft := by unfold State.convertArea; (repeat' split) <;> simp
@[simp] theorem State.convertArea_hangers (s : State) (st : Nat) :
    (s.convertArea st).hangers = s.hangers := by unfold State.convertArea; (repeat' split) <;> simp
@[simp] theorem State.convertArea_startOrder (s : State) (st : Nat) :
    (s.convertArea st).startOrder = s.startOrder := by unfold State.convertArea; (repeat' split) <;> simp
@[simp] theorem State.convertArea_admissions (s : State) (st : Nat) :
    (s.convertArea st).admissions = s.admissions := by unfold State.convertArea; (repeat' split) <;> simp
@[simp] theorem State.convertArea_moves (s : State) (st : Nat) :
    (s.convertArea st).moves = s.moves := by unfold State.convertArea; (repeat' split) <;> simp
@[simp] theorem State.convertArea_moveCounter (s : State) (st : Nat) :
    (s.convertArea st).moveCounter = s.moveCounter := by unfold State.convertArea; (repeat' split) <;> simp
@[simp] theorem State.convertArea_gantryA (s : State) (st : Nat) :
    (s.convertArea st).gantryA = s.gantryA := by unfold State.convertArea; (repeat' split) <;> simp
@[simp] theorem State.convertArea_gantryB (s : State) (st : Nat) :
    (s.convertArea st).gantryB = s.gantryB := by unfold State.convertArea; (repeat' split) <;> simp
@[simp] theorem State.convertArea_guardGap (s : State) (st : Nat) :
    (s.convertArea st).guardGap = s.guardGap := by unfold State.convertArea; (repeat' split) <;> simp
@[simp] theorem State.convertArea_channels (s : State) (st : Nat) :
    (s.convertArea st).channels = s.channels := by unfold State.convertArea; (repeat' split) <;> simp
@[simp] theorem State.convertArea_gasLimit (s : State) (st : Nat) :
    (s.convertArea st).gasLimit = s.gasLimit := by unfold State.convertArea; (repeat' split) <;> simp
@[simp] theorem State.convertArea_mode (s : State) (st : Nat) :
    (s.convertArea st).mode = s.mode := by unfold State.convertArea; (repeat' split) <;> simp
@[simp] theorem State.convertArea_holdAt (s : State) (st : Nat) :
    (s.convertArea st).holdAt = s.holdAt := by unfold State.convertArea; (repeat' split) <;> simp
@[simp] theorem State.convertArea_grace (s : State) (st : Nat) :
    (s.convertArea st).grace = s.grace := by unfold State.convertArea; (repeat' split) <;> simp
@[simp] theorem State.convertArea_lines (s : State) (st : Nat) :
    (s.convertArea st).lines = s.lines := by unfold State.convertArea; (repeat' split) <;> simp
@[simp] theorem State.convertArea_alarmDelay (s : State) (st : Nat) :
    (s.convertArea st).alarmDelay = s.alarmDelay := by unfold State.convertArea; (repeat' split) <;> simp
@[simp] theorem State.convertArea_pending (s : State) (st : Nat) :
    (s.convertArea st).pending = s.pending := by unfold State.convertArea; (repeat' split) <;> simp

/-! ### addArea -/

@[simp] theorem State.addArea_lineTime (s : State) (st a : Nat) :
    (s.addArea st a).lineTime = s.lineTime := by simp [State.addArea]
@[simp] theorem State.addArea_stations (s : State) (st a : Nat) :
    (s.addArea st a).stations = s.stations := by simp [State.addArea]
@[simp] theorem State.addArea_recipes (s : State) (st a : Nat) :
    (s.addArea st a).recipes = s.recipes := by simp [State.addArea]
@[simp] theorem State.addArea_draft (s : State) (st a : Nat) :
    (s.addArea st a).draft = s.draft := by simp [State.addArea]
@[simp] theorem State.addArea_hangers (s : State) (st a : Nat) :
    (s.addArea st a).hangers = s.hangers := by simp [State.addArea]
@[simp] theorem State.addArea_startOrder (s : State) (st a : Nat) :
    (s.addArea st a).startOrder = s.startOrder := by simp [State.addArea]
@[simp] theorem State.addArea_admissions (s : State) (st a : Nat) :
    (s.addArea st a).admissions = s.admissions := by simp [State.addArea]
@[simp] theorem State.addArea_moves (s : State) (st a : Nat) :
    (s.addArea st a).moves = s.moves := by simp [State.addArea]
@[simp] theorem State.addArea_moveCounter (s : State) (st a : Nat) :
    (s.addArea st a).moveCounter = s.moveCounter := by simp [State.addArea]
@[simp] theorem State.addArea_gantryA (s : State) (st a : Nat) :
    (s.addArea st a).gantryA = s.gantryA := by simp [State.addArea]
@[simp] theorem State.addArea_gantryB (s : State) (st a : Nat) :
    (s.addArea st a).gantryB = s.gantryB := by simp [State.addArea]
@[simp] theorem State.addArea_guardGap (s : State) (st a : Nat) :
    (s.addArea st a).guardGap = s.guardGap := by simp [State.addArea]
@[simp] theorem State.addArea_channels (s : State) (st a : Nat) :
    (s.addArea st a).channels = s.channels := by simp [State.addArea]
@[simp] theorem State.addArea_gasLimit (s : State) (st a : Nat) :
    (s.addArea st a).gasLimit = s.gasLimit := by simp [State.addArea]
@[simp] theorem State.addArea_mode (s : State) (st a : Nat) :
    (s.addArea st a).mode = s.mode := by simp [State.addArea]
@[simp] theorem State.addArea_holdAt (s : State) (st a : Nat) :
    (s.addArea st a).holdAt = s.holdAt := by simp [State.addArea]
@[simp] theorem State.addArea_grace (s : State) (st a : Nat) :
    (s.addArea st a).grace = s.grace := by simp [State.addArea]
@[simp] theorem State.addArea_lines (s : State) (st a : Nat) :
    (s.addArea st a).lines = s.lines := by simp [State.addArea]
@[simp] theorem State.addArea_alarmDelay (s : State) (st a : Nat) :
    (s.addArea st a).alarmDelay = s.alarmDelay := by simp [State.addArea]
@[simp] theorem State.addArea_pending (s : State) (st a : Nat) :
    (s.addArea st a).pending = s.pending := by simp [State.addArea]

/-! ### bindEntry -/

@[simp] theorem State.bindEntry_lineTime (s : State) (h : Hanger) :
    (s.bindEntry h).lineTime = s.lineTime := by unfold State.bindEntry; dsimp only; (repeat' split) <;> simp
@[simp] theorem State.bindEntry_stations (s : State) (h : Hanger) :
    (s.bindEntry h).stations = s.stations := by unfold State.bindEntry; dsimp only; (repeat' split) <;> simp
@[simp] theorem State.bindEntry_draft (s : State) (h : Hanger) :
    (s.bindEntry h).draft = s.draft := by unfold State.bindEntry; dsimp only; (repeat' split) <;> simp
@[simp] theorem State.bindEntry_admissions (s : State) (h : Hanger) :
    (s.bindEntry h).admissions = s.admissions := by unfold State.bindEntry; dsimp only; (repeat' split) <;> simp
@[simp] theorem State.bindEntry_baths (s : State) (h : Hanger) :
    (s.bindEntry h).baths = s.baths := by unfold State.bindEntry; dsimp only; (repeat' split) <;> simp
@[simp] theorem State.bindEntry_moves (s : State) (h : Hanger) :
    (s.bindEntry h).moves = s.moves := by unfold State.bindEntry; dsimp only; (repeat' split) <;> simp
@[simp] theorem State.bindEntry_moveCounter (s : State) (h : Hanger) :
    (s.bindEntry h).moveCounter = s.moveCounter := by unfold State.bindEntry; dsimp only; (repeat' split) <;> simp
@[simp] theorem State.bindEntry_gantryA (s : State) (h : Hanger) :
    (s.bindEntry h).gantryA = s.gantryA := by unfold State.bindEntry; dsimp only; (repeat' split) <;> simp
@[simp] theorem State.bindEntry_gantryB (s : State) (h : Hanger) :
    (s.bindEntry h).gantryB = s.gantryB := by unfold State.bindEntry; dsimp only; (repeat' split) <;> simp
@[simp] theorem State.bindEntry_guardGap (s : State) (h : Hanger) :
    (s.bindEntry h).guardGap = s.guardGap := by unfold State.bindEntry; dsimp only; (repeat' split) <;> simp
@[simp] theorem State.bindEntry_channels (s : State) (h : Hanger) :
    (s.bindEntry h).channels = s.channels := by unfold State.bindEntry; dsimp only; (repeat' split) <;> simp
@[simp] theorem State.bindEntry_gasLimit (s : State) (h : Hanger) :
    (s.bindEntry h).gasLimit = s.gasLimit := by unfold State.bindEntry; dsimp only; (repeat' split) <;> simp
@[simp] theorem State.bindEntry_mode (s : State) (h : Hanger) :
    (s.bindEntry h).mode = s.mode := by unfold State.bindEntry; dsimp only; (repeat' split) <;> simp
@[simp] theorem State.bindEntry_holdAt (s : State) (h : Hanger) :
    (s.bindEntry h).holdAt = s.holdAt := by unfold State.bindEntry; dsimp only; (repeat' split) <;> simp
@[simp] theorem State.bindEntry_grace (s : State) (h : Hanger) :
    (s.bindEntry h).grace = s.grace := by unfold State.bindEntry; dsimp only; (repeat' split) <;> simp
@[simp] theorem State.bindEntry_lines (s : State) (h : Hanger) :
    (s.bindEntry h).lines = s.lines := by unfold State.bindEntry; dsimp only; (repeat' split) <;> simp
@[simp] theorem State.bindEntry_port0 (s : State) (h : Hanger) :
    (s.bindEntry h).port0 = s.port0 := by unfold State.bindEntry; dsimp only; (repeat' split) <;> simp
@[simp] theorem State.bindEntry_port1 (s : State) (h : Hanger) :
    (s.bindEntry h).port1 = s.port1 := by unfold State.bindEntry; dsimp only; (repeat' split) <;> simp
@[simp] theorem State.bindEntry_port2 (s : State) (h : Hanger) :
    (s.bindEntry h).port2 = s.port2 := by unfold State.bindEntry; dsimp only; (repeat' split) <;> simp
@[simp] theorem State.bindEntry_alarmDelay (s : State) (h : Hanger) :
    (s.bindEntry h).alarmDelay = s.alarmDelay := by unfold State.bindEntry; dsimp only; (repeat' split) <;> simp
@[simp] theorem State.bindEntry_alarm (s : State) (h : Hanger) :
    (s.bindEntry h).alarm = s.alarm := by unfold State.bindEntry; dsimp only; (repeat' split) <;> simp
@[simp] theorem State.bindEntry_pending (s : State) (h : Hanger) :
    (s.bindEntry h).pending = s.pending := by unfold State.bindEntry; dsimp only; (repeat' split) <;> simp

/-! ### engage -/

@[simp] theorem State.engage_lineTime (s : State) (g : GantryId) (id lo hi : Nat) :
    (s.engage g id lo hi).lineTime = s.lineTime := by simp [State.engage]
@[simp] theorem State.engage_stations (s : State) (g : GantryId) (id lo hi : Nat) :
    (s.engage g id lo hi).stations = s.stations := by simp [State.engage]
@[simp] theorem State.engage_recipes (s : State) (g : GantryId) (id lo hi : Nat) :
    (s.engage g id lo hi).recipes = s.recipes := by simp [State.engage]
@[simp] theorem State.engage_draft (s : State) (g : GantryId) (id lo hi : Nat) :
    (s.engage g id lo hi).draft = s.draft := by simp [State.engage]
@[simp] theorem State.engage_hangers (s : State) (g : GantryId) (id lo hi : Nat) :
    (s.engage g id lo hi).hangers = s.hangers := by simp [State.engage]
@[simp] theorem State.engage_startOrder (s : State) (g : GantryId) (id lo hi : Nat) :
    (s.engage g id lo hi).startOrder = s.startOrder := by simp [State.engage]
@[simp] theorem State.engage_admissions (s : State) (g : GantryId) (id lo hi : Nat) :
    (s.engage g id lo hi).admissions = s.admissions := by simp [State.engage]
@[simp] theorem State.engage_baths (s : State) (g : GantryId) (id lo hi : Nat) :
    (s.engage g id lo hi).baths = s.baths := by simp [State.engage]
@[simp] theorem State.engage_moveCounter (s : State) (g : GantryId) (id lo hi : Nat) :
    (s.engage g id lo hi).moveCounter = s.moveCounter := by simp [State.engage]
@[simp] theorem State.engage_guardGap (s : State) (g : GantryId) (id lo hi : Nat) :
    (s.engage g id lo hi).guardGap = s.guardGap := by simp [State.engage]
@[simp] theorem State.engage_channels (s : State) (g : GantryId) (id lo hi : Nat) :
    (s.engage g id lo hi).channels = s.channels := by simp [State.engage]
@[simp] theorem State.engage_gasLimit (s : State) (g : GantryId) (id lo hi : Nat) :
    (s.engage g id lo hi).gasLimit = s.gasLimit := by simp [State.engage]
@[simp] theorem State.engage_mode (s : State) (g : GantryId) (id lo hi : Nat) :
    (s.engage g id lo hi).mode = s.mode := by simp [State.engage]
@[simp] theorem State.engage_holdAt (s : State) (g : GantryId) (id lo hi : Nat) :
    (s.engage g id lo hi).holdAt = s.holdAt := by simp [State.engage]
@[simp] theorem State.engage_grace (s : State) (g : GantryId) (id lo hi : Nat) :
    (s.engage g id lo hi).grace = s.grace := by simp [State.engage]
@[simp] theorem State.engage_lines (s : State) (g : GantryId) (id lo hi : Nat) :
    (s.engage g id lo hi).lines = s.lines := by simp [State.engage]
@[simp] theorem State.engage_alarmDelay (s : State) (g : GantryId) (id lo hi : Nat) :
    (s.engage g id lo hi).alarmDelay = s.alarmDelay := by simp [State.engage]
@[simp] theorem State.engage_pending (s : State) (g : GantryId) (id lo hi : Nat) :
    (s.engage g id lo hi).pending = s.pending := by simp [State.engage]

/-! ### abortReturned -/

@[simp] theorem State.abortReturned_lineTime (s : State) (tag : Nat) (h : Hanger) :
    (s.abortReturned tag h).lineTime = s.lineTime := by unfold State.abortReturned; (repeat' split) <;> simp
@[simp] theorem State.abortReturned_recipes (s : State) (tag : Nat) (h : Hanger) :
    (s.abortReturned tag h).recipes = s.recipes := by unfold State.abortReturned; (repeat' split) <;> simp
@[simp] theorem State.abortReturned_draft (s : State) (tag : Nat) (h : Hanger) :
    (s.abortReturned tag h).draft = s.draft := by unfold State.abortReturned; (repeat' split) <;> simp
@[simp] theorem State.abortReturned_admissions (s : State) (tag : Nat) (h : Hanger) :
    (s.abortReturned tag h).admissions = s.admissions := by unfold State.abortReturned; (repeat' split) <;> simp
@[simp] theorem State.abortReturned_baths (s : State) (tag : Nat) (h : Hanger) :
    (s.abortReturned tag h).baths = s.baths := by unfold State.abortReturned; (repeat' split) <;> simp
@[simp] theorem State.abortReturned_moveCounter (s : State) (tag : Nat) (h : Hanger) :
    (s.abortReturned tag h).moveCounter = s.moveCounter := by unfold State.abortReturned; (repeat' split) <;> simp
@[simp] theorem State.abortReturned_gantryA (s : State) (tag : Nat) (h : Hanger) :
    (s.abortReturned tag h).gantryA = s.gantryA := by unfold State.abortReturned; (repeat' split) <;> simp
@[simp] theorem State.abortReturned_gantryB (s : State) (tag : Nat) (h : Hanger) :
    (s.abortReturned tag h).gantryB = s.gantryB := by unfold State.abortReturned; (repeat' split) <;> simp
@[simp] theorem State.abortReturned_guardGap (s : State) (tag : Nat) (h : Hanger) :
    (s.abortReturned tag h).guardGap = s.guardGap := by unfold State.abortReturned; (repeat' split) <;> simp
@[simp] theorem State.abortReturned_channels (s : State) (tag : Nat) (h : Hanger) :
    (s.abortReturned tag h).channels = s.channels := by unfold State.abortReturned; (repeat' split) <;> simp
@[simp] theorem State.abortReturned_gasLimit (s : State) (tag : Nat) (h : Hanger) :
    (s.abortReturned tag h).gasLimit = s.gasLimit := by unfold State.abortReturned; (repeat' split) <;> simp
@[simp] theorem State.abortReturned_mode (s : State) (tag : Nat) (h : Hanger) :
    (s.abortReturned tag h).mode = s.mode := by unfold State.abortReturned; (repeat' split) <;> simp
@[simp] theorem State.abortReturned_holdAt (s : State) (tag : Nat) (h : Hanger) :
    (s.abortReturned tag h).holdAt = s.holdAt := by unfold State.abortReturned; (repeat' split) <;> simp
@[simp] theorem State.abortReturned_grace (s : State) (tag : Nat) (h : Hanger) :
    (s.abortReturned tag h).grace = s.grace := by unfold State.abortReturned; (repeat' split) <;> simp
@[simp] theorem State.abortReturned_lines (s : State) (tag : Nat) (h : Hanger) :
    (s.abortReturned tag h).lines = s.lines := by unfold State.abortReturned; (repeat' split) <;> simp
@[simp] theorem State.abortReturned_alarmDelay (s : State) (tag : Nat) (h : Hanger) :
    (s.abortReturned tag h).alarmDelay = s.alarmDelay := by unfold State.abortReturned; (repeat' split) <;> simp
@[simp] theorem State.abortReturned_pending (s : State) (tag : Nat) (h : Hanger) :
    (s.abortReturned tag h).pending = s.pending := by unfold State.abortReturned; (repeat' split) <;> simp

/-! ### returnToReady -/

@[simp] theorem State.returnToReady_lineTime (s : State) (m : Move) :
    (s.returnToReady m).lineTime = s.lineTime := by unfold State.returnToReady; dsimp only; (repeat' split) <;> simp
@[simp] theorem State.returnToReady_recipes (s : State) (m : Move) :
    (s.returnToReady m).recipes = s.recipes := by unfold State.returnToReady; dsimp only; (repeat' split) <;> simp
@[simp] theorem State.returnToReady_draft (s : State) (m : Move) :
    (s.returnToReady m).draft = s.draft := by unfold State.returnToReady; dsimp only; (repeat' split) <;> simp
@[simp] theorem State.returnToReady_admissions (s : State) (m : Move) :
    (s.returnToReady m).admissions = s.admissions := by unfold State.returnToReady; dsimp only; (repeat' split) <;> simp
@[simp] theorem State.returnToReady_baths (s : State) (m : Move) :
    (s.returnToReady m).baths = s.baths := by unfold State.returnToReady; dsimp only; (repeat' split) <;> simp
@[simp] theorem State.returnToReady_moveCounter (s : State) (m : Move) :
    (s.returnToReady m).moveCounter = s.moveCounter := by unfold State.returnToReady; dsimp only; (repeat' split) <;> simp
@[simp] theorem State.returnToReady_gantryA (s : State) (m : Move) :
    (s.returnToReady m).gantryA = s.gantryA := by unfold State.returnToReady; dsimp only; (repeat' split) <;> simp
@[simp] theorem State.returnToReady_gantryB (s : State) (m : Move) :
    (s.returnToReady m).gantryB = s.gantryB := by unfold State.returnToReady; dsimp only; (repeat' split) <;> simp
@[simp] theorem State.returnToReady_guardGap (s : State) (m : Move) :
    (s.returnToReady m).guardGap = s.guardGap := by unfold State.returnToReady; dsimp only; (repeat' split) <;> simp
@[simp] theorem State.returnToReady_channels (s : State) (m : Move) :
    (s.returnToReady m).channels = s.channels := by unfold State.returnToReady; dsimp only; (repeat' split) <;> simp
@[simp] theorem State.returnToReady_gasLimit (s : State) (m : Move) :
    (s.returnToReady m).gasLimit = s.gasLimit := by unfold State.returnToReady; dsimp only; (repeat' split) <;> simp
@[simp] theorem State.returnToReady_mode (s : State) (m : Move) :
    (s.returnToReady m).mode = s.mode := by unfold State.returnToReady; dsimp only; (repeat' split) <;> simp
@[simp] theorem State.returnToReady_holdAt (s : State) (m : Move) :
    (s.returnToReady m).holdAt = s.holdAt := by unfold State.returnToReady; dsimp only; (repeat' split) <;> simp
@[simp] theorem State.returnToReady_grace (s : State) (m : Move) :
    (s.returnToReady m).grace = s.grace := by unfold State.returnToReady; dsimp only; (repeat' split) <;> simp
@[simp] theorem State.returnToReady_lines (s : State) (m : Move) :
    (s.returnToReady m).lines = s.lines := by unfold State.returnToReady; dsimp only; (repeat' split) <;> simp
@[simp] theorem State.returnToReady_alarmDelay (s : State) (m : Move) :
    (s.returnToReady m).alarmDelay = s.alarmDelay := by unfold State.returnToReady; dsimp only; (repeat' split) <;> simp
@[simp] theorem State.returnToReady_pending (s : State) (m : Move) :
    (s.returnToReady m).pending = s.pending := by unfold State.returnToReady; dsimp only; (repeat' split) <;> simp

/-! ### strand -/

@[simp] theorem State.strand_lineTime (s : State) (g : GantryId) (m : Move) :
    (s.strand g m).lineTime = s.lineTime := by unfold State.strand; (repeat' split) <;> simp
@[simp] theorem State.strand_stations (s : State) (g : GantryId) (m : Move) :
    (s.strand g m).stations = s.stations := by unfold State.strand; (repeat' split) <;> simp
@[simp] theorem State.strand_recipes (s : State) (g : GantryId) (m : Move) :
    (s.strand g m).recipes = s.recipes := by unfold State.strand; (repeat' split) <;> simp
@[simp] theorem State.strand_draft (s : State) (g : GantryId) (m : Move) :
    (s.strand g m).draft = s.draft := by unfold State.strand; (repeat' split) <;> simp
@[simp] theorem State.strand_startOrder (s : State) (g : GantryId) (m : Move) :
    (s.strand g m).startOrder = s.startOrder := by unfold State.strand; (repeat' split) <;> simp
@[simp] theorem State.strand_admissions (s : State) (g : GantryId) (m : Move) :
    (s.strand g m).admissions = s.admissions := by unfold State.strand; (repeat' split) <;> simp
@[simp] theorem State.strand_baths (s : State) (g : GantryId) (m : Move) :
    (s.strand g m).baths = s.baths := by unfold State.strand; (repeat' split) <;> simp
@[simp] theorem State.strand_moveCounter (s : State) (g : GantryId) (m : Move) :
    (s.strand g m).moveCounter = s.moveCounter := by unfold State.strand; (repeat' split) <;> simp
@[simp] theorem State.strand_guardGap (s : State) (g : GantryId) (m : Move) :
    (s.strand g m).guardGap = s.guardGap := by unfold State.strand; (repeat' split) <;> simp
@[simp] theorem State.strand_channels (s : State) (g : GantryId) (m : Move) :
    (s.strand g m).channels = s.channels := by unfold State.strand; (repeat' split) <;> simp
@[simp] theorem State.strand_gasLimit (s : State) (g : GantryId) (m : Move) :
    (s.strand g m).gasLimit = s.gasLimit := by unfold State.strand; (repeat' split) <;> simp
@[simp] theorem State.strand_mode (s : State) (g : GantryId) (m : Move) :
    (s.strand g m).mode = s.mode := by unfold State.strand; (repeat' split) <;> simp
@[simp] theorem State.strand_holdAt (s : State) (g : GantryId) (m : Move) :
    (s.strand g m).holdAt = s.holdAt := by unfold State.strand; (repeat' split) <;> simp
@[simp] theorem State.strand_grace (s : State) (g : GantryId) (m : Move) :
    (s.strand g m).grace = s.grace := by unfold State.strand; (repeat' split) <;> simp
@[simp] theorem State.strand_lines (s : State) (g : GantryId) (m : Move) :
    (s.strand g m).lines = s.lines := by unfold State.strand; (repeat' split) <;> simp
@[simp] theorem State.strand_alarmDelay (s : State) (g : GantryId) (m : Move) :
    (s.strand g m).alarmDelay = s.alarmDelay := by unfold State.strand; (repeat' split) <;> simp
@[simp] theorem State.strand_pending (s : State) (g : GantryId) (m : Move) :
    (s.strand g m).pending = s.pending := by unfold State.strand; (repeat' split) <;> simp

/-! ### dispose -/

@[simp] theorem State.dispose_lineTime (s : State) (g : GantryId) (m : Move) :
    (s.dispose g m).lineTime = s.lineTime := by unfold State.dispose; (repeat' split) <;> simp
@[simp] theorem State.dispose_recipes (s : State) (g : GantryId) (m : Move) :
    (s.dispose g m).recipes = s.recipes := by unfold State.dispose; (repeat' split) <;> simp
@[simp] theorem State.dispose_draft (s : State) (g : GantryId) (m : Move) :
    (s.dispose g m).draft = s.draft := by unfold State.dispose; (repeat' split) <;> simp
@[simp] theorem State.dispose_admissions (s : State) (g : GantryId) (m : Move) :
    (s.dispose g m).admissions = s.admissions := by unfold State.dispose; (repeat' split) <;> simp
@[simp] theorem State.dispose_baths (s : State) (g : GantryId) (m : Move) :
    (s.dispose g m).baths = s.baths := by unfold State.dispose; (repeat' split) <;> simp
@[simp] theorem State.dispose_moveCounter (s : State) (g : GantryId) (m : Move) :
    (s.dispose g m).moveCounter = s.moveCounter := by unfold State.dispose; (repeat' split) <;> simp
@[simp] theorem State.dispose_guardGap (s : State) (g : GantryId) (m : Move) :
    (s.dispose g m).guardGap = s.guardGap := by unfold State.dispose; (repeat' split) <;> simp
@[simp] theorem State.dispose_channels (s : State) (g : GantryId) (m : Move) :
    (s.dispose g m).channels = s.channels := by unfold State.dispose; (repeat' split) <;> simp
@[simp] theorem State.dispose_gasLimit (s : State) (g : GantryId) (m : Move) :
    (s.dispose g m).gasLimit = s.gasLimit := by unfold State.dispose; (repeat' split) <;> simp
@[simp] theorem State.dispose_mode (s : State) (g : GantryId) (m : Move) :
    (s.dispose g m).mode = s.mode := by unfold State.dispose; (repeat' split) <;> simp
@[simp] theorem State.dispose_holdAt (s : State) (g : GantryId) (m : Move) :
    (s.dispose g m).holdAt = s.holdAt := by unfold State.dispose; (repeat' split) <;> simp
@[simp] theorem State.dispose_grace (s : State) (g : GantryId) (m : Move) :
    (s.dispose g m).grace = s.grace := by unfold State.dispose; (repeat' split) <;> simp
@[simp] theorem State.dispose_lines (s : State) (g : GantryId) (m : Move) :
    (s.dispose g m).lines = s.lines := by unfold State.dispose; (repeat' split) <;> simp
@[simp] theorem State.dispose_alarmDelay (s : State) (g : GantryId) (m : Move) :
    (s.dispose g m).alarmDelay = s.alarmDelay := by unfold State.dispose; (repeat' split) <;> simp
@[simp] theorem State.dispose_pending (s : State) (g : GantryId) (m : Move) :
    (s.dispose g m).pending = s.pending := by unfold State.dispose; (repeat' split) <;> simp

end Sys2Proof.Machine
end

