-- ==== Sys2Proof/Laws/Lookups.lean ====
section
/-! SUPPORT. What a look-up finds after an update: hangers by tag, moves by identifier, stations, slots and baths by index. -/

namespace Sys2Proof.Machine

/-! ### Hangers and moves -/

theorem State.hanger_congr {s t : State} (h : t.hangers = s.hangers) (tag : Nat) : t.hanger? tag = s.hanger? tag := by
  simp [State.hanger?, h]

theorem State.move_congr {s t : State} (h : t.moves = s.moves) (id : Nat) : t.move? id = s.move? id := by
  simp [State.move?, h]

theorem State.hangerMove_congr {s t : State} (h : t.moves = s.moves) (tag : Nat) : t.hangerMove? tag = s.hangerMove? tag := by
  simp [State.hangerMove?, h]

theorem State.recipe_congr {s t : State} (h : t.recipes = s.recipes) (r : Nat) : t.recipe r = s.recipe r := by
  simp [State.recipe, h]

theorem State.bath_congr {s t : State} (h : t.baths = s.baths) (st : Nat) : t.bath? st = s.bath? st := by
  simp [State.bath?, h]

theorem State.station_congr {s t : State} (h : t.stations = s.stations) (st : Nat) : t.station st = s.station st := by
  simp [State.station, h]

theorem State.slotAt_congr {s t : State} (h : t.stations = s.stations) (r : SlotRef) : t.slotAt r = s.slotAt r := by
  simp [State.slotAt, State.station, h]

/-- The record a tag names is found. -/
theorem State.hanger_tag {s : State} {tag : Nat} {h : Hanger} (hh : s.hanger? tag = some h) : h.tag = tag := by
  have := List.find?_some hh; simpa using this

theorem State.move_id {s : State} {id : Nat} {m : Move} (hm : s.move? id = some m) : m.id = id := by
  have := List.find?_some hm; simpa using this

/-- A change of the records of a tag that keeps the tag. -/
theorem State.hanger_modHanger {s : State} {tag : Nat} {f : Hanger → Hanger} (hf : ∀ h, (f h).tag = h.tag) (tag' : Nat) :
    (s.modHanger tag f).hanger? tag' = if tag' = tag then (s.hanger? tag).map f else s.hanger? tag' := by
  simp only [State.hanger?, State.modHanger]
  induction s.hangers with
  | nil => simp
  | cons a l ih =>
    by_cases h1 : a.tag = tag
    · subst h1
      by_cases h2 : tag' = a.tag
      · subst h2; simp [hf]
      · have h3 : ¬ a.tag = tag' := fun e => h2 e.symm
        simpa [hf, h2, h3] using ih
    · by_cases h2 : a.tag = tag'
      · subst h2; simp [h1]
      · by_cases h3 : tag' = tag
        · subst h3; simpa [h1] using ih
        · simpa [h1, h2, h3] using ih

/-- A change of the moves of an identifier that keeps it. -/
theorem State.move_modMove {s : State} {id : Nat} {f : Move → Move} (hf : ∀ m, (f m).id = m.id) (id' : Nat) :
    (s.modMove id f).move? id' = if id' = id then (s.move? id).map f else s.move? id' := by
  simp only [State.move?, State.modMove]
  induction s.moves with
  | nil => simp
  | cons a l ih =>
    by_cases h1 : a.id = id
    · subst h1
      by_cases h2 : id' = a.id
      · subst h2; simp [hf]
      · have h3 : ¬ a.id = id' := fun e => h2 e.symm
        simpa [hf, h2, h3] using ih
    · by_cases h2 : a.id = id'
      · subst h2; simp [h1]
      · by_cases h3 : id' = id
        · subst h3; simpa [h1] using ih
        · simpa [h1, h2, h3] using ih

/-! ### Stations, slots and baths -/

theorem State.station_modStation {s : State} {st : Nat} {f : Station → Station} (h : st < 24) (st' : Nat) :
    (s.modStation st f).station st' = if st' = st then f (s.station st) else s.station st' := by
  simp only [State.station, State.modStation_stations, Vector.getElem?_setIfInBounds]
  by_cases h2 : st' = st
  · subst h2; simp [h]
  · have h3 : ¬ st = st' := fun e => h2 e.symm
    simp [h2, h3]

theorem State.bath_setBath {s : State} {st : Nat} {b : Option Bath} (h : st < 24) (st' : Nat) :
    (s.setBath st b).bath? st' = if st' = st then b else s.bath? st' := by
  simp only [State.bath?, State.setBath_baths, Vector.getElem?_setIfInBounds]
  by_cases h2 : st' = st
  · subst h2; simp [h]
  · have h3 : ¬ st = st' := fun e => h2 e.symm
    simp [h2, h3]

/-- A bath the machine holds has a station index. -/
theorem State.bath_bound {s : State} {st : Nat} {b : Bath} (h : s.bath? st = some b) : st < 24 := by
  by_contra h2
  have : s.baths[st]? = none := Vector.getElem?_eq_none (by omega)
  simp [State.bath?, this] at h

theorem State.channel_modChannel {s : State} {n : Nat} {f : Channel → Channel} (h : n < 8) (n' : Nat) :
    (s.modChannel n f).channel n' = if n' = n then f (s.channel n) else s.channel n' := by
  simp only [State.channel, State.modChannel_channels, Vector.getElem?_setIfInBounds]
  by_cases h2 : n' = n
  · subst h2; simp [h]
  · have h3 : ¬ n = n' := fun e => h2 e.symm
    simp [h2, h3]

theorem State.recipe_modRecipe {s : State} {r : Nat} {f : Recipe → Recipe} (h : r < 16) (r' : Nat) :
    (s.modRecipe r f).recipe r' = if r' = r then f (s.recipe r) else s.recipe r' := by
  simp only [State.recipe, State.modRecipe_recipes, Vector.getElem?_setIfInBounds]
  by_cases h2 : r' = r
  · subst h2; simp [h]
  · have h3 : ¬ r = r' := fun e => h2 e.symm
    simp [h2, h3]

theorem State.line_modLine {s : State} {n : Nat} {f : RescueLine → RescueLine} (h : n < 4) (n' : Nat) :
    (s.modLine n f).line n' = if n' = n then f (s.line n) else s.line n' := by
  simp only [State.line, State.modLine_lines, Vector.getElem?_setIfInBounds]
  by_cases h2 : n' = n
  · subst h2; simp [h]
  · have h3 : ¬ n = n' := fun e => h2 e.symm
    simp [h2, h3]

theorem State.gantry_modGantry (s : State) (g g' : GantryId) (f : Gantry → Gantry) :
    (s.modGantry g f).gantry g' = if g' = g then f (s.gantry g) else s.gantry g' := by
  cases g <;> cases g' <;> rfl

theorem State.port_modPort (s : State) (p p' : PortId) (f : Port → Port) :
    (s.modPort p f).port p' = if p' = p then f (s.port p) else s.port p' := by
  cases p <;> cases p' <;> rfl

theorem Station.slot_setSlot {stn : Station} {i : Nat} {x : Slot} (h : i < 4) (j : Nat) :
    (stn.setSlot i x).slot j = if j = i then x else stn.slot j := by
  simp only [Station.slot, Station.setSlot, Vector.getElem?_setIfInBounds]
  by_cases h2 : j = i
  · subst h2; simp [h]
  · have h3 : ¬ i = j := fun e => h2 e.symm
    simp [h2, h3]

theorem State.slotAt_setSlot {s : State} {r : SlotRef} {x : Slot} (h : r.station < 24) (h2 : r.slot < 4) (r' : SlotRef) :
    (s.setSlot r x).slotAt r' = if r' = r then x else s.slotAt r' := by
  simp only [State.slotAt, State.setSlot, State.station_modStation h]
  obtain ⟨a, b⟩ := r; obtain ⟨c, d⟩ := r'
  by_cases h3 : c = a
  · subst h3
    simp only [if_true, Station.slot_setSlot h2, SlotRef.mk.injEq, true_and]
  · simp [h3]

theorem Station.slot_releaseAll (stn : Station) (tag i : Nat) :
    (stn.releaseAll tag).slot i = if (stn.slot i).reservedFor tag = true then .free else stn.slot i := by
  by_cases h : i < 4
  · simp [Station.slot, Station.releaseAll, h]
  · have e : ∀ v : Vector Slot 4, v[i]? = none := fun v => Vector.getElem?_eq_none (by omega)
    simp only [Station.slot, Station.releaseAll, e, Option.getD_none]; simp

theorem State.slotAt_releaseAll (s : State) (tag : Nat) (r : SlotRef) :
    (s.releaseAll tag).slotAt r = if (s.slotAt r).reservedFor tag = true then .free else s.slotAt r := by
  by_cases h : r.station < 24
  · simp [State.slotAt, State.station, h, Station.slot_releaseAll]
  · have e : ∀ v : Vector Station 24, v[r.station]? = none := fun v => Vector.getElem?_eq_none (by omega)
    have f : ∀ i, Station.absent.slot i = .free := by
      intro i; simp only [Station.slot, Station.absent, Vector.getElem?_replicate]; split <;> rfl
    simp only [State.slotAt, State.station, e, Option.getD_none, f]; simp

/-! ### Slot operations and the events made with them (R5, R6) -/

@[simp] theorem State.together_some (s t : State) (rest : State → State) : s.together (some t) rest = rest t := rfl

@[simp] theorem State.together_none (s : State) (rest : State → State) : s.together none rest = s := rfl

theorem State.reserve_of {s : State} {r : SlotRef} (h : (s.station r.station).hasSlot r.slot = true) (hf : s.slotAt r = .free)
    (tag : Nat) (k : ReservationKind) : s.reserve r tag k = some (s.setSlot r (.reserved tag k)) := if_pos ⟨h, hf⟩

theorem State.convert_of {s : State} {r : SlotRef} {tag : Nat} (h : s.slotAt r = .reserved tag .forward) :
    s.convert r tag = some (s.setSlot r (.reserved tag .destination)) := if_pos h

theorem State.occupy_of {s : State} {r : SlotRef} {tag : Nat} (h : (s.station r.station).hasSlot r.slot = true)
    (hf : s.slotAt r = .free ∨ (s.slotAt r).reservedFor tag = true) :
    s.occupy r tag = some ((s.setSlot r (.occupied tag)).reportOccupancy r.station (s.station r.station).occupiedCount) :=
  if_pos ⟨h, hf⟩

theorem State.vacate_of {s : State} {r : SlotRef} {tag : Nat} (h : s.slotAt r = .occupied tag) :
    s.vacate r tag = some ((s.setSlot r .free).reportOccupancy r.station (s.station r.station).occupiedCount) := if_pos h

/-- A compare point that is not reached, or is signalled already, leaves `fired` as it is (R78). -/
theorem Hanger.signalled_of_not_due {h : Hanger} {now : LineTime} (hd : h.imm.compareDue now = false) : h.signalled now = h := by
  simp [Hanger.signalled, hd]

/-- A compare point that is reached has been signalled (R78, R171). -/
theorem Hanger.signalled_of_due {h : Hanger} {now : LineTime} (hd : h.imm.compareDue now = true) :
    h.signalled now = { h with imm := { h.imm with fired := true } } := by
  simp [Hanger.signalled, hd]

end Sys2Proof.Machine
end

