-- ==== Sys2Proof/Laws/Claims.lean ====
section
/-! SUPPORT. What the tests of a claim require, in the rules' words of `Safety.lean`: mode, gate, reach and lowering, and the slot
that the destination test chooses. -/

namespace Sys2Proof.Machine

theorem State.acceptsLowering_iff (s : State) (st : Nat) : s.acceptsLowering st = true ↔ LoweringAccepted s st := by
  have h1 : s.bathAccepts st = true ↔
      ((s.station st).supervised = true → ∃ b, s.bath? st = some b ∧ (b.readiness = .ready ∨ b.readiness = .drift) ∧ b.debt = 0) := by
    unfold State.bathAccepts
    split
    · cases s.bath? st <;> simp_all
    · simp_all
  have h2 : s.barRaised st = false ↔ ∀ l, (s.station st).rescueLine = some l → (s.line l).asserted = false := by
    unfold State.barRaised
    cases (s.station st).rescueLine <;> simp
  unfold State.acceptsLowering LoweringAccepted
  rw [Bool.and_eq_true, h1, Bool.not_eq_true', h2]

theorem State.strictExit_iff (s : State) (m : Move) : s.strictExit m = true ↔ StrictExit s m := by
  unfold State.strictExit StrictExit
  cases m.source <;> simp

theorem State.modeAllows_iff (s : State) (m : Move) : s.modeAllows m = true ↔ ModePermits s m := by
  unfold State.modeAllows ModePermits
  cases s.mode <;> simp [State.strictExit_iff]

theorem State.heldByRecipe_iff (s : State) (h : Hanger) : s.heldByRecipe h = true ↔ HeldByRecipe s h := by
  unfold State.heldByRecipe HeldByRecipe Recipe.startable
  cases h.bound <;> cases (s.recipe h.recipe).valid <;> cases (s.recipe h.recipe).staged <;>
    cases (s.recipe h.recipe).active <;> simp

theorem Gantry.reaches_iff (s : State) (g : GantryId) (st : Nat) : (s.gantry g).reaches st = true ↔ InReach s g st := by
  simp [Gantry.reaches, InReach]

/-- The lowest FREE slot of a station. -/
theorem Station.freeSlot_iff (stn : Station) (i : Nat) :
    stn.freeSlot? = some i ↔ i < stn.slotCount ∧ stn.slot i = .free ∧ ∀ j, j < i → stn.slot j ≠ .free := by
  unfold Station.freeSlot?
  rw [List.find?_range_eq_some]
  simp [and_left_comm]

theorem State.candidate_iff (s : State) (g : GantryId) (t : Target) (st : Nat) :
    (st < 24 ∧ s.candidate (s.gantry g).reaches t st = true) ↔ IsCandidate s g t st := by
  have h : (s.station st).freeSlot?.isSome = true ↔ ∃ i, i < (s.station st).slotCount ∧ (s.station st).slot i = .free := by
    unfold Station.freeSlot?
    rw [List.find?_isSome]
    simp
  unfold State.candidate State.serves IsCandidate
  simp only [Bool.and_eq_true, h, Gantry.reaches_iff, State.acceptsLowering_iff]
  constructor
  · rintro ⟨h0, ⟨⟨⟨h1, h2⟩, h3⟩, h4⟩, h5⟩
    exact ⟨by omega, h1, h3, h4, by cases t <;> simpa using h2, h5⟩
  · rintro ⟨h0, h1, h3, h4, h2, h5⟩
    exact ⟨by omega, ⟨⟨⟨h1, by cases t <;> simpa using h2⟩, h3⟩, h4⟩, h5⟩

/-- Station `b` of a list is the one of it nearest a coordinate, ties to the lower index. -/
def State.Nearest (s : State) (x : Nat) (l : List Nat) (b : Nat) : Prop :=
  b ∈ l ∧ ∀ o ∈ l, o ≠ b → railDistance (s.station b).coordinate x < railDistance (s.station o).coordinate x
    ∨ (railDistance (s.station b).coordinate x = railDistance (s.station o).coordinate x ∧ b < o)

theorem State.Nearest.unique {s : State} {x : Nat} {l : List Nat} {a b : Nat} (ha : s.Nearest x l a) (hb : s.Nearest x l b) :
    a = b := by
  by_contra hn
  have h1 := ha.2 b hb.1 (fun e => hn e.symm)
  have h2 := hb.2 a ha.1 hn
  omega

/-- The walk over a rising list of stations ends at the nearest of them. -/
theorem State.fold_nearer (s : State) (x : Nat) (l : List Nat) (h : l.Pairwise (· < ·)) (b : Nat) :
    l.foldl (s.nearer x) none = some b ↔ s.Nearest x l b := by
  have key : ∀ (l : List Nat) (a : Nat), (a :: l).Pairwise (· < ·) →
      ∃ c, l.foldl (s.nearer x) (some a) = some c ∧ s.Nearest x (a :: l) c := by
    intro l
    induction l with
    | nil => exact fun a _ => ⟨a, rfl, by simp, by simp⟩
    | cons n l ih =>
      intro a hp
      obtain ⟨h1, h2⟩ := List.pairwise_cons.1 hp
      have h3 := List.pairwise_cons.1 h2
      have hm : s.nearer x (some a) n = some (if railDistance (s.station n).coordinate x < railDistance (s.station a).coordinate x
          then n else a) := by
        unfold State.nearer; dsimp only; split <;> rfl
      rw [List.foldl_cons, hm]
      have han := h1 n (by simp)
      split
      · rename_i hlt
        obtain ⟨c, hc, hc1, hc2⟩ := ih n h2
        refine ⟨c, hc, List.mem_cons_of_mem _ hc1, fun o ho hoc => ?_⟩
        rcases List.mem_cons.1 ho with rfl | ho
        · by_cases hcn : c = n
          · subst hcn; exact Or.inl hlt
          · have := hc2 n (by simp) (fun e => hcn e.symm); omega
        · exact hc2 o ho hoc
      · rename_i hge
        obtain ⟨c, hc, hc1, hc2⟩ := ih a (List.pairwise_cons.2 ⟨fun o ho => h1 o (by simp [ho]), h3.2⟩)
        refine ⟨c, hc, ?_, fun o ho hoc => ?_⟩
        · rcases List.mem_cons.1 hc1 with rfl | hc1 <;> simp_all
        · rcases List.mem_cons.1 ho with rfl | ho
          · exact hc2 _ (by simp) hoc
          · rcases List.mem_cons.1 ho with rfl | ho
            · by_cases hca : c = a
              · subst hca; omega
              · have h5 := hc2 a (by simp) (fun e => hca e.symm)
                have h6 : a < c := by
                  rcases List.mem_cons.1 hc1 with e | hc1
                  · exact absurd e hca
                  · exact h1 c (by simp [hc1])
                omega
            · exact hc2 o (by simp [ho]) hoc
  cases l with
  | nil => exact ⟨fun e => by simp at e, fun e => absurd e.1 (by simp)⟩
  | cons a l =>
    obtain ⟨c, hc, hn⟩ := key l a h
    rw [List.foldl_cons]
    show l.foldl (s.nearer x) (some a) = some b ↔ _
    rw [hc]
    exact ⟨fun e => by cases e; exact hn, fun e => by rw [State.Nearest.unique hn e]⟩

theorem railDistance_eq (x y : Nat) : railDistance x y = ((x : Int) - y).natAbs := by unfold railDistance; omega

/-- The slot chosen for a target is the one R116 and R117 name. -/
theorem State.chooseSlot_iff (s : State) (g : GantryId) (t : Target) (x : Nat) (r : SlotRef) :
    s.chooseSlot (s.gantry g).reaches t x = some r ↔ IsChosen s g t x r := by
  have hmem : ∀ st, st ∈ (List.range Config.stations).filter (s.candidate (s.gantry g).reaches t) ↔ IsCandidate s g t st := by
    intro st
    rw [List.mem_filter, List.mem_range, ← State.candidate_iff]; rfl
  have hn : ∀ b, s.Nearest x ((List.range Config.stations).filter (s.candidate (s.gantry g).reaches t)) b ↔
      IsCandidate s g t b ∧ ∀ o, IsCandidate s g t o → o ≠ b →
        (((s.station b).coordinate : Int) - x).natAbs < (((s.station o).coordinate : Int) - x).natAbs
        ∨ ((((s.station b).coordinate : Int) - x).natAbs = (((s.station o).coordinate : Int) - x).natAbs ∧ b < o) := by
    intro b
    unfold State.Nearest
    simp only [hmem, railDistance_eq]
  unfold State.chooseSlot
  rw [Option.bind_eq_some_iff]
  simp only [State.fold_nearer s x _ (List.pairwise_lt_range.filter _), hn, Option.map_eq_some_iff, Station.freeSlot_iff]
  unfold IsChosen State.slotAt
  constructor
  · rintro ⟨b, ⟨h1, h2⟩, i, ⟨h3, h4, h5⟩, rfl⟩
    exact ⟨h1, h2, h3, h4, h5⟩
  · rintro ⟨h1, h2, h3, h4, h5⟩
    exact ⟨r.station, ⟨h1, h2⟩, r.slot, ⟨h3, h4, h5⟩, rfl⟩

end Sys2Proof.Machine
end

