-- ==== Sys2Proof/Laws/Requests.lean ====
section
/-! SUPPORT. How a request is taken: a free port hands it to its rule on the state it opens, and what the port's own change
leaves the rule to read. -/

namespace Sys2Proof.Machine

/-- A free port hands a request session to its rule and forms the reply. -/
theorem State.takeRequest_free {s : State} {p : PortId} (h : (s.port p).working = false) (n : Nat)
    (body : State → State × Reply) :
    s.takeRequest p n body = (body (s.opened p n)).1.forming p (body (s.opened p n)).2 := by
  simp [State.takeRequest, h]

/-- A WORKING port ignores a request session. -/
theorem State.takeRequest_working {s : State} {p : PortId} (h : (s.port p).working = true) (n : Nat)
    (body : State → State × Reply) : s.takeRequest p n body = s.ignored p n := by
  simp [State.takeRequest, h]

/-- A typed request on a free port. -/
theorem State.request_free {s : State} {i : Instr} {p : PortId} {c : Nat} {l : List Byte}
    (he : encodeRequest i = some (p, c, l)) (h : (s.port p).working = false) (body : State → State × Reply) :
    s.request i body
      = .next ((body (s.opened p (2 + l.length))).1.forming p (body (s.opened p (2 + l.length))).2) := by
  simp [State.request, he, State.takeRequest_free h]

/-- A typed request on a WORKING port. -/
theorem State.request_working {s : State} {i : Instr} {p : PortId} {c : Nat} {l : List Byte}
    (he : encodeRequest i = some (p, c, l)) (h : (s.port p).working = true) (body : State → State × Reply) :
    s.request i body = .next (s.ignored p (2 + l.length)) := by
  simp [State.request, he, State.takeRequest_working h]

/-- The reply of an unchanged state. -/
@[simp] theorem State.answer_eq (s : State) (st : Status) : s.answer st = (s, Reply.bare st) := rfl

/-- The holder while the reply is formed. -/
@[simp] theorem State.forming_holder (s : State) (p : PortId) (r : Reply) :
    ((s.forming p r).port p).holder = .working r := by cases p <;> rfl

/-! ### The records a rule reads are those the session found -/

@[simp] theorem State.opened_station (s : State) (p : PortId) (n' : Nat) (st : Nat) :
    (s.opened p n').station st = s.station st := by
  cases p <;> rfl
@[simp] theorem State.forming_station (s : State) (p : PortId) (q : Reply) (st : Nat) :
    (s.forming p q).station st = s.station st := by
  cases p <;> rfl
@[simp] theorem State.opened_bath (s : State) (p : PortId) (n' : Nat) (st : Nat) :
    (s.opened p n').bath? st = s.bath? st := by
  cases p <;> rfl
@[simp] theorem State.forming_bath (s : State) (p : PortId) (q : Reply) (st : Nat) :
    (s.forming p q).bath? st = s.bath? st := by
  cases p <;> rfl
@[simp] theorem State.opened_recipe (s : State) (p : PortId) (n' : Nat) (r : Nat) :
    (s.opened p n').recipe r = s.recipe r := by
  cases p <;> rfl
@[simp] theorem State.forming_recipe (s : State) (p : PortId) (q : Reply) (r : Nat) :
    (s.forming p q).recipe r = s.recipe r := by
  cases p <;> rfl
@[simp] theorem State.opened_recipeStep (s : State) (p : PortId) (n' : Nat) (r k : Nat) :
    (s.opened p n').recipeStep? r k = s.recipeStep? r k := by
  cases p <;> rfl
@[simp] theorem State.opened_stepDrip (s : State) (p : PortId) (n' : Nat) (r k : Nat) :
    (s.opened p n').stepDrip r k = s.stepDrip r k := by
  cases p <;> rfl
@[simp] theorem State.opened_channel (s : State) (p : PortId) (n' : Nat) (n : Nat) :
    (s.opened p n').channel n = s.channel n := by
  cases p <;> rfl
@[simp] theorem State.forming_channel (s : State) (p : PortId) (q : Reply) (n : Nat) :
    (s.forming p q).channel n = s.channel n := by
  cases p <;> rfl
@[simp] theorem State.opened_line (s : State) (p : PortId) (n' : Nat) (n : Nat) :
    (s.opened p n').line n = s.line n := by
  cases p <;> rfl
@[simp] theorem State.forming_line (s : State) (p : PortId) (q : Reply) (n : Nat) :
    (s.forming p q).line n = s.line n := by
  cases p <;> rfl
@[simp] theorem State.opened_gantry (s : State) (p : PortId) (n' : Nat) (g : GantryId) :
    (s.opened p n').gantry g = s.gantry g := by
  cases p <;> rfl
@[simp] theorem State.forming_gantry (s : State) (p : PortId) (q : Reply) (g : GantryId) :
    (s.forming p q).gantry g = s.gantry g := by
  cases p <;> rfl
@[simp] theorem State.opened_hanger (s : State) (p : PortId) (n' : Nat) (tag : Nat) :
    (s.opened p n').hanger? tag = s.hanger? tag := by
  cases p <;> rfl
@[simp] theorem State.forming_hanger (s : State) (p : PortId) (q : Reply) (tag : Nat) :
    (s.forming p q).hanger? tag = s.hanger? tag := by
  cases p <;> rfl
@[simp] theorem State.opened_move (s : State) (p : PortId) (n' : Nat) (id : Nat) :
    (s.opened p n').move? id = s.move? id := by
  cases p <;> rfl
@[simp] theorem State.forming_move (s : State) (p : PortId) (q : Reply) (id : Nat) :
    (s.forming p q).move? id = s.move? id := by
  cases p <;> rfl
@[simp] theorem State.opened_hangerMove (s : State) (p : PortId) (n' : Nat) (tag : Nat) :
    (s.opened p n').hangerMove? tag = s.hangerMove? tag := by
  cases p <;> rfl
@[simp] theorem State.forming_hangerMove (s : State) (p : PortId) (q : Reply) (tag : Nat) :
    (s.forming p q).hangerMove? tag = s.hangerMove? tag := by
  cases p <;> rfl
@[simp] theorem State.opened_ownYield (s : State) (p : PortId) (n' : Nat) (g : GantryId) :
    (s.opened p n').ownYield? g = s.ownYield? g := by
  cases p <;> rfl
@[simp] theorem State.forming_ownYield (s : State) (p : PortId) (q : Reply) (g : GantryId) :
    (s.forming p q).ownYield? g = s.ownYield? g := by
  cases p <;> rfl
@[simp] theorem State.opened_slotAt (s : State) (p : PortId) (n' : Nat) (r : SlotRef) :
    (s.opened p n').slotAt r = s.slotAt r := by
  cases p <;> rfl
@[simp] theorem State.forming_slotAt (s : State) (p : PortId) (q : Reply) (r : SlotRef) :
    (s.forming p q).slotAt r = s.slotAt r := by
  cases p <;> rfl
@[simp] theorem State.opened_barRaised (s : State) (p : PortId) (n' : Nat) (st : Nat) :
    (s.opened p n').barRaised st = s.barRaised st := by
  cases p <;> rfl
@[simp] theorem State.opened_bathAccepts (s : State) (p : PortId) (n' : Nat) (st : Nat) :
    (s.opened p n').bathAccepts st = s.bathAccepts st := by
  cases p <;> rfl
@[simp] theorem State.opened_acceptsLowering (s : State) (p : PortId) (n' : Nat) (st : Nat) :
    (s.opened p n').acceptsLowering st = s.acceptsLowering st := by
  cases p <;> rfl
@[simp] theorem State.opened_rateOf (s : State) (p : PortId) (n' : Nat) (st : Nat) :
    (s.opened p n').rateOf st = s.rateOf st := by
  cases p <;> rfl
@[simp] theorem State.opened_gasInUse (s : State) (p : PortId) (n' : Nat) :
    (s.opened p n').gasInUse = s.gasInUse := by
  cases p <;> rfl
@[simp] theorem State.forming_gasInUse (s : State) (p : PortId) (q : Reply) :
    (s.forming p q).gasInUse = s.gasInUse := by
  cases p <;> rfl
@[simp] theorem State.opened_firstDeferred (s : State) (p : PortId) (n' : Nat) :
    (s.opened p n').firstDeferred = s.firstDeferred := by
  cases p <;> rfl
@[simp] theorem State.opened_target (s : State) (p : PortId) (n' : Nat) (h : Hanger) :
    (s.opened p n').target? h = s.target? h := by
  cases p <;> rfl
@[simp] theorem State.opened_canServe (s : State) (p : PortId) (n' : Nat) (g : GantryId) (m : Move) :
    (s.opened p n').canServe g m = s.canServe g m := by
  cases p <;> rfl
@[simp] theorem State.opened_freshId (s : State) (p : PortId) (n' : Nat) :
    (s.opened p n').freshId = s.freshId := by
  cases p <;> rfl
@[simp] theorem State.forming_freshId (s : State) (p : PortId) (q : Reply) :
    (s.forming p q).freshId = s.freshId := by
  cases p <;> rfl
@[simp] theorem State.opened_tags (s : State) (p : PortId) (n' : Nat) :
    (s.opened p n').tags = s.tags := by
  cases p <;> rfl
@[simp] theorem State.forming_tags (s : State) (p : PortId) (q : Reply) :
    (s.forming p q).tags = s.tags := by
  cases p <;> rfl
@[simp] theorem State.opened_lineStation (s : State) (p : PortId) (n' : Nat) (l : Nat) :
    (s.opened p n').lineStation l = s.lineStation l := by
  cases p <;> rfl
@[simp] theorem State.opened_rescuedIn (s : State) (p : PortId) (n' : Nat) (st : Nat) :
    (s.opened p n').rescuedIn st = s.rescuedIn st := by
  cases p <;> rfl
@[simp] theorem State.opened_home (s : State) (p : PortId) (n' : Nat) (g : GantryId) :
    (s.opened p n').home g = s.home g := by
  cases p <;> cases g <;> rfl
@[simp] theorem State.opened_homesApart (s : State) (p : PortId) (n' : Nat) (g : GantryId) (lo hi : Nat) :
    (s.opened p n').homesApart g lo hi = s.homesApart g lo hi := by
  cases p <;> cases g <;> rfl
@[simp] theorem State.opened_spanTest (s : State) (p : PortId) (n' : Nat) (g : GantryId) (lo hi : Nat) :
    (s.opened p n').spanTest g lo hi = s.spanTest g lo hi := by
  cases p <;> cases g <;> rfl
@[simp] theorem State.opened_strandedOn (s : State) (p : PortId) (n' : Nat) (g : GantryId) :
    (s.opened p n').strandedOn g = s.strandedOn g := by
  cases p <;> rfl
@[simp] theorem State.opened_inStrict (s : State) (p : PortId) (n' : Nat) (h : Hanger) :
    (s.opened p n').inStrict h = s.inStrict h := by
  cases p <;> rfl
@[simp] theorem State.opened_ranStrict (s : State) (p : PortId) (n' : Nat) (h : Hanger) :
    (s.opened p n').ranStrict h = s.ranStrict h := by
  cases p <;> rfl
@[simp] theorem State.opened_moveGranted (s : State) (p : PortId) (n' : Nat) (tag : Nat) :
    (s.opened p n').moveGranted tag = s.moveGranted tag := by
  cases p <;> rfl
@[simp] theorem State.opened_offered (s : State) (p : PortId) (n' : Nat) :
    (s.opened p n').offered = s.offered := by
  cases p <;> rfl
@[simp] theorem State.opened_writeConsistent (s : State) (p : PortId) (n' : Nat) (st : Nat) (w : StationWrite) :
    (s.opened p n').writeConsistent st w = s.writeConsistent st w := by
  cases p <;> rfl
@[simp] theorem State.opened_lineFree (s : State) (p : PortId) (n' : Nat) (st rl : Nat) :
    (s.opened p n').lineFree st rl = s.lineFree st rl := by
  cases p <;> rfl
@[simp] theorem State.opened_mapWritable (s : State) (p : PortId) (n' : Nat) :
    (s.opened p n').mapWritable = s.mapWritable := by
  cases p <;> rfl
@[simp] theorem State.opened_walkOrder (s : State) (p : PortId) (n' : Nat) :
    (s.opened p n').walkOrder = s.walkOrder := by
  cases p <;> rfl
@[simp] theorem State.opened_grantedMove (s : State) (p : PortId) (n' : Nat) (g : GantryId) :
    (s.opened p n').grantedMove? g = s.grantedMove? g := by
  cases p <;> rfl
@[simp] theorem State.opened_withdrawable (s : State) (p : PortId) (n' : Nat) (r : SlotRef) :
    (s.opened p n').withdrawable r = s.withdrawable r := by
  cases p <;> rfl
@[simp] theorem State.opened_exitPosition (s : State) (p : PortId) (n' : Nat) (h : Hanger) :
    (s.opened p n').exitPosition h = s.exitPosition h := by
  cases p <;> rfl
@[simp] theorem State.opened_stepOf (s : State) (p : PortId) (n' : Nat) (r : RawStep) :
    (s.opened p n').stepOf r = s.stepOf r := by
  cases p <;> rfl
@[simp] theorem State.opened_exitAllowance (s : State) (p : PortId) (n' : Nat) (st : Nat) :
    (s.opened p n').exitAllowance st = s.exitAllowance st := by
  cases p <;> rfl
@[simp] theorem State.opened_bathStale (s : State) (p : PortId) (n' : Nat) (st : Nat) :
    (s.opened p n').bathStale st = s.bathStale st := by
  cases p <;> rfl
@[simp] theorem State.opened_destCoordinate (s : State) (p : PortId) (n' : Nat) (m : Move) (old : Nat) :
    (s.opened p n').destCoordinate m old = s.destCoordinate m old := by
  cases p <;> rfl
@[simp] theorem State.opened_yieldFails (s : State) (p : PortId) (n' : Nat) (g : GantryId) (m : Move) (x : Nat) :
    (s.opened p n').yieldFails g m x = s.yieldFails g m x := by
  cases p <;> rfl

theorem State.opened_reserve (s : State) (p : PortId) (n : Nat) (r : SlotRef) (tag : Nat) (k : ReservationKind) :
    (s.opened p n).reserve r tag k = (s.reserve r tag k).map (fun t => t.opened p n) := by
  by_cases h : (s.station r.station).hasSlot r.slot = true ∧ s.slotAt r = .free
  · have h' : ((s.opened p n).station r.station).hasSlot r.slot = true ∧ (s.opened p n).slotAt r = .free := by
      simpa using h
    simp only [State.reserve, if_pos h, if_pos h', Option.map_some]; cases p <;> rfl
  · have h' : ¬ (((s.opened p n).station r.station).hasSlot r.slot = true ∧ (s.opened p n).slotAt r = .free) := by
      simpa using h
    simp only [State.reserve, if_neg h, if_neg h', Option.map_none]

theorem State.opened_convert (s : State) (p : PortId) (n : Nat) (r : SlotRef) (tag : Nat) :
    (s.opened p n).convert r tag = (s.convert r tag).map (fun t => t.opened p n) := by
  by_cases h : s.slotAt r = .reserved tag .forward
  · have h' : (s.opened p n).slotAt r = .reserved tag .forward := by simpa using h
    simp only [State.convert, if_pos h, if_pos h', Option.map_some]; cases p <;> rfl
  · have h' : ¬ (s.opened p n).slotAt r = .reserved tag .forward := by simpa using h
    simp only [State.convert, if_neg h, if_neg h', Option.map_none]

/-- Opening a port changes nothing of what a route's reservation does. -/
theorem State.opened_reserveRoute (s : State) (p : PortId) (n tag : Nat) (d : SlotRef) (f : Option SlotRef) :
    (s.opened p n).reserveRoute tag d f = (s.reserveRoute tag d f).map (fun t => t.opened p n) := by
  have h1 : (if (s.opened p n).slotAt d = .reserved tag .destination then some (s.opened p n)
      else if (s.opened p n).slotAt d = .reserved tag .forward then (s.opened p n).convert d tag
      else (s.opened p n).reserve d tag .destination)
    = (if s.slotAt d = .reserved tag .destination then some s
      else if s.slotAt d = .reserved tag .forward then s.convert d tag
      else s.reserve d tag .destination).map (fun t => t.opened p n) := by
    simp only [State.opened_slotAt, State.opened_convert, State.opened_reserve]
    split
    · rfl
    · split <;> rfl
  unfold State.reserveRoute
  dsimp only
  rw [h1]
  cases f with
  | none => rfl
  | some f =>
    cases (if s.slotAt d = .reserved tag .destination then some s
      else if s.slotAt d = .reserved tag .forward then s.convert d tag
      else s.reserve d tag .destination) with
    | none => rfl
    | some t =>
      simp only [Option.map_some, Option.bind_some, State.opened_slotAt, State.opened_reserve]
      split <;> rfl

@[simp] theorem State.opened_routeFor (s : State) (p : PortId) (n : Nat) (g : GantryId) (m : Move) :
    (s.opened p n).routeFor g m = s.routeFor g m := by
  have h1 : (s.opened p n).destinationFor g m = s.destinationFor g m := by cases p <;> rfl
  have h2 : ∀ h d, (s.opened p n).forwardFor g h d = s.forwardFor g h d := by intro h d; cases p <;> rfl
  have h3 : (s.opened p n).hanger? = s.hanger? := by cases p <;> rfl
  unfold State.routeFor
  simp only [h1, h2, h3, State.opened_station, State.opened_reserveRoute, Option.isSome_map]

@[simp] theorem State.opened_trial (s : State) (p : PortId) (n : Nat) (g : GantryId) (m : Move) :
    (s.opened p n).trial g m = s.trial g m := by
  have h1 : (s.opened p n).modeAllows m = s.modeAllows m := by cases p <;> rfl
  have h2 : (s.opened p n).gatePasses m = s.gatePasses m := by cases p <;> rfl
  have h3 : (s.opened p n).reachPasses g m = s.reachPasses g m := by cases p <;> rfl
  have h4 : ∀ d, (s.opened p n).protectionPasses g m d = s.protectionPasses g m d := by intro d; cases p <;> rfl
  have h5 : ∀ d, (s.opened p n).spanLowFor g m d = s.spanLowFor g m d := by intro d; cases p <;> rfl
  have h6 : ∀ d, (s.opened p n).spanHighFor g m d = s.spanHighFor g m d := by intro d; cases p <;> rfl
  unfold State.trial
  simp only [h1, h2, h3, h4, h5, h6, State.opened_routeFor, State.opened_spanTest]

theorem State.opened_stepsFault (s : State) (p : PortId) (n : Nat) (again : Bool) (v : List RecipeStep) :
    ∀ i prev, (s.opened p n).stepsFault again i prev v = s.stepsFault again i prev v := by
  have hf : ∀ prev k, (s.opened p n).stepFault again prev k = s.stepFault again prev k := by
    intro prev k; cases p <;> rfl
  induction v with
  | nil => intro i prev; rfl
  | cons k ks ih => intro i prev; simp only [State.stepsFault, hf, ih]

@[simp] theorem State.opened_versionFault (s : State) (p : PortId) (n : Nat) (again : Bool) (v : List RecipeStep) :
    (s.opened p n).versionFault again v = s.versionFault again v := by
  have hu : (s.opened p n).hasUnload = s.hasUnload := by cases p <;> rfl
  simp only [State.versionFault, State.opened_stepsFault, hu]

end Sys2Proof.Machine
end

