-- ==== Sys2Proof/Laws/Effects.lean ====
section
/-! SUPPORT. What the shared operations can do, said once: a relation between the state before and the state after that every
small update of an event keeps (`Closed`) holds across every operation. Each lemma has the form "related to `t`, so related to
`t` after the operation". -/

namespace Sys2Proof.Machine

/-- The fields of a station record that its slots and its gas channel are not. -/
def Station.settings (x : Station) : Station := { x with slots := Vector.replicate 4 .free, gasChannel := none }

/-- The relation holds across each small update an event makes: records, stations that keep their settings, moves, notices, a channel
that stays lawful and does not open its valve, one that opens it while the gas allows, a valve handed over, and a bath record that
stays lawful. -/
structure Closed (R : State → State → Prop) : Prop where
  refl : ∀ s, R s s
  trans : ∀ {s t u}, R s t → R t u → R s u
  stations : ∀ (s : State) v, (∀ st, ((v[st]?).getD Station.absent).settings = (s.station st).settings) → R s { s with stations := v }
  recipes : ∀ s v, R s { s with recipes := v }
  hangers : ∀ s v, R s { s with hangers := v }
  startOrder : ∀ s v, R s { s with startOrder := v }
  moves : ∀ s v n, R s { s with moves := v, moveCounter := n }
  gantry : ∀ s g f, R s (s.modGantry g f)
  lines : ∀ s v, R s { s with lines := v }
  post : ∀ s p n, R s (s.post p n)
  alarm : ∀ s b, R s { s with alarm := b }
  channel : ∀ s n f, (∀ c, (f c).state = .bursting → c.state = .bursting) → (∀ c, c.Lawful → (f c).Lawful) → R s (s.modChannel n f)
  opens : ∀ s n f, s.gasInUse < s.gasLimit → (∀ c, c.Lawful → (f c).Lawful) → R s (s.modChannel n f)
  handOver : ∀ s n f, (s.channel n).state = .bursting → (∀ c, (f c).state ≠ .bursting) → (∀ c, c.Lawful → (f c).Lawful) →
    R s ((s.modChannel n f).offerValve)
  bathTo : ∀ s st b b', s.bath? st = some b → (b.Lawful → b'.Lawful) → R s (s.setBath st (some b'))
  bathOn : ∀ s st b, b.Lawful → R s (s.setBath st (some b))
  bathOff : ∀ s st, R s (s.setBath st none)
  area : ∀ s st a, R s (s.addArea st a)

namespace Closed

variable {R : State → State → Prop} {s t : State}

/-! ### Small updates -/

theorem modStation (hR : Closed R) (h : R s t) (st f) (hf : ∀ x : Station, (f x).settings = x.settings) : R s (t.modStation st f) := by
  refine hR.trans h (hR.stations _ _ (fun st' => ?_))
  by_cases hb : st < 24
  · have e := State.station_modStation (s := t) (f := f) hb st'
    simp only [State.station, State.modStation_stations] at e ⊢
    rw [e]; split
    · rename_i e2; subst e2; exact hf _
    · rfl
  · rw [show t.stations.setIfInBounds st (f (t.station st)) = t.stations from Vector.setIfInBounds_eq_of_size_le (by omega)]; rfl
theorem modRecipe (hR : Closed R) (h : R s t) (r f) : R s (t.modRecipe r f) := hR.trans h (hR.recipes _ _)
theorem modHanger (hR : Closed R) (h : R s t) (tag f) : R s (t.modHanger tag f) := hR.trans h (hR.hangers _ _)
theorem modMove (hR : Closed R) (h : R s t) (id f) : R s (t.modMove id f) := hR.trans h (hR.moves _ _ _)
theorem addMove (hR : Closed R) (h : R s t) (m) : R s (t.addMove m) := hR.trans h (hR.moves _ _ _)
theorem removeMove (hR : Closed R) (h : R s t) (id) : R s (t.removeMove id) := hR.trans h (hR.moves _ _ _)
theorem removeYieldFor (hR : Closed R) (h : R s t) (id) : R s (t.removeYieldFor id) := hR.trans h (hR.moves _ _ _)
theorem removeOwnYield (hR : Closed R) (h : R s t) (g) : R s (t.removeOwnYield g) := hR.trans h (hR.moves _ _ _)
theorem modGantry (hR : Closed R) (h : R s t) (g f) : R s (t.modGantry g f) := hR.trans h (hR.gantry _ _ _)
theorem modLine (hR : Closed R) (h : R s t) (n f) : R s (t.modLine n f) := hR.trans h (hR.lines _ _)
theorem posted (hR : Closed R) (h : R s t) (p n) : R s (t.post p n) := hR.trans h (hR.post _ _ _)
theorem testAlarm (hR : Closed R) (h : R s t) : R s t.testAlarm := hR.trans h (hR.alarm _ _)
theorem setSlot (hR : Closed R) (h : R s t) (r x) : R s (t.setSlot r x) :=
  hR.modStation h _ _ (by intro _; rfl)
theorem releaseAll (hR : Closed R) (h : R s t) (tag) : R s (t.releaseAll tag) := by
  refine hR.trans h (hR.stations _ _ (fun st => ?_))
  simp only [State.station, Vector.getElem?_map]
  cases t.stations[st]? <;> rfl
theorem rejoin (hR : Closed R) (h : R s t) (x) : R s (t.rejoin x) := hR.trans h (hR.startOrder _ _)
theorem leaveOrder (hR : Closed R) (h : R s t) (tag) : R s (t.leaveOrder tag) := hR.trans h (hR.startOrder _ _)
theorem dropHanger (hR : Closed R) (h : R s t) (tag) : R s (t.dropHanger tag) := hR.trans h (hR.hangers _ _)
theorem markStale (hR : Closed R) (h : R s t) (st) : R s (t.markStale st) := hR.trans h (hR.hangers _ _)
theorem tickCounts (hR : Closed R) (h : R s t) : R s t.tickCounts := hR.trans h (hR.hangers _ _)
theorem revalidateAll (hR : Closed R) (h : R s t) : R s t.revalidateAll := hR.trans h (hR.recipes _ _)

/-- A bath record stays lawful under `f`. -/
theorem modBath (hR : Closed R) (h : R s t) (st : Nat) (f : Bath → Bath) (hf : ∀ b, b.Lawful → (f b).Lawful) :
    R s (t.modBath st f) := by
  unfold State.modBath
  cases hb : t.bath? st with
  | none => exact hR.trans h (hR.bathOff _ _)
  | some b => exact hR.trans h (hR.bathTo _ _ _ _ hb (hf b))

/-- A loop over a list keeps what each turn keeps. -/
theorem foldl (hR : Closed R) {α : Type} (f : State → α → State) (hf : ∀ t a, R t (f t a)) (l : List α) (h : R s t) :
    R s (l.foldl f t) := by
  induction l generalizing t with
  | nil => exact h
  | cons a l ih => exact ih (hR.trans h (hf t a))

/-! ### Notices -/

theorem notify (hR : Closed R) (h : R s t) (k tag st m a b) : R s (t.notify k tag st m a b) := hR.posted h _ _
theorem notifyGantry (hR : Closed R) (h : R s t) (g) : R s (t.notifyGantry g) := hR.posted h _ _
theorem notifyPause (hR : Closed R) (h : R s t) (g c) : R s (t.notifyPause g c) := hR.posted h _ _

theorem postWork (hR : Closed R) (h : R s t) (g m) : R s (t.postWork g m) := by
  unfold State.postWork; split
  · exact h
  · exact hR.posted h _ _

theorem offerWork (hR : Closed R) (h : R s t) (g m) : R s (t.offerWork g m) := by
  unfold State.offerWork; split
  · exact hR.postWork h _ _
  · exact h

theorem announce (hR : Closed R) (h : R s t) (m) : R s (t.announce m) := hR.offerWork (hR.offerWork h _ _) _ _

theorem announceId (hR : Closed R) (h : R s t) (id) : R s (t.announceId id) := by
  unfold State.announceId; split
  · exact hR.announce h _
  · exact h

theorem readyWork (hR : Closed R) (h : R s t) (g) : R s (t.readyWork g) := by
  unfold State.readyWork; split
  · exact hR.postWork h _ _
  · exact h

theorem notifyCondition (hR : Closed R) (h : R s t) (tag st c) : R s (t.notifyCondition tag st c) := by
  unfold State.notifyCondition; split
  · exact h
  · exact hR.notify h _ _ _ _ _ _

/-! ### Burst channels -/

theorem modChannel (hR : Closed R) (h : R s t) (n : Nat) (f : Channel → Channel)
    (hf : ∀ c, (f c).state = .bursting → c.state = .bursting) (hl : ∀ c : Channel, c.Lawful → (f c).Lawful) :
    R s (t.modChannel n f) := hR.trans h (hR.channel _ _ _ hf hl)

theorem schedule_state (c : Channel) (d : LineTime) : (c.schedule d).state = c.state := by
  unfold Channel.schedule; split <;> rfl

/-- Only the accumulator and the next due move at a scheduling, and the accumulator stays below the cadence. -/
theorem schedule_lawful {c : Channel} (h : c.Lawful) (d : LineTime) : (c.schedule d).Lawful := by
  obtain ⟨h1, h2, h3, h4, h5, h6, h7, h8⟩ := h
  have hm := Nat.div_add_mod 6000 c.cadence
  have hr := Nat.mod_lt 6000 (show 0 < c.cadence by omega)
  rw [← h3, Nat.mul_comm] at hm
  unfold Channel.schedule
  split <;> refine ⟨h1, h2, h3, h4, h5, h6, h7, ?_⟩ <;> dsimp only <;> omega

theorem rebase_lawful {c : Channel} (h : c.Lawful) (now : LineTime) (k : Nat) : (c.rebase now k).Lawful := by
  induction k generalizing c with
  | zero => exact h
  | succ k ih =>
    unfold Channel.rebase; split
    · split
      · exact ih (schedule_lawful h _)
      · exact h
    · exact h

theorem rebase_state (now : LineTime) (k : Nat) (c : Channel) : (c.rebase now k).state = c.state := by
  induction k generalizing c with
  | zero => rfl
  | succ k ih =>
    unfold Channel.rebase; split
    · split
      · rw [ih, schedule_state]
      · rfl
    · rfl

theorem fallDue (hR : Closed R) (h : R s t) (n d) : R s (t.fallDue n d) := by
  unfold State.fallDue; split
  · exact hR.modChannel h _ _ (fun c hc => by simpa [schedule_state] using hc) (fun _ h => schedule_lawful h _)
  · exact hR.modChannel h _ _ (fun c hc => by simpa [schedule_state] using hc) (fun _ h => schedule_lawful h _)
  · split
    · rename_i hg; exact hR.trans h (hR.opens _ _ _ hg (fun _ h => schedule_lawful h _))
    · exact hR.modChannel h _ _ (fun c hc => by simp at hc) (by intro _ h; exact schedule_lawful h _)

theorem endBurst (hR : Closed R) (h : R s t) (n : Nat) (hb : (t.channel n).state = .bursting) : R s (t.endBurst n) := by
  unfold State.endBurst
  refine hR.trans h (hR.handOver _ _ _ hb ?_ ?_) <;> intro c
  · split <;> simp
  · intro h; split <;> exact h

/-- A channel whose accumulator starts from 0 stays lawful. -/
theorem restarted_lawful {c : Channel} (h : c.Lawful) : Channel.Lawful { c with accumulator := 0 } :=
  ⟨h.1, h.2.1, h.2.2.1, h.2.2.2.1, h.2.2.2.2.1, h.2.2.2.2.2.1, h.2.2.2.2.2.2.1, h.1⟩

theorem channelOccupied (hR : Closed R) (h : R s t) (n) : R s (t.channelOccupied n) := by
  unfold State.channelOccupied; split
  · exact hR.fallDue (hR.modChannel h _ _ (fun c hc => by simpa using hc) (by intro _ h; exact restarted_lawful h)) _ _
  · exact hR.modChannel h _ _ (fun c hc => by simpa using hc) (by intro _ h; exact restarted_lawful h)
  · exact hR.modChannel h _ _ (fun c hc => by simpa using hc) (by intro _ h; exact h)

theorem channelEmptied (hR : Closed R) (h : R s t) (n) : R s (t.channelEmptied n) := by
  unfold State.channelEmptied
  split <;> exact hR.modChannel h _ _ (fun c hc => by simp at hc <;> simpa using hc) (fun _ h => h)

theorem reportOccupancy (hR : Closed R) (h : R s t) (st w) : R s (t.reportOccupancy st w) := by
  unfold State.reportOccupancy; split
  · split
    · exact hR.channelOccupied h _
    · split
      · exact hR.channelEmptied h _
      · exact h
  · exact h

theorem withCause_state (c : Channel) (k : HoldCause) (b : Bool) : (c.withCause k b).state = c.state := by
  cases k <;> rfl

theorem withCause_lawful {c : Channel} (h : c.Lawful) (k : HoldCause) (b : Bool) : (c.withCause k b).Lawful := by
  cases k <;> exact h

theorem setHold (hR : Closed R) (h : R s t) (n k) : R s (t.setHold n k) := by
  have h1 : R s (t.modChannel n (fun c => c.withCause k true)) :=
    hR.modChannel h _ _ (fun c hc => by simpa [withCause_state] using hc) (fun _ h => withCause_lawful h _ _)
  unfold State.setHold; dsimp only; split
  · exact h1
  · split
    · rename_i _ hb
      refine hR.trans h1 (hR.handOver _ _ _ ?_ (fun c => by simp [Channel.hold]) (fun _ h => h))
      have hn : n < 8 := by
        by_contra hn
        have : t.channels[n]? = none := Vector.getElem?_eq_none (by omega)
        simp [State.channel, this, Channel.atPowerOn] at hb
      have hx : t.channels[n]? = some (t.channels[n]) := Vector.getElem?_eq_getElem hn
      simp only [State.channel, State.modChannel, hx, Option.getD_some] at hb ⊢
      rw [Vector.getElem?_eq_getElem hn]
      simpa [withCause_state] using hb
    · exact hR.modChannel h1 _ _ (fun c hc => by simp [Channel.hold] at hc) (fun _ h => h)

theorem release_state (now : LineTime) (c : Channel) (hc : (c.release now).state = .bursting) : c.state = .bursting := by
  unfold Channel.release at hc; split at hc
  · split at hc <;> simp at hc
  · exact hc

theorem release_lawful {c : Channel} (h : c.Lawful) (now : LineTime) : (c.release now).Lawful := by
  unfold Channel.release; split
  · split
    · exact h
    · exact rebase_lawful h _ _
  · exact h

theorem clearHold (hR : Closed R) (h : R s t) (n k) : R s (t.clearHold n k) :=
  hR.modChannel h _ _ (fun c hc => by simpa [withCause_state] using release_state _ _ hc)
    (fun _ h => release_lawful (withCause_lawful h _ _) _)

theorem holdStation (hR : Closed R) (h : R s t) (st k) : R s (t.holdStation st k) := by
  unfold State.holdStation; split
  · exact hR.setHold h _ _
  · exact h

theorem releaseStation (hR : Closed R) (h : R s t) (st k) : R s (t.releaseStation st k) := by
  unfold State.releaseStation; split
  · exact hR.clearHold h _ _
  · exact h

theorem burstDue (hR : Closed R) (h : R s t) (n) : R s (t.burstDue n) := by
  unfold State.burstDue; dsimp only; split
  · split
    · exact hR.fallDue h _ _
    · exact h
  · exact h

theorem burstEndDue (hR : Closed R) (h : R s t) (n) : R s (t.burstEndDue n) := by
  unfold State.burstEndDue; dsimp only; split
  · split
    · rename_i hb; exact hR.endBurst h _ hb.1
    · exact h
  · exact h

theorem moveChannel (hR : Closed R) (h : R s t) (n new) : R s (t.moveChannel n new) := by
  unfold State.moveChannel; dsimp only
  refine hR.modChannel ?_ _ _ (fun c hc => by simpa using hc) (by intro _ h; exact h)
  split <;> split
  all_goals first
    | exact hR.modStation (hR.modStation h _ _ (by intro _; rfl)) _ _ (by intro _; rfl)
    | exact hR.modStation h _ _ (by intro _; rfl)
    | exact h

theorem startChannel (hR : Closed R) (h : R s t) (n) : R s (t.startChannel n) := by
  unfold State.startChannel; dsimp only; split
  · exact hR.modChannel h _ _ (fun c hc => by simp at hc) (by intro _ h; exact h)
  · split
    · exact hR.modChannel h _ _ (fun c hc => by simp at hc) (by intro _ h; exact h)
    · exact hR.fallDue (hR.modChannel h _ _ (fun c hc => by simp at hc) (by intro _ h; exact h)) _ _

theorem applyChannel (hR : Closed R) (h : R s t) (n new e b l) (hb : 1 ≤ b ∧ b ≤ 600)
    (hl : 1 ≤ l ∧ l ≤ 50 ∧ l < intervalBase b) : R s (t.applyChannel n new e b l) := by
  have h1 : R s (if (t.channel n).station = new then t else t.moveChannel n new) := by
    split
    · exact h
    · exact hR.moveChannel h _ _
  unfold State.applyChannel; dsimp only
  have h2 := hR.modChannel h1 n (fun c => { c with enable := e, cadence := b, length := l, interval := intervalBase b, remainder := intervalRemainder b, accumulator := 0 }) (fun c hc => by simpa using hc)
    (fun _ _ => ⟨hb.1, hb.2, rfl, rfl, hl.1, hl.2.1, hl.2.2, hb.1⟩)
  split
  · exact hR.modChannel h2 _ _ (fun c hc => by simp at hc) (by intro _ h; exact h)
  · split
    · exact hR.startChannel h2 _
    · exact h2

/-! ### Slots -/

/-- An event made together with a slot operation relates its states when the operation refused or carried out does. -/
theorem together (h : R s t) (r : Option State) (rest : State → State) (hr : ∀ u, r = some u → R s (rest u)) :
    R s (t.together r rest) := by
  unfold State.together
  cases r with
  | none => exact h
  | some u => exact hr u rfl

theorem reserve (hR : Closed R) {u : State} {r tag k} (h : t.reserve r tag k = some u) : R t u := by
  unfold State.reserve at h; split at h
  · cases h; exact hR.setSlot (hR.refl _) _ _
  · cases h

theorem convert (hR : Closed R) {u : State} {r tag} (h : t.convert r tag = some u) : R t u := by
  unfold State.convert at h; split at h
  · cases h; exact hR.setSlot (hR.refl _) _ _
  · cases h

theorem occupy (hR : Closed R) {u : State} {r tag} (h : t.occupy r tag = some u) : R t u := by
  unfold State.occupy at h; split at h
  · cases h; exact hR.reportOccupancy (hR.setSlot (hR.refl _) _ _) _ _
  · cases h

theorem vacate (hR : Closed R) {u : State} {r tag} (h : t.vacate r tag = some u) : R t u := by
  unfold State.vacate at h; split at h
  · cases h; exact hR.reportOccupancy (hR.setSlot (hR.refl _) _ _) _ _
  · cases h

theorem reserveRoute (hR : Closed R) {u : State} {tag d f} (h : t.reserveRoute tag d f = some u) : R t u := by
  unfold State.reserveRoute at h
  have h1 : ∀ v, (if t.slotAt d = .reserved tag .destination then some t
      else if t.slotAt d = .reserved tag .forward then t.convert d tag else t.reserve d tag .destination) = some v → R t v := by
    intro v hv; split at hv
    · cases hv; exact hR.refl _
    · split at hv
      · exact hR.convert hv
      · exact hR.reserve hv
  dsimp only at h
  cases f with
  | none => exact h1 _ h
  | some f =>
    simp only [Option.bind_eq_some_iff] at h
    obtain ⟨v, hv, hu⟩ := h
    split at hu
    · cases hu; exact h1 _ hv
    · exact hR.trans (h1 _ hv) (hR.reserve hu)

/-! ### Moves, immersions and rescues -/

theorem createMove (hR : Closed R) (h : R s t) (m) : R s (t.createMove m) := by
  unfold State.createMove; dsimp only; split
  · exact hR.announceId (hR.addMove h _) _
  · exact hR.addMove h _

theorem removeHangerMove (hR : Closed R) (h : R s t) (tag) : R s (t.removeHangerMove tag) := by
  unfold State.removeHangerMove; split
  · exact hR.removeMove h _
  · exact h

theorem createEntry (hR : Closed R) (h : R s t) (x r) : R s (t.createEntry x r) := hR.createMove h _

theorem readyDue (hR : Closed R) (h : R s t) (id) : R s (t.readyDue id) := by
  unfold State.readyDue; split
  · split
    · exact hR.announceId (hR.modMove h _ _) _
    · exact h
  · exact h

theorem closeEntry (hR : Closed R) (h : R s t) (tag c) : R s (t.closeEntry tag c) := by
  unfold State.closeEntry; split
  · split
    · split
      · exact hR.notifyCondition (hR.modHanger h _ _) _ _ _
      · exact h
    · exact h
  · exact h

theorem feedMove (hR : Closed R) (h : R s t) (x) : R s (t.feedMove x) := by
  unfold State.feedMove; split
  · split
    · dsimp only; split
      · exact hR.announceId (hR.modMove h _ _) _
      · exact hR.modMove h _ _
    · exact h
  · exact h

theorem remakeOne (hR : Closed R) (h : R s t) (st tag) : R s (t.remakeOne st tag) := by
  unfold State.remakeOne; split
  · split
    · exact hR.feedMove (hR.modHanger h _ _) _
    · exact h
  · exact h

theorem remakeStation (hR : Closed R) (h : R s t) (st) : R s (t.remakeStation st) :=
  hR.foldl _ (fun _ _ => hR.remakeOne (hR.refl _) _ _) _ h

theorem unagitatedDue (hR : Closed R) (h : R s t) (tag) : R s (t.unagitatedDue tag) := by
  unfold State.unagitatedDue; split
  · split
    · exact hR.notify (hR.modHanger h _ _) _ _ _ _ _ _
    · exact h
  · exact h

theorem edgeDue (hR : Closed R) (h : R s t) (tag e) : R s (t.edgeDue tag e) := hR.modHanger h _ _

theorem rescueMove (hR : Closed R) (h : R s t) (st tag) : R s (t.rescueMove st tag) := by
  unfold State.rescueMove; split
  · split
    · exact h
    · dsimp only; split
      · exact hR.announceId (hR.modMove h _ _) _
      · exact hR.modMove h _ _
  · exact h

theorem rescueHanger (hR : Closed R) (h : R s t) (st tag) : R s (t.rescueHanger st tag) := by
  unfold State.rescueHanger; split
  · split
    · exact hR.rescueMove (hR.modHanger (hR.closeEntry (hR.modHanger h _ _) _ _) _ _) _ _
    · exact h
  · exact h

theorem assertLine (hR : Closed R) (h : R s t) (l st tag) : R s (t.assertLine l st tag) :=
  hR.foldl _ (fun _ _ => hR.rescueHanger (hR.refl _) _ _) _
    (hR.holdStation (hR.notify (hR.modLine h _ _) _ _ _ _ _ _) _ _)

theorem signal (hR : Closed R) (h : R s t) (tag) : R s (t.signal tag) := by
  unfold State.signal; split
  · split
    · dsimp only; split
      · exact hR.notify (hR.modHanger h _ _) _ _ _ _ _ _
      · split
        · exact hR.modHanger h _ _
        · exact hR.assertLine (hR.modHanger h _ _) _ _ _
    · exact h
  · exact h

theorem rateChanged (hR : Closed R) (h : R s t) (st) : R s (t.rateChanged st) :=
  hR.foldl _ (fun _ _ => hR.signal (hR.refl _) _) _ (hR.remakeStation h _)

/-! ### Baths -/

theorem setReadiness (hR : Closed R) (h : R s t) (st r) : R s (t.setReadiness st r) := by
  unfold State.setReadiness; split
  · split
    · exact h
    · refine hR.notify (hR.modBath h _ _ ?_) _ _ _ _ _ _
      intro b hb; exact hb
  · exact h

theorem goStale (hR : Closed R) (h : R s t) (st) : R s (t.goStale st) := by
  have h1 : R s (t.modBath st (fun b => { b with rateHeld := true, firstReading := true, staleCompare := none })) :=
    hR.modBath h _ _ (by intro b hb; exact hb)
  have h2 : ∀ k r, R s (((t.modBath st (fun b => { b with rateHeld := true, firstReading := true, staleCompare := none })).modBath
      st (fun b => { b with returnState := k })).setReadiness st r) := fun k r =>
    hR.setReadiness (hR.modBath h1 _ _ (by intro b hb; exact hb)) _ _
  unfold State.goStale; dsimp only
  refine hR.markStale ?_ _
  split
  · split
    · exact h2 _ _
    · exact h2 _ _
    · exact h2 _ _
    · exact h1
    · exact h1
  · exact h1

theorem staleDue (hR : Closed R) (h : R s t) (st) : R s (t.staleDue st) := by
  unfold State.staleDue; split
  · split
    · exact hR.goStale h _
    · exact h
  · exact h

theorem tripBath (hR : Closed R) (h : R s t) (st c) : R s (t.tripBath st c) := by
  refine hR.holdStation (hR.setReadiness (hR.modBath h _ _ ?_) _ _) _ _
  intro b hb; exact hb

theorem clearTrip_lawful {b : Bath} (now : LineTime) (hb : b.Lawful) : (b.clearTrip now).Lawful := by
  unfold Bath.clearTrip; split <;> exact hb

theorem clearTrip (hR : Closed R) (h : R s t) (st b) : R s (t.clearTrip st b) := by
  have h1 := hR.setReadiness (hR.releaseStation (hR.modBath h st (fun b => b.clearTrip t.lineTime)
    (fun _ hb => clearTrip_lawful _ hb)) st .trip) st b.clearedState
  unfold State.clearTrip; dsimp only; split
  · exact hR.markStale h1 _
  · exact h1

theorem storeBath (hR : Closed R) (h : R s t) (st : Nat) (old new : Bath) (ho : t.bath? st = some old)
    (hl : old.Lawful → new.Lawful) : R s (t.storeBath st old new) := by
  have h1 := hR.trans h (hR.bathTo _ _ _ _ ho hl)
  unfold State.storeBath; split
  · exact h1
  · exact hR.rateChanged h1 _

theorem judge (hR : Closed R) (h : R s t) (st b z) : R s (t.judge st b z) := by
  unfold State.judge; split
  · exact hR.tripBath h _ _
  · exact hR.setReadiness h _ _

theorem rateFor_bounds {b : BathSettings} (hb : BathSettings.Lawful b) (d : Int) : 64 ≤ rateFor b d ∧ rateFor b d ≤ 4096 := by
  obtain ⟨h1, h2, h3, _⟩ := hb
  unfold rateFor clampInt
  split
  · omega
  · split <;> omega

theorem recompute_lawful {b : Bath} (hb : BathSettings.Lawful b.settings) (hr : 64 ≤ b.rate ∧ b.rate ≤ 4096)
    (hd : b.debt ≤ 15) (ha : b.area < b.settings.quantum) : b.recompute.Lawful := by
  unfold Bath.recompute; split
  · exact ⟨hb, (rateFor_bounds hb _).1, (rateFor_bounds hb _).2, hd, ha⟩
  · exact ⟨hb, hr.1, hr.2, hd, ha⟩

theorem take_lawful {b : Bath} (z : Int) (now : LineTime) (hb : b.Lawful) : (b.take z now).Lawful :=
  recompute_lawful (b := { b with latest := _, staleCompare := _, rateHeld := _, used := _, firstReading := _ })
    hb.1 ⟨hb.2.1, hb.2.2.1⟩ hb.2.2.2.1 hb.2.2.2.2

theorem acceptReading (hR : Closed R) (h : R s t) (st b z) (hb : t.bath? st = some b) : R s (t.acceptReading st b z) :=
  hR.judge (hR.storeBath h _ _ _ hb (take_lawful _ _)) _ _ _

theorem activated_lawful (now : LineTime) : (Bath.activated now).Lawful := by
  simp [Bath.Lawful, BathSettings.Lawful, Bath.activated, BathSettings.activation]

theorem activateBath (hR : Closed R) (h : R s t) (st) : R s (t.activateBath st) :=
  hR.notify (hR.trans h (hR.bathOn _ _ _ (activated_lawful _))) _ _ _ _ _ _

theorem deactivateBath (hR : Closed R) (h : R s t) (st) : R s (t.deactivateBath st) := by
  unfold State.deactivateBath; split
  · exact hR.releaseStation (hR.trans h (hR.bathOff _ _)) _ _
  · exact h

/-! ### Hangers -/

theorem swapRecipe (hR : Closed R) (h : R s t) (r) : R s (t.swapRecipe r) := by
  unfold State.swapRecipe; split
  · exact hR.notify (hR.modRecipe h _ _) _ _ _ _ _ _
  · exact h

theorem leaveRecipe (hR : Closed R) (h : R s t) (r) : R s (t.leaveRecipe r) := by
  unfold State.leaveRecipe; dsimp only; split
  · exact hR.swapRecipe (hR.modRecipe h _ _) _
  · exact hR.modRecipe h _ _

theorem createNext (hR : Closed R) (h : R s t) (tag r) : R s (t.createNext tag r) := by
  unfold State.createNext; split
  · exact hR.createMove h _
  · exact h

theorem markIfStale (hR : Closed R) (h : R s t) (tag st) : R s (t.markIfStale tag st) := by
  unfold State.markIfStale; split
  · exact hR.modHanger h _ _
  · exact h

theorem openStep (hR : Closed R) (h : R s t) (tag k r) : R s (t.openStep tag k r) := by
  unfold State.openStep; split
  · split
    · exact hR.notify (hR.markIfStale (hR.modHanger h _ _) _ _) _ _ _ _ _ _
    · exact h
  · exact h

theorem beginStep (hR : Closed R) (h : R s t) (tag k r) : R s (t.beginStep tag k r) := hR.createNext (hR.openStep h _ _ _) _ _

theorem reachExit (hR : Closed R) (h : R s t) (x r) : R s (t.reachExit x r) :=
  hR.notify (hR.modHanger (hR.releaseAll h _) _ _) _ _ _ _ _ _

theorem abortLoaded (hR : Closed R) (h : R s t) (tag) : R s (t.abortLoaded tag) :=
  hR.modHanger (hR.releaseAll (hR.removeHangerMove (hR.leaveOrder h _) _) _) _ _

theorem abortInPlace (hR : Closed R) (h : R s t) (tag) : R s (t.abortInPlace tag) :=
  hR.modHanger (hR.modHanger (hR.releaseAll (hR.removeHangerMove (hR.closeEntry h _ _) _) _) _ _) _ _

theorem makeAbortMove (hR : Closed R) (h : R s t) (tag) : R s (t.makeAbortMove tag) := by
  unfold State.makeAbortMove; split
  · exact hR.announceId (hR.modMove h _ _) _
  · exact h

theorem abortStrict (hR : Closed R) (h : R s t) (tag) : R s (t.abortStrict tag) :=
  hR.makeAbortMove (hR.modHanger (hR.modHanger (hR.closeEntry h _ _) _ _) _ _) _

theorem restAfterAbort (hR : Closed R) (h : R s t) (x r) : R s (t.restAfterAbort x r) :=
  hR.modHanger (hR.releaseAll h _) _ _

theorem abortAtExit (hR : Closed R) (h : R s t) (x r) : R s (t.abortAtExit x r) :=
  hR.notifyCondition (hR.modHanger (hR.releaseAll h _) _ _) _ _ _

theorem abortAtStep (hR : Closed R) (h : R s t) (tag k r) : R s (t.abortAtStep tag k r) :=
  hR.modHanger (hR.modHanger (hR.releaseAll (hR.closeEntry (hR.openStep h _ _ _) _ _) _) _ _) _ _

theorem abortIntoStrict (hR : Closed R) (h : R s t) (tag k r) : R s (t.abortIntoStrict tag k r) := by
  have h1 := hR.modHanger (hR.closeEntry (hR.openStep h tag k r) tag .aborted) tag Hanger.stopCount
  have h2 : R s (match (((t.openStep tag k r).closeEntry tag .aborted).modHanger tag Hanger.stopCount).hanger? tag with
      | some h => (((t.openStep tag k r).closeEntry tag .aborted).modHanger tag Hanger.stopCount).createMove
          ((((t.openStep tag k r).closeEntry tag .aborted).modHanger tag Hanger.stopCount).freshAbort h r)
      | none => ((t.openStep tag k r).closeEntry tag .aborted).modHanger tag Hanger.stopCount) := by
    split
    · exact hR.createMove h1 _
    · exact h1
  unfold State.abortIntoStrict; dsimp only; split
  · exact hR.modHanger h2 _ _
  · exact h2

theorem lowerAborted (hR : Closed R) (h : R s t) (x k r) : R s (t.lowerAborted x k r) := by
  unfold State.lowerAborted; split
  · exact hR.abortIntoStrict h _ _ _
  · split
    · exact hR.restAfterAbort h _ _
    · exact hR.abortAtExit h _ _
  · split
    · exact hR.restAfterAbort h _ _
    · exact hR.abortAtStep h _ _ _
  · exact hR.restAfterAbort h _ _

theorem lowerOnBar (hR : Closed R) (h : R s t) (tag k r) : R s (t.lowerOnBar tag k r) := by
  have h1 := hR.modHanger (hR.closeEntry (hR.openStep h tag k r) tag .under) tag (fun h => h.rescued.modNewest RunEntry.markRescued)
  unfold State.lowerOnBar; dsimp only; split
  · exact hR.createMove h1 _
  · exact h1

theorem lowerStep (hR : Closed R) (h : R s t) (x r) : R s (t.lowerStep x r) := by
  unfold State.lowerStep; split
  · split
    · exact hR.lowerOnBar h _ _ _
    · exact hR.beginStep h _ _ _
  · exact hR.reachExit h _ _
  · exact h

theorem resumeInPlace (hR : Closed R) (h : R s t) (x r) : R s (t.resumeInPlace x r) :=
  hR.createNext (hR.notify (hR.markIfStale (hR.modHanger h _ _) _ _) _ _ _ _ _ _) _ _

theorem recoverAt (hR : Closed R) (h : R s t) (tag r) : R s (t.recoverAt tag r) := by
  refine together h _ _ (fun u hu => ?_)
  have h1 := hR.modHanger (hR.releaseAll (hR.trans h (hR.occupy hu)) tag) tag
    (fun h => { (h.rest .recovered).modNewest RunEntry.markStranded with location := .slot r })
  exact hR.modGantry (hR.modGantry h1 .a (fun g => g.clearHold tag)) .b (fun g => g.clearHold tag)

theorem withdraw (hR : Closed R) (h : R s t) (x r) : R s (t.withdraw x r) := by
  refine together h _ _ (fun u hu => ?_)
  have h1 := hR.dropHanger (hR.releaseAll (hR.removeHangerMove (hR.leaveOrder (hR.trans h (hR.vacate hu)) x.tag) x.tag)
    x.tag) x.tag
  dsimp only; split
  · exact hR.leaveRecipe h1 _
  · exact h1

/-! ### Gantries and claims -/

theorem setLink (hR : Closed R) (h : R s t) (g l) : R s (t.setLink g l) := by
  unfold State.setLink; split
  · exact h
  · dsimp only; split
    · exact hR.removeOwnYield (hR.notifyGantry (hR.modGantry h _ _) _) _
    · exact hR.notifyGantry (hR.modGantry h _ _) _

theorem abortReturned (hR : Closed R) (h : R s t) (tag x) : R s (t.abortReturned tag x) := by
  unfold State.abortReturned; split
  · exact hR.abortLoaded h _
  · split
    · exact hR.abortStrict h _
    · exact hR.abortInPlace h _
  · exact hR.abortStrict h _

theorem returnToReady (hR : Closed R) (h : R s t) (m) : R s (t.returnToReady m) := by
  have h1 := hR.modMove h m.id Move.returned
  unfold State.returnToReady; dsimp only; split
  · split
    · exact hR.abortReturned (hR.modHanger h1 _ _) _ _
    · split
      · exact hR.announceId (hR.rejoin (hR.modHanger h1 _ _) _) _
      · exact hR.announceId (hR.modHanger h1 _ _) _
  · exact h1

theorem strand (hR : Closed R) (h : R s t) (g m) : R s (t.strand g m) := by
  unfold State.strand; split
  · exact hR.notify (hR.modGantry (hR.modHanger (hR.removeMove h _) _ _) _ _) _ _ _ _ _ _
  · exact hR.removeMove h _

theorem dispose (hR : Closed R) (h : R s t) (g m) : R s (t.dispose g m) := by
  unfold State.dispose; split
  · split
    · exact hR.removeMove h _
    · exact hR.returnToReady h _
  · exact hR.strand h _ _
  · exact hR.removeMove h _

theorem faultGantry (hR : Closed R) (h : R s t) (g c) : R s (t.faultGantry g c) := by
  unfold State.faultGantry; dsimp only; split
  · exact hR.dispose (hR.setLink (hR.modGantry h _ _) _ _) _ _
  · exact hR.setLink (hR.modGantry h _ _) _ _

theorem resetBusy (hR : Closed R) (h : R s t) (g) : R s (t.resetBusy g) := by
  unfold State.resetBusy; dsimp only; split
  · exact hR.dispose (hR.modGantry h _ _) _ _
  · exact hR.modGantry h _ _

theorem endImmersion (hR : Closed R) (h : R s t) (tag) : R s (t.endImmersion tag) := by
  unfold State.endImmersion; split
  · exact hR.modHanger (hR.closeEntry h _ _) _ _
  · exact h

theorem lift (hR : Closed R) (h : R s t) (g m) : R s (t.lift g m) := by
  unfold State.lift; split
  · exact together h _ _ (fun u hu =>
      hR.modMove (hR.modHanger (hR.trans (hR.endImmersion h _) (hR.vacate hu)) _ _) _ _)
  · exact h

theorem addArea (hR : Closed R) (h : R s t) (st a) : R s (t.addArea st a) := hR.trans h (hR.area _ _ _)

theorem place (hR : Closed R) (h : R s t) (tag r a id) : R s (t.place tag r a id) :=
  hR.modMove (hR.addArea (hR.modHanger h _ _) _ _) _ _

theorem lower (hR : Closed R) (h : R s t) (m) : R s (t.lower m) := by
  unfold State.lower; split
  · refine together h _ _ (fun u hu => ?_)
    split at hu
    case' isFalse => cases hu
    have h1 := hR.trans h (hR.occupy hu)
    dsimp only; split
    · exact hR.lowerAborted (hR.place h1 _ _ _ _) _ _ _
    · exact hR.lowerStep (hR.place h1 _ _ _ _) _ _
  · exact h

theorem standIdle (hR : Closed R) (h : R s t) (g x) : R s (t.standIdle g x) := by
  unfold State.standIdle; dsimp only; split
  · exact hR.readyWork (hR.setLink (hR.modGantry h _ _) _ _) _
  · exact hR.setLink (hR.modGantry h _ _) _ _

theorem notifyTimeout (hR : Closed R) (h : R s t) (g m) : R s (t.notifyTimeout g m) := by
  unfold State.notifyTimeout; split
  · exact h
  · exact hR.notify h _ _ _ _ _ _

theorem limitDue (hR : Closed R) (h : R s t) (id) : R s (t.limitDue id) := by
  unfold State.limitDue; split
  · split
    · split
      · exact hR.dispose (hR.notifyTimeout (hR.setLink (hR.modGantry h _ _) _ _) _ _) _ _
      · exact h
    · exact h
  · exact h

theorem makeYield (hR : Closed R) (h : R s t) (g m d) : R s (t.makeYield g m d) := by
  unfold State.makeYield; dsimp only; split
  · split
    · exact hR.postWork (hR.addMove h _) _ _
    · exact h
  · exact h

theorem bindEntry (hR : Closed R) (h : R s t) (x) : R s (t.bindEntry x) := by
  unfold State.bindEntry; dsimp only; split
  · exact hR.leaveOrder h _
  · exact hR.modRecipe (hR.modHanger (hR.leaveOrder h _) _ _) _ _

theorem engage (hR : Closed R) (h : R s t) (g id lo hi) : R s (t.engage g id lo hi) :=
  hR.removeOwnYield (hR.removeYieldFor (hR.setLink (hR.modGantry h _ _) _ _) _) _

theorem grant (hR : Closed R) (h : R s t) (g m d f) : R s (t.grant g m d f) := by
  unfold State.grant; dsimp only; split
  · rename_i x _
    refine together h _ _ (fun u hu => ?_)
    have h1 := hR.modHanger (hR.modMove (hR.trans h (hR.reserveRoute hu)) m.id
      (fun m => m.granted g (.slot d) t.lineTime (t.estimateFor g m d) (t.gantry g).margin)) x.tag (fun h => h.granted f)
    refine hR.engage ?_ _ _ _ _
    split
    · exact hR.bindEntry h1 _
    · exact h1
  · exact h

theorem grantYield (hR : Closed R) (h : R s t) (g m x) : R s (t.grantYield g m x) := hR.engage (hR.modMove h _ _) _ _ _ _

theorem walk (hR : Closed R) (g : GantryId) (l : List Move) (h : R s t) (held : List (Nat × HoldTest)) :
    R s (State.walk g l t held).state := by
  induction l generalizing t held with
  | nil => exact h
  | cons m ms ih =>
    unfold State.walk; split
    · exact h
    · exact ih (hR.makeYield h _ _ _) _
    · exact ih h _
    · exact ih h _

theorem claimWalk (hR : Closed R) (h : R s t) (g last) : R s (t.claimWalk g last).1 := by
  unfold State.claimWalk; dsimp only; split
  · exact hR.grant (hR.walk g _ h _) _ _ _ _
  · exact hR.walk g _ h _

/-! ### The line -/

theorem clearRecipe (hR : Closed R) (h : R s t) (r) : R s (t.clearRecipe r) := hR.swapRecipe (hR.modRecipe h _ _) _

theorem clearSlots (hR : Closed R) (h : R s t) (st) : R s (t.clearSlots st) :=
  hR.reportOccupancy (hR.modStation h _ _ (by intro _; rfl)) _ _

theorem clearAll (hR : Closed R) (h : R s t) : R s t.clearAll := by
  have h1 : R s { t with hangers := [], startOrder := [], moves := [], gantryA := { t.gantryA with hold := none },
                         gantryB := { t.gantryB with hold := none } } :=
    hR.modGantry (hR.modGantry (hR.trans (hR.trans (hR.trans h (hR.hangers _ [])) (hR.startOrder _ []))
      (hR.moves _ [] t.moveCounter)) .a (fun g => { g with hold := none })) .b (fun g => { g with hold := none })
  exact hR.foldl _ (fun _ _ => hR.clearRecipe (hR.refl _) _) _ (hR.foldl _ (fun _ _ => hR.clearSlots (hR.refl _) _) _ h1)

end Closed

/-! ### The station map -/

/-- The map stays lawful where every field of a station but its slots is kept. -/
theorem mapLawful_of_fields {s t : State} (h : KeepsStationFields s t) (hs : MapLawful s) : MapLawful t := by
  have h1 : ∀ st, (t.station st).group = (s.station st).group ∧ (t.station st).coordinate = (s.station st).coordinate
      ∧ (t.station st).slotCount = (s.station st).slotCount ∧ (t.station st).allowance = (s.station st).allowance
      ∧ (t.station st).configured = (s.station st).configured ∧ (t.station st).cls = (s.station st).cls
      ∧ (t.station st).supervised = (s.station st).supervised ∧ (t.station st).rescueLine = (s.station st).rescueLine := by
    intro st; rw [← h st]; simp
  unfold MapLawful Station.Lawful at *
  simpa only [h1] using hs

/-- A lawful map gives a station at most four slots. -/
theorem MapLawful.slotCount_le {s : State} (hs : MapLawful s) (st : Nat) : (s.station st).slotCount ≤ 4 := (hs.1 st).2.2.2.1

end Sys2Proof.Machine
end

