-- ==== Sys2Proof/Laws/Commands.lean ====
section
/-! SUPPORT. What the commands can do, said once: a relation that every small update and every setting keeps (`Wide`) holds
across the rule of every request, across the taking of the events of a tenth, and across every command but those that move the
line time. -/

namespace Sys2Proof.Machine

/-- R8: the ranges of the written fields of a SET-STATION. -/
def StationWrite.InRange (w : StationWrite) : Prop :=
  w.group ≤ 15 ∧ w.coordinate ≤ 4095 ∧ 1 ≤ w.slotCount ∧ w.slotCount ≤ 4 ∧ ∀ l, w.rescueLine = some l → l ≤ 3

/-- R8: the fields a request carries are in their ranges when they make a write. -/
theorem stationWrite_inRange {cls grp x n sv rl : Nat} {w : StationWrite} (h : stationWrite cls grp x n sv rl = some w) : w.InRange := by
  unfold stationWrite at h
  split at h
  · rename_i c b l _ _ hl
    split at h
    · rename_i hr
      cases h
      refine ⟨hr.1, hr.2.1, hr.2.2.1, hr.2.2.2, fun k hk => ?_⟩
      have hk' : l = some k := hk
      subst hk'
      unfold indexOrNone at hl
      split at hl
      · cases hl
      · split at hl
        · cases hl; omega
        · cases hl
    · cases h
  · cases h

/-- `Closed`, and across each setting a request writes. A change of the line mode is left to a hypothesis of its own. -/
structure Wide (R : State → State → Prop) : Prop extends Closed R where
  draft : ∀ s v, R s { s with draft := v }
  admissions : ∀ s v, R s { s with admissions := v }
  guardGap : ∀ s v, R s { s with guardGap := v }
  holdAt : ∀ s v, R s { s with holdAt := v }
  grace : ∀ s v, R s { s with grace := v }
  alarmDelay : ∀ s v, R s { s with alarmDelay := v }
  gasLimit : ∀ s g, s.gasInUse = 0 → R s { s with gasLimit := g }
  written : ∀ (s : State) st (w : StationWrite) a, w.InRange → s.writeConsistent st w = true → R s (s.modStation st (fun x => x.written w a))
  erased : ∀ s st, R s (s.modStation st (fun _ => Station.absent))
  port : ∀ s p f, (∀ q, (f q).queue.length ≤ q.queue.length) → R s (s.modPort p f)
  settings : ∀ s st b n, s.bath? st = some b → BathSettings.Lawful n → R s (s.writeSettings st b n)

/-- A command that is a request is taken by its port and handed to the rule of its block. -/
theorem exec_request (i : Instr) (s : State) (h : (encodeRequest i).isSome = true) :
    exec i s = s.request i (handRequest i) := by
  cases i <;> first | rfl | cases h

/-- What a request answers on a free port is what its block's rule gives on the state its session opens. -/
theorem Answers.of_rule {i : Instr} {s t : State} {p : PortId} {c : Nat} {l : List Byte} {r : Reply}
    (he : encodeRequest i = some (p, c, l)) (hp : PortFree s p)
    (h : handRequest i (s.opened p (2 + l.length)) = (t, r)) : Answers i s p t r := by
  unfold Answers
  rw [exec_request i s (by simp [he]), State.request_free he hp, h]

theorem clampNat_bounds {lo hi : Nat} (h : lo ≤ hi) (x : Nat) : lo ≤ clampNat lo hi x ∧ clampNat lo hi x ≤ hi := by
  unfold clampNat; repeat' split
  all_goals omega

/-- R152: a clamped burst length lies in 1 to 50 and below the interval of its cadence. -/
theorem clampLength_bounds {b : Nat} (hb : 1 ≤ b ∧ b ≤ 600) (l : Nat) :
    1 ≤ clampLength b l ∧ clampLength b l ≤ 50 ∧ clampLength b l < intervalBase b := by
  have h1 := clampNat_bounds (show 1 ≤ 50 by decide) l
  have h2 : 10 ≤ 6000 / b := (Nat.le_div_iff_mul_le (by omega)).2 (by omega)
  unfold clampLength intervalBase
  omega

theorem clampInt_bounds {lo hi : Int} (h : lo ≤ hi) (x : Int) : lo ≤ clampInt lo hi x ∧ clampInt lo hi x ≤ hi := by
  unfold clampInt; repeat' split
  all_goals omega

namespace Wide

variable {R : State → State → Prop} {s t : State}

theorem of_eq (hR : Wide R) (h : t = s) : R s t := by rw [h]; exact hR.refl s

theorem withHanger (hR : Wide R) (tag : Nat) (body : Hanger → State × Reply) (hb : ∀ x, R s (body x).1) :
    R s (s.withHanger tag body).1 := by
  unfold State.withHanger; split
  · exact hR.refl _
  · split
    · exact hb _
    · exact hR.refl _

theorem withBath (hR : Wide R) (st : Nat) (body : Bath → State × Reply) (hb : ∀ b, s.bath? st = some b → R s (body b).1) :
    R s (s.withBath st body).1 := by
  unfold State.withBath; split
  · exact hR.refl _
  · split
    · rename_i b h; exact hb b h
    · exact hR.refl _

theorem withGantry (hR : Wide R) (x : Nat) (body : GantryId → State × Reply) (hb : ∀ g, R s (body g).1) :
    R s (s.withGantry x body).1 := by
  unfold State.withGantry; split
  · exact hb _
  · exact hR.refl _

theorem report (hR : Wide R) (g : GantryId) (id : Nat) (phase : Move → Bool) (body : Move → State × Reply)
    (hb : ∀ m, R s (body m).1) : R s (s.report g id phase body).1 := by
  unfold State.report; split
  · exact hR.refl _
  · split
    · exact hR.refl _
    · split
      · exact hR.refl _
      · split
        · split
          · exact hb _
          · exact hR.refl _
        · exact hR.refl _

/-! ### The requests -/

theorem writeStation (hR : Wide R) (h : R s t) (st) {w : StationWrite} (hw : w.InRange) (hc : t.writeConsistent st w = true) (a) :
    R s (t.writeStation st w a) := by
  unfold State.writeStation; dsimp only; split
  · exact hR.activateBath (hR.trans h (hR.written _ _ _ _ hw hc)) _
  · exact hR.deactivateBath (hR.trans h (hR.written _ _ _ _ hw hc)) _
  · exact hR.trans h (hR.written _ _ _ _ hw hc)

theorem setStation (hR : Wide R) (st c g x n a sv rl) : R s (Machine.setStation st c g x n a sv rl s).1 := by
  unfold Machine.setStation
  repeat' split
  all_goals try simp only [State.answer_eq]
  all_goals first
    | exact hR.refl _
    | (rename_i w hw hc _; exact hR.writeStation (hR.refl s) _ (stationWrite_inRange hw) (by simpa using hc) _)

theorem eraseStation (hR : Wide R) (h : R s t) (st) : R s (t.eraseStation st) :=
  hR.trans (hR.deactivateBath h _) (hR.erased _ _)

theorem clearStation (hR : Wide R) (st) : R s (Machine.clearStation st s).1 := by
  unfold Machine.clearStation
  repeat' split
  all_goals try simp only [State.answer_eq]
  all_goals first
    | exact hR.refl _
    | exact hR.eraseStation (hR.refl s) _

theorem block (hR : Wide R) (st sl) : R s (Machine.block st sl s).1 := by
  unfold Machine.block
  repeat' split
  all_goals try simp only [State.answer_eq]
  all_goals first
    | exact hR.refl _
    | exact hR.setSlot (hR.refl s) _ _

theorem unblock (hR : Wide R) (st sl) : R s (Machine.unblock st sl s).1 := by
  unfold Machine.unblock
  repeat' split
  all_goals try simp only [State.answer_eq]
  all_goals first
    | exact hR.refl _
    | exact hR.setSlot (hR.refl s) _ _

theorem draftRecipe (hR : Wide R) (r n) : R s (Machine.draftRecipe r n s).1 := by
  unfold Machine.draftRecipe; split
  · exact hR.refl _
  · exact hR.draft _ _

theorem draftSteps (hR : Wide R) (r f l) : R s (Machine.draftSteps r f l s).1 := by
  unfold Machine.draftSteps
  repeat' split
  all_goals try simp only [State.answer_eq]
  all_goals first
    | exact hR.refl _
    | exact hR.draft _ _

theorem badRecipe (hR : Wide R) (r f) : R s (s.badRecipe r f).1 := by
  simp only [State.badRecipe]
  exact hR.modRecipe (hR.refl s) _ _

theorem storeVersion (hR : Wide R) (r v) : R s (s.storeVersion r v).1 := by
  have h1 : R s { s with draft := none } := hR.draft _ _
  generalize hu : ({ s with draft := none } : State) = u at h1
  have h2 := fun f => hR.modRecipe h1 r f
  unfold State.storeVersion; dsimp only; rw [hu]
  split
  · exact h2 (fun e => { e with active := v, valid := true, lastFault := none })
  · exact h2 (fun e => { e with staged := some v })

theorem writeRecipe (hR : Wide R) (r) : R s (Machine.writeRecipe r s).1 := by
  unfold Machine.writeRecipe; dsimp only
  repeat' split
  all_goals try simp only [State.answer_eq]
  all_goals first
    | exact hR.refl _
    | exact hR.badRecipe _ _
    | exact hR.storeVersion _ _

theorem discardStaged (hR : Wide R) (r) : R s (Machine.discardStaged r s).1 := by
  unfold Machine.discardStaged
  repeat' split
  all_goals try simp only [State.answer_eq]
  all_goals first
    | exact hR.refl _
    | exact hR.modRecipe (hR.refl s) _ _

theorem admitAt (hR : Wide R) (h : R s t) (tag r sc ar f) : R s (t.admitAt tag r sc ar f) := by
  refine Closed.together h _ _ (fun u hu => ?_)
  have h1 := hR.trans h (hR.occupy hu)
  have h2 : R s { u with hangers := u.hangers ++ [Hanger.admitted tag t.admissions r sc ar f] } := hR.trans h1 (hR.hangers u _)
  have h3 : R s { u with hangers := u.hangers ++ [Hanger.admitted tag t.admissions r sc ar f],
                         startOrder := u.startOrder ++ [tag] } := hR.trans h2 (hR.startOrder _ (u.startOrder ++ [tag]))
  have h4 : R s { u with hangers := u.hangers ++ [Hanger.admitted tag t.admissions r sc ar f],
                         startOrder := u.startOrder ++ [tag], admissions := u.admissions + 1 } :=
    hR.trans h3 (hR.admissions _ (u.admissions + 1))
  exact hR.createEntry h4 _ _

theorem admitRule (hR : Wide R) (tag r sc ar st sl) : R s (Machine.admitRule tag r sc ar st sl s).1 := by
  unfold Machine.admitRule; dsimp only
  repeat' split
  all_goals try simp only [State.answer_eq]
  all_goals first
    | exact hR.refl _
    | exact hR.admitAt (hR.refl s) _ _ _ _ _

theorem abortHanger (hR : Wide R) (tag) : R s (Machine.abortHanger tag s).1 := by
  unfold Machine.abortHanger
  refine hR.withHanger _ _ (fun x => ?_)
  dsimp only
  repeat' split
  all_goals try simp only [State.answer_eq]
  all_goals first
    | exact hR.refl _
    | exact hR.abortLoaded (hR.refl s) _
    | exact hR.abortStrict (hR.refl s) _
    | exact hR.abortInPlace (hR.refl s) _
    | exact hR.modHanger (hR.refl s) _ _

theorem beginAfresh (hR : Wide R) (x k r) : R s (s.beginAfresh x k r).1 := by
  unfold State.beginAfresh
  repeat' split
  all_goals try simp only [State.answer_eq]
  all_goals first
    | exact hR.refl _
    | exact Closed.together (hR.refl s) _ _ (fun _ hu => hR.beginStep (hR.modHanger (hR.reserve hu) _ _) _ _ _)
    | exact hR.beginStep (hR.refl s) _ _ _

theorem resumeHanger (hR : Wide R) (tag) : R s (Machine.resumeHanger tag s).1 := by
  unfold Machine.resumeHanger State.resumeBy
  refine hR.withHanger _ _ (fun x => ?_)
  repeat' split
  all_goals try simp only [State.answer_eq]
  all_goals first
    | exact hR.refl _
    | exact hR.resumeInPlace (hR.refl s) _ _
    | exact hR.beginAfresh _ _ _

theorem restartHanger (hR : Wide R) (tag) : R s (Machine.restartHanger tag s).1 := by
  unfold Machine.restartHanger
  refine hR.withHanger _ _ (fun x => ?_)
  repeat' split
  all_goals try simp only [State.answer_eq]
  all_goals first
    | exact hR.refl _
    | exact hR.createEntry (hR.rejoin (hR.modHanger (hR.refl s) _ _) _) _ _

theorem recover (hR : Wide R) (tag st sl) : R s (Machine.recover tag st sl s).1 := by
  unfold Machine.recover; dsimp only
  repeat' split
  all_goals try simp only [State.answer_eq]
  all_goals first
    | exact hR.refl _
    | exact hR.recoverAt (hR.refl s) _ _

theorem unloaded (hR : Wide R) (st sl) : R s (Machine.unloaded st sl s).1 := by
  unfold Machine.unloaded; dsimp only
  repeat' split
  all_goals try simp only [State.answer_eq]
  all_goals first
    | exact hR.refl _
    | exact hR.withdraw (hR.refl s) _ _

theorem clamped_lawful (c : BathSettings) (h1 : ¬ c.clamped.rmax < c.clamped.rmin) (h2 : ¬ c.clamped.trip ≤ c.clamped.band) :
    BathSettings.Lawful c.clamped := by
  have hn {lo hi : Nat} (h : lo ≤ hi) (x : Nat) := clampNat_bounds h x
  have hi := clampInt_bounds (lo := -2000) (hi := 8000) (by decide) c.tset
  exact ⟨hi.1, hi.2, (hn (by decide) _).1, (hn (by decide) _).2, (hn (by decide) _).1, (hn (by decide) _).2,
    (hn (lo := 0) (by decide) _).2, (hn (by decide) _).1, (hn (by decide) _).2, (hn (lo := 0) (by decide) _).2,
    (hn (lo := 0) (by decide) _).2, (hn (lo := 0) (by decide) _).2, (hn (by decide) _).1, by omega, (hn (by decide) _).2,
    (hn (by decide) _).1, (hn (by decide) _).2, (hn (lo := 0) (by decide) _).2, by omega⟩

theorem setBathRequest (hR : Wide R) (st c) : R s (Machine.setBathRequest st c s).1 := by
  unfold Machine.setBathRequest
  refine hR.withBath _ _ (fun b hb => ?_)
  dsimp only
  split
  · exact hR.refl _
  · split
    · exact hR.refl _
    · exact hR.settings _ _ _ _ hb (clamped_lawful _ (by assumption) (by assumption))

theorem bathReport (hR : Wide R) (st z) : R s (Machine.bathReport st z s).1 := by
  unfold Machine.bathReport
  refine hR.withBath _ _ (fun b hb => ?_)
  dsimp only; split
  · exact hR.refl _
  · exact hR.acceptReading (hR.refl s) _ _ _ hb

theorem bathTrip (hR : Wide R) (st) : R s (Machine.bathTrip st s).1 := by
  unfold Machine.bathTrip
  refine hR.withBath _ _ (fun b hb => ?_)
  split
  · exact hR.refl _
  · exact hR.tripBath (hR.refl s) _ _

theorem bathClear (hR : Wide R) (st) : R s (Machine.bathClear st s).1 := by
  unfold Machine.bathClear
  refine hR.withBath _ _ (fun b hb => ?_)
  repeat' split
  all_goals try simp only [State.answer_eq]
  all_goals first
    | exact hR.refl _
    | exact hR.clearTrip (hR.refl s) _ _

theorem replenished (hR : Wide R) (st) : R s (Machine.replenished st s).1 := by
  unfold Machine.replenished
  refine hR.withBath _ _ (fun b hb => ?_)
  split
  · exact hR.refl _
  · refine hR.bathTo _ _ _ _ hb ?_
    rintro ⟨h1, h2, h3, h4, h5⟩
    exact ⟨h1, h2, h3, by dsimp only; omega, h5⟩

theorem setGantry (hR : Wide R) (g lo hi h p m) : R s (Machine.setGantry g lo hi h p m s).1 := by
  unfold Machine.setGantry
  refine hR.withGantry _ _ (fun g => ?_)
  dsimp only
  repeat' split
  all_goals try simp only [State.answer_eq]
  all_goals first
    | exact hR.refl _
    | exact hR.modGantry (hR.refl s) _ _

theorem setGuard (hR : Wide R) (gap) : R s (Machine.setGuard gap s).1 := by
  unfold Machine.setGuard
  repeat' split
  all_goals try simp only [State.answer_eq]
  all_goals first
    | exact hR.refl _
    | exact hR.guardGap _ _

theorem gantryPause (hR : Wide R) (g) : R s (Machine.gantryPause g s).1 := by
  unfold Machine.gantryPause
  refine hR.withGantry _ _ (fun g => ?_)
  repeat' split
  all_goals try simp only [State.answer_eq]
  all_goals first
    | exact hR.refl _
    | exact hR.notifyPause (hR.setLink (hR.refl s) _ _) _ _
    | exact hR.notifyPause (hR.modGantry (hR.refl s) _ _) _ _

theorem gantryResume (hR : Wide R) (g) : R s (Machine.gantryResume g s).1 := by
  unfold Machine.gantryResume
  refine hR.withGantry _ _ (fun g => ?_)
  repeat' split
  all_goals try simp only [State.answer_eq]
  all_goals first
    | exact hR.refl _
    | exact hR.readyWork (hR.notifyPause (hR.setLink (hR.refl s) _ _) _ _) _
    | exact hR.notifyPause (hR.modGantry (hR.refl s) _ _) _ _

theorem gantryReset (hR : Wide R) (g) : R s (Machine.gantryReset g s).1 := by
  unfold Machine.gantryReset
  refine hR.withGantry _ _ (fun g => ?_)
  repeat' split
  all_goals try simp only [State.answer_eq]
  all_goals first
    | exact hR.refl _
    | exact hR.setLink (hR.resetBusy (hR.refl s) _) _ _
    | exact hR.setLink (hR.modGantry (hR.refl s) _ _) _ _

theorem setChannel (hR : Wide R) (c st e b l) : R s (Machine.setChannel c st e b l s).1 := by
  unfold Machine.setChannel
  split
  · split
    · exact hR.refl _
    · split
      · exact hR.refl _
      · dsimp only; split
        · exact hR.refl _
        · exact hR.applyChannel (hR.refl s) _ _ _ _ _ (clampNat_bounds (by decide) _) (clampLength_bounds (clampNat_bounds (by decide) _) _)
  · exact hR.refl _

theorem setGasLimit (hR : Wide R) (g) : R s (Machine.setGasLimit g s).1 := by
  unfold Machine.setGasLimit
  split
  · exact hR.refl _
  · split
    · exact hR.refl _
    · exact hR.gasLimit _ _ (by omega)

theorem gasHold (hR : Wide R) (c h) : R s (Machine.gasHold c h s).1 := by
  unfold Machine.gasHold
  repeat' split
  all_goals try simp only [State.answer_eq]
  all_goals first
    | exact hR.refl _
    | exact hR.setHold (hR.refl s) _ _
    | exact hR.clearHold (hR.refl s) _ _

theorem setMode (hR : Wide R) (hm : ∀ s m, R s { s with mode := m }) (h : R s t) (m c) : R s (t.setMode m c) := by
  unfold State.setMode; split
  · exact h
  · exact hR.notify (hR.trans h (hm _ _)) _ _ _ _ _ _

theorem holdAtRequest (hR : Wide R) (x) : R s (Machine.holdAt x s).1 := by
  unfold Machine.holdAt
  repeat' split
  all_goals try simp only [State.answer_eq]
  all_goals first
    | exact hR.refl _
    | exact hR.holdAt _ _

theorem clearLine (hR : Wide R) : R s (Machine.clearLine s).1 := by
  have h1 : R s s.clearAll := hR.clearAll (hR.refl s)
  unfold Machine.clearLine
  generalize s.clearAll = u at h1
  split
  · exact h1
  · exact hR.refl _

theorem setGrace (hR : Wide R) (g) : R s (Machine.setGrace g s).1 := by
  have h1 : R s { s with grace := clampNat 0 600 g } := hR.grace s _
  have h2 : R s { s with grace := clampNat 0 600 g,
                         hangers := s.hangers.map (fun h => { h with imm := h.imm.regrace (clampNat 0 600 g) }) } :=
    hR.trans h1 (hR.hangers _ (s.hangers.map (fun h => { h with imm := h.imm.regrace (clampNat 0 600 g) })))
  unfold Machine.setGrace; dsimp only
  generalize ({ s with grace := clampNat 0 600 g, hangers := s.hangers.map (fun h =>
    { h with imm := h.imm.regrace (clampNat 0 600 g) }) } : State) = u at h2 ⊢
  exact hR.foldl (fun t tag => t.signal tag) (fun t _ => hR.signal (hR.refl t) _) s.tags h2

theorem rescueClear (hR : Wide R) (l) : R s (Machine.rescueClear l s).1 := by
  unfold Machine.rescueClear; dsimp only
  repeat' split
  all_goals try simp only [State.answer_eq]
  all_goals first
    | exact hR.refl _
    | exact hR.releaseStation (hR.modLine (hR.refl s) _ _) _ _
    | exact hR.modLine (hR.refl s) _ _

theorem setAlarm (hR : Wide R) (d) : R s (Machine.setAlarm d s).1 := hR.testAlarm (hR.alarmDelay _ _)

theorem hello (hR : Wide R) (g) : R s (Machine.hello g s).1 := by
  unfold Machine.hello; dsimp only
  repeat' split
  all_goals try simp only [State.answer_eq]
  all_goals first
    | exact hR.refl _
    | exact hR.setLink (hR.modGantry (hR.refl s) _ _) _ _

theorem homed (hR : Wide R) (g) : R s (Machine.homed g s).1 := by
  unfold Machine.homed; split
  · exact hR.readyWork (hR.setLink (hR.modGantry (hR.refl s) _ _) _ _) _
  · exact hR.refl _

theorem claim (hR : Wide R) (g) : R s (Machine.claim g s).1 := by
  unfold Machine.claim
  repeat' split
  all_goals try simp only [State.answer_eq]
  all_goals first
    | exact hR.refl _
    | exact hR.grantYield (hR.refl s) _ _ _
    | exact hR.claimWalk (hR.refl s) _ _

theorem lifted (hR : Wide R) (g m) : R s (Machine.lifted g m s).1 := hR.report _ _ _ _ (fun _ => hR.lift (hR.refl s) _ _)
theorem lowered (hR : Wide R) (g m) : R s (Machine.lowered g m s).1 := hR.report _ _ _ _ (fun _ => hR.lower (hR.refl s) _)
theorem reportDone (hR : Wide R) (g m) : R s (Machine.reportDone g m s).1 :=
  hR.report _ _ _ _ (fun _ => hR.standIdle (hR.removeMove (hR.refl s) _) _ _)

theorem abandon (hR : Wide R) (g m x) : R s (Machine.abandon g m x s).1 := by
  unfold Machine.abandon; split
  · exact hR.refl _
  · refine hR.report _ _ _ _ (fun m => ?_)
    split
    · exact hR.refl _
    · exact hR.returnToReady (hR.standIdle (hR.refl s) _ _) _

theorem fault (hR : Wide R) (g p m k) : R s (Machine.fault g p m k s).1 := by
  unfold Machine.fault; split
  · exact hR.report _ _ _ _ (fun _ => hR.faultGantry (hR.refl s) _ _)
  · split
    · exact hR.refl _
    · exact hR.faultGantry (hR.refl s) _ _
  · exact hR.refl _

theorem getNotice (hR : Wide R) (p) : R s (Machine.getNotice p s).1 := by
  unfold Machine.getNotice; split
  · exact hR.port s p (fun q => { q with overflow := false }) (fun q => le_refl q.queue.length)
  · rename_i n rest hq
    have h1 : R s (s.modPort p (fun q => { q with queue := (s.port p).queue.tail, overflow := false })) := by
      have e : s.modPort p (fun q => { q with queue := (s.port p).queue.tail, overflow := false })
          = s.modPort p (fun q => { q with queue := q.queue.tail, overflow := false }) := by cases p <;> rfl
      rw [e]
      exact hR.port _ _ _ (fun q => by simp)
    rw [hq] at h1
    dsimp only; split
    · exact hR.testAlarm h1
    · exact h1

theorem setMask (hR : Wide R) (p m) : R s (Machine.setMask p m s).1 := by
  unfold Machine.setMask; split
  · exact hR.refl _
  · exact hR.port s p (fun q => { q with mask := storedMask p m }) (fun q => le_refl q.queue.length)

theorem runLine (hR : Wide R) (hm : ∀ s m, R s { s with mode := m }) : R s (Machine.runLine s).1 := by
  unfold Machine.runLine; split
  · exact hR.refl _
  · exact hR.setMode hm (hR.revalidateAll (hR.refl s)) _ _

theorem drainLine (hR : Wide R) (hm : ∀ s m, R s { s with mode := m }) : R s (Machine.drainLine s).1 := by
  unfold Machine.drainLine; split
  · exact hR.setMode hm (hR.refl s) _ _
  · exact hR.refl _

theorem holdLine (hR : Wide R) (hm : ∀ s m, R s { s with mode := m }) : R s (Machine.holdLine s).1 := by
  unfold Machine.holdLine; split
  · exact hR.setMode hm (hR.refl s) _ _
  · exact hR.refl _

theorem stopLine (hR : Wide R) (hm : ∀ s m, R s { s with mode := m }) : R s (Machine.stopLine s).1 := by
  unfold Machine.stopLine; split
  · exact hR.refl _
  · exact hR.setMode hm (hR.refl s) _ _

/-- The rule of every read changes nothing. -/
theorem readRequests (s : State) :
    (∀ st, (readStation st s).1 = s) ∧ (∀ r v f, (readRecipe r v f s).1 = s) ∧ (∀ tag, (readHanger tag s).1 = s)
    ∧ (∀ tag f, (readRun tag f s).1 = s) ∧ (∀ tag, (readTiming tag s).1 = s) ∧ (∀ st, (readBath st s).1 = s)
    ∧ (∀ f, (readMoves f s).1 = s) ∧ (∀ g, (readGantry g s).1 = s) ∧ (∀ c, (readChannel c s).1 = s)
    ∧ (readLine s).1 = s := by
  refine ⟨?_, ?_, ?_, ?_, ?_, ?_, ?_, ?_, ?_, rfl⟩ <;> intros
  · unfold readStation; split <;> rfl
  · unfold readRecipe; split <;> rfl
  · unfold readHanger State.withHanger; repeat' split
    all_goals rfl
  · unfold readRun State.withHanger; repeat' split
    all_goals rfl
  · unfold readTiming State.withHanger; repeat' split
    all_goals rfl
  · unfold readBath State.withBath; repeat' split
    all_goals rfl
  · unfold readMoves; split <;> rfl
  · unfold readGantry State.withGantry; split <;> rfl
  · unfold readChannel; split <;> rfl

/-- The rule of every request. -/
theorem handRequest (hR : Wide R) (hm : ∀ s m, R s { s with mode := m }) (i : Instr) : R s (Machine.handRequest i s).1 := by
  obtain ⟨r1, r2, r3, r4, r5, r6, r7, r8, r9, r10⟩ := readRequests s
  cases i
  case setStation => exact hR.setStation _ _ _ _ _ _ _ _
  case clearStation => exact hR.clearStation _
  case block => exact hR.block _ _
  case unblock => exact hR.unblock _ _
  case readStation => exact hR.of_eq (r1 _)
  case draftRecipe => exact hR.draftRecipe _ _
  case draftSteps => exact hR.draftSteps _ _ _
  case writeRecipe => exact hR.writeRecipe _
  case discardStaged => exact hR.discardStaged _
  case readRecipe => exact hR.of_eq (r2 _ _ _)
  case admitHanger => exact hR.admitRule _ _ _ _ _ _
  case abortHanger => exact hR.abortHanger _
  case resumeHanger => exact hR.resumeHanger _
  case restartHanger => exact hR.restartHanger _
  case recover => exact hR.recover _ _ _
  case unloaded => exact hR.unloaded _ _
  case readHanger => exact hR.of_eq (r3 _)
  case readRun => exact hR.of_eq (r4 _ _)
  case readTiming => exact hR.of_eq (r5 _)
  case setBath => exact hR.setBathRequest _ _
  case bathReport => exact hR.bathReport _ _
  case bathTrip => exact hR.bathTrip _
  case bathClear => exact hR.bathClear _
  case replenished => exact hR.replenished _
  case readBath => exact hR.of_eq (r6 _)
  case readMoves => exact hR.of_eq (r7 _)
  case setGantry => exact hR.setGantry _ _ _ _ _ _
  case setGuard => exact hR.setGuard _
  case gantryPause => exact hR.gantryPause _
  case gantryResume => exact hR.gantryResume _
  case gantryReset => exact hR.gantryReset _
  case readGantry => exact hR.of_eq (r8 _)
  case setChannel => exact hR.setChannel _ _ _ _ _
  case setGasLimit => exact hR.setGasLimit _
  case gasHold => exact hR.gasHold _ _
  case readChannel => exact hR.of_eq (r9 _)
  case run => exact hR.runLine hm
  case drain => exact hR.drainLine hm
  case hold => exact hR.holdLine hm
  case stop => exact hR.stopLine hm
  case holdAt => exact hR.holdAtRequest _
  case clearLine => exact hR.clearLine
  case setGrace => exact hR.setGrace _
  case rescueClear => exact hR.rescueClear _
  case readLine => exact hR.of_eq r10
  case setAlarm => exact hR.setAlarm _
  case hello => exact hR.hello _
  case homed => exact hR.homed _
  case claim => exact hR.claim _
  case lifted => exact hR.lifted _ _
  case lowered => exact hR.lowered _ _
  case done => exact hR.reportDone _ _
  case abandon => exact hR.abandon _ _ _
  case fault => exact hR.fault _ _ _ _
  case getNotice => exact hR.getNotice _
  case setMask => exact hR.setMask _ _
  all_goals exact hR.refl _

/-! ### Ports and time -/

theorem opened (hR : Wide R) (p n) : R s (s.opened p n) := hR.port _ _ _ (fun _ => le_refl _)
theorem ignored (hR : Wide R) (p n) : R s (s.ignored p n) := hR.port _ _ _ (fun _ => le_refl _)
theorem forming (hR : Wide R) (h : R s t) (p r) : R s (t.forming p r) := hR.trans h (hR.port _ _ _ (fun _ => le_refl _))

theorem takeRequest (hR : Wide R) (p n) (body : State → State × Reply) (hb : ∀ u, R u (body u).1) :
    R s (s.takeRequest p n body) := by
  unfold State.takeRequest; split
  · exact hR.ignored _ _
  · exact hR.forming (hR.trans (hR.opened _ _) (hb _)) _ _

theorem request (hR : Wide R) (i : Instr) (body : State → State × Reply) (hb : ∀ u, R u (body u).1)
    (h : s.request i body = .next t) : R s t := by
  unfold State.request at h; split at h <;> cases h
  · exact hR.takeRequest _ _ _ hb
  · exact hR.refl _

theorem read_queue (q : Port) (n : Nat) : (q.read n).queue = q.queue := by unfold Port.read; split <;> rfl

theorem takeSession (hR : Wide R) (hm : ∀ s m, R s { s with mode := m }) (p l x) : R s (s.takeSession p l x) := by
  unfold State.takeSession; split
  · exact hR.refl _
  · exact hR.port _ _ _ (fun q => by rw [read_queue])
  · exact hR.takeRequest _ _ _ (fun _ => hR.refl _)
  · exact hR.takeRequest _ _ _ (fun _ => hR.refl _)
  · exact hR.takeRequest _ _ _ (fun _ => hR.refl _)
  · exact hR.takeRequest _ _ _ (fun _ => hR.handRequest hm _)

theorem holdAtDue (hR : Wide R) (hm : ∀ s m, R s { s with mode := m }) (h : R s t) : R s t.holdAtDue := by
  unfold State.holdAtDue; split
  · split
    · dsimp only; split
      · exact hR.setMode hm (hR.trans h (hR.holdAt _ _)) _ _
      · exact hR.trans h (hR.holdAt _ _)
    · exact h
  · exact h

theorem settleEdges (hR : Wide R) (h : R s t) : R s t.settleEdges :=
  hR.foldl _ (fun _ _ => hR.edgeDue (hR.edgeDue (hR.edgeDue (hR.refl _) _ _) _ _) _ _) _ h

/-- The taking of every event that is due. -/
theorem settle (hR : Wide R) (hm : ∀ s m, R s { s with mode := m }) (h : R s t) : R s t.settle := by
  unfold State.settle; dsimp only
  refine hR.testAlarm (hR.foldl _ (fun _ _ => hR.burstDue (hR.refl _) _) _ (hR.foldl _ (fun _ _ => hR.burstEndDue (hR.refl _) _) _
    (hR.foldl _ (fun _ _ => hR.limitDue (hR.refl _) _) _ (hR.foldl _ (fun _ _ => hR.staleDue (hR.refl _) _) _
    (hR.holdAtDue hm (hR.foldl _ (fun _ _ => hR.signal (hR.refl _) _) _ (hR.foldl _ (fun _ _ => hR.readyDue (hR.refl _) _) _
    (hR.foldl _ (fun _ _ => hR.unagitatedDue (hR.refl _) _) _ (hR.settleEdges h)))))))))

/-- A command that does not move the line time. -/
theorem exec (hR : Wide R) (hm : ∀ s m, R s { s with mode := m }) {i : Instr} (hi : ∀ e, i ≠ .lineTimeAdvance e)
    (hp : i ≠ .powerOn) (hn : i ≠ .resetn) (h : Machine.exec i s = .next t) : R s t := by
  cases i
  case lineTimeAdvance e => exact absurd rfl (hi e)
  case powerOn => exact absurd rfl hp
  case resetn => exact absurd rfl hn
  case unknownRequest p l x => cases h; exact hR.takeSession hm _ _ _
  case busyRefused p n =>
    cases h; refine hR.port _ _ _ (fun q => ?_); unfold Port.refuse; split <;> exact le_refl _
  case readSession p n => cases h; exact hR.port _ _ _ (fun q => by rw [read_queue])
  case replyReady p => cases h; refine hR.port _ _ _ (fun q => ?_); unfold Port.complete; split <;> exact le_refl _
  case edgeCrossed => cases h; exact hR.edgeDue (hR.refl _) _ _
  case readyTimeReached => cases h; exact hR.readyDue (hR.refl _) _
  case rescueCompareReached => cases h; exact hR.signal (hR.refl _) _
  case holdAtReached => cases h; exact hR.holdAtDue hm (hR.refl _)
  case staleCompareReached => cases h; exact hR.staleDue (hR.refl _) _
  case moveLimitReached => cases h; exact hR.limitDue (hR.refl _) _
  case burstFallsDue => cases h; exact hR.burstDue (hR.burstEndDue (hR.refl _) _) _
  case burstEnd => cases h; exact hR.burstEndDue (hR.refl _) _
  case unagitatedLimitPassed => cases h; exact hR.unagitatedDue (hR.refl _) _
  case alarmAssert =>
    have h' : t = if s.alarmDue then { s with alarm := true } else s := by cases h; rfl
    rw [h']; split
    · exact hR.alarm _ _
    · exact hR.refl _
  all_goals exact hR.request _ _ (fun u => hR.handRequest (s := u) hm _) ((exec_request _ s rfl).symm.trans h)

end Wide

end Sys2Proof.Machine
end

