-- ==== Sys2Proof/Laws/Gas.lean ====
section
/-! SUPPORT. What a gas hold and its end can do, said once: the arbiter's choice, the rebase of a released channel, and for each of
the four operations the whole of its effect on the channels, in the words of `HoldSet` and `HoldEnded`. -/

namespace Sys2Proof.Machine

/-! ### The arbiter's choice (R158) -/

theorem earlier_asymm {a b : LineTime} (h : earlier a b = true) : earlier b a = false := by
  unfold earlier reached at *
  simp only [bne_iff_ne, ne_eq, Bool.and_eq_true, decide_eq_true_eq, Bool.and_eq_false_imp, decide_eq_false_iff_not] at *
  intro _ h2
  have h3 : ¬ a.toNat = b.toNat := fun e => h.1 (BitVec.eq_of_toNat_eq e)
  have := h.2
  rw [BitVec.toNat_sub] at h2 this
  have := a.isLt; have := b.isLt
  omega

theorem earlier_irrefl (a : LineTime) : earlier a a = false := by simp [earlier]

/-- No channel is DEFERRED, so the valve goes to none. -/
theorem State.firstDeferred_none {s : State} (h : ∀ m, m ≤ 7 → (s.channel m).state ≠ .deferred) : s.firstDeferred = none := by
  have key : ∀ l : List Nat, (∀ n ∈ l, n ≤ 7) → l.foldl (fun best n => earlierDeferred best n (s.channel n)) none = none := by
    intro l
    induction l with
    | nil => exact fun _ => rfl
    | cons n l ih =>
      intro hl
      have hn := h n (hl n (by simp))
      have : earlierDeferred none n (s.channel n) = none := by
        unfold earlierDeferred; split <;> simp_all
      rw [List.foldl_cons, this]
      exact ih (fun x hx => hl x (by simp [hx]))
  unfold State.firstDeferred
  rw [key _ (fun n hn => by have := List.mem_range.1 hn; simp [Config.channels] at this; omega)]
  rfl

/-- The DEFERRED channel with the earliest deferred due, ties to the lower number, is the one the valve goes to. -/
theorem State.firstDeferred_eq {s : State} {m : Nat} {d : LineTime} (hm : m ≤ 7) (hs : (s.channel m).state = .deferred)
    (hd : (s.channel m).deferredDue = some d)
    (hmin : ∀ o e, o ≤ 7 → o ≠ m → (s.channel o).state = .deferred → (s.channel o).deferredDue = some e →
      earlier d e = true ∨ (d = e ∧ m < o)) : s.firstDeferred = some m := by
  have keep : ∀ l : List Nat, (∀ n ∈ l, n ≤ 7) →
      l.foldl (fun best n => earlierDeferred best n (s.channel n)) (some (m, d)) = some (m, d) := by
    intro l
    induction l with
    | nil => exact fun _ => rfl
    | cons n l ih =>
      intro hl
      have : earlierDeferred (some (m, d)) n (s.channel n) = some (m, d) := by
        unfold earlierDeferred
        split
        · rename_i e; cases e
        · rename_i e b hc he hb
          cases hb
          by_cases hnm : n = m
          · subst hnm; rw [hd] at he; cases he; simp [earlier_irrefl]
          · rcases hmin n _ (hl n (by simp)) hnm hc he with h | h
            · simp [earlier_asymm h]
            · rw [h.1]; simp [earlier_irrefl]
        · rfl
      rw [List.foldl_cons, this]
      exact ih (fun x hx => hl x (by simp [hx]))
  have key : ∀ (l : List Nat) (best : Option (Nat × LineTime)), (∀ n ∈ l, n ≤ 7) → m ∈ l → l.Pairwise (· < ·) →
      (∀ o e, best = some (o, e) → o ≤ 7 ∧ o ≠ m ∧ (s.channel o).state = .deferred ∧ (s.channel o).deferredDue = some e
        ∧ ∀ n ∈ l, o < n) →
      l.foldl (fun best n => earlierDeferred best n (s.channel n)) best = some (m, d) := by
    intro l
    induction l with
    | nil => intro _ _ h; cases h
    | cons n l ih =>
      intro best hl hml hp hb
      rw [List.foldl_cons]
      have hp' := List.pairwise_cons.1 hp
      by_cases hnm : n = m
      · subst hnm
        have : earlierDeferred best n (s.channel n) = some (n, d) := by
          unfold earlierDeferred
          rw [hs, hd]
          cases best with
          | none => rfl
          | some p =>
            obtain ⟨o, e⟩ := p
            obtain ⟨h1, h2, h3, h4, h5⟩ := hb o e rfl
            rcases hmin o e h1 h2 h3 h4 with h | h
            · simp [h]
            · have := h5 n (by simp); omega
        rw [this]
        exact keep _ (fun x hx => hl x (by simp [hx]))
      · have hml' : m ∈ l := by
          rcases List.mem_cons.1 hml with h | h
          · exact absurd h.symm hnm
          · exact h
        refine ih _ (fun x hx => hl x (by simp [hx])) hml' hp'.2 ?_
        intro o e he
        unfold earlierDeferred at he
        split at he
        · rename_i hc hdue
          cases he
          exact ⟨hl _ (by simp), hnm, hc, hdue, hp'.1⟩
        · rename_i hc hdue
          split at he
          · cases he; exact ⟨hl _ (by simp), hnm, hc, hdue, hp'.1⟩
          · cases he
            obtain ⟨h1, h2, h3, h4, h5⟩ := hb _ _ rfl
            exact ⟨h1, h2, h3, h4, fun x hx => h5 x (by simp [hx])⟩
        · obtain ⟨h1, h2, h3, h4, h5⟩ := hb _ _ he
          exact ⟨h1, h2, h3, h4, fun x hx => h5 x (by simp [hx])⟩
  unfold State.firstDeferred
  rw [key (List.range Config.channels) none
    (fun n hn => by have := List.mem_range.1 hn; simp [Config.channels] at this; omega)
    (List.mem_range.2 (by simp [Config.channels]; omega)) List.pairwise_lt_range (fun o e h => by cases h)]
  rfl

/-! ### The rebase (R161) -/

/-- The channel after `i` schedulings, each from its next due. -/
def Channel.scheduled (c : Channel) : Nat → Channel
  | 0 => c
  | i + 1 => match (c.scheduled i).nextDue with
    | some d => (c.scheduled i).schedule d
    | none => c.scheduled i

theorem Channel.scheduled_succ (c : Channel) (d : LineTime) (h : c.nextDue = some d) (i : Nat) :
    c.scheduled (i + 1) = (c.schedule d).scheduled i := by
  induction i with
  | zero => simp [Channel.scheduled, h]
  | succ i ih => rw [Channel.scheduled, ih]; rfl

/-- A rebase with enough fuel is a chain of schedulings from due times that are reached, up to one that is not. -/
theorem Channel.rebase_chain (now : LineTime) (fuel : Nat) (c : Channel) (h1 : 1 ≤ c.interval) (h2 : c.interval ≤ 6000)
    (hf : ∀ d, c.nextDue = some d → reached now d = true → (now - d).toNat / c.interval + 1 ≤ fuel) :
    ∃ j, c.rebase now fuel = c.scheduled j
      ∧ (∀ i, i < j → ∃ d, (c.scheduled i).nextDue = some d ∧ reached now d = true
        ∧ c.scheduled (i + 1) = (c.scheduled i).schedule d)
      ∧ ∀ d, (c.scheduled j).nextDue = some d → reached now d = false := by
  induction fuel generalizing c with
  | zero =>
    refine ⟨0, rfl, fun i hi => by omega, fun d hd => ?_⟩
    by_contra hr
    exact absurd (hf d hd (by simpa using hr)) (Nat.not_succ_le_zero _)
  | succ fuel ih =>
    cases hn : c.nextDue with
    | none =>
      refine ⟨0, by simp [Channel.rebase, hn, Channel.scheduled], fun i hi => by omega, fun d hd => ?_⟩
      simp [Channel.scheduled, hn] at hd
    | some d =>
      by_cases hr : reached now d = true
      · have hi : (c.schedule d).interval = c.interval := by unfold Channel.schedule; split <;> rfl
        have hd' : ∃ k, (k = c.interval ∨ k = c.interval + 1) ∧ (c.schedule d).nextDue = some (d + BitVec.ofNat 32 k) := by
          unfold Channel.schedule; split
          · exact ⟨_, Or.inr rfl, rfl⟩
          · exact ⟨_, Or.inl rfl, rfl⟩
        obtain ⟨k, hk, hkd⟩ := hd'
        obtain ⟨j, hj, hc, he⟩ := ih (c.schedule d) (by omega) (by omega) (fun e hed hre => by
          rw [hkd] at hed; cases hed
          have hfu := hf d hn hr
          unfold reached at hr hre
          simp only [decide_eq_true_eq] at hr hre
          rw [hi]
          have hsub : (now - (d + BitVec.ofNat 32 k)).toNat = ((now - d).toNat + (2 ^ 32 - k)) % 2 ^ 32 := by
            rw [BitVec.toNat_sub, BitVec.toNat_sub, BitVec.toNat_add, BitVec.toNat_ofNat]
            have := now.isLt; have := d.isLt
            omega
          have hle : k ≤ (now - d).toNat := by omega
          have heq : (now - (d + BitVec.ofNat 32 k)).toNat = (now - d).toNat - k := by omega
          rw [heq]
          have hq : ((now - d).toNat - k) / c.interval ≤ ((now - d).toNat - c.interval) / c.interval :=
            Nat.div_le_div_right (by omega)
          have hs : ((now - d).toNat - c.interval) / c.interval = (now - d).toNat / c.interval - 1 := by
            have h3 : (now - d).toNat = ((now - d).toNat - c.interval) + c.interval := by omega
            conv_rhs => rw [h3]
            rw [Nat.add_div_right _ (by omega)]; rfl
          have hp : 1 ≤ (now - d).toNat / c.interval := (Nat.le_div_iff_mul_le (by omega)).2 (by omega)
          omega)
        refine ⟨j + 1, ?_, ?_, ?_⟩
        · rw [Channel.scheduled_succ c d hn, ← hj]; simp [Channel.rebase, hn, hr]
        · intro i hij
          cases i with
          | zero => exact ⟨d, hn, hr, by rw [Channel.scheduled_succ c d hn]; rfl⟩
          | succ i =>
            obtain ⟨e, h3, h4, h5⟩ := hc i (by omega)
            rw [Channel.scheduled_succ c d hn, Channel.scheduled_succ c d hn]
            exact ⟨e, h3, h4, h5⟩
        · rw [Channel.scheduled_succ c d hn]; exact he
      · refine ⟨0, by simp [Channel.rebase, hn, hr, Channel.scheduled], fun i hi => by omega, fun e he => ?_⟩
        have he' : c.nextDue = some e := he
        rw [hn] at he'; cases he'
        simpa using hr

/-! ### Holds and their ends (R160, R161) -/

theorem causeSet_eq (c : Channel) (k : HoldCause) (b : Bool) : causeSet c k b = c.withCause k b := by cases k <;> rfl

theorem noCause_iff (c : Channel) : NoCause c ↔ c.anyCause = false := by
  unfold NoCause Channel.anyCause
  cases c.holdSupervisor <;> cases c.holdTrip <;> cases c.holdRescue <;> simp

/-- A hold cause set on a channel. -/
theorem State.setHold_holds (s : State) {n : Nat} (h : n ≤ 7) (k : HoldCause) : HoldSet s (s.setHold n k) n k := by
  have hn : n < 8 := by omega
  refine ⟨_, rfl, ?_, ?_, ?_⟩
  · intro hc
    rw [causeSet_eq, Closed.withCause_state, noCause_iff] at hc
    unfold State.setHold; dsimp only
    rw [if_pos (by simpa using hc), causeSet_eq]
    rfl
  · intro h0 hc h1
    rw [causeSet_eq, Closed.withCause_state] at *
    rw [noCause_iff] at hc
    unfold State.setHold; dsimp only
    rw [if_neg (by simp [h0, hc])]
    split
    · rename_i hb
      have h2 : ∀ m, m ≤ 7 → (s.channel m).state ≠ .deferred := h1.resolve_left (fun e => e hb)
      unfold State.offerValve
      rw [State.firstDeferred_none]
      · simp only [State.modChannel, State.channel, Vector.getElem?_setIfInBounds_self, hn, if_true, Option.getD_some]
        rw [Vector.setIfInBounds_setIfInBounds]; rfl
      · intro m hm
        rw [State.channel_modChannel hn]; split
        · simp [Channel.hold]
        · rw [State.channel_modChannel hn]; split
          · contradiction
          · exact h2 m hm
    · simp only [State.modChannel, State.channel, Vector.getElem?_setIfInBounds_self, hn, if_true, Option.getD_some]
      rw [Vector.setIfInBounds_setIfInBounds]; rfl
  · intro m d hb hc hm hs hd hmin
    rw [causeSet_eq, Closed.withCause_state] at *
    rw [noCause_iff] at hc
    have hnm : m ≠ n := by intro e; subst e; rw [hb] at hs; cases hs
    have ch : ∀ o, o ≠ n → (((s.modChannel n (fun c => c.withCause k true)).modChannel n Channel.hold).channel o) = s.channel o := by
      intro o ho
      rw [State.channel_modChannel hn, if_neg ho, State.channel_modChannel hn, if_neg ho]
    unfold State.setHold; dsimp only
    rw [if_neg (by simp [hb, hc]), if_pos hb]
    unfold State.offerValve
    rw [State.firstDeferred_eq (m := m) (d := d) hm (by rw [ch m hnm]; exact hs) (by rw [ch m hnm]; exact hd)]
    · show ((((s.modChannel n _).modChannel n Channel.hold).modChannel m _).channels) = _
      rw [State.modChannel, ch m hnm]
      simp only [State.modChannel, State.channel, Vector.getElem?_setIfInBounds_self, hn, if_true, Option.getD_some]
      rw [Vector.setIfInBounds_setIfInBounds]
      congr 1
      simp only [Channel.openValve, plus, satAdd, min_def]
      congr 1
      split <;> split <;> omega
    · intro o e ho hom hso hdo
      by_cases hon : o = n
      · subst hon
        rw [State.channel_modChannel hn, if_pos rfl] at hso
        simp [Channel.hold] at hso
      · rw [ch o hon] at hso hdo; exact hmin o e ho hom hso hdo

/-- A hold cause ended on a channel. -/
theorem State.clearHold_ends (s : State) {n : Nat} (k : HoldCause) : HoldEnded s (s.clearHold n k) n k := by
  refine ⟨_, rfl, ?_, ?_, ?_⟩
  · intro hc
    rw [causeSet_eq, noCause_iff] at *
    show s.channels.setIfInBounds n (Channel.release _ _) = _
    unfold Channel.release
    rw [if_neg (by rintro ⟨h1, h2⟩; exact hc.elim (fun h => h h1) (fun h => h h2))]
  · intro h1 h2 h3
    rw [causeSet_eq, noCause_iff] at *
    show s.channels.setIfInBounds n (Channel.release _ _) = _
    unfold Channel.release
    rw [if_pos ⟨h1, h2⟩, if_pos h3]
  · intro h1 h2 h3 h4 h5
    rw [causeSet_eq, noCause_iff] at *
    obtain ⟨j, hj, hc, he⟩ := Channel.rebase_chain s.lineTime (Channel.rebaseFuel s.lineTime ((s.channel n).withCause k false))
      ((s.channel n).withCause k false) h4 h5 (fun d hd hr => by simp [Channel.rebaseFuel, hd, hr])
    refine ⟨j, ((s.channel n).withCause k false).scheduled, rfl, hc, he, ?_⟩
    show s.channels.setIfInBounds n (Channel.release _ _) = _
    unfold Channel.release
    rw [if_pos ⟨h1, h2⟩, if_neg (by simp [h3]), hj]

/-- A hold cause set on the channel of a station. -/
theorem State.holdStation_holds (s : State) (st : Nat) (k : HoldCause) : StationHeld s (s.holdStation st k) st k := by
  refine ⟨fun h => ?_, fun n h hn => ?_⟩
  · simp [State.holdStation, h]
  · have e : s.holdStation st k = s.setHold n k := by simp [State.holdStation, h]
    rw [e]; exact s.setHold_holds hn k

/-- A hold cause ended on the channel of a station. -/
theorem State.releaseStation_ends (s : State) (st : Nat) (k : HoldCause) : StationReleased s (s.releaseStation st k) st k := by
  refine ⟨fun h => ?_, fun n h _ => ?_⟩
  · simp [State.releaseStation, h]
  · have e : s.releaseStation st k = s.clearHold n k := by simp [State.releaseStation, h]
    rw [e]; exact s.clearHold_ends k

end Sys2Proof.Machine
end

