-- ==== Sys2Proof/Tests/Slice0.lean ====
section
/-! SUPPORT. The author's own tests: the WellFormed check on ill-formed terms, frames written out from the layouts, one step of
each kind of command on a small line, and for the statements of Certificates/Slice0/Obligations.lean states and operands that
meet their hypotheses (the theorems named witness_…). -/

namespace Sys2Proof.Tests

set_option Elab.async false

open Sys2Proof Sys2Proof.Machine

/-! ### A small line -/

/-- A configured station. -/
def stn (cls : StationClass) (grp x n : Nat) : Station :=
  { Station.absent with configured := true, cls := cls, group := grp, coordinate := x, slotCount := n }

/-- The developer of the line: STRICT, supervised, with rescue line 0 and gas channel 0. -/
def developer : Station :=
  { stn .strict 1 500 2 with supervised := true, rescueLine := some 0, gasChannel := some 0, allowance := 100 }

def strictStep : RecipeStep :=
  { group := 1, cls := .strict, timeA := 6000, timeB := 50, timeC := 50, drip := 100, unagitated := 600 }

def washStep : RecipeStep :=
  { group := 2, cls := .bounded, timeA := 300, timeB := 900, timeC := 0, drip := 50, unagitated := 0 }

def bath : Bath :=
  { settings := { BathSettings.activation with gain := 2, shift := 1, dmax := 1000, slew := 10 }, readiness := .ready,
    latest := some (2000, 100#32), used := some 2000, firstReading := false, rateHeld := false, deviation := 0, rate := 1024,
    warmingEntry := 0, staleCompare := some 3100#32, returnState := .inService, tripCause := none, area := 0, debt := 0,
    activation := 0 }

def channel0 : Channel := { Channel.atPowerOn with station := some 1, enable := true, state := .paused }

/-- LOAD, STRICT, BOUNDED, OPEN and UNLOAD stations, a recipe of two steps, a bath, both gantries READY, in RUN at 1000. -/
def line : State :=
  { State.reset with
      lineTime := 1000
      stations := ((((State.reset.stations.setIfInBounds 0 (stn .load 0 100 2)).setIfInBounds 1 developer).setIfInBounds 2
        (stn .bounded 2 800 2)).setIfInBounds 3 (stn .opened 3 1100 1)).setIfInBounds 4 (stn .unload 4 2000 2)
      recipes := State.reset.recipes.setIfInBounds 0 { Recipe.blank with active := [strictStep, washStep] }
      baths := State.reset.baths.setIfInBounds 1 (some bath)
      channels := State.reset.channels.setIfInBounds 0 channel0
      gantryA := { (Gantry.atPowerOn 100) with link := .ready }
      gantryB := { (Gantry.atPowerOn 3000) with link := .ready }
      mode := .run }

/-- A hanger at rest in a slot. -/
def hanger (tag : Nat) (st : HangerState) (loc : Location) : Hanger :=
  { tag := tag, seq := 0, recipe := 0, bound := true, scale := 1000, area := 40, state := st, phase := none, step := 0,
    location := loc, forward := none, pendingAbort := false, restCause := none, imm := Immersion.blank, run := [], dropped := 0 }

/-- The entry a step opens. -/
def entry (st sl : Nat) : RunEntry := RunEntry.opened ⟨st, sl⟩ 900

def move (id : Nat) (kind : MoveKind) (state : MoveState) (source : Place) (dest : Option Place) (tag : Nat) : Move :=
  { Move.fresh kind source dest with id := id, state := state, tag := some tag, seq := some 0 }

/-- A state with one hanger in a slot and one move. -/
def hung (s : State) (h : Hanger) (m : List Move) (slots : List (SlotRef × Slot)) : State :=
  slots.foldl (fun t x => t.setSlot x.1 x.2) { s with hangers := [h], moves := m }

/-- What a command leaves. -/
def after (s : State) (i : Instr) : State :=
  match exec i s with
  | .next t => t
  | _ => s

/-- The status of the reply a command leaves being formed on a port. -/
def replied (s : State) (p : PortId) (i : Instr) : Option Status :=
  match ((after s i).port p).holder with
  | .working r => some r.status
  | _ => none

/-- A LOADED hanger at the load station with its ENTRY move. -/
def loaded : Hanger := hanger 7 .loaded (.slot ⟨0, 1⟩)

def atLoad : State :=
  { hung line { loaded with bound := false } [move 9 .entry .ready (.slot ⟨0, 1⟩) none 7] [(⟨0, 1⟩, .occupied 7)] with
      startOrder := [7], moveCounter := 10 }

/-- The immersion of `strictStep` begun at 900. -/
def strictImm : Immersion := Immersion.start 900 1 strictStep .strict 1000 1024 100

def developing : Hanger :=
  { hanger 7 .immersed (.slot ⟨1, 0⟩) with forward := some ⟨2, 0⟩, imm := strictImm, run := [entry 1 0] }

def exitMove : Move :=
  { move 9 .step .waiting (.slot ⟨1, 0⟩) (some (.slot ⟨2, 0⟩)) 7 with ready := 6800, due := some 6900, deadline := some 6950,
                                                                       drip := 100 }

/-- A hanger in the developer with its move to the wash. -/
def inDeveloper : State :=
  hung line developing [exitMove] [(⟨1, 0⟩, .occupied 7), (⟨2, 0⟩, .reserved 7 .forward)]

def washing : Hanger :=
  { hanger 7 .immersed (.slot ⟨2, 1⟩) with
      step := 1, imm := Immersion.start 900 2 washStep .bounded 1000 1024 100, run := [entry 1 0, entry 2 1] }

/-- A hanger in the wash with its move to the exit. -/
def inWash : State :=
  hung line washing [move 9 .exit .waiting (.slot ⟨2, 1⟩) none 7] [(⟨2, 1⟩, .occupied 7)]

/-- Gantry A has been granted the move of `inWash` to unload slot 4/0. -/
def granted : State :=
  { hung line { washing with state := .inTransit, phase := some .granted }
      [{ move 9 .exit .granted (.slot ⟨2, 1⟩) (some (.slot ⟨4, 0⟩)) 7 with gantry := some .a, limit := some 1000#32 }]
      [(⟨2, 1⟩, .occupied 7), (⟨4, 0⟩, .reserved 7 .destination)] with
      gantryA := { line.gantryA with link := .busy, granted := some 9, spanLow := 100, spanHigh := 2000 } }

/-- Gantry A carries hanger 7 to a slot; `target` says where its run record stands. -/
def carrying (h : Hanger) (kind : MoveKind) (d : SlotRef) : State :=
  { hung line { h with state := .inTransit, phase := some .carried, location := .gantry .a }
      [{ move 9 kind .carried (.slot ⟨3, 0⟩) (some (.slot d)) 7 with gantry := some .a, limit := some 2000#32 }]
      [(d, .reserved 7 .destination)] with
      gantryA := { line.gantryA with link := .busy, granted := some 9, spanLow := 100, spanHigh := 2000 } }

/-- Rescue line 0 asserted. -/
def raised (s : State) : State := s.modLine 0 (fun r => { r with asserted := true })

/-- An empty line in IDLE. -/
def idle : State := { line with mode := .idle }

/-! ### WellFormed: a term each check refuses -/

theorem test_wf_byte_operand : (Instr.clearStation 256).wf = false ∧ (Instr.clearStation 255).wf = true := by decide
theorem test_wf_word_operand : (Instr.setGuard 65536).wf = false ∧ (Instr.setGuard 65535).wf = true := by decide
theorem test_wf_each_operand :
    (Instr.setStation 0 256 0 0 1 0 0 0).wf = false ∧ (Instr.setStation 0 0 256 0 1 0 0 0).wf = false
    ∧ (Instr.setStation 0 0 0 65536 1 0 0 0).wf = false ∧ (Instr.setStation 0 0 0 0 256 0 0 0).wf = false
    ∧ (Instr.setStation 0 0 0 0 1 65536 0 0).wf = false ∧ (Instr.setStation 0 0 0 0 1 0 256 0).wf = false
    ∧ (Instr.setStation 0 0 0 0 1 0 0 256).wf = false ∧ (Instr.setStation 0 0 0 0 1 0 0 255).wf = true := by decide
theorem test_wf_signed_operand :
    (Instr.bathReport 0 32768).wf = false ∧ (Instr.bathReport 0 (-32769)).wf = false
    ∧ (Instr.bathReport 0 (-32768)).wf = true := by decide
theorem test_wf_draft_steps :
    (Instr.draftSteps 0 0 []).wf = false ∧ (Instr.draftSteps 0 0 (List.replicate 6 ⟨0, 0, 0, 0, 0, 0⟩)).wf = false
    ∧ (Instr.draftSteps 0 0 [⟨0, 65536, 0, 0, 0, 0⟩]).wf = false ∧ (Instr.draftSteps 0 0 [⟨0, 65535, 0, 0, 0, 0⟩]).wf = true := by
  decide
theorem test_wf_bath_settings :
    (Instr.setBath 0 { BathSettings.activation with shift := 256 }).wf = false
    ∧ (Instr.setBath 0 BathSettings.activation).wf = true := by decide
theorem test_wf_sessions :
    (Instr.unknownRequest .p0 [] 8).wf = false ∧ (Instr.busyRefused .p0 0).wf = false ∧ (Instr.readSession .p1 0).wf = false
    ∧ (Instr.readSession .p1 1).wf = true := by decide
theorem test_wf_event_rows :
    (Instr.staleCompareReached 24).wf = false ∧ (Instr.burstFallsDue 8).wf = false ∧ (Instr.burstEnd 8).wf = false
    ∧ (Instr.edgeCrossed 256 .target).wf = false ∧ (Instr.moveLimitReached 256).wf = false := by decide

/-! ### Frames -/

theorem test_frame_read_hanger : decodeSession .p0 [0x26#8, 0x01#8, 0x11#8] 0 = .request (.readHanger 17) := by decide
theorem test_frame_bath_report :
    decodeSession .p0 [0x31#8, 0x03#8, 0x01#8, 0x30#8, 0xF8#8] 0 = .request (.bathReport 1 (-2000)) := by decide
theorem test_frame_abandon :
    decodeSession .p1 [0x66#8, 0x03#8, 0x0C#8, 0xA4#8, 0x01#8] 0 = .request (.abandon .a 12 420) := by decide
theorem test_frame_written_out :
    requestFrame 0x26 [0x11#8] = [0x26#8, 0x01#8, 0x11#8]
    ∧ encodeRequest (.setGuard 200) = some (.p0, 0x41, [0xC8#8, 0x00#8]) := by decide
theorem test_frame_refusals :
    decodeSession .p0 [0x26#8] 0 = .refused .badLength ∧ decodeSession .p0 [0x26#8, 0x01#8] 0 = .refused .badLength
    ∧ decodeSession .p0 [0x26#8, 0x01#8, 0x11#8] 1 = .refused .badLength
    ∧ decodeSession .p0 [0x0F#8, 0x00#8] 0 = .refused .unknown ∧ decodeSession .p1 [0x26#8, 0x01#8, 0x11#8] 0 = .refused .wrongPort
    ∧ decodeSession .p0 [0x26#8, 0x00#8] 0 = .refused .badLength ∧ decodeSession .p0 [] 3 = .nothing
    ∧ decodeSession .p0 [0x00#8, 0x00#8] 0 = .read 2 := by decide
theorem test_table_spells_no_word (n w : Nat) : decodeTableWord n w = none := rfl

/-! ### The queue, reset and the ports -/

theorem test_step_takes_the_front :
    step { State.reset with pending := [.ident .p1, .run] } = exec (.ident .p1) { State.reset with pending := [.run] } := rfl
theorem test_step_idles : step State.reset = .next State.reset := rfl
theorem test_power_on_keeps_the_queue :
    exec .powerOn { line with pending := [.run] } = .next { State.reset with pending := [.run] } := rfl
theorem witness_port_free : PortFree State.reset .p0 ∧ PortFree line .p1
    ∧ PortFree (line.modPort .p2 (fun q => { q with holder := .held [0x00#8, 0x00#8] })) .p2 := by
  refine ⟨?_, ?_, ?_⟩ <;> (unfold PortFree; decide)
theorem test_ident : (after line (.ident .p2)).port2.holder
    = .working { status := .ok, payload := [0x54#8, 0x01#8, 0x01#8, 0x02#8] } := by decide +kernel
theorem witness_working_port : ((after line (.ident .p0)).port .p0).working = true
    ∧ encodeRequest .run = some (.p0, 0x50, []) := by decide +kernel
theorem test_busy_refused :
    ((after (after line (.ident .p0)) .run).port0.busyRefused, (after (after line (.ident .p0)) .run).mode) = (true, LineMode.run)
    ∧ (after (after line (.ident .p0)) (.busyRefused .p0 3)).port0.shifted = [0xFF#8, 0xFF#8, 0xFF#8] := by decide +kernel
theorem test_reply_is_read :
    (after (after (after line (.ident .p0)) (.replyReady .p0)) (.readSession .p0 7)).port0.shifted
      = [0x00#8, 0x04#8, 0x54#8, 0x01#8, 0x01#8, 0x00#8, 0xFF#8] := by decide +kernel
theorem witness_reply_holder :
    (∃ r, (after line (.ident .p0)).port0.holder = .working r)
    ∧ (∃ f, (after (after line (.ident .p0)) (.replyReady .p0)).port0.holder = .held f)
    ∧ (∀ f, line.port0.holder ≠ .held f) := by
  refine ⟨⟨_, rfl⟩, ⟨_, rfl⟩, ?_⟩; intro f h; exact Holder.noConfusion h
theorem witness_frame_checks :
    (0x26#8 : Byte) ≠ 0 ∧ knownCode 0x0F = false ∧ (knownCode 0x26 = true ∧ permitted .p1 0x26 = false)
    ∧ (permitted .p0 0x26 = true ∧ parsePayload .p0 0x26 [] = none) := by decide
theorem witness_request_frame : (Instr.setGuard 200).wf = true
    ∧ encodeRequest (.setGuard 200) = some (.p0, 0x41, [0xC8#8, 0x00#8]) := by decide

/-! ### Notices -/

/-- A full queue of maskable notices behind a RESCUE notice. -/
def fullQueue : List Notice :=
  [{ kind := .rescue, time := 100, tag := none, station := none, move := none, codeA := 0, codeB := 0, codeC := 0, codeD := 0 }]
    ++ List.replicate 15 { kind := .step, time := 5, tag := none, station := none, move := none, codeA := 0, codeB := 0, codeC := 0,
                           codeD := 0 }

def fullPort : Port := { Port.atPowerOn with queue := fullQueue }

theorem witness_notices :
    ({ Port.atPowerOn with mask := 1 } : Port).masks .step = true ∧ Port.atPowerOn.masks .step = false
    ∧ fullPort.queue.length = 16 ∧ NoticeKind.step.maskable = true ∧ NoticeKind.stranded.maskable = false := by decide
theorem test_full_queue :
    (fullPort.push { kind := .step, time := 9, tag := none, station := none, move := none, codeA := 0, codeB := 0, codeC := 0,
                     codeD := 0 }) = { fullPort with overflow := true }
    ∧ ((fullPort.push { kind := .stranded, time := 9, tag := none, station := none, move := none, codeA := 0, codeB := 0,
                        codeC := 0, codeD := 0 }).queue.map Notice.kind)
      = .rescue :: List.replicate 14 .step ++ [.stranded] := by decide
theorem witness_displacement : ({ line with port0 := fullPort } : State).port0.masks .stranded = false
    ∧ 16 ≤ ({ line with port0 := fullPort } : State).port0.queue.length := by decide +kernel
theorem test_displacement_tests_alarm :
    ((({ line with port0 := fullPort } : State).notify .stranded none none none 0 0).alarm = true)
    ∧ (({ line with port0 := { fullPort with queue := fullQueue.tail ++ fullQueue.tail.take 1 }, alarm := true } : State).notify
        .rescue none none none 0 0).alarm = false := by decide +kernel
theorem test_get_notice_tests_alarm :
    replied { line with port0 := fullPort } .p0 (.getNotice .p0) = some .ok
    ∧ (after { line with port0 := fullPort, alarm := true } (.getNotice .p0)).alarm = false
    ∧ replied line .p0 (.getNotice .p0) = some .none := by decide +kernel
theorem test_alarm_assert : (after { line with port0 := fullPort } .alarmAssert).alarm = true
    ∧ (after line .alarmAssert).alarm = false := by decide +kernel
theorem witness_alarm : ∃ n ∈ ({ line with port0 := fullPort } : State).port0.queue, n.kind.maskable = false
    ∧ ({ line with port0 := fullPort } : State).alarmDelay < (1000#32 - n.time).toNat := by decide +kernel
theorem test_masks_and_delay :
    (after line (.setMask .p0 0x1FFF#16)).port0.mask = 0x1E7F#16 ∧ replied line .p0 (.setMask .p0 0x2000#16) = some .badArg
    ∧ replied line .p1 (.setMask .p1 4#16) = some .badArg ∧ (after line (.setMask .p2 3#16)).port2.mask = 3#16
    ∧ (after line (.setAlarm 6001)).alarmDelay = 6000 ∧ replied line .p0 (.setAlarm 6000) = some .ok := by decide +kernel

/-! ### Stations and slots -/

theorem reset_station_absent (o : Nat) : (State.reset.station o).configured = false := by
  by_cases h : o < 24
  · revert h o; decide +kernel
  · have : State.reset.stations[o]? = none := Vector.getElem?_eq_none (by omega)
    simp only [State.station, this, Option.getD_none]; decide

theorem witness_station_write :
    (State.reset.mode = .idle ∧ State.reset.hangers = [] ∧ (State.reset.station 23).rescueLine = none
      ∧ State.reset.bath? 23 = none ∧ MapAgrees State.reset 23 .strict 15 4095 true (some 3))
    ∧ (idle.mode = .idle ∧ idle.hangers = [] ∧ ¬ MapAgrees idle 2 .bounded 2 500 false none)
    ∧ (idle.bath? 1).isSome = true := by
  refine ⟨⟨rfl, rfl, by decide +kernel, by decide +kernel, ?_⟩, ⟨rfl, rfl, ?_⟩, by decide +kernel⟩
  · refine ⟨?_, ?_, ?_, ?_, ?_, ?_⟩
    · intro o _ _ h; rw [reset_station_absent] at h; exact absurd h (by decide)
    · intro o _ _ h; rw [reset_station_absent] at h; exact absurd h (by decide)
    · intro o _ _ h; rw [reset_station_absent] at h; exact absurd h (by decide)
    · intro _; rfl
    · intro h; exact absurd h (by decide)
    · intro l _
      refine ⟨rfl, ?_⟩
      intro o _ _ h; rw [reset_station_absent] at h; exact absurd h (by decide)
  · intro h
    exact absurd (h.1 1 (by decide) (by decide) (by decide +kernel) (fun o' _ _ _ => by omega)) (by decide +kernel)
theorem witness_station_refusals :
    line.mode ≠ .idle ∧ (∃ l, ((raised idle).station 1).rescueLine = some l ∧ ((raised idle).line l).asserted = true ∧ 1 ≠ l) := by
  refine ⟨by decide, 0, ?_⟩; decide +kernel
theorem test_set_station :
    replied idle .p0 (.setStation 2 2 2 800 2 600 1 255) = some .ok
    ∧ ((after idle (.setStation 2 2 2 800 2 600 1 255)).bath? 2).isSome = true
    ∧ ((after idle (.setStation 1 2 1 500 2 601 0 255)).bath? 1) = none
    ∧ replied idle .p0 (.setStation 2 2 2 800 2 601 0 255) = some .clamped
    ∧ replied idle .p0 (.setStation 2 2 2 500 2 600 1 255) = some .badArg
    ∧ replied line .p0 (.setStation 23 2 2 500 2 600 1 255) = some .notNow
    ∧ replied line .p0 (.setStation 24 2 2 500 2 600 1 255) = some .badArg := by decide +kernel
theorem witness_clear_station :
    (raised idle).barRaised 1 = true ∧ idle.barRaised 1 = false ∧ (idle.station 1).gasChannel ≠ none
    ∧ (idle.barRaised 2 = false ∧ (idle.station 2).gasChannel = none) := by decide +kernel
theorem test_clear_station :
    replied (raised idle) .p0 (.clearStation 1) = some .notNow ∧ replied idle .p0 (.clearStation 1) = some .inUse
    ∧ replied idle .p0 (.clearStation 2) = some .ok ∧ (after idle (.clearStation 2)).station 2 = Station.absent := by
  decide +kernel
theorem witness_slots :
    ((inWash.station 2).configured = true ∧ (inWash.station 2).slotCount ≤ 3) ∧ (inWash.station 2).slot 0 = .free
    ∧ (inWash.station 2).slot 1 = .occupied 7 ∧ (inDeveloper.station 2).slot 0 = .reserved 7 .forward
    ∧ ((after inWash (.block 2 0)).station 2).slot 0 = .blocked := by decide +kernel
theorem test_block :
    replied inWash .p0 (.block 2 1) = some .inUse ∧ replied inWash .p0 (.unblock 2 1) = some .notNow
    ∧ replied inWash .p0 (.block 2 2) = some .noSuch ∧ replied inWash .p0 (.block 24 0) = some .badArg
    ∧ ((after (inWash.setSlot ⟨2, 0⟩ .blocked) (.unblock 2 0)).station 2).slot 0 = .free := by decide +kernel
theorem witness_reads :
    (inWash.hanger? 7 = some washing) ∧ (line.bath? 1 = some bath) := by decide +kernel

/-! ### Recipes -/

def rawStrict : RawStep := ⟨1, 6000, 50, 50, 100, 600⟩

def drafted (steps : List (Option RawStep)) : State := { line with draft := some { recipe := 0, steps := steps } }

theorem witness_draft :
    (∀ d, line.draft = some d → d.recipe ≠ 0)
    ∧ ((drafted [none]).draft = some { recipe := 0, steps := [none] } ∧ 0 + [rawStrict].length ≤ [none (α := RawStep)].length
      ∧ ∀ k ∈ [rawStrict], k.group ≤ 15)
    ∧ [none (α := RawStep)].length < 1 + [rawStrict].length
    ∧ (line.recipe 0).staged = none
    ∧ ((line.modRecipe 15 (fun e => { e with staged := some [washStep] })).recipe 15).staged ≠ none := by
  refine ⟨(fun d h => by cases h), ⟨rfl, by decide, by decide⟩, by decide, by decide +kernel, by decide +kernel⟩
theorem witness_validation :
    (idle.stepFault false none strictStep = none ∧ idle.stepFault false (some 1) strictStep = some .strictRepeat)
    ∧ (∃ st, st ≤ 23 ∧ (idle.station st).configured = true ∧ (idle.station st).cls = .unload)
    ∧ (¬ ∃ st, st ≤ 23 ∧ (State.reset.station st).configured = true ∧ (State.reset.station st).cls = .unload) := by
  refine ⟨by decide +kernel, ⟨4, by decide +kernel⟩, by decide +kernel⟩
theorem test_validation :
    line.versionFault false [strictStep, washStep] = none ∧ line.versionFault false [strictStep, strictStep] = some (1, .strictRepeat)
    ∧ line.versionFault false [{ washStep with group := 15 }] = some (0, .emptyGroup)
    ∧ line.versionFault false [{ washStep with group := 0 }] = some (0, .notAStep)
    ∧ line.versionFault true [{ washStep with cls := .opened }] = some (0, .classChanged)
    ∧ line.versionFault false [{ washStep with timeB := 299 }] = some (0, .range) := by decide +kernel
theorem witness_write_recipe :
    (∀ d, line.draft = some d → d.recipe ≠ 0)
    ∧ ([none (α := RawStep)][0]? = some none)
    ∧ ([some rawStrict] = [rawStrict].map some
      ∧ (drafted [some rawStrict]).versionFault false ([rawStrict].map (drafted [some rawStrict]).stepOf) = none)
    ∧ (drafted []).versionFault false ([rawStrict, rawStrict].map (drafted []).stepOf) = some (1, .strictRepeat)
    ∧ (line.recipe 0).useCount = 0
    ∧ 0 < ((drafted [some rawStrict]).modRecipe 0 (fun e => { e with useCount := 1 }) |>.recipe 0).useCount := by
  refine ⟨(fun d h => by cases h), rfl, ⟨rfl, by decide +kernel⟩, by decide +kernel, by decide +kernel, by decide +kernel⟩
theorem test_write_recipe :
    replied (drafted [none]) .p0 (.writeRecipe 0) = some .badRecipe
    ∧ replied (drafted [some rawStrict]) .p0 (.writeRecipe 0) = some .ok
    ∧ ((after (drafted [some rawStrict]) (.writeRecipe 0)).recipe 0).active = [strictStep]
    ∧ replied ((drafted [some rawStrict]).modRecipe 0 (fun e => { e with useCount := 1 })) .p0 (.writeRecipe 0) = some .staged
    ∧ replied line .p0 (.writeRecipe 16) = some .badArg ∧ replied line .p0 (.writeRecipe 15) = some .notNow := by decide +kernel

/-! ### Hangers -/

theorem witness_names :
    line.hanger? 255 = none ∧ line.hanger? 1 = none ∧ line.bath? 23 = none ∧ line.bath? 0 = none := by decide +kernel
theorem witness_admit :
    ((line.station 0).configured = true ∧ (line.station 0).cls = .load ∧ 1 < (line.station 0).slotCount)
    ∧ (line.hanger? 255 = none ∧ line.slotAt ⟨0, 1⟩ = .free ∧ line.hangers.length < 32)
    ∧ (line.station 1).cls ≠ .load ∧ atLoad.slotAt ⟨0, 1⟩ ≠ .free
    ∧ (let s : State := { line with hangers := (List.range 32).map (fun n => hanger (n + 1) .done (.slot ⟨4, 0⟩)) }
       s.hanger? 255 = none ∧ s.slotAt ⟨0, 1⟩ = .free ∧ 32 ≤ s.hangers.length) := by decide +kernel
theorem test_admit :
    replied line .p0 (.admitHanger 255 15 499 65535 0 1) = some .clamped
    ∧ replied line .p0 (.admitHanger 1 0 500 0 0 0) = some .ok ∧ replied atLoad .p0 (.admitHanger 7 0 500 0 0 0) = some .inUse
    ∧ (after line (.admitHanger 1 0 500 0 0 0)).startOrder = [1]
    ∧ ((after line (.admitHanger 1 0 500 0 0 0)).moves.map Move.id) = [0] := by decide +kernel
theorem test_fresh_identifier_wraps :
    ({ line with moveCounter := 255, moves := [move 255 .entry .ready (.point 0) none 1, move 0 .entry .ready (.point 0) none 2] }
      : State).freshId = 1 := by decide +kernel
theorem witness_abort :
    (atLoad.hanger? 7 = some { loaded with bound := false })
    ∧ (inWash.hanger? 7 = some washing ∧ (inWash.station 2).cls ≠ .strict)
    ∧ (inDeveloper.hanger? 7 = some developing ∧ (inDeveloper.station 1).cls = .strict)
    ∧ (granted.hanger? 7 = some { washing with state := .inTransit, phase := some .granted })
    ∧ (let s := hung line { developing with state := .rescued } [{ exitMove with state := .granted }] []
       ∃ m, s.hangerMove? 7 = some m ∧ (m.state = .granted ∨ m.state = .carried))
    ∧ (let s := hung line { developing with state := .rescued } [exitMove] []
       ∀ m, s.hangerMove? 7 = some m → m.state ≠ .granted ∧ m.state ≠ .carried) := by
  refine ⟨by decide +kernel, by decide +kernel, by decide +kernel, by decide +kernel, ⟨_, rfl, by decide⟩, ?_⟩
  intro s m h
  obtain rfl : exitMove = m := Option.some.inj h
  decide
theorem test_abort :
    ((after atLoad (.abortHanger 7)).hanger? 7).map (fun h => (h.state, h.restCause)) = some (.aborted, some .unstarted)
    ∧ ((after inWash (.abortHanger 7)).hanger? 7).map (fun h => (h.state, h.restCause)) = some (.aborted, some .inStep)
    ∧ ((after inDeveloper (.abortHanger 7)).hanger? 7).map (fun h => (h.state, h.pendingAbort)) = some (.immersed, true)
    ∧ ((after inDeveloper (.abortHanger 7)).moves.map Move.kind) = [.abort]
    ∧ replied granted .p0 (.abortHanger 7) = some .acceptedPending
    ∧ replied line .p0 (.abortHanger 7) = some .noSuch := by decide +kernel

/-- A hanger aborted in the wash. -/
def abortedInWash : State :=
  hung line { washing with state := .aborted, restCause := some .inStep, imm := { washing.imm with counting := false, elapsed := 60 } }
    [] [(⟨2, 1⟩, .occupied 7)]

/-- A hanger set down in station `st` by RECOVER or by an ABORT move. -/
def restingIn (st : Nat) (c : RestCause) (run : List RunEntry) (step : Nat) : State :=
  hung line { hanger 7 .aborted (.slot ⟨st, 0⟩) with restCause := some c, run := run, step := step } [] [(⟨st, 0⟩, .occupied 7)]

theorem witness_resume :
    (∃ h, abortedInWash.hanger? 7 = some h ∧ h.state = .aborted ∧ h.bound = true ∧ h.location = .slot ⟨2, 1⟩
      ∧ h.restCause = some .inStep ∧ h.run.getLast?.isSome = true)
    ∧ (∃ h, (restingIn 2 .abortMove [entry 1 0] 1).hanger? 7 = some h ∧ h.restCause = some .abortMove
      ∧ (restingIn 2 .abortMove [entry 1 0] 1).recipeStep? 0 1 = some washStep)
    ∧ (∃ h, (restingIn 4 .abortMove [entry 1 0] 1).hanger? 7 = some h ∧ h.restCause = some .abortMove
      ∧ ((restingIn 4 .abortMove [entry 1 0] 1).station 4).cls = .unload)
    ∧ (∃ h, (restingIn 1 .recovered [] 0).hanger? 7 = some h ∧ (restingIn 1 .recovered [] 0).recoveredStep h 1 = some 0
      ∧ (restingIn 1 .recovered [] 0).barRaised 1 = false
      ∧ (followingTarget ((restingIn 1 .recovered [] 0).recipe 0).active 0).bind (fun x =>
          (restingIn 1 .recovered [] 0).chooseSlot ((restingIn 1 .recovered [] 0).jointReach 1) x
            ((restingIn 1 .recovered [] 0).station 1).coordinate) = some ⟨2, 0⟩)
    ∧ (∃ h, (restingIn 3 .recovered [] 0).hanger? 7 = some h ∧ (restingIn 3 .recovered [] 0).recoveredStep h 3 = none)
    ∧ (raised (restingIn 1 .recovered [] 0)).barRaised 1 = true := by
  refine ⟨⟨_, rfl, by decide +kernel⟩, ⟨_, rfl, by decide +kernel⟩, ⟨_, rfl, by decide +kernel⟩, ⟨_, rfl, by decide +kernel⟩,
    ⟨_, rfl, by decide +kernel⟩, by decide +kernel⟩
/-- A station record past the last index is an absent one. -/
theorem station_outside (s : State) {st : Nat} (h : ¬ st < 24) : s.station st = Station.absent := by
  unfold State.station; rw [Vector.getElem?_eq_none (by omega)]; rfl

theorem witness_resume_slot_counts : ∀ st, ((restingIn 1 .recovered [] 0).station st).slotCount ≤ 4 := by
  intro st
  by_cases h : st < 24
  · revert h st; decide +kernel
  · rw [station_outside _ h]; decide
theorem test_resume :
    ((after abortedInWash (.resumeHanger 7)).hanger? 7).map (fun h => (h.state, h.imm.entryTime)) = some (.immersed, 940#32)
    ∧ ((after abortedInWash (.resumeHanger 7)).moves.map (fun m => (m.kind, m.ready))) = [(.exit, 1240#32)]
    ∧ replied (restingIn 4 .abortMove [entry 1 0] 1) .p0 (.resumeHanger 7) = some .notNow
    ∧ ((after (restingIn 1 .recovered [] 0) (.resumeHanger 7)).hanger? 7).map (fun h => (h.state, h.forward, h.imm.effective))
      = some (.immersed, some ⟨2, 0⟩, 6000) := by decide +kernel
theorem witness_restart :
    (∃ h, (restingIn 2 .recovered [entry 3 0] 0).hanger? 7 = some h ∧ h.state = .aborted ∧ h.dropped = 0
      ∧ ∀ e ∈ h.run, ((restingIn 2 .recovered [entry 3 0] 0).station e.station).cls ≠ .strict)
    ∧ (∃ h, (restingIn 2 .recovered [entry 1 0] 0).hanger? 7 = some h
      ∧ ∃ e ∈ h.run, ((restingIn 2 .recovered [entry 1 0] 0).station e.station).cls = .strict) := by
  refine ⟨⟨_, rfl, by decide +kernel⟩, ⟨_, rfl, by decide +kernel⟩⟩
theorem test_restart :
    replied (restingIn 2 .recovered [entry 1 0] 0) .p0 (.restartHanger 7) = some .notNow
    ∧ ((after (restingIn 2 .recovered [entry 3 0] 0) (.restartHanger 7)).hanger? 7).map (fun h => (h.state, h.run))
      = some (.loaded, []) := by decide +kernel

/-- Hanger 7 is stranded on gantry A on the way to wash slot 0. -/
def stranded : State :=
  { hung line { hanger 7 .stranded (.gantry .a) with run := [entry 1 0] } [] [(⟨2, 0⟩, .reserved 7 .destination)] with
      gantryA := { line.gantryA with link := .faulted, hold := some { tag := 7, dest := ⟨2, 0⟩ }, last := some 9 } }

theorem witness_recover :
    (∃ h, stranded.hanger? 7 = some h ∧ h.state = .stranded ∧ (stranded.station 2).hasSlot 0 = true
      ∧ (stranded.slotAt ⟨2, 0⟩).reservedFor 7 = true ∧ stranded.slotAt ⟨3, 0⟩ = .free)
    ∧ (stranded.station 23).hasSlot 3 = false
    ∧ (let s := stranded.setSlot ⟨3, 0⟩ .blocked
       s.slotAt ⟨3, 0⟩ ≠ .free ∧ (s.slotAt ⟨3, 0⟩).reservedFor 7 = false) := by
  refine ⟨⟨_, rfl, by decide +kernel⟩, by decide +kernel⟩
theorem test_recover :
    replied stranded .p0 (.recover 7 2 0) = some .ok
    ∧ ((after stranded (.recover 7 2 0)).hanger? 7).map (fun h => (h.state, h.restCause)) = some (.aborted, some .recovered)
    ∧ (after stranded (.recover 7 2 0)).gantryA.hold = none ∧ replied inWash .p0 (.recover 7 2 0) = some .notNow := by
  decide +kernel
theorem witness_unloaded :
    (∃ h, atLoad.slotAt ⟨0, 1⟩ = .occupied 7 ∧ atLoad.hanger? 7 = some h ∧ h.state = .loaded)
    ∧ (∃ h, inWash.slotAt ⟨2, 1⟩ = .occupied 7 ∧ inWash.hanger? 7 = some h ∧ h.state ≠ .loaded ∧ h.state ≠ .done
      ∧ h.state ≠ .aborted) ∧ (atLoad.station 0).hasSlot 3 = false := by
  refine ⟨⟨_, by decide +kernel, rfl, by decide⟩, ⟨_, by decide +kernel, rfl, by decide⟩, by decide +kernel⟩
theorem test_unloaded :
    replied inWash .p0 (.unloaded 2 1) = some .inUse ∧ replied atLoad .p0 (.unloaded 0 1) = some .ok
    ∧ (after atLoad (.unloaded 0 1)).hangers = [] ∧ (after atLoad (.unloaded 0 1)).moves = [] := by decide +kernel

/-! ### Baths -/

def withBath (b : Bath) : State := line.setBath 1 (some b)

theorem witness_bath_report :
    line.bath? 1 = some bath ∧ bath.settings.rmin ≤ bath.settings.rmax ∧ bath.firstReading = false ∧ bath.used = some 2000
    ∧ (bath.settings.slew ≠ 0 ∧ bath.settings.slew < ((2011 : Int) - 2000).natAbs)
    ∧ bath.settings.trip < ((2501 : Int) - bath.settings.tset).natAbs
    ∧ ((2500 : Int) - bath.settings.tset).natAbs ≤ bath.settings.trip := by decide +kernel
theorem test_bath_report :
    replied line .p0 (.bathReport 1 8001) = some .badReading ∧ replied line .p0 (.bathReport 1 (-2001)) = some .badReading
    ∧ ((after line (.bathReport 1 2500)).bath? 1).map (fun b => (b.used, b.rate, b.readiness)) = some (some 2010, 1034, .ready)
    ∧ ((after line (.bathReport 1 2501)).bath? 1).map (fun b => (b.tripCause, b.readiness)) = some (some .reading, .tripped)
    ∧ ((after line (.bathReport 1 2501)).channel 0).state = .held
    ∧ ((after line (.bathReport 1 1990)).bath? 1).map (fun b => (b.used, b.rate)) = some (some 1990, 1014) := by decide +kernel
theorem witness_set_bath :
    (line.bath? 1 = some bath ∧ bath.debt ≤ 15)
    ∧ (({ BathSettings.activation with rmin := 4096, rmax := 64 } : BathSettings).rmax < 4096)
    ∧ (bath.rateHeld = false ∧ bath.used = some 2000)
    ∧ reached line.lineTime (100#32 + BitVec.ofNat 32 901) = false := by decide +kernel
theorem test_set_bath :
    replied line .p0 (.setBath 1 { BathSettings.activation with rmin := 4096, rmax := 64 }) = some .badArg
    ∧ replied line .p0 (.setBath 1 { BathSettings.activation with band := 500, trip := 500 }) = some .badArg
    ∧ replied line .p0 (.setBath 1 { BathSettings.activation with shift := 16 }) = some .clamped
    ∧ ((after line (.setBath 1 { BathSettings.activation with tset := 1900, gain := 1, dmax := 60, band := 99 })).bath? 1).map
        (fun b => (b.deviation, b.rate, b.readiness)) = some (60, 1084, .drift)
    ∧ ((after (withBath { bath with area := 100 }) (.setBath 1 { BathSettings.activation with quantum := 30 })).bath? 1).map
        (fun b => (b.area, b.debt)) = some (10, 3) := by decide +kernel
theorem witness_trip_and_clear :
    ((withBath { bath with readiness := .tripped, latest := some (2501, 5#32) }).bath? 1).map Bath.readiness = some .tripped
    ∧ bath.settings.trip < ((2501 : Int) - bath.settings.tset).natAbs
    ∧ ((withBath { bath with readiness := .tripped, tripCause := some .request }).bath? 1).map Bath.latest
      = some (some (2000, 100#32)) := by decide +kernel
theorem test_trip_and_clear :
    ((after line (.bathTrip 1)).bath? 1).map (fun b => (b.readiness, b.tripCause)) = some (.tripped, some .request)
    ∧ replied line .p0 (.bathClear 1) = some .notNow
    ∧ replied (withBath { bath with readiness := .tripped, latest := some (2501, 5#32) }) .p0 (.bathClear 1) = some .stillTripped
    ∧ ((after (withBath { bath with readiness := .tripped, tripCause := some .request }) (.bathClear 1)).bath? 1).map
        Bath.readiness = some .ready
    ∧ ((after (withBath { bath with readiness := .tripped, tripCause := some .reading }) (.bathClear 1)).bath? 1).map
        (fun b => (b.readiness, b.warmingEntry)) = some (.warming, 1000#32) := by decide +kernel
theorem witness_stale :
    reached line.lineTime 3100 = false ∧ reached ({ line with lineTime := 3100 } : State).lineTime 3100 = true := by decide +kernel
theorem test_stale :
    ((after { line with lineTime := 3100 } (.staleCompareReached 1)).bath? 1).map
      (fun b => (b.readiness, b.rateHeld, b.returnState, b.staleCompare)) = some (.stale, true, .inService, none)
    ∧ ((after { inDeveloper with lineTime := 3100 } (.staleCompareReached 1)).hanger? 7).map
        (fun h => h.run.map (fun e => e.notes.uncompensated)) = some [true]
    ∧ (after line (.staleCompareReached 1)).bath? 1 = some bath := by decide +kernel
theorem witness_replenish :
    (withBath { bath with debt := 1 }).bath? 1 = some { bath with debt := 1 } ∧ (line.station 1).supervised = true
    ∧ line.bath? 23 = none ∧ 1 ≤ bath.settings.quantum ∧ bath.area + 65534 < bath.settings.quantum
    ∧ bath.settings.quantum ≤ bath.area + 65535 := by decide +kernel
theorem test_replenish :
    replied line .p0 (.replenished 1) = some .notNow
    ∧ ((after (withBath { bath with debt := 1 }) (.replenished 1)).bath? 1).map Bath.debt = some 0
    ∧ ((withBath { bath with debt := 14 }).addArea 1 65535).port0.queue.map (fun n => (n.kind, n.codeA)) = [(.replenish, 15)]
    ∧ (((withBath { bath with debt := 14 }).addArea 1 65535).bath? 1).map (fun b => (b.area, b.debt)) = some (0, 15) := by
  decide +kernel

/-! ### Line-time events of moves and immersions -/

theorem witness_due_times :
    (inWash.move? 9 = some (move 9 .exit .waiting (.slot ⟨2, 1⟩) none 7) ∧ reached inWash.lineTime 0 = true)
    ∧ reached inDeveloper.lineTime 6800 = false
    ∧ (inDeveloper.recipeStep? developing.recipe developing.step = some strictStep
      ∧ developing.run.getLast? = some (entry 1 0) ∧ developing.imm.cls = some .strict ∧ strictStep.unagitated ≠ 0)
    ∧ strictStep.unagitated < 601 := by decide +kernel
theorem test_ready_time :
    (after inWash (.readyTimeReached 9)).moves.map Move.state = [.ready]
    ∧ (after inWash (.readyTimeReached 9)).port1.queue.map Notice.kind = [.work]
    ∧ (after inDeveloper (.readyTimeReached 9)).moves = inDeveloper.moves := by decide +kernel
theorem test_edges :
    ((after (inDeveloper.modHanger 7 (fun h => { h with imm := { h.imm with progress := 5950 * 1024 } }))
      (.edgeCrossed 7 .opening)).hanger? 7).map (fun h => (h.imm.crossOpening, h.imm.predOpening)) = some (some 1000#32, 1000#32)
    ∧ ((after (inDeveloper.modHanger 7 (fun h => { h with imm := { h.imm with progress := 5950 * 1024 } }))
      (.edgeCrossed 7 .target)).hanger? 7).map (fun h => h.imm.crossTarget) = some none := by decide +kernel
theorem test_unagitated :
    (after (inDeveloper.modHanger 7 (fun h => { h with imm := { h.imm with unagitated := 601 } }))
      (.unagitatedLimitPassed 7)).port0.queue.map Notice.kind = [.unagitated]
    ∧ (after (inDeveloper.modHanger 7 (fun h => { h with imm := { h.imm with unagitated := 600 } }))
      (.unagitatedLimitPassed 7)).port0.queue = [] := by decide +kernel

/-! ### Gantries -/

/-- Both gantries OFFLINE. -/
def offline : State :=
  { line with gantryA := { line.gantryA with link := .offline }, gantryB := { line.gantryB with link := .offline } }

theorem witness_gantry_settings :
    (offline.gantry .a).link = .offline ∧ offline.homesApart .a 0 2 = true ∧ offline.homesApart .b 0 0 = false
    ∧ (offline.home .a + 1000 ≤ offline.home .b ∧ offline.gantryA.spanHigh + 1000 ≤ offline.gantryB.spanLow)
    ∧ (let s := { offline with gantryB := { offline.gantryB with spanLow := 300 } }
       s.gantryB.spanLow < s.gantryA.spanHigh + 201) := by decide +kernel
theorem test_gantry_settings :
    replied offline .p0 (.setGantry 0 0 2 601 0 600) = some .clamped ∧ replied offline .p0 (.setGantry 0 0 23 600 255 600) = some .ok
    ∧ replied offline .p0 (.setGantry 0 2 1 0 1 0) = some .badArg ∧ replied line .p0 (.setGantry 0 0 2 0 1 0) = some .notNow
    ∧ replied offline .p0 (.setGuard 1001) = some .badArg ∧ (after offline (.setGuard 1000)).guardGap = 1000
    ∧ replied line .p0 (.setGuard 0) = some .notNow := by decide +kernel
theorem witness_links :
    (line.gantry .a).link = .ready ∧ ((granted.gantry .a).link = .busy ∧ (granted.gantry .a).pausePending = false)
    ∧ offline.spanTest .a (min (offline.gantry .a).spanLow (offline.home .a)) (max (offline.gantry .a).spanHigh (offline.home .a))
      = true
    ∧ ({ stranded with gantryA := { stranded.gantryA with link := .offline } } : State).strandedOn .a = true := by decide +kernel
theorem test_pause_resume :
    (after line (.gantryPause 0)).gantryA.link = .paused ∧ (after line (.gantryPause 0)).port1.queue.map Notice.kind = [.pause]
    ∧ (after granted (.gantryPause 0)).gantryA.pausePending = true ∧ replied line .p0 (.gantryResume 0) = some .notNow
    ∧ (after { line with gantryA := { line.gantryA with link := .paused } } (.gantryResume 0)).gantryA.link = .ready
    ∧ replied line .p0 (.gantryPause 2) = some .badArg := by decide +kernel
theorem test_work_at_ready :
    (after { atLoad with gantryA := { line.gantryA with link := .paused } } (.gantryResume 0)).port1.queue.map
        (fun n => (n.kind, n.move)) = [(.pause, none), (.work, some 9)]
    ∧ (after granted (.abandon .a 9 100)).port1.queue.map (fun n => (n.kind, n.move)) = [(.work, some 9)]
    ∧ (after (granted.modGantry .a (fun g => { g with pausePending := true })) (.abandon .a 9 100)).port1.queue = []
    ∧ (after granted (.fault .a 1 9 3)).port1.queue = [] := by decide +kernel
theorem test_hello_homed :
    (after offline (.hello .a)).gantryA.link = .homing ∧ replied line .p1 (.hello .a) = some .notNow
    ∧ (after { offline with gantryA := { offline.gantryA with link := .homing, homing := 500 } } (.homed .a)).gantryA.spanHigh = 500
    ∧ replied offline .p2 (.homed .b) = some .notNow := by decide +kernel
theorem witness_homed :
    let s : State := { atLoad with gantryA := { atLoad.gantryA with link := .homing } }
    (s.gantry .a).link = .homing ∧ ((s.port .p1).queue = [])
    ∧ (s.walkOrder.find? (fun m => m.state == .ready && (after s (.homed .a)).canServe .a m)).map Move.id = some 9 := by
  decide +kernel
theorem witness_reports :
    NamesMove (.lifted .a 255) .a 255 ∧ NamesMove (.abandon .a 9 4095) .a 9
    ∧ ((granted.gantry .a).link = .busy ∧ (granted.gantry .a).granted = some 9 ∧ (granted.gantry .a).granted ≠ some 255)
    ∧ (stranded.gantry .a).link = .faulted ∧ (stranded.gantry .a).last = some 9
    ∧ (∀ m, granted.move? 9 = some m → ¬ PhaseFits (.lowered .a 9) m) := by
  refine ⟨Or.inl rfl, Or.inr (Or.inr (Or.inr (Or.inl ⟨4095, by decide, rfl⟩))), by decide +kernel, by decide +kernel,
    by decide +kernel, ?_⟩
  intro m h
  obtain rfl := Option.some.inj h
  unfold PhaseFits; decide
theorem test_reports :
    replied granted .p1 (.lifted .a 8) = some .wrongMove ∧ replied granted .p1 (.lowered .a 9) = some .outOfOrder
    ∧ replied stranded .p1 (.done .a 9) = some .tooLate ∧ replied granted .p1 (.lifted .a 256) = some .badArg := by decide +kernel

/-! ### Claims -/

theorem witness_claim :
    (atLoad.gantry .a).link = .ready ∧ atLoad.ownYield? .a = none
    ∧ atLoad.offered = [] ++ move 9 .entry .ready (.slot ⟨0, 1⟩) none 7 :: []
    ∧ atLoad.trial .a (move 9 .entry .ready (.slot ⟨0, 1⟩) none 7) = .passed ⟨1, 0⟩ (some ⟨2, 0⟩)
    ∧ atLoad.move? 9 = some (move 9 .entry .ready (.slot ⟨0, 1⟩) none 7)
    ∧ atLoad.hanger? 7 = some { loaded with bound := false }
    ∧ (atLoad.station 1).hasSlot 0 = true ∧ atLoad.slotAt ⟨1, 0⟩ = .free
    ∧ (atLoad.station 2).hasSlot 0 = true ∧ atLoad.slotAt ⟨2, 0⟩ = .free ∧ (⟨2, 0⟩ : SlotRef) ≠ ⟨1, 0⟩ := by decide +kernel
theorem test_claim :
    replied atLoad .p1 (.claim .a) = some .ok ∧ (after atLoad (.claim .a)).slotAt ⟨1, 0⟩ = .reserved 7 .destination
    ∧ (after atLoad (.claim .a)).slotAt ⟨2, 0⟩ = .reserved 7 .forward
    ∧ (after atLoad (.claim .a)).moves.map (fun m => (m.estimate, m.limit)) = [(some 310, some 1610#32)]
    ∧ replied offline .p1 (.claim .a) = some .notNow
    ∧ replied { atLoad with mode := .idle } .p1 (.claim .a) = some .none := by decide +kernel

/-- Gantry B is asked to yield to 2000. -/
def yielding : State :=
  { line with
      gantryB := { line.gantryB with point := 900, spanLow := 900, spanHigh := 900 }
      moves := [{ Move.fresh .yielding (.point 900) (some (.point 2000)) with id := 3, gantry := some .b, blocked := some 9 }] }

theorem witness_yield :
    (yielding.gantry .b).link = .ready ∧ yielding.mode ≠ .idle
    ∧ yielding.ownYield? .b = yielding.moves.head? ∧ yielding.move? 3 = yielding.moves.head?
    ∧ yielding.spanTest .b (min (yielding.gantry .b).point 2000) (max (yielding.gantry .b).point 2000) = true
    ∧ ((yielding.moves.head?.bind Move.blocked) ≠ some 3)
    ∧ (({ atLoad with mode := .idle } : State).gantry .a).link = .ready := by decide +kernel
theorem test_yield : replied yielding .p2 (.claim .b) = some .ok ∧ (after yielding (.claim .b)).gantryB.spanHigh = 2000
    ∧ (after yielding (.claim .b)).moves.map (fun m => (m.id, m.state)) = [(3, .granted)] := by decide +kernel

/-! ### The work of a move -/

theorem witness_lifted :
    Holds granted .a { move 9 .exit .granted (.slot ⟨2, 1⟩) (some (.slot ⟨4, 0⟩)) 7 with gantry := some .a, limit := some 1000#32 }
    ∧ granted.slotAt ⟨2, 1⟩ = .occupied 7 := by
  refine ⟨⟨by decide +kernel, by decide +kernel, by decide +kernel, by decide +kernel⟩, by decide +kernel⟩
theorem test_lifted :
    replied granted .p1 (.lifted .a 9) = some .ok ∧ (after granted (.lifted .a 9)).slotAt ⟨2, 1⟩ = .free
    ∧ ((after granted (.lifted .a 9)).hanger? 7).map (fun h => (h.phase, h.location)) = some (some .carried, .gantry .a)
    ∧ ((after granted (.lifted .a 9)).hanger? 7).map (fun h => h.run.map RunEntry.condition) = some [none, some .under] := by
  decide +kernel

/-- A hanger that has not begun a step, on its way to the developer with its forward slot. -/
def toDeveloper : State :=
  (carrying { hanger 7 .inTransit (.gantry .a) with forward := some ⟨2, 0⟩ } .entry ⟨1, 0⟩).setSlot ⟨2, 0⟩ (.reserved 7 .forward)

/-- A hanger that has left the wash, on its way to the exit. -/
def toExit : State := carrying { washing with run := [entry 1 0, entry 2 1] } .exit ⟨4, 0⟩

/-- The same states with the pending abort set. -/
def withAbort (s : State) : State := s.modHanger 7 (fun h => { h with pendingAbort := true })

/-- An aborted hanger carried to the wash: its next step. -/
def toWash (kind : MoveKind) : State := withAbort (carrying { hanger 7 .inTransit (.gantry .a) with run := [entry 1 0] } kind ⟨2, 0⟩)

theorem witness_lowered :
    ((toDeveloper.gantry .a).granted = some 9 ∧ (toDeveloper.gantry .a).link = .busy
      ∧ (toDeveloper.move? 9).map (fun m => (m.state, m.dest, m.tag)) = some (.carried, some (.slot ⟨1, 0⟩), some 7))
    ∧ (toDeveloper.hanger? 7).map (fun h => (h.pendingAbort, toDeveloper.target? h)) = some (false, some (.step 0 1))
    ∧ toDeveloper.recipeStep? 0 0 = some strictStep ∧ toDeveloper.barRaised 1 = false ∧ (raised toDeveloper).barRaised 1 = true
    ∧ (toDeveloper.slotAt ⟨1, 0⟩).reservedFor 7 = true ∧ (toDeveloper.station 1).hasSlot 0 = true
    ∧ (toExit.hanger? 7).map (fun h => toExit.target? h) = some (some .exit)
    ∧ (toExit.slotAt ⟨4, 0⟩).reservedFor 7 = true ∧ (toExit.station 4).hasSlot 0 = true := by decide +kernel
theorem test_lowered :
    ((after toDeveloper (.lowered .a 9)).hanger? 7).map (fun h => (h.state, h.imm.effective, h.imm.compare))
      = some (.immersed, 6000, some 7150#32)
    ∧ (after toDeveloper (.lowered .a 9)).moves.map (fun m => (m.kind, m.state, m.ready))
      = [(.entry, .placed, 0#32), (.step, .waiting, 6900#32)]
    ∧ ((after (raised toDeveloper) (.lowered .a 9)).hanger? 7).map Hanger.state = some .rescued
    ∧ ((after toExit (.lowered .a 9)).hanger? 7).map (fun h => (h.state, h.step)) = some (.done, 2)
    ∧ ((after toDeveloper (.lowered .a 9)).bath? 1).map Bath.area = some 40 := by decide +kernel
theorem witness_lowered_aborted :
    (((toWash .abort).hanger? 7).map (fun h => (h.pendingAbort, (toWash .abort).target? h)) = some (true, some (.step 1 2))
      ∧ ((toWash .abort).station 2).cls = .bounded ∧ ((toWash .abort).move? 9).map Move.kind = some .abort)
    ∧ (((withAbort toDeveloper).hanger? 7).map (fun h => (h.pendingAbort, h.forward)) = some (true, some ⟨2, 0⟩)
      ∧ (withAbort toDeveloper).barRaised 1 = false)
    ∧ ((withAbort toExit).station 4).cls = .unload ∧ ((withAbort toExit).move? 9).map Move.kind = some .exit
    ∧ (withAbort (carrying { washing with run := [entry 1 0] } .abort ⟨4, 0⟩)).slotAt ⟨4, 0⟩ = .reserved 7 .destination := by
  decide +kernel
theorem test_lowered_aborted :
    ((after (toWash .abort) (.lowered .a 9)).hanger? 7).map (fun h => (h.state, h.restCause)) = some (.aborted, some .abortMove)
    ∧ ((after (toWash .step) (.lowered .a 9)).hanger? 7).map (fun h => (h.state, h.restCause)) = some (.aborted, some .inStep)
    ∧ ((after (withAbort toDeveloper) (.lowered .a 9)).hanger? 7).map (fun h => (h.state, h.pendingAbort)) = some (.immersed, true)
    ∧ ((after (withAbort toExit) (.lowered .a 9)).hanger? 7).map (fun h => (h.state, h.restCause)) = some (.aborted, some .exit) := by
  decide +kernel

/-- The move of `granted` after LOWERED. -/
def placed : State := granted.modMove 9 (fun m => { m with state := .placed })

theorem witness_done_and_abandon :
    (placed.gantry .a).link = .busy ∧ (placed.move? 9).map (fun m => (m.state, m.dest)) = some (.placed, some (.slot ⟨4, 0⟩))
    ∧ ((granted.gantry .a).spanLow ≤ 2000 ∧ 2000 ≤ (granted.gantry .a).spanHigh ∧ (granted.gantry .a).spanHigh < 2001)
    ∧ (granted.hanger? 7).map Hanger.pendingAbort = some false := by decide +kernel
theorem test_done_and_abandon :
    (after placed (.done .a 9)).gantryA.point = 2000 ∧ (after placed (.done .a 9)).moves = []
    ∧ replied granted .p1 (.abandon .a 9 2001) = some .badArg ∧ (after granted (.abandon .a 9 100)).moves.map Move.state = [.ready]
    ∧ ((after granted (.abandon .a 9 100)).hanger? 7).map Hanger.state = some .immersed := by decide +kernel
theorem witness_failures :
    (granted.gantry .a).granted = some 9 ∧ (granted.move? 9).bind Move.limit = some 1000 ∧ reached granted.lineTime 1000 = true
    ∧ (toExit.move? 9).map Move.state = some .carried ∧ (placed.move? 9).map Move.state = some .placed := by decide +kernel
theorem test_failures :
    (after granted (.moveLimitReached 9)).gantryA.link = .faulted ∧ (after granted (.moveLimitReached 9)).moves.map Move.state = [.ready]
    ∧ ((after toExit (.fault .a 1 9 3)).hanger? 7).map Hanger.state = some .stranded
    ∧ (after toExit (.fault .a 1 9 3)).gantryA.hold = some { tag := 7, dest := ⟨4, 0⟩ }
    ∧ (after placed (.gantryReset 0)).moves = [] ∧ (after placed (.gantryReset 0)).gantryA.link = .offline
    ∧ (after toExit (.moveLimitReached 9)).gantryA.link = .busy := by decide +kernel
/-- A FAULT is answered OK whatever stands in the identifier byte under presence 00h, and STRANDED in a full queue tests ALARM. -/
theorem test_fault_reply_and_alarm :
    replied toExit .p1 (.fault .a 0 99 3) = some .ok ∧ (after toExit (.fault .a 0 99 3)).gantryA.link = .faulted
    ∧ (after { toExit with port0 := fullPort } (.fault .a 1 9 3)).alarm = true := by decide +kernel
theorem witness_idle_failures :
    (line.gantry .b).link = .ready ∧ (line.gantry .b).granted = none ∧ (offline.gantry .b).link = .offline := by decide +kernel
theorem test_idle_failures :
    (after line (.fault .b 0 0 5)).gantryB.faultCode = some 5 ∧ replied line .p2 (.fault .b 0 7 5) = some .ok
    ∧ replied offline .p2 (.fault .b 0 0 5) = some .notNow
    ∧ replied line .p2 (.fault .b 2 0 5) = some .badArg ∧ (after line (.gantryReset 1)).gantryB.link = .offline := by decide +kernel

/-! ### Agitation -/

/-- Channel 0 of the developer in a state, with its settings. -/
def gas (f : Channel → Channel) : State := line.modChannel 0 f

theorem test_cadence :
    ((List.range 70).foldl (fun (c : Channel) _ => c.schedule (c.nextDue.getD 0))
      { Channel.atPowerOn with cadence := 70, interval := 85, remainder := 50, nextDue := some 9#32 }).nextDue = some 6009 := by
  decide +kernel
theorem witness_set_channel :
    (line.channel 0).state ≠ .bursting ∧ ((line.station 2).configured = true ∧ (line.station 2).cls = .bounded
      ∧ (line.station 2).gasChannel = none) ∧ (∃ n, (line.station 1).gasChannel = some n ∧ n ≠ 7)
    ∧ (gas (fun c => { c with state := .bursting })).channel 0 = { channel0 with state := .bursting }
    ∧ ((inWash.channel 0).station ≠ some 2 ∧ (inWash.station 2).occupiedCount = 1 ∧ inWash.gasInUse < inWash.gasLimit) := by
  refine ⟨by decide +kernel, by decide +kernel, ⟨0, by decide +kernel⟩, by decide +kernel, by decide +kernel⟩
theorem test_set_channel :
    replied line .p0 (.setChannel 7 1 1 10 10) = some .inUse ∧ replied line .p0 (.setChannel 7 24 1 10 10) = some .badArg
    ∧ replied line .p0 (.setChannel 7 23 1 10 10) = some .noSuch ∧ replied line .p0 (.setChannel 7 0 1 10 10) = some .badArg
    ∧ replied line .p0 (.setChannel 7 255 0 600 10) = some .clamped
    ∧ ((after inWash (.setChannel 7 2 1 600 9)).channel 7).state = .bursting
    ∧ ((after inWash (.setChannel 7 2 1 600 9)).channel 7).nextDue = some 1010
    ∧ ((after line (.setChannel 0 2 1 70 50)).station 1).gasChannel = none
    ∧ ((after line (.setChannel 0 2 1 70 50)).channel 0).state = .paused := by decide +kernel
theorem witness_gas :
    (∀ n, n ≤ 7 → (line.channel n).state ≠ .bursting) ∧ (NoCause channel0 ∧ channel0.state ≠ .off)
    ∧ (let s := (gas (fun c => { c with state := .bursting })).modChannel 7 (fun c => { c with state := .deferred, deferredDue := some 990 })
       (s.channel 0).state = .bursting ∧ (s.channel 7).state = .deferred ∧ (s.channel 7).deferredDue = some 990
       ∧ ∀ o, o ≤ 7 → o ≠ 7 → (s.channel o).state ≠ .deferred)
    ∧ (let c := { channel0 with state := .held, holdSupervisor := true, empty := false, nextDue := some 400#32 }
       c.state = .held ∧ NoCause (causeSet c .supervisor false) ∧ c.empty = false ∧ 1 ≤ c.interval ∧ c.interval ≤ 6000) := by
  unfold NoCause; decide +kernel
theorem test_gas :
    replied line .p0 (.setGasLimit 5) = some .badArg ∧ (after line (.setGasLimit 4)).gasLimit = 4
    ∧ replied (gas (fun c => { c with state := .bursting })) .p0 (.setGasLimit 1) = some .busy
    ∧ ((after line (.gasHold 0 0)).channel 0).state = .held ∧ replied line .p0 (.gasHold 8 0) = some .badArg
    ∧ ((after (gas (fun c => { c with state := .held, holdSupervisor := true, empty := false, nextDue := some 400 }))
        (.gasHold 0 1)).channel 0).nextDue = some 1600
    ∧ ((after ((gas (fun c => { c with state := .bursting })).modChannel 7
        (fun c => { c with state := .deferred, deferredDue := some 990 })) (.gasHold 0 0)).channel 7).state = .bursting := by
  decide +kernel
theorem test_trip_and_rescue_holds :
    (let s := (gas (fun c => { c with state := .bursting })).modChannel 7 (fun c => { c with state := .deferred, deferredDue := some 990 })
     ((after s (.bathTrip 1)).channel 0).holdTrip = true ∧ ((after s (.bathTrip 1)).channel 0).state = .held
      ∧ ((after s (.bathTrip 1)).channel 7).burstEnd = some 1010 ∧ ((after s (.bathReport 1 2600)).channel 7).state = .bursting)
    ∧ (let s := (withBath { bath with readiness := .tripped, tripCause := some .request }).modChannel 0 (fun c =>
         { c with state := .held, holdTrip := true, empty := false, nextDue := some 400 })
       ((after s (.bathClear 1)).channel 0).nextDue = some 1600 ∧ (after s (.bathClear 1)).port0.queue.map Notice.codeA = [1]
        ∧ ((after { s with mode := .idle } (.setStation 1 2 9 500 2 0 0 255)).channel 0).state = .waiting)
    ∧ ((after (raised (gas (fun c => { c with state := .held, holdRescue := true, empty := false, nextDue := some 400 })))
        (.rescueClear 0)).channel 0).nextDue = some 1600 := by decide +kernel
theorem witness_bursts :
    (reached line.lineTime 1000 = true ∧ reached line.lineTime 1001 = false)
    ∧ (let s := gas (fun c => { c with state := .waiting, nextDue := some 1000 })
       (s.channel 0).state = .waiting ∧ s.gasInUse < s.gasLimit)
    ∧ (let s := (gas (fun c => { c with state := .waiting, nextDue := some 1000 })).modChannel 7 (fun c => { c with state := .bursting })
       { s with gasLimit := 1 }.gasLimit ≤ s.gasInUse) := by decide +kernel
theorem test_bursts :
    ((after (gas (fun c => { c with state := .waiting, nextDue := some 1000 })) (.burstFallsDue 0)).channel 0).burstEnd = some 1010
    ∧ ((after (gas (fun c => { c with state := .bursting, burstEnd := some 1000, empty := true })) (.burstEnd 0)).channel 0).state
      = .paused
    ∧ ((after (gas (fun c => { c with state := .deferred, nextDue := some 1000, deferredDue := some 400 })) (.burstFallsDue 0)).channel
        0).skips = 1
    ∧ ((after (gas (fun c => { c with state := .waiting, nextDue := some 1001 })) (.burstFallsDue 0)).channel 0).state = .waiting := by
  decide +kernel

/-! ### Line modes and rescue -/

theorem witness_modes :
    line.mode = .run ∧ idle.mode ≠ .run ∧ line.gantryA.link ≠ .busy ∧ line.gantryB.link ≠ .busy ∧ granted.gantryA.link = .busy
    ∧ (let s : State := { line with holdAt := some 1000 }
       s.holdAt = some 1000 ∧ reached s.lineTime 1000 = true ∧ reached s.lineTime 1001 = false) := by decide +kernel
theorem test_modes :
    (after line .drain).mode = .drain ∧ (after line .hold).mode = .hold ∧ (after line .stop).mode = .idle
    ∧ replied granted .p0 .stop = some .notNow ∧ replied line .p0 .run = some .notNow ∧ replied idle .p0 .hold = some .notNow
    ∧ (after idle .run).mode = .run ∧ ((after idle .run).recipe 1).lastFault = some (0, .empty)
    ∧ ((after idle .run).recipe 0).valid = true := by decide +kernel
theorem test_hold_at :
    replied line .p0 (.holdAt 1000) = some .badArg ∧ (after line (.holdAt 1001)).holdAt = some 1001
    ∧ (after { line with holdAt := some 1001 } (.holdAt 0)).holdAt = none
    ∧ (after { line with holdAt := some 1000 } .holdAtReached).mode = .hold
    ∧ (after { line with holdAt := some 1001 } .holdAtReached).holdAt = some 1001 := by decide +kernel
theorem witness_clear_line :
    (∃ st, st ≤ 23 ∧ (inDeveloper.station st).gasChannel = some 0 ∧ 0 < (inDeveloper.station st).occupiedCount)
    ∧ ¬ ∃ st, st ≤ 23 ∧ (inDeveloper.station st).gasChannel = some 7 ∧ 0 < (inDeveloper.station st).occupiedCount := by
  refine ⟨⟨1, by decide +kernel⟩, by decide +kernel⟩
theorem test_clear_line_swaps :
    let v : Recipe := { Recipe.blank with staged := some [washStep] }
    (after { idle with recipes := (idle.recipes.setIfInBounds 3 v).setIfInBounds 0 v } .clearLine).port0.queue.map
      (fun n => (n.kind, n.codeA)) = [(.recipeSwapped, 0), (.recipeSwapped, 3)] := by decide +kernel
theorem test_clear_line :
    replied inDeveloper .p0 .clearLine = some .notNow
    ∧ (let t := after { inDeveloper with mode := .idle } .clearLine
       t.hangers = [] ∧ t.moves = [] ∧ t.slotAt ⟨1, 0⟩ = .free ∧ t.slotAt ⟨2, 0⟩ = .free) := by decide +kernel

/-- The hanger in the developer with its compare point reached, at a progress. -/
def atCompare (p : Nat) : State :=
  inDeveloper.modHanger 7 (fun h => { h with imm := { h.imm with compare := some 1000, progress := p } })

theorem witness_compare :
    (((atCompare 0).hanger? 7).map (fun h => (h.imm.compare, h.imm.fired)) = some (some 1000#32, false))
    ∧ ((atCompare 0).station 1).rescueLine = some 0 ∧ ((atCompare 0).line 0).asserted = false
    ∧ ((raised (atCompare 0)).line 0).asserted = true
    ∧ ((((atCompare 0).modStation 1 (fun x => { x with rescueLine := none })).station 1).rescueLine = none)
    ∧ (developing.restsIn 1 = true) ∧ (inDeveloper.hangerMove? 7 = some exitMove ∧ exitMove.kind ≠ .abort)
    ∧ (∀ m' ∈ inDeveloper.moves, m'.id = exitMove.id → m' = exitMove) := by decide +kernel
theorem test_rescue :
    ((after (atCompare 0) (.rescueCompareReached 7)).hanger? 7).map (fun h => (h.state, h.run.map RunEntry.condition))
      = some (.rescued, [some .under])
    ∧ (after (atCompare 0) (.rescueCompareReached 7)).moves.map (fun m => (m.state, m.deadline)) = [(.ready, some 1300#32)]
    ∧ (after (atCompare (6051 * 1024)) (.rescueCompareReached 7)).port0.queue.map Notice.kind = [.rescue, .condition]
    ∧ ((after (atCompare 0) (.rescueCompareReached 7)).channel 0).state = .held
    ∧ (after (atCompare 0) (.rescueCompareReached 7)).rescuePin 0 = true
    ∧ (after ((atCompare 0).modStation 1 (fun x => { x with rescueLine := none })) (.rescueCompareReached 7)).port0.queue.map
        Notice.kind = [.overdue] := by decide +kernel
theorem witness_grace_and_clear :
    (∀ h ∈ inDeveloper.hangers, reached inDeveloper.lineTime (h.imm.predClosing + BitVec.ofNat 32 (min 600 600)) = false)
    ∧ (((raised inDeveloper).line 0).asserted = true ∧ ((raised inDeveloper).station 1).rescueLine = some 0
      ∧ (∀ o, o ≤ 23 → o ≠ 1 → ((raised inDeveloper).station o).configured = true → ((raised inDeveloper).station o).rescueLine ≠ some 0)
      ∧ ∀ h ∈ (raised inDeveloper).hangers, h.state ≠ .rescued)
    ∧ (let s := hung line { developing with state := .rescued } [exitMove] [(⟨1, 0⟩, .occupied 7)]
       s.hangers.map Hanger.state = [.rescued] ∧ s.hangers.map Hanger.location = [.slot ⟨1, 0⟩]) := by decide +kernel
/-- The hanger in the developer, past its closing edge, its compare point armed for a later time. -/
def pastClose : State :=
  inDeveloper.modHanger 7 (fun h => { h with imm := { h.imm with predClosing := 950, compare := some 1050 } })

theorem witness_grace_reached :
    (pastClose.hangers.map Hanger.tag).Nodup
    ∧ pastClose.hangers.map (fun h => (h.imm.station, h.imm.fired, h.restsIn 1)) = [(1, false, true)]
    ∧ (∀ h ∈ pastClose.hangers, h.imm.compare ≠ none
      ∧ reached pastClose.lineTime (h.imm.predClosing + BitVec.ofNat 32 (min 50 600)) = true)
    ∧ ((pastClose.station 1).rescueLine = some 0 ∧ (pastClose.line 0).asserted = false
      ∧ ∀ o, o ≤ 23 → o ≠ 1 → (pastClose.station o).rescueLine ≠ some 0) := by decide +kernel
theorem test_grace_signals :
    ((after pastClose (.setGrace 50)).hanger? 7).map (fun h => (h.state, h.imm.fired)) = some (.rescued, true)
    ∧ (after pastClose (.setGrace 50)).rescuePin 0 = true
    ∧ ((after (pastClose.modStation 1 (fun x => { x with rescueLine := none })) (.setGrace 50)).hanger? 7).map
        (fun h => (h.state, h.imm.fired, h.imm.compare)) = some (.immersed, true, some 1000#32) := by decide +kernel
theorem test_grace_and_clear :
    (after inDeveloper (.setGrace 601)).grace = 600 ∧ replied inDeveloper .p0 (.setGrace 601) = some .clamped
    ∧ ((after inDeveloper (.setGrace 0)).hanger? 7).map (fun h => h.imm.compare) = some (some 6950#32)
    ∧ replied line .p0 (.rescueClear 4) = some .badArg ∧ replied line .p0 (.rescueClear 3) = some .notNow
    ∧ ((after (raised inDeveloper) (.rescueClear 0)).line 0).asserted = false
    ∧ replied (raised (hung line { developing with state := .rescued } [exitMove] [(⟨1, 0⟩, .occupied 7)])) .p0 (.rescueClear 0)
      = some .notNow := by decide +kernel

/-! ### Claims with a move held back -/

/-- Gantry B READY at a point. -/
def atB (s : State) (x : Nat) : State :=
  { s with gantryB := { line.gantryB with point := x, spanLow := x, spanHigh := x } }

/-- Gantry B stands too near the developer for gantry A to reach it. -/
def crowded : State := atB atLoad 600

def entryMove : Move := move 9 .entry .ready (.slot ⟨0, 1⟩) none 7

/-- Hanger 8 in the wash, its exit move before the ENTRY move of hanger 7; gantry B stands at the unload station's side. -/
def twoMoves : State :=
  let s := (atB atLoad 2100).setSlot ⟨2, 1⟩ (.occupied 8)
  { s with
      stations := s.stations.setIfInBounds 5 (stn .opened 5 2600 1)
      hangers := { loaded with bound := false } :: [{ washing with tag := 8 }]
      moves := [{ move 4 .exit .ready (.slot ⟨2, 1⟩) none 8 with deadline := some 1500 }, entryMove] }

theorem witness_zoned_claim :
    (twoMoves.gantry .a).link = .ready ∧ twoMoves.ownYield? .a = none ∧ twoMoves.moves.length < 256
    ∧ twoMoves.offered = [{ move 4 .exit .ready (.slot ⟨2, 1⟩) none 8 with deadline := some 1500 }] ++ entryMove :: []
    ∧ twoMoves.trial .a { move 4 .exit .ready (.slot ⟨2, 1⟩) none 8 with deadline := some 1500 } = .zoned ⟨4, 0⟩
    ∧ twoMoves.trial .a entryMove = .passed ⟨1, 0⟩ (some ⟨2, 0⟩)
    ∧ (twoMoves.gantry .b).link = .ready ∧ twoMoves.ownYield? .b = none := by decide +kernel
theorem test_zoned_claim :
    replied twoMoves .p1 (.claim .a) = some .ok
    ∧ (after twoMoves (.claim .a)).moves.map (fun m => (m.id, m.kind, m.state, m.dest))
      = [(4, .exit, .ready, none), (9, .entry, .granted, some (.slot ⟨1, 0⟩)), (10, .yielding, .ready, some (.point 2600))]
    ∧ (after twoMoves (.claim .a)).port2.queue.map Notice.kind = [.work] := by decide +kernel
theorem witness_yield_target : ZoneYields crowded .a entryMove 800 := by
  refine ⟨⟨1, 0⟩, by decide +kernel, by decide +kernel, by decide +kernel, by decide +kernel, ⟨2, by decide +kernel⟩, ?_, ?_⟩
  all_goals decide +kernel
theorem test_zone_yields :
    replied crowded .p1 (.claim .a) = some .none
    ∧ (after crowded (.claim .a)).moves.map (fun m => (m.id, m.kind, m.dest, m.blocked))
      = [(9, .entry, none, none), (10, .yielding, some (.point 800), some 9)] := by decide +kernel
theorem test_zone_held : ((after crowded (.claim .a)).port1).holder
    = .working { status := .none, payload := presentTime none ++ [0x01#8, 0x01#8, 0x09#8, 0x02#8] } := by decide +kernel

/-- Gantry B's own YIELD move, which gantry A's span stops. -/
def stuckYield : State :=
  { yielding with moves := yielding.moves.map (fun m => { m with dest := some (.point 200) }) }

theorem witness_own_yield_fails :
    (stuckYield.gantry .b).link = .ready ∧ (stuckYield.ownYield? .b).map (fun y => (y.id, y.dest)) = some (3, some (.point 200))
    ∧ stuckYield.mode ≠ .idle
    ∧ stuckYield.spanTest .b (min (stuckYield.gantry .b).point 200) (max (stuckYield.gantry .b).point 200) = false
    ∧ stuckYield.offered = [] := by decide +kernel
theorem test_own_yield_fails : ((after stuckYield (.claim .b)).port2).holder
    = .working { status := .none, payload := presentTime none ++ [0x01#8, 0x01#8, 0x03#8, 0x02#8] } := by decide +kernel

/-! ### The pending abort at a return to READY (R52) -/

/-- Gantry A has been granted the ENTRY move of hanger 7 to the developer. -/
def grantedEntry : State := (after atLoad (.claim .a)).modPort .p1 (fun q => { q with holder := .empty })

/-- Gantry A has been granted the move of `inDeveloper` to the wash. -/
def grantedOut : State :=
  { hung line { developing with state := .inTransit, phase := some .granted }
      [{ exitMove with state := .granted, gantry := some .a, limit := some 1000#32 }]
      [(⟨1, 0⟩, .occupied 7), (⟨2, 0⟩, .reserved 7 .destination)] with
      gantryA := { line.gantryA with link := .busy, granted := some 9, spanLow := 100, spanHigh := 800 } }

theorem witness_pending_abort :
    (((withAbort grantedEntry).hanger? 7).map (fun h => (h.state, h.pendingAbort)) = some (.inTransit, true)
      ∧ ((withAbort grantedEntry).hangerMove? 7).map (fun m => (m.kind, m.state)) = some (.entry, .granted)
      ∧ (grantedEntry.gantry .a).link = .busy)
    ∧ ((granted.station 2).cls ≠ .strict ∧ (granted.move? 9).map (fun m => (m.kind, m.gantry)) = some (.exit, some .a))
    ∧ ((grantedOut.station 1).cls = .strict ∧ (grantedOut.move? 9).bind Move.limit = some 1000
      ∧ reached grantedOut.lineTime 1000 = true)
    ∧ PortFree grantedEntry .p1 ∧ FailsAt (withAbort grantedOut) .a { exitMove with gantry := some .a, limit := some 1000#32 }
      (.moveLimitReached 9) .faulted none := by
  refine ⟨by decide +kernel, by decide +kernel, by decide +kernel, by unfold PortFree; decide +kernel, ?_⟩
  exact Or.inr (Or.inl ⟨rfl, rfl, rfl, rfl, 1000, rfl, by decide +kernel⟩)
/-- The hanger of an ENTRY move rejoins the start order when its gantry fails. -/
theorem test_failure_rejoins : (after grantedEntry (.fault .a 1 9 3)).startOrder = [7]
    ∧ (after grantedEntry (.gantryReset 0)).startOrder = [7] ∧ grantedEntry.startOrder = [] := by decide +kernel
theorem test_pending_abort :
    (let t := after (withAbort grantedEntry) (.abandon .a 9 100)
     ((t.gantryA.link, t.gantryA.point, t.gantryA.spanLow, t.gantryA.spanHigh) = (.ready, 100, 100, 100)) ∧
     (t.hanger? 7).map (fun h => (h.state, h.restCause, h.pendingAbort)) = some (.aborted, some .unstarted, false)
      ∧ t.moves = [] ∧ t.startOrder = [] ∧ t.slotAt ⟨1, 0⟩ = .free ∧ t.slotAt ⟨2, 0⟩ = .free)
    ∧ (let t := after (withAbort granted) (.gantryReset 0)
       (t.hanger? 7).map (fun h => (h.state, h.restCause)) = some (.aborted, some .inStep) ∧ t.moves = []
        ∧ t.slotAt ⟨4, 0⟩ = .free ∧ t.port0.queue.map Notice.kind = [.condition, .gantryState])
    ∧ (let t := after (withAbort grantedOut) (.moveLimitReached 9)
       (t.hanger? 7).map (fun h => (h.state, h.pendingAbort, h.imm.counting)) = some (.immersed, true, false)
        ∧ t.moves.map (fun m => (m.kind, m.state, m.deadline)) = [(.abort, .ready, some 1000#32)]
        ∧ t.slotAt ⟨2, 0⟩ = .reserved 7 .destination
        ∧ t.port0.queue.map Notice.kind = [.gantryState, .moveTimeout, .condition]
        ∧ t.port2.queue.map Notice.kind = [.work]) := by decide +kernel
theorem test_pending_abort_on_the_bar :
    let t := after (raised (withAbort toDeveloper)) (.lowered .a 9)
    (t.hanger? 7).map (fun h => (h.state, h.pendingAbort, h.imm.compare)) = some (.rescued, true, none)
    ∧ t.moves.map (fun m => (m.kind, m.state)) = [(.entry, .placed), (.abort, .ready)] := by decide +kernel

/-! ### Rates, compare points and gas channels -/

/-- The hanger in the developer, with its compare point armed for the closing edge. -/
def slowBath : State := inDeveloper.setBath 1 (some { bath with settings := { bath.settings with gain := 100, slew := 0 } })

theorem witness_rate_change :
    (slowBath.bath? 1).map Bath.rate = some 1024 ∧ developing.imm.RunsIn 1 ∧ developing.imm.fired = false
    ∧ (remadeImmersion developing.imm 1000 1524 100).compare = some 5166#32 ∧ reached slowBath.lineTime 5166 = false
    ∧ (remadeImmersion { developing.imm with crossClosing := some 800 } 1000 1524 100).compare = some 900#32
    ∧ reached slowBath.lineTime 900 = true ∧ developing.restsIn 1 = true := by
  refine ⟨by decide +kernel, ⟨rfl, rfl, rfl⟩, by decide +kernel⟩
theorem test_rate_change :
    ((after slowBath (.bathReport 1 2010)).bath? 1).map Bath.rate = some 1524
    ∧ ((after slowBath (.bathReport 1 2010)).hanger? 7).map (fun h => (h.imm.predTarget, h.imm.compare))
      = some (5032#32, some 5166#32)
    ∧ (after slowBath (.bathReport 1 2010)).moves.map (fun m => (m.state, m.ready, m.due)) = [(.waiting, 4932#32, some 5032#32)] := by
  decide +kernel

/-- The closing edge crossed at 800, the compare point still armed for a later time. -/
def lateBath : State := slowBath.modHanger 7 (fun h => { h with imm := { h.imm with crossClosing := some 800 } })

theorem test_rate_change_signals :
    ((after lateBath (.bathReport 1 2010)).hanger? 7).map (fun h => (h.state, h.imm.fired)) = some (.rescued, true)
    ∧ (after lateBath (.bathReport 1 2010)).rescuePin 0 = true := by decide +kernel

/-- Hangers 7 and 8 in the developer with compare points due together. -/
def twoInDeveloper : State :=
  let s := ((atCompare 0).setSlot ⟨1, 1⟩ (.occupied 8)).setSlot ⟨2, 1⟩ (.reserved 8 .forward)
  { s with hangers := s.hangers ++ [{ developing with tag := 8, location := .slot ⟨1, 1⟩, forward := some ⟨2, 1⟩,
                                                       imm := { strictImm with compare := some 990 } }] }

theorem test_two_compare_points :
    let t := after twoInDeveloper (.rescueCompareReached 7)
    t.hangers.map (fun h => (h.state, h.imm.fired, h.imm.compare)) = [(.rescued, true, none), (.rescued, true, none)]
    ∧ (after t (.rescueCompareReached 8)).hangers = t.hangers := by decide +kernel

/-- A line on which channel 0 of the developer stands in a state. -/
def lowering (f : Channel → Channel) : State := toDeveloper.modChannel 0 f
def lifting (f : Channel → Channel) : State := grantedOut.modChannel 0 f

theorem witness_occupancy :
    (toDeveloper.station 1).gasChannel = some 0 ∧ (toDeveloper.station 1).occupiedCount = 0
    ∧ 0 < ((after toDeveloper (.lowered .a 9)).station 1).occupiedCount ∧ toDeveloper.gasInUse < toDeveloper.gasLimit
    ∧ 0 < (grantedOut.station 1).occupiedCount ∧ ((after grantedOut (.lifted .a 9)).station 1).occupiedCount = 0 := by
  decide +kernel
theorem test_occupancy :
    ((after toDeveloper (.lowered .a 9)).channel 0).state = .bursting
    ∧ ((after (lowering (fun c => { c with state := .held })) (.lowered .a 9)).channel 0).nextDue = some 1000
    ∧ ((after (lifting (fun c => { c with state := .waiting, nextDue := some 1200 })) (.lifted .a 9)).channel 0).nextDue = none
    ∧ ((after (lifting (fun c => { c with state := .deferred })) (.lifted .a 9)).channel 0).state = .paused := by decide +kernel

/-! ### Raw sessions on a WORKING port -/

theorem test_raw_sessions :
    (let w := after line (.ident .p0)
     (after w (.unknownRequest .p0 [0x50#8, 0x00#8] 0)).port0.busyRefused = true
      ∧ (after w (.unknownRequest .p0 [0x0F#8] 0)).port0.shifted = [0xFF#8])
    ∧ replied line .p0 (.unknownRequest .p0 [0x7F#8, 0x00#8] 0) = some .ok
    ∧ replied line .p1 (.unknownRequest .p1 [0x50#8, 0x00#8] 0) = some .wrongPort := by decide +kernel

/-! ### Line time -/

theorem witness_quiet : inDeveloper.settle = inDeveloper ∧ State.reset.settle = State.reset := by decide +kernel
theorem witness_channels_lawful : ChannelsLawful inDeveloper := by
  intro n
  by_cases h : n < 8
  · revert h n; unfold Channel.Lawful; decide +kernel
  · have : inDeveloper.channels[n]? = none := Vector.getElem?_eq_none (by omega)
    simp only [State.channel, this, Option.getD_none]; unfold Channel.Lawful; decide
theorem test_advance :
    ((after inDeveloper (.lineTimeAdvance .left)).hanger? 7).map (fun h => (h.imm.elapsed, h.imm.progress)) = some (1, 1024)
    ∧ (after inDeveloper (.lineTimeAdvance .taken)).lineTime = 1001
    ∧ (after { State.reset with lineTime := 0xFFFFFFFF#32 } (.lineTimeAdvance .taken)).lineTime = 0
    ∧ (after { line with holdAt := some 1001 } (.lineTimeAdvance .taken)).mode = .hold
    ∧ (after { line with holdAt := some 1001 } (.lineTimeAdvance .left)).mode = .run := by decide +kernel
theorem witness_other_commands :
    (∀ e, Instr.ident .p0 ≠ .lineTimeAdvance e) ∧ Instr.ident .p0 ≠ .powerOn ∧ Instr.ident .p0 ≠ .resetn
    ∧ Instr.ident .p0 ≠ .run ∧ (∀ p l n, Instr.ident .p0 ≠ .unknownRequest p l n) := by
  refine ⟨fun e h => Instr.noConfusion h, by decide, by decide, by decide, fun p l n h => Instr.noConfusion h⟩
theorem test_window :
    strictImm.effective = 6000 ∧ strictImm.opening = 5950 ∧ strictImm.closing = 6050 ∧ strictImm.predTarget = 6900
    ∧ (Immersion.start 0 1 { strictStep with timeA := 1 } .strict 500 4096 0).effective = 1
    ∧ predict 0 6000 0 4096 = 1500 ∧ predict 0 1 0 1025 = 1 := by decide +kernel
theorem witness_window :
    ((1 : Nat) ≤ 64 ∧ 0 < 1 * 1024) ∧ strictImm.cls = some .strict ∧ washing.imm.cls = some .bounded
    ∧ (({ strictImm with progress := 6050 * 1024 } : Immersion).liftCondition = .onTime)
    ∧ (({ strictImm with progress := 6050 * 1024 + 1 } : Immersion).liftCondition = .late)
    ∧ (({ washing.imm with elapsed := 900 } : Immersion).liftCondition = .onTime)
    ∧ (({ washing.imm with elapsed := 901 } : Immersion).liftCondition = .over) := by decide +kernel

/-! ### Invariants -/

/-- The agreement of moves, gantries and hangers while no gantry works and no YIELD move stands. -/
theorem movesAgree_at_rest {s : State} (ht : (s.hangers.map Hanger.tag).Nodup ∧ s.hangers.length ≤ 32 ∧ (s.moves.map Move.id).Nodup)
    (hm : ∀ m ∈ s.moves, m.Fits ∧ ¬ m.InWork ∧ m.kind ≠ .yielding
      ∧ ∀ tag, m.tag = some tag → (∃ h, s.hanger? tag = some h) ∧ s.hangerMove? tag = some m)
    (hh : ∀ h ∈ s.hangers, HangerAgrees s h)
    (hg : ∀ g, (s.gantry g).link ≠ .busy ∧ (s.gantry g).granted = none ∧ (s.gantry g).hold = none) : MovesAgree s := by
  refine ⟨ht.1, ht.2.1, ht.2.2, fun m h => ?_, hh, fun g => ?_, fun _ g => (hg g).1⟩
  · exact ⟨(hm m h).1, fun hw => absurd hw (hm m h).2.1, fun _ => (hm m h).2.2.2⟩
  · refine ⟨⟨fun h => absurd h (hg g).1, fun h => absurd (hg g).2.1 h⟩, fun id h => ?_, fun m h hk => ?_, fun x h => ?_⟩
    · rw [(hg g).2.1] at h; cases h
    · exact absurd hk (hm m h).2.2.1
    · rw [(hg g).2.2] at h; cases h

/-- The STEP move out of the developer and an ENTRY move fit their kinds. -/
theorem fits_of_rest : (exitMove.Fits ∧ ¬ exitMove.InWork) ∧ entryMove.Fits ∧ ¬ entryMove.InWork := by
  simp [Move.Fits, Move.InWork, exitMove, entryMove, move, Move.fresh]

theorem witness_moves_agree : MovesAgree slowBath := by
  refine movesAgree_at_rest (by decide +kernel) (List.forall_mem_singleton.2 ?_) (List.forall_mem_singleton.2 ?_) ?_
  · exact ⟨fits_of_rest.1.1, fits_of_rest.1.2, by decide, fun tag e => by cases e; exact ⟨⟨_, rfl⟩, rfl⟩⟩
  · exact ⟨rfl, ⟨_, rfl⟩, exitMove, rfl, fits_of_rest.1.2⟩
  · intro g; cases g <;> decide +kernel

theorem witness_claims_agree : MovesAgree crowded ∧ MovesAgree twoMoves := by
  refine ⟨movesAgree_at_rest (by decide +kernel) (List.forall_mem_singleton.2 ?_) (List.forall_mem_singleton.2 ?_) ?_,
    movesAgree_at_rest (by decide +kernel) (List.forall_mem_cons.2 ⟨?_, List.forall_mem_singleton.2 ?_⟩)
      (List.forall_mem_cons.2 ⟨?_, List.forall_mem_singleton.2 ?_⟩) ?_⟩
  · exact ⟨fits_of_rest.2.1, fits_of_rest.2.2, by decide, fun tag e => by cases e; exact ⟨⟨_, rfl⟩, rfl⟩⟩
  · exact ⟨rfl, ⟨_, rfl⟩, entryMove, rfl, fits_of_rest.2.2⟩
  · intro g; cases g <;> decide +kernel
  · refine ⟨?_, ?_, by decide, fun tag e => by cases e; exact ⟨⟨_, rfl⟩, rfl⟩⟩ <;>
      simp [Move.Fits, Move.InWork, move, Move.fresh]
  · exact ⟨fits_of_rest.2.1, fits_of_rest.2.2, by decide, fun tag e => by cases e; exact ⟨⟨_, rfl⟩, rfl⟩⟩
  · exact ⟨rfl, ⟨_, rfl⟩, entryMove, rfl, fits_of_rest.2.2⟩
  · exact ⟨rfl, ⟨_, rfl⟩, _, rfl, by simp [Move.InWork, move, Move.fresh]⟩
  · intro g; cases g <;> decide +kernel

/-- A state with one YIELD move, which gantry B owns. -/
theorem movesAgree_of_own_yield {s : State} {y : Move} (hm : s.moves = [y]) (hy : y.Fits ∧ ¬ y.InWork ∧ y.tag = none ∧ y.gantry = some .b)
    (hh : s.hangers = []) (hb : (s.gantry .b).link = .ready)
    (hg : ∀ g, (s.gantry g).link ≠ .busy ∧ (s.gantry g).granted = none ∧ (s.gantry g).hold = none) : MovesAgree s := by
  unfold MovesAgree
  rw [hm, hh]
  refine ⟨by simp, by simp, by simp, List.forall_mem_singleton.2 ⟨hy.1, fun h => absurd h hy.2.1, fun _ tag e => ?_⟩, by simp,
    fun g => ⟨⟨fun h => absurd h (hg g).1, fun h => absurd (hg g).2.1 h⟩, fun id e => ?_, ?_, fun x e => ?_⟩, fun _ g => (hg g).1⟩
  · rw [hy.2.2.1] at e; cases e
  · rw [(hg g).2.1] at e; cases e
  · rw [hm]
    refine List.forall_mem_singleton.2 fun _ _ e => ?_
    rw [hy.2.2.2] at e
    cases e
    exact ⟨hb, List.forall_mem_singleton.2 fun _ _ _ => rfl⟩
  · rw [(hg g).2.2] at e; cases e

theorem witness_own_yield_agrees : MovesAgree stuckYield ∧ MovesAgree yielding := by
  constructor <;> refine movesAgree_of_own_yield rfl ⟨?_, ?_, rfl, rfl⟩ rfl rfl ?_
  · simp [Move.Fits, Move.InWork, Move.fresh]
  · simp [Move.InWork, Move.fresh]
  · intro g; cases g <;> decide +kernel
  · simp [Move.Fits, Move.InWork, Move.fresh]
  · simp [Move.InWork, Move.fresh]
  · intro g; cases g <;> decide +kernel

/-- A slot outside the 24 stations and the four slots of each reads FREE. -/
theorem slotAt_outside (s : State) (a b : Nat) (h : ¬ (a < 24 ∧ b < 4)) : s.slotAt ⟨a, b⟩ = .free := by
  unfold State.slotAt Station.slot
  by_cases hb : b < 4
  · have : s.stations[a]? = none := Vector.getElem?_eq_none (by omega)
    simp only [State.station, this, Option.getD_none]
    clear h this; revert b; decide
  · rw [Vector.getElem?_eq_none (show 4 ≤ b by omega)]; rfl

theorem slots_in_developer (r : SlotRef) : inDeveloper.slotAt r =
    if r = ⟨1, 0⟩ then .occupied 7 else if r = ⟨2, 0⟩ then .reserved 7 .forward else .free := by
  obtain ⟨a, b⟩ := r
  by_cases h : a < 24 ∧ b < 4
  · obtain ⟨ha, hb⟩ := h
    revert b; revert a; decide +kernel
  · have h1 : ¬ (a = 1 ∧ b = 0) := by omega
    have h2 : ¬ (a = 2 ∧ b = 0) := by omega
    simp [slotAt_outside _ _ _ h, h1, h2]

theorem witness_slots_agree : SlotsAgree inDeveloper := by
  refine ⟨fun r => ?_, List.forall_mem_singleton.2 ⟨fun r e => ?_, fun r e => ?_⟩, List.forall_mem_singleton.2 ?_, fun g x e => ?_⟩
  · by_cases h1 : r = ⟨1, 0⟩
    · subst h1; exact ⟨developing, by decide +kernel⟩
    · by_cases h2 : r = ⟨2, 0⟩
      · subst h2; exact ⟨developing, by decide +kernel⟩
      · simp [SlotAgrees, slots_in_developer, h1, h2]
  · cases e; decide +kernel
  · cases e; decide +kernel
  · intro h d _ et eh
    rw [← Option.some.inj et] at eh
    obtain rfl : developing = h := Option.some.inj eh
    exact ⟨fun e => by cases e; exact ⟨by decide +kernel, fun hw => absurd hw fits_of_rest.1.2⟩, fun r e => Or.inl (by cases e; rfl)⟩
  · cases g <;> cases e

/-! ### The grant tests -/

/-- Hanger 7 in the developer with its STEP move, ready at `ready`, and hanger 8 at the load station with its ENTRY move READY; with
a line mode, recipes, baths, gantry A's lowest station and gantry B's point. -/
def guarded (ready : LineTime) (mode : LineMode) (recipes : Vector Recipe 16) (baths : Vector (Option Bath) 24) (low x : Nat) :
    State :=
  { inDeveloper.setSlot ⟨0, 1⟩ (.occupied 8) with
      hangers := [developing, { loaded with tag := 8, bound := false }]
      moves := [{ exitMove with ready := ready }, { entryMove with id := 4, tag := some 8 }]
      startOrder := [8], mode := mode, recipes := recipes, baths := baths
      gantryA := { line.gantryA with reachLow := low }
      gantryB := { line.gantryB with point := x, spanLow := x, spanHigh := x } }

/-- The ENTRY move of `guarded`. -/
def guardedEntry : Move := { entryMove with id := 4, tag := some 8 }

/-- Recipe 0 with a staged version. -/
def stagedRecipes : Vector Recipe 16 :=
  line.recipes.setIfInBounds 0 { Recipe.blank with active := [strictStep, washStep], staged := some [washStep] }

/-- One outcome of `trial` after the other, each with the tests before it passed. -/
theorem test_trial :
    (guarded 6800 .drain line.recipes line.baths 0 3000).trial .a guardedEntry = .fails .mode
    ∧ (guarded 6800 .run stagedRecipes line.baths 0 3000).trial .a guardedEntry = .fails .gate
    ∧ (guarded 6800 .run line.recipes line.baths 1 3000).trial .a guardedEntry = .unreached
    ∧ (guarded 6800 .run line.recipes State.reset.baths 0 3000).trial .a guardedEntry = .fails .destination
    ∧ (guarded 6800 .run line.recipes line.baths 0 600).trial .a guardedEntry = .zoned ⟨1, 1⟩
    ∧ (guarded 1100 .run line.recipes line.baths 0 3000).trial .a guardedEntry = .fails .protection
    ∧ (guarded 6800 .run line.recipes line.baths 0 3000).trial .a guardedEntry = .passed ⟨1, 1⟩ (some ⟨2, 1⟩) := by decide +kernel

theorem slots_guarded (r : SlotRef) : (inDeveloper.setSlot ⟨0, 1⟩ (.occupied 8)).slotAt r =
    if r = ⟨0, 1⟩ then .occupied 8 else inDeveloper.slotAt r := by
  obtain ⟨a, b⟩ := r
  by_cases h : a < 24 ∧ b < 4
  · obtain ⟨ha, hb⟩ := h
    revert b; revert a; decide +kernel
  · have h1 : ¬ (a = 0 ∧ b = 1) := by omega
    simp [slotAt_outside _ _ _ h, h1]

variable (ready : LineTime) (mode : LineMode) (recipes : Vector Recipe 16) (baths : Vector (Option Bath) 24) (low x : Nat)

theorem witness_guarded_slot_counts : ∀ st, ((guarded ready mode recipes baths low x).station st).slotCount ≤ 4 := by
  intro st
  show ((inDeveloper.setSlot ⟨0, 1⟩ (.occupied 8)).station st).slotCount ≤ 4
  by_cases h : st < 24
  · revert h st; decide +kernel
  · rw [station_outside _ h]; decide

theorem witness_guarded_moves : MovesAgree (guarded ready mode recipes baths low x) := by
  refine movesAgree_at_rest ⟨(by decide : [7, 8].Nodup), (by decide : 2 ≤ 32), (by decide : [9, 4].Nodup)⟩
    (List.forall_mem_cons.2 ⟨?_, List.forall_mem_singleton.2 ?_⟩) (List.forall_mem_cons.2 ⟨?_, List.forall_mem_singleton.2 ?_⟩) ?_
  · refine ⟨?_, ?_, nofun, fun tag e => by cases e; exact ⟨⟨_, rfl⟩, rfl⟩⟩ <;>
      simp [Move.Fits, Move.InWork, exitMove, move, Move.fresh]
  · refine ⟨?_, ?_, by decide, fun tag e => by cases e; exact ⟨⟨_, rfl⟩, rfl⟩⟩ <;>
      simp [Move.Fits, Move.InWork, entryMove, move, Move.fresh]
  · exact ⟨rfl, ⟨_, rfl⟩, { exitMove with ready := ready }, rfl, by simp [Move.InWork, exitMove, move, Move.fresh]⟩
  · exact ⟨rfl, ⟨_, rfl⟩, guardedEntry, rfl, by simp [Move.InWork, guardedEntry, entryMove, move, Move.fresh]⟩
  · intro g; cases g <;> exact ⟨nofun, rfl, rfl⟩

theorem guarded_slotAt (r : SlotRef) : (guarded ready mode recipes baths low x).slotAt r =
    if r = ⟨0, 1⟩ then .occupied 8 else if r = ⟨1, 0⟩ then .occupied 7
    else if r = ⟨2, 0⟩ then .reserved 7 .forward else .free := by
  rw [← slots_in_developer, ← slots_guarded]; rfl

theorem witness_guarded_slots : SlotsAgree (guarded ready mode recipes baths low x) := by
  refine ⟨fun r => ?_, List.forall_mem_cons.2 ⟨⟨fun r e => ?_, fun r e => ?_⟩, List.forall_mem_singleton.2 ⟨fun r e => ?_, fun r e => ?_⟩⟩,
    List.forall_mem_cons.2 ⟨?_, List.forall_mem_singleton.2 ?_⟩, fun g x e => ?_⟩
  · unfold SlotAgrees
    rw [guarded_slotAt]
    by_cases h0 : r = ⟨0, 1⟩
    · subst h0; exact ⟨_, rfl, rfl⟩
    · by_cases h1 : r = ⟨1, 0⟩
      · subst h1; exact ⟨_, rfl, rfl⟩
      · by_cases h2 : r = ⟨2, 0⟩
        · subst h2; exact ⟨_, rfl, rfl⟩
        · simp [h0, h1, h2]
  · cases e; rw [guarded_slotAt]; rfl
  · cases e; rw [guarded_slotAt]; exact ⟨rfl, by decide, by decide⟩
  · cases e; rw [guarded_slotAt]; rfl
  · cases e
  · intro h d _ et eh
    rw [← Option.some.inj et] at eh
    obtain rfl : developing = h := Option.some.inj eh
    refine ⟨fun e => ⟨?_, fun hw => ?_⟩, fun r e => Or.inl (by cases e; rfl)⟩
    · cases e; rw [guarded_slotAt]; rfl
    · simp [Move.InWork, exitMove, move, Move.fresh] at hw
  · intro h d _ et eh
    rw [← Option.some.inj et] at eh
    obtain rfl := Option.some.inj eh
    exact ⟨fun e => (by cases e), fun r e => (by cases e)⟩
  · cases g <;> cases e

theorem witness_mode : ModePermits (guarded ready .run recipes baths low x) guardedEntry
    ∧ ¬ ModePermits (guarded ready .drain recipes baths low x) guardedEntry := by
  refine ⟨Or.inl rfl, ?_⟩
  rintro (h | ⟨_, h⟩ | ⟨h, _⟩)
  · cases h
  · exact h rfl
  · cases h

theorem witness_gate : GatePermits (guarded ready mode line.recipes baths low x) guardedEntry
    ∧ ¬ GatePermits (guarded ready mode stagedRecipes baths low x) guardedEntry := by
  refine ⟨fun _ => ⟨8, { loaded with tag := 8, bound := false }, [], [], rfl, rfl, ?_, rfl, fun _ h => by cases h⟩, fun h => ?_⟩
  · rintro ⟨_, h⟩
    have : ¬ ((line.recipe 0).active = [] ∨ (line.recipe 0).valid = false ∨ (line.recipe 0).staged ≠ none) := by decide +kernel
    exact this h
  · obtain ⟨tag, e, _, _, ht, he, hn, _⟩ := h rfl
    cases ht
    obtain rfl := Option.some.inj he
    refine hn ⟨rfl, Or.inr (Or.inr ?_)⟩
    have : (stagedRecipes[0]?.getD Recipe.blank).staged ≠ none := by decide +kernel
    exact this

theorem witness_reach : ReachPermits (guarded ready mode recipes baths 0 x) .a guardedEntry
    ∧ ¬ ReachPermits (guarded ready mode recipes baths 1 x) .a guardedEntry := by
  refine ⟨⟨⟨⟨0, 1⟩, rfl, Nat.zero_le 0, Nat.zero_le 23⟩, fun d e => (by cases e)⟩, ?_⟩
  rintro ⟨⟨r, hr, hl, _⟩, _⟩
  cases hr
  exact Nat.not_succ_le_zero 0 hl

/-- What a slot choice reads of the stations of groups 1 and 2 in `guarded`. -/
theorem groups_of_guarded : ∀ k, k = 1 ∨ k = 2 →
    (let s := inDeveloper.setSlot ⟨0, 1⟩ (.occupied 8)
     (∀ o, o ≤ 23 → (s.station o).configured = true → (s.station o).group = k → o = k)
      ∧ (s.station k).configured = true ∧ (s.station k).group = k ∧ 1 < (s.station k).slotCount ∧ (s.station k).slot 1 = .free
      ∧ (∀ i, i < 1 → (s.station k).slot i ≠ .free)
      ∧ (∀ l, (s.station k).rescueLine = some l → (s.line l).asserted = false)
      ∧ ((s.station k).supervised = true → k = 1)) := by
  rintro k (rfl | rfl)
  · refine ⟨by decide +kernel, by decide +kernel, by decide +kernel, by decide +kernel, by decide +kernel, by decide +kernel,
      fun l h => ?_, by decide +kernel⟩
    cases h; decide +kernel
  · exact ⟨by decide +kernel, by decide +kernel, by decide +kernel, by decide +kernel, by decide +kernel, by decide +kernel,
      fun l h => (by cases h), by decide +kernel⟩

theorem guarded_chosen (k j c : Nat) (hk : k = 1 ∨ k = 2) :
    IsChosen (guarded ready mode recipes line.baths 0 x) .a (.step j k) c ⟨k, 1⟩ := by
  obtain ⟨ho, hc, hg, hn, hf, hl, hr, hb⟩ := groups_of_guarded k hk
  refine ⟨⟨show k ≤ 23 by omega, hc, ⟨Nat.zero_le k, show k ≤ 23 by omega⟩, ⟨fun h => ?_, hr⟩, hg, 1, hn, hf⟩, fun o h hne => ?_, hn, hf, hl⟩
  · obtain rfl := hb h
    exact ⟨bath, rfl, Or.inl rfl, rfl⟩
  · exact absurd (ho o h.1 h.2.1 h.2.2.2.2.1) hne

theorem witness_route :
    RoutePermits (guarded ready mode line.recipes line.baths 0 x) .a guardedEntry { loaded with tag := 8, bound := false } ⟨1, 1⟩
      (some ⟨2, 1⟩)
    ∧ ∀ d f, ¬ RoutePermits (guarded ready mode line.recipes State.reset.baths 0 x) .a guardedEntry
        { loaded with tag := 8, bound := false } d f := by
  have target : ∀ b y, IsTarget (guarded ready mode line.recipes b 0 x) { loaded with tag := 8, bound := false } y → y = .step 0 1 := by
    rintro b y (⟨_, f, hf, rfl⟩ | ⟨h, _⟩)
    · obtain rfl : strictStep = f := Option.some.inj hf
      rfl
    · exact absurd rfl h
  refine ⟨⟨Or.inr ⟨rfl, .step 0 1, Or.inl ⟨rfl, strictStep, rfl, rfl⟩, guarded_chosen _ _ _ _ 1 0 _ (Or.inl rfl)⟩,
    fun h => absurd rfl h, fun _ => ⟨⟨2, 1⟩, rfl, by decide, Or.inr ⟨Or.inl rfl, 0, 1, .step 1 2, Or.inl ⟨rfl, strictStep, rfl, rfl⟩,
      ⟨rfl, washStep, rfl, rfl⟩, guarded_chosen _ _ _ _ 2 1 _ (Or.inr rfl)⟩⟩⟩, ?_⟩
  rintro d f ⟨h | ⟨_, y, hy, hc⟩, _⟩
  · cases h.1
  · obtain rfl := target _ y hy
    have h1 : d.station = 1 := (groups_of_guarded 1 (Or.inl rfl)).1 _ hc.1.1 hc.1.2.1 hc.1.2.2.2.2.1
    obtain ⟨b, hb, _⟩ := hc.1.2.2.2.1.1 (by rw [h1]; rfl)
    rw [h1] at hb
    cases hb

theorem witness_zone_and_protection :
    (ZonePermits (guarded 6800 .run line.recipes line.baths 0 3000) .a guardedEntry ⟨1, 1⟩
      ∧ ¬ ZonePermits (guarded 6800 .run line.recipes line.baths 0 600) .a guardedEntry ⟨1, 1⟩)
    ∧ ProtectionPermits (guarded 6800 .run line.recipes line.baths 0 3000) .a guardedEntry ⟨1, 1⟩
    ∧ ¬ ProtectionPermits (guarded 1100 .run line.recipes line.baths 0 3000) .a guardedEntry ⟨1, 1⟩ := by
  refine ⟨by unfold ZonePermits; decide +kernel, Or.inr (List.forall_mem_cons.2 ⟨fun _ _ _ => by decide +kernel,
    List.forall_mem_singleton.2 ?_⟩), ?_⟩
  · rintro ⟨r, hr, hc⟩
    cases hr; cases hc
  · rintro (⟨r, hr, hc⟩ | h)
    · cases hr; cases hc
    · have h0 : reached (1000 + BitVec.ofNat 32 (moveEstimate (guarded 1100 .run line.recipes line.baths 0 3000) .a guardedEntry ⟨1, 1⟩))
          1100 = false :=
        (List.forall_mem_cons.1 h).1 ⟨⟨1, 0⟩, rfl, rfl⟩ (Or.inl rfl)
          ⟨⟨1, 0⟩, ⟨2, 0⟩, rfl, rfl, ⟨Nat.zero_le 1, (by decide : 1 ≤ 23)⟩, Nat.zero_le 2, (by decide : 2 ≤ 23)⟩
      exact absurd h0 (by decide +kernel)

theorem witness_spans_agree : SpansAgree grantedOut := by
  refine ⟨by decide +kernel, fun g => ⟨?_, ?_, List.forall_mem_singleton.2 ?_⟩⟩
  · cases g <;> decide +kernel
  · cases g <;> decide +kernel
  · intro p hg hp; cases hp; revert hg; cases g <;> decide +kernel

theorem witness_map_lawful : MapLawful line := by
  refine ⟨fun st => ?_, fun a b hab ha hb => ?_⟩
  · by_cases h : st < 24
    · have small : ∀ st, st < 24 → (line.station st).rescueLine = if st = 1 then some 0 else none := by decide +kernel
      refine ⟨?_, ?_, ?_, ?_, ?_, ?_, ?_, fun l hl => ?_⟩
      · revert h st; decide +kernel
      · revert h st; decide +kernel
      · revert h st; decide +kernel
      · revert h st; decide +kernel
      · revert h st; decide +kernel
      · revert h st; decide +kernel
      · revert h st; decide +kernel
      · rw [small st h] at hl
        split at hl
        · rename_i e; subst e; cases hl; decide +kernel
        · cases hl
    · rw [station_outside _ h]
      exact ⟨by decide, by decide, by decide, by decide, by decide, by decide, by decide, fun l hl => by cases hl⟩
  · have bound : ∀ o, (line.station o).configured = true → o < 5 := by
      intro o ho
      by_cases h : o < 24
      · exact (by decide +kernel : ∀ o, o < 24 → (line.station o).configured = true → o < 5) o h ho
      · rw [station_outside _ h] at ho; cases ho
    have pairs : ∀ b, b < 5 → ∀ a, a < b → (line.station a).coordinate < (line.station b).coordinate
        ∧ ((line.station a).group = (line.station b).group → (line.station a).cls = (line.station b).cls) := by decide +kernel
    have lines : ∀ b, b < 5 → 1 < b → (line.station b).rescueLine = none := by decide +kernel
    have first : ∀ a, a < 5 → a ≠ 1 → (line.station a).rescueLine = none := by decide +kernel
    refine ⟨(pairs b (bound b hb) a hab).1, (pairs b (bound b hb) a hab).2, fun l hl => ?_⟩
    by_cases e : a = 1
    · rw [lines b (bound b hb) (by omega)]; exact nofun
    · rw [first a (bound a ha) e] at hl; cases hl

/-- One state meets the three premises of the agreement of slots. -/
theorem witness_slots_step : MapLawful inDeveloper ∧ MovesAgree inDeveloper ∧ SlotsAgree inDeveloper := by
  refine ⟨mapLawful_of_fields (fun st => ?_) witness_map_lawful, ?_, witness_slots_agree⟩
  · by_cases h : st < 24
    · revert h st; decide +kernel
    · rw [station_outside _ h, station_outside _ h]
  · refine movesAgree_at_rest (by decide +kernel) (List.forall_mem_singleton.2 ?_) (List.forall_mem_singleton.2 ?_) ?_
    · exact ⟨fits_of_rest.1.1, fits_of_rest.1.2, by decide, fun tag e => by cases e; exact ⟨⟨_, rfl⟩, rfl⟩⟩
    · exact ⟨rfl, ⟨_, rfl⟩, exitMove, rfl, fits_of_rest.1.2⟩
    · intro g; cases g <;> decide +kernel

theorem witness_invariants :
    QueuesBounded { line with port0 := fullPort } ∧ BurstsBounded line ∧ (∀ st, st ≤ 23 → ∀ b, line.bath? st = some b → b = bath)
    ∧ bath.Lawful := by
  refine ⟨?_, by unfold BurstsBounded; decide +kernel, ?_, ?_⟩
  · intro p; cases p <;> decide
  · intro st h b hb
    have : line.bath? st = if st = 1 then some bath else none := by
      clear hb b; revert h st; decide +kernel
    rw [this] at hb; split at hb <;> simp_all
  · unfold Bath.Lawful BathSettings.Lawful; decide

end Sys2Proof.Tests
end

