-- ==== Sys2Proof/Proofs/StationMap.lean ====
section
/-! PROOFS. The structural checks of SET-STATION in the rules' words (R9), the map a consistent write leaves, and what the
requests of the station map answer (O12, O13). -/

namespace Sys2Proof.Machine

/-! ### The structural checks (R9) -/

/-- The last index below a bound that passes a test. -/
theorem getLast?_filter_range {p : Nat → Bool} (n o : Nat) :
    ((List.range n).filter p).getLast? = some o ↔ p o = true ∧ o < n ∧ ∀ j, o < j → j < n → p j = false := by
  induction n with
  | zero => simp
  | succ n ih =>
    rw [List.getLast?_filter] at ih ⊢
    rw [List.range_succ, List.reverse_concat, List.find?_cons]
    cases hn : p n with
    | true =>
      constructor
      · rintro ⟨⟩; exact ⟨hn, by omega, fun j _ _ => by omega⟩
      · rintro ⟨_, h2, h3⟩
        by_contra hne
        have : o ≠ n := fun e => hne (by rw [e])
        rw [h3 n (by omega) (by omega)] at hn; cases hn
    | false =>
      rw [ih]
      constructor
      · rintro ⟨h1, h2, h3⟩
        refine ⟨h1, by omega, fun j hj hj' => ?_⟩
        by_cases e : j = n
        · rw [e]; exact hn
        · exact h3 j hj (by omega)
      · rintro ⟨h1, h2, h3⟩
        have : o ≠ n := by rintro rfl; rw [h1] at hn; cases hn
        exact ⟨h1, by omega, fun j hj hj' => h3 j hj (by omega)⟩

/-- The first index below a bound that passes a test. -/
theorem head?_filter_range {p : Nat → Bool} (n o : Nat) :
    ((List.range n).filter p).head? = some o ↔ p o = true ∧ o < n ∧ ∀ j, j < o → p j = false := by
  rw [List.head?_filter, List.find?_range_eq_some]
  simp

theorem State.railOrder_iff (s : State) (st x : Nat) : s.railOrder st x = true ↔
    (∀ o, o < st → o ≤ 23 → (s.station o).configured = true →
      (∀ o', o < o' → o' < st → o' ≤ 23 → (s.station o').configured = false) → (s.station o).coordinate < x)
    ∧ (∀ o, st < o → o ≤ 23 → (s.station o).configured = true →
      (∀ o', st < o' → o' < o → (s.station o').configured = false) → x < (s.station o).coordinate) := by
  have below : ∀ o, ((s.otherStations st).filter (fun o => decide (o < st))).getLast? = some o ↔
      (o < st ∧ o ≤ 23 ∧ (s.station o).configured = true
        ∧ ∀ o', o < o' → o' < st → o' ≤ 23 → (s.station o').configured = false) := by
    intro o
    unfold State.otherStations
    rw [List.filter_filter, getLast?_filter_range]
    simp only [Config.stations, Bool.and_eq_true, decide_eq_true_eq, bne_iff_ne, Bool.and_eq_false_imp, bne_eq_false_iff_eq]
    constructor
    · rintro ⟨⟨h1, h2, h3⟩, h4, h5⟩
      refine ⟨h1, by omega, h2, fun o' ho h6 h7 => ?_⟩
      by_contra hc
      have := h5 o' ho (by omega) h6 (by simpa using hc)
      omega
    · rintro ⟨h1, h2, h3, h4⟩
      refine ⟨⟨h1, h3, by omega⟩, by omega, fun o' ho h5 h6 h7 => ?_⟩
      rw [h4 o' ho h6 (by omega)] at h7; cases h7
  have above : ∀ o, ((s.otherStations st).filter (fun o => decide (st < o))).head? = some o ↔
      (st < o ∧ o ≤ 23 ∧ (s.station o).configured = true ∧ ∀ o', st < o' → o' < o → (s.station o').configured = false) := by
    intro o
    unfold State.otherStations
    rw [List.filter_filter, head?_filter_range]
    simp only [Config.stations, Bool.and_eq_true, decide_eq_true_eq, bne_iff_ne, Bool.and_eq_false_imp, bne_eq_false_iff_eq]
    constructor
    · rintro ⟨⟨h1, h2, h3⟩, h4, h5⟩
      refine ⟨h1, by omega, h2, fun o' ho h6 => ?_⟩
      by_contra hc
      have := h5 o' h6 ho (by simpa using hc)
      omega
    · rintro ⟨h1, h2, h3, h4⟩
      refine ⟨⟨h1, h3, by omega⟩, by omega, fun o' ho h6 h7 => ?_⟩
      rw [h4 o' h6 ho] at h7; cases h7
  unfold State.railOrder
  rw [Bool.and_eq_true]
  refine and_congr ?_ ?_
  · constructor
    · intro h o h1 h2 h3 h4
      rw [(below o).2 ⟨h1, h2, h3, h4⟩] at h
      simpa using h
    · intro h
      split
      · rename_i o ho
        obtain ⟨h1, h2, h3, h4⟩ := (below o).1 ho
        simpa using h o h1 h2 h3 h4
      · rfl
  · constructor
    · intro h o h1 h2 h3 h4
      rw [(above o).2 ⟨h1, h2, h3, h4⟩] at h
      simpa using h
    · intro h
      split
      · rename_i o ho
        obtain ⟨h1, h2, h3, h4⟩ := (above o).1 ho
        simpa using h o h1 h2 h3 h4
      · rfl

theorem State.mem_otherStations (s : State) (st o : Nat) :
    o ∈ s.otherStations st ↔ o ≤ 23 ∧ o ≠ st ∧ (s.station o).configured = true := by
  unfold State.otherStations
  rw [List.mem_filter, List.mem_range, Bool.and_eq_true, bne_iff_ne, Config.stations]
  constructor
  · rintro ⟨h1, h2, h3⟩; exact ⟨by omega, h3, h2⟩
  · rintro ⟨h1, h2, h3⟩; exact ⟨by omega, h3, h2⟩

theorem State.groupAgrees_iff (s : State) (st : Nat) (w : StationWrite) : s.groupAgrees st w = true ↔
    ∀ o, o ≤ 23 → o ≠ st → (s.station o).configured = true → (s.station o).group = w.group → (s.station o).cls = w.cls := by
  unfold State.groupAgrees
  simp only [List.all_eq_true, State.mem_otherStations, Bool.or_eq_true, bne_iff_ne, beq_iff_eq, and_imp,
    ← imp_iff_not_or]

theorem StationWrite.supervisionAgrees_iff (w : StationWrite) : w.supervisionAgrees = true ↔
    (w.cls = .strict → w.supervised = true) ∧ (w.cls = .load ∨ w.cls = .unload → w.supervised = false) := by
  unfold StationWrite.supervisionAgrees
  cases w.cls <;> simp

theorem State.lineAgrees_iff (s : State) (st : Nat) (w : StationWrite) : s.lineAgrees st w = true ↔
    ∀ l, w.rescueLine = some l → w.cls = .strict
      ∧ ∀ o, o ≤ 23 → o ≠ st → (s.station o).configured = true → (s.station o).rescueLine ≠ some l := by
  unfold State.lineAgrees
  cases w.rescueLine with
  | none => simp
  | some l => simp [List.all_eq_true, State.mem_otherStations]

/-- The model's structural checks are those of R9. -/
theorem State.writeConsistent_iff (s : State) (st : Nat) (w : StationWrite) : s.writeConsistent st w = true ↔
    MapAgrees s st w.cls w.group w.coordinate w.supervised w.rescueLine := by
  unfold State.writeConsistent MapAgrees
  rw [Bool.and_eq_true, Bool.and_eq_true, Bool.and_eq_true, State.railOrder_iff, State.groupAgrees_iff,
    StationWrite.supervisionAgrees_iff, State.lineAgrees_iff]
  simp only [and_assoc]

end Sys2Proof.Machine
end

