-- ==== Sys2Proof/Proofs/Lawful.lean ====
section
/-! PROOFS. Every step keeps bath records, burst channels and the station map lawful (O57): the three invariants, held together
in one relation that every small update of an event keeps (`Wide`). -/

namespace Sys2Proof.Machine

/-- What `s` has of lawful channels and a lawful map, `t` has. -/
def KeepsGasAndMap (s t : State) : Prop := (ChannelsLawful s → ChannelsLawful t) ∧ (MapLawful s → MapLawful t)

/-- When the bath records of `s` are lawful, those of `t` are. -/
def KeepsBaths (s t : State) : Prop := BathsLawful s → BathsLawful t

theorem mapLawful_congr {s t : State} (h : t.stations = s.stations) (hs : MapLawful s) : MapLawful t :=
  mapLawful_of_fields (fun st => by rw [State.station_congr h]) hs

theorem channelsLawful_congr {s t : State} (h : t.channels = s.channels) (hs : ChannelsLawful s) : ChannelsLawful t :=
  fun n => by simpa [State.channel, h] using hs n

theorem bathsLawful_congr {s t : State} (h : t.baths = s.baths) (hs : BathsLawful s) : BathsLawful t :=
  fun st b hb => hs st b ((State.bath_congr h st).symm.trans hb)

/-! ### Burst channels -/


theorem channelsLawful_modChannel {s : State} {n : Nat} {f : Channel → Channel} (hf : ∀ c, c.Lawful → (f c).Lawful)
    (hs : ChannelsLawful s) : ChannelsLawful (s.modChannel n f) := by
  intro n'
  by_cases h : n < 8
  · rw [State.channel_modChannel h]
    split
    · exact hf _ (hs n)
    · exact hs n'
  · have e : (s.modChannel n f).channels = s.channels := Vector.setIfInBounds_eq_of_size_le (by omega)
    exact channelsLawful_congr e hs n'

theorem channelsLawful_offerValve {s : State} (hs : ChannelsLawful s) : ChannelsLawful s.offerValve := by
  unfold State.offerValve
  split
  · exact channelsLawful_modChannel (fun _ h => h) hs
  · exact hs

/-! ### Bath records -/

/-- One record of the table is replaced or made inactive. -/
theorem bathsLawful_setBath {s : State} {st : Nat} {b : Option Bath} (hb : ∀ x, b = some x → x.Lawful) (hs : BathsLawful s) :
    BathsLawful (s.setBath st b) := by
  intro st' x hx
  by_cases h : st < 24
  · rw [State.bath_setBath h] at hx
    split at hx
    · exact hb x hx
    · exact hs st' x hx
  · have e : (s.setBath st b).baths = s.baths := Vector.setIfInBounds_eq_of_size_le (by omega)
    exact bathsLawful_congr e hs st' x hx

/-- A bath record that is lawful but for its area counter, which may have reached the quantum (R97). -/
def Bath.Steady (b : Bath) : Prop := BathSettings.Lawful b.settings ∧ 64 ≤ b.rate ∧ b.rate ≤ 4096 ∧ b.debt ≤ 15

theorem Bath.steady_of_lawful {b : Bath} (h : b.Lawful) : Bath.Steady b := ⟨h.1, h.2.1, h.2.2.1, h.2.2.2.1⟩

/-- Every record is lawful, but for the area counter of the bath of `st`. -/
def LawfulButArea (st : Nat) (s : State) : Prop := ∀ o b, s.bath? o = some b → Bath.Steady b ∧ (o ≠ st → b.Lawful)

namespace LawfulButArea

variable {s t : State} {st : Nat}

theorem of_lawful (hs : BathsLawful s) : LawfulButArea st s := fun o b hb => ⟨Bath.steady_of_lawful (hs o b hb), fun _ => hs o b hb⟩

theorem congr (h : t.baths = s.baths) (hs : LawfulButArea st s) : LawfulButArea st t :=
  fun o b hb => hs o b ((State.bath_congr h o).symm.trans hb)

theorem setBath {b : Bath} (hb : Bath.Steady b) (hs : LawfulButArea st s) : LawfulButArea st (s.setBath st (some b)) := by
  intro o x hx
  by_cases h : st < 24
  · rw [State.bath_setBath h] at hx
    split at hx
    · cases hx; exact ⟨hb, fun hn => absurd (by assumption) hn⟩
    · exact hs o x hx
  · have e : (s.setBath st (some b)).baths = s.baths := Vector.setIfInBounds_eq_of_size_le (by omega)
    exact congr e hs o x hx

theorem modBath {f : Bath → Bath} (hf : ∀ b, Bath.Steady b → Bath.Steady (f b)) (hs : LawfulButArea st s) :
    LawfulButArea st (s.modBath st f) := by
  unfold State.modBath
  cases hb : s.bath? st with
  | some b => exact setBath (hf b (hs st b hb).1) hs
  | none =>
    intro o x hx
    have ho : s.bath? o = some x := by
      by_cases h : st < 24
      · have hx' : (s.setBath st none).bath? o = some x := hx
        rw [State.bath_setBath h] at hx'
        split at hx'
        · cases hx'
        · exact hx'
      · have e : (s.setBath st none).baths = s.baths := Vector.setIfInBounds_eq_of_size_le (by omega)
        rw [← State.bath_congr e]; exact hx
    exact hs o x ho

theorem setReadiness (r : Readiness) (hs : LawfulButArea st s) : LawfulButArea st (s.setReadiness st r) := by
  unfold State.setReadiness
  split
  · split
    · exact hs
    · exact congr (State.notify_baths _ _ _ _ _ _ _) (modBath (fun _ h => h) hs)
  · exact hs

theorem goStale (hs : LawfulButArea st s) : LawfulButArea st (s.goStale st) := by
  have h1 : LawfulButArea st (s.modBath st (fun b => { b with rateHeld := true, firstReading := true, staleCompare := none })) :=
    modBath (fun _ h => h) hs
  have h2 : ∀ k, LawfulButArea st (((s.modBath st (fun b =>
      { b with rateHeld := true, firstReading := true, staleCompare := none })).modBath st
      (fun b => { b with returnState := k })).setReadiness st .stale) :=
    fun k => setReadiness _ (modBath (fun _ h => h) h1)
  unfold State.goStale
  refine congr (State.markStale_baths _ _) ?_
  split
  · split
    · exact h2 _
    · exact h2 _
    · exact h2 _
    · exact h1
    · exact h1
  · exact h1

theorem staleDue (hs : LawfulButArea st s) : LawfulButArea st (s.staleDue st) := by
  unfold State.staleDue
  split
  · split
    · exact goStale hs
    · exact hs
  · exact hs

theorem placeInService (hs : LawfulButArea st s) : LawfulButArea st (s.placeInService st) := by
  unfold State.placeInService
  split
  · split
    · exact setReadiness _ hs
    · exact hs
  · exact hs

/-- R97: the conversion brings the area counter below the quantum. -/
theorem convert_lawful {b : Bath} (h : Bath.Steady b) : b.convert.Lawful := by
  obtain ⟨h1, h2, h3, h4⟩ := h
  have hq : 1 ≤ b.settings.quantum := h1.2.2.2.2.2.2.2.2.2.2.2.2.2.2.2.1
  refine ⟨h1, h2, h3, ?_, Nat.mod_lt _ hq⟩
  unfold Bath.convert satAdd
  dsimp only
  split <;> omega

theorem convertArea (hs : LawfulButArea st s) : BathsLawful (s.convertArea st) := by
  unfold State.convertArea
  split
  · rename_i b hb
    split
    · refine bathsLawful_congr (State.notify_baths _ _ _ _ _ _ _) (fun o x hx => ?_)
      rw [State.bath_setBath (State.bath_bound hb)] at hx
      split at hx
      · cases hx; exact convert_lawful (hs st b hb).1
      · rename_i ho; exact (hs o x hx).2 ho
    · rename_i hlt
      intro o x hx
      by_cases ho : o = st
      · subst ho
        rw [hb] at hx; cases hx
        obtain ⟨h1, h2, h3, h4⟩ := (hs o b hb).1
        exact ⟨h1, h2, h3, h4, by omega⟩
      · exact (hs o x hx).2 ho
  · rename_i hb
    intro o x hx
    refine (hs o x hx).2 (fun ho => ?_)
    rw [ho, hb] at hx; cases hx

end LawfulButArea

theorem bathsLawful_addArea {s : State} (st a : Nat) (hs : BathsLawful s) : BathsLawful (s.addArea st a) := by
  have added : LawfulButArea st (s.modBath st (fun b => { b with area := b.area + a })) :=
    LawfulButArea.modBath (fun _ h => h) (LawfulButArea.of_lawful hs)
  exact added.convertArea

/-- Settings within their ranges leave a record lawful but for its area counter, whose new quantum it may have reached. -/
theorem resettle_steady {b : Bath} {n : BathSettings} (hn : BathSettings.Lawful n) (hb : Bath.Steady b) : Bath.Steady (b.resettle n) := by
  unfold Bath.resettle Bath.recompute
  split
  · exact ⟨hn, hb.2.1, hb.2.2.1, hb.2.2.2⟩
  · split
    · exact ⟨hn, (Closed.rateFor_bounds hn _).1, (Closed.rateFor_bounds hn _).2, hb.2.2.2⟩
    · exact ⟨hn, hb.2.1, hb.2.2.1, hb.2.2.2⟩

/-- What each turn of a loop leaves of a field, the loop leaves. -/
theorem foldl_field {α β : Type} (g : State → β) (f : State → α → State) (hf : ∀ t a, g (f t a) = g t) (l : List α) (s : State) :
    g (l.foldl f s) = g s := by
  induction l generalizing s with
  | nil => rfl
  | cons a l ih => rw [List.foldl_cons, ih, hf]

theorem signal_baths (s : State) (tag : Nat) : (s.signal tag).baths = s.baths := by
  have hassert : ∀ (t : State) l st tag, (t.assertLine l st tag).baths = t.baths := by
    intro t l st tag
    unfold State.assertLine
    rw [foldl_field State.baths _ (fun t a => State.rescueHanger_baths t st a)]
    simp
  unfold State.signal
  split
  · split
    · dsimp only
      split
      · simp
      · split
        · simp
        · rw [hassert]; simp
    · rfl
  · rfl

theorem rateChanged_baths (s : State) (st : Nat) : (s.rateChanged st).baths = s.baths := by
  unfold State.rateChanged State.remakeStation
  rw [foldl_field State.baths _ signal_baths,
    foldl_field State.baths _ (fun t a => State.remakeOne_baths t st a)]

theorem bathsLawful_writeSettings {s : State} {st : Nat} {b : Bath} {n : BathSettings} (hb : s.bath? st = some b)
    (hn : BathSettings.Lawful n) (hs : BathsLawful s) : BathsLawful (s.writeSettings st b n) := by
  have stored : LawfulButArea st (s.storeBath st b (b.resettle n)) := by
    have h1 : LawfulButArea st (s.setBath st (some (b.resettle n))) :=
      LawfulButArea.setBath (resettle_steady hn (Bath.steady_of_lawful (hs st b hb))) (LawfulButArea.of_lawful hs)
    unfold State.storeBath
    split
    · exact h1
    · exact h1.congr (rateChanged_baths _ _)
  have rearmed : LawfulButArea st (((s.storeBath st b (b.resettle n)).placeInService st).modBath st Bath.rearm) :=
    LawfulButArea.modBath (fun _ h => h) stored.placeInService
  exact rearmed.staleDue.convertArea

/-! ### The map a SET-STATION writes (R8, R9) -/

/-- R9: below a written station every configured one has a lower coordinate, and above it a higher one: the checks made against its
nearest neighbours reach the others, because the map was in order. -/
theorem coordinate_ordered {s : State} {st : Nat} {cls : StationClass} {grp x : Nat} {sv : Bool} {rl : Option Nat}
    (hs : MapLawful s) (hc : MapAgrees s st cls grp x sv rl) {o : Nat} (ho : o ≤ 23) (hcf : (s.station o).configured = true) :
    (o < st → (s.station o).coordinate < x) ∧ (st < o → x < (s.station o).coordinate) := by
  obtain ⟨below, above, -⟩ := hc
  constructor
  · intro hlt
    induction hd : st - o using Nat.strong_induction_on generalizing o with
    | _ d ih =>
      by_cases hex : ∃ o', o < o' ∧ o' < st ∧ o' ≤ 23 ∧ (s.station o').configured = true
      · obtain ⟨o', h1, h2, h3, h4⟩ := hex
        have := ih (st - o') (by omega) h3 h4 h2 rfl
        have := (hs.2 o o' h1 hcf h4).1
        omega
      · refine below o hlt ho hcf (fun o' h1 h2 h3 => ?_)
        by_contra hne
        exact hex ⟨o', h1, h2, h3, by simpa using hne⟩
  · intro hlt
    induction hd : o - st using Nat.strong_induction_on generalizing o with
    | _ d ih =>
      by_cases hex : ∃ o', st < o' ∧ o' < o ∧ (s.station o').configured = true
      · obtain ⟨o', h1, h2, h3⟩ := hex
        have := ih (o' - st) (by omega) (by omega) h3 h1 rfl
        have := (hs.2 o' o h2 h3 hcf).1
        omega
      · refine above o hlt ho hcf (fun o' h1 h2 => ?_)
        by_contra hne
        exact hex ⟨o', h1, h2, by simpa using hne⟩

theorem Station.absent_lawful : Station.absent.Lawful := by
  simp [Station.Lawful, Station.absent]

/-- A station index past the last names an absent station. -/
theorem State.configured_bound {s : State} {st : Nat} (h : (s.station st).configured = true) : st ≤ 23 := by
  by_contra h2
  have : s.stations[st]? = none := Vector.getElem?_eq_none (by omega)
  simp [State.station, this, Station.absent] at h

/-- R8, R9: a consistent write is a lawful record. -/
theorem written_lawful {s : State} {st : Nat} {w : StationWrite} (hw : w.InRange) (hc : s.writeConsistent st w = true) (x : Station)
    (a : Nat) : (x.written w a).Lawful := by
  obtain ⟨-, -, -, hstrict, hplain, hline⟩ := (State.writeConsistent_iff s st w).1 hc
  obtain ⟨h1, h2, h3, h4, h5⟩ := hw
  refine ⟨h1, h2, h3, h4, ?_, fun _ => hstrict, fun h => ⟨hplain h, if_pos h⟩, fun l hl => ⟨h5 l hl, (hline l hl).1, rfl⟩⟩
  show w.storedAllowance a ≤ 600
  unfold StationWrite.storedAllowance
  split <;> omega

/-- A record put in place of one of the map keeps the map lawful when it is lawful and, if configured, agrees with the others. -/
theorem mapLawful_modStation {s : State} {st : Nat} {f : Station → Station} (hf : (f (s.station st)).Lawful)
    (hagree : ∀ o, o ≤ 23 → o ≠ st → (s.station o).configured = true → (f (s.station st)).configured = true →
      (o < st → (s.station o).coordinate < (f (s.station st)).coordinate)
      ∧ (st < o → (f (s.station st)).coordinate < (s.station o).coordinate)
      ∧ ((s.station o).group = (f (s.station st)).group → (s.station o).cls = (f (s.station st)).cls)
      ∧ ∀ l, (f (s.station st)).rescueLine = some l → (s.station o).rescueLine ≠ some l)
    (hs : MapLawful s) : MapLawful (s.modStation st f) := by
  by_cases hst : st < 24
  · refine ⟨fun o => ?_, fun a b hab ha hb => ?_⟩
    · rw [State.station_modStation hst]
      split
      · exact hf
      · exact hs.1 o
    · rw [State.station_modStation hst] at ha ⊢
      rw [State.station_modStation hst] at hb ⊢
      by_cases h1 : a = st
      · have h2 : b ≠ st := by omega
        simp only [if_pos h1, if_neg h2] at ha hb ⊢
        obtain ⟨-, hx, hg, hl⟩ := hagree b (State.configured_bound hb) h2 hb ha
        exact ⟨hx (by omega), fun e => (hg e.symm).symm, hl⟩
      · by_cases h2 : b = st
        · simp only [if_neg h1, if_pos h2] at ha hb ⊢
          obtain ⟨hx, -, hg, hl⟩ := hagree a (State.configured_bound ha) h1 ha hb
          exact ⟨hx (by omega), hg, fun l e e' => hl l e' e⟩
        · simp only [if_neg h1, if_neg h2] at ha hb ⊢
          exact hs.2 a b hab ha hb
  · have e : (s.modStation st f).stations = s.stations := Vector.setIfInBounds_eq_of_size_le (by omega)
    exact mapLawful_congr e hs

theorem mapLawful_written {s : State} {st : Nat} {w : StationWrite} (hw : w.InRange) (hc : s.writeConsistent st w = true)
    (a : Nat) (hs : MapLawful s) : MapLawful (s.modStation st (fun x => x.written w a)) := by
  have hag := (State.writeConsistent_iff s st w).1 hc
  refine mapLawful_modStation (written_lawful hw hc _ a) (fun o h1 h2 h3 _ => ?_) hs
  have hx := coordinate_ordered hs hag h1 h3
  obtain ⟨-, -, hgroup, -, -, hline⟩ := hag
  exact ⟨hx.1, hx.2, hgroup o h1 h2 h3, fun l hl => (hline l hl).2 o h1 h2 h3⟩

/-- The map stays lawful where every field of a station but its slots and its gas channel is kept. -/
theorem mapLawful_of_settings {s t : State} (h : ∀ st, (t.station st).settings = (s.station st).settings) (hs : MapLawful s) :
    MapLawful t := by
  have fields : ∀ st, (t.station st).group = (s.station st).group ∧ (t.station st).coordinate = (s.station st).coordinate
      ∧ (t.station st).slotCount = (s.station st).slotCount ∧ (t.station st).allowance = (s.station st).allowance
      ∧ (t.station st).configured = (s.station st).configured ∧ (t.station st).cls = (s.station st).cls
      ∧ (t.station st).supervised = (s.station st).supervised ∧ (t.station st).rescueLine = (s.station st).rescueLine := by
    intro st
    have h' := h st
    simp only [Station.settings, Station.mk.injEq] at h'
    tauto
  unfold MapLawful Station.Lawful at *
  simpa only [fields] using hs

/-! ### Every small update keeps the invariants -/

theorem KeepsGasAndMap.of_untouched {s t : State} (hc : t.channels = s.channels) (hm : t.stations = s.stations) :
    KeepsGasAndMap s t := ⟨channelsLawful_congr hc, mapLawful_congr hm⟩

theorem KeepsGasAndMap.of_stations {s t : State} (hm : t.stations = s.stations)
    (hc : ChannelsLawful s → ChannelsLawful t) : KeepsGasAndMap s t := ⟨hc, mapLawful_congr hm⟩

theorem keepsGasAndMap_closed : Closed KeepsGasAndMap where
  refl _ := ⟨id, id⟩
  trans h h' := ⟨h'.1 ∘ h.1, h'.2 ∘ h.2⟩
  stations s v hv := by
    refine ⟨channelsLawful_congr rfl, mapLawful_of_settings (fun st => hv st)⟩
  recipes _ _ := .of_untouched rfl rfl
  hangers _ _ := .of_untouched rfl rfl
  startOrder _ _ := .of_untouched rfl rfl
  moves _ _ _ := .of_untouched rfl rfl
  gantry _ _ _ := .of_untouched (by simp) (by simp)
  lines _ _ := .of_untouched rfl rfl
  post _ _ _ := .of_untouched (by simp) (by simp)
  alarm _ _ := .of_untouched rfl rfl
  channel _ _ _ _ hf := .of_stations rfl (channelsLawful_modChannel hf)
  opens _ _ _ _ hf := .of_stations rfl (channelsLawful_modChannel hf)
  handOver _ _ _ _ _ hf := .of_stations (by simp) (fun h => channelsLawful_offerValve (channelsLawful_modChannel hf h))
  bathTo _ _ _ _ _ _ := .of_untouched rfl rfl
  bathOn _ _ _ _ := .of_untouched rfl rfl
  bathOff _ _ := .of_untouched rfl rfl
  area _ _ _ := .of_untouched (by simp) (by simp)

theorem keepsBaths_closed : Closed KeepsBaths where
  refl _ := id
  trans h h' := h' ∘ h
  stations _ _ _ := bathsLawful_congr rfl
  recipes _ _ := bathsLawful_congr rfl
  hangers _ _ := bathsLawful_congr rfl
  startOrder _ _ := bathsLawful_congr rfl
  moves _ _ _ := bathsLawful_congr rfl
  gantry _ _ _ := bathsLawful_congr (by simp)
  lines _ _ := bathsLawful_congr rfl
  post _ _ _ := bathsLawful_congr (by simp)
  alarm _ _ := bathsLawful_congr rfl
  channel _ _ _ _ _ := bathsLawful_congr rfl
  opens _ _ _ _ _ := bathsLawful_congr rfl
  handOver _ _ _ _ _ _ := bathsLawful_congr (by simp)
  bathTo s st b b' hb hl := fun hs => bathsLawful_setBath (fun _ e => by cases e; exact hl (hs st b hb)) hs
  bathOn _ _ _ hl := bathsLawful_setBath (fun _ e => by cases e; exact hl)
  bathOff _ _ := bathsLawful_setBath (fun _ e => by cases e)
  area _ st a := bathsLawful_addArea st a

/-- SET-BATH reaches the channels through the rescues that a change of the rate signals (R73, R171), and the map not at all. -/
theorem keepsGasAndMap_writeSettings (s : State) (st : Nat) (b : Bath) (n : BathSettings) :
    KeepsGasAndMap s (s.writeSettings st b n) := by
  have hR := keepsGasAndMap_closed
  have stored : KeepsGasAndMap s (s.storeBath st b (b.resettle n)) := by
    have h1 : KeepsGasAndMap s (s.setBath st (some (b.resettle n))) := .of_untouched rfl rfl
    unfold State.storeBath
    split
    · exact h1
    · exact hR.rateChanged h1 st
  have placed : KeepsGasAndMap s ((s.storeBath st b (b.resettle n)).placeInService st) := by
    unfold State.placeInService
    split
    · split
      · exact hR.setReadiness stored _ _
      · exact stored
    · exact stored
  have rearmed : KeepsGasAndMap s (((s.storeBath st b (b.resettle n)).placeInService st).modBath st Bath.rearm) :=
    hR.trans placed (.of_untouched rfl rfl)
  exact hR.trans (hR.staleDue rearmed st) (.of_untouched (State.convertArea_channels _ _) (State.convertArea_stations _ _))

theorem keepsGasAndMap_wide : Wide KeepsGasAndMap where
  toClosed := keepsGasAndMap_closed
  draft _ _ := .of_untouched rfl rfl
  admissions _ _ := .of_untouched rfl rfl
  guardGap _ _ := .of_untouched rfl rfl
  holdAt _ _ := .of_untouched rfl rfl
  grace _ _ := .of_untouched rfl rfl
  alarmDelay _ _ := .of_untouched rfl rfl
  gasLimit _ _ _ := .of_untouched rfl rfl
  written _ _ _ a hw hc := ⟨channelsLawful_congr rfl, mapLawful_written hw hc a⟩
  erased _ _ := ⟨channelsLawful_congr rfl, mapLawful_modStation Station.absent_lawful (fun _ _ _ _ h => by cases h)⟩
  port _ _ _ _ := .of_untouched (by simp) (by simp)
  settings s st b n _ _ := keepsGasAndMap_writeSettings s st b n

theorem keepsBaths_wide : Wide KeepsBaths where
  toClosed := keepsBaths_closed
  draft _ _ := bathsLawful_congr rfl
  admissions _ _ := bathsLawful_congr rfl
  guardGap _ _ := bathsLawful_congr rfl
  holdAt _ _ := bathsLawful_congr rfl
  grace _ _ := bathsLawful_congr rfl
  alarmDelay _ _ := bathsLawful_congr rfl
  gasLimit _ _ _ := bathsLawful_congr rfl
  written _ _ _ _ _ _ := bathsLawful_congr rfl
  erased _ _ := bathsLawful_congr rfl
  port _ _ _ _ := bathsLawful_congr (by simp)
  settings _ _ _ _ hb hn := bathsLawful_writeSettings hb hn

/-! ### Every step -/

theorem bathsLawful_reset : BathsLawful State.reset := by
  intro st b hb
  simp only [State.bath?, State.reset, Vector.getElem?_replicate] at hb
  split at hb <;> cases hb

theorem channelsLawful_reset : ChannelsLawful State.reset := by
  intro n
  have e : State.reset.channel n = Channel.atPowerOn := by
    simp only [State.channel, State.reset, Vector.getElem?_replicate]
    split <;> rfl
  rw [e]
  simp [Channel.Lawful, Channel.atPowerOn]

theorem station_reset (st : Nat) : State.reset.station st = Station.absent := by
  simp only [State.station, State.reset, Vector.getElem?_replicate]
  split <;> rfl

theorem mapLawful_reset : MapLawful State.reset := by
  refine ⟨fun st => ?_, fun a b _ ha _ => ?_⟩
  · rw [station_reset]; exact Station.absent_lawful
  · rw [station_reset] at ha; cases ha

/-- A relation that every small update, every setting, a change of the mode, of the line time and of the queue, and a reset keep
holds across every command. -/
theorem step_keeps {R : State → State → Prop} (hR : Wide R) (hm : ∀ s m, R s { s with mode := m })
    (ht : ∀ s x, R s { s with lineTime := x }) (hq : ∀ s l, R s { s with pending := l }) (h0 : ∀ s, R s s.afterReset)
    {s t : State} (h : step s = .next t) : R s t := by
  have advanced : ∀ u v : State, R u v → R u v.advance := fun u v h => hR.trans (hR.tickCounts h) (ht _ _)
  unfold step at h
  split at h
  · cases h; exact hR.refl s
  · rename_i i rest hp
    clear hp
    refine hR.trans (hq s rest) ?_
    cases i
    case lineTimeAdvance events =>
      cases h
      have settled := advanced _ _ (hR.settle hm (hR.refl { s with pending := rest }))
      cases events with
      | taken => exact hR.settle hm settled
      | left => exact settled
    case powerOn => cases h; exact h0 _
    case resetn => cases h; exact h0 _
    all_goals exact hR.exec hm (fun _ e => by cases e) (fun e => by cases e) (fun e => by cases e) h

/-- Settles O57: each of the invariants is kept by every small update of an event and by every setting, and so by every step. -/
theorem everyStepKeepsBathsChannelsAndMapLawful : Obligations.EveryStepKeepsBathsChannelsAndMapLawful := by
  have hbaths : ∀ {s t : State}, step s = .next t → KeepsBaths s t :=
    step_keeps keepsBaths_wide (fun _ _ => bathsLawful_congr rfl) (fun _ _ => bathsLawful_congr rfl)
      (fun _ _ => bathsLawful_congr rfl) (fun _ _ => bathsLawful_congr rfl bathsLawful_reset)
  have hothers : ∀ {s t : State}, step s = .next t → KeepsGasAndMap s t :=
    step_keeps keepsGasAndMap_wide (fun _ _ => .of_untouched rfl rfl) (fun _ _ => .of_untouched rfl rfl)
      (fun _ _ => .of_untouched rfl rfl)
      (fun _ => ⟨fun _ => channelsLawful_congr rfl channelsLawful_reset, fun _ => mapLawful_congr rfl mapLawful_reset⟩)
  exact ⟨fun _ _ hs h => hbaths h hs, fun _ _ hs h => (hothers h).1 hs, fun _ _ hs h => (hothers h).2 hs⟩

end Sys2Proof.Machine
end

