-- ==== Sys2Proof/Proofs/Reset.lean ====
section
/-! PROOFS. What power-on and RESETN leave (O3). -/

namespace Sys2Proof.Machine

/-- A table filled with one record gives that record at every index, the indices past its end included. -/
theorem getD_replicate {α : Type} (n i : Nat) (x : α) : ((Vector.replicate n x)[i]?).getD x = x := by
  rw [Vector.getElem?_replicate]
  split <;> rfl

theorem recipe_reset (r : Nat) : State.reset.recipe r = Recipe.blank := getD_replicate 16 r _

theorem bath_reset (st : Nat) : State.reset.bath? st = none := by
  unfold State.bath? State.reset
  rw [Vector.getElem?_replicate]
  split <;> rfl

theorem channel_reset (n : Nat) : State.reset.channel n = Channel.atPowerOn := getD_replicate 8 n _

theorem line_reset (n : Nat) : State.reset.line n = RescueLine.atPowerOn := getD_replicate 4 n _

theorem gantry_reset (g : GantryId) : State.reset.gantry g = Gantry.atPowerOn (if g = .a then 0 else 4095) := by cases g <;> rfl

theorem port_reset (p : PortId) : State.reset.port p = Port.atPowerOn := by cases p <;> rfl

/-- No channel bursts after reset, so no GAS pin is asserted. -/
theorem gasPin_reset (n : Nat) : State.reset.gasPin n = false := by
  unfold State.gasPin State.reset
  rw [Vector.getElem?_replicate]
  split
  · rename_i c h; split at h <;> cases h; rfl
  · rfl

/-- No rescue line is asserted after reset, so no RESCUE pin is. -/
theorem rescuePin_reset (n : Nat) : State.reset.rescuePin n = false := by
  unfold State.rescuePin State.reset
  rw [Vector.getElem?_replicate]
  split
  · rename_i c h; split at h <;> cases h; rfl
  · rfl

/-- Settles O3: each record table is filled with its power-on record, and each register holds its power-on value. -/
theorem resetGivesTheStatedValues : Obligations.ResetGivesTheStatedValues := by
  refine ⟨⟨rfl, station_reset, bath_reset, recipe_reset, rfl, rfl, rfl, rfl, rfl, rfl, gantry_reset, rfl, channel_reset, rfl,
    gasPin_reset, rfl, rfl, rfl, line_reset, rescuePin_reset, fun p => ?_, rfl, rfl⟩, fun s => ⟨rfl, rfl⟩⟩
  rw [port_reset]
  exact ⟨rfl, rfl, rfl, rfl, rfl⟩

end Sys2Proof.Machine
end

