-- ==== Sys2Proof/Proofs/StationRequests.lean ====
section
/-! PROOFS. What the requests of the station map answer: SET-STATION (O12), CLEAR-STATION, BLOCK and UNBLOCK (O13). -/

namespace Sys2Proof.Machine

/-! ### The tests -/

theorem State.mapWritable_iff (s : State) : s.mapWritable = true ↔ s.mode = .idle ∧ s.hangers = [] := by
  unfold State.mapWritable
  simp

theorem State.mapWritable_false {s : State} (h : s.mode ≠ .idle ∨ s.hangers ≠ []) : s.mapWritable = false := by
  rw [Bool.eq_false_iff, ne_eq, State.mapWritable_iff]
  tauto

theorem State.lineFree_iff (s : State) (st rl : Nat) :
    s.lineFree st rl = true ↔ ∀ l, (s.station st).rescueLine = some l → (s.line l).asserted = true → rl = l := by
  unfold State.lineFree
  cases (s.station st).rescueLine with
  | none => simp
  | some l =>
    rw [Bool.or_eq_true, Bool.not_eq_true', beq_iff_eq]
    constructor
    · rintro (h | h) l' e ha <;> cases e
      · rw [h] at ha; cases ha
      · exact h.symm
    · intro h
      cases ha : (s.line l).asserted with
      | false => exact Or.inl rfl
      | true => exact Or.inr (h l rfl ha).symm

theorem Station.hasSlot_iff (x : Station) (i : Nat) : x.hasSlot i = true ↔ x.configured = true ∧ i < x.slotCount := by
  unfold Station.hasSlot
  simp

theorem slotInRange_iff (st sl : Nat) : slotInRange st sl = true ↔ st ≤ 23 ∧ sl ≤ 3 := by
  unfold slotInRange
  simp

/-! ### CLEAR-STATION (R11) -/

theorem answers_clearStation {s t : State} {st : Nat} {r : Reply} (hp : PortFree s .p0)
    (h : clearStation st (s.opened .p0 3) = (t, r)) : Answers (.clearStation st) s .p0 t r :=
  Answers.of_rule (c := 0x02) (l := bytes1 st) rfl hp h

/-- Making an inactive record inactive changes nothing. -/
theorem State.setBath_none_of_inactive {s : State} {st : Nat} (h : s.bath? st = none) : s.setBath st none = s := by
  have e : s.baths.setIfInBounds st none = s.baths := by
    apply Vector.ext
    intro i hi
    rw [Vector.getElem_setIfInBounds]
    split
    · rename_i hst
      subst hst
      simpa [State.bath?, hi] using h.symm
    · rfl
  unfold State.setBath
  rw [e]

/-- R11: a station with no gas channel is erased, and its bath record made inactive; a trip held no channel of it. -/
theorem State.eraseStation_of_noChannel {s : State} {st : Nat} (h : (s.station st).gasChannel = none) :
    s.eraseStation st = { s with baths := s.baths.setIfInBounds st none
                                 stations := s.stations.setIfInBounds st Station.absent } := by
  have off : s.deactivateBath st = s.setBath st none := by
    unfold State.deactivateBath
    split
    · have h' : ((s.setBath st none).station st).gasChannel = none := h
      unfold State.releaseStation
      rw [h']
    · rename_i hb
      exact (State.setBath_none_of_inactive hb).symm
  unfold State.eraseStation
  rw [off]
  rfl

theorem clearStation_answers (st : Nat) (s : State) (hp : PortFree s .p0) :
    (23 < st → Answers (.clearStation st) s .p0 (s.opened .p0 3) (Reply.bare .badArg))
    ∧ (st ≤ 23 → (s.mode ≠ .idle ∨ s.hangers ≠ []) → Answers (.clearStation st) s .p0 (s.opened .p0 3) (Reply.bare .notNow))
    ∧ (st ≤ 23 → s.mode = .idle → s.hangers = [] → s.barRaised st = true →
      Answers (.clearStation st) s .p0 (s.opened .p0 3) (Reply.bare .notNow))
    ∧ (st ≤ 23 → s.mode = .idle → s.hangers = [] → s.barRaised st = false → (s.station st).gasChannel ≠ none →
      Answers (.clearStation st) s .p0 (s.opened .p0 3) (Reply.bare .inUse))
    ∧ (st ≤ 23 → s.mode = .idle → s.hangers = [] → s.barRaised st = false → (s.station st).gasChannel = none →
      Answers (.clearStation st) s .p0
        { s.opened .p0 3 with baths := s.baths.setIfInBounds st none
                              stations := s.stations.setIfInBounds st Station.absent } (Reply.bare .ok)) := by
  have writable : s.mode = .idle → s.hangers = [] → s.mapWritable = true := fun h1 h2 => (State.mapWritable_iff s).2 ⟨h1, h2⟩
  refine ⟨fun h => ?_, fun h h1 => ?_, fun h h1 h2 h3 => ?_, fun h h1 h2 h3 h4 => ?_, fun h h1 h2 h3 h4 => ?_⟩ <;>
    refine answers_clearStation hp ?_ <;> unfold clearStation
  · simp [h]
  · simp [Nat.not_lt.2 h, State.mapWritable_false h1]
  · simp [Nat.not_lt.2 h, writable h1 h2, h3]
  · simp [Nat.not_lt.2 h, writable h1 h2, h3, Option.isSome_iff_ne_none.2 h4]
  · have e := State.eraseStation_of_noChannel (s := s.opened .p0 3) (by simpa using h4)
    simp only [Nat.not_lt.2 h, State.opened_mapWritable, writable h1 h2, State.opened_barRaised, h3, State.opened_station, h4, e]
    rfl

/-! ### BLOCK and UNBLOCK (R12, R13) -/

theorem answers_block {s t : State} {st sl : Nat} {r : Reply} (hp : PortFree s .p0)
    (h : block st sl (s.opened .p0 4) = (t, r)) : Answers (.block st sl) s .p0 t r :=
  Answers.of_rule (c := 0x03) (l := bytes1 st ++ bytes1 sl) rfl hp h

theorem answers_unblock {s t : State} {st sl : Nat} {r : Reply} (hp : PortFree s .p0)
    (h : unblock st sl (s.opened .p0 4) = (t, r)) : Answers (.unblock st sl) s .p0 t r :=
  Answers.of_rule (c := 0x04) (l := bytes1 st ++ bytes1 sl) rfl hp h

theorem block_outOfRange {s : State} {st sl : Nat} (h : 23 < st ∨ 3 < sl) :
    block st sl s = (s, Reply.bare .badArg) ∧ unblock st sl s = (s, Reply.bare .badArg) := by
  have hr : slotInRange st sl = false := by rw [Bool.eq_false_iff, ne_eq, slotInRange_iff]; omega
  simp [block, unblock, hr]

theorem block_noSlot {s : State} {st sl : Nat} (h1 : st ≤ 23) (h2 : sl ≤ 3)
    (h : (s.station st).configured = false ∨ (s.station st).slotCount ≤ sl) :
    block st sl s = (s, Reply.bare .noSuch) ∧ unblock st sl s = (s, Reply.bare .noSuch) := by
  have hr : slotInRange st sl = true := (slotInRange_iff st sl).2 ⟨h1, h2⟩
  have hs : (s.station st).hasSlot sl = false := by
    rw [Bool.eq_false_iff, ne_eq, Station.hasSlot_iff]
    rintro ⟨h3, h4⟩
    rw [h3] at h
    rcases h with h | h
    · cases h
    · omega
  simp [block, unblock, hr, hs]

/-- BLOCK and UNBLOCK of a slot that exists, by what the slot holds. -/
theorem block_slot {s : State} {st sl : Nat} (h1 : st ≤ 23) (h2 : sl ≤ 3) (h3 : (s.station st).configured = true)
    (h4 : sl < (s.station st).slotCount) :
    block st sl s = (match (s.station st).slot sl with
      | .free => (s.setSlot { station := st, slot := sl } .blocked, Reply.bare .ok)
      | .blocked => (s, Reply.bare .ok)
      | _ => (s, Reply.bare .inUse))
    ∧ unblock st sl s = (match (s.station st).slot sl with
      | .blocked => (s.setSlot { station := st, slot := sl } .free, Reply.bare .ok)
      | .free => (s, Reply.bare .ok)
      | _ => (s, Reply.bare .notNow)) := by
  have hr : slotInRange st sl = true := (slotInRange_iff st sl).2 ⟨h1, h2⟩
  have hs : (s.station st).hasSlot sl = true := (Station.hasSlot_iff _ _).2 ⟨h3, h4⟩
  unfold block unblock
  simp only [hr, hs]
  cases (s.station st).slot sl <;> exact ⟨rfl, rfl⟩

theorem block_answers (st sl : Nat) (s : State) (hp : PortFree s .p0) :
    ((23 < st ∨ 3 < sl) → Answers (.block st sl) s .p0 (s.opened .p0 4) (Reply.bare .badArg)
      ∧ Answers (.unblock st sl) s .p0 (s.opened .p0 4) (Reply.bare .badArg))
    ∧ (st ≤ 23 → sl ≤ 3 → ((s.station st).configured = false ∨ (s.station st).slotCount ≤ sl) →
      Answers (.block st sl) s .p0 (s.opened .p0 4) (Reply.bare .noSuch)
      ∧ Answers (.unblock st sl) s .p0 (s.opened .p0 4) (Reply.bare .noSuch)) := by
  refine ⟨fun h => ?_, fun h1 h2 h => ?_⟩
  · obtain ⟨hb, hu⟩ := block_outOfRange (s := s.opened .p0 4) h
    exact ⟨answers_block hp hb, answers_unblock hp hu⟩
  · obtain ⟨hb, hu⟩ := block_noSlot (s := s.opened .p0 4) h1 h2 (by simpa using h)
    exact ⟨answers_block hp hb, answers_unblock hp hu⟩

/-- Settles O13: the tests of the three requests in their order, and the one record each changes. -/
theorem stationsAreClearedAndSlotsBlocked : Obligations.StationsAreClearedAndSlotsBlocked := by
  refine ⟨clearStation_answers, fun st sl s hp => ⟨(block_answers st sl s hp).1, (block_answers st sl s hp).2, ?_⟩⟩
  intro h1 h2 h3 h4
  obtain ⟨hb, hu⟩ := block_slot (s := s.opened .p0 4) h1 h2 (by simpa using h3) (by simpa using h4)
  rw [State.opened_station] at hb hu
  refine ⟨fun hfree => ?_, fun hblocked => ?_, fun tag k hheld => ?_⟩
  · rw [hfree] at hb hu
    exact ⟨answers_block hp hb, answers_unblock hp hu⟩
  · rw [hblocked] at hb hu
    exact ⟨answers_block hp hb, answers_unblock hp hu⟩
  · rcases hheld with hheld | hheld <;> rw [hheld] at hb hu <;> exact ⟨answers_block hp hb, answers_unblock hp hu⟩

/-! ### SET-STATION (R7 to R10) -/

theorem answers_setStation {s t : State} {st cls grp x n a sv rl : Nat} {r : Reply} (hp : PortFree s .p0)
    (h : setStation st cls grp x n a sv rl (s.opened .p0 12) = (t, r)) :
    Answers (.setStation st cls grp x n a sv rl) s .p0 t r :=
  Answers.of_rule (c := 0x01)
    (l := bytes1 st ++ bytes1 cls ++ bytes1 grp ++ bytes2 x ++ bytes1 n ++ bytes2 a ++ bytes1 sv ++ bytes1 rl) rfl hp h

/-- R8: a written field outside its range makes no write. -/
theorem stationWrite_none {cls grp x n sv rl : Nat}
    (h : 4 < cls ∨ 15 < grp ∨ 4095 < x ∨ n = 0 ∨ 4 < n ∨ 1 < sv ∨ (3 < rl ∧ rl ≠ 255)) : stationWrite cls grp x n sv rl = none := by
  have hcls : ∀ c, stationClassOf cls = some c → cls ≤ 4 := by
    intro c hc; unfold stationClassOf at hc; split at hc <;> first | omega | cases hc
  have hsv : ∀ b, yesNoOf sv = some b → sv ≤ 1 := by
    intro b hb; unfold yesNoOf at hb; split at hb <;> first | omega | cases hb
  have hrl : ∀ l, indexOrNone 4 rl = some l → rl = 255 ∨ rl < 4 := by
    intro l hl
    unfold indexOrNone at hl
    split at hl
    · left; assumption
    · split at hl
      · right; assumption
      · cases hl
  unfold stationWrite
  split
  · rename_i c b l hc hb hl
    have := hcls c hc
    have := hsv b hb
    have := hrl l hl
    rw [if_neg (by omega)]
  · rfl

/-- R8: the fields of a request whose every field is in its range. -/
theorem stationWrite_some {c : StationClass} {grp x n : Nat} {sv : Bool} {rl : Option Nat} (h1 : grp ≤ 15) (h2 : x ≤ 4095)
    (h3 : 1 ≤ n) (h4 : n ≤ 4) (h5 : ∀ l, rl = some l → l ≤ 3) :
    stationWrite c.code grp x n (if sv then 1 else 0) (rl.getD 255) =
      some { cls := c, group := grp, coordinate := x, slotCount := n, supervised := sv, rescueLine := rl } := by
  have hcls : stationClassOf c.code = some c := by cases c <;> rfl
  have hsv : yesNoOf (if sv then 1 else 0) = some sv := by cases sv <;> rfl
  have hrl : indexOrNone 4 (rl.getD 255) = some rl := by
    cases rl with
    | none => rfl
    | some l =>
      have := h5 l rfl
      unfold indexOrNone
      rw [Option.getD_some, if_neg (by omega), if_pos (by omega)]
  unfold stationWrite
  rw [hcls, hsv, hrl]
  exact if_pos ⟨h1, h2, h3, h4⟩

/-- The refusals of SET-STATION before its structural checks, in their order. -/
theorem setStation_refuses (st : Nat) (s : State) (hp : PortFree s .p0) (cls grp x n a sv rl : Nat) :
    (23 < st → Answers (.setStation st cls grp x n a sv rl) s .p0 (s.opened .p0 12) (Reply.bare .badArg))
    ∧ (st ≤ 23 → (s.mode ≠ .idle ∨ s.hangers ≠ []) →
      Answers (.setStation st cls grp x n a sv rl) s .p0 (s.opened .p0 12) (Reply.bare .notNow))
    ∧ (st ≤ 23 → s.mode = .idle → s.hangers = [] →
      (∃ l, (s.station st).rescueLine = some l ∧ (s.line l).asserted = true ∧ rl ≠ l) →
      Answers (.setStation st cls grp x n a sv rl) s .p0 (s.opened .p0 12) (Reply.bare .notNow))
    ∧ (st ≤ 23 → s.mode = .idle → s.hangers = [] →
      (∀ l, (s.station st).rescueLine = some l → (s.line l).asserted = true → rl = l) →
      (4 < cls ∨ 15 < grp ∨ 4095 < x ∨ n = 0 ∨ 4 < n ∨ 1 < sv ∨ (3 < rl ∧ rl ≠ 255)) →
      Answers (.setStation st cls grp x n a sv rl) s .p0 (s.opened .p0 12) (Reply.bare .badArg)) := by
  have writable : s.mode = .idle → s.hangers = [] → s.mapWritable = true := fun h1 h2 => (State.mapWritable_iff s).2 ⟨h1, h2⟩
  refine ⟨fun h => ?_, fun h h1 => ?_, fun h h1 h2 h3 => ?_, fun h h1 h2 h3 h4 => ?_⟩ <;>
    refine answers_setStation hp ?_ <;> unfold setStation
  · simp [h]
  · simp [Nat.not_lt.2 h, State.mapWritable_false h1]
  · have hl : s.lineFree st rl = false := by
      rw [Bool.eq_false_iff, ne_eq, State.lineFree_iff]
      obtain ⟨l, h4, h5, h6⟩ := h3
      exact fun hf => h6 (hf l h4 h5)
    simp [Nat.not_lt.2 h, writable h1 h2, hl]
  · simp [Nat.not_lt.2 h, writable h1 h2, (State.lineFree_iff s st rl).2 h3, stationWrite_none h4]

/-- What SET-STATION does once its first three tests pass and its fields are in their ranges. -/
theorem setStation_checked {s : State} {st n a rl : Nat} {cls grp x sv : Nat} {w : StationWrite} (h1 : st ≤ 23)
    (h2 : s.mapWritable = true) (h3 : s.lineFree st rl = true) (hw : stationWrite cls grp x n sv rl = some w) :
    (¬ MapAgrees s st w.cls w.group w.coordinate w.supervised w.rescueLine →
      setStation st cls grp x n a sv rl s = (s, Reply.bare .badArg))
    ∧ (MapAgrees s st w.cls w.group w.coordinate w.supervised w.rescueLine →
      setStation st cls grp x n a sv rl s = (s.writeStation st w a,
        Reply.bare (if w.cls = .load ∨ w.cls = .unload ∨ a ≤ 600 then .ok else .clamped))) := by
  rw [← State.writeConsistent_iff]
  unfold setStation
  refine ⟨fun hc => ?_, fun hc => ?_⟩
  · rw [Bool.not_eq_true] at hc
    simp [Nat.not_lt.2 h1, h2, h3, hw, hc]
  · simp [Nat.not_lt.2 h1, h2, h3, hw, hc]

/-- R100: a record made inactive, with the trip's hold of the station's gas channel ended, changes the baths and the channels
alone. -/
theorem State.deactivateBath_of_active {s : State} {st : Nat} (h : (s.bath? st).isSome = true) :
    s.deactivateBath st = { s with baths := s.baths.setIfInBounds st none, channels := (s.deactivateBath st).channels }
    ∧ StationReleased s (s.deactivateBath st) st .trip := by
  have e : s.deactivateBath st = (s.setBath st none).releaseStation st .trip := by
    unfold State.deactivateBath
    obtain ⟨b, hb⟩ := Option.isSome_iff_exists.1 h
    rw [hb]
  rw [e]
  refine ⟨?_, State.releaseStation_ends (s.setBath st none) st .trip⟩
  unfold State.releaseStation
  split <;> rfl

/-- The end of a station's hold reads the channels, the line time and the station's gas channel alone. -/
theorem StationReleased.congr {s s' t : State} {st : Nat} {k : HoldCause} (h : StationReleased s t st k)
    (hc : s.channels = s'.channels) (ht : s.lineTime = s'.lineTime)
    (hg : (s.station st).gasChannel = (s'.station st).gasChannel) : StationReleased s' t st k := by
  unfold StationReleased HoldEnded State.channel at *
  rw [hc, ht, hg] at h
  exact h

/-- The record a write leaves beside the station's own: active, inactive, or as it was (R10). -/
theorem State.writeStation_bath (s : State) (st : Nat) (w : StationWrite) (a : Nat) :
    ((s.bath? st).isSome = w.supervised → s.writeStation st w a = s.modStation st (fun x => x.written w a))
    ∧ (s.bath? st = none → w.supervised = true →
      s.writeStation st w a = (s.modStation st (fun x => x.written w a)).activateBath st)
    ∧ ((s.bath? st).isSome = true → w.supervised = false →
      s.writeStation st w a = (s.modStation st (fun x => x.written w a)).deactivateBath st) := by
  unfold State.writeStation
  refine ⟨fun h => ?_, fun h h' => ?_, fun h h' => ?_⟩
  · rw [h]; cases w.supervised <;> rfl
  · rw [h, h']; rfl
  · rw [h, h']

/-- Settles O12: the tests of SET-STATION in their order, and the records a write that passes them leaves. -/
theorem setStationTestsThenWrites : Obligations.SetStationTestsThenWrites := by
  intro st s hp
  refine ⟨setStation_refuses st s hp, fun c grp x n a sv rl h1 hmode hhangers hline h2 h3 h4 h5 h6 => ?_⟩
  have hw := stationWrite_some (c := c) (sv := sv) h2 h3 h4 h5 h6
  generalize hwd : StationWrite.mk c grp x n sv rl = w at hw
  have hfree : s.lineFree st (rl.getD 255) = true := by
    rw [State.lineFree_iff]
    intro l hl hl'
    rw [hline l hl hl', Option.getD_some]
  obtain ⟨refused, written⟩ := setStation_checked (s := s.opened .p0 12) (a := a) h1
    (by rw [State.opened_mapWritable]; exact (State.mapWritable_iff s).2 ⟨hmode, hhangers⟩)
    (by rw [State.opened_lineFree]; exact hfree) hw
  subst hwd
  refine ⟨fun hc => answers_setStation hp (refused hc), fun hc => ?_⟩
  refine ⟨_, (s.opened .p0 12).writeStation st ⟨c, grp, x, n, sv, rl⟩ a, rfl, ?_, ?_, ?_, answers_setStation hp (written hc)⟩
  all_goals obtain ⟨same, on, off⟩ := (s.opened .p0 12).writeStation_bath st ⟨c, grp, x, n, sv, rl⟩ a
  · exact same
  · exact on
  · intro hb hsv
    obtain ⟨rest, released⟩ := State.deactivateBath_of_active (st := st)
      (s := (s.opened .p0 12).modStation st (fun y => y.written ⟨c, grp, x, n, sv, rl⟩ a)) hb
    rw [← off hb hsv] at rest released
    refine ⟨rest, released.congr rfl rfl ?_⟩
    rw [State.station_modStation (by omega), if_pos rfl]
    rfl

end Sys2Proof.Machine
end

