-- ==== Sys2Proof/Proofs/Reads.lean ====
section
/-! PROOFS. The read requests (O5): each answers with the payload of its rule, of the length R192 gives, and changes nothing but its
port. -/

namespace Sys2Proof.Machine

/-! ### Lengths of fields (R192) -/

@[simp] theorem length_bytes1 (n : Nat) : (bytes1 n).length = 1 := by simp [bytes1]
@[simp] theorem length_bytes2 (n : Nat) : (bytes2 n).length = 2 := by simp [bytes2]
@[simp] theorem length_bytes3 (n : Nat) : (bytes3 n).length = 3 := by simp [bytes3]
@[simp] theorem length_bytes4 (n : Nat) : (bytes4 n).length = 4 := by simp [bytes4]
@[simp] theorem length_bytesSigned2 (z : Int) : (bytesSigned2 z).length = 2 := by simp [bytesSigned2]
@[simp] theorem length_flagByte (b : Bool) : (flagByte b).length = 1 := by simp [flagByte]
@[simp] theorem length_indexByte (o : Option Nat) : (indexByte o).length = 1 := by simp [indexByte]
@[simp] theorem length_tagByte (o : Option Nat) : (tagByte o).length = 1 := by simp [tagByte]
@[simp] theorem length_timeBytes (t : LineTime) : (timeBytes t).length = 4 := by simp [timeBytes]
@[simp] theorem length_causeByte (c : Channel) : c.causeByte.length = 1 := by simp [Channel.causeByte]
@[simp] theorem length_notesByte (n : Notes) : n.byte.length = 1 := by simp [Notes.byte]
@[simp] theorem length_settings (b : BathSettings) : b.bytes.length = 25 := by simp [BathSettings.bytes]
@[simp] theorem length_recipeStep (k : RecipeStep) : k.bytes.length = 12 := by simp [RecipeStep.bytes]
@[simp] theorem length_present1 (o : Option Nat) : (present1 o).length = 2 := by cases o <;> rfl
@[simp] theorem length_present2 (o : Option Nat) : (present2 o).length = 3 := by cases o <;> rfl
@[simp] theorem length_present3 (o : Option Nat) : (present3 o).length = 4 := by cases o <;> rfl
@[simp] theorem length_presentSigned2 (o : Option Int) : (presentSigned2 o).length = 3 := by cases o <;> rfl
@[simp] theorem length_presentTime (o : Option LineTime) : (presentTime o).length = 5 := by cases o <;> rfl
@[simp] theorem length_slotBytes (o : Option SlotRef) : (slotBytes o).length = 2 := by cases o <;> rfl
@[simp] theorem length_location (l : Location) : l.bytes.length = 3 := by cases l <;> simp [Location.bytes]
@[simp] theorem length_slot (x : Slot) : x.bytes.length = 3 := by cases x <;> rfl

@[simp] theorem length_placeByte (order : List Nat) (tag : Nat) : (placeByte order tag).length = 1 := by
  unfold placeByte; split <;> rfl

@[simp] theorem length_runEntry (e : RunEntry) : e.bytes.length = 21 := by simp [RunEntry.bytes]

@[simp] theorem length_edgeBytes (t : LineTime) (b : Bool) (c : Option LineTime) (p : LineTime) :
    (edgeBytes t b c p).length = 5 := by
  unfold edgeBytes
  split
  · split <;> rfl
  · rfl

@[simp] theorem length_placeBytes (s : State) (p : Place) : (s.placeBytes p).length = 4 := by
  cases p <;> simp [State.placeBytes]

@[simp] theorem length_destBytes (s : State) (p : Option Place) : (s.destBytes p).length = 4 := by
  cases p <;> simp [State.destBytes]

@[simp] theorem length_moveBytes (s : State) (m : Move) : (s.moveBytes m).length = 45 := by simp [State.moveBytes]

@[simp] theorem length_lineBytes (s : State) (l : Nat) : (s.lineBytes l).length = 9 := by simp [State.lineBytes]

/-- Records of one length, one after the other. -/
theorem length_flatMap_of_const {α : Type} {f : α → List Byte} {k : Nat} (h : ∀ x, (f x).length = k) (l : List α) :
    (l.flatMap f).length = k * l.length := by
  rw [List.length_flatMap, funext h, List.map_const', List.sum_replicate_nat, Nat.mul_comm]

/-! ### Lengths of payloads (R192) -/

theorem length_stationPayload (s : State) (st : Nat) : (stationPayload s st).length =
    12 + 3 * (if (s.station st).configured then (s.station st).slotCount else 0) := by
  have hslots : (s.station st).slotEntries.length = 3 * (if (s.station st).configured then (s.station st).slotCount else 0) := by
    unfold Station.slotEntries
    split
    · rw [length_flatMap_of_const (fun i => length_slot _), List.length_range]
    · rfl
  simp only [stationPayload, List.length_append, hslots, length_flagByte, length_bytes1, length_bytes2, length_indexByte]

theorem length_recipePayload (e : Recipe) (l : List RecipeStep) (f : Nat) :
    (recipePayload e l f).length = 7 + 12 * min 4 (l.length - f) := by
  simp only [recipePayload, List.length_append, length_flatMap_of_const length_recipeStep, List.length_take, List.length_drop,
    length_bytes1, length_indexByte, length_flagByte]

theorem length_runPayload (h : Hanger) (f : Nat) : (runPayload h f).length = 3 + 21 * min 2 (h.run.length - f) := by
  simp only [runPayload, List.length_append, length_flatMap_of_const length_runEntry, List.length_take, List.length_drop,
    length_bytes1]

theorem length_hangerPayload (s : State) (h : Hanger) : (hangerPayload s h).length = 34 := by
  unfold hangerPayload
  simp only [List.length_append]
  simp only [length_bytes1, length_bytes2, length_bytes3, length_bytes4, length_flagByte, length_indexByte, length_location,
    length_slotBytes, length_present1, length_placeByte]

theorem length_timingPayload (s : State) (i : Immersion) : (timingPayload s i).length = 56 := by
  unfold timingPayload
  simp only [List.length_append]
  simp only [length_edgeBytes, length_presentTime, length_timeBytes, length_indexByte, length_flagByte, length_bytes2,
    length_bytes3, length_bytes4]

theorem length_bathPayload (s : State) (st : Nat) (b : Bath) : (bathPayload s st b).length = 57 := by simp [bathPayload]

theorem length_movesPayload (s : State) (f : Nat) :
    (movesPayload s f).length = 3 + (if f < s.walkOrder.length then 45 else 0) := by
  unfold movesPayload
  by_cases h : f < s.walkOrder.length
  · rw [List.getElem?_eq_getElem h, if_pos h]
    simp
  · rw [List.getElem?_eq_none (by omega), if_neg h]
    rfl

theorem length_gantryPayload (s : State) (g : GantryId) : (gantryPayload s g).length = 38 := by
  unfold gantryPayload
  simp only [List.length_append]
  simp only [length_bytes1, length_bytes2, length_flagByte, length_present1, length_indexByte,
    length_presentTime, length_tagByte, length_slotBytes]

theorem length_channelPayload (s : State) (c : Channel) : (channelPayload s c).length = 39 := by
  unfold channelPayload
  simp only [List.length_append]
  simp only [length_bytes1, length_bytes2, length_flagByte, length_indexByte, length_timeBytes,
    length_presentTime, length_causeByte]

theorem length_linePayload (s : State) : (linePayload s).length = 48 := by
  simp [linePayload, length_flatMap_of_const (length_lineBytes s), Config.rescueLines]

/-! ### The rule of each read -/

theorem withHanger_live {s : State} {tag : Nat} {h : Hanger} (h1 : 1 ≤ tag) (h2 : tag ≤ 255) (hh : s.hanger? tag = some h)
    (body : Hanger → State × Reply) : s.withHanger tag body = body h := by
  unfold State.withHanger
  rw [if_neg (by omega), hh]

theorem withBath_active {s : State} {st : Nat} {b : Bath} (h1 : st ≤ 23) (hb : s.bath? st = some b) (body : Bath → State × Reply) :
    s.withBath st body = body b := by
  unfold State.withBath
  rw [if_neg (by omega), hb]

theorem withGantry_code (s : State) (g : GantryId) (body : GantryId → State × Reply) :
    s.withGantry (gantryCode g) body = body g := by cases g <;> rfl

section
variable {s : State} (hp : PortFree s .p0)
include hp

theorem readStation_answers (st : Nat) :
    (st ≤ 23 → Answers (.readStation st) s .p0 (s.opened .p0 3) ⟨.ok, stationPayload s st⟩)
    ∧ (23 < st → Answers (.readStation st) s .p0 (s.opened .p0 3) (Reply.bare .badArg)) := by
  refine ⟨fun h => ?_, fun h => ?_⟩ <;> refine Answers.of_rule (c := 0x05) (l := bytes1 st) rfl hp ?_
  · exact if_neg (by omega)
  · exact if_pos h

theorem readRecipe_answers (r v f : Nat) :
    (r ≤ 15 → v ≤ 1 → f ≤ 11 → ∃ l, l = (if v = 0 then (s.recipe r).active else (s.recipe r).staged.getD [])
      ∧ Answers (.readRecipe r v f) s .p0 (s.opened .p0 5) ⟨.ok, recipePayload (s.recipe r) l f⟩
      ∧ (recipePayload (s.recipe r) l f).length = 7 + 12 * min 4 (l.length - f))
    ∧ ((15 < r ∨ 1 < v ∨ 11 < f) → Answers (.readRecipe r v f) s .p0 (s.opened .p0 5) (Reply.bare .badArg)) := by
  have rule : ∀ t q, readRecipe r v f (s.opened .p0 5) = (t, q) → Answers (.readRecipe r v f) s .p0 t q := fun t q h =>
    Answers.of_rule (c := 0x14) (l := bytes1 r ++ bytes1 v ++ bytes1 f) rfl hp h
  exact ⟨fun h1 h2 h3 => ⟨_, rfl, rule _ _ (if_neg (by omega)), length_recipePayload _ _ _⟩, fun h => rule _ _ (if_pos h)⟩

theorem readHanger_answers {tag : Nat} {h : Hanger} (h1 : 1 ≤ tag) (h2 : tag ≤ 255) (hh : s.hanger? tag = some h) :
    Answers (.readHanger tag) s .p0 (s.opened .p0 3) ⟨.ok, hangerPayload s h⟩
    ∧ Answers (.readTiming tag) s .p0 (s.opened .p0 3) ⟨.ok, timingPayload s h.imm⟩
    ∧ ∀ f, f ≤ 12 → Answers (.readRun tag f) s .p0 (s.opened .p0 4) ⟨.ok, runPayload h f⟩ := by
  have live : ∀ n body, (s.opened .p0 n).withHanger tag body = body h := fun n body =>
    withHanger_live h1 h2 ((State.opened_hanger s .p0 n tag).trans hh) body
  refine ⟨Answers.of_rule (c := 0x26) (l := bytes1 tag) rfl hp (live 3 _),
    Answers.of_rule (c := 0x28) (l := bytes1 tag) rfl hp (live 3 _), fun f hf => ?_⟩
  refine Answers.of_rule (c := 0x27) (l := bytes1 tag ++ bytes1 f) rfl hp ?_
  exact (if_neg (by omega)).trans (live 4 _)

theorem readRun_outOfRange (tag f : Nat) (hf : 12 < f) :
    Answers (.readRun tag f) s .p0 (s.opened .p0 4) (Reply.bare .badArg) :=
  Answers.of_rule (c := 0x27) (l := bytes1 tag ++ bytes1 f) rfl hp (if_pos hf)

theorem readBath_answers {st : Nat} {b : Bath} (h1 : st ≤ 23) (hb : s.bath? st = some b) :
    Answers (.readBath st) s .p0 (s.opened .p0 3) ⟨.ok, bathPayload s st b⟩ :=
  Answers.of_rule (c := 0x35) (l := bytes1 st) rfl hp (withBath_active h1 ((State.opened_bath s .p0 3 st).trans hb) _)

theorem readMoves_answers (f : Nat) :
    (f ≤ 33 → Answers (.readMoves f) s .p0 (s.opened .p0 3) ⟨.ok, movesPayload s f⟩)
    ∧ (33 < f → Answers (.readMoves f) s .p0 (s.opened .p0 3) (Reply.bare .badArg)) := by
  refine ⟨fun h => ?_, fun h => ?_⟩ <;> refine Answers.of_rule (c := 0x38) (l := bytes1 f) rfl hp ?_
  · exact if_neg (by omega)
  · exact if_pos h

theorem readGantry_answers (g : GantryId) :
    Answers (.readGantry (gantryCode g)) s .p0 (s.opened .p0 3) ⟨.ok, gantryPayload s g⟩ := by
  have same : gantryPayload (s.opened .p0 3) g = gantryPayload s g := by cases g <;> rfl
  refine Answers.of_rule (c := 0x45) (l := bytes1 (gantryCode g)) rfl hp ?_
  exact (withGantry_code (s.opened .p0 3) g _).trans (congrArg (fun l => (s.opened .p0 3, Reply.mk .ok l)) same)

theorem readChannel_answers (c : Nat) :
    (c ≤ 7 → Answers (.readChannel c) s .p0 (s.opened .p0 3) ⟨.ok, channelPayload s (s.channel c)⟩)
    ∧ (7 < c → Answers (.readChannel c) s .p0 (s.opened .p0 3) (Reply.bare .badArg)) := by
  refine ⟨fun h => ?_, fun h => ?_⟩ <;> refine Answers.of_rule (c := 0x4B) (l := bytes1 c) rfl hp ?_
  · exact if_neg (by omega)
  · exact if_pos h

theorem readLine_answers : Answers .readLine s .p0 (s.opened .p0 2) ⟨.ok, linePayload s⟩ :=
  Answers.of_rule (c := 0x58) (l := []) rfl hp rfl

end

/-- Settles O5: a payload reads the records alone, which the session leaves as they are, and each is of its length. -/
theorem readRequestsChangeNoState : Obligations.ReadRequestsChangeNoState := by
  intro s hp
  refine ⟨fun st => ?_, readRecipe_answers hp, fun tag h h1 h2 hh => ?_, readRun_outOfRange hp,
    fun st b h1 hb => ⟨readBath_answers hp h1 hb, length_bathPayload s st b⟩, fun f => ?_,
    fun g => ⟨readGantry_answers hp g, length_gantryPayload s g⟩, fun c => ?_, readLine_answers hp, length_linePayload s⟩
  · exact ⟨fun h => ⟨(readStation_answers hp st).1 h, length_stationPayload s st⟩, (readStation_answers hp st).2⟩
  · obtain ⟨record, timing, run⟩ := readHanger_answers hp h1 h2 hh
    exact ⟨⟨record, length_hangerPayload s h⟩, ⟨timing, length_timingPayload s h.imm⟩,
      fun f hf => ⟨run f hf, length_runPayload h f⟩⟩
  · exact ⟨fun h => ⟨(readMoves_answers hp f).1 h, length_movesPayload s f⟩, (readMoves_answers hp f).2⟩
  · exact ⟨fun h => ⟨(readChannel_answers hp c).1 h, length_channelPayload s _⟩, (readChannel_answers hp c).2⟩

end Sys2Proof.Machine
end

