-- ==== Sys2Proof/Proofs/ClearLine.lean ====
section
/-! PROOFS. CLEAR-LINE (O49): the slots of the stations in turn, with what their channels are told, then the recipes in turn, with
their notices. -/

namespace Sys2Proof.Machine

/-! ### One station (R16, R155) -/

/-- A slot place after CLEAR-LINE: a BLOCKED one stays BLOCKED, and any other is FREE. -/
theorem Station.slot_cleared (x : Station) (i : Nat) :
    x.cleared.slot i = if x.slot i = .blocked then .blocked else .free := by
  by_cases h : i < 4
  · simp only [Station.slot, Station.cleared, Vector.getElem?_eq_getElem h, Option.getD_some, Vector.getElem_map]
    cases x.slots[i] <;> rfl
  · have e : ∀ v : Vector Slot 4, v[i]? = none := fun v => Vector.getElem?_eq_none (by omega)
    simp only [Station.slot, e, Option.getD_none]
    rfl

/-- A cleared station holds no OCCUPIED slot. -/
theorem Station.occupiedCount_cleared (x : Station) : x.cleared.occupiedCount = 0 := by
  unfold Station.occupiedCount
  rw [List.length_eq_zero_iff, List.filter_eq_nil_iff]
  intro i _
  have h := Station.slot_cleared x i
  split
  · rename_i hocc
    rw [hocc] at h
    split at h <;> cases h
  · simp

/-- R155: a channel whose station has become empty. -/
def Channel.emptied (c : Channel) : Channel :=
  { c with
    empty := true
    state := match c.state with
      | .waiting => .paused
      | .deferred => .paused
      | x => x
    nextDue := match c.state with
      | .waiting => none
      | .deferred => none
      | _ => c.nextDue
    deferredDue := match c.state with
      | .deferred => none
      | _ => c.deferredDue }

theorem Channel.emptied_emptied (c : Channel) : c.emptied.emptied = c.emptied := by
  cases h : c.state <;> simp [Channel.emptied, h]

theorem State.channelEmptied_eq (s : State) (n : Nat) : s.channelEmptied n = s.modChannel n Channel.emptied := by
  unfold State.channelEmptied State.modChannel Channel.emptied
  split <;> rename_i h <;> simp [h]

/-- R16, R155: a station's slots are cleared; a channel of a station that held a hanger is told that it is empty. -/
theorem State.clearSlots_eq (s : State) {st : Nat} (h : st < 24) :
    s.clearSlots st = match (s.station st).gasChannel with
      | some n => if 0 < (s.station st).occupiedCount then (s.modStation st Station.cleared).modChannel n Channel.emptied
        else s.modStation st Station.cleared
      | none => s.modStation st Station.cleared := by
  have hst : (s.modStation st Station.cleared).station st = (s.station st).cleared := by
    rw [State.station_modStation h, if_pos rfl]
  have hgas : (s.station st).cleared.gasChannel = (s.station st).gasChannel := rfl
  unfold State.clearSlots State.reportOccupancy
  rw [hst, hgas, Station.occupiedCount_cleared]
  cases (s.station st).gasChannel with
  | none => rfl
  | some n =>
    simp only [Nat.lt_irrefl, and_false, if_false, and_true, State.channelEmptied_eq]

/-- A change of another channel. -/
theorem channel_modChannel_ne {s : State} {n k : Nat} {f : Channel → Channel} (h : k ≠ n) : (s.modChannel n f).channel k = s.channel k := by
  by_cases hn : n < 8
  · rw [State.channel_modChannel hn, if_neg h]
  · have e : (s.modChannel n f).channels = s.channels := Vector.setIfInBounds_eq_of_size_le (by omega)
    unfold State.channel
    rw [e]

/-- A station index past the last names an absent station. -/
theorem State.station_outside (s : State) {st : Nat} (h : ¬ st < 24) : s.station st = Station.absent := by
  unfold State.station
  rw [Vector.getElem?_eq_none (by omega)]
  rfl

/-- The slot places of an absent station are kept FREE. -/
theorem Station.slot_absent (i : Nat) : Station.absent.slot i = .free := getD_replicate 4 i _

/-- What the clearing of the first `n` stations leaves: their slots cleared, and the channels of those that held a hanger told. -/
structure SlotsCleared (n : Nat) (s t : State) : Prop where
  rest : t = { s with stations := t.stations, channels := t.channels }
  station : ∀ st, t.station st = if st < n then (s.station st).cleared else s.station st
  emptied : ∀ m, m ≤ 7 → (∃ st, st < n ∧ (s.station st).gasChannel = some m ∧ 0 < (s.station st).occupiedCount) →
    t.channel m = (s.channel m).emptied
  kept : ∀ m, m ≤ 7 → (¬ ∃ st, st < n ∧ (s.station st).gasChannel = some m ∧ 0 < (s.station st).occupiedCount) →
    t.channel m = s.channel m

/-- Station `n` cleared after those below it. -/
theorem SlotsCleared.succ {n : Nat} {s t : State} (hn : n < 24) (h : SlotsCleared n s t) : SlotsCleared (n + 1) s (t.clearSlots n) := by
  have hstn : t.station n = s.station n := by rw [h.station, if_neg (by omega)]
  have stations : ∀ u : State, u.stations = (t.modStation n Station.cleared).stations → ∀ st,
      u.station st = if st < n + 1 then (s.station st).cleared else s.station st := by
    intro u hu st
    rw [State.station_congr hu, State.station_modStation hn]
    split
    · rename_i e; subst e; rw [hstn, if_pos (by omega)]
    · rw [h.station]; split <;> split <;> first | rfl | omega
  rw [State.clearSlots_eq t hn, hstn]
  by_cases htold : ∃ m, (s.station n).gasChannel = some m ∧ 0 < (s.station n).occupiedCount
  · obtain ⟨m, hgas, hocc⟩ := htold
    rw [hgas]
    simp only [if_pos hocc]
    refine ⟨?_, stations _ rfl, fun k hk hex => ?_, fun k hk hno => ?_⟩
    · rw [h.rest]; rfl
    · have other : k ≠ m → t.channel k = (s.channel k).emptied := by
        rintro hkm
        obtain ⟨st, h1, h2, h3⟩ := hex
        by_cases e : st = n
        · subst e; rw [hgas] at h2; cases h2; exact absurd rfl hkm
        · exact h.emptied k hk ⟨st, by omega, h2, h3⟩
      by_cases hkm : k = m
      · subst hkm
        rw [State.channel_modChannel (by omega), if_pos rfl]
        by_cases hex' : ∃ st, st < n ∧ (s.station st).gasChannel = some k ∧ 0 < (s.station st).occupiedCount
        · show (t.channel k).emptied = _
          rw [h.emptied k hk hex', Channel.emptied_emptied]
        · show (t.channel k).emptied = _
          rw [h.kept k hk hex']
      · rw [channel_modChannel_ne hkm]; exact other hkm
    · have hkm : k ≠ m := by rintro rfl; exact hno ⟨n, by omega, hgas, hocc⟩
      rw [channel_modChannel_ne hkm]
      exact h.kept k hk (fun ⟨st, h1, h2⟩ => hno ⟨st, by omega, h2⟩)
  · have same : (match (s.station n).gasChannel with
      | some m => if 0 < (s.station n).occupiedCount then (t.modStation n Station.cleared).modChannel m Channel.emptied
        else t.modStation n Station.cleared
      | none => t.modStation n Station.cleared) = t.modStation n Station.cleared := by
      cases hg : (s.station n).gasChannel with
      | none => rfl
      | some m => exact if_neg (fun hocc => htold ⟨m, hg, hocc⟩)
    rw [same]
    have below : ∀ k, (∃ st, st < n + 1 ∧ (s.station st).gasChannel = some k ∧ 0 < (s.station st).occupiedCount) ↔
        ∃ st, st < n ∧ (s.station st).gasChannel = some k ∧ 0 < (s.station st).occupiedCount := by
      intro k
      constructor
      · rintro ⟨st, h1, h2, h3⟩
        have : st ≠ n := by rintro rfl; exact htold ⟨k, h2, h3⟩
        exact ⟨st, by omega, h2, h3⟩
      · rintro ⟨st, h1, h2⟩; exact ⟨st, by omega, h2⟩
    refine ⟨?_, stations _ rfl, fun k hk hex => h.emptied k hk ((below k).1 hex), fun k hk hno => h.kept k hk (fun hex => hno ((below k).2 hex))⟩
    rw [h.rest]; rfl

theorem slotsCleared_range (s : State) : ∀ n, n ≤ 24 → SlotsCleared n s ((List.range n).foldl State.clearSlots s) := by
  intro n
  induction n with
  | zero =>
    exact fun _ => ⟨rfl, fun st => rfl, fun m _ ⟨st, h, _⟩ => absurd h (by omega), fun m _ _ => rfl⟩
  | succ n ih =>
    intro hn
    rw [List.range_succ, List.foldl_append]
    exact (ih (by omega)).succ (by omega)

/-! ### One recipe (R28, R32) -/

/-- R32: a recipe entry after CLEAR-LINE. -/
def Recipe.cleared (e : Recipe) : Recipe :=
  match e.staged with
  | some v => { active := v, staged := none, useCount := 0, valid := true, lastFault := none }
  | none => { e with useCount := 0 }

theorem Recipe.cleared_none {e : Recipe} (h : e.staged = none) : e.cleared = { e with useCount := 0 } := by
  unfold Recipe.cleared
  rw [h]

theorem Recipe.cleared_some {e : Recipe} {v : List RecipeStep} (h : e.staged = some v) :
    e.cleared = { active := v, staged := none, useCount := 0, valid := true, lastFault := none } := by
  unfold Recipe.cleared
  rw [h]

/-- The notice of R28 for recipe `r`. -/
def swapNotice (now : LineTime) (r : Nat) : Notice := plainNotice .recipeSwapped now none none r

/-- R187: a maskable notice displaces none, so no test of ALARM goes with it. -/
theorem State.post_of_maskable (s : State) (p : PortId) {n : Notice} (h : n.kind.maskable = true) :
    s.post p n = s.modPort p (fun q => q.push n) := by
  unfold State.post
  rw [h]
  exact if_neg (by simp)

/-- R32, R28: a recipe is cleared; a staged version goes active with its notice. -/
theorem State.clearRecipe_eq (s : State) {r : Nat} (h : r < 16) :
    s.clearRecipe r = { s with recipes := s.recipes.setIfInBounds r (s.recipe r).cleared
                               port0 := if (s.recipe r).staged.isSome then s.port0.push (swapNotice s.lineTime r) else s.port0 } := by
  have hst : ((s.modRecipe r (fun e => { e with useCount := 0 })).recipe r) = { s.recipe r with useCount := 0 } := by
    rw [State.recipe_modRecipe h, if_pos rfl]
  have hset : ∀ f : Recipe → Recipe, (s.modRecipe r (fun e => { e with useCount := 0 })).modRecipe r f =
      s.modRecipe r (fun e => f { e with useCount := 0 }) := by
    intro f
    unfold State.modRecipe at hst ⊢
    rw [hst]
    dsimp only
    rw [Vector.setIfInBounds_setIfInBounds]
  unfold State.clearRecipe State.swapRecipe
  rw [hst]
  split
  · rename_i v hs
    have staged : (s.recipe r).staged = some v := hs
    rw [Recipe.cleared_some staged, if_pos (by rw [staged]; rfl), hset]
    exact State.post_of_maskable _ .p0 rfl
  · rename_i hs
    have unstaged : (s.recipe r).staged = none := hs
    rw [Recipe.cleared_none unstaged, if_neg (by rw [unstaged]; simp)]
    rfl

/-- What the clearing of the first `n` recipes leaves: their entries cleared, and a notice for each that swapped. -/
structure RecipesCleared (n : Nat) (s t : State) : Prop where
  rest : t = { s with recipes := t.recipes, port0 := t.port0 }
  recipe : ∀ r, r ≤ 15 → t.recipe r = if r < n then (s.recipe r).cleared else s.recipe r
  notices : t.port0 = ((List.range n).filter (fun r => (s.recipe r).staged.isSome)).foldl
    (fun q r => q.push (swapNotice s.lineTime r)) s.port0

/-- Recipe `n` cleared after those below it. -/
theorem RecipesCleared.succ {n : Nat} {s t : State} (hn : n < 16) (h : RecipesCleared n s t) :
    RecipesCleared (n + 1) s (t.clearRecipe n) := by
  have hrn : t.recipe n = s.recipe n := by rw [h.recipe n (by omega), if_neg (by omega)]
  have htime : t.lineTime = s.lineTime := by rw [h.rest]
  rw [State.clearRecipe_eq t hn, hrn, htime]
  refine ⟨?_, fun r hr => ?_, ?_⟩
  · conv_lhs => rw [h.rest]
  · have hset := State.recipe_modRecipe (s := t) (f := fun _ => (s.recipe n).cleared) hn r
    refine Eq.trans hset ?_
    split
    · rename_i e; subst e; rw [if_pos (by omega)]
    · rw [h.recipe r hr]; split <;> split <;> first | rfl | omega
  · rw [List.range_succ, List.filter_append, List.foldl_append, ← h.notices]
    cases hs : (s.recipe n).staged.isSome <;> simp [hs]

theorem recipesCleared_range (s : State) : ∀ n, n ≤ 16 → RecipesCleared n s ((List.range n).foldl State.clearRecipe s) := by
  intro n
  induction n with
  | zero => exact fun _ => ⟨rfl, fun r _ => rfl, rfl⟩
  | succ n ih =>
    intro hn
    rw [List.range_succ, List.foldl_append]
    exact (ih (by omega)).succ (by omega)

/-! ### The whole line (R168) -/

/-- The state of the line with no hanger, no move and no stranded hold, its stations and recipes not yet cleared. -/
def State.emptied (s : State) : State :=
  { s with hangers := [], startOrder := [], moves := [], gantryA := { s.gantryA with hold := none },
           gantryB := { s.gantryB with hold := none } }

/-- CLEAR-LINE: the records of the line are emptied, then the stations and the recipes cleared in turn. -/
theorem State.clearAll_cleared (s : State) :
    ∃ t, SlotsCleared 24 s.emptied t ∧ RecipesCleared 16 t s.clearAll :=
  ⟨_, slotsCleared_range s.emptied 24 (le_refl _), recipesCleared_range _ 16 (le_refl _)⟩

theorem answers_clearLine {s t : State} {r : Reply} (hp : PortFree s .p0) (h : clearLine (s.opened .p0 2) = (t, r)) :
    Answers .clearLine s .p0 t r :=
  Answers.of_rule (c := 0x55) (l := []) rfl hp h

/-- Settles O49: what the clearing of the stations and of the recipes leaves, put together. -/
theorem clearLineEmptiesTheLine : Obligations.ClearLineEmptiesTheLine := by
  intro s hp
  refine ⟨fun h => answers_clearLine hp (if_neg h), fun h => ⟨(s.opened .p0 2).clearAll, answers_clearLine hp (if_pos h), ?_⟩⟩
  obtain ⟨t, slots, recipes⟩ := (s.opened .p0 2).clearAll_cleared
  generalize (s.opened .p0 2).clearAll = u at recipes
  have rest : u = { (s.opened .p0 2).emptied with stations := t.stations, channels := t.channels, recipes := u.recipes
                                                  port0 := u.port0 } := by
    conv_lhs => rw [recipes.rest, slots.rest]
  have station : ∀ st, u.station st = if st < 24 then (s.station st).cleared else s.station st := by
    intro st
    rw [← State.station_congr (s := u) (t := t) (by rw [rest])]
    exact slots.station st
  have recipe : ∀ r, t.recipe r = s.recipe r := by
    intro r
    unfold State.recipe
    rw [slots.rest]
    rfl
  have channel : ∀ n, u.channel n = t.channel n := by
    intro n
    unfold State.channel
    rw [rest]
  refine ⟨by rw [rest]; rfl, by rw [rest]; rfl, by rw [rest]; rfl, by rw [rest]; rfl, by rw [rest]; rfl, fun g => ?_, fun r => ?_,
    fun st => ?_, fun r hr => ?_, fun n hn => ⟨fun hex => ?_, fun hno => ?_⟩, ?_, by rw [rest]; rfl, by rw [rest]; rfl, ?_,
    by rw [rest]; rfl, by rw [rest]; rfl, by rw [rest]; rfl⟩
  · rw [rest]; cases g <;> rfl
  · unfold State.slotAt
    rw [station]
    split
    · exact Station.slot_cleared _ _
    · rename_i hst
      rw [State.station_outside s hst, Station.slot_absent]
      rfl
  · rw [station]; split <;> rfl
  · rw [recipes.recipe r hr, if_pos (by omega)]
    rw [recipe]
    rfl
  · obtain ⟨st, h1, h2⟩ := hex
    rw [channel, slots.emptied n hn ⟨st, by omega, h2⟩]
    rfl
  · rw [channel, slots.kept n hn (fun ⟨st, h1, h2⟩ => hno ⟨st, by omega, h2⟩)]
    rfl
  · rw [recipes.notices]
    simp only [recipe]
    rw [slots.rest]
    rfl
  · unfold KeepsSettings
    rw [rest]
    exact ⟨rfl, rfl, rfl, rfl, rfl, rfl, rfl, rfl, rfl⟩

end Sys2Proof.Machine
end

