-- ==== Sys2Proof/Proofs/SlotCore.lean ====
section
/-! PROOFS. What the agreement of slots (R5, R35, R117) reads of a state, on its own: the slots, the classes of the stations, of each
hanger its place, its forward reservation and whether it bears a move, of each move its ends and its stage, and the stranded
holds. An operation is described once by what it does to this core; an operation on anything else leaves it as it is. -/

namespace Sys2Proof.Machine

/-! ### The core of a state -/

/-- Whether a hanger is on its way through its version, stranded, or at rest (R35). -/
inductive Rank where
  | bearing | stranded | resting
  deriving DecidableEq

/-- The rank of a state of R35. -/
def HangerState.rank : HangerState → Rank
  | .stranded => .stranded
  | .done => .resting
  | .aborted => .resting
  | _ => .bearing

structure HangerCore where
  tag : Nat
  location : Location
  forward : Option SlotRef
  rank : Rank

structure MoveCore where
  id : Nat
  yields : Bool
  tag : Option Nat
  dest : Option Place
  state : MoveState
  gantry : Option GantryId
  limited : Bool
  blocked : Option Nat

structure Core where
  slot : SlotRef → Slot
  strict : Nat → Prop
  hold : GantryId → Option StrandedHold
  hangers : List HangerCore
  moves : List MoveCore

def Hanger.core (h : Hanger) : HangerCore := { tag := h.tag, location := h.location, forward := h.forward, rank := h.state.rank }

/-- A hanger's move that is WAITING and one that is READY are alike to the slots. -/
def Move.core (m : Move) : MoveCore :=
  { id := m.id, yields := m.kind == .yielding, tag := m.tag, dest := m.dest,
    state := if m.kind ≠ .yielding ∧ m.state = .waiting then .ready else m.state,
    gantry := m.gantry, limited := m.limit.isSome, blocked := m.blocked }

def State.core (s : State) : Core :=
  { slot := s.slotAt, strict := fun st => (s.station st).cls = .strict, hold := fun g => (s.gantry g).hold,
    hangers := s.hangers.map Hanger.core, moves := s.moves.map Move.core }

/-- R102: granted, carried or placed. -/
def MoveCore.InWork (m : MoveCore) : Prop := m.state = .granted ∨ m.state = .carried ∨ m.state = .placed

theorem Move.core_placed (m : Move) : m.core.state = .placed ↔ m.state = .placed := by
  unfold Move.core
  dsimp only
  split
  · rename_i h; simp [h.2]
  · rfl

theorem Move.core_inWork (m : Move) : m.core.InWork ↔ m.InWork := by
  unfold Move.core MoveCore.InWork Move.InWork
  dsimp only
  split
  · rename_i h; simp [h.2]
  · rfl

/-- A state that is not WAITING is the core's. -/
theorem Move.core_state {m : Move} (h : m.state ≠ .waiting) : m.core.state = m.state := if_neg (fun h' => h h'.2)

namespace Core

/-! ### Look-ups -/

/-- The hanger a tag names. -/
def hanger? (c : Core) (tag : Nat) : Option HangerCore := c.hangers.find? (fun h => h.tag == tag)

/-- R35, R102: the move of a hanger that has not been placed. -/
def move? (c : Core) (tag : Nat) : Option MoveCore := c.moves.find? (fun m => m.tag == some tag && m.state != .placed)

theorem hanger_tag {c : Core} {tag : Nat} {h : HangerCore} (hh : c.hanger? tag = some h) : h.tag = tag := by
  simpa using List.find?_some hh

theorem hanger_mem {c : Core} {tag : Nat} {h : HangerCore} (hh : c.hanger? tag = some h) : h ∈ c.hangers :=
  List.mem_of_find?_eq_some hh

theorem move_tag {c : Core} {tag : Nat} {m : MoveCore} (hm : c.move? tag = some m) : m.tag = some tag ∧ m.state ≠ .placed := by
  simpa using List.find?_some hm

theorem move_mem {c : Core} {tag : Nat} {m : MoveCore} (hm : c.move? tag = some m) : m ∈ c.moves :=
  List.mem_of_find?_eq_some hm

theorem hanger_none {c : Core} {tag : Nat} : c.hanger? tag = none ↔ ∀ h ∈ c.hangers, h.tag ≠ tag := by
  unfold hanger?
  rw [List.find?_eq_none]
  simp

theorem move_none {c : Core} {tag : Nat} : c.move? tag = none ↔ ∀ m ∈ c.moves, m.tag = some tag → m.state = .placed := by
  unfold move?
  rw [List.find?_eq_none]
  simp

end Core

theorem State.core_hanger (s : State) (tag : Nat) : s.core.hanger? tag = (s.hanger? tag).map Hanger.core := by
  unfold Core.hanger? State.core State.hanger?
  rw [List.find?_map]
  rfl

theorem State.core_move (s : State) (tag : Nat) : s.core.move? tag = (s.hangerMove? tag).map Move.core := by
  unfold Core.move? State.core State.hangerMove?
  rw [List.find?_map]
  have same : (fun m : MoveCore => m.tag == some tag && m.state != .placed) ∘ Move.core
      = fun m : Move => m.tag == some tag && m.state != .placed := by
    funext m
    have := Move.core_placed m
    have e : (m.core.state != .placed) = (m.state != .placed) := by
      rw [Bool.eq_iff_iff, bne_iff_ne, bne_iff_ne]
      exact not_congr this
    show (m.core.tag == some tag && m.core.state != .placed) = _
    rw [e]
    rfl
  rw [same]

/-! ### The agreement of one tag -/

/-- The slot is OCCUPIED or RESERVED by the tag. -/
def Slot.names (x : Slot) (tag : Nat) : Bool :=
  match x with
  | .occupied t => t == tag
  | .reserved t _ => t == tag
  | .free => false
  | .blocked => false

theorem Slot.names_of_reservedFor {x : Slot} {tag : Nat} (h : x.reservedFor tag = true) : x.names tag = true := by
  cases x <;> simp_all [Slot.reservedFor, Slot.names]

theorem Slot.reservedFor_iff (x : Slot) (tag : Nat) : x.reservedFor tag = true ↔ ∃ k, x = .reserved tag k := by
  cases x <;> simp [Slot.reservedFor]

/-- R5, R35, R117 for one tag: what its hanger `h?` and its move `m?` claim, and what the slots and the holds that name the tag say. -/
structure TagAgrees (slot : SlotRef → Slot) (strict : Nat → Prop) (hold : GantryId → Option StrandedHold) (tag : Nat)
    (h? : Option HangerCore) (m? : Option MoveCore) : Prop where
  occupied : ∀ r, slot r = .occupied tag → ∃ h, h? = some h ∧ h.location = .slot r
  forward : ∀ r, slot r = .reserved tag .forward → ∃ h, h? = some h ∧ h.forward = some r
  destination : ∀ r, slot r = .reserved tag .destination → ∃ h, h? = some h
    ∧ ((∃ m, m? = some m ∧ m.dest = some (.slot r)) ∨ ∃ g, h.location = .gantry g ∧ hold g = some { tag := tag, dest := r })
  rests : ∀ h r, h? = some h → h.location = .slot r → slot r = .occupied tag
  keeps : ∀ h r, h? = some h → h.forward = some r → (slot r).reservedFor tag = true ∧ h.rank ≠ .resting
  leads : ∀ h m d, h? = some h → m? = some m → m.dest = some (.slot d) → (slot d).reservedFor tag = true
    ∧ (m.InWork → slot d = .reserved tag .destination ∧ ∀ r, h.forward = some r → (strict d.station ↔ r ≠ d))
  feeds : ∀ h m r, h? = some h → m? = some m → h.forward = some r → m.dest = some (.slot r)
    ∨ ∃ d, m.dest = some (.slot d) ∧ strict d.station
  held : ∀ g x, hold g = some x → x.tag = tag → slot x.dest = .reserved tag .destination

/-- Two slot maps say the same of a tag. -/
def SameFor (tag : Nat) (slot slot' : SlotRef → Slot) : Prop :=
  ∀ r, (slot r).names tag = true ∨ (slot' r).names tag = true → slot' r = slot r

theorem SameFor.eq_iff {tag : Nat} {slot slot' : SlotRef → Slot} (h : SameFor tag slot slot') {r : SlotRef} {x : Slot}
    (hx : x.names tag = true) : slot' r = x ↔ slot r = x := by
  constructor
  · intro e; rw [← h r (Or.inr (by rw [e]; exact hx)), e]
  · intro e; rw [h r (Or.inl (by rw [e]; exact hx)), e]

theorem SameFor.reservedFor {tag : Nat} {slot slot' : SlotRef → Slot} (h : SameFor tag slot slot') {r : SlotRef}
    (hx : (slot r).reservedFor tag = true) : (slot' r).reservedFor tag = true := by
  rw [h r (Or.inl (Slot.names_of_reservedFor hx))]; exact hx

/-- The agreement of a tag reads the slots and the holds that name it alone. -/
theorem TagAgrees.congr {slot slot' : SlotRef → Slot} {strict : Nat → Prop} {hold hold' : GantryId → Option StrandedHold}
    {tag : Nat} {h? : Option HangerCore} {m? : Option MoveCore} (h : TagAgrees slot strict hold tag h? m?)
    (hs : SameFor tag slot slot') (hh : ∀ g x, x.tag = tag → (hold' g = some x ↔ hold g = some x)) :
    TagAgrees slot' strict hold' tag h? m? where
  occupied r e := h.occupied r ((hs.eq_iff (by simp [Slot.names])).1 e)
  forward r e := h.forward r ((hs.eq_iff (by simp [Slot.names])).1 e)
  destination r e := by
    obtain ⟨x, hx, hd⟩ := h.destination r ((hs.eq_iff (by simp [Slot.names])).1 e)
    exact ⟨x, hx, hd.imp_right (fun ⟨g, hg, hg'⟩ => ⟨g, hg, (hh g _ rfl).2 hg'⟩)⟩
  rests x r hx e := (hs.eq_iff (by simp [Slot.names])).2 (h.rests x r hx e)
  keeps x r hx e := ⟨hs.reservedFor (h.keeps x r hx e).1, (h.keeps x r hx e).2⟩
  leads x m d hx hm e := ⟨hs.reservedFor (h.leads x m d hx hm e).1, fun hw =>
    ⟨(hs.eq_iff (by simp [Slot.names])).2 ((h.leads x m d hx hm e).2 hw).1, ((h.leads x m d hx hm e).2 hw).2⟩⟩
  feeds := h.feeds
  held g x e ht := (hs.eq_iff (by simp [Slot.names])).2 (h.held g x ((hh g x ht).1 e) ht)

namespace Core

/-- Every tag agrees. -/
def Agrees (c : Core) : Prop := ∀ tag, TagAgrees c.slot c.strict c.hold tag (c.hanger? tag) (c.move? tag)

/-- R33, R35: a tag names one hanger and has one move not placed. -/
structure Keyed (c : Core) : Prop where
  tags : (c.hangers.map HangerCore.tag).Nodup
  sole : ∀ m ∈ c.moves, ∀ m' ∈ c.moves, ∀ tag, m.tag = some tag → m'.tag = some tag → m.state ≠ .placed →
    m'.state ≠ .placed → m = m'

/-- Keyed, and every tag agrees. -/
structure Sound (c : Core) : Prop extends Keyed c where
  agrees : c.Agrees

theorem Keyed.hanger_of_mem {c : Core} (hk : c.Keyed) {h : HangerCore} (hm : h ∈ c.hangers) : c.hanger? h.tag = some h := by
  cases hf : c.hanger? h.tag with
  | none => exact absurd rfl (hanger_none.1 hf h hm)
  | some h' => rw [List.inj_on_of_nodup_map hk.tags (hanger_mem hf) hm (hanger_tag hf)]

theorem Keyed.move_of_mem {c : Core} (hk : c.Keyed) {m : MoveCore} {tag : Nat} (hm : m ∈ c.moves) (ht : m.tag = some tag)
    (hp : m.state ≠ .placed) : c.move? tag = some m := by
  cases hf : c.move? tag with
  | none => exact absurd (move_none.1 hf m hm ht) hp
  | some m' => rw [hk.sole m' (move_mem hf) m hm tag (move_tag hf).1 ht (move_tag hf).2 hp]

end Core

/-- The agreement of slots, read off the core. -/
theorem slotsAgree_of_core {s : State} (h : s.core.Sound) : SlotsAgree s := by
  have hanger : ∀ x ∈ s.hangers, s.core.hanger? x.tag = some x.core := fun x hx =>
    h.hanger_of_mem (List.mem_map_of_mem hx)
  have live : ∀ {tag : Nat} {y : HangerCore}, s.core.hanger? tag = some y → ∃ x, s.hanger? tag = some x ∧ x.core = y := by
    intro tag y hy
    rw [State.core_hanger, Option.map_eq_some_iff] at hy
    exact hy
  refine ⟨fun r => ?_, fun x hx => ?_, fun m hm x d hp ht hx => ?_, fun g x hx => (h.agrees x.tag).held g x hx rfl⟩
  · unfold SlotAgrees
    split
    · rename_i tag hr
      obtain ⟨y, hy, hl⟩ := (h.agrees tag).occupied r hr
      obtain ⟨x, hx, rfl⟩ := live hy
      exact ⟨x, hx, hl⟩
    · rename_i tag hr
      obtain ⟨y, hy, hl⟩ := (h.agrees tag).forward r hr
      obtain ⟨x, hx, rfl⟩ := live hy
      exact ⟨x, hx, hl⟩
    · rename_i tag hr
      obtain ⟨y, hy, hl⟩ := (h.agrees tag).destination r hr
      obtain ⟨x, hx, rfl⟩ := live hy
      refine ⟨x, hx, hl.imp_left ?_⟩
      rintro ⟨m, hm, hd⟩
      rw [State.core_move, Option.map_eq_some_iff] at hm
      obtain ⟨m', hm', rfl⟩ := hm
      exact ⟨m', hm', hd⟩
    · trivial
    · trivial
  · refine ⟨fun r hl => (h.agrees x.tag).rests _ r (hanger x hx) hl, fun r hf => ?_⟩
    obtain ⟨h1, h2⟩ := (h.agrees x.tag).keeps _ r (hanger x hx) hf
    refine ⟨h1, fun e => h2 ?_, fun e => h2 ?_⟩ <;> (show x.state.rank = .resting; rw [e]; rfl)
  · have hy : s.core.hanger? x.tag = some x.core := by rw [State.core_hanger, hx]; rfl
    have hn : s.core.move? x.tag = some m.core :=
      h.move_of_mem (List.mem_map_of_mem hm) ht (fun e => hp ((Move.core_placed m).1 e))
    refine ⟨fun hd => ?_, fun r hf => (h.agrees x.tag).feeds _ _ r hy hn hf⟩
    obtain ⟨h1, h2⟩ := (h.agrees x.tag).leads _ _ d hy hn hd
    exact ⟨h1, fun hw => h2 ((Move.core_inWork m).2 hw)⟩

end Sys2Proof.Machine
end

