-- ==== Sys2Proof/Proofs/SlotInvariant.lean ====
section
/-! PROOFS. The invariant that carries the agreement of slots across an advance of the line time, where several events follow each
other: what it needs of moves, hangers and stranded holds beside it (R33, R35, R101 to R103, R147). -/

namespace Sys2Proof.Machine

/-- Sound, and: identifiers name one move each; the YIELD moves are those that carry no tag; a move with a limit is in work; a gantry
works one move, and holds no stranded hanger while it does; a move not placed has its hanger, which is neither stranded nor at rest;
a stranded hold names a STRANDED hanger; a hanger that is carried leads to a slot; and one that is carried or STRANDED rests in
none. -/
structure Core.Firm (c : Core) : Prop extends Core.Sound c where
  ids : (c.moves.map MoveCore.id).Nodup
  plain : ∀ m ∈ c.moves, m.yields = true ↔ m.tag = none
  settled : ∀ m ∈ c.moves, m.state ≠ .waiting
  limits : ∀ m ∈ c.moves, m.limited = true → m.InWork
  works : ∀ m ∈ c.moves, ∀ m' ∈ c.moves, ∀ g, m.InWork → m'.InWork → m.gantry = some g → m'.gantry = some g → m = m'
  free : ∀ m ∈ c.moves, m.InWork → ∀ g, m.gantry = some g → c.hold g = none
  bearer : ∀ m ∈ c.moves, m.state ≠ .placed → ∀ tag, m.tag = some tag → ∃ h, c.hanger? tag = some h ∧ h.rank = .bearing
  stranded : ∀ g x, c.hold g = some x → ∃ h, c.hanger? x.tag = some h ∧ h.rank = .stranded
  lands : ∀ m ∈ c.moves, m.state = .carried → m.tag ≠ none → ∃ d, m.dest = some (.slot d)
  carries : ∀ m ∈ c.moves, m.state = .carried → ∀ tag, m.tag = some tag → ∀ h, c.hanger? tag = some h →
    ∀ r, h.location ≠ .slot r
  rides : ∀ h ∈ c.hangers, h.rank = .stranded → ∀ r, h.location ≠ .slot r

/-- R35: a hanger that has a move is neither stranded nor at rest. -/
theorem HangerAgrees.bearing {s : State} {h : Hanger} {m : Move} (ha : HangerAgrees s h) (hm : s.hangerMove? h.tag = some m) :
    h.state.rank = .bearing := by
  have none_of : s.hangerMove? h.tag ≠ none := by rw [hm]; simp
  unfold HangerAgrees at ha
  split at ha <;> rename_i hs <;> rw [hs] <;> first | rfl | exact absurd ha.1 none_of

/-- R35: a hanger whose move is carried is on a gantry. -/
theorem HangerAgrees.carried {s : State} {h : Hanger} {m : Move} (ha : HangerAgrees s h) (hm : s.hangerMove? h.tag = some m)
    (hc : m.state = .carried) : ∃ g, h.location = .gantry g := by
  have work : m.InWork := Or.inr (Or.inl hc)
  unfold HangerAgrees at ha
  rw [hm] at ha
  split at ha
  · obtain ⟨-, -, _, ⟨⟩, hw⟩ := ha; exact absurd work hw
  · obtain ⟨-, -, _, ⟨⟩, hw⟩ := ha; exact absurd work hw
  · obtain ⟨-, -, _, ⟨⟩, hw⟩ := ha
    rw [hw work] at hc; cases hc
  · obtain ⟨_, ⟨⟩, ⟨-, hg, -⟩ | ⟨-, -, g, hl, -⟩⟩ := ha
    · rw [hg] at hc; cases hc
    · exact ⟨g, hl⟩
  all_goals cases ha.1

/-- R35: a STRANDED hanger is on a gantry. -/
theorem HangerAgrees.on_gantry {s : State} {h : Hanger} (ha : HangerAgrees s h) (hs : h.state.rank = .stranded) :
    ∃ g, h.location = .gantry g := by
  have stranded : h.state = .stranded := by cases e : h.state <;> rw [e] at hs <;> first | rfl | cases hs
  unfold HangerAgrees at ha
  rw [stranded] at ha
  obtain ⟨-, -, g, -, hl, -⟩ := ha
  exact ⟨g, hl⟩

/-- R131, R147: a gantry that holds a granted move has no stranded hold. -/
theorem GantryAgrees.no_hold {s : State} {g : GantryId} {id : Nat} (ha : GantryAgrees s g) (hg : (s.gantry g).granted = some id) :
    (s.gantry g).hold = none := by
  obtain ⟨busy, -, -, hold⟩ := ha
  have hb : (s.gantry g).link = .busy := busy.2 (by rw [hg]; simp)
  cases hh : (s.gantry g).hold with
  | none => rfl
  | some x =>
    obtain ⟨hl, -⟩ := hold x hh
    rw [hb] at hl
    rcases hl with hl | hl <;> cases hl

theorem keyed_of_movesAgree {s : State} (hs : MovesAgree s) : s.core.Keyed := by
  obtain ⟨htags, -, -, hmoves, -⟩ := hs
  refine ⟨by simpa [State.core, Function.comp_def, Hanger.core] using htags, ?_⟩
  intro m hm m' hm' tag ht ht' hp hp'
  obtain ⟨x, hx, rfl⟩ := List.mem_map.1 hm
  obtain ⟨x', hx', rfl⟩ := List.mem_map.1 hm'
  have e := ((hmoves x hx).2.2 (fun e => hp ((Move.core_placed x).2 e)) tag ht).2
  have e' := ((hmoves x' hx').2.2 (fun e => hp' ((Move.core_placed x').2 e)) tag ht').2
  rw [e] at e'
  cases e'
  rfl

theorem agrees_of_slotsAgree {s : State} (hs : SlotsAgree s) : s.core.Agrees := by
  obtain ⟨hslots, hhangers, hmoves, hholds⟩ := hs
  intro tag
  rw [State.core_hanger, State.core_move]
  have records : ∀ y n, (s.hanger? tag).map Hanger.core = some y → (s.hangerMove? tag).map Move.core = some n →
      ∃ x m, s.hanger? tag = some x ∧ s.hangerMove? tag = some m ∧ x.core = y ∧ m.core = n := by
    intro y n hy hn
    obtain ⟨x, hx, rfl⟩ := Option.map_eq_some_iff.1 hy
    obtain ⟨m, hm, rfl⟩ := Option.map_eq_some_iff.1 hn
    exact ⟨x, m, hx, hm, rfl, rfl⟩
  have route : ∀ x m, s.hanger? tag = some x → s.hangerMove? tag = some m → ∀ d,
      (m.dest = some (.slot d) → (s.slotAt d).reservedFor tag = true
        ∧ (m.InWork → s.slotAt d = .reserved tag .destination
          ∧ ∀ r, x.forward = some r → ((s.station d.station).cls = .strict ↔ r ≠ d)))
      ∧ (∀ r, x.forward = some r → m.dest = some (.slot r)
        ∨ ∃ d, m.dest = some (.slot d) ∧ (s.station d.station).cls = .strict) := by
    intro x m hx hm d
    obtain rfl := State.hanger_tag hx
    have hmt : m.tag = some x.tag ∧ m.state ≠ .placed := by simpa using List.find?_some hm
    exact hmoves m (List.mem_of_find?_eq_some hm) x d hmt.2 hmt.1 hx
  refine ⟨fun r hr => ?_, fun r hr => ?_, fun r hr => ?_, fun y r hy hl => ?_, fun y r hy hf => ?_, fun y n d hy hn hd => ?_,
    fun y n r hy hn hf => ?_, fun g x hx ht => ht ▸ hholds g x hx⟩
  · have h := hslots r
    unfold SlotAgrees at h
    rw [show s.slotAt r = .occupied tag from hr] at h
    obtain ⟨x, hx, hl⟩ := h
    exact ⟨x.core, by rw [hx]; rfl, hl⟩
  · have h := hslots r
    unfold SlotAgrees at h
    rw [show s.slotAt r = .reserved tag .forward from hr] at h
    obtain ⟨x, hx, hf⟩ := h
    exact ⟨x.core, by rw [hx]; rfl, hf⟩
  · have h := hslots r
    unfold SlotAgrees at h
    rw [show s.slotAt r = .reserved tag .destination from hr] at h
    obtain ⟨x, hx, hd⟩ := h
    exact ⟨x.core, by rw [hx]; rfl, hd.imp_left (fun ⟨m, hm, hd⟩ => ⟨m.core, by rw [hm]; rfl, hd⟩)⟩
  · obtain ⟨x, hx, rfl⟩ := Option.map_eq_some_iff.1 hy
    have := (hhangers x (List.mem_of_find?_eq_some hx)).1 r hl
    rwa [State.hanger_tag hx] at this
  · obtain ⟨x, hx, rfl⟩ := Option.map_eq_some_iff.1 hy
    obtain ⟨h1, h2, h3⟩ := (hhangers x (List.mem_of_find?_eq_some hx)).2 r hf
    rw [State.hanger_tag hx] at h1
    refine ⟨h1, fun e => ?_⟩
    have e' : x.state.rank = .resting := e
    cases hst : x.state <;> rw [hst] at e' <;> first | exact h2 hst | exact h3 hst | cases e'
  · obtain ⟨x, m, hx, hm, rfl, rfl⟩ := records y n hy hn
    obtain ⟨h1, -⟩ := route x m hx hm d
    obtain ⟨h3, h4⟩ := h1 hd
    exact ⟨h3, fun hw => h4 ((Move.core_inWork m).1 hw)⟩
  · obtain ⟨x, m, hx, hm, rfl, rfl⟩ := records y n hy hn
    exact (route x m hx hm r).2 r hf

/-- The two agreements of the model make the core firm. -/
theorem firm_of_agree {s : State} (hm : MovesAgree s) (hs : SlotsAgree s) : s.core.Firm := by
  have keyed := keyed_of_movesAgree hm
  obtain ⟨htags, -, hids, hmoves, hhangers, hgantries, -⟩ := hm
  have granted : ∀ m ∈ s.moves, m.core.InWork → ∀ g, m.gantry = some g → (s.gantry g).granted = some m.id := by
    intro m hm hw g hg
    obtain ⟨g', h1, h2⟩ := (hmoves m hm).2.1 ((Move.core_inWork m).1 hw)
    rw [h1] at hg; cases hg
    exact h2
  refine { keyed with agrees := agrees_of_slotsAgree hs, ids := ?_, plain := ?_, settled := ?_, limits := ?_, works := ?_,
                        free := ?_, bearer := ?_, stranded := ?_, lands := ?_,
                        carries := ?_, rides := ?_ }
  · simpa [State.core, Function.comp_def, Move.core] using hids
  · intro m hm
    obtain ⟨x, hx, rfl⟩ := List.mem_map.1 hm
    obtain ⟨hyield, hother, -⟩ := (hmoves x hx).1
    have yields : x.core.yields = true ↔ x.kind = .yielding := by simp [Move.core]
    rw [yields]
    exact ⟨fun e => (hyield e).1, fun e => by_contra fun hk => (hother hk).1 e⟩
  · intro m hm hw
    obtain ⟨x, hx, rfl⟩ := List.mem_map.1 hm
    unfold Move.core at hw
    dsimp only at hw
    split at hw
    · cases hw
    · rename_i hn
      have hk : x.kind = .yielding := by by_contra hk; exact hn ⟨hk, hw⟩
      obtain ⟨-, -, -, h | h⟩ := (hmoves x hx).1.1 hk <;> rw [h] at hw <;> cases hw
  · intro m hm hl
    obtain ⟨x, hx, rfl⟩ := List.mem_map.1 hm
    by_contra hw
    have := (hmoves x hx).1.2.2.2 (fun h => hw ((Move.core_inWork x).2 h))
    rw [show x.core.limited = x.limit.isSome from rfl, this] at hl
    cases hl
  · intro m hm m' hm' g hw hw' hg hg'
    obtain ⟨x, hx, rfl⟩ := List.mem_map.1 hm
    obtain ⟨x', hx', rfl⟩ := List.mem_map.1 hm'
    have e := granted x hx hw g hg
    rw [granted x' hx' hw' g hg'] at e
    rw [List.inj_on_of_nodup_map hids hx' hx (by simpa using e)]
  · intro m hm hw g hg
    obtain ⟨x, hx, rfl⟩ := List.mem_map.1 hm
    exact (hgantries g).no_hold (granted x hx hw g hg)
  · intro m hm hp tag ht
    obtain ⟨x, hx, rfl⟩ := List.mem_map.1 hm
    obtain ⟨⟨h, hh⟩, hbears⟩ := (hmoves x hx).2.2 (fun e => hp ((Move.core_placed x).2 e)) tag ht
    have htag := State.hanger_tag hh
    refine ⟨h.core, by rw [State.core_hanger, hh]; rfl, ?_⟩
    exact (hhangers h (List.mem_of_find?_eq_some hh)).bearing (by rw [htag]; exact hbears)
  · intro g x hx
    obtain ⟨-, h, hh, hst, -⟩ := (hgantries g).2.2.2 x hx
    exact ⟨h.core, by rw [State.core_hanger, hh]; rfl, by show h.state.rank = _; rw [hst]; rfl⟩
  · intro m hm hc ht
    obtain ⟨x, hx, rfl⟩ := List.mem_map.1 hm
    obtain ⟨hyield, hother, hdest, -⟩ := (hmoves x hx).1
    have kind : x.kind ≠ .yielding := fun e => ht (hyield e).1
    cases hd : x.dest with
    | none => exact absurd hd (hdest ((Move.core_inWork x).1 (Or.inr (Or.inl hc))))
    | some p =>
      cases p with
      | slot d => exact ⟨d, hd⟩
      | point a => exact absurd hd ((hother kind).2.1 a)
  · intro m hm hc tag ht y hy r hl
    obtain ⟨x, hx, rfl⟩ := List.mem_map.1 hm
    obtain ⟨h, hh, rfl⟩ := Option.map_eq_some_iff.1 ((State.core_hanger s tag).symm.trans hy)
    have carried : x.state = .carried := by
      unfold Move.core at hc
      dsimp only at hc
      split at hc
      · cases hc
      · exact hc
    have bears := ((hmoves x hx).2.2 (by rw [carried]; simp) tag ht).2
    rw [← State.hanger_tag hh] at bears
    obtain ⟨g, hg⟩ := (hhangers h (List.mem_of_find?_eq_some hh)).carried bears carried
    have hl' : h.location = .slot r := hl
    rw [hg] at hl'; cases hl'
  · intro y hy hr r hl
    obtain ⟨h, hh, rfl⟩ := List.mem_map.1 hy
    obtain ⟨g, hg⟩ := (hhangers h hh).on_gantry hr
    have hl' : h.location = .slot r := hl
    rw [hg] at hl'; cases hl'

end Sys2Proof.Machine
end

