-- ==== Sys2Proof/Proofs/SlotOps.lean ====
section
/-! PROOFS. The operations on the core: what each does to the look-ups, and that each touches what one tag claims alone. -/

namespace Sys2Proof.Machine

namespace Core

/-! ### The operations -/

def modHanger (c : Core) (tag : Nat) (f : HangerCore → HangerCore) : Core :=
  { c with hangers := c.hangers.map (fun h => if h.tag = tag then f h else h) }

def addHanger (c : Core) (h : HangerCore) : Core := { c with hangers := c.hangers ++ [h] }

def dropHanger (c : Core) (tag : Nat) : Core := { c with hangers := c.hangers.filter (fun h => h.tag != tag) }

def modMove (c : Core) (id : Nat) (f : MoveCore → MoveCore) : Core :=
  { c with moves := c.moves.map (fun m => if m.id = id then f m else m) }

def addMove (c : Core) (m : MoveCore) : Core := { c with moves := c.moves ++ [m] }

def filterMoves (c : Core) (p : MoveCore → Bool) : Core := { c with moves := c.moves.filter p }

/-- R108, R139: a move goes, and with it the YIELD moves made for it that are not granted. -/
def removeMove (c : Core) (id : Nat) : Core :=
  c.filterMoves (fun m => m.id != id && !(m.yields && m.state == .ready && m.blocked == some id))

/-- The move of a hanger goes. -/
def removeMoveOf (c : Core) (tag : Nat) : Core :=
  match c.move? tag with
  | some m => c.removeMove m.id
  | none => c

def setSlot (c : Core) (r : SlotRef) (x : Slot) : Core := { c with slot := fun r' => if r' = r then x else c.slot r' }

def releaseAll (c : Core) (tag : Nat) : Core :=
  { c with slot := fun r => if (c.slot r).reservedFor tag = true then .free else c.slot r }

def setHold (c : Core) (g : GantryId) (x : Option StrandedHold) : Core :=
  { c with hold := fun g' => if g' = g then x else c.hold g' }

/-- R147: the stranded holds of a tag end. -/
def clearHold (c : Core) (tag : Nat) : Core := { c with hold := fun g => (c.hold g).filter (fun x => x.tag != tag) }

variable {c : Core}

/-! ### Look-ups after an operation -/

theorem hanger_modHanger {tag : Nat} {f : HangerCore → HangerCore} (hf : ∀ h, (f h).tag = h.tag) (t : Nat) :
    (c.modHanger tag f).hanger? t = if t = tag then (c.hanger? tag).map f else c.hanger? t := by
  have same : (fun h : HangerCore => h.tag == t) ∘ (fun h => if h.tag = tag then f h else h) = fun h => h.tag == t := by
    funext h
    show ((if h.tag = tag then f h else h).tag == t) = (h.tag == t)
    split
    · rw [hf]
    · rfl
  unfold hanger? modHanger
  rw [List.find?_map, same]
  split
  · rename_i e
    subst e
    refine Option.map_congr (fun h hh => if_pos ?_)
    simpa using List.find?_some (Option.mem_def.1 hh)
  · rename_i e
    refine (Option.map_congr (g := id) (fun h hh => if_neg ?_)).trans Option.map_id'
    have ht : h.tag = t := by simpa using List.find?_some (Option.mem_def.1 hh)
    rw [ht]; exact e

/-- The hanger whose record is changed. -/
theorem hanger_modHanger_self {tag : Nat} {f : HangerCore → HangerCore} {h : HangerCore} (hf : ∀ x, (f x).tag = x.tag)
    (hh : c.hanger? tag = some h) : (c.modHanger tag f).hanger? tag = some (f h) := by
  rw [hanger_modHanger hf, if_pos rfl, hh]; rfl

/-- After a release no slot is RESERVED for the tag. -/
theorem unreserved_releaseAll (c : Core) (tag : Nat) (r : SlotRef) (k : ReservationKind) :
    (c.releaseAll tag).slot r ≠ .reserved tag k := by
  show (if (c.slot r).reservedFor tag = true then Slot.free else c.slot r) ≠ _
  split
  · simp
  · rename_i hn
    exact fun e => hn (by rw [e]; simp [Slot.reservedFor])

theorem hanger_addHanger {h : HangerCore} (t : Nat) :
    (c.addHanger h).hanger? t = (c.hanger? t).or (if h.tag = t then some h else none) := by
  unfold hanger? addHanger
  rw [List.find?_append, List.find?_singleton]
  simp

theorem hanger_dropHanger (tag t : Nat) : (c.dropHanger tag).hanger? t = if t = tag then none else c.hanger? t := by
  unfold hanger? dropHanger
  rw [List.find?_filter]
  split
  · rename_i e
    subst e
    rw [List.find?_eq_none]
    intro h _
    simp
  · rename_i e
    congr 1
    funext h
    by_cases ht : h.tag = t
    · have : h.tag ≠ tag := by rw [ht]; exact e
      simp [ht, e]
    · simp [ht]

theorem move_addMove {m : MoveCore} (t : Nat) :
    (c.addMove m).move? t = (c.move? t).or (if m.tag = some t ∧ m.state ≠ .placed then some m else none) := by
  unfold move? addMove
  rw [List.find?_append, List.find?_singleton]
  simp

theorem Keyed.move_filterMoves (hk : c.Keyed) (p : MoveCore → Bool) (t : Nat) :
    (c.filterMoves p).move? t = (c.move? t).filter p := by
  cases hm : c.move? t with
  | none =>
    refine move_none.2 (fun m hmem ht => ?_)
    exact move_none.1 hm m (List.mem_of_mem_filter hmem) ht
  | some m =>
    rw [Option.filter_some]
    split
    · rename_i hp
      have hmem : m ∈ (c.filterMoves p).moves := List.mem_filter.2 ⟨move_mem hm, hp⟩
      cases hn : (c.filterMoves p).move? t with
      | none => exact absurd (move_none.1 hn m hmem (move_tag hm).1) (move_tag hm).2
      | some m' =>
        rw [hk.sole m' (List.mem_of_mem_filter (move_mem hn)) m (move_mem hm) t (move_tag hn).1 (move_tag hm).1 (move_tag hn).2
          (move_tag hm).2]
    · rename_i hp
      refine move_none.2 (fun m' hmem ht => ?_)
      by_contra hpl
      obtain ⟨hmem', hp'⟩ := List.mem_filter.1 hmem
      rw [hk.sole m' hmem' m (move_mem hm) t ht (move_tag hm).1 hpl (move_tag hm).2] at hp'
      exact hp hp'

/-- A change of one move that keeps its tag, seen from another tag. -/
theorem move_modMove_other {id : Nat} {f : MoveCore → MoveCore} {t : Nat}
    (hf : ∀ m ∈ c.moves, m.id = id → m.tag ≠ some t ∧ (f m).tag ≠ some t) : (c.modMove id f).move? t = c.move? t := by
  unfold move? modMove
  have key : ∀ l : List MoveCore, (∀ m ∈ l, m.id = id → m.tag ≠ some t ∧ (f m).tag ≠ some t) →
      (l.map (fun m => if m.id = id then f m else m)).find? (fun m => m.tag == some t && m.state != .placed)
        = l.find? (fun m => m.tag == some t && m.state != .placed) := by
    intro l
    induction l with
    | nil => exact fun _ => rfl
    | cons m l ih =>
      intro hl
      rw [List.map_cons, List.find?_cons, List.find?_cons, ih (fun x hx => hl x (List.mem_cons_of_mem _ hx))]
      by_cases e : m.id = id
      · obtain ⟨h1, h2⟩ := hl m List.mem_cons_self e
        have b1 : (m.tag == some t) = false := beq_eq_false_iff_ne.2 h1
        have b2 : ((f m).tag == some t) = false := beq_eq_false_iff_ne.2 h2
        simp [e, b1, b2]
      · simp [e]
  exact key _ hf

/-- A change of the move of a tag that leaves it its move. -/
theorem Keyed.move_modMove {m : MoveCore} {id : Nat} {f : MoveCore → MoveCore} {tag : Nat}
    (hk : (c.modMove id f).Keyed) (hm : m ∈ c.moves) (hid : m.id = id) (ht : (f m).tag = some tag) (hp : (f m).state ≠ .placed) :
    (c.modMove id f).move? tag = some (f m) := by
  refine hk.move_of_mem (List.mem_map.2 ⟨m, hm, ?_⟩) ht hp
  rw [if_pos hid]

/-- A change that places the move of a tag. -/
theorem Keyed.move_placed {m : MoveCore} {id : Nat} {f : MoveCore → MoveCore} {tag : Nat}
    (hk : c.Keyed) (hm : c.move? tag = some m) (hid : m.id = id)
    (hf : ∀ x ∈ c.moves, x.id = id → (f x).tag = x.tag ∧ (f x).state = .placed) :
    (c.modMove id f).move? tag = none := by
  refine move_none.2 (fun x hx ht => ?_)
  obtain ⟨y, hy, rfl⟩ := List.mem_map.1 hx
  by_cases e : y.id = id
  · rw [if_pos e]; exact (hf y hy e).2
  · rw [if_neg e] at ht ⊢
    by_contra hp
    have := hk.sole y hy m (move_mem hm) tag ht (move_tag hm).1 hp (move_tag hm).2
    exact e (by rw [this]; exact hid)

/-! ### Keyed after an operation -/

theorem Keyed.modHanger (hk : c.Keyed) (tag : Nat) {f : HangerCore → HangerCore} (hf : ∀ h, (f h).tag = h.tag) :
    (c.modHanger tag f).Keyed := by
  refine ⟨?_, hk.sole⟩
  have same : (c.modHanger tag f).hangers.map HangerCore.tag = c.hangers.map HangerCore.tag := by
    unfold Core.modHanger
    rw [List.map_map]
    refine List.map_congr_left (fun h _ => ?_)
    show (if h.tag = tag then f h else h).tag = h.tag
    split
    · exact hf h
    · rfl
  rw [same]; exact hk.tags

theorem Keyed.addHanger (hk : c.Keyed) {h : HangerCore} (hn : c.hanger? h.tag = none) : (c.addHanger h).Keyed := by
  refine ⟨?_, hk.sole⟩
  unfold Core.addHanger
  rw [List.map_append, List.nodup_append]
  refine ⟨hk.tags, by simp, ?_⟩
  intro a ha b hb e
  obtain ⟨x, hx, rfl⟩ := List.mem_map.1 ha
  rw [List.map_singleton, List.mem_singleton] at hb
  exact hanger_none.1 hn x hx (e.trans hb)

theorem Keyed.dropHanger (hk : c.Keyed) (tag : Nat) : (c.dropHanger tag).Keyed :=
  ⟨hk.tags.sublist (List.filter_sublist.map _), hk.sole⟩

theorem Keyed.setSlot (hk : c.Keyed) (r : SlotRef) (x : Slot) : (c.setSlot r x).Keyed := ⟨hk.tags, hk.sole⟩

theorem Keyed.releaseAll (hk : c.Keyed) (tag : Nat) : (c.releaseAll tag).Keyed := ⟨hk.tags, hk.sole⟩

theorem Keyed.setHold (hk : c.Keyed) (g : GantryId) (x : Option StrandedHold) : (c.setHold g x).Keyed := ⟨hk.tags, hk.sole⟩

theorem Keyed.clearHold (hk : c.Keyed) (tag : Nat) : (c.clearHold tag).Keyed := ⟨hk.tags, hk.sole⟩

theorem Keyed.filterMoves (hk : c.Keyed) (p : MoveCore → Bool) : (c.filterMoves p).Keyed :=
  ⟨hk.tags, fun m hm m' hm' => hk.sole m (List.mem_of_mem_filter hm) m' (List.mem_of_mem_filter hm')⟩

theorem Keyed.removeMoveOf (hk : c.Keyed) (tag : Nat) : (c.removeMoveOf tag).Keyed := by
  unfold Core.removeMoveOf
  split
  · exact hk.filterMoves _
  · exact hk

/-- A move added for a tag that has none. -/
theorem Keyed.addMove (hk : c.Keyed) {m : MoveCore} {tag : Nat} (ht : m.tag = some tag) (hn : c.move? tag = none) :
    (c.addMove m).Keyed := by
  refine ⟨hk.tags, ?_⟩
  intro x hx y hy t hxt hyt hxp hyp
  unfold Core.addMove at hx hy
  rw [List.mem_append, List.mem_singleton] at hx hy
  have absent : ∀ z ∈ c.moves, z.tag = some tag → z.state = .placed := move_none.1 hn
  rcases hx with hx | rfl <;> rcases hy with hy | rfl
  · exact hk.sole x hx y hy t hxt hyt hxp hyp
  · rw [ht] at hyt; cases hyt; exact absurd (absent x hx hxt) hxp
  · rw [ht] at hxt; cases hxt; exact absurd (absent y hy hyt) hyp
  · rfl

/-- A move added that carries no tag. -/
theorem Keyed.addMove_untagged (hk : c.Keyed) {m : MoveCore} (ht : m.tag = none) : (c.addMove m).Keyed := by
  refine ⟨hk.tags, ?_⟩
  intro x hx y hy t hxt hyt
  unfold Core.addMove at hx hy
  rw [List.mem_append, List.mem_singleton] at hx hy
  rcases hx with hx | rfl
  · rcases hy with hy | rfl
    · exact hk.sole x hx y hy t hxt hyt
    · rw [ht] at hyt; cases hyt
  · rw [ht] at hxt; cases hxt

/-- A change of the moves of an identifier that keeps their tags and places none again that was placed. -/
theorem Keyed.modMove (hk : c.Keyed) {id : Nat} {f : MoveCore → MoveCore}
    (hf : ∀ m ∈ c.moves, m.id = id → (f m).tag = m.tag ∧ (m.state = .placed → m.tag = none ∨ (f m).state = .placed)) :
    (c.modMove id f).Keyed := by
  refine ⟨hk.tags, ?_⟩
  have back : ∀ x ∈ c.moves, ∀ t, (if x.id = id then f x else x).tag = some t → (if x.id = id then f x else x).state ≠ .placed →
      x.tag = some t ∧ x.state ≠ .placed := by
    intro x hx t ht hp
    by_cases e : x.id = id
    · rw [if_pos e] at ht hp
      obtain ⟨h1, h2⟩ := hf x hx e
      rw [h1] at ht
      refine ⟨ht, fun hpl => ?_⟩
      rcases h2 hpl with h3 | h3
      · rw [h3] at ht; cases ht
      · exact hp h3
    · rw [if_neg e] at ht hp
      exact ⟨ht, hp⟩
  intro x hx y hy t hxt hyt hxp hyp
  obtain ⟨a, ha, rfl⟩ := List.mem_map.1 hx
  obtain ⟨b, hb, rfl⟩ := List.mem_map.1 hy
  obtain ⟨h1, h2⟩ := back a ha t hxt hxp
  obtain ⟨h3, h4⟩ := back b hb t hyt hyp
  rw [hk.sole a ha b hb t h1 h3 h2 h4]

/-! ### What one tag claims alone -/

/-- From `c` to `c'` only what names `tag` has changed. -/
structure OnlyTag (tag : Nat) (c c' : Core) : Prop where
  strict : c'.strict = c.strict
  slot : ∀ t, t ≠ tag → SameFor t c.slot c'.slot
  hold : ∀ g x, x.tag ≠ tag → (c'.hold g = some x ↔ c.hold g = some x)
  hanger : ∀ t, t ≠ tag → c'.hanger? t = c.hanger? t
  move : ∀ t, t ≠ tag → c'.move? t = c.move? t

/-- A change of what one tag claims keeps the agreement of the others. -/
theorem OnlyTag.agrees {tag : Nat} {c' : Core} (h : OnlyTag tag c c') (hc : c.Agrees)
    (own : TagAgrees c'.slot c'.strict c'.hold tag (c'.hanger? tag) (c'.move? tag)) : c'.Agrees := by
  intro t
  by_cases e : t = tag
  · rw [e]; exact own
  · rw [h.hanger t e, h.move t e, h.strict]
    exact (hc t).congr (h.slot t e) (fun g x hx => h.hold g x (by rw [hx]; exact e))

namespace OnlyTag

variable {tag : Nat} {c' c'' : Core}

theorem refl (tag : Nat) (c : Core) : OnlyTag tag c c :=
  ⟨rfl, fun _ _ _ _ => rfl, fun _ _ _ => Iff.rfl, fun _ _ => rfl, fun _ _ => rfl⟩

theorem trans (h : OnlyTag tag c c') (h' : OnlyTag tag c' c'') : OnlyTag tag c c'' := by
  refine ⟨h'.strict.trans h.strict, fun t ht r hr => ?_, fun g x hx => (h'.hold g x hx).trans (h.hold g x hx),
    fun t ht => (h'.hanger t ht).trans (h.hanger t ht), fun t ht => (h'.move t ht).trans (h.move t ht)⟩
  rcases hr with hr | hr
  · have e := h.slot t ht r (Or.inl hr)
    rw [← e] at hr ⊢
    exact h'.slot t ht r (Or.inl hr)
  · have e := h'.slot t ht r (Or.inr hr)
    rw [e] at hr ⊢
    exact h.slot t ht r (Or.inr hr)

theorem modHanger (h : OnlyTag tag c c') {f : HangerCore → HangerCore} (hf : ∀ x, (f x).tag = x.tag) :
    OnlyTag tag c (c'.modHanger tag f) :=
  h.trans ⟨rfl, fun _ _ _ _ => rfl, fun _ _ _ => Iff.rfl, fun t ht => by rw [hanger_modHanger hf, if_neg ht], fun _ _ => rfl⟩

theorem addHanger (h : OnlyTag tag c c') {x : HangerCore} (hx : x.tag = tag) : OnlyTag tag c (c'.addHanger x) :=
  h.trans ⟨rfl, fun _ _ _ _ => rfl, fun _ _ _ => Iff.rfl, fun t ht => by
    rw [hanger_addHanger, if_neg (fun e => ht (by rw [← e, hx])), Option.or_none], fun _ _ => rfl⟩

theorem dropHanger (h : OnlyTag tag c c') : OnlyTag tag c (c'.dropHanger tag) :=
  h.trans ⟨rfl, fun _ _ _ _ => rfl, fun _ _ _ => Iff.rfl, fun t ht => by rw [hanger_dropHanger, if_neg ht], fun _ _ => rfl⟩

theorem addMove (h : OnlyTag tag c c') {m : MoveCore} (hm : ∀ t, m.tag = some t → t = tag) : OnlyTag tag c (c'.addMove m) :=
  h.trans ⟨rfl, fun _ _ _ _ => rfl, fun _ _ _ => Iff.rfl, fun _ _ => rfl, fun t ht => by
    rw [move_addMove, if_neg (fun e => ht (hm t e.1)), Option.or_none]⟩

/-- Moves are dropped that no other tag has. -/
theorem filterMoves (h : OnlyTag tag c c') (hk : c'.Keyed) {p : MoveCore → Bool}
    (hp : ∀ m ∈ c'.moves, p m = false → ∀ t, m.tag = some t → m.state ≠ .placed → t = tag) :
    OnlyTag tag c (c'.filterMoves p) :=
  h.trans ⟨rfl, fun _ _ _ _ => rfl, fun _ _ _ => Iff.rfl, fun _ _ => rfl, fun t ht => by
    rw [hk.move_filterMoves]
    cases hm : c'.move? t with
    | none => rfl
    | some m =>
      rw [Option.filter_some, if_pos]
      by_contra hf
      exact ht (hp m (move_mem hm) (by simpa using hf) t (move_tag hm).1 (move_tag hm).2)⟩

theorem modMove (h : OnlyTag tag c c') {id : Nat} {f : MoveCore → MoveCore}
    (hf : ∀ m ∈ c'.moves, m.id = id → ∀ t, t ≠ tag → m.tag ≠ some t ∧ (f m).tag ≠ some t) : OnlyTag tag c (c'.modMove id f) :=
  h.trans ⟨rfl, fun _ _ _ _ => rfl, fun _ _ _ => Iff.rfl, fun _ _ => rfl, fun t ht =>
    move_modMove_other (fun m hm e => hf m hm e t ht)⟩

/-- A slot that names the tag alone is changed to one that does. -/
theorem setSlot (h : OnlyTag tag c c') {r : SlotRef} {x : Slot} (hx : ∀ t, t ≠ tag → x.names t = false)
    (hr : ∀ t, t ≠ tag → (c'.slot r).names t = false) : OnlyTag tag c (c'.setSlot r x) := by
  refine h.trans ⟨rfl, fun t ht r' hr' => ?_, fun _ _ _ => Iff.rfl, fun _ _ => rfl, fun _ _ => rfl⟩
  show (if r' = r then x else c'.slot r') = c'.slot r'
  have hr'' : (c'.slot r').names t = true ∨ (if r' = r then x else c'.slot r').names t = true := hr'
  split
  · rename_i e
    subst e
    rw [if_pos rfl, hx t ht, hr t ht] at hr''
    rcases hr'' with e | e <;> cases e
  · rfl

theorem releaseAll (h : OnlyTag tag c c') : OnlyTag tag c (c'.releaseAll tag) := by
  refine h.trans ⟨rfl, fun t ht r hr => ?_, fun _ _ _ => Iff.rfl, fun _ _ => rfl, fun _ _ => rfl⟩
  show (if (c'.slot r).reservedFor tag = true then .free else c'.slot r) = c'.slot r
  have hr' : (c'.slot r).names t = true ∨ (if (c'.slot r).reservedFor tag = true then Slot.free else c'.slot r).names t = true := hr
  split
  · rename_i e
    rw [if_pos e] at hr'
    obtain ⟨k, hk⟩ := (Slot.reservedFor_iff _ _).1 e
    rw [hk] at hr'
    rcases hr' with e' | e'
    · exact absurd (by simpa [Slot.names] using e') (Ne.symm ht)
    · cases e'
  · rfl

theorem setHold (h : OnlyTag tag c c') {g : GantryId} {x : Option StrandedHold} (hx : ∀ y, x = some y → y.tag = tag)
    (hg : ∀ y, c'.hold g = some y → y.tag = tag) : OnlyTag tag c (c'.setHold g x) := by
  refine h.trans ⟨rfl, fun _ _ _ _ => rfl, fun g' y hy => ?_, fun _ _ => rfl, fun _ _ => rfl⟩
  show (if g' = g then x else c'.hold g') = some y ↔ c'.hold g' = some y
  split
  · rename_i e
    subst e
    exact ⟨fun e => absurd (hx y e) hy, fun e => absurd (hg y e) hy⟩
  · rfl

theorem clearHold (h : OnlyTag tag c c') : OnlyTag tag c (c'.clearHold tag) := by
  refine h.trans ⟨rfl, fun _ _ _ _ => rfl, fun g y hy => ?_, fun _ _ => rfl, fun _ _ => rfl⟩
  show (c'.hold g).filter (fun x => x.tag != tag) = some y ↔ c'.hold g = some y
  rw [Option.filter_eq_some_iff]
  simp [hy]

end OnlyTag

end Core

end Sys2Proof.Machine
end

