-- ==== Sys2Proof/Proofs/SlotSettled.lean ====
section
/-! PROOFS. The changes that leave a hanger at rest in a slot with its claims in order: a lowering, an admission, a recovery, a
coming to rest and a return to service. What ends them, a next move or none, keeps the agreement of slots. -/

namespace Sys2Proof.Machine

namespace Core

variable {c c' : Core} {tag : Nat} {h : HangerCore}

/-! ### What the agreement says of one hanger -/

theorem Agrees.occupied_iff (hc : c.Agrees) (hh : c.hanger? tag = some h) (r : SlotRef) :
    c.slot r = .occupied tag ↔ h.location = .slot r := by
  constructor
  · intro e
    obtain ⟨x, hx, hl⟩ := (hc tag).occupied r e
    rw [hh] at hx; cases hx; exact hl
  · exact (hc tag).rests h r hh

theorem Agrees.forward_of_reserved (hc : c.Agrees) (hh : c.hanger? tag = some h) {r : SlotRef}
    (hr : c.slot r = .reserved tag .forward) : h.forward = some r := by
  obtain ⟨x, hx, hf⟩ := (hc tag).forward r hr
  rw [hh] at hx; cases hx; exact hf

/-- A slot kept for the arrival of a hanger that is on no stranded hold is the one its move leads to. -/
theorem Agrees.dest_of_reserved (hc : c.Agrees) (hn : ∀ g x, c.hold g = some x → x.tag ≠ tag) {r : SlotRef}
    (hr : c.slot r = .reserved tag .destination) : ∃ m, c.move? tag = some m ∧ m.dest = some (.slot r) := by
  obtain ⟨x, -, hm | ⟨g, -, hg⟩⟩ := (hc tag).destination r hr
  · exact hm
  · exact absurd rfl (hn g _ hg)

/-- A tag without a hanger is named by no slot. -/
theorem Agrees.unnamed (hc : c.Agrees) (hh : c.hanger? tag = none) (r : SlotRef) : (c.slot r).names tag = false := by
  by_contra hn
  cases e : c.slot r with
  | free => rw [e] at hn; exact hn rfl
  | blocked => rw [e] at hn; exact hn rfl
  | occupied t =>
    obtain rfl : t = tag := by simpa [e, Slot.names] using hn
    obtain ⟨x, hx, -⟩ := (hc t).occupied r e
    rw [hh] at hx; cases hx
  | reserved t k =>
    obtain rfl : t = tag := by simpa [e, Slot.names] using hn
    cases k with
    | forward =>
      obtain ⟨x, hx, -⟩ := (hc t).forward r e
      rw [hh] at hx; cases hx
    | destination =>
      obtain ⟨x, hx, -⟩ := (hc t).destination r e
      rw [hh] at hx; cases hx

theorem Firm.no_hold (hc : c.Firm) (hh : c.hanger? tag = some h) (hr : h.rank ≠ .stranded) (g : GantryId) (x : StrandedHold)
    (hx : c.hold g = some x) : x.tag ≠ tag := by
  rintro rfl
  obtain ⟨y, hy, hst⟩ := hc.stranded g x hx
  rw [hh] at hy; cases hy
  exact hr hst

theorem Firm.no_move (hc : c.Firm) (hh : c.hanger? tag = some h) (hr : h.rank ≠ .bearing) : c.move? tag = none := by
  cases hm : c.move? tag with
  | none => rfl
  | some m =>
    obtain ⟨y, hy, hb⟩ := hc.bearer m (move_mem hm) (move_tag hm).2 tag (move_tag hm).1
    rw [hh] at hy; cases hy
    exact absurd hb hr

theorem Firm.same_move (hc : c.Firm) {m x : MoveCore} (hm : m ∈ c.moves) (hx : x ∈ c.moves) (e : x.id = m.id) : x = m :=
  List.inj_on_of_nodup_map hc.ids hx hm e

theorem Firm.hanger_of_move (hc : c.Firm) {m : MoveCore} (hm : m ∈ c.moves) (ht : m.tag = some tag) (hs : m.state ≠ .placed) :
    ∃ x, c.hanger? tag = some x ∧ x.rank = .bearing ∧ c.move? tag = some m := by
  obtain ⟨x, hx, hb⟩ := hc.bearer m hm hs tag ht
  exact ⟨x, hx, hb, hc.move_of_mem hm ht hs⟩

/-! ### A hanger whose claims are in order -/

/-- The slots that name the tag are the place of its hanger and its forward reservation, and no stranded hold names it. -/
structure Idle (c : Core) (tag : Nat) (h : HangerCore) : Prop where
  hanger : c.hanger? tag = some h
  occupied : ∀ r, c.slot r = .occupied tag ↔ h.location = .slot r
  forward : ∀ r, c.slot r = .reserved tag .forward ↔ h.forward = some r
  destination : ∀ r, c.slot r ≠ .reserved tag .destination
  hold : ∀ g x, c.hold g = some x → x.tag ≠ tag

/-- A hanger whose claims are in order agrees, with no move or with one that is not granted and leads to the slot held forward. -/
theorem Idle.agrees (hi : c.Idle tag h) (hr : h.forward ≠ none → h.rank ≠ .resting)
    (hm : ∀ m, c.move? tag = some m → m.dest = h.forward.map Place.slot ∧ ¬ m.InWork) :
    TagAgrees c.slot c.strict c.hold tag (c.hanger? tag) (c.move? tag) where
  occupied r e := ⟨h, hi.hanger, (hi.occupied r).1 e⟩
  forward r e := ⟨h, hi.hanger, (hi.forward r).1 e⟩
  destination r e := absurd e (hi.destination r)
  rests x r hx e := by
    rw [hi.hanger] at hx; cases hx
    exact (hi.occupied r).2 e
  keeps x r hx e := by
    rw [hi.hanger] at hx; cases hx
    exact ⟨by simp [(hi.forward r).2 e, Slot.reservedFor], hr (by simp [e])⟩
  leads x m d hx hm' e := by
    rw [hi.hanger] at hx; cases hx
    obtain ⟨hd, hw⟩ := hm m hm'
    have hf : h.forward = some d := by
      rw [hd, Option.map_eq_some_iff] at e
      obtain ⟨r, hr, hrd⟩ := e
      cases hrd; exact hr
    exact ⟨by simp [(hi.forward d).2 hf, Slot.reservedFor], fun w => absurd w hw⟩
  feeds x m r hx hm' e := by
    rw [hi.hanger] at hx; cases hx
    exact Or.inl (by rw [(hm m hm').1, e]; rfl)
  held g x e ht := absurd ht (hi.hold g x e)

/-- From `c` to `c'` only what names the tag has changed, and its hanger is left with its claims in order and no move. -/
structure Settled (c c' : Core) (tag : Nat) (h : HangerCore) : Prop where
  only : OnlyTag tag c c'
  keyed : c'.Keyed
  idle : c'.Idle tag h
  moveless : c'.move? tag = none

/-! ### How a hanger comes to rest in a slot -/

/-- R35: an ABORTED or DONE hanger is settled as it stands, with nothing reserved. -/
theorem Firm.settled_of_resting (hc : c.Firm) (hh : c.hanger? tag = some h) (hr : h.rank = .resting) :
    Settled c c tag h ∧ h.forward = none := by
  have none : h.forward = none := by
    by_contra hf
    obtain ⟨r, hr'⟩ := Option.ne_none_iff_exists'.1 hf
    exact ((hc.agrees tag).keeps h r hh hr').2 hr
  have moveless := hc.no_move hh (by rw [hr]; decide)
  have unheld := hc.no_hold hh (by rw [hr]; decide)
  refine ⟨⟨OnlyTag.refl _ _, hc.toKeyed, ⟨hh, hc.agrees.occupied_iff hh, fun r => ?_, fun r e => ?_, unheld⟩, moveless⟩, none⟩
  · exact ⟨hc.agrees.forward_of_reserved hh, fun e => by rw [none] at e; cases e⟩
  · obtain ⟨m, hm, -⟩ := hc.agrees.dest_of_reserved unheld e
    rw [moveless] at hm; cases hm

/-- R142, steps 1 to 3 and 5: the hanger of a carried move is in the slot it led to, and keeps a forward reservation where `keep`
says so. -/
def land (c : Core) (tag id : Nat) (r : SlotRef) (keep : Bool) : Core :=
  ((c.setSlot r (.occupied tag)).modHanger tag (fun h =>
    { h with location := .slot r, forward := if keep then h.forward else none })).modMove id (fun m => { m with state := .placed })

theorem Firm.settled_land (hc : c.Firm) {m : MoveCore} {r : SlotRef} {keep : Bool} (hm : m ∈ c.moves) (ht : m.tag = some tag)
    (hs : m.state = .carried) (hd : m.dest = some (.slot r)) (hkeep : keep = true ↔ c.strict r.station) :
    ∃ x, Settled c (c.land tag m.id r keep) tag x ∧ x.location = .slot r ∧ x.rank = .bearing
      ∧ (x.forward ≠ none → keep = true) := by
  obtain ⟨h, hh, hb, hmv⟩ := hc.hanger_of_move hm ht (by rw [hs]; decide)
  have unheld := hc.no_hold hh (by rw [hb]; decide)
  have away : ∀ q, h.location ≠ .slot q := hc.carries m hm hs tag ht h hh
  obtain ⟨-, work⟩ := (hc.agrees tag).leads h m r hh hmv hd
  obtain ⟨reserved, ahead⟩ := work (Or.inr (Or.inl hs))
  have arrival : ∀ q, c.slot q = .reserved tag .destination → q = r := by
    intro q hq
    obtain ⟨n, hn, hnd⟩ := hc.agrees.dest_of_reserved unheld hq
    rw [hmv] at hn; cases hn
    rw [hd] at hnd; cases hnd; rfl
  have same : ∀ x ∈ c.moves, x.id = m.id → x = m := fun x hx e => hc.same_move hm hx e
  have named : ∀ t, t ≠ tag → (c.slot r).names t = false := fun t ht' => by simp [reserved, Slot.names, Ne.symm ht']
  refine ⟨{ h with location := .slot r, forward := if keep then h.forward else none },
    ⟨?_, ?_, ⟨?_, fun q => ?_, fun q => ?_, fun q => ?_, unheld⟩, ?_⟩, rfl, hb, fun e => by_contra fun hn => e (if_neg hn)⟩
  · refine (((OnlyTag.refl tag c).setSlot (fun t ht' => ?_) named).modHanger ?_).modMove (fun x hx e t ht' => ?_)
    · simp [Slot.names, Ne.symm ht']
    · exact fun _ => rfl
    · rw [same x hx e]
      exact ⟨by simp [ht, Ne.symm ht'], by simp [ht, Ne.symm ht']⟩
  · refine Keyed.modMove ?_ (fun x hx e => ⟨rfl, fun _ => Or.inr rfl⟩)
    exact (hc.toKeyed.setSlot r _).modHanger tag (fun _ => rfl)
  · exact hanger_modHanger_self (c := c.setSlot r (.occupied tag)) (by exact fun _ => rfl) hh
  · show (if q = r then Slot.occupied tag else c.slot q) = .occupied tag ↔ Location.slot r = .slot q
    split
    · rename_i e; subst e; simp
    · rename_i e
      rw [hc.agrees.occupied_iff hh]
      exact ⟨fun e' => absurd e' (away q), fun e' => by cases e'; exact absurd rfl e⟩
  · show (if q = r then Slot.occupied tag else c.slot q) = .reserved tag .forward ↔ (if keep then h.forward else none) = some q
    split
    · rename_i e
      subst e
      refine ⟨(by intro e; cases e), fun e => ?_⟩
      split at e
      · rename_i hk
        exact absurd rfl ((ahead q e).1 (hkeep.1 hk))
      · cases e
    · rename_i e
      constructor
      · intro e'
        have hf := hc.agrees.forward_of_reserved hh e'
        rw [if_pos (hkeep.2 ((ahead q hf).2 e)), hf]
      · intro e'
        split at e'
        · obtain ⟨k, hk⟩ := (Slot.reservedFor_iff _ _).1 ((hc.agrees tag).keeps h q hh e').1
          cases k with
          | forward => exact hk
          | destination => exact absurd (arrival q hk) e
        · cases e'
  · show (if q = r then Slot.occupied tag else c.slot q) ≠ .reserved tag .destination
    split
    · simp
    · rename_i e
      exact fun e' => e (arrival q e')
  · exact hc.move_placed hmv rfl (fun x _ _ => ⟨rfl, rfl⟩)

/-- R55: the stranded hanger stands in a slot, its reservations and its hold at an end. -/
def recovered (c : Core) (tag : Nat) (r : SlotRef) : Core :=
  (((c.setSlot r (.occupied tag)).releaseAll tag).modHanger tag (fun h =>
    { h with location := .slot r, forward := none, rank := .resting })).clearHold tag

theorem Firm.settled_recovered (hc : c.Firm) {r : SlotRef} (hh : c.hanger? tag = some h) (hr : h.rank = .stranded)
    (hf : c.slot r = .free ∨ (c.slot r).reservedFor tag = true) :
    Settled c (c.recovered tag r) tag { h with location := .slot r, forward := none, rank := .resting } := by
  have away : ∀ q, h.location ≠ .slot q := hc.rides h (hanger_mem hh) hr
  have named : ∀ t, t ≠ tag → (c.slot r).names t = false := by
    intro t ht
    rcases hf with hf | hf
    · rw [hf]; rfl
    · obtain ⟨k, hk⟩ := (Slot.reservedFor_iff _ _).1 hf
      simp [hk, Slot.names, Ne.symm ht]
  have slot : ∀ q, (c.recovered tag r).slot q
      = if q = r then .occupied tag else if (c.slot q).reservedFor tag = true then .free else c.slot q := by
    intro q
    show (if (if q = r then Slot.occupied tag else c.slot q).reservedFor tag = true then Slot.free
      else if q = r then Slot.occupied tag else c.slot q) = _
    by_cases e : q = r
    · simp [e, Slot.reservedFor]
    · simp only [if_neg e]
  have unreserved : ∀ q k, (c.recovered tag r).slot q ≠ .reserved tag k := unreserved_releaseAll (c.setSlot r (.occupied tag)) tag
  refine ⟨?_, ?_, ⟨?_, fun q => ?_, fun q => ?_, fun q => unreserved q _, fun g x hx => ?_⟩, hc.no_move hh (by rw [hr]; decide)⟩
  · refine ((((OnlyTag.refl tag c).setSlot (x := .occupied tag) (fun t ht => ?_) named).releaseAll).modHanger ?_).clearHold
    · simp [Slot.names, Ne.symm ht]
    · exact fun _ => rfl
  · refine (((hc.toKeyed.setSlot r _).releaseAll tag).modHanger tag ?_).clearHold tag
    exact fun _ => rfl
  · exact hanger_modHanger_self (c := (c.setSlot r (.occupied tag)).releaseAll tag) (by exact fun _ => rfl) hh
  · rw [slot]
    split
    · rename_i e; subst e; simp
    · rename_i e
      refine ⟨fun e' => ?_, fun e' => by cases e'; exact absurd rfl e⟩
      split at e'
      · cases e'
      · exact absurd ((hc.agrees.occupied_iff hh q).1 e') (away q)
  · exact ⟨fun e => absurd e (unreserved q _), fun e => by cases e⟩
  · have hx' : (c.hold g).filter (fun x => x.tag != tag) = some x := hx
    rw [Option.filter_eq_some_iff] at hx'
    simpa using hx'.2

/-- R43: a new hanger stands in a free slot. -/
theorem Firm.settled_admitted (hc : c.Firm) {r : SlotRef} (hh : c.hanger? h.tag = none) (hf : c.slot r = .free)
    (hl : h.location = .slot r) (hn : h.forward = none) :
    Settled c ((c.setSlot r (.occupied h.tag)).addHanger h) h.tag h := by
  have unnamed := hc.agrees.unnamed hh
  have slot : ∀ q, ((c.setSlot r (.occupied h.tag)).addHanger h).slot q = if q = r then .occupied h.tag else c.slot q :=
    fun q => rfl
  have unreserved : ∀ q k, ((c.setSlot r (.occupied h.tag)).addHanger h).slot q ≠ .reserved h.tag k := by
    intro q k e
    rw [slot] at e
    split at e
    · cases e
    · have := unnamed q
      rw [e] at this
      simp [Slot.names] at this
  refine ⟨?_, ?_, ⟨?_, fun q => ?_, fun q => ?_, fun q => unreserved q _, fun g x hx e => ?_⟩, ?_⟩
  · exact ((OnlyTag.refl h.tag c).setSlot (fun t ht => by simp [Slot.names, Ne.symm ht]) (fun t _ => by rw [hf]; rfl)).addHanger rfl
  · exact (hc.toKeyed.setSlot r _).addHanger hh
  · rw [hanger_addHanger, if_pos rfl]
    show (c.hanger? h.tag).or _ = _
    rw [hh]; rfl
  · rw [slot, hl]
    split
    · rename_i e; subst e; simp
    · rename_i e
      refine ⟨fun e' => ?_, fun e' => by cases e'; exact absurd rfl e⟩
      have := unnamed q
      rw [e'] at this
      simp [Slot.names] at this
  · exact ⟨fun e => absurd e (unreserved q _), fun e => by rw [hn] at e; cases e⟩
  · have := unnamed x.dest
    rw [(hc.agrees h.tag).held g x hx e] at this
    simp [Slot.names] at this
  · show c.move? h.tag = none
    refine move_none.2 (fun m hm ht => ?_)
    by_contra hp
    obtain ⟨y, hy, -⟩ := hc.bearer m hm hp h.tag ht
    rw [hh] at hy; cases hy

/-! ### What follows at rest -/

namespace Settled

variable {x : HangerCore}

/-- A change of the hanger that keeps its place and its forward reservation. -/
theorem modHanger (hs : Settled c c' tag x) {f : HangerCore → HangerCore} (hf : ∀ y, (f y).tag = y.tag)
    (hl : (f x).location = x.location) (hw : (f x).forward = x.forward) : Settled c (c'.modHanger tag f) tag (f x) := by
  refine ⟨hs.only.modHanger hf, hs.keyed.modHanger tag hf,
    ⟨?_, fun r => ?_, fun r => ?_, hs.idle.destination, hs.idle.hold⟩, hs.moveless⟩
  · exact hanger_modHanger_self hf hs.idle.hanger
  · rw [hl]; exact hs.idle.occupied r
  · rw [hw]; exact hs.idle.forward r

/-- The reservations of a hanger with no move and no hold are released, and it keeps its place. -/
theorem of_released (ho : OnlyTag tag c c') (hk : c'.Keyed) (hh : c'.hanger? tag = some x)
    (hocc : ∀ r, c'.slot r = .occupied tag ↔ x.location = .slot r) (hold : ∀ g y, c'.hold g = some y → y.tag ≠ tag)
    (hm : c'.move? tag = none) {f : HangerCore → HangerCore} (hf : ∀ y, (f y).tag = y.tag) (hl : (f x).location = x.location)
    (hw : (f x).forward = none) : Settled c ((c'.releaseAll tag).modHanger tag f) tag (f x) := by
  have slot : ∀ r, ((c'.releaseAll tag).modHanger tag f).slot r = if (c'.slot r).reservedFor tag = true then .free else c'.slot r :=
    fun r => rfl
  have unreserved : ∀ r k, ((c'.releaseAll tag).modHanger tag f).slot r ≠ .reserved tag k := unreserved_releaseAll c' tag
  refine ⟨ho.releaseAll.modHanger hf, (hk.releaseAll tag).modHanger tag hf,
    ⟨?_, fun r => ?_, fun r => ?_, fun r => unreserved r _, hold⟩, hm⟩
  · exact hanger_modHanger_self (c := c'.releaseAll tag) hf hh
  · rw [slot, hl, ← hocc r]
    split
    · rename_i e
      obtain ⟨k, hk⟩ := (Slot.reservedFor_iff _ _).1 e
      simp [hk]
    · rfl
  · exact ⟨fun e => absurd e (unreserved r _), fun e => by rw [hw] at e; cases e⟩

/-- A settled hanger gives up its reservations. -/
theorem release (hs : Settled c c' tag x) {f : HangerCore → HangerCore} (hf : ∀ y, (f y).tag = y.tag)
    (hl : (f x).location = x.location) (hw : (f x).forward = none) : Settled c ((c'.releaseAll tag).modHanger tag f) tag (f x) :=
  of_released hs.only hs.keyed hs.idle.hanger hs.idle.occupied hs.idle.hold hs.moveless hf hl hw

/-- R53: a free slot is reserved forward for a hanger that holds none. -/
theorem reserve (hs : Settled c c' tag x) {f : SlotRef} (hf : c'.slot f = .free) (hn : x.forward = none) :
    Settled c ((c'.setSlot f (.reserved tag .forward)).modHanger tag (fun y => { y with forward := some f })) tag
      { x with forward := some f } := by
  have slot : ∀ r, ((c'.setSlot f (.reserved tag .forward)).modHanger tag (fun y => { y with forward := some f })).slot r
      = if r = f then .reserved tag .forward else c'.slot r := fun r => rfl
  refine ⟨?_, (hs.keyed.setSlot f _).modHanger tag (fun _ => rfl),
    ⟨?_, fun r => ?_, fun r => ?_, fun r => ?_, hs.idle.hold⟩, hs.moveless⟩
  · exact (hs.only.setSlot (fun t ht => by simp [Slot.names, Ne.symm ht]) (fun t _ => by rw [hf]; rfl)).modHanger (fun _ => rfl)
  · exact hanger_modHanger_self (c := c'.setSlot f (.reserved tag .forward)) (by exact fun _ => rfl) hs.idle.hanger
  · rw [slot, ← hs.idle.occupied r]
    split
    · rename_i e; subst e; simp [hf]
    · rfl
  · rw [slot]
    show _ ↔ some f = some r
    split
    · rename_i e; subst e; simp
    · rename_i e
      rw [hs.idle.forward r, hn]
      exact ⟨fun e' => (by cases e'), fun e' => (by cases e'; exact absurd rfl e)⟩
  · rw [slot]
    split
    · simp
    · exact hs.idle.destination r

/-- A settled hanger keeps the agreement with no move. -/
theorem sound (hs : Settled c c' tag x) (hc : c.Sound) (hr : x.forward ≠ none → x.rank ≠ .resting) : c'.Sound :=
  { hs.keyed with agrees := hs.only.agrees hc.agrees (hs.idle.agrees hr (fun m hm => by rw [hs.moveless] at hm; cases hm)) }

/-- A settled hanger keeps the agreement with a next move that leads to the slot it holds forward. -/
theorem addMove_sound (hs : Settled c c' tag x) (hc : c.Sound) (hr : x.rank ≠ .resting) {m : MoveCore} (ht : m.tag = some tag)
    (hd : m.dest = x.forward.map Place.slot) (hw : ¬ m.InWork) : (c'.addMove m).Sound := by
  have idle : (c'.addMove m).Idle tag x := ⟨hs.idle.hanger, hs.idle.occupied, hs.idle.forward, hs.idle.destination, hs.idle.hold⟩
  refine { hs.keyed.addMove ht hs.moveless with
    agrees := (hs.only.addMove (fun t e => ?_)).agrees hc.agrees (idle.agrees (fun _ => hr) (fun n hn => ?_)) }
  · rw [ht] at e; cases e; rfl
  · rw [move_addMove, hs.moveless, Option.none_or] at hn
    split at hn
    · cases hn; exact ⟨hd, hw⟩
    · cases hn

end Settled

end Core

end Sys2Proof.Machine
end

