-- ==== Sys2Proof/Proofs/SlotEvents.lean ====
section
/-! PROOFS. The other events of the slot map on the core: YIELD moves made and taken, a blocking, a lifting, a withdrawal and a
grant. -/

namespace Sys2Proof.Machine

namespace Core

variable {c c' : Core} {tag : Nat} {h : HangerCore}

/-! ### Moves that no hanger has -/

theorem Keyed.move_prune (hk : c.Keyed) {p : MoveCore → Bool} (hp : ∀ m ∈ c.moves, p m = false → m.tag = none ∨ m.state = .placed)
    (t : Nat) : (c.filterMoves p).move? t = c.move? t := by
  rw [hk.move_filterMoves]
  cases hm : c.move? t with
  | none => rfl
  | some m =>
    rw [Option.filter_some, if_pos]
    by_contra hf
    rcases hp m (move_mem hm) (by simpa using hf) with e | e
    · rw [(move_tag hm).1] at e; cases e
    · exact (move_tag hm).2 e

/-- R108, R139: YIELD moves and placed moves go. -/
theorem Sound.prune (hc : c.Sound) {p : MoveCore → Bool} (hp : ∀ m ∈ c.moves, p m = false → m.tag = none ∨ m.state = .placed) :
    (c.filterMoves p).Sound :=
  { hc.filterMoves p with agrees := fun t => by rw [hc.move_prune hp]; exact hc.agrees t }

/-- R138: a YIELD move is made. -/
theorem Sound.addMove_untagged (hc : c.Sound) {m : MoveCore} (ht : m.tag = none) : (c.addMove m).Sound := by
  refine { Keyed.addMove_untagged hc.toKeyed ht with agrees := fun t => ?_ }
  rw [move_addMove, if_neg (by simp [ht]), Option.or_none]
  exact hc.agrees t

/-- R139: a YIELD move is granted. -/
theorem Sound.modMove_untagged (hc : c.Sound) {id : Nat} {f : MoveCore → MoveCore}
    (hf : ∀ m ∈ c.moves, m.id = id → m.tag = none ∧ (f m).tag = none) : (c.modMove id f).Sound := by
  have keyed : (c.modMove id f).Keyed :=
    Keyed.modMove hc.toKeyed (fun m hm e => ⟨(hf m hm e).2.trans (hf m hm e).1.symm, fun _ => Or.inl (hf m hm e).1⟩)
  refine { keyed with agrees := fun t => ?_ }
  have other : (c.modMove id f).move? t = c.move? t :=
    move_modMove_other (fun m hm e => by obtain ⟨h1, h2⟩ := hf m hm e; simp [h1, h2])
  rw [other]
  exact hc.agrees t

/-- R12, R13: a slot that names no hanger is changed to one that names none. -/
theorem Sound.setSlot (hc : c.Sound) {r : SlotRef} {x : Slot} (hr : ∀ t, (c.slot r).names t = false) (hx : ∀ t, x.names t = false) :
    (c.setSlot r x).Sound := by
  refine { hc.toKeyed.setSlot r x with agrees := fun t => (hc.agrees t).congr (fun q hq => ?_) (fun _ _ _ => Iff.rfl) }
  show (if q = r then x else c.slot q) = c.slot q
  have hq' : (c.slot q).names t = true ∨ (if q = r then x else c.slot q).names t = true := hq
  split
  · rename_i e
    subst e
    rw [if_pos rfl, hr t, hx t] at hq'
    rcases hq' with e | e <;> cases e
  · rfl

/-- A map that names no hanger agrees with an empty table and no hold, when no move bears a hanger. -/
theorem Sound.vacant (hh : c.hangers = []) (hm : ∀ t, c.move? t = none) (hs : ∀ r t, (c.slot r).names t = false)
    (hg : ∀ g, c.hold g = none) : c.Sound := by
  have unreserved : ∀ r t k, c.slot r ≠ .reserved t k := by
    intro r t k e
    have := hs r t
    simp [e, Slot.names] at this
  have gone : ∀ t, c.hanger? t = none := fun t => hanger_none.2 (by simp [hh])
  refine { tags := by simp [hh], sole := fun m hm' m' _ t ht _ hp _ => absurd (move_none.1 (hm t) m hm' ht) hp, agrees := fun t => ?_ }
  rw [gone t, hm t]
  exact { occupied := fun r e => by have := hs r t; simp [e, Slot.names] at this
          forward := fun r e => absurd e (unreserved r t _)
          destination := fun r e => absurd e (unreserved r t _)
          rests := fun _ _ e => by cases e
          keeps := fun _ _ e => by cases e
          leads := fun _ _ _ e => by cases e
          feeds := fun _ _ _ e => by cases e
          held := fun g x e => by rw [hg g] at e; cases e }

/-! ### LIFTED and UNLOADED -/

/-- R141: the hanger leaves its slot for the gantry. -/
def lift (c : Core) (tag id : Nat) (r : SlotRef) (g : GantryId) : Core :=
  ((c.setSlot r .free).modHanger tag (fun h => { h with location := .gantry g, rank := .bearing })).modMove id (fun m =>
    { m with state := .carried })

theorem Firm.lift (hc : c.Firm) {m : MoveCore} {r : SlotRef} (g : GantryId) (hm : m ∈ c.moves) (ht : m.tag = some tag)
    (hs : m.state = .granted) (hr : c.slot r = .occupied tag) : (c.lift tag m.id r g).Sound := by
  obtain ⟨h, hh, hb, hmv⟩ := hc.hanger_of_move hm ht (by rw [hs]; decide)
  have unheld := hc.no_hold hh (by rw [hb]; decide)
  have own := hc.agrees tag
  have at_r : h.location = .slot r := (hc.agrees.occupied_iff hh r).1 hr
  have same : ∀ x ∈ c.moves, x.id = m.id → x = m := fun x hx e => hc.same_move hm hx e
  have keyed : (c.lift tag m.id r g).Keyed := by
    refine Keyed.modMove ((hc.toKeyed.setSlot r _).modHanger tag ?_) (fun x hx e => ⟨rfl, fun e' => ?_⟩)
    · exact fun _ => rfl
    · rw [same x hx e, hs] at e'; cases e'
  have only : OnlyTag tag c (c.lift tag m.id r g) := by
    refine (((OnlyTag.refl tag c).setSlot (x := .free) (fun _ _ => rfl) (fun t ht' => ?_)).modHanger ?_).modMove
      (fun x hx e t ht' => ?_)
    · simp [hr, Slot.names, Ne.symm ht']
    · exact fun _ => rfl
    · rw [same x hx e]
      exact ⟨by simp [ht, Ne.symm ht'], by simp [ht, Ne.symm ht']⟩
  have hanger : (c.lift tag m.id r g).hanger? tag = some { h with location := .gantry g, rank := .bearing } :=
    hanger_modHanger_self (c := c.setSlot r .free) (by exact fun _ => rfl) hh
  have move : (c.lift tag m.id r g).move? tag = some { m with state := .carried } :=
    keyed.move_modMove (c := (c.setSlot r .free).modHanger tag _) hm rfl ht (by simp)
  have slot : ∀ q x, x ≠ .free → ((c.lift tag m.id r g).slot q = x ↔ c.slot q = x ∧ q ≠ r) := by
    intro q x hx
    show (if q = r then Slot.free else c.slot q) = x ↔ _
    split
    · rename_i e; exact ⟨fun e' => absurd e'.symm hx, fun e' => absurd e e'.2⟩
    · rename_i e; exact ⟨fun e' => ⟨e', e⟩, fun e' => e'.1⟩
  have reserved : ∀ q, (c.slot q).reservedFor tag = true → (c.lift tag m.id r g).slot q = c.slot q := by
    intro q hq
    obtain ⟨k, hk⟩ := (Slot.reservedFor_iff _ _).1 hq
    rw [hk]
    exact (slot q _ (by simp)).2 ⟨hk, fun e => by rw [e, hr] at hk; cases hk⟩
  refine { keyed with agrees := only.agrees hc.agrees ?_ }
  rw [hanger, move]
  refine ⟨fun q e => ?_, fun q e => ?_, fun q e => ?_, fun x q e e' => ?_, fun x q e e' => ?_, fun x n d e e' ed => ?_,
    fun x n q e e' ef => ?_, fun g' x e e' => absurd e' (unheld g' x e)⟩
  · obtain ⟨e1, e2⟩ := (slot q _ (by simp)).1 e
    rw [hc.agrees.occupied_iff hh, at_r] at e1
    cases e1; exact absurd rfl e2
  · exact ⟨_, rfl, hc.agrees.forward_of_reserved hh ((slot q _ (by simp)).1 e).1⟩
  · obtain ⟨n, hn, hd⟩ := hc.agrees.dest_of_reserved unheld ((slot q _ (by simp)).1 e).1
    rw [hmv] at hn; cases hn
    exact ⟨_, rfl, Or.inl ⟨_, rfl, hd⟩⟩
  · cases e; cases e'
  · cases e
    obtain ⟨h1, -⟩ := own.keeps h q hh e'
    exact ⟨by rw [reserved q h1]; exact h1, (by decide : Rank.bearing ≠ Rank.resting)⟩
  · cases e; cases e'
    obtain ⟨h1, h2⟩ := own.leads h m d hh hmv ed
    rw [reserved d h1]
    exact ⟨h1, fun _ => h2 (Or.inl hs)⟩
  · cases e; cases e'
    exact own.feeds h m q hh hmv ef

/-- R56: the record of a hanger, its slot, its move and its reservations go. -/
def withdraw (c : Core) (tag : Nat) (r : SlotRef) : Core := (((c.setSlot r .free).removeMoveOf tag).releaseAll tag).dropHanger tag

/-- The moves that are not the hanger's stay. -/
theorem Firm.only_removeMove (hc : c.Firm) {m : MoveCore} (hm : m ∈ c.moves) (ht : m.tag = some tag) :
    OnlyTag tag c (c.removeMove m.id) := by
  refine (OnlyTag.refl tag c).filterMoves hc.toKeyed (fun x hx hp t hxt _ => ?_)
  have hp' : x.id = m.id ∨ x.yields = true := by
    by_contra hn
    rw [not_or] at hn
    simp [hn.1, hn.2] at hp
  rcases hp' with e | e
  · rw [hc.same_move hm hx e, ht] at hxt
    cases hxt; rfl
  · rw [(hc.plain x hx).1 e] at hxt; cases hxt

theorem move_removeMove (hk : c.Keyed) {m : MoveCore} (hm : c.move? tag = some m) : (c.removeMove m.id).move? tag = none := by
  unfold removeMove
  rw [hk.move_filterMoves, hm, Option.filter_some, if_neg]
  simp

theorem Firm.only_removeMoveOf (hc : c.Firm) (tag : Nat) : OnlyTag tag c (c.removeMoveOf tag) := by
  unfold removeMoveOf
  split
  · rename_i m hm; exact hc.only_removeMove (move_mem hm) (move_tag hm).1
  · exact OnlyTag.refl tag c

theorem Firm.move_removeMoveOf (hc : c.Firm) (tag : Nat) : (c.removeMoveOf tag).move? tag = none := by
  unfold removeMoveOf
  split
  · rename_i m hm; exact move_removeMove hc.toKeyed hm
  · assumption

/-- A removal changes the moves alone. -/
theorem removeMoveOf_eq (c : Core) (tag : Nat) : ∃ p, c.removeMoveOf tag = c.filterMoves p := by
  unfold removeMoveOf
  split
  · exact ⟨_, rfl⟩
  · exact ⟨fun _ => true, by unfold filterMoves; simp⟩

theorem removeMoveOf_setSlot (c : Core) (tag : Nat) (r : SlotRef) (x : Slot) :
    (c.setSlot r x).removeMoveOf tag = (c.removeMoveOf tag).setSlot r x := by
  unfold removeMoveOf
  have e : (c.setSlot r x).move? tag = c.move? tag := rfl
  rw [e]
  cases c.move? tag <;> rfl

theorem Firm.withdraw (hc : c.Firm) {r : SlotRef} (hh : c.hanger? tag = some h) (hn : h.rank ≠ .stranded)
    (hr : c.slot r = .occupied tag) : (c.withdraw tag r).Sound := by
  obtain ⟨p, hp⟩ := removeMoveOf_eq c tag
  have unheld := hc.no_hold hh hn
  have removed := hc.only_removeMoveOf tag
  have unmoved := hc.move_removeMoveOf tag
  rw [hp] at removed unmoved
  have e : c.withdraw tag r = (((c.filterMoves p).setSlot r .free).releaseAll tag).dropHanger tag := by
    unfold Core.withdraw
    rw [removeMoveOf_setSlot, hp]
  rw [e]
  have only : OnlyTag tag c ((((c.filterMoves p).setSlot r .free).releaseAll tag).dropHanger tag) := by
    refine ((removed.setSlot (fun _ _ => rfl) (fun t ht => ?_)).releaseAll).dropHanger
    show (c.slot r).names t = false
    simp [hr, Slot.names, Ne.symm ht]
  have slot : ∀ q, ((((c.filterMoves p).setSlot r .free).releaseAll tag).dropHanger tag).slot q
      = if q = r ∨ (c.slot q).reservedFor tag = true then .free else c.slot q := by
    intro q
    show (if (if q = r then Slot.free else c.slot q).reservedFor tag = true then Slot.free
      else if q = r then Slot.free else c.slot q) = _
    by_cases e : q = r <;> simp [e, Slot.reservedFor]
  have unreserved : ∀ q k, ((((c.filterMoves p).setSlot r .free).releaseAll tag).dropHanger tag).slot q ≠ .reserved tag k :=
    unreserved_releaseAll ((c.filterMoves p).setSlot r .free) tag
  have gone : ((((c.filterMoves p).setSlot r .free).releaseAll tag).dropHanger tag).hanger? tag = none := by
    rw [hanger_dropHanger, if_pos rfl]
  have moveless : ((((c.filterMoves p).setSlot r .free).releaseAll tag).dropHanger tag).move? tag = none := unmoved
  refine { (((hc.filterMoves p).setSlot r _).releaseAll tag).dropHanger tag with agrees := only.agrees hc.agrees ?_ }
  rw [gone, moveless]
  refine ⟨fun q e' => ?_, fun q e' => absurd e' (unreserved q _), fun q e' => absurd e' (unreserved q _), (by intro x q e'; cases e'),
    (by intro x q e'; cases e'), (by intro x n d e'; cases e'), (by intro x n q e'; cases e'), fun g x e' ht => absurd ht (unheld g x e')⟩
  rw [slot] at e'
  split at e'
  · cases e'
  · rename_i hq
    rw [hc.agrees.occupied_iff hh, (hc.agrees.occupied_iff hh r).1 hr] at e'
    cases e'; exact absurd (Or.inl rfl) hq

/-! ### CLAIM -/

/-- R123, Slots: the route of a grant is reserved. -/
def reserveRoute (c : Core) (tag : Nat) (d : SlotRef) (f : Option SlotRef) : Core :=
  match f with
  | some f => (c.setSlot d (.reserved tag .destination)).setSlot f (.reserved tag .forward)
  | none => c.setSlot d (.reserved tag .destination)

/-- R123: the grant of a hanger move. -/
def grant (c : Core) (tag id : Nat) (g : GantryId) (d : SlotRef) (f : Option SlotRef) : Core :=
  ((c.reserveRoute tag d f).modMove id (fun m =>
    { m with dest := some (.slot d), state := .granted, gantry := some g, limited := true })).modHanger tag (fun h =>
      { h with forward := f.or h.forward })

/-- R116 to R118: what the destination test makes sure of: the fixed To, or a slot chosen; a forward slot exactly into a STRICT
station, the one kept or another. -/
structure Route (c : Core) (tag : Nat) (h : HangerCore) (m : MoveCore) (d : SlotRef) (f : Option SlotRef) : Prop where
  fixed : m.dest = some (.slot d) ∨ m.dest = none
  open_ : c.slot d = .free ∨ (c.slot d).reservedFor tag = true
  strict : f ≠ none ↔ c.strict d.station
  ahead : ∀ q, f = some q → q ≠ d ∧ (c.slot q = .free ∨ c.slot q = .reserved tag .forward)
    ∧ ∀ r, h.forward = some r → r ≠ d → q = r

theorem slot_reserveRoute {d : SlotRef} {f : Option SlotRef} (q : SlotRef) : (c.reserveRoute tag d f).slot q
    = if f = some q then .reserved tag .forward else if q = d then .reserved tag .destination else c.slot q := by
  cases f with
  | none => rfl
  | some f =>
    show (if q = f then _ else _) = _
    by_cases e : q = f
    · subst e; simp
    · rw [if_neg e, if_neg (fun e' => e (by cases e'; rfl))]; rfl

theorem only_reserveRoute {d : SlotRef} {f : Option SlotRef} (hd : c.slot d = .free ∨ (c.slot d).reservedFor tag = true)
    (hf : ∀ q, f = some q → q ≠ d ∧ (c.slot q = .free ∨ c.slot q = .reserved tag .forward)) :
    OnlyTag tag c (c.reserveRoute tag d f) := by
  have named : ∀ k, ∀ t, t ≠ tag → (Slot.reserved tag k).names t = false := fun k t ht => by simp [Slot.names, Ne.symm ht]
  have first : OnlyTag tag c (c.setSlot d (.reserved tag .destination)) := by
    refine (OnlyTag.refl tag c).setSlot (named _) (fun t ht => ?_)
    rcases hd with e | e
    · rw [e]; rfl
    · obtain ⟨k, hk⟩ := (Slot.reservedFor_iff _ _).1 e
      rw [hk]; exact named k t ht
  cases f with
  | none => exact first
  | some q =>
    obtain ⟨hq, hfree⟩ := hf q rfl
    refine first.setSlot (named _) (fun t ht => ?_)
    show (if q = d then _ else c.slot q).names t = false
    rw [if_neg hq]
    rcases hfree with e | e
    · rw [e]; rfl
    · rw [e]; exact named _ t ht

/-- A route is of slots alone. -/
theorem reserveRoute_rest (c : Core) (tag : Nat) (d : SlotRef) (f : Option SlotRef) : (c.reserveRoute tag d f).hangers = c.hangers
    ∧ (c.reserveRoute tag d f).moves = c.moves ∧ (c.reserveRoute tag d f).strict = c.strict
    ∧ (c.reserveRoute tag d f).hold = c.hold := by
  cases f <;> exact ⟨rfl, rfl, rfl, rfl⟩

section grant

variable {m : MoveCore} {d : SlotRef} {f : Option SlotRef}

theorem slot_grant (c : Core) (tag id : Nat) (g : GantryId) (d : SlotRef) (f : Option SlotRef) (q : SlotRef) :
    (c.grant tag id g d f).slot q
      = if f = some q then .reserved tag .forward else if q = d then .reserved tag .destination else c.slot q :=
  slot_reserveRoute q

theorem hanger_grant (hh : c.hanger? tag = some h) (id : Nat) (g : GantryId) (d : SlotRef) (f : Option SlotRef) :
    (c.grant tag id g d f).hanger? tag = some { h with forward := f.or h.forward } := by
  obtain ⟨hangers, -⟩ := reserveRoute_rest c tag d f
  refine hanger_modHanger_self (by exact fun _ => rfl) ?_
  show (c.reserveRoute tag d f).hanger? tag = some h
  rw [← hh]
  unfold Core.hanger?
  rw [hangers]

/-- The move granted stays its hanger's one move. -/
theorem Keyed.grant (hk : c.Keyed) (g : GantryId) (d : SlotRef) (f : Option SlotRef) (hm : c.move? tag = some m)
    (same : ∀ x ∈ c.moves, x.id = m.id → x = m ∨ x.tag = none) : (c.grant tag m.id g d f).Keyed
      ∧ (c.grant tag m.id g d f).move? tag
        = some { m with dest := some (.slot d), state := .granted, gantry := some g, limited := true } := by
  obtain ⟨hangers, moves, -⟩ := reserveRoute_rest c tag d f
  have keyed : (c.reserveRoute tag d f).Keyed := ⟨by rw [hangers]; exact hk.tags, by rw [moves]; exact hk.sole⟩
  have keyed' : ((c.reserveRoute tag d f).modMove m.id (fun m =>
      { m with dest := some (.slot d), state := .granted, gantry := some g, limited := true })).Keyed := by
    refine keyed.modMove (fun x hx e => ⟨rfl, fun e' => Or.inl ?_⟩)
    rw [moves] at hx
    rcases same x hx e with rfl | ht
    · exact absurd e' (move_tag hm).2
    · exact ht
  refine ⟨keyed'.modHanger tag (fun _ => rfl), ?_⟩
  exact keyed'.move_modMove (by rw [moves]; exact move_mem hm) rfl (move_tag hm).1 (by simp)

/-- A grant touches what its hanger claims alone. -/
theorem only_grant (g : GantryId) (hm : c.move? tag = some m) (same : ∀ x ∈ c.moves, x.id = m.id → x = m ∨ x.tag = none)
    (hr : c.Route tag h m d f) : OnlyTag tag c (c.grant tag m.id g d f) := by
  obtain ⟨-, moves, -⟩ := reserveRoute_rest c tag d f
  have htag := (move_tag hm).1
  refine ((only_reserveRoute hr.open_ (fun q e => ⟨(hr.ahead q e).1, (hr.ahead q e).2.1⟩)).modMove (fun x hx e t ht => ?_)).modHanger
    (fun _ => rfl)
  rw [moves] at hx
  rcases same x hx e with rfl | hx'
  · exact ⟨by simp [htag, Ne.symm ht], by simp [htag, Ne.symm ht]⟩
  · exact ⟨by simp [hx'], by simp [hx']⟩

/-- The forward reservation of a hanger is where its route leads, or beyond a STRICT station there. -/
theorem Route.forward_leads (hr : c.Route tag h m d f) (hc : c.Agrees) (hh : c.hanger? tag = some h) (hm : c.move? tag = some m)
    {r : SlotRef} (e : h.forward = some r) : r = d ∨ c.strict d.station := by
  rcases (hc tag).feeds h m r hh hm e with e' | ⟨d', e', hs⟩ <;> rcases hr.fixed with hd | hd <;> rw [hd] at e' <;> cases e'
  · exact Or.inl rfl
  · exact Or.inr hs

/-- R123: after its grant the hanger agrees. -/
theorem Route.agrees (hr : c.Route tag h m d f) (hc : c.Agrees) (g : GantryId) (hh : c.hanger? tag = some h) (hb : h.rank = .bearing)
    (unheld : ∀ g x, c.hold g = some x → x.tag ≠ tag) (hm : c.move? tag = some m) :
    TagAgrees (c.grant tag m.id g d f).slot c.strict c.hold tag (some { h with forward := f.or h.forward })
      (some { m with dest := some (.slot d), state := .granted, gantry := some g, limited := true }) := by
  have own := hc tag
  have forward : ∀ {r}, h.forward = some r → r = d ∨ c.strict d.station := fun e => hr.forward_leads hc hh hm e
  obtain ⟨fixed, free, strict, ahead⟩ := hr
  have off : f ≠ some d := fun e => (ahead d e).1 rfl
  refine ⟨fun q e => ?_, fun q e => ?_, fun q e => ?_, fun x q e e' => ?_, fun x q e e' => ?_, fun x n d' e e' ed => ?_,
    fun x n q e e' ef => ?_, fun g' x e e' => absurd e' (unheld g' x e)⟩
  · rw [slot_grant] at e
    split at e
    · cases e
    · split at e
      · cases e
      · exact ⟨_, rfl, (hc.occupied_iff hh q).1 e⟩
  · refine ⟨_, rfl, ?_⟩
    rw [slot_grant] at e
    split at e
    · rename_i hf; show f.or h.forward = some q; rw [hf]; rfl
    · rename_i hf
      split at e
      · cases e
      · rename_i hq
        have hw := hc.forward_of_reserved hh e
        cases f with
        | none => exact hw
        | some f0 => exact absurd (congrArg some ((ahead f0 rfl).2.2 q hw hq)) hf
  · refine ⟨_, rfl, Or.inl ⟨_, rfl, ?_⟩⟩
    rw [slot_grant] at e
    split at e
    · cases e
    · split at e
      · rename_i hq; rw [hq]
      · obtain ⟨n, hn, hd⟩ := hc.dest_of_reserved unheld e
        rw [hm] at hn; cases hn
        rcases fixed with hd' | hd'
        · exact hd'.symm.trans hd
        · rw [hd'] at hd; cases hd
  · cases e
    have occ := (hc.occupied_iff hh q).2 e'
    rw [slot_grant, if_neg, if_neg, occ]
    · rintro rfl
      rcases free with e1 | e1 <;> rw [occ] at e1 <;> cases e1
    · intro hf
      rcases (ahead q hf).2.1 with e1 | e1 <;> rw [occ] at e1 <;> cases e1
  · cases e
    refine ⟨?_, by show h.rank ≠ _; rw [hb]; decide⟩
    rw [slot_grant]
    split
    · simp [Slot.reservedFor]
    · rename_i hf
      split
      · simp [Slot.reservedFor]
      · cases f with
        | some f0 => exact absurd e' hf
        | none => exact (own.keeps h q hh e').1
  · cases e; cases e'; cases ed
    have reserved : (c.grant tag m.id g d f).slot d = .reserved tag .destination := by rw [slot_grant, if_neg off, if_pos rfl]
    refine ⟨by rw [reserved]; simp [Slot.reservedFor], fun _ => ⟨reserved, fun r er => ?_⟩⟩
    cases f with
    | some f0 =>
      cases er
      exact ⟨fun _ => (ahead r rfl).1, fun _ => strict.1 (by simp)⟩
    | none =>
      have plain : ¬ c.strict d.station := fun hs => strict.2 hs rfl
      have at_d := (forward er).resolve_right plain
      exact ⟨fun e2 => absurd e2 plain, fun e2 => absurd at_d e2⟩
  · cases e; cases e'
    cases f with
    | some f0 => exact Or.inr ⟨d, rfl, strict.1 (by simp)⟩
    | none =>
      rcases forward ef with e1 | e1
      · rw [e1]; exact Or.inl rfl
      · exact Or.inr ⟨d, rfl, e1⟩

/-- R123: a grant along a route that passed the tests keeps the agreement. -/
theorem Sound.grant (hc : c.Sound) (g : GantryId) (hh : c.hanger? tag = some h) (hb : h.rank = .bearing)
    (unheld : ∀ g x, c.hold g = some x → x.tag ≠ tag) (hm : c.move? tag = some m)
    (same : ∀ x ∈ c.moves, x.id = m.id → x = m ∨ x.tag = none) (hr : c.Route tag h m d f) : (c.grant tag m.id g d f).Sound := by
  obtain ⟨-, -, hstrict, hhold⟩ := reserveRoute_rest c tag d f
  have hold : (c.grant tag m.id g d f).hold = c.hold := hhold
  have strict : (c.grant tag m.id g d f).strict = c.strict := hstrict
  obtain ⟨keyed, move⟩ := hc.toKeyed.grant g d f hm same
  refine { keyed with agrees := (only_grant g hm same hr).agrees hc.agrees ?_ }
  rw [hanger_grant hh, move, hold, strict]
  exact hr.agrees hc.agrees g hh hb unheld hm

end grant

end Core

end Sys2Proof.Machine
end

