-- ==== Sys2Proof/Proofs/SlotFirm.lean ====
section
/-! PROOFS. The events that can follow each other in an advance of the line time keep the whole invariant: YIELD and placed moves
go, a hanger is stranded, a move returns to READY, an abort comes to rest. -/

namespace Sys2Proof.Machine

namespace Core

variable {c c' : Core} {tag : Nat} {h : HangerCore}

/-- R108, R139: YIELD moves and placed moves go. -/
theorem Firm.prune (hc : c.Firm) {p : MoveCore → Bool} (hp : ∀ m ∈ c.moves, p m = false → m.tag = none ∨ m.state = .placed) :
    (c.filterMoves p).Firm := by
  have sub : ∀ m ∈ (c.filterMoves p).moves, m ∈ c.moves := fun m hm => List.mem_of_mem_filter hm
  exact { hc.toSound.prune hp with
    ids := hc.ids.sublist (List.filter_sublist.map _)
    plain := fun m hm => hc.plain m (sub m hm)
    settled := fun m hm => hc.settled m (sub m hm)
    limits := fun m hm => hc.limits m (sub m hm)
    works := fun m hm m' hm' => hc.works m (sub m hm) m' (sub m' hm')
    free := fun m hm => hc.free m (sub m hm)
    bearer := fun m hm => hc.bearer m (sub m hm)
    stranded := hc.stranded
    lands := fun m hm => hc.lands m (sub m hm)
    carries := fun m hm => hc.carries m (sub m hm)
    rides := hc.rides }

/-- A YIELD move or a placed move is removed. -/
theorem Firm.removeMove (hc : c.Firm) {m : MoveCore} (hm : m ∈ c.moves) (hp : m.tag = none ∨ m.state = .placed) :
    (c.removeMove m.id).Firm := by
  refine hc.prune (fun x hx e => ?_)
  by_cases hid : x.id = m.id
  · rw [hc.same_move hm hx hid]; exact hp
  · have hy : x.yields = true := by
      by_contra hn
      simp [hid, hn] at e
    exact Or.inl ((hc.plain x hx).1 hy)

/-- An event that takes the move of a hanger and touches no other claim keeps the invariant, where the stranded hold it may set is
that of its hanger, on a gantry that works no other move. -/
theorem Firm.of_taken (hc : c.Firm) (hs : c'.Sound) (ho : OnlyTag tag c c') {p : MoveCore → Bool}
    (hm : c'.moves = c.moves.filter p) (hno : c'.move? tag = none)
    (free : ∀ m ∈ c'.moves, m.InWork → ∀ g, m.gantry = some g → c'.hold g = none)
    (stranded : ∀ g x, c'.hold g = some x → x.tag = tag → ∃ h, c'.hanger? tag = some h ∧ h.rank = .stranded)
    (rides : ∀ h, c'.hanger? tag = some h → h.rank = .stranded → ∀ r, h.location ≠ .slot r) : c'.Firm := by
  have sub : ∀ m ∈ c'.moves, m ∈ c.moves := fun m h => List.mem_of_mem_filter (hm ▸ h)
  have other : ∀ m ∈ c'.moves, m.state ≠ .placed → ∀ t, m.tag = some t → t ≠ tag := by
    rintro m hmem hp t ht rfl
    exact hp (move_none.1 hno m hmem ht)
  refine { hs with
    ids := by rw [hm]; exact hc.ids.sublist (List.filter_sublist.map _)
    plain := fun m h => hc.plain m (sub m h)
    settled := fun m h => hc.settled m (sub m h)
    limits := fun m h => hc.limits m (sub m h)
    works := fun m h m' h' => hc.works m (sub m h) m' (sub m' h')
    free := free
    bearer := fun m h hp t ht => ?_
    stranded := fun g x hx => ?_
    lands := fun m h => hc.lands m (sub m h)
    carries := fun m h hst t ht y hy => ?_
    rides := fun y hy hr => ?_ }
  · rw [ho.hanger t (other m h hp t ht)]
    exact hc.bearer m (sub m h) hp t ht
  · by_cases e : x.tag = tag
    · rw [e]; exact stranded g x hx e
    · rw [ho.hanger _ e]
      exact hc.stranded g x ((ho.hold g x e).1 hx)
  · rw [ho.hanger t (other m h (by rw [hst]; decide) t ht)] at hy
    exact hc.carries m (sub m h) hst t ht y hy
  · have found := hs.hanger_of_mem hy
    by_cases e : y.tag = tag
    · exact rides y (by rw [← e]; exact found) hr
    · rw [ho.hanger _ e] at found
      exact hc.rides y (hanger_mem found) hr

/-! ### Abort to rest -/

/-- R47, R48: the hanger comes to rest where it stands, with no move and nothing reserved. -/
def abortRest (c : Core) (tag : Nat) : Core :=
  ((c.removeMoveOf tag).releaseAll tag).modHanger tag (fun h => { h with forward := none, rank := .resting })

theorem Firm.abortRest (hc : c.Firm) (hh : c.hanger? tag = some h) (hb : h.rank = .bearing) : (c.abortRest tag).Firm := by
  obtain ⟨p, hp⟩ := removeMoveOf_eq c tag
  have unheld := hc.no_hold hh (by rw [hb]; decide)
  have removed := hc.only_removeMoveOf tag
  have unmoved := hc.move_removeMoveOf tag
  have keyed := hc.toKeyed.removeMoveOf tag
  unfold Core.abortRest
  rw [hp] at removed unmoved keyed ⊢
  have settled : Settled c (((c.filterMoves p).releaseAll tag).modHanger tag (fun h => { h with forward := none, rank := .resting }))
      tag { h with forward := none, rank := .resting } :=
    Settled.of_released (x := h) removed keyed hh (hc.agrees.occupied_iff hh) unheld unmoved (fun _ => rfl) rfl rfl
  refine hc.of_taken (settled.sound hc.toSound (fun e => absurd rfl e)) settled.only rfl settled.moveless
    (fun m hm => hc.free m (List.mem_of_mem_filter hm)) (fun g x hx e => absurd e (unheld g x hx)) (fun y hy hr => ?_)
  rw [settled.idle.hanger] at hy
  cases hy; cases hr

/-! ### Stranding -/

/-- R147: the hanger of a carried move is stranded on the gantry, which holds its destination. -/
def strand (c : Core) (tag id : Nat) (g : GantryId) (d : SlotRef) : Core :=
  ((c.removeMove id).modHanger tag (fun h => { h with location := .gantry g, rank := .stranded })).setHold g
    (some { tag := tag, dest := d })

theorem Firm.strand (hc : c.Firm) {m : MoveCore} {g : GantryId} {d : SlotRef} (hm : m ∈ c.moves) (ht : m.tag = some tag)
    (hs : m.state = .carried) (hg : m.gantry = some g) (hd : m.dest = some (.slot d)) : (c.strand tag m.id g d).Firm := by
  obtain ⟨h, hh, hb, hmv⟩ := hc.hanger_of_move hm ht (by rw [hs]; decide)
  have work : m.InWork := Or.inr (Or.inl hs)
  have unheld := hc.no_hold hh (by rw [hb]; decide)
  have empty : c.hold g = none := hc.free m hm work g hg
  have away := hc.carries m hm hs tag ht h hh
  have own := hc.agrees tag
  obtain ⟨reserved, -⟩ := (own.leads h m d hh hmv hd).2 work
  have only : OnlyTag tag c (c.strand tag m.id g d) := by
    refine ((hc.only_removeMove hm ht).modHanger ?_).setHold (fun y e => ?_) (fun y e => ?_)
    · exact fun _ => rfl
    · cases e; rfl
    · have e' : c.hold g = some y := e
      rw [empty] at e'; cases e'
  have keyed : (c.strand tag m.id g d).Keyed := by
    refine ((hc.toKeyed.filterMoves _).modHanger tag ?_).setHold g _
    exact fun _ => rfl
  have hanger : (c.strand tag m.id g d).hanger? tag = some { h with location := .gantry g, rank := .stranded } :=
    hanger_modHanger_self (c := c.removeMove m.id) (by exact fun _ => rfl) hh
  have moveless : (c.strand tag m.id g d).move? tag = none := move_removeMove hc.toKeyed hmv
  have hold : ∀ g', (c.strand tag m.id g d).hold g' = if g' = g then some { tag := tag, dest := d } else c.hold g' := fun _ => rfl
  have sound : (c.strand tag m.id g d).Sound := by
    refine { keyed with agrees := only.agrees hc.agrees ?_ }
    rw [hanger, moveless]
    refine ⟨fun q e => ?_, fun q e => ?_, fun q e => ?_, fun x q e e' => (by cases e; cases e'), fun x q e e' => ?_,
      fun x n q e e' => (by cases e'), fun x n q e e' => (by cases e'), fun g' x e e' => ?_⟩
    · exact absurd ((hc.agrees.occupied_iff hh q).1 e) (away q)
    · exact ⟨_, rfl, hc.agrees.forward_of_reserved hh e⟩
    · obtain ⟨n, hn, hnd⟩ := hc.agrees.dest_of_reserved unheld e
      rw [hmv] at hn; cases hn
      rw [hd] at hnd; cases hnd
      exact ⟨_, rfl, Or.inr ⟨g, rfl, by rw [hold, if_pos rfl]⟩⟩
    · cases e
      exact ⟨(own.keeps h q hh e').1, (by decide : Rank.stranded ≠ Rank.resting)⟩
    · rw [hold] at e
      split at e
      · cases e; exact reserved
      · exact absurd e' (unheld g' x e)
  refine hc.of_taken sound only rfl moveless (fun n hn hw g' hg' => ?_) (fun g' x _ _ => ⟨_, hanger, rfl⟩) (fun y hy _ r => ?_)
  · obtain ⟨hn', hkeep⟩ := List.mem_filter.1 hn
    rw [hold]
    split
    · rename_i e
      subst e
      have := hc.works n hn' m hm g' hw work hg' hg
      simp [this] at hkeep
    · exact hc.free n hn' hw g' hg'
  · rw [hanger] at hy
    cases hy; simp

/-! ### The return to READY -/

/-- R145: a granted move is READY again. -/
def returned (c : Core) (id : Nat) : Core := c.modMove id (fun m => { m with state := .ready, gantry := none, limited := false })

/-- After a return each move is as it was but the one returned. -/
theorem Firm.mem_returned (hc : c.Firm) {m : MoveCore} (hm : m ∈ c.moves) {x : MoveCore} (hx : x ∈ (c.returned m.id).moves) :
    x ∈ c.moves ∨ x = { m with state := .ready, gantry := none, limited := false } := by
  obtain ⟨y, hy, rfl⟩ := List.mem_map.1 hx
  by_cases e : y.id = m.id
  · rw [if_pos e, hc.same_move hm hy e]; exact Or.inr rfl
  · rw [if_neg e]; exact Or.inl hy

theorem ids_returned (c : Core) (id : Nat) : (c.returned id).moves.map MoveCore.id = c.moves.map MoveCore.id := by
  unfold Core.returned modMove
  rw [List.map_map]
  refine List.map_congr_left (fun x _ => ?_)
  show (if x.id = id then _ else x).id = x.id
  split <;> rfl

/-- A READY move claims of the slots what it claimed when it was granted, and less. -/
theorem Firm.sound_returned (hc : c.Firm) {m : MoveCore} (hm : m ∈ c.moves) (hs : m.state = .granted) : (c.returned m.id).Sound := by
  have same : ∀ x ∈ c.moves, x.id = m.id → x = m := fun x hx e => hc.same_move hm hx e
  have keyed : (c.returned m.id).Keyed := by
    refine Keyed.modMove hc.toKeyed (fun x hx e => ⟨rfl, fun e' => ?_⟩)
    rw [same x hx e, hs] at e'; cases e'
  refine { keyed with agrees := fun t => ?_ }
  by_cases ht : m.tag = some t
  · have own := hc.agrees t
    have hmv := hc.move_of_mem hm ht (by rw [hs]; decide)
    rw [show (c.returned m.id).move? t = some { m with state := .ready, gantry := none, limited := false } from
      keyed.move_modMove hm rfl ht (by simp)]
    refine ⟨own.occupied, own.forward, fun r e => ?_, own.rests, own.keeps, fun x n d hx hn hd => ?_, fun x n r hx hn hf => ?_,
      own.held⟩
    · obtain ⟨x, hx, ⟨n, hn, hd⟩ | hg⟩ := own.destination r e
      · rw [hmv] at hn; cases hn
        exact ⟨x, hx, Or.inl ⟨_, rfl, hd⟩⟩
      · exact ⟨x, hx, Or.inr hg⟩
    · cases hn
      refine ⟨(own.leads x m d hx hmv hd).1, ?_⟩
      rintro (e' | e' | e') <;> cases e'
    · cases hn
      exact own.feeds x m r hx hmv hf
  · rw [show (c.returned m.id).move? t = c.move? t from
      move_modMove_other (fun x hx e => by rw [same x hx e]; exact ⟨ht, ht⟩)]
    exact hc.agrees t

theorem Firm.returned (hc : c.Firm) {m : MoveCore} (hm : m ∈ c.moves) (hs : m.state = .granted) : (c.returned m.id).Firm := by
  refine { hc.sound_returned hm hs with
    ids := by rw [ids_returned]; exact hc.ids
    plain := fun x hx => ?_
    settled := fun x hx => ?_
    limits := fun x hx hl => ?_
    works := fun x hx y hy g hxw hyw hxg hyg => ?_
    free := fun x hx hw g hg => ?_
    bearer := fun x hx hp t ht => ?_
    stranded := hc.stranded
    lands := fun x hx hst ht => ?_
    carries := fun x hx hst t ht => ?_
    rides := hc.rides }
  all_goals rcases hc.mem_returned hm hx with h | rfl
  · exact hc.plain x h
  · exact hc.plain m hm
  · exact hc.settled x h
  · simp
  · exact hc.limits x h hl
  · cases hl
  · rcases hc.mem_returned hm hy with h' | rfl
    · exact hc.works x h y h' g hxw hyw hxg hyg
    · cases hyg
  · cases hxg
  · exact hc.free x h hw g hg
  · cases hg
  · exact hc.bearer x h hp t ht
  · exact hc.bearer m hm (by rw [hs]; decide) t ht
  · exact hc.lands x h hst ht
  · cases hst
  · exact hc.carries x h hst t ht
  · cases hst

end Core

end Sys2Proof.Machine
end

