-- ==== Sys2Proof/Proofs/SlotCoreOps.lean ====
section
/-! PROOFS. What each operation of the model does to the core: most leave it as it is, and the others are one of its operations. -/

namespace Sys2Proof.Machine

@[simp] theorem Hanger.core_modNewest (h : Hanger) (f : RunEntry → RunEntry) : (h.modNewest f).core = h.core := by
  unfold Hanger.modNewest
  split <;> rfl

@[simp] theorem Hanger.core_appendEntry (h : Hanger) (e : RunEntry) : (h.appendEntry e).core = h.core := by
  unfold Hanger.appendEntry
  split <;> rfl

namespace State

variable {s t : State}

/-- The core reads the stations, the hangers, the moves and the stranded holds. -/
theorem core_congr (hs : t.stations = s.stations) (hh : t.hangers = s.hangers) (hm : t.moves = s.moves)
    (hg : ∀ g, (t.gantry g).hold = (s.gantry g).hold) : t.core = s.core := by
  unfold State.core
  rw [hh, hm]
  congr 1
  · funext r; exact State.slotAt_congr hs r
  · funext st; rw [State.station_congr hs]
  · funext g; exact hg g

theorem core_of_fields (hs : t.stations = s.stations) (hh : t.hangers = s.hangers) (hm : t.moves = s.moves)
    (ha : t.gantryA = s.gantryA) (hb : t.gantryB = s.gantryB) : t.core = s.core :=
  core_congr hs hh hm (fun g => by cases g <;> simp [State.gantry, ha, hb])

/-! ### Operations on something else -/

@[simp] theorem core_post (p : PortId) (n : Notice) : (s.post p n).core = s.core :=
  core_of_fields (by simp) (by simp) (by simp) (by simp) (by simp)
@[simp] theorem core_notify (k : NoticeKind) (tag st mv : Option Nat) (a b : Nat) : (s.notify k tag st mv a b).core = s.core :=
  core_of_fields (by simp) (by simp) (by simp) (by simp) (by simp)
@[simp] theorem core_notifyGantry (g : GantryId) : (s.notifyGantry g).core = s.core :=
  core_of_fields (by simp) (by simp) (by simp) (by simp) (by simp)
@[simp] theorem core_notifyPause (g : GantryId) (n : Nat) : (s.notifyPause g n).core = s.core :=
  core_of_fields (by simp) (by simp) (by simp) (by simp) (by simp)
@[simp] theorem core_notifyCondition (tag st : Nat) (c : Condition) : (s.notifyCondition tag st c).core = s.core :=
  core_of_fields (by simp) (by simp) (by simp) (by simp) (by simp)
@[simp] theorem core_notifyTimeout (g : GantryId) (m : Move) : (s.notifyTimeout g m).core = s.core :=
  core_of_fields (by simp) (by simp) (by simp) (by simp) (by simp)
@[simp] theorem core_postWork (g : GantryId) (m : Move) : (s.postWork g m).core = s.core :=
  core_of_fields (by simp) (by simp) (by simp) (by simp) (by simp)
@[simp] theorem core_announceId (id : Nat) : (s.announceId id).core = s.core :=
  core_of_fields (by simp) (by simp) (by simp) (by simp) (by simp)
@[simp] theorem core_readyWork (g : GantryId) : (s.readyWork g).core = s.core :=
  core_of_fields (by simp) (by simp) (by simp) (by simp) (by simp)
@[simp] theorem core_modPort (p : PortId) (f : Port → Port) : (s.modPort p f).core = s.core :=
  core_of_fields (by simp) (by simp) (by simp) (by simp) (by simp)
@[simp] theorem core_opened (p : PortId) (n : Nat) : (s.opened p n).core = s.core := core_modPort p _
@[simp] theorem core_forming (p : PortId) (r : Reply) : (s.forming p r).core = s.core := core_modPort p _
@[simp] theorem core_ignored (p : PortId) (n : Nat) : (s.ignored p n).core = s.core := core_modPort p _
@[simp] theorem core_testAlarm : s.testAlarm.core = s.core := rfl
@[simp] theorem core_modLine (n : Nat) (f : RescueLine → RescueLine) : (s.modLine n f).core = s.core := rfl
@[simp] theorem core_modRecipe (r : Nat) (f : Recipe → Recipe) : (s.modRecipe r f).core = s.core := rfl
@[simp] theorem core_modChannel (n : Nat) (f : Channel → Channel) : (s.modChannel n f).core = s.core := rfl
@[simp] theorem core_setBath (st : Nat) (b : Option Bath) : (s.setBath st b).core = s.core := rfl
@[simp] theorem core_modBath (st : Nat) (f : Bath → Bath) : (s.modBath st f).core = s.core := rfl
@[simp] theorem core_rejoin (h : Hanger) : (s.rejoin h).core = s.core := rfl
@[simp] theorem core_leaveOrder (tag : Nat) : (s.leaveOrder tag).core = s.core := rfl
@[simp] theorem core_reportOccupancy (st was : Nat) : (s.reportOccupancy st was).core = s.core :=
  core_of_fields (by simp) (by simp) (by simp) (by simp) (by simp)
@[simp] theorem core_gasHold (n : Nat) (k : HoldCause) : (s.setHold n k).core = s.core :=
  core_of_fields (by simp) (by simp) (by simp) (by simp) (by simp)
@[simp] theorem core_gasRelease (n : Nat) (k : HoldCause) : (s.clearHold n k).core = s.core :=
  core_of_fields (by simp) (by simp) (by simp) (by simp) (by simp)
@[simp] theorem core_holdStation (st : Nat) (k : HoldCause) : (s.holdStation st k).core = s.core :=
  core_of_fields (by simp) (by simp) (by simp) (by simp) (by simp)
@[simp] theorem core_releaseStation (st : Nat) (k : HoldCause) : (s.releaseStation st k).core = s.core :=
  core_of_fields (by simp) (by simp) (by simp) (by simp) (by simp)
@[simp] theorem core_fallDue (n : Nat) (d : LineTime) : (s.fallDue n d).core = s.core :=
  core_of_fields (by simp) (by simp) (by simp) (by simp) (by simp)
@[simp] theorem core_endBurst (n : Nat) : (s.endBurst n).core = s.core :=
  core_of_fields (by simp) (by simp) (by simp) (by simp) (by simp)
@[simp] theorem core_setReadiness (st : Nat) (r : Readiness) : (s.setReadiness st r).core = s.core :=
  core_of_fields (by simp) (by simp) (by simp) (by simp) (by simp)
@[simp] theorem core_tripBath (st : Nat) (c : TripCause) : (s.tripBath st c).core = s.core :=
  core_of_fields (by simp) (by simp) (by simp) (by simp) (by simp)
@[simp] theorem core_activateBath (st : Nat) : (s.activateBath st).core = s.core :=
  core_of_fields (by simp) (by simp) (by simp) (by simp) (by simp)
@[simp] theorem core_deactivateBath (st : Nat) : (s.deactivateBath st).core = s.core :=
  core_of_fields (by simp) (by simp) (by simp) (by simp) (by simp)
@[simp] theorem core_convertArea (st : Nat) : (s.convertArea st).core = s.core :=
  core_of_fields (by simp) (by simp) (by simp) (by simp) (by simp)
@[simp] theorem core_addArea (st a : Nat) : (s.addArea st a).core = s.core :=
  core_of_fields (by simp) (by simp) (by simp) (by simp) (by simp)
@[simp] theorem core_swapRecipe (r : Nat) : (s.swapRecipe r).core = s.core :=
  core_of_fields (by simp) (by simp) (by simp) (by simp) (by simp)
@[simp] theorem core_leaveRecipe (r : Nat) : (s.leaveRecipe r).core = s.core :=
  core_of_fields (by simp) (by simp) (by simp) (by simp) (by simp)
@[simp] theorem core_revalidateAll : s.revalidateAll.core = s.core := rfl

@[simp] theorem core_setMode (m : LineMode) (cause : Nat) : (s.setMode m cause).core = s.core := by
  unfold State.setMode
  split
  · rfl
  · rw [core_notify]; rfl

@[simp] theorem core_burstDue (n : Nat) : (s.burstDue n).core = s.core := by
  unfold State.burstDue
  dsimp only
  split
  · split
    · exact core_fallDue _ _
    · rfl
  · rfl

@[simp] theorem core_burstEndDue (n : Nat) : (s.burstEndDue n).core = s.core := by
  unfold State.burstEndDue
  dsimp only
  split
  · split
    · exact core_endBurst _
    · rfl
  · rfl

/-- A gantry record changed but for its stranded hold. -/
theorem core_modGantry (g : GantryId) {f : Gantry → Gantry} (hf : ∀ r, (f r).hold = r.hold) : (s.modGantry g f).core = s.core :=
  core_congr (by simp) (by simp) (by simp) (fun g' => by rw [State.gantry_modGantry]; split <;> simp_all)

/-- A gantry record with a new stranded hold. -/
theorem core_modGantry_hold (g : GantryId) {f : Gantry → Gantry} {x : Option StrandedHold} (hf : ∀ r, (f r).hold = x) :
    (s.modGantry g f).core = s.core.setHold g x := by
  unfold State.core Core.setHold
  simp only [State.modGantry_hangers, State.modGantry_moves]
  congr 1
  · funext r; exact State.slotAt_congr (by simp) r
  · funext st; rw [State.station_congr (State.modGantry_stations s g f)]
  · funext g'
    rw [State.gantry_modGantry]
    split
    · exact hf _
    · rfl

/-! ### Slots -/

/-- A station record changed but for its class and its slots. -/
theorem core_modStation {st : Nat} {f : Station → Station} (hc : (f (s.station st)).cls = (s.station st).cls)
    (hs : ∀ i, (f (s.station st)).slot i = (s.station st).slot i) : (s.modStation st f).core = s.core := by
  have station : ∀ o, ((s.modStation st f).station o).cls = (s.station o).cls
      ∧ ∀ i, ((s.modStation st f).station o).slot i = (s.station o).slot i := by
    intro o
    by_cases hst : st < 24
    · rw [State.station_modStation hst]
      split
      · rename_i e; subst e; exact ⟨hc, hs⟩
      · exact ⟨rfl, fun _ => rfl⟩
    · have e : (s.modStation st f).stations = s.stations := Vector.setIfInBounds_eq_of_size_le (by omega)
      rw [State.station_congr e]
      exact ⟨rfl, fun _ => rfl⟩
  unfold State.core
  congr 1
  · funext r; exact (station r.station).2 r.slot
  · funext o; rw [(station o).1]

theorem core_setSlot {r : SlotRef} {x : Slot} (h1 : r.station < 24) (h2 : r.slot < 4) :
    (s.setSlot r x).core = s.core.setSlot r x := by
  have cls : ∀ st, ((s.setSlot r x).station st).cls = (s.station st).cls := by
    intro st
    unfold State.setSlot
    rw [State.station_modStation h1]
    split
    · rename_i e; rw [e]; rfl
    · rfl
  unfold State.core Core.setSlot
  congr 1
  · funext q; exact State.slotAt_setSlot h1 h2 q
  · funext st; rw [cls]

theorem core_releaseAll (tag : Nat) : (s.releaseAll tag).core = s.core.releaseAll tag := by
  have cls : ∀ st, ((s.releaseAll tag).station st).cls = (s.station st).cls := by
    intro st
    simp only [State.station, State.releaseAll, Vector.getElem?_map]
    cases s.stations[st]? <;> rfl
  unfold State.core Core.releaseAll
  congr 1
  · funext q; exact State.slotAt_releaseAll s tag q
  · funext st; rw [cls]

/-- A slot in use lies in the map. -/
theorem slot_bound {r : SlotRef} (h : s.slotAt r ≠ .free) : r.station < 24 ∧ r.slot < 4 := by
  constructor
  · by_contra hn
    exact h (by unfold State.slotAt; rw [State.station_outside s hn, Station.slot_absent])
  · by_contra hn
    have e : (s.station r.station).slots[r.slot]? = none := Vector.getElem?_eq_none (by omega)
    exact h (by unfold State.slotAt Station.slot; rw [e]; rfl)

/-- R2: a slot that exists lies in the map. -/
theorem hasSlot_bound (hs : MapLawful s) {r : SlotRef} (h : (s.station r.station).hasSlot r.slot = true) :
    r.station < 24 ∧ r.slot < 4 := by
  obtain ⟨hc, hl⟩ := (Station.hasSlot_iff _ _).1 h
  have h1 := State.configured_bound hc
  have h2 := hs.slotCount_le r.station
  omega

/-! ### Hangers -/

theorem core_modHanger {tag : Nat} {f : Hanger → Hanger} {f' : HangerCore → HangerCore} (hf : ∀ h, (f h).core = f' h.core) :
    (s.modHanger tag f).core = s.core.modHanger tag f' := by
  unfold State.core Core.modHanger State.modHanger
  congr 1
  rw [List.map_map, List.map_map]
  refine List.map_congr_left (fun h _ => ?_)
  show (if h.tag = tag then f h else h).core = if h.tag = tag then f' h.core else h.core
  split
  · exact hf h
  · rfl

theorem core_modHanger_of_mem {tag : Nat} {f : Hanger → Hanger} (hf : ∀ h ∈ s.hangers, h.tag = tag → (f h).core = h.core) :
    (s.modHanger tag f).core = s.core := by
  unfold State.core State.modHanger
  congr 1
  rw [List.map_map]
  refine List.map_congr_left (fun h hm => ?_)
  show (if h.tag = tag then f h else h).core = h.core
  split
  · rename_i e; exact hf h hm e
  · rfl

/-- A change of a hanger the slots do not see. -/
theorem core_modHanger_same {tag : Nat} {f : Hanger → Hanger} (hf : ∀ h, (f h).core = h.core) : (s.modHanger tag f).core = s.core :=
  core_modHanger_of_mem (fun h _ _ => hf h)

theorem core_mapHangers {f : Hanger → Hanger} (hf : ∀ h, (f h).core = h.core) :
    ({ s with hangers := s.hangers.map f } : State).core = s.core := by
  unfold State.core
  congr 1
  show (s.hangers.map f).map Hanger.core = s.hangers.map Hanger.core
  rw [List.map_map]
  exact List.map_congr_left (fun h _ => hf h)

theorem core_dropHanger (tag : Nat) : (s.dropHanger tag).core = s.core.dropHanger tag := by
  unfold State.core Core.dropHanger State.dropHanger
  congr 1
  show (s.hangers.filter _).map Hanger.core = (s.hangers.map Hanger.core).filter _
  rw [List.filter_map]
  rfl

@[simp] theorem core_closeEntry (tag : Nat) (c : Condition) : (s.closeEntry tag c).core = s.core := by
  unfold State.closeEntry
  split
  · split
    · split
      · rw [core_notifyCondition, core_modHanger_same (fun h => Hanger.core_modNewest h _)]
      · rfl
    · rfl
  · rfl

@[simp] theorem core_endImmersion (tag : Nat) : (s.endImmersion tag).core = s.core := by
  unfold State.endImmersion
  split
  · rw [core_modHanger_same (by exact fun _ => rfl), core_closeEntry]
  · rfl

@[simp] theorem core_stopCount (tag : Nat) : (s.modHanger tag Hanger.stopCount).core = s.core := core_modHanger_same (fun _ => rfl)

@[simp] theorem core_markIfStale (tag st : Nat) : (s.markIfStale tag st).core = s.core := by
  unfold State.markIfStale
  split
  · exact core_modHanger_same (fun h => Hanger.core_modNewest h _)
  · rfl

@[simp] theorem core_markStale (st : Nat) : (s.markStale st).core = s.core := by
  refine core_mapHangers (fun h => ?_)
  split
  · exact Hanger.core_modNewest h _
  · rfl

@[simp] theorem core_edgeDue (tag : Nat) (e : Edge) : (s.edgeDue tag e).core = s.core := by
  refine core_modHanger_same (fun h => ?_)
  split <;> rfl

@[simp] theorem core_unagitatedDue (tag : Nat) : (s.unagitatedDue tag).core = s.core := by
  unfold State.unagitatedDue
  split
  · split
    · rw [core_notify, core_modHanger_same (fun h => Hanger.core_modNewest h _)]
    · rfl
  · rfl

@[simp] theorem core_tickCounts : s.tickCounts.core = s.core := core_mapHangers (fun _ => rfl)

@[simp] theorem core_goStale (st : Nat) : (s.goStale st).core = s.core := by
  unfold State.goStale
  rw [core_markStale]
  split
  · split <;> simp
  · simp

@[simp] theorem core_staleDue (st : Nat) : (s.staleDue st).core = s.core := by
  unfold State.staleDue
  split
  · split
    · exact core_goStale st
    · rfl
  · rfl

/-! ### Moves -/

theorem core_modMove {id : Nat} {f : Move → Move} {f' : MoveCore → MoveCore} (hf : ∀ m, (f m).core = f' m.core) :
    (s.modMove id f).core = s.core.modMove id f' := by
  unfold State.core Core.modMove State.modMove
  congr 1
  rw [List.map_map, List.map_map]
  refine List.map_congr_left (fun m _ => ?_)
  show (if m.id = id then f m else m).core = if m.id = id then f' m.core else m.core
  split
  · exact hf m
  · rfl

theorem core_modMove_of_mem {id : Nat} {f : Move → Move} (hf : ∀ m ∈ s.moves, m.id = id → (f m).core = m.core) :
    (s.modMove id f).core = s.core := by
  unfold State.core State.modMove
  congr 1
  rw [List.map_map]
  refine List.map_congr_left (fun m hm => ?_)
  show (if m.id = id then f m else m).core = m.core
  split
  · rename_i e; exact hf m hm e
  · rfl

theorem core_addMove (m : Move) : (s.addMove m).core = s.core.addMove { m with id := s.freshId : Move }.core := by
  unfold State.core Core.addMove State.addMove
  congr 1
  show (s.moves ++ [_]).map Move.core = _
  rw [List.map_append]
  rfl

theorem core_createMove (m : Move) : (s.createMove m).core = s.core.addMove { m with id := s.freshId : Move }.core := by
  unfold State.createMove
  dsimp only
  split
  · rw [core_announceId, core_addMove]
  · exact core_addMove m

theorem core_filterMoves {p : Move → Bool} {p' : MoveCore → Bool} (hp : ∀ m, p m = p' m.core) :
    ({ s with moves := s.moves.filter p } : State).core = s.core.filterMoves p' := by
  unfold State.core Core.filterMoves
  congr 1
  show (s.moves.filter p).map Move.core = _
  rw [List.filter_map]
  congr 1
  exact List.filter_congr (fun m _ => hp m)

end State

/-- A YIELD move has the state the core shows. -/
theorem Move.yield_core (m : Move) (x : MoveState) : (m.kind == .yielding && m.state == x) = (m.core.yields && m.core.state == x) := by
  have hy : m.core.yields = (m.kind == .yielding) := rfl
  rw [hy]
  cases hk : (m.kind == .yielding) with
  | false => rfl
  | true =>
    have e : m.core.state = m.state := if_neg (fun h => h.1 (by simpa using hk))
    rw [e]

namespace State

variable {s : State}

theorem core_removeMove (id : Nat) : (s.removeMove id).core = s.core.removeMove id :=
  core_filterMoves (fun m => by rw [Move.yield_core]; rfl)

theorem core_removeMoveOf (tag : Nat) : (s.removeHangerMove tag).core = s.core.removeMoveOf tag := by
  unfold State.removeHangerMove Core.removeMoveOf
  rw [State.core_move]
  cases s.hangerMove? tag with
  | none => rfl
  | some m => exact core_removeMove m.id

theorem core_removeOwnYield (g : GantryId) : (s.removeOwnYield g).core
    = s.core.filterMoves (fun m => !(m.yields && m.state == .ready && m.gantry == some g)) :=
  core_filterMoves (fun m => by rw [Move.yield_core]; rfl)

theorem core_removeYieldFor (id : Nat) : (s.removeYieldFor id).core
    = s.core.filterMoves (fun m => !(m.yields && m.state == .ready && m.blocked == some id)) :=
  core_filterMoves (fun m => by rw [Move.yield_core]; rfl)

/-- R131: a change of the link state takes at most the gantry's own YIELD move. -/
theorem core_setLink (g : GantryId) (l : LinkState) : (s.setLink g l).core = s.core
    ∨ (s.setLink g l).core = s.core.filterMoves (fun m => !(m.yields && m.state == .ready && m.gantry == some g)) := by
  have linked : ((s.modGantry g (fun r => { r with link := l })).notifyGantry g).core = s.core := by
    rw [core_notifyGantry, core_modGantry g (by exact fun _ => rfl)]
  unfold State.setLink
  split
  · exact Or.inl rfl
  · dsimp only
    split
    · refine Or.inr ?_
      rw [core_removeOwnYield, linked]
    · exact Or.inl linked

end State

end Sys2Proof.Machine
end

