-- ==== Sys2Proof/Proofs/SlotSteady.lean ====
section
/-! PROOFS. The events of the line time, of the baths and of rescue leave the core as it is, where the invariant holds: they change
times, entries and counts of the hangers and of the moves that are not granted. -/

namespace Sys2Proof.Machine

/-! ### Records of a firm state -/

namespace State

variable {s : State}

theorem mem_of_hangerMove {tag : Nat} {m : Move} (hm : s.hangerMove? tag = some m) :
    m ∈ s.moves ∧ m.tag = some tag ∧ m.state ≠ .placed :=
  ⟨List.mem_of_find?_eq_some hm, by simpa using List.find?_some hm⟩

theorem mem_of_move {id : Nat} {m : Move} (hm : s.move? id = some m) : m ∈ s.moves ∧ m.id = id :=
  ⟨List.mem_of_find?_eq_some hm, State.move_id hm⟩

theorem mem_of_hanger {tag : Nat} {h : Hanger} (hh : s.hanger? tag = some h) : h ∈ s.hangers ∧ h.tag = tag :=
  ⟨List.mem_of_find?_eq_some hh, State.hanger_tag hh⟩

theorem same_move (hc : s.core.Firm) {m x : Move} (hm : m ∈ s.moves) (hx : x ∈ s.moves) (e : x.id = m.id) : x = m := by
  have ids : (s.moves.map Move.id).Nodup := by simpa [State.core, Function.comp_def, Move.core] using hc.ids
  exact List.inj_on_of_nodup_map ids hx hm e

theorem same_hanger (hc : s.core.Keyed) {h x : Hanger} (hh : h ∈ s.hangers) (hx : x ∈ s.hangers) (e : x.tag = h.tag) : x = h := by
  have tags : (s.hangers.map Hanger.tag).Nodup := by simpa [State.core, Function.comp_def, Hanger.core] using hc.tags
  exact List.inj_on_of_nodup_map tags hx hh e

/-- The YIELD moves carry no tag. -/
theorem yields_iff (hc : s.core.Firm) {m : Move} (hm : m ∈ s.moves) : m.kind = .yielding ↔ m.tag = none := by
  have := hc.plain m.core (List.mem_map_of_mem hm)
  rw [show m.core.tag = m.tag from rfl, show m.core.yields = (m.kind == .yielding) from rfl, beq_iff_eq] at this
  exact this

/-- R138: a YIELD move is never WAITING. -/
theorem waits_not_yields (hc : s.core.Firm) {m : Move} (hm : m ∈ s.moves) (hs : m.state = .waiting) : m.kind ≠ .yielding := by
  intro hk
  refine hc.settled m.core (List.mem_map_of_mem hm) ?_
  unfold Move.core
  simp [hk, hs]

/-- A change of the one hanger a tag names that the slots do not see. -/
theorem core_modHanger_at (hc : s.core.Keyed) {tag : Nat} {h : Hanger} {f : Hanger → Hanger} (hh : s.hanger? tag = some h)
    (hf : (f h).core = h.core) : (s.modHanger tag f).core = s.core := by
  obtain ⟨hm, ht⟩ := mem_of_hanger hh
  refine core_modHanger_of_mem (fun x hx e => ?_)
  rw [same_hanger hc hm hx (e.trans ht.symm)]
  exact hf

/-- A change of one move that the slots do not see. -/
theorem core_modMove_at (hc : s.core.Firm) {m : Move} {f : Move → Move} (hm : m ∈ s.moves) (hf : (f m).core = m.core) :
    (s.modMove m.id f).core = s.core := by
  refine core_modMove_of_mem (fun x hx e => ?_)
  rw [same_move hc hm hx e]
  exact hf

/-- What each turn of a loop leaves of the core, the loop leaves. -/
theorem core_foldl {α : Type} {f : State → α → State} (hf : ∀ t a, t.core.Firm → (f t a).core = t.core) (l : List α) :
    ∀ s : State, s.core.Firm → (l.foldl f s).core = s.core := by
  induction l with
  | nil => exact fun _ _ => rfl
  | cons a l ih =>
    intro s hc
    have step := hf s a hc
    rw [List.foldl_cons, ih _ (by rw [step]; exact hc), step]

end State

/-- Two records of a move that is not granted look alike to the slots where the fields the slots read are the same. -/
theorem Move.core_idle {m m' : Move} (hk : m.kind ≠ .yielding) (hk' : m'.kind ≠ .yielding) (hs : m.state = .waiting ∨ m.state = .ready)
    (hs' : m'.state = .waiting ∨ m'.state = .ready) (hid : m'.id = m.id) (ht : m'.tag = m.tag) (hd : m'.dest = m.dest)
    (hg : m'.gantry = m.gantry) (hl : m'.limit = m.limit) (hb : m'.blocked = m.blocked) : m'.core = m.core := by
  have ready : ∀ n : Move, n.kind ≠ .yielding → n.state = .waiting ∨ n.state = .ready → n.core.state = .ready := by
    intro n hn hst
    unfold Move.core
    rcases hst with e | e <;> simp [hn, e]
  have same : m'.core.state = m.core.state := (ready m' hk' hs').trans (ready m hk hs).symm
  have yields : ∀ n : Move, n.kind ≠ .yielding → n.core.yields = false := by
    intro n hn
    exact beq_eq_false_iff_ne.2 hn
  have same' : m'.core.yields = m.core.yields := (yields m' hk').trans (yields m hk).symm
  unfold Move.core at same same' ⊢
  rw [MoveCore.mk.injEq]
  exact ⟨hid, same', ht, hd, same, hg, by rw [hl], hb⟩

theorem readyState_idle (now t : LineTime) : readyState now t = .waiting ∨ readyState now t = .ready := by
  unfold readyState
  split
  · exact Or.inr rfl
  · exact Or.inl rfl

/-- The times an immersion gives leave the rest of a move as it is. -/
theorem Move.timed_fields (m : Move) (i : Immersion) (now : LineTime) (a : Nat) : (m.timed i now a).id = m.id
    ∧ (m.timed i now a).kind = m.kind ∧ (m.timed i now a).tag = m.tag ∧ (m.timed i now a).dest = m.dest
    ∧ (m.timed i now a).state = m.state ∧ (m.timed i now a).gantry = m.gantry ∧ (m.timed i now a).limit = m.limit
    ∧ (m.timed i now a).blocked = m.blocked := by
  unfold Move.timed
  split <;> exact ⟨rfl, rfl, rfl, rfl, rfl, rfl, rfl, rfl⟩

theorem Move.core_timed (m : Move) (i : Immersion) (now : LineTime) (a : Nat) : (m.timed i now a).core = m.core := by
  obtain ⟨h1, h2, h3, h4, h5, h6, h7, h8⟩ := m.timed_fields i now a
  unfold Move.core
  rw [h1, h2, h3, h4, h5, h6, h7, h8]

theorem Move.core_settled {m : Move} (hk : m.kind ≠ .yielding) (now : LineTime) : (m.settled now).core = m.core := by
  unfold Move.settled
  split
  · rename_i hs
    exact Move.core_idle hk hk hs (readyState_idle _ _) rfl rfl rfl rfl rfl rfl
  · rfl

namespace State

variable {s : State}

/-! ### Ready times, predictions and rescue -/

theorem core_readyDue (hc : s.core.Firm) (id : Nat) : (s.readyDue id).core = s.core := by
  unfold State.readyDue
  split
  · rename_i m hm
    obtain ⟨hmem, rfl⟩ := mem_of_move hm
    split
    · rename_i hw
      have kind := waits_not_yields hc hmem hw.1
      rw [core_announceId, core_modMove_at hc hmem (Move.core_idle kind kind (Or.inl hw.1) (Or.inr rfl) rfl rfl rfl rfl rfl rfl)]
    · rfl
  · rfl

theorem core_feedMove (hc : s.core.Firm) (h : Hanger) : (s.feedMove h).core = s.core := by
  unfold State.feedMove
  split
  · rename_i m hm
    obtain ⟨hmem, ht, -⟩ := mem_of_hangerMove hm
    split
    · have kind : m.kind ≠ .yielding := fun e => by rw [(yields_iff hc hmem).1 e] at ht; cases ht
      have fed : ∀ a, (s.modMove m.id (fun _ => (m.timed h.imm s.lineTime a).settled s.lineTime)).core = s.core := by
        intro a
        refine core_modMove_at hc hmem ?_
        rw [Move.core_settled (by rw [(m.timed_fields _ _ _).2.1]; exact kind), Move.core_timed]
      dsimp only
      split
      · rw [core_announceId, fed]
      · exact fed _
    · rfl
  · rfl

theorem core_remakeOne (hc : s.core.Firm) (st tag : Nat) : (s.remakeOne st tag).core = s.core := by
  unfold State.remakeOne
  split
  · rename_i h hh
    split
    · dsimp only
      have changed : (s.modHanger tag (fun _ => { h with imm := h.imm.repredict s.lineTime (s.rateOf st) s.grace })).core = s.core :=
        core_modHanger_at hc.toKeyed hh rfl
      rw [core_feedMove (by rw [changed]; exact hc), changed]
    · rfl
  · rfl

theorem core_rescueMove (hc : s.core.Firm) (st tag : Nat) : (s.rescueMove st tag).core = s.core := by
  unfold State.rescueMove
  split
  · rename_i m hm
    obtain ⟨hmem, -⟩ := mem_of_hangerMove hm
    split
    · rfl
    · have timed : (s.modMove m.id (fun m => if m.state = .waiting then
          { m.rescueTimes s.lineTime (s.exitAllowance st) with state := .ready }
          else m.rescueTimes s.lineTime (s.exitAllowance st))).core = s.core := by
        refine core_modMove_at hc hmem ?_
        split
        · rename_i hw
          have kind := waits_not_yields hc hmem hw
          exact Move.core_idle kind kind (Or.inl hw) (Or.inr rfl) rfl rfl rfl rfl rfl rfl
        · rfl
      dsimp only
      split
      · rw [core_announceId]; exact timed
      · exact timed
  · rfl

/-- R172: a hanger that can be rescued bears its move before and after. -/
theorem core_rescued {h : Hanger} {st : Nat} (hr : h.restsIn st = true) (now : LineTime) :
    ((h.signalled now).rescued).core = h.core := by
  have rank : h.state.rank = .bearing := by
    unfold Hanger.restsIn at hr
    rw [Bool.and_eq_true, Bool.or_eq_true, Bool.and_eq_true] at hr
    rcases hr.2 with e | ⟨e, -⟩ <;> rw [beq_iff_eq.1 e] <;> rfl
  unfold Hanger.core
  rw [rank]
  rfl

theorem core_rescueHanger (hc : s.core.Firm) (st tag : Nat) : (s.rescueHanger st tag).core = s.core := by
  unfold State.rescueHanger
  split
  · rename_i h hh
    split
    · rename_i hr
      have changed : (((s.modHanger tag (fun h => (h.signalled s.lineTime).rescued)).closeEntry tag h.imm.rescueCondition).modHanger tag
          (fun h => h.modNewest RunEntry.markRescued)).core = s.core := by
        rw [core_modHanger_same (fun h => Hanger.core_modNewest h _), core_closeEntry,
          core_modHanger_at hc.toKeyed hh (core_rescued hr _)]
      rw [core_rescueMove (by rw [changed]; exact hc), changed]
    · rfl
  · rfl

theorem core_assertLine (hc : s.core.Firm) (l st tag : Nat) : (s.assertLine l st tag).core = s.core := by
  unfold State.assertLine
  dsimp only
  rw [core_foldl (fun t a ht => core_rescueHanger ht st a) _ _ (by simpa using hc)]
  simp

theorem core_signal (hc : s.core.Firm) (tag : Nat) : (s.signal tag).core = s.core := by
  unfold State.signal
  split
  · split
    · have fired : (s.modHanger tag (fun h => { h with imm := { h.imm with fired := true } })).core = s.core :=
        core_modHanger_same (fun _ => rfl)
      dsimp only
      split
      · rw [core_notify, fired]
      · split
        · exact fired
        · rw [core_assertLine (by rw [fired]; exact hc), fired]
    · rfl
  · rfl

theorem core_rateChanged (hc : s.core.Firm) (st : Nat) : (s.rateChanged st).core = s.core := by
  unfold State.rateChanged State.remakeStation
  have remade := core_foldl (fun t tag ht => core_remakeOne ht st tag) (s.running st) s hc
  rw [core_foldl (fun t tag ht => core_signal ht tag) _ _ (by rw [remade]; exact hc), remade]

theorem core_storeBath (hc : s.core.Firm) (st : Nat) (old new : Bath) : (s.storeBath st old new).core = s.core := by
  unfold State.storeBath
  split
  · rfl
  · rw [core_rateChanged (by rw [core_setBath]; exact hc), core_setBath]

/-! ### Aborts that keep the move -/

theorem core_makeAbortMove (hc : s.core.Firm) {tag : Nat} (hi : ∀ m, s.hangerMove? tag = some m → ¬ m.InWork) :
    (s.makeAbortMove tag).core = s.core := by
  unfold State.makeAbortMove
  split
  · rename_i m hm
    obtain ⟨hmem, ht, hp⟩ := mem_of_hangerMove hm
    have kind : m.kind ≠ .yielding := fun e => by rw [(yields_iff hc hmem).1 e] at ht; cases ht
    have idle : m.state = .waiting ∨ m.state = .ready := by
      have hw := hi m hm
      unfold Move.InWork at hw
      cases e : m.state <;> simp_all
    rw [core_announceId, core_modMove_at hc hmem ?_]
    unfold Move.toAbort
    split
    · exact Move.core_idle kind kind idle (Or.inr rfl) rfl rfl rfl rfl rfl rfl
    · exact Move.core_idle kind (by simp) idle (Or.inr rfl) rfl rfl rfl rfl rfl rfl
  · rfl

/-- R49: a hanger whose abort waits for its move keeps what it claims. -/
theorem core_abortStrict (hc : s.core.Firm) {tag : Nat} (hi : ∀ m, s.hangerMove? tag = some m → ¬ m.InWork) :
    (s.abortStrict tag).core = s.core := by
  unfold State.abortStrict
  have changed : (((s.closeEntry tag .aborted).modHanger tag Hanger.stopCount).modHanger tag
      (fun h => { h with pendingAbort := true })).core = s.core := by
    rw [core_modHanger_same (by exact fun _ => rfl), core_stopCount, core_closeEntry]
  have moves : (((s.closeEntry tag .aborted).modHanger tag Hanger.stopCount).modHanger tag
      (fun h => { h with pendingAbort := true })).moves = s.moves := by simp
  rw [core_makeAbortMove (by rw [changed]; exact hc) (fun m hm => hi m (by rw [← State.hangerMove_congr moves]; exact hm)), changed]

/-- R47: the abort of a LOADED hanger. -/
theorem core_abortLoaded (tag : Nat) : (s.abortLoaded tag).core = s.core.abortRest tag := by
  unfold State.abortLoaded Core.abortRest
  rw [core_modHanger (f' := fun h => { h with forward := none, rank := .resting }) (fun h => rfl), core_releaseAll,
    core_removeMoveOf, core_leaveOrder]

/-- R48: the abort of a hanger IMMERSED in a BOUNDED or OPEN station. -/
theorem core_abortInPlace (tag : Nat) : (s.abortInPlace tag).core = s.core.abortRest tag := by
  unfold State.abortInPlace Core.abortRest
  rw [core_modHanger (f' := fun h => { h with forward := none, rank := .resting }) (fun h => rfl), core_stopCount, core_releaseAll,
    core_removeMoveOf, core_closeEntry]

end State

end Sys2Proof.Machine
end

