-- ==== Sys2Proof/Proofs/SlotAdvance.lean ====
section
/-! PROOFS. What becomes of a granted move that fails (R145 to R148), and the whole of an advance of the line time, keep the
invariant. -/

namespace Sys2Proof.Machine

/-- R145: a hanger that returns bears its move before and after. -/
theorem Hanger.core_returned (h : Hanger) (k : MoveKind) : (h.returned k).core = h.core := by
  unfold Hanger.returned
  split
  · rename_i e
    unfold Hanger.core
    rw [e]
    dsimp only
    split <;> rfl
  · rfl

theorem Move.not_ready_of_inWork {m : Move} (hw : m.InWork) : m.state ≠ .ready := by
  rcases hw with e | e | e <;> rw [e] <;> decide

namespace State

variable {s : State}

/-! ### The return of a granted move to READY -/

theorem core_modMove_returned (id : Nat) : (s.modMove id Move.returned).core = s.core.returned id :=
  core_modMove (fun m => by simp [Move.core, Move.returned])

/-- After the return the hanger's move is not granted. -/
theorem returned_idle (hc : s.core.Firm) {m : Move} {tag : Nat} (hm : m ∈ s.moves) (hs : m.state = .granted) (ht : m.tag = some tag)
    {n : Move} (hn : (s.modMove m.id Move.returned).hangerMove? tag = some n) : ¬ n.InWork := by
  obtain ⟨hmem, hnt, hnp⟩ := mem_of_hangerMove hn
  obtain ⟨x, hx, rfl⟩ := List.mem_map.1 hmem
  by_cases e : x.id = m.id
  · rw [if_pos e]
    rintro (e' | e' | e') <;> cases e'
  · rw [if_neg e] at hnt hnp
    exfalso
    have sole := hc.sole x.core (List.mem_map_of_mem hx) m.core (List.mem_map_of_mem hm) tag hnt ht
      (fun e' => hnp ((Move.core_placed x).1 e')) (fun e' => by rw [(Move.core_placed m).1 e'] at hs; cases hs)
    exact e (congrArg MoveCore.id sole)

theorem firm_abortReturned (hc : s.core.Firm) {tag : Nat} {h h' : Hanger} (hh : s.hanger? tag = some h)
    (hb : h.state.rank = .bearing) (hi : ∀ n, s.hangerMove? tag = some n → ¬ n.InWork) : (s.abortReturned tag h').core.Firm := by
  have hh' : s.core.hanger? tag = some h.core := by rw [State.core_hanger, hh]; rfl
  have rest := hc.abortRest hh' hb
  have wait : (s.abortStrict tag).core.Firm := by rw [core_abortStrict hc hi]; exact hc
  unfold State.abortReturned
  split
  · rw [core_abortLoaded]; exact rest
  · split
    · exact wait
    · rw [core_abortInPlace]; exact rest
  · exact wait

theorem firm_returnToReady (hc : s.core.Firm) {m : Move} (hm : m ∈ s.moves) (hs : m.state = .granted) :
    (s.returnToReady m).core.Firm := by
  have state : m.core.state = .granted := by rw [Move.core_state (by rw [hs]; decide), hs]
  have back : (s.modMove m.id Move.returned).core.Firm := by
    rw [core_modMove_returned]
    exact hc.returned (List.mem_map_of_mem hm) state
  unfold State.returnToReady
  dsimp only
  split
  · rename_i h hh
    obtain ⟨tag, ht, hh⟩ := Option.bind_eq_some_iff.1 hh
    obtain rfl := State.hanger_tag hh
    have same : ((s.modMove m.id Move.returned).modHanger h.tag (fun h => h.returned m.kind)).core
        = (s.modMove m.id Move.returned).core := core_modHanger_same (fun h => Hanger.core_returned h _)
    have firm : ((s.modMove m.id Move.returned).modHanger h.tag (fun h => h.returned m.kind)).core.Firm := by rw [same]; exact back
    have hanger : ((s.modMove m.id Move.returned).modHanger h.tag (fun h => h.returned m.kind)).hanger? h.tag
        = some (h.returned m.kind) := by
      rw [State.hanger_modHanger (fun x => congrArg HangerCore.tag (Hanger.core_returned x m.kind)), if_pos rfl]
      show (s.hanger? h.tag).map _ = _
      rw [hh]; rfl
    have rank : (h.returned m.kind).state.rank = .bearing := by
      obtain ⟨x, hx, hb⟩ := hc.bearer m.core (List.mem_map_of_mem hm) (by rw [state]; decide) h.tag ht
      rw [State.core_hanger, hh] at hx
      cases hx
      exact (congrArg HangerCore.rank (Hanger.core_returned h m.kind)).trans hb
    split
    · exact firm_abortReturned firm hanger rank (fun n hn => returned_idle hc hm hs ht hn)
    · split
      · rw [core_announceId, core_rejoin]; exact firm
      · rw [core_announceId]; exact firm
  · exact back

/-! ### Stranding and failure -/

theorem core_strand {g : GantryId} {m : Move} {tag : Nat} {d : SlotRef} (ht : m.tag = some tag) (hd : m.dest = some (.slot d)) :
    (s.strand g m).core = s.core.strand tag m.id g d := by
  unfold State.strand Core.strand
  rw [ht, hd]
  dsimp only
  rw [core_notify, core_modGantry_hold (x := some { tag := tag, dest := d }) g (by exact fun _ => rfl),
    core_modHanger (f' := fun h => { h with location := .gantry g, rank := .stranded }) (fun _ => rfl), core_removeMove]

/-- R146, R148: a granted move that fails is taken by its phase. -/
theorem firm_dispose (hc : s.core.Firm) {g : GantryId} {m : Move} (hm : m ∈ s.moves) (hw : m.InWork) (hg : m.gantry = some g) :
    (s.dispose g m).core.Firm := by
  have hmem : m.core ∈ s.core.moves := List.mem_map_of_mem hm
  have removed : m.tag = none ∨ m.state = .placed → (s.removeMove m.id).core.Firm := by
    intro h
    rw [core_removeMove]
    exact hc.removeMove hmem (h.imp_right (Move.core_placed m).2)
  unfold State.dispose
  split
  · rename_i hs
    split
    · rename_i hk
      exact removed (Or.inl ((yields_iff hc hm).1 hk))
    · exact firm_returnToReady hc hm hs
  · rename_i hs
    have state : m.core.state = .carried := by rw [Move.core_state (by rw [hs]; decide), hs]
    cases ht : m.tag with
    | none =>
      have e : s.strand g m = s.removeMove m.id := by unfold State.strand; rw [ht]
      rw [e]; exact removed (Or.inl ht)
    | some tag =>
      obtain ⟨d, hd⟩ := hc.lands m.core hmem state (by show m.tag ≠ none; rw [ht]; simp)
      rw [core_strand ht hd]
      exact hc.strand hmem ht state hg hd
  · rename_i h1 h2
    rcases hw with e | e | e
    · exact absurd e h1
    · exact absurd e h2
    · exact removed (Or.inr e)

theorem firm_setLink (hc : s.core.Firm) (g : GantryId) (l : LinkState) : (s.setLink g l).core.Firm := by
  rcases core_setLink (s := s) g l with e | e
  · rw [e]; exact hc
  · rw [e]
    refine hc.prune (fun m hm hp => Or.inl ((hc.plain m hm).1 ?_))
    by_contra hn
    simp [hn] at hp

/-- A change of the link state takes no move that is granted, and no hanger's. -/
theorem mem_setLink {g : GantryId} {l : LinkState} {m : Move} (hm : m ∈ s.moves) (hk : m.kind ≠ .yielding ∨ m.state ≠ .ready) :
    m ∈ (s.setLink g l).moves := by
  have linked : m ∈ ((s.modGantry g (fun r => { r with link := l })).notifyGantry g).moves := by simpa using hm
  unfold State.setLink
  split
  · exact hm
  · dsimp only
    split
    · refine List.mem_filter.2 ⟨linked, ?_⟩
      rcases hk with e | e <;> simp [e]
    · exact linked

/-- A gantry that fails takes its granted move with it. -/
theorem firm_failed (hc : s.core.Firm) {g : GantryId} {m : Move} {f : Gantry → Gantry} (hf : ∀ r, (f r).hold = r.hold) (l : LinkState)
    (hm : m ∈ s.moves) (hw : m.InWork) :
    ((s.modGantry g f).setLink g l).core.Firm ∧ m ∈ ((s.modGantry g f).setLink g l).moves :=
  ⟨firm_setLink (by rw [core_modGantry g hf]; exact hc) g l, mem_setLink (by simpa using hm) (Or.inr (Move.not_ready_of_inWork hw))⟩

theorem firm_limitDue (hc : s.core.Firm) (id : Nat) : (s.limitDue id).core.Firm := by
  unfold State.limitDue
  split
  · rename_i m hm
    obtain ⟨hmem, rfl⟩ := mem_of_move hm
    split
    · rename_i t g hl hg
      split
      · have work : m.InWork :=
          (Move.core_inWork m).1 (hc.limits m.core (List.mem_map_of_mem hmem) (by show m.limit.isSome = true; rw [hl]; rfl))
        obtain ⟨firm, hmem'⟩ := firm_failed (g := g) hc (f := fun r => r.failed none) (fun _ => rfl) .faulted hmem work
        unfold State.timeOut
        refine firm_dispose (by rw [core_notifyTimeout]; exact firm) ?_ work hg
        rw [State.notifyTimeout_moves]; exact hmem'
      · exact hc
    · exact hc
  · exact hc

/-! ### An advance of the line time -/

theorem firm_foldl {α : Type} {f : State → α → State} (hf : ∀ t a, t.core.Firm → (f t a).core.Firm) (l : List α) :
    ∀ s : State, s.core.Firm → (l.foldl f s).core.Firm := by
  induction l with
  | nil => exact fun _ hc => hc
  | cons a l ih => exact fun s hc => ih _ (hf s a hc)

/-- A loop whose turns leave the core as it is keeps the invariant. -/
theorem firm_foldl_steady {α : Type} {f : State → α → State} (hf : ∀ t a, t.core.Firm → (f t a).core = t.core) (l : List α)
    {s : State} (hc : s.core.Firm) : (l.foldl f s).core.Firm := by
  rw [core_foldl hf l s hc]; exact hc

theorem core_holdAtDue : s.holdAtDue.core = s.core := by
  unfold State.holdAtDue
  split
  · split
    · dsimp only
      split
      · rw [core_setMode]; rfl
      · rfl
    · rfl
  · rfl

theorem firm_settle (hc : s.core.Firm) : s.settle.core.Firm := by
  unfold State.settle State.settleEdges
  dsimp only
  rw [core_testAlarm]
  refine firm_foldl_steady (fun t n _ => core_burstDue n) _ ?_
  refine firm_foldl_steady (fun t n _ => core_burstEndDue n) _ ?_
  refine firm_foldl (fun t id ht => firm_limitDue ht id) _ _ ?_
  refine firm_foldl_steady (fun t st _ => core_staleDue st) _ ?_
  rw [core_holdAtDue]
  refine firm_foldl_steady (fun t tag ht => core_signal ht tag) _ ?_
  refine firm_foldl_steady (fun t id ht => core_readyDue ht id) _ ?_
  refine firm_foldl_steady (fun t tag _ => core_unagitatedDue tag) _ ?_
  exact firm_foldl_steady (fun t tag _ => by simp) _ hc

theorem core_advance : s.advance.core = s.core :=
  (core_of_fields (s := s.tickCounts) rfl rfl rfl rfl rfl).trans core_tickCounts

theorem firm_lineTimeAdvance (hc : s.core.Firm) (e : AdvanceEvents) {t : State} (ht : execLineTimeAdvance e s = .next t) :
    t.core.Firm := by
  have advanced : s.settle.advance.core.Firm := by rw [core_advance]; exact firm_settle hc
  unfold execLineTimeAdvance at ht
  rw [← Host.Outcome.next.inj ht]
  cases e with
  | taken => exact firm_settle advanced
  | left => exact advanced

end State

end Sys2Proof.Machine
end

