-- ==== Sys2Proof/Proofs/SlotPlainRequests.lean ====
section
/-! PROOFS. The requests that touch neither slots nor moves leave the core as it is; those that change a link state alone keep the
invariant. -/

namespace Sys2Proof.Machine

namespace State

variable {s : State}

/-! ### Requests that name a record -/

theorem withHanger_keeps {P : State → Prop} {tag : Nat} {body : Hanger → State × Reply} (h0 : P s)
    (hb : ∀ h, s.hanger? tag = some h → P (body h).1) : P (s.withHanger tag body).1 := by
  unfold State.withHanger
  split
  · exact h0
  · split
    · rename_i h hh; exact hb h hh
    · exact h0

theorem withBath_keeps {P : State → Prop} {st : Nat} {body : Bath → State × Reply} (h0 : P s) (hb : ∀ b, P (body b).1) :
    P (s.withBath st body).1 := by
  unfold State.withBath
  split
  · exact h0
  · split
    · exact hb _
    · exact h0

theorem withGantry_keeps {P : State → Prop} {x : Nat} {body : GantryId → State × Reply} (h0 : P s) (hb : ∀ g, P (body g).1) :
    P (s.withGantry x body).1 := by
  unfold State.withGantry
  split
  · exact hb _
  · exact h0

/-- R140: a report is taken with the move the gantry holds from its grant. -/
theorem report_keeps {P : State → Prop} {g : GantryId} {id : Nat} {phase : Move → Bool} {body : Move → State × Reply} (h0 : P s)
    (hb : ∀ m, m ∈ s.moves → m.id = id → (s.gantry g).granted = some id → phase m = true → P (body m).1) :
    P (s.report g id phase body).1 := by
  unfold State.report
  split
  · exact h0
  · split
    · exact h0
    · split
      · exact h0
      · rename_i hg
        split
        · rename_i m hm
          obtain ⟨hmem, hid⟩ := mem_of_move hm
          split
          · rename_i hp; exact hb m hmem hid (by simpa using hg) hp
          · exact h0
        · exact h0

/-! ### Recipes, settings, modes and ports -/

theorem core_draftRecipe (r n : Nat) : (draftRecipe r n s).1.core = s.core := by
  unfold draftRecipe
  split <;> rfl

theorem core_draftSteps (r f : Nat) (l : List RawStep) : (draftSteps r f l s).1.core = s.core := by
  unfold draftSteps
  split
  · split_ifs <;> rfl
  · rfl

theorem core_writeRecipe (r : Nat) : (writeRecipe r s).1.core = s.core := by
  have stored : ∀ v, (s.storeVersion r v).1.core = s.core := fun v => by
    unfold State.storeVersion
    dsimp only
    split <;> rfl
  unfold writeRecipe
  split
  · rfl
  · split
    · split
      · rfl
      · split
        · rfl
        · dsimp only
          split
          · rfl
          · exact stored _
    · rfl

theorem core_discardStaged (r : Nat) : (discardStaged r s).1.core = s.core := by
  unfold discardStaged
  split_ifs <;> rfl

theorem core_setGuard (gap : Nat) : (setGuard gap s).1.core = s.core := by
  unfold setGuard
  split_ifs <;> rfl

theorem core_setGantry (g lo hi h p m : Nat) : (setGantry g lo hi h p m s).1.core = s.core := by
  unfold setGantry
  refine withGantry_keeps (P := fun t => t.core = s.core) rfl (fun g => ?_)
  dsimp only
  split_ifs
  · rfl
  · rfl
  · rfl
  · exact core_modGantry g (fun _ => rfl)
  · exact core_modGantry g (fun _ => rfl)

theorem core_setGasLimit (g : Nat) : (setGasLimit g s).1.core = s.core := by
  unfold setGasLimit
  split_ifs <;> rfl

theorem core_gasHoldRequest (c k : Nat) : (gasHold c k s).1.core = s.core := by
  unfold gasHold
  split
  · split_ifs
    · rfl
    · exact core_gasHold _ _
    · exact core_gasRelease _ _
  · rfl

/-- A station's gas channel is not of the core. -/
theorem core_assign (st : Nat) (n : Option Nat) : (s.modStation st (fun x => { x with gasChannel := n })).core = s.core :=
  core_modStation rfl (fun _ => rfl)

theorem core_moveChannel (n : Nat) (new : Option Nat) : (s.moveChannel n new).core = s.core := by
  unfold State.moveChannel
  dsimp only
  rw [core_modChannel]
  cases (s.channel n).station with
  | none =>
    cases new with
    | none => rfl
    | some st => exact core_assign st _
  | some old =>
    cases new with
    | none => exact core_assign old _
    | some st => exact (core_assign st _).trans (core_assign old _)

theorem core_startChannel (n : Nat) : (s.startChannel n).core = s.core := by
  unfold State.startChannel
  dsimp only
  split_ifs
  · rfl
  · rfl
  · rw [core_fallDue]; rfl

theorem core_applyChannel (n : Nat) (new : Option Nat) (e : Bool) (b len : Nat) : (s.applyChannel n new e b len).core = s.core := by
  have moved : (if (s.channel n).station = new then s else s.moveChannel n new).core = s.core := by
    split
    · rfl
    · exact core_moveChannel n new
  unfold State.applyChannel
  dsimp only
  split
  · rw [core_modChannel, core_modChannel]; exact moved
  · split
    · rw [core_startChannel, core_modChannel]; exact moved
    · rw [core_modChannel]; exact moved

theorem core_setChannel (c st en b len : Nat) : (setChannel c st en b len s).1.core = s.core := by
  unfold setChannel
  split
  · split_ifs
    · rfl
    · rfl
    · dsimp only
      split
      · rfl
      · exact core_applyChannel _ _ _ _ _
  · rfl

theorem core_runLine : (runLine s).1.core = s.core := by
  unfold runLine
  split
  · rfl
  · exact core_setMode _ _

theorem core_drainLine : (drainLine s).1.core = s.core := by
  unfold drainLine
  split
  · exact core_setMode _ _
  · rfl

theorem core_holdLine : (holdLine s).1.core = s.core := by
  unfold holdLine
  split
  · exact core_setMode _ _
  · rfl

theorem core_stopLine : (stopLine s).1.core = s.core := by
  unfold stopLine
  split
  · rfl
  · exact core_setMode _ _

theorem core_holdAt (t : LineTime) : (Machine.holdAt t s).1.core = s.core := by
  unfold Machine.holdAt
  split_ifs <;> rfl

theorem core_rescueClear (l : Nat) : (rescueClear l s).1.core = s.core := by
  unfold rescueClear
  split_ifs
  · rfl
  · rfl
  · dsimp only
    split
    · split
      · rfl
      · exact core_releaseStation _ _
    · rfl

theorem core_setGrace (hc : s.core.Firm) (g : Nat) : (setGrace g s).1.core = s.core := by
  have regraced : ({ s with grace := clampNat 0 600 g, hangers := s.hangers.map (fun h =>
      { h with imm := h.imm.regrace (clampNat 0 600 g) }) } : State).core = s.core := core_mapHangers (fun _ => rfl)
  have signalled : ∀ t : State, t.core = s.core → (s.tags.foldl (fun t tag => t.signal tag) t).core = s.core := by
    intro t ht
    rw [core_foldl (fun t tag ht => core_signal ht tag) _ _ (by rw [ht]; exact hc), ht]
  exact signalled _ regraced

theorem core_setAlarm (d : Nat) : (setAlarm d s).1.core = s.core := rfl

theorem core_getNotice (p : PortId) : (getNotice p s).1.core = s.core := by
  unfold getNotice
  split
  · exact core_modPort _ _
  · dsimp only
    split
    · rw [core_testAlarm, core_modPort]
    · exact core_modPort _ _

theorem core_setMask (p : PortId) (m : BitVec 16) : (setMask p m s).1.core = s.core := by
  unfold setMask
  split
  · rfl
  · exact core_modPort _ _

/-! ### Baths -/

theorem core_placeInService (st : Nat) : (s.placeInService st).core = s.core := by
  unfold State.placeInService
  split
  · split
    · exact core_setReadiness _ _
    · rfl
  · rfl

theorem core_setBathRequest (hc : s.core.Firm) (st : Nat) (b : BathSettings) : (setBathRequest st b s).1.core = s.core := by
  unfold setBathRequest
  refine withBath_keeps (P := fun t => t.core = s.core) rfl (fun b => ?_)
  have written : ∀ n, (s.writeSettings st b n).core = s.core := fun n => by
    unfold State.writeSettings
    rw [core_convertArea, core_staleDue, core_modBath, core_placeInService, core_storeBath hc]
  dsimp only
  split_ifs
  · rfl
  · rfl
  all_goals exact written _

theorem core_bathReport (hc : s.core.Firm) (st : Nat) (z : Int) : (bathReport st z s).1.core = s.core := by
  unfold bathReport
  refine withBath_keeps (P := fun t => t.core = s.core) rfl (fun b => ?_)
  split
  · rfl
  · show (s.acceptReading st b z).core = s.core
    unfold State.acceptReading State.judge
    split
    · rw [core_tripBath, core_storeBath hc]
    · rw [core_setReadiness, core_storeBath hc]

theorem core_bathTrip (st : Nat) : (bathTrip st s).1.core = s.core := by
  unfold bathTrip
  refine withBath_keeps (P := fun t => t.core = s.core) rfl (fun b => ?_)
  split
  · rfl
  · exact core_tripBath _ _

theorem core_clearTrip (st : Nat) (b : Bath) : (s.clearTrip st b).core = s.core := by
  unfold State.clearTrip
  dsimp only
  split <;> simp

theorem core_bathClear (st : Nat) : (bathClear st s).1.core = s.core := by
  unfold bathClear
  refine withBath_keeps (P := fun t => t.core = s.core) rfl (fun b => ?_)
  split
  · rfl
  · split
    · split
      · rfl
      · exact core_clearTrip _ _
    · exact core_clearTrip _ _

theorem core_replenished (st : Nat) : (replenished st s).1.core = s.core := by
  unfold replenished
  refine withBath_keeps (P := fun t => t.core = s.core) rfl (fun b => ?_)
  split <;> rfl

/-! ### Link states -/

theorem firm_gantryPause (hc : s.core.Firm) (g : Nat) : (gantryPause g s).1.core.Firm := by
  unfold gantryPause
  refine withGantry_keeps (P := fun t => t.core.Firm) hc (fun g => ?_)
  split
  · show ((s.setLink g .paused).notifyPause g 0).core.Firm
    rw [core_notifyPause]
    exact firm_setLink hc g _
  · split
    · exact hc
    · show ((s.modGantry g _).notifyPause g 1).core.Firm
      rw [core_notifyPause, core_modGantry g (by exact fun _ => rfl)]
      exact hc
  all_goals exact hc

theorem firm_gantryResume (hc : s.core.Firm) (g : Nat) : (gantryResume g s).1.core.Firm := by
  unfold gantryResume
  refine withGantry_keeps (P := fun t => t.core.Firm) hc (fun g => ?_)
  split
  · show (((s.setLink g .ready).notifyPause g 2).readyWork g).core.Firm
    rw [core_readyWork, core_notifyPause]
    exact firm_setLink hc g _
  · split
    · show ((s.modGantry g _).notifyPause g 2).core.Firm
      rw [core_notifyPause, core_modGantry g (by exact fun _ => rfl)]
      exact hc
    · exact hc

theorem firm_hello (hc : s.core.Firm) (g : GantryId) : (hello g s).1.core.Firm := by
  unfold hello
  dsimp only
  split
  · split_ifs
    · exact hc
    · exact hc
    · exact firm_setLink (by rw [core_modGantry g (by exact fun _ => rfl)]; exact hc) g _
  · exact hc
  · exact hc

theorem firm_homed (hc : s.core.Firm) (g : GantryId) : (homed g s).1.core.Firm := by
  unfold homed
  split
  · show (((s.modGantry g (fun r => r.standAt r.homing)).setLink g .ready).readyWork g).core.Firm
    rw [core_readyWork]
    exact firm_setLink (by rw [core_modGantry g (by exact fun _ => rfl)]; exact hc) g _
  · exact hc

end State

end Sys2Proof.Machine
end

