-- ==== Sys2Proof/Proofs/SlotMapRequests.lean ====
section
/-! PROOFS. The requests of the station map, CLEAR-LINE and the aborts keep the agreement of slots; the slot operations of R6 on the
core. -/

namespace Sys2Proof.Machine

namespace State

variable {s : State}

/-! ### The slot operations of R6 -/

theorem core_occupy (hl : MapLawful s) {r : SlotRef} {tag : Nat} {t : State} (h : s.occupy r tag = some t) :
    t.core = s.core.setSlot r (.occupied tag) ∧ (s.slotAt r = .free ∨ (s.slotAt r).reservedFor tag = true) := by
  unfold State.occupy at h
  split at h
  · rename_i hr
    cases h
    obtain ⟨h1, h2⟩ := hasSlot_bound hl hr.1
    exact ⟨(core_reportOccupancy _ _).trans (core_setSlot h1 h2), hr.2⟩
  · cases h

theorem core_vacate {r : SlotRef} {tag : Nat} {t : State} (h : s.vacate r tag = some t) :
    t.core = s.core.setSlot r .free ∧ s.slotAt r = .occupied tag := by
  unfold State.vacate at h
  split at h
  · rename_i hr
    cases h
    obtain ⟨h1, h2⟩ := slot_bound (s := s) (r := r) (by rw [hr]; simp)
    exact ⟨(core_reportOccupancy _ _).trans (core_setSlot h1 h2), hr⟩
  · cases h

theorem core_reserve (hl : MapLawful s) {r : SlotRef} {tag : Nat} {k : ReservationKind} {t : State} (h : s.reserve r tag k = some t) :
    t = s.setSlot r (.reserved tag k) ∧ t.core = s.core.setSlot r (.reserved tag k) ∧ s.slotAt r = .free := by
  unfold State.reserve at h
  split at h
  · rename_i hr
    cases h
    obtain ⟨h1, h2⟩ := hasSlot_bound hl hr.1
    exact ⟨rfl, core_setSlot h1 h2, hr.2⟩
  · cases h

theorem together_keeps {P : State → Prop} {o : Option State} {rest : State → State} (h0 : P s) (h : ∀ t, o = some t → P (rest t)) :
    P (s.together o rest) := by
  cases o with
  | none => exact h0
  | some t => exact h t rfl

/-! ### The station map -/

/-- A map in which some slots become free agrees with an empty hanger table. -/
theorem sound_of_vacant (hc : s.core.Firm) (hh : s.hangers = []) {t : State} (hth : t.hangers = s.hangers) (htm : t.moves = s.moves)
    (hg : ∀ g, (t.gantry g).hold = (s.gantry g).hold) (hs : ∀ r, t.slotAt r = .free ∨ t.slotAt r = s.slotAt r) : t.core.Sound := by
  have gone : ∀ tag, s.core.hanger? tag = none := fun tag => by rw [State.core_hanger, State.hanger?, hh]; rfl
  refine Core.Sound.vacant ?_ (fun tag => ?_) (fun r tag => ?_) (fun g => ?_)
  · show t.hangers.map Hanger.core = []
    rw [hth, hh]; rfl
  · rw [State.core_move, State.hangerMove_congr htm, ← State.core_move]
    refine Core.move_none.2 (fun m hm ht => by_contra fun hp => ?_)
    obtain ⟨x, hx, -⟩ := hc.bearer m hm hp tag ht
    rw [gone tag] at hx; cases hx
  · show (t.slotAt r).names tag = false
    rcases hs r with e | e
    · rw [e]; rfl
    · rw [e]; exact hc.agrees.unnamed (gone tag) r
  · show (t.gantry g).hold = none
    rw [hg]
    cases hx : (s.gantry g).hold with
    | none => rfl
    | some x =>
      obtain ⟨y, hy, -⟩ := hc.stranded g x hx
      rw [gone] at hy; cases hy

/-- Every slot of a station after the change of one station. -/
theorem slotAt_modStation {st : Nat} {f : Station → Station} (hf : ∀ i, (f (s.station st)).slot i = .free
    ∨ (f (s.station st)).slot i = (s.station st).slot i) (r : SlotRef) :
    (s.modStation st f).slotAt r = .free ∨ (s.modStation st f).slotAt r = s.slotAt r := by
  unfold State.slotAt
  by_cases hst : st < 24
  · rw [State.station_modStation hst]
    split
    · rename_i e; rw [e]; exact hf r.slot
    · exact Or.inr rfl
  · have e : (s.modStation st f).stations = s.stations := Vector.setIfInBounds_eq_of_size_le (by omega)
    rw [State.station_congr e]; exact Or.inr rfl

/-- R10: the slots kept by a write stand as they were. -/
theorem slot_written (x : Station) (w : StationWrite) (a i : Nat) : (x.written w a).slot i = .free ∨ (x.written w a).slot i = x.slot i := by
  unfold Station.slot Station.written Station.trimSlots
  by_cases hi : i < 4
  · simp only [Vector.getElem?_ofFn, hi, dif_pos, Option.getD_some]
    split
    · exact Or.inr rfl
    · exact Or.inl rfl
  · exact Or.inl (by rw [Vector.getElem?_eq_none (by omega)]; rfl)

theorem sound_setStation (hc : s.core.Firm) (st cls grp x n a sv rl : Nat) : (setStation st cls grp x n a sv rl s).1.core.Sound := by
  unfold setStation
  split_ifs
  · exact hc.toSound
  · exact hc.toSound
  · exact hc.toSound
  · rename_i hw _
    obtain ⟨-, hh⟩ := (State.mapWritable_iff s).1 (by simpa using hw)
    split
    · exact hc.toSound
    · rename_i w _
      split_ifs
      · exact hc.toSound
      all_goals
        have written : (s.writeStation st w a).core = (s.modStation st (fun y => y.written w a)).core := by
          unfold State.writeStation
          dsimp only
          split
          · exact core_activateBath _
          · exact core_deactivateBath _
          · rfl
        show (s.writeStation st w a).core.Sound
        rw [written]
        exact sound_of_vacant hc hh rfl rfl (fun g => by cases g <;> rfl) (slotAt_modStation (slot_written _ w a))

theorem sound_clearStation (hc : s.core.Firm) (st : Nat) : (clearStation st s).1.core.Sound := by
  unfold clearStation
  split_ifs
  · exact hc.toSound
  · exact hc.toSound
  · exact hc.toSound
  · exact hc.toSound
  · rename_i hw _ _
    obtain ⟨-, hh⟩ := (State.mapWritable_iff s).1 (by simpa using hw)
    have core : (s.deactivateBath st).core = s.core := core_deactivateBath st
    have firm : (s.deactivateBath st).core.Firm := by rw [core]; exact hc
    exact sound_of_vacant firm (by simpa using hh) rfl rfl (fun g => by cases g <;> rfl)
      (slotAt_modStation (fun i => Or.inl (Station.slot_absent i)))

/-- R12, R13: a slot in no hanger's use is blocked or freed. -/
theorem sound_setSlot_unnamed (hl : MapLawful s) (hc : s.core.Firm) {r : SlotRef} {x : Slot}
    (hr : (s.station r.station).hasSlot r.slot = true) (hs : ∀ tag, (s.slotAt r).names tag = false) (hx : ∀ tag, x.names tag = false) :
    (s.setSlot r x).core.Sound := by
  obtain ⟨h1, h2⟩ := hasSlot_bound hl hr
  rw [core_setSlot h1 h2]
  exact hc.toSound.setSlot hs hx

theorem sound_block (hl : MapLawful s) (hc : s.core.Firm) (st sl : Nat) : (block st sl s).1.core.Sound := by
  unfold block
  split_ifs
  · exact hc.toSound
  · exact hc.toSound
  · rename_i hs
    split
    · rename_i hfree
      refine sound_setSlot_unnamed hl hc (by simpa using hs) (fun tag => ?_) (fun _ => rfl)
      show ((s.station st).slot sl).names tag = false
      rw [hfree]; rfl
    all_goals exact hc.toSound

theorem sound_unblock (hl : MapLawful s) (hc : s.core.Firm) (st sl : Nat) : (unblock st sl s).1.core.Sound := by
  unfold unblock
  split_ifs
  · exact hc.toSound
  · exact hc.toSound
  · rename_i hs
    split
    · rename_i hblocked
      refine sound_setSlot_unnamed hl hc (by simpa using hs) (fun tag => ?_) (fun _ => rfl)
      show ((s.station st).slot sl).names tag = false
      rw [hblocked]; rfl
    all_goals exact hc.toSound

/-- R16, R168: after CLEAR-LINE there is nothing to agree on. -/
theorem sound_clearLine (hc : s.core.Firm) : (clearLine s).1.core.Sound := by
  unfold clearLine
  split
  · obtain ⟨t, slots, recipes⟩ := s.clearAll_cleared
    generalize s.clearAll = u at recipes
    have core : u.core = t.core := by
      rw [recipes.rest]
      exact core_of_fields rfl rfl rfl rfl rfl
    show u.core.Sound
    rw [core]
    refine Core.Sound.vacant ?_ (fun tag => Core.move_none.2 ?_) (fun r tag => ?_) (fun g => ?_)
    · show t.hangers.map Hanger.core = []
      rw [slots.rest]; rfl
    · intro m hm
      have hm' : m ∈ t.moves.map Move.core := hm
      rw [slots.rest] at hm'
      cases hm'
    · show (t.slotAt r).names tag = false
      unfold State.slotAt
      rw [slots.station]
      split
      · rw [Station.slot_cleared]
        split <;> rfl
      · rename_i hst
        rw [State.station_outside _ hst, Station.slot_absent]; rfl
    · show (t.gantry g).hold = none
      rw [slots.rest]
      cases g <;> rfl
  · exact hc.toSound

/-! ### ABORT-HANGER -/

theorem sound_abortHanger (hc : s.core.Firm) (ha : ∀ h ∈ s.hangers, HangerAgrees s h) (tag : Nat) :
    (abortHanger tag s).1.core.Sound := by
  unfold abortHanger
  refine withHanger_keeps (P := fun t => t.core.Sound) hc.toSound (fun h hh => ?_)
  obtain ⟨hmem, ht⟩ := mem_of_hanger hh
  have agrees := ha h hmem
  have hh' : s.core.hanger? tag = some h.core := by rw [State.core_hanger, hh]; rfl
  have pend : (s.modHanger tag (fun h => { h with pendingAbort := true })).core.Sound := by
    rw [core_modHanger_same (by exact fun _ => rfl)]; exact hc.toSound
  have strict : (∀ m, s.hangerMove? tag = some m → ¬ m.InWork) → (s.abortStrict tag).core.Sound := by
    intro hi
    rw [core_abortStrict hc hi]; exact hc.toSound
  unfold HangerAgrees at agrees
  rw [ht] at agrees
  split
  · exact hc.toSound
  · dsimp only
    split
    · rename_i e
      show (s.abortLoaded tag).core.Sound
      rw [core_abortLoaded]
      exact (hc.abortRest hh' (congrArg HangerState.rank e)).toSound
    · rename_i e
      rw [e] at agrees
      obtain ⟨-, -, m, hm, idle⟩ := agrees
      split
      · exact strict (fun n hn => by rw [hm] at hn; cases hn; exact idle)
      · show (s.abortInPlace tag).core.Sound
        rw [core_abortInPlace]
        exact (hc.abortRest hh' (congrArg HangerState.rank e)).toSound
    · rename_i e
      split
      · exact pend
      · rename_i hg
        refine strict (fun n hn hw => hg ?_)
        unfold State.moveGranted
        rw [hn]
        obtain ⟨-, -, hp⟩ := mem_of_hangerMove hn
        rcases hw with e | e | e
        · simp [e]
        · simp [e]
        · exact absurd e hp
    · exact pend
    all_goals exact hc.toSound

end State

end Sys2Proof.Machine
end

