-- ==== Sys2Proof/Proofs/SlotHangerRequests.lean ====
section
/-! PROOFS. Admission, the return to service, recovery and withdrawal keep the agreement of slots: each leaves its hanger settled,
then makes its next move or none. -/

namespace Sys2Proof.Machine

namespace State

variable {s : State} {c : Core} {tag : Nat}

theorem core_hanger_some {h : Hanger} (hh : s.hanger? tag = some h) : s.core.hanger? tag = some h.core := by
  rw [State.core_hanger, hh]; rfl

/-- A settled hanger has its record. -/
theorem hanger_of_settled {x : HangerCore} (hs : c.Settled s.core tag x) : ∃ h, s.hanger? tag = some h ∧ h.core = x := by
  have := hs.idle.hanger
  rw [State.core_hanger, Option.map_eq_some_iff] at this
  exact this

/-! ### The next move -/

/-- A move the model creates is not granted. -/
theorem not_inWork_of_idle {m : Move} (hs : m.state = .waiting ∨ m.state = .ready) : ¬ m.core.InWork := by
  rw [Move.core_inWork]
  rintro (e | e | e) <;> rcases hs with e' | e' <;> rw [e] at e' <;> cases e'

/-- A settled hanger keeps the agreement when a move is created for it that leads to the slot it holds forward. -/
theorem sound_createMove (hc : c.Sound) {x : HangerCore} (hs : c.Settled s.core tag x) (hr : x.rank ≠ .resting) {m : Move}
    (ht : m.tag = some tag) (hd : m.dest = x.forward.map Place.slot) (hi : m.state = .waiting ∨ m.state = .ready) :
    (s.createMove m).core.Sound := by
  rw [core_createMove]
  exact hs.addMove_sound hc hr ht hd (not_inWork_of_idle (m := { m with id := s.freshId }) hi)

/-- R106: the fields of a hanger's next move that the slots read. -/
theorem nextMove_fields (h : Hanger) (r : SlotRef) : (s.nextMove h r).tag = some h.tag
    ∧ (s.nextMove h r).dest = (if (s.station r.station).cls = .strict then h.forward.map Place.slot else none)
    ∧ ((s.nextMove h r).state = .waiting ∨ (s.nextMove h r).state = .ready) := by
  unfold State.nextMove
  dsimp only
  obtain ⟨-, -, ht, hd, -⟩ := Move.timed_fields
    { Move.fresh (if h.step + 1 < (s.recipe h.recipe).active.length then .step else .exit) (.slot r)
        (if (s.station r.station).cls = .strict then h.forward.map Place.slot else none) with
      tag := some h.tag, seq := some h.seq, drip := s.stepDrip h.recipe h.step } h.imm s.lineTime (s.station r.station).allowance
  exact ⟨ht, hd, readyState_idle _ _⟩

/-- R106: out of a STRICT station the move leads to the slot held forward; elsewhere none is held. -/
theorem nextMove_dest {h : Hanger} {r : SlotRef} (hf : h.forward ≠ none → s.core.strict r.station) :
    (s.nextMove h r).dest = h.forward.map Place.slot := by
  rw [(nextMove_fields h r).2.1]
  split
  · rfl
  · rename_i hn
    cases hw : h.forward with
    | none => rfl
    | some f => exact absurd (hf (by rw [hw]; simp)) hn

theorem sound_createNext (hc : c.Sound) {x : HangerCore} {r : SlotRef} (hs : c.Settled s.core tag x) (hr : x.rank ≠ .resting)
    (hf : x.forward ≠ none → s.core.strict r.station) : (s.createNext tag r).core.Sound := by
  obtain ⟨h, hh, rfl⟩ := hanger_of_settled hs
  obtain rfl := State.hanger_tag hh
  unfold State.createNext
  rw [hh]
  obtain ⟨ht, -, hi⟩ := nextMove_fields (s := s) h r
  exact sound_createMove hc hs hr ht (nextMove_dest hf) hi

theorem sound_createEntry (hc : c.Sound) {h : Hanger} {r : SlotRef} (hs : c.Settled s.core h.tag h.core) (hr : h.core.rank ≠ .resting)
    (hf : h.core.forward = none) {g : Hanger} (hg : g.tag = h.tag) : (s.createEntry g r).core.Sound :=
  sound_createMove hc hs hr (congrArg some hg) (by rw [hf]; rfl) (Or.inr rfl)

/-! ### The beginning of a step -/

/-- R44, but for the move: the hanger is IMMERSED where it rests. -/
theorem settled_openStep {x : HangerCore} {r : SlotRef} {k : Nat} (hs : c.Settled s.core tag x) (hl : x.location = .slot r)
    (hk : x.rank = .bearing ∨ ∀ h, s.hanger? tag = some h → s.recipeStep? h.recipe k ≠ none) :
    c.Settled (s.openStep tag k r).core tag { x with rank := .bearing } := by
  obtain ⟨h, hh, hx⟩ := hanger_of_settled hs
  unfold State.openStep
  rw [hh]
  dsimp only
  split
  · have begun : ∀ i, (s.modHanger tag (fun h => h.beginAt r k i s.lineTime)).core
        = s.core.modHanger tag (fun y => { y with location := .slot r, rank := .bearing }) := by
      intro i
      refine core_modHanger (fun y => ?_)
      have e := Hanger.core_appendEntry y (RunEntry.opened r s.lineTime)
      exact congrArg (fun z : HangerCore => { z with location := .slot r, rank := .bearing }) e
    rw [core_notify, core_markIfStale, begun]
    have moved := hs.modHanger (f := fun y => { y with location := .slot r, rank := .bearing }) (fun _ => rfl) hl.symm rfl
    have e : ({ x with location := .slot r, rank := .bearing } : HangerCore) = { x with rank := .bearing } := by rw [← hl]
    rw [← e]
    exact moved
  · rename_i hn
    rcases hk with hb | hk
    · have e : ({ x with rank := .bearing } : HangerCore) = x := by rw [← hb]
      rw [e]; exact hs
    · exact absurd hn (hk h hh)

theorem core_strict_openStep (k : Nat) (r : SlotRef) : (s.openStep tag k r).core.strict = s.core.strict := by
  funext st
  show (((s.openStep tag k r).station st).cls = .strict) = _
  rw [State.station_congr (State.openStep_stations s tag k r)]
  rfl

theorem sound_beginStep (hc : c.Sound) {x : HangerCore} {r : SlotRef} {k : Nat} (hs : c.Settled s.core tag x)
    (hl : x.location = .slot r) (hk : x.rank = .bearing ∨ ∀ h, s.hanger? tag = some h → s.recipeStep? h.recipe k ≠ none)
    (hf : x.forward ≠ none → s.core.strict r.station) : (s.beginStep tag k r).core.Sound := by
  have opened := settled_openStep hs hl hk
  unfold State.beginStep
  exact sound_createNext hc opened (by decide : Rank.bearing ≠ Rank.resting) (fun e => by rw [core_strict_openStep]; exact hf e)

/-! ### ADMIT -/

theorem core_enter (t : State) (h : Hanger) (o : List Nat) (n : Seq) :
    ({ t with hangers := t.hangers ++ [h], startOrder := o, admissions := n } : State).core = t.core.addHanger h.core := by
  unfold State.core Core.addHanger
  congr 1
  show (t.hangers ++ [h]).map Hanger.core = _
  rw [List.map_append]
  rfl

theorem sound_admitRule (hl : MapLawful s) (hc : s.core.Firm) (tag recipe scale area st sl : Nat) :
    (admitRule tag recipe scale area st sl s).1.core.Sound := by
  unfold admitRule
  dsimp only
  split_ifs
  · exact hc.toSound
  · exact hc.toSound
  · exact hc.toSound
  · exact hc.toSound
  · exact hc.toSound
  all_goals
    rename_i hn hfree _ _
    refine together_keeps (P := fun t => t.core.Sound) hc.toSound (fun t ht => ?_)
    obtain ⟨core, -⟩ := core_occupy hl ht
    have gone : s.core.hanger? tag = none := by
      rw [State.core_hanger, Option.not_isSome_iff_eq_none.1 hn]; rfl
    have settled := hc.settled_admitted (r := { station := st, slot := sl })
      (h := (Hanger.admitted tag s.admissions recipe (clampNat 500 2000 scale) area { station := st, slot := sl }).core) gone
      (not_not.1 hfree) rfl rfl
    refine sound_createEntry (c := s.core)
      (h := Hanger.admitted tag s.admissions recipe (clampNat 500 2000 scale) area { station := st, slot := sl }) hc.toSound ?_
      (by decide : Rank.bearing ≠ Rank.resting) rfl rfl
    rw [core_enter, core]
    exact settled

/-! ### RESUME-HANGER and RESTART-HANGER -/

theorem sound_beginAfresh (hl : MapLawful s) (hc : s.core.Firm) {h : Hanger} {r : SlotRef} {k : Nat} (hh : s.hanger? h.tag = some h)
    (hr : h.state.rank = .resting) (hloc : h.location = .slot r) : (s.beginAfresh h k r).1.core.Sound := by
  obtain ⟨settled, none⟩ := hc.settled_of_resting (core_hanger_some hh) hr
  unfold State.beginAfresh
  split
  · exact hc.toSound
  · rename_i hk
    have step : s.recipeStep? h.recipe k ≠ Option.none := fun e => hk (by rw [e]; rfl)
    split
    · rename_i hstrict
      split
      · exact hc.toSound
      · split
        · rename_i f _
          refine together_keeps (P := fun t => t.core.Sound) hc.toSound (fun t ht => ?_)
          obtain ⟨rfl, core, free⟩ := core_reserve hl ht
          have reserved := settled.reserve (f := f) free none
          have moved : ((s.setSlot f (.reserved h.tag .forward)).modHanger h.tag (fun h => { h with forward := some f })).core
              = (s.core.setSlot f (.reserved h.tag .forward)).modHanger h.tag (fun y => { y with forward := some f }) := by
            rw [core_modHanger (f' := fun y => { y with forward := some f }) (fun _ => rfl), core]
          rw [← moved] at reserved
          refine sound_beginStep hc.toSound reserved hloc (Or.inr (fun g hg => ?_)) (fun _ => ?_)
          · rw [State.hanger_modHanger (by exact fun _ => rfl), if_pos rfl] at hg
            have hg' : (s.hanger? h.tag).map (fun h => { h with forward := some f }) = some g := hg
            rw [hh] at hg'
            cases hg'
            exact step
          · rw [moved]; exact hstrict
        · exact hc.toSound
    · refine sound_beginStep hc.toSound settled hloc (Or.inr (fun g hg => ?_)) (fun e => absurd none e)
      rw [hh] at hg; cases hg
      exact step

theorem sound_resumeInPlace (hc : s.core.Firm) {h : Hanger} {r : SlotRef} (hh : s.hanger? h.tag = some h)
    (hr : h.state.rank = .resting) : (s.resumeInPlace h r).core.Sound := by
  obtain ⟨settled, none⟩ := hc.settled_of_resting (core_hanger_some hh) hr
  have resumed := settled.modHanger (f := fun y => { y with rank := .bearing }) (fun _ => rfl) rfl rfl
  have moved : (s.modHanger h.tag (fun h => h.resumed s.lineTime)).core
      = s.core.modHanger h.tag (fun y => { y with rank := .bearing }) := by
    refine core_modHanger (fun y => ?_)
    have e := Hanger.core_modNewest y RunEntry.reopen
    exact congrArg (fun z : HangerCore => { z with rank := .bearing }) e
  unfold State.resumeInPlace
  refine sound_createNext hc.toSound (x := { h.core with rank := .bearing }) ?_ (by decide : Rank.bearing ≠ Rank.resting)
    (fun e => absurd none e)
  rw [core_notify, core_markIfStale, moved]
  exact resumed

theorem sound_resumeHanger (hl : MapLawful s) (hc : s.core.Firm) (tag : Nat) : (resumeHanger tag s).1.core.Sound := by
  unfold resumeHanger
  refine withHanger_keeps (P := fun t => t.core.Sound) hc.toSound (fun h hh => ?_)
  obtain rfl := State.hanger_tag hh
  split
  · rename_i r hloc
    split
    · exact hc.toSound
    · rename_i hst
      rw [not_or, not_not] at hst
      have rank : h.state.rank = .resting := by rw [hst.1]; rfl
      unfold State.resumeBy
      split
      · exact sound_resumeInPlace hc hh rank
      · split
        · exact hc.toSound
        · exact sound_beginAfresh hl hc hh rank hloc
      · split
        · exact sound_beginAfresh hl hc hh rank hloc
        · exact hc.toSound
      all_goals exact hc.toSound
  · exact hc.toSound

theorem sound_restartHanger (hc : s.core.Firm) (tag : Nat) : (restartHanger tag s).1.core.Sound := by
  unfold restartHanger
  refine withHanger_keeps (P := fun t => t.core.Sound) hc.toSound (fun h hh => ?_)
  obtain rfl := State.hanger_tag hh
  split
  · split
    · exact hc.toSound
    · rename_i hst
      simp only [not_or, not_not] at hst
      have rank : h.core.rank = .resting := by show h.state.rank = _; rw [hst.1]; rfl
      obtain ⟨settled, none⟩ := hc.settled_of_resting (core_hanger_some hh) rank
      have restarted := settled.modHanger (f := fun y => { y with rank := .bearing }) (fun _ => rfl) rfl rfl
      refine sound_createEntry (c := s.core) (h := h.restarted) hc.toSound ?_ (by decide : Rank.bearing ≠ Rank.resting) none rfl
      rw [core_rejoin, core_modHanger (f' := fun y => { y with rank := .bearing }) (by exact fun _ => rfl)]
      exact restarted
  · exact hc.toSound

/-! ### RECOVER and UNLOADED -/

theorem core_clearHold (t : State) (tag : Nat) :
    ({ t with gantryA := t.gantryA.clearHold tag, gantryB := t.gantryB.clearHold tag } : State).core = t.core.clearHold tag := by
  have hold : ∀ g : Gantry, (g.clearHold tag).hold = g.hold.filter (fun x => x.tag != tag) := by
    intro g
    unfold Gantry.clearHold
    cases hx : g.hold with
    | none => exact hx
    | some x =>
      dsimp only
      split
      · rename_i e; rw [Option.filter_some, if_neg (by simp [e])]
      · rename_i e; rw [hx, Option.filter_some, if_pos (by simpa using e)]
  unfold State.core Core.clearHold
  congr 1
  funext g
  cases g
  · exact hold t.gantryA
  · exact hold t.gantryB

theorem sound_recover (hl : MapLawful s) (hc : s.core.Firm) (tag st sl : Nat) : (recover tag st sl s).1.core.Sound := by
  unfold recover
  dsimp only
  split
  · exact hc.toSound
  · split
    · rename_i h hh
      split_ifs
      · exact hc.toSound
      · exact hc.toSound
      · exact hc.toSound
      · rename_i hst hslot
        refine together_keeps (P := fun t => t.core.Sound) hc.toSound (fun t ht => ?_)
        obtain ⟨core, open_⟩ := core_occupy hl ht
        have rank : h.core.rank = .stranded := by show h.state.rank = _; rw [not_not.1 hst]; rfl
        have settled := hc.settled_recovered (core_hanger_some hh) rank open_
        have rested : ∀ y : Hanger, ({ (y.rest .recovered).modNewest RunEntry.markStranded with
            location := .slot { station := st, slot := sl } } : Hanger).core
            = { y.core with location := .slot { station := st, slot := sl }, forward := none, rank := .resting } := by
          intro y
          have e := Hanger.core_modNewest (y.rest .recovered) RunEntry.markStranded
          exact congrArg (fun z : HangerCore => { z with location := .slot { station := st, slot := sl } }) e
        have recovered := settled.sound hc.toSound (fun e => absurd rfl e)
        unfold Core.recovered at recovered
        dsimp only
        rw [core_clearHold, core_modHanger (f' := fun y =>
          { y with location := .slot { station := st, slot := sl }, forward := none, rank := .resting }) rested, core_releaseAll, core]
        exact recovered
    · exact hc.toSound

theorem sound_unloaded (hc : s.core.Firm) (st sl : Nat) : (unloaded st sl s).1.core.Sound := by
  unfold unloaded
  dsimp only
  split_ifs
  · exact hc.toSound
  · exact hc.toSound
  · split
    · rename_i h hw
      have found : s.slotAt { station := st, slot := sl } = .occupied h.tag ∧ s.hanger? h.tag = some h ∧ h.state.rank ≠ .stranded := by
        unfold State.withdrawable at hw
        split at hw
        · rename_i tag hs
          obtain ⟨hh, hst⟩ := Option.filter_eq_some_iff.1 hw
          obtain rfl := State.hanger_tag hh
          refine ⟨hs, hh, fun e => ?_⟩
          cases e' : h.state <;> simp_all [HangerState.rank]
        · cases hw
      obtain ⟨hs, hh, hn⟩ := found
      refine together_keeps (P := fun t => t.core.Sound) hc.toSound (fun t ht => ?_)
      obtain ⟨core, -⟩ := core_vacate ht
      have gone : ((((t.leaveOrder h.tag).removeHangerMove h.tag).releaseAll h.tag).dropHanger h.tag).core
          = s.core.withdraw h.tag { station := st, slot := sl } := by
        unfold Core.withdraw
        rw [core_dropHanger, core_releaseAll, core_removeMoveOf, core_leaveOrder, core]
      have sound := hc.withdraw (core_hanger_some hh) hn hs
      rw [← gone] at sound
      dsimp only
      split
      · rw [core_leaveRecipe]; exact sound
      · exact sound
    · exact hc.toSound

end State

end Sys2Proof.Machine
end

