-- ==== Sys2Proof/Proofs/SlotReports.lean ====
section
/-! PROOFS. The progress reports of the gantries, their faults and their resets keep the agreement of slots. -/

namespace Sys2Proof.Machine

namespace State

variable {s : State} {c : Core} {tag : Nat}

/-! ### LIFTED -/

theorem core_lift {g : GantryId} {m : Move} {r : SlotRef} {t : State} (ht : (s.endImmersion tag).vacate r tag = some t) :
    ((t.modHanger tag (fun h => { h with state := .inTransit, phase := some .carried, location := .gantry g })).modMove m.id
      (fun m => { m with state := .carried })).core = s.core.lift tag m.id r g ∧ s.slotAt r = .occupied tag := by
  obtain ⟨core, occupied⟩ := core_vacate ht
  refine ⟨?_, ?_⟩
  · unfold Core.lift
    rw [core_modMove (f' := fun m => { m with state := .carried }) (fun m => by simp [Move.core]),
      core_modHanger (f' := fun h => { h with location := .gantry g, rank := .bearing }) (by exact fun _ => rfl), core,
      core_endImmersion]
  · rw [← occupied]
    exact (State.slotAt_congr (State.endImmersion_stations s tag) r).symm

theorem sound_lifted (hc : s.core.Firm) (g : GantryId) (id : Nat) : (lifted g id s).1.core.Sound := by
  unfold lifted
  refine report_keeps (P := fun t => t.core.Sound) hc.toSound (fun m hm _ _ hp => ?_)
  have granted : m.state = .granted := by
    unfold Move.awaitsLift at hp
    rw [Bool.and_eq_true, beq_iff_eq] at hp
    exact hp.1
  show (s.lift g m).core.Sound
  unfold State.lift
  split
  · rename_i tag r ht _
    refine together_keeps (P := fun t => t.core.Sound) hc.toSound (fun t hv => ?_)
    obtain ⟨core, occupied⟩ := core_lift (g := g) (m := m) hv
    rw [core]
    exact hc.lift g (m := m.core) (List.mem_map_of_mem hm) ht (by rw [Move.core_state (by rw [granted]; decide), granted]) occupied
  · exact hc.toSound

/-! ### LOWERED -/

/-- R142: the hanger is placed in the slot it occupies. -/
theorem core_place (t : State) (tag : Nat) (r : SlotRef) (area id : Nat) {keep : Bool}
    (hk : keep = true ↔ (t.station r.station).cls = .strict) : (t.place tag r area id).core
    = (t.core.modHanger tag (fun h => { h with location := .slot r, forward := if keep then h.forward else none })).modMove id
        (fun m => { m with state := .placed }) := by
  unfold State.place
  rw [core_modMove (f' := fun m => { m with state := .placed }) (fun m => by simp [Move.core]), core_addArea]
  congr 1
  refine core_modHanger (fun h => ?_)
  unfold Hanger.core
  simp only [← hk]

/-- A settled hanger comes to rest with its reservations released. -/
theorem sound_released (hc : c.Sound) {x : HangerCore} {f : HangerCore → HangerCore} {t : State} (hs : c.Settled s.core tag x)
    (hf : ∀ y, (f y).tag = y.tag) (hl : (f x).location = x.location) (hw : (f x).forward = none)
    (ht : t.core = (s.core.releaseAll tag).modHanger tag f) : t.core.Sound := by
  have released := hs.release hf hl hw
  rw [← ht] at released
  exact released.sound hc (fun e => absurd hw e)

section lowering

variable {x : HangerCore} {r : SlotRef}

/-- R45: the exit is reached. -/
theorem sound_reachExit (hc : c.Sound) {h : Hanger} (hs : c.Settled s.core h.tag x) (hl : x.location = .slot r) :
    (s.reachExit h r).core.Sound := by
  refine sound_released (f := fun y => { y with location := .slot r, forward := none, rank := .resting }) hc hs (fun _ => rfl)
    hl.symm rfl ?_
  unfold State.reachExit
  rw [core_notify, core_modHanger (fun y => ?_), core_releaseAll]
  exact congrArg (fun z : HangerCore => { z with location := .slot r, forward := none, rank := .resting })
    (Hanger.core_appendEntry y (RunEntry.exit r s.lineTime .onTime))

theorem sound_restAfterAbort (hc : c.Sound) {h : Hanger} (hs : c.Settled s.core h.tag x) (hl : x.location = .slot r) :
    (s.restAfterAbort h r).core.Sound := by
  refine sound_released (f := fun y => { y with location := .slot r, forward := none, rank := .resting }) hc hs (fun _ => rfl)
    hl.symm rfl ?_
  unfold State.restAfterAbort
  dsimp only
  rw [core_modHanger (f' := fun y => { y with location := .slot r, forward := none, rank := .resting }) (by exact fun _ => rfl),
    core_releaseAll]

theorem sound_abortAtExit (hc : c.Sound) {h : Hanger} (hs : c.Settled s.core h.tag x) (hl : x.location = .slot r) :
    (s.abortAtExit h r).core.Sound := by
  refine sound_released (f := fun y => { y with location := .slot r, forward := none, rank := .resting }) hc hs (fun _ => rfl)
    hl.symm rfl ?_
  unfold State.abortAtExit
  rw [core_notifyCondition, core_modHanger (fun y => ?_), core_releaseAll]
  exact congrArg (fun z : HangerCore => { z with location := .slot r, forward := none, rank := .resting })
    (Hanger.core_appendEntry y (RunEntry.exit r s.lineTime .aborted))

/-- The step opens and its entry closes again, in place. -/
theorem settled_openStep_closed (hs : c.Settled s.core tag x) (hl : x.location = .slot r) (hb : x.rank = .bearing) (k : Nat)
    (e : Condition) : c.Settled ((s.openStep tag k r).closeEntry tag e).core tag { x with rank := .bearing } := by
  rw [core_closeEntry]
  exact settled_openStep hs hl (Or.inl hb)

theorem core_strict_closed (k : Nat) (r : SlotRef) (e : Condition) :
    ((s.openStep tag k r).closeEntry tag e).core.strict = s.core.strict := by
  rw [core_closeEntry, core_strict_openStep]

theorem sound_abortAtStep (hc : c.Sound) (hs : c.Settled s.core tag x) (hl : x.location = .slot r) (hb : x.rank = .bearing) (k : Nat) :
    (s.abortAtStep tag k r).core.Sound := by
  refine sound_released (f := fun y => { y with forward := none, rank := .resting }) hc
    (settled_openStep_closed hs hl hb k .aborted) (fun _ => rfl) rfl rfl ?_
  unfold State.abortAtStep
  rw [core_modHanger (f' := fun y => { y with forward := none, rank := .resting }) (by exact fun _ => rfl), core_stopCount,
    core_releaseAll]

/-- R172, R174: the hanger is RESCUED where it rests. -/
theorem core_makeRescued (h : Hanger) : ((h.rescued).modNewest RunEntry.markRescued).core = { h.core with rank := .bearing } := by
  rw [Hanger.core_modNewest]; rfl

theorem sound_abortIntoStrict (hc : c.Sound) (hs : c.Settled s.core tag x) (hl : x.location = .slot r) (hb : x.rank = .bearing)
    (k : Nat) : (s.abortIntoStrict tag k r).core.Sound := by
  have stopped : c.Settled (((s.openStep tag k r).closeEntry tag .aborted).modHanger tag Hanger.stopCount).core tag
      { x with rank := .bearing } := by
    rw [core_stopCount]; exact settled_openStep_closed hs hl hb k .aborted
  unfold State.abortIntoStrict
  dsimp only
  generalize ((s.openStep tag k r).closeEntry tag .aborted).modHanger tag Hanger.stopCount = u at stopped ⊢
  obtain ⟨h, hh, hx⟩ := hanger_of_settled stopped
  obtain rfl := State.hanger_tag hh
  rw [hh]
  dsimp only
  have forward : h.forward = x.forward := congrArg HangerCore.forward hx
  have made : (u.createMove (u.freshAbort h r)).core.Sound :=
    sound_createMove hc stopped (by decide : Rank.bearing ≠ Rank.resting) rfl (by rw [← forward]; rfl) (Or.inr rfl)
  split
  · have found : (u.createMove (u.freshAbort h r)).hanger? h.tag = some h := by
      rw [State.hanger_congr (State.createMove_hangers _ _)]; exact hh
    rw [core_modHanger_at made.toKeyed found (by rw [core_makeRescued, hx])]
    exact made
  · exact made

theorem sound_lowerOnBar (hc : c.Sound) (hs : c.Settled s.core tag x) (hl : x.location = .slot r) (hb : x.rank = .bearing)
    (hf : x.forward ≠ none → s.core.strict r.station) (k : Nat) : (s.lowerOnBar tag k r).core.Sound := by
  have strict := core_strict_closed (s := s) (tag := tag) k r .under
  have rescued : c.Settled (((s.openStep tag k r).closeEntry tag .under).modHanger tag
      (fun h => h.rescued.modNewest RunEntry.markRescued)).core tag { x with rank := .bearing } := by
    rw [core_modHanger (f' := fun y => { y with rank := .bearing }) core_makeRescued]
    exact (settled_openStep_closed hs hl hb k .under).modHanger (f := fun y => { y with rank := .bearing }) (fun _ => rfl) rfl rfl
  have strict' : (((s.openStep tag k r).closeEntry tag .under).modHanger tag
      (fun h => h.rescued.modNewest RunEntry.markRescued)).core.strict = s.core.strict := strict
  unfold State.lowerOnBar
  dsimp only
  generalize ((s.openStep tag k r).closeEntry tag .under).modHanger tag
    (fun h => h.rescued.modNewest RunEntry.markRescued) = u at rescued strict' ⊢
  obtain ⟨h, hh, hx⟩ := hanger_of_settled rescued
  obtain rfl := State.hanger_tag hh
  rw [hh]
  dsimp only
  have forward : h.forward = x.forward := congrArg HangerCore.forward hx
  refine sound_createMove hc rescued (by decide : Rank.bearing ≠ Rank.resting) (nextMove_fields h r).1 ?_ (Or.inr rfl)
  show (u.nextMove h r).dest = x.forward.map Place.slot
  rw [← forward]
  exact nextMove_dest (fun e => by rw [strict']; exact hf (by rw [← forward]; exact e))

/-- R142, step 4: what follows the placing of a hanger without a pending abort. -/
theorem sound_lowerStep (hc : c.Sound) {h : Hanger} (hs : c.Settled s.core h.tag x) (hl : x.location = .slot r) (hb : x.rank = .bearing)
    (hf : x.forward ≠ none → s.core.strict r.station) : (s.lowerStep h r).core.Sound := by
  unfold State.lowerStep
  split
  · split
    · exact sound_lowerOnBar hc hs hl hb hf _
    · exact sound_beginStep hc hs hl (Or.inl hb) hf
  · exact sound_reachExit hc hs hl
  · exact hs.sound hc (fun _ => by rw [hb]; decide)

/-- R51: what follows the placing of a hanger with a pending abort. -/
theorem sound_lowerAborted (hc : c.Sound) {h : Hanger} (hs : c.Settled s.core h.tag x) (hl : x.location = .slot r)
    (hb : x.rank = .bearing) (k : MoveKind) : (s.lowerAborted h k r).core.Sound := by
  unfold State.lowerAborted
  split
  · exact sound_abortIntoStrict hc hs hl hb _
  · split
    · exact sound_restAfterAbort hc hs hl
    · exact sound_abortAtExit hc hs hl
  · split
    · exact sound_restAfterAbort hc hs hl
    · exact sound_abortAtStep hc hs hl hb _
  · exact sound_restAfterAbort hc hs hl

end lowering

theorem sound_lowered (hl : MapLawful s) (hc : s.core.Firm) (g : GantryId) (id : Nat) : (lowered g id s).1.core.Sound := by
  unfold lowered
  refine report_keeps (P := fun t => t.core.Sound) hc.toSound (fun m hm _ _ hp => ?_)
  have carried : m.state = .carried := by simpa using hp
  show (s.lower m).core.Sound
  unfold State.lower
  split
  · rename_i h r hh hd
    obtain ⟨tag, ht, hh⟩ := Option.bind_eq_some_iff.1 hh
    obtain rfl := State.hanger_tag hh
    refine together_keeps (P := fun t => t.core.Sound) hc.toSound (fun t hocc => ?_)
    split at hocc
    · obtain ⟨core, -⟩ := core_occupy hl hocc
      have strict : (t.station r.station).cls = .strict ↔ s.core.strict r.station :=
        iff_of_eq (show t.core.strict r.station = s.core.strict r.station by rw [core]; rfl)
      obtain ⟨x, settled, hloc, hb, hf⟩ := hc.settled_land (m := m.core) (r := r)
        (keep := decide ((t.station r.station).cls = .strict)) (List.mem_map_of_mem hm) ht
        (by rw [Move.core_state (by rw [carried]; decide), carried]) hd (by rw [decide_eq_true_eq]; exact strict)
      have placed : (t.place h.tag r h.area m.id).core = s.core.land h.tag m.id r (decide ((t.station r.station).cls = .strict)) := by
        rw [core_place t h.tag r h.area m.id decide_eq_true_iff, core]; rfl
      rw [show m.core.id = m.id from rfl, ← placed] at settled
      dsimp only
      split
      · exact sound_lowerAborted hc.toSound settled hloc hb _
      · refine sound_lowerStep hc.toSound settled hloc hb (fun e => ?_)
        rw [placed]
        exact strict.1 (by simpa using hf e)
    · cases hocc
  · exact hc.toSound

/-! ### DONE, ABANDON, FAULT and GANTRY-RESET -/

theorem firm_standIdle (hc : s.core.Firm) (g : GantryId) (x : Nat) : (s.standIdle g x).core.Firm := by
  unfold State.standIdle
  dsimp only
  have linked : ∀ l, (((s.modGantry g (fun r => { r.standAt x with granted := none, pausePending := false })).setLink g l)).core.Firm :=
    fun l => firm_setLink (by rw [core_modGantry g (by exact fun _ => rfl)]; exact hc) g l
  split
  · rw [core_readyWork]; exact linked _
  · exact linked _

theorem mem_standIdle {g : GantryId} {x : Nat} {m : Move} (hm : m ∈ s.moves) (hk : m.kind ≠ .yielding ∨ m.state ≠ .ready) :
    m ∈ (s.standIdle g x).moves := by
  unfold State.standIdle
  dsimp only
  have linked : ∀ l, m ∈ ((s.modGantry g (fun r => { r.standAt x with granted := none, pausePending := false })).setLink g l).moves :=
    fun l => mem_setLink (by simpa using hm) hk
  split
  · rw [State.readyWork_moves]; exact linked _
  · exact linked _

theorem sound_reportDone (hc : s.core.Firm) (g : GantryId) (id : Nat) : (reportDone g id s).1.core.Sound := by
  unfold reportDone
  refine report_keeps (P := fun t => t.core.Sound) hc.toSound (fun m hm hid _ hp => ?_)
  have spent : m.tag = none ∨ m.core.state = .placed := by
    unfold Move.awaitsDone at hp
    simp only [Bool.or_eq_true, Bool.and_eq_true, beq_iff_eq] at hp
    rcases hp with e | ⟨-, e⟩
    · exact Or.inr ((Move.core_placed m).2 e)
    · exact Or.inl ((yields_iff hc hm).1 e)
  refine (firm_standIdle ?_ g _).toSound
  rw [core_removeMove, ← hid]
  exact hc.removeMove (List.mem_map_of_mem hm) spent

theorem sound_abandon (hc : s.core.Firm) (g : GantryId) (id x : Nat) : (abandon g id x s).1.core.Sound := by
  unfold abandon
  split
  · exact hc.toSound
  · refine report_keeps (P := fun t => t.core.Sound) hc.toSound (fun m hm _ _ hp => ?_)
    unfold Move.awaitsLift at hp
    rw [Bool.and_eq_true, beq_iff_eq, bne_iff_ne] at hp
    split
    · exact hc.toSound
    · exact (firm_returnToReady (firm_standIdle hc g x) (mem_standIdle hm (Or.inl hp.2)) hp.1).toSound

/-- R131: the move a gantry holds from its grant is one in work on it. -/
theorem grantedMove_works (hc : s.core.Firm) {g : GantryId} (ha : GantryAgrees s g) {m : Move} (hm : s.grantedMove? g = some m) :
    m ∈ s.moves ∧ m.InWork ∧ m.gantry = some g := by
  obtain ⟨id, hg, hm⟩ := Option.bind_eq_some_iff.1 hm
  obtain ⟨hmem, rfl⟩ := mem_of_move hm
  obtain ⟨-, holds, -⟩ := ha
  obtain ⟨n, hn, hid, hw, hgn⟩ := holds _ hg
  rw [same_move hc hmem hn hid] at hw hgn
  exact ⟨hmem, hw, hgn⟩

theorem firm_faultGantry (hc : s.core.Firm) {g : GantryId} (ha : GantryAgrees s g) (code : Nat) : (s.faultGantry g code).core.Firm := by
  unfold State.faultGantry
  dsimp only
  split
  · rename_i m hm
    obtain ⟨hmem, hw, hg⟩ := grantedMove_works hc ha hm
    obtain ⟨firm, hmem'⟩ := firm_failed (g := g) hc (f := fun r => r.failed (some code)) (fun _ => rfl) .faulted hmem hw
    exact firm_dispose firm hmem' hw hg
  · exact firm_setLink (by rw [core_modGantry g (by exact fun _ => rfl)]; exact hc) g _

theorem sound_fault (hc : s.core.Firm) {g : GantryId} (ha : GantryAgrees s g) (pr id code : Nat) :
    (fault g pr id code s).1.core.Sound := by
  have faulted := (firm_faultGantry hc ha code).toSound
  unfold fault
  split
  · exact report_keeps (P := fun t => t.core.Sound) hc.toSound (fun _ _ _ _ _ => faulted)
  · split
    · exact hc.toSound
    · exact faulted
  · exact hc.toSound

theorem firm_resetBusy (hc : s.core.Firm) {g : GantryId} (ha : GantryAgrees s g) : (s.resetBusy g).core.Firm := by
  have failed : (s.modGantry g (fun r => { r.failed (some 0) with link := .faulted })).core = s.core :=
    core_modGantry g (fun _ => rfl)
  unfold State.resetBusy
  dsimp only
  split
  · rename_i m hm
    obtain ⟨hmem, hw, hg⟩ := grantedMove_works hc ha hm
    exact firm_dispose (by rw [failed]; exact hc) (by simpa using hmem) hw hg
  · rw [failed]; exact hc

theorem sound_gantryReset (hc : s.core.Firm) (ha : ∀ g, GantryAgrees s g) (x : Nat) : (gantryReset x s).1.core.Sound := by
  unfold gantryReset
  refine withGantry_keeps (P := fun t => t.core.Sound) hc.toSound (fun g => ?_)
  split
  · exact hc.toSound
  · exact (firm_setLink (firm_resetBusy hc (ha g)) g _).toSound
  · exact (firm_setLink (by rw [core_modGantry g (by exact fun _ => rfl)]; exact hc) g _).toSound

end State

end Sys2Proof.Machine
end

