-- ==== Sys2Proof/Proofs/SlotClaims.lean ====
section
/-! PROOFS. CLAIM keeps the agreement of slots: the walk makes YIELD moves alone, and the route it grants passed the destination test
on the state it is reserved in. -/

namespace Sys2Proof.Machine

/-- R123: a hanger bears its move before and after its grant. -/
theorem Hanger.core_granted (h : Hanger) (f : Option SlotRef) : (h.granted f).core = { h.core with forward := f.or h.core.forward } := by
  have rank : ∀ g : Hanger, (if g.state = .loaded ∨ g.state = .immersed then
      { g with state := .inTransit, phase := some .granted } else g).core = g.core := by
    intro g
    split
    · rename_i e
      unfold Hanger.core
      rcases e with e | e <;> rw [e] <;> rfl
    · rfl
  unfold Hanger.granted
  cases f with
  | none => exact rank h
  | some f => exact congrArg (fun z : HangerCore => { z with forward := some f }) (rank h)

theorem Core.setSlot_self {c : Core} {r : SlotRef} {x : Slot} (h : c.slot r = x) : c.setSlot r x = c := by
  have same : (fun q => if q = r then x else c.slot q) = c.slot := by
    funext q
    split
    · rename_i e; rw [e, h]
    · rfl
  unfold Core.setSlot
  rw [same]

theorem mem_insertUrgent {m x : Move} {l : List Move} (h : x ∈ insertUrgent m l) : x = m ∨ x ∈ l := by
  induction l with
  | nil => exact Or.inl (List.mem_singleton.1 h)
  | cons y ys ih =>
    unfold insertUrgent at h
    split at h
    · rcases List.mem_cons.1 h with e | e
      · exact Or.inr (e ▸ List.mem_cons_self)
      · exact (ih e).imp_right (List.mem_cons_of_mem _)
    · exact List.mem_cons.1 h

namespace State

variable {s : State}

/-- R109, R113: a claim offers READY moves of hangers. -/
theorem mem_offered {m : Move} (h : m ∈ s.offered) : m ∈ s.moves ∧ m.kind ≠ .yielding ∧ m.state = .ready := by
  obtain ⟨hu, hs⟩ := List.mem_filter.1 h
  have sub : ∀ l : List Move, ∀ x ∈ l.foldr insertUrgent [], x ∈ l := by
    intro l
    induction l with
    | nil => exact fun _ hx => hx
    | cons y ys ih =>
      intro x hx
      rcases mem_insertUrgent hx with e | e
      · exact e ▸ List.mem_cons_self
      · exact List.mem_cons_of_mem _ (ih x e)
  obtain ⟨hm, hk⟩ := List.mem_filter.1 (sub _ m hu)
  exact ⟨hm, by simpa using hk, by simpa using hs⟩

/-! ### The route -/

/-- R123, Slots: what the reservation of a route needs, and what it does. -/
theorem core_reserveRoute (hl : MapLawful s) {tag : Nat} {d : SlotRef} {f : Option SlotRef} {t : State}
    (h : s.reserveRoute tag d f = some t) : t.core = s.core.reserveRoute tag d f
      ∧ (s.slotAt d = .free ∨ (s.slotAt d).reservedFor tag = true)
      ∧ ∀ q, f = some q → q ≠ d ∧ (s.slotAt q = .free ∨ s.slotAt q = .reserved tag .forward) := by
  have first : ∀ u, (if s.slotAt d = .reserved tag .destination then some s
      else if s.slotAt d = .reserved tag .forward then s.convert d tag else s.reserve d tag .destination) = some u →
      MapLawful u ∧ u.core = s.core.setSlot d (.reserved tag .destination)
      ∧ (s.slotAt d = .free ∨ (s.slotAt d).reservedFor tag = true) := by
    intro u hu
    have written : MapLawful (s.setSlot d (.reserved tag .destination)) :=
      (keepsGasAndMap_closed.setSlot (keepsGasAndMap_closed.refl s) d _).2 hl
    split at hu
    · rename_i e
      cases hu
      exact ⟨hl, (Core.setSlot_self e).symm, Or.inr (by rw [e]; simp [Slot.reservedFor])⟩
    · split at hu
      · rename_i e
        rw [State.convert_of e] at hu
        cases hu
        obtain ⟨h1, h2⟩ := slot_bound (s := s) (r := d) (by rw [e]; simp)
        exact ⟨written, core_setSlot h1 h2, Or.inr (by rw [e]; simp [Slot.reservedFor])⟩
      · obtain ⟨rfl, core, free⟩ := core_reserve hl hu
        exact ⟨written, core, Or.inl free⟩
  unfold State.reserveRoute at h
  dsimp only at h
  cases f with
  | none =>
    obtain ⟨-, core, open_⟩ := first t h
    exact ⟨core, open_, fun q e => by cases e⟩
  | some f =>
    obtain ⟨u, hu, h⟩ := Option.bind_eq_some_iff.1 h
    obtain ⟨hlu, core, open_⟩ := first u hu
    have slot : ∀ q, u.slotAt q = if q = d then .reserved tag .destination else s.slotAt q := fun q =>
      congrFun (congrArg Core.slot core) q
    have ahead : (u.slotAt f = .free ∨ u.slotAt f = .reserved tag .forward) ∧ t.core = u.core.setSlot f (.reserved tag .forward) := by
      split at h
      · rename_i e
        cases h
        exact ⟨Or.inr e, (Core.setSlot_self e).symm⟩
      · obtain ⟨-, core', free⟩ := core_reserve hlu h
        exact ⟨Or.inl free, core'⟩
    obtain ⟨hf, core'⟩ := ahead
    refine ⟨by rw [core', core]; rfl, open_, fun q e => ?_⟩
    cases e
    rw [slot] at hf
    split at hf
    · rcases hf with e | e <;> cases e
    · rename_i hq; exact ⟨hq, hf⟩

/-- R116 to R118: the route of the destination test is one the grant can reserve. -/
theorem route_of_routeFor (hl : MapLawful s) {g : GantryId} {m : Move} {d : SlotRef} {f : Option SlotRef}
    (h : s.routeFor g m = some (d, f)) : ∃ x, m.tag = some x.tag ∧ s.hanger? x.tag = some x
      ∧ s.core.Route x.tag x.core m.core d f := by
  unfold State.routeFor at h
  split at h
  · rename_i d' x hd hx
    obtain ⟨tag, ht, hx⟩ := Option.bind_eq_some_iff.1 hx
    obtain rfl := State.hanger_tag hx
    obtain ⟨hroute, hres⟩ := Option.filter_eq_some_iff.1 h
    obtain ⟨t, hres⟩ := Option.isSome_iff_exists.1 hres
    obtain ⟨-, open_, ahead⟩ := core_reserveRoute hl hres
    have fixed : m.dest = some (.slot d') ∨ m.dest = none := by
      unfold State.destinationFor at hd
      split at hd
      · rename_i e
        split at hd
        · cases hd; exact Or.inl e
        · cases hd
      · cases hd
      · rename_i e; exact Or.inr e
    have kept : ∀ q, s.forwardFor g x d' = some q → ∀ r, x.forward = some r → r ≠ d' → q = r := by
      intro q hq r hr hne
      have hk : x.keptForward d' = some r := by
        unfold Hanger.keptForward
        rw [hr, Option.filter_some, if_pos (by simpa using hne)]
      unfold State.forwardFor at hq
      rw [hk] at hq
      dsimp only at hq
      split at hq
      · cases hq; rfl
      · cases hq
    split at hroute
    · rename_i hs
      obtain ⟨q, hq, e⟩ := Option.map_eq_some_iff.1 hroute
      cases e
      refine ⟨x, ht, hx, fixed, open_, ⟨fun _ => hs, fun _ => by simp⟩, fun q' e => ?_⟩
      cases e
      exact ⟨(ahead q rfl).1, (ahead q rfl).2, kept q hq⟩
    · rename_i hs
      cases hroute
      exact ⟨x, ht, hx, fixed, open_, ⟨fun e => absurd rfl e, fun e => absurd e hs⟩, fun q e => by cases e⟩
  · cases h

theorem routeFor_of_passed {g : GantryId} {m : Move} {d : SlotRef} {f : Option SlotRef} (h : s.trial g m = .passed d f) :
    s.routeFor g m = some (d, f) := by
  unfold State.trial at h
  split_ifs at h
  split at h
  · cases h
  · rename_i d' f' hr
    split_ifs at h
    cases h
    exact hr

/-! ### The grant -/

theorem core_bindEntry (h : Hanger) : (s.bindEntry h).core = s.core := by
  unfold State.bindEntry
  dsimp only
  split
  · rfl
  · rw [core_modRecipe, core_modHanger_same (by exact fun _ => rfl), core_leaveOrder]

/-- R123: the gantry of a grant takes YIELD moves alone out of the list. -/
theorem sound_engage (hc : s.core.Sound) (hy : ∀ m ∈ s.core.moves, m.yields = true → m.tag = none) (g : GantryId) (id lo hi : Nat) :
    (s.engage g id lo hi).core.Sound := by
  have prune : ∀ c : Core, c.Sound → (∀ m ∈ c.moves, m.yields = true → m.tag = none) → ∀ p : MoveCore → Bool,
      (c.filterMoves (fun m => !(m.yields && p m))).Sound
      ∧ ∀ m ∈ (c.filterMoves (fun m => !(m.yields && p m))).moves, m.yields = true → m.tag = none := by
    intro c hs hp p
    refine ⟨hs.prune (fun m hm e => Or.inl (hp m hm ?_)), fun m hm => hp m (List.mem_of_mem_filter hm)⟩
    by_contra hn
    simp [hn] at e
  have linked : ((s.modGantry g (fun r => { r with granted := some id, spanLow := lo, spanHigh := hi })).setLink g .busy).core.Sound
      ∧ ∀ m ∈ ((s.modGantry g (fun r => { r with granted := some id, spanLow := lo, spanHigh := hi })).setLink g .busy).core.moves,
        m.yields = true → m.tag = none := by
    have same : (s.modGantry g (fun r => { r with granted := some id, spanLow := lo, spanHigh := hi })).core = s.core :=
      core_modGantry g (fun _ => rfl)
    rcases core_setLink (s := s.modGantry g (fun r => { r with granted := some id, spanLow := lo, spanHigh := hi })) g .busy with e | e
    · rw [e, same]; exact ⟨hc, hy⟩
    · rw [e, same]
      simpa only [Bool.and_assoc] using prune s.core hc hy (fun m => m.state == .ready && m.gantry == some g)
  unfold State.engage
  rw [core_removeOwnYield, core_removeYieldFor]
  have second := prune _ linked.1 linked.2 (fun m => m.state == .ready && m.blocked == some id)
  have third := prune _ second.1 second.2 (fun m => m.state == .ready && m.gantry == some g)
  simpa only [Bool.and_assoc] using third.1

/-- A state in which only YIELD moves have been made. -/
structure Walked (s v : State) : Prop where
  sound : v.core.Sound
  stations : v.stations = s.stations
  hangers : v.hangers = s.hangers
  holds : ∀ g, (v.gantry g).hold = (s.gantry g).hold
  kept : ∀ m ∈ s.moves, m ∈ v.moves
  made : ∀ m ∈ v.moves, m ∈ s.moves ∨ m.tag = none

theorem Walked.refl (hc : s.core.Firm) : Walked s s := ⟨hc.toSound, rfl, rfl, fun _ => rfl, fun _ h => h, fun _ h => Or.inl h⟩

theorem Walked.untagged (hc : s.core.Firm) {v : State} (hw : Walked s v) : ∀ m ∈ v.core.moves, m.yields = true → m.tag = none := by
  intro m hm hy
  obtain ⟨x, hx, rfl⟩ := List.mem_map.1 hm
  rcases hw.made x hx with h | h
  · exact (hc.plain x.core (List.mem_map_of_mem h)).1 hy
  · exact h

/-- R138: a YIELD move made in the walk. -/
theorem Walked.makeYield {v : State} (hw : Walked s v) (g : GantryId) (m : Move) (d : SlotRef) : Walked s (v.makeYield g m d) := by
  have moves : ∀ y : Move, y.tag = none → ∀ o n, Walked s ((v.addMove y).postWork o n) := by
    intro y hy o n
    refine ⟨?_, by simpa using hw.stations, by simpa using hw.hangers, fun g => ?_, fun x hx => ?_, fun x hx => ?_⟩
    · rw [core_postWork, core_addMove]
      exact hw.sound.addMove_untagged hy
    · have e : ((v.addMove y).postWork o n).gantry g = v.gantry g := by cases g <;> simp [State.gantry]
      rw [e]; exact hw.holds g
    · rw [State.postWork_moves]
      exact List.mem_append_left _ (hw.kept x hx)
    · rw [State.postWork_moves] at hx
      rcases List.mem_append.1 hx with h | h
      · exact hw.made x h
      · rw [List.mem_singleton.1 h]; exact Or.inr hy
  unfold State.makeYield
  dsimp only
  split
  · split
    · exact moves _ rfl _ _
    · exact hw
  · exact hw

/-- R113: the walk makes YIELD moves alone, and the move it finds passes its tests on the state it ends with. -/
theorem walk_walked (g : GantryId) (ms : List Move) : ∀ (v : State) (held : List (Nat × HoldTest)), Walked s v →
    Walked s (State.walk g ms v held).state ∧ ∀ m d f, (State.walk g ms v held).found = some (m, d, f) →
      m ∈ ms ∧ (State.walk g ms v held).state.trial g m = .passed d f := by
  induction ms with
  | nil => exact fun v held hw => ⟨hw, fun m d f e => by cases e⟩
  | cons m ms ih =>
    intro v held hw
    have later : ∀ w held', Walked s w → Walked s (State.walk g ms w held').state ∧ ∀ n d f,
        (State.walk g ms w held').found = some (n, d, f) → n ∈ m :: ms ∧ (State.walk g ms w held').state.trial g n = .passed d f := by
      intro w held' hw'
      obtain ⟨h1, h2⟩ := ih w held' hw'
      exact ⟨h1, fun n d f e => ⟨List.mem_cons_of_mem _ (h2 n d f e).1, (h2 n d f e).2⟩⟩
    unfold State.walk
    split
    · rename_i d f htrial
      refine ⟨hw, fun n d' f' e => ?_⟩
      cases e
      exact ⟨List.mem_cons_self, htrial⟩
    · exact later _ _ (hw.makeYield g m _)
    · exact later _ _ hw
    · exact later _ _ hw

/-- R123: the grant of a move that passed its tests. -/
theorem sound_grant (hl : MapLawful s) (hc : s.core.Firm) {v : State} (hw : Walked s v) {g : GantryId} {m : Move} {d : SlotRef}
    {f : Option SlotRef} (hm : m ∈ s.offered) (ht : v.trial g m = .passed d f) : (v.grant g m d f).core.Sound := by
  obtain ⟨hmem, -, ready⟩ := mem_offered hm
  have hlv : MapLawful v := mapLawful_congr hw.stations hl
  obtain ⟨h, htag, hh, route⟩ := route_of_routeFor hlv (routeFor_of_passed ht)
  have live : m.core.state ≠ .placed := fun e => by rw [(Move.core_placed m).1 e] at ready; cases ready
  have found : s.core.hanger? h.tag = some h.core := core_hanger_some (by rw [← State.hanger_congr hw.hangers]; exact hh)
  obtain ⟨x, hx, bearing, -⟩ := hc.hanger_of_move (List.mem_map_of_mem hmem) htag live
  rw [found] at hx; cases hx
  have unheld : ∀ g x, v.core.hold g = some x → x.tag ≠ h.tag := fun g x e =>
    hc.no_hold found (by rw [bearing]; decide) g x (by rw [← e]; exact (hw.holds g).symm)
  have same : ∀ x ∈ v.core.moves, x.id = m.core.id → x = m.core ∨ x.tag = none := by
    intro x hx e
    obtain ⟨y, hy, rfl⟩ := List.mem_map.1 hx
    refine (hw.made y hy).imp_left (fun hs => ?_)
    rw [same_move hc hmem hs e]
  have granted := hw.sound.grant g (core_hanger_some hh) bearing unheld
    (hw.sound.move_of_mem (List.mem_map_of_mem (hw.kept m hmem)) htag live) same route
  unfold State.grant
  rw [htag, Option.bind_some, hh]
  dsimp only
  refine together_keeps (P := fun t => t.core.Sound) hw.sound (fun t hr => ?_)
  obtain ⟨core, -⟩ := core_reserveRoute hlv hr
  have moved : ((t.modMove m.id (fun m => m.granted g (.slot d) v.lineTime (v.estimateFor g m d) (v.gantry g).margin)).modHanger h.tag
      (fun h => h.granted f)).core = v.core.grant h.tag m.core.id g d f := by
    rw [core_modHanger (f' := fun y => { y with forward := f.or y.forward }) (fun y => Hanger.core_granted y f),
      core_modMove (f' := fun y => { y with dest := some (.slot d), state := .granted, gantry := some g, limited := true })
        (fun y => by simp [Move.core, Move.granted]), core]
    rfl
  have untagged : ∀ x ∈ (v.core.grant h.tag m.core.id g d f).moves, x.yields = true → x.tag = none := by
    intro x hx hy
    obtain ⟨y, hym, rfl⟩ := List.mem_map.1 hx
    have hym' : y ∈ v.core.moves := by cases f <;> exact hym
    have yields : y.yields = true := by split at hy <;> exact hy
    have none := hw.untagged hc y hym' yields
    split <;> exact none
  rw [← moved] at granted untagged
  have bound : ∀ u : State, u.core.Sound → (∀ x ∈ u.core.moves, x.yields = true → x.tag = none) →
      (if m.kind = .entry then u.bindEntry h else u).core.Sound
      ∧ ∀ x ∈ (if m.kind = .entry then u.bindEntry h else u).core.moves, x.yields = true → x.tag = none := by
    intro u h1 h2
    split
    · rw [core_bindEntry]; exact ⟨h1, h2⟩
    · exact ⟨h1, h2⟩
  obtain ⟨h1, h2⟩ := bound _ granted untagged
  exact sound_engage h1 h2 _ _ _ _

theorem sound_grantYield (hc : s.core.Firm) {y : Move} (hm : y ∈ s.moves) (hk : y.kind = .yielding) (g : GantryId) (x : Nat) :
    (s.grantYield g y x).core.Sound := by
  have tagless := (yields_iff hc hm).1 hk
  have same : ∀ n ∈ s.core.moves, n.id = y.id → n.tag = none := by
    intro n hn e
    rw [hc.same_move (m := y.core) (List.mem_map_of_mem hm) hn e]
    exact tagless
  have moved : (s.modMove y.id (fun m => m.granted g (.point x) s.lineTime ((s.gantry g).yieldEstimate x) (s.gantry g).margin)).core
      = s.core.modMove y.id (fun n =>
        { n with dest := some (.point x), state := .granted, gantry := some g, limited := true }) :=
    core_modMove (fun n => by simp [Move.core, Move.granted])
  unfold State.grantYield
  dsimp only
  refine sound_engage ?_ ?_ _ _ _ _
  · rw [moved]
    exact hc.toSound.modMove_untagged (fun n hn e => ⟨same n hn e, same n hn e⟩)
  · rw [moved]
    intro n hn hy
    obtain ⟨z, hz, rfl⟩ := List.mem_map.1 hn
    have yields : z.yields = true := by split at hy <;> exact hy
    have none := (hc.plain z hz).1 yields
    split <;> exact none

theorem sound_claimWalk (hl : MapLawful s) (hc : s.core.Firm) (g : GantryId) (last : List (Nat × HoldTest)) :
    (s.claimWalk g last).1.core.Sound := by
  obtain ⟨walked, found⟩ := walk_walked (s := s) g s.offered s [] (Walked.refl hc)
  unfold State.claimWalk
  dsimp only
  split
  · rename_i m d f hf
    obtain ⟨hm, ht⟩ := found m d f hf
    exact sound_grant hl hc walked hm ht
  · exact walked.sound

theorem sound_claim (hl : MapLawful s) (hc : s.core.Firm) (g : GantryId) : (claim g s).1.core.Sound := by
  unfold claim
  split
  · exact hc.toSound
  · split
    · rename_i y hy
      have own := List.find?_some hy
      simp only [Bool.and_eq_true, beq_iff_eq] at own
      split
      · split
        · exact sound_grantYield hc (List.mem_of_find?_eq_some hy) own.1.1 g _
        · exact sound_claimWalk hl hc g _
      · exact sound_claimWalk hl hc g _
    · exact sound_claimWalk hl hc g _

end State

end Sys2Proof.Machine
end

