-- ==== Sys2Proof/Proofs/SlotSteps.lean ====
section
/-! PROOFS. Every command keeps the agreement of slots (O59): the requests one by one, the events of the line time, and the resets. -/

namespace Sys2Proof.Machine

/-- The premises of O59 on a state. -/
structure Agreed (s : State) : Prop where
  map : MapLawful s
  moves : MovesAgree s
  slots : SlotsAgree s

namespace Agreed

variable {s : State}

theorem firm (h : Agreed s) : s.core.Firm := firm_of_agree h.moves h.slots

theorem sound (h : Agreed s) : s.core.Sound := h.firm.toSound

theorem hangers (h : Agreed s) : ∀ x ∈ s.hangers, HangerAgrees s x := by
  obtain ⟨-, -, -, -, hangers, -⟩ := h.moves
  exact hangers

theorem gantries (h : Agreed s) (g : GantryId) : GantryAgrees s g := by
  obtain ⟨-, -, -, -, -, gantries, -⟩ := h.moves
  exact gantries g

/-- R179: a session leaves the records as they are. -/
theorem opened (h : Agreed s) (p : PortId) (n : Nat) : Agreed (s.opened p n) := by
  obtain ⟨h1, h2, h3⟩ := h
  cases p <;> exact ⟨h1, h2, h3⟩

/-! ### The requests -/

/-- A request that leaves the core as it is. -/
theorem of_core (h : Agreed s) {t : State} (ht : t.core = s.core) : t.core.Sound := by
  rw [ht]; exact h.sound

theorem sound_handRequest (h : Agreed s) (i : Instr) : (handRequest i s).1.core.Sound := by
  obtain ⟨r1, r2, r3, r4, r5, r6, r7, r8, r9, r10⟩ := Wide.readRequests s
  have hc := h.firm
  have unchanged : ∀ {t : State}, t = s → t.core.Sound := fun e => e ▸ h.sound
  cases i
  case setStation => exact State.sound_setStation hc _ _ _ _ _ _ _ _
  case clearStation => exact State.sound_clearStation hc _
  case block => exact State.sound_block h.map hc _ _
  case unblock => exact State.sound_unblock h.map hc _ _
  case readStation => exact unchanged (r1 _)
  case draftRecipe => exact h.of_core (State.core_draftRecipe _ _)
  case draftSteps => exact h.of_core (State.core_draftSteps _ _ _)
  case writeRecipe => exact h.of_core (State.core_writeRecipe _)
  case discardStaged => exact h.of_core (State.core_discardStaged _)
  case readRecipe => exact unchanged (r2 _ _ _)
  case admitHanger => exact State.sound_admitRule h.map hc _ _ _ _ _ _
  case abortHanger => exact State.sound_abortHanger hc h.hangers _
  case resumeHanger => exact State.sound_resumeHanger h.map hc _
  case restartHanger => exact State.sound_restartHanger hc _
  case recover => exact State.sound_recover h.map hc _ _ _
  case unloaded => exact State.sound_unloaded hc _ _
  case readHanger => exact unchanged (r3 _)
  case readRun => exact unchanged (r4 _ _)
  case readTiming => exact unchanged (r5 _)
  case setBath => exact h.of_core (State.core_setBathRequest hc _ _)
  case bathReport => exact h.of_core (State.core_bathReport hc _ _)
  case bathTrip => exact h.of_core (State.core_bathTrip _)
  case bathClear => exact h.of_core (State.core_bathClear _)
  case replenished => exact h.of_core (State.core_replenished _)
  case readBath => exact unchanged (r6 _)
  case readMoves => exact unchanged (r7 _)
  case setGantry => exact h.of_core (State.core_setGantry _ _ _ _ _ _)
  case setGuard => exact h.of_core (State.core_setGuard _)
  case gantryPause => exact (State.firm_gantryPause hc _).toSound
  case gantryResume => exact (State.firm_gantryResume hc _).toSound
  case gantryReset => exact State.sound_gantryReset hc h.gantries _
  case readGantry => exact unchanged (r8 _)
  case setChannel => exact h.of_core (State.core_setChannel _ _ _ _ _)
  case setGasLimit => exact h.of_core (State.core_setGasLimit _)
  case gasHold => exact h.of_core (State.core_gasHoldRequest _ _)
  case readChannel => exact unchanged (r9 _)
  case run => exact h.of_core State.core_runLine
  case drain => exact h.of_core State.core_drainLine
  case hold => exact h.of_core State.core_holdLine
  case stop => exact h.of_core State.core_stopLine
  case holdAt => exact h.of_core (State.core_holdAt _)
  case clearLine => exact State.sound_clearLine hc
  case setGrace => exact h.of_core (State.core_setGrace hc _)
  case rescueClear => exact h.of_core (State.core_rescueClear _)
  case readLine => exact unchanged r10
  case setAlarm => exact h.of_core (State.core_setAlarm _)
  case hello => exact (State.firm_hello hc _).toSound
  case homed => exact (State.firm_homed hc _).toSound
  case claim => exact State.sound_claim h.map hc _
  case lifted => exact State.sound_lifted hc _ _
  case lowered => exact State.sound_lowered h.map hc _ _
  case done => exact State.sound_reportDone hc _ _
  case abandon => exact State.sound_abandon hc _ _ _
  case fault => exact State.sound_fault hc (h.gantries _) _ _ _
  case getNotice => exact h.of_core (State.core_getNotice _)
  case setMask => exact h.of_core (State.core_setMask _ _)
  all_goals exact h.sound

/-! ### The commands -/

theorem sound_takeRequest (h : Agreed s) (p : PortId) (n : Nat) {body : State → State × Reply}
    (hb : ∀ u, Agreed u → (body u).1.core.Sound) : (s.takeRequest p n body).core.Sound := by
  unfold State.takeRequest
  split
  · rw [State.core_ignored]; exact h.sound
  · rw [State.core_forming]; exact hb _ (h.opened p n)

theorem sound_takeSession (h : Agreed s) (p : PortId) (l : List Byte) (x : Nat) : (s.takeSession p l x).core.Sound := by
  unfold State.takeSession
  split
  · exact h.sound
  · rw [State.core_modPort]; exact h.sound
  · exact h.sound_takeRequest p _ (fun _ hu => hu.sound)
  · exact h.sound_takeRequest p _ (fun _ hu => hu.sound)
  · exact h.sound_takeRequest p _ (fun _ hu => hu.sound)
  · exact h.sound_takeRequest p _ (fun _ hu => hu.sound_handRequest _)

/-- The map, the records and the holds of a reset name nothing. -/
theorem sound_afterReset : s.afterReset.core.Sound := by
  refine Core.Sound.vacant rfl (fun _ => rfl) (fun r tag => ?_) (fun g => by cases g <;> rfl)
  show ((State.reset.station r.station).slot r.slot).names tag = false
  rw [station_reset, Station.slot_absent]
  rfl

theorem sound_exec (h : Agreed s) {i : Instr} {t : State} (ht : exec i s = .next t) : t.core.Sound := by
  have hc := h.firm
  by_cases hi : (encodeRequest i).isSome = true
  · rw [exec_request i s hi] at ht
    unfold State.request at ht
    split at ht
    · cases ht
      exact h.sound_takeRequest _ _ (fun _ hu => hu.sound_handRequest i)
    · cases ht; exact h.sound
  · cases i
    case unknownRequest p l x => cases ht; exact h.sound_takeSession p l x
    case busyRefused => cases ht; exact h.of_core (State.core_modPort _ _)
    case readSession => cases ht; exact h.of_core (State.core_modPort _ _)
    case replyReady => cases ht; exact h.of_core (State.core_modPort _ _)
    case lineTimeAdvance e => exact (State.firm_lineTimeAdvance hc e ht).toSound
    case edgeCrossed => cases ht; exact h.of_core (State.core_edgeDue _ _)
    case readyTimeReached => cases ht; exact h.of_core (State.core_readyDue hc _)
    case rescueCompareReached => cases ht; exact h.of_core (State.core_signal hc _)
    case holdAtReached => cases ht; exact h.of_core State.core_holdAtDue
    case staleCompareReached => cases ht; exact h.of_core (State.core_staleDue _)
    case moveLimitReached => cases ht; exact (State.firm_limitDue hc _).toSound
    case burstFallsDue => cases ht; exact h.of_core ((State.core_burstDue _).trans (State.core_burstEndDue _))
    case burstEnd => cases ht; exact h.of_core (State.core_burstEndDue _)
    case unagitatedLimitPassed => cases ht; exact h.of_core (State.core_unagitatedDue _)
    case alarmAssert =>
      cases ht
      split
      · exact h.sound
      · exact h.sound
    case powerOn => cases ht; exact sound_afterReset
    case resetn => cases ht; exact sound_afterReset
    all_goals exact absurd rfl hi

end Agreed

/-- Settles O59: the agreement is one of the core, which each command leaves sound; the queue of commands is not of it. -/
theorem everyStepKeepsTheSlotsInAgreement : Obligations.EveryStepKeepsTheSlotsInAgreement := by
  intro s t hmap hmoves hslots ht
  unfold step at ht
  split at ht
  · cases ht; exact hslots
  · rename_i i rest _
    have agreed : Agreed { s with pending := rest } := ⟨hmap, hmoves, hslots⟩
    exact slotsAgree_of_core (agreed.sound_exec ht)

end Sys2Proof.Machine
end

