-- ==== Sys2Proof/Proofs/Validation.lean ====
section
/-! PROOFS. Validation (O15): the first failing check of the first failing step, then the line check. -/

namespace Sys2Proof.Machine

/-- The group of the step before position `i` of a version; `first` stands before position 0. -/
def groupBefore (first : Option Nat) (v : List RecipeStep) (i : Nat) : Option Nat :=
  if i = 0 then first else (v[i - 1]?).map RecipeStep.group

theorem groupBefore_zero (first : Option Nat) (v : List RecipeStep) : groupBefore first v 0 = first := rfl

theorem groupBefore_cons_succ (first : Option Nat) (k : RecipeStep) (ks : List RecipeStep) (i : Nat) :
    groupBefore first (k :: ks) (i + 1) = groupBefore (some k.group) ks i := by
  cases i with
  | zero => rfl
  | succ i => simp [groupBefore]

/-- A version whose step at position 0 passes its checks is checked on from position 1. -/
theorem State.stepsFault_cons_of_passes {s : State} {again : Bool} {prev : Option Nat} {k : RecipeStep}
    (h : s.stepFault again prev k = none) (n : Nat) (ks : List RecipeStep) :
    s.stepsFault again n prev (k :: ks) = s.stepsFault again (n + 1) (some k.group) ks := by
  rw [State.stepsFault, h]

/-- The first failing step is reported by its position, counted from `n`, with the reason its checks give. -/
theorem State.stepsFault_of_first {s : State} {again : Bool} {k : RecipeStep} {r : RecipeReason} (v : List RecipeStep) :
    ∀ (n : Nat) (prev : Option Nat) (i : Nat), v[i]? = some k → s.stepFault again (groupBefore prev v i) k = some r →
      (∀ j < i, ∀ m, v[j]? = some m → s.stepFault again (groupBefore prev v j) m = none) →
      s.stepsFault again n prev v = some (n + i, r) := by
  induction v with
  | nil => intro n prev i hk; cases hk
  | cons k₀ ks ih =>
    intro n prev i hk hfault hbefore
    cases i with
    | zero =>
      cases hk
      rw [groupBefore_zero] at hfault
      rw [State.stepsFault, hfault]
      rfl
    | succ i =>
      have passes : s.stepFault again prev k₀ = none := hbefore 0 (Nat.succ_pos i) k₀ rfl
      have rest := ih (n + 1) (some k₀.group) i hk (groupBefore_cons_succ prev k₀ ks i ▸ hfault)
        (fun j hj m hm => groupBefore_cons_succ prev k₀ ks j ▸ hbefore (j + 1) (Nat.succ_lt_succ hj) m hm)
      rw [State.stepsFault_cons_of_passes passes, rest, Nat.add_assoc, Nat.add_comm 1 i]

/-- No step is reported when every step passes its checks. -/
theorem State.stepsFault_of_all {s : State} {again : Bool} (v : List RecipeStep) :
    ∀ (n : Nat) (prev : Option Nat), (∀ i k, v[i]? = some k → s.stepFault again (groupBefore prev v i) k = none) →
      s.stepsFault again n prev v = none := by
  induction v with
  | nil => intro n prev _; rfl
  | cons k₀ ks ih =>
    intro n prev h
    have passes : s.stepFault again prev k₀ = none := h 0 k₀ rfl
    rw [State.stepsFault_cons_of_passes passes]
    exact ih (n + 1) (some k₀.group) (fun i k hk => groupBefore_cons_succ prev k₀ ks i ▸ h (i + 1) k hk)

theorem State.hasUnload_iff (s : State) :
    s.hasUnload = true ↔ ∃ st, st ≤ 23 ∧ (s.station st).configured = true ∧ (s.station st).cls = .unload := by
  unfold State.hasUnload
  simp only [List.any_eq_true, List.mem_range, Config.stations, Bool.and_eq_true, beq_iff_eq]
  exact exists_congr fun st => and_congr_left fun _ => Nat.lt_succ_iff

/-- A step's fault is the version's. -/
theorem State.versionFault_of_step {s : State} {again : Bool} {v : List RecipeStep} {f : Nat × RecipeReason}
    (h : s.stepsFault again 0 none v = some f) : s.versionFault again v = some f := by
  rw [State.versionFault, h]

/-- The line check speaks where every step passes. -/
theorem State.versionFault_of_steps {s : State} {again : Bool} {v : List RecipeStep} (h : s.stepsFault again 0 none v = none) :
    s.versionFault again v = if s.hasUnload then none else some (0, .noUnload) := by
  rw [State.versionFault, h]

/-- Settles O15: the checks of one step as written, then the induction along the version. -/
theorem validationNamesTheFirstFault : Obligations.ValidationNamesTheFirstFault := by
  intro s again v
  refine ⟨fun prev k => ?_, fun i k r hk hfault hbefore => ?_, fun hall => ?_⟩
  · unfold State.stepFault
    cases s.groupClass k.group with
    | none => rfl
    | some c => simp only [Bool.not_eq_true']
  · rw [State.versionFault_of_step (State.stepsFault_of_first v 0 none i hk hfault hbefore), Nat.zero_add]
  · rw [State.versionFault_of_steps (State.stepsFault_of_all v 0 none hall), ← State.hasUnload_iff]
    exact ⟨fun hu => if_pos hu, fun hu => if_neg hu⟩

end Sys2Proof.Machine
end

