-- ==== Sys2Proof/Proofs/RecipeRequests.lean ====
section
/-! PROOFS. What the requests of the recipe table answer (O14): the draft and its steps, WRITE-RECIPE, and DISCARD-STAGED. -/

namespace Sys2Proof.Machine

/-! ### DRAFT-RECIPE (R21) and DISCARD-STAGED (R30) -/

theorem answers_draftRecipe {s t : State} {r n : Nat} {q : Reply} (hp : PortFree s .p0)
    (h : draftRecipe r n (s.opened .p0 4) = (t, q)) : Answers (.draftRecipe r n) s .p0 t q :=
  Answers.of_rule (c := 0x10) (l := bytes1 r ++ bytes1 n) rfl hp h

theorem draftRecipe_answers (r n : Nat) {s : State} (hp : PortFree s .p0) :
    ((15 < r ∨ n < 1 ∨ 12 < n) → Answers (.draftRecipe r n) s .p0 (s.opened .p0 4) (Reply.bare .badArg))
    ∧ (r ≤ 15 → 1 ≤ n → n ≤ 12 →
      Answers (.draftRecipe r n) s .p0 { s.opened .p0 4 with draft := some { recipe := r, steps := List.replicate n none } }
        (Reply.bare .ok)) :=
  ⟨fun h => answers_draftRecipe hp (if_pos h), fun _ _ _ => answers_draftRecipe hp (if_neg (by omega))⟩

theorem answers_discardStaged {s t : State} {r : Nat} {q : Reply} (hp : PortFree s .p0)
    (h : discardStaged r (s.opened .p0 3) = (t, q)) : Answers (.discardStaged r) s .p0 t q :=
  Answers.of_rule (c := 0x13) (l := bytes1 r) rfl hp h

theorem discardStaged_answers (r : Nat) {s : State} (hp : PortFree s .p0) :
    (15 < r → Answers (.discardStaged r) s .p0 (s.opened .p0 3) (Reply.bare .badArg))
    ∧ (r ≤ 15 → (s.recipe r).staged = none → Answers (.discardStaged r) s .p0 (s.opened .p0 3) (Reply.bare .notNow))
    ∧ (r ≤ 15 → (s.recipe r).staged ≠ none →
      Answers (.discardStaged r) s .p0
        { s.opened .p0 3 with recipes := s.recipes.setIfInBounds r { s.recipe r with staged := none } } (Reply.bare .ok)) := by
  refine ⟨fun h => ?_, fun h hs => ?_, fun h hs => ?_⟩ <;> refine answers_discardStaged hp ?_
  · exact if_pos h
  · exact (if_neg (by omega)).trans (if_pos (Option.isNone_iff_eq_none.2 hs))
  · exact (if_neg (by omega)).trans (if_neg (mt Option.isNone_iff_eq_none.1 hs))

/-! ### DRAFT-STEPS (R22) -/

theorem length_rawStep (k : RawStep) : k.bytes.length = 11 := by simp [RawStep.bytes]

theorem answers_draftSteps {s t : State} {r first : Nat} {steps : List RawStep} {q : Reply} (hp : PortFree s .p0)
    (h : draftSteps r first steps (s.opened .p0 (4 + 11 * steps.length)) = (t, q)) :
    Answers (.draftSteps r first steps) s .p0 t q := by
  refine Answers.of_rule (c := 0x11) (l := bytes1 r ++ bytes1 first ++ steps.flatMap RawStep.bytes) rfl hp ?_
  have clocked : 2 + (bytes1 r ++ bytes1 first ++ steps.flatMap RawStep.bytes).length = 4 + 11 * steps.length := by
    simp only [List.length_append, length_bytes1, length_flatMap_of_const length_rawStep]
    omega
  rw [clocked]
  exact h

/-- R22: a position of the draft holds the carried step for it, if one was carried, and otherwise what it held. -/
theorem getElem?_storeSteps {old : List (Option RawStep)} {first : Nat} {steps : List RawStep}
    (h : first + steps.length ≤ old.length) (i : Nat) :
    (storeSteps old first steps)[i]? =
      if first ≤ i ∧ i < first + steps.length then (steps[i - first]?).map some else old[i]? := by
  have taken : (old.take first).length = first := by rw [List.length_take]; omega
  unfold storeSteps
  rw [List.append_assoc]
  by_cases below : i < first
  · rw [List.getElem?_append_left (by omega), List.getElem?_take_of_lt below, if_neg (by omega)]
  · rw [List.getElem?_append_right (by omega), taken]
    by_cases carried : i < first + steps.length
    · rw [List.getElem?_append_left (by rw [List.length_map]; omega), List.getElem?_map, if_pos (by omega)]
    · rw [List.getElem?_append_right (by rw [List.length_map]; omega), List.length_map, List.getElem?_drop, if_neg (by omega)]
      congr 1
      omega

theorem length_storeSteps {old : List (Option RawStep)} {first : Nat} {steps : List RawStep}
    (h : first + steps.length ≤ old.length) : (storeSteps old first steps).length = old.length := by
  simp only [storeSteps, List.length_append, List.length_take, List.length_map, List.length_drop]
  omega

theorem any_group_iff (steps : List RawStep) :
    steps.any (fun k => decide (15 < k.group)) = true ↔ ∃ k ∈ steps, 15 < k.group := by simp

/-- DRAFT-STEPS without a draft of the recipe. -/
theorem draftSteps_noDraft {s : State} {r : Nat} (h : ∀ d, s.draft = some d → d.recipe ≠ r) (first : Nat)
    (steps : List RawStep) : draftSteps r first steps s = (s, Reply.bare .notNow) := by
  unfold draftSteps
  split
  · rename_i d hd
    exact if_pos (h d hd)
  · rfl

/-- DRAFT-STEPS with a draft of the recipe: the places exist and the groups are in range, or it is refused. -/
theorem draftSteps_drafted {s : State} {d : Draft} (hd : s.draft = some d) (first : Nat) (steps : List RawStep) :
    ((d.steps.length < first + steps.length ∨ ∃ k ∈ steps, 15 < k.group) →
      draftSteps d.recipe first steps s = (s, Reply.bare .badArg))
    ∧ (first + steps.length ≤ d.steps.length → (∀ k ∈ steps, k.group ≤ 15) → draftSteps d.recipe first steps s =
      ({ s with draft := some { recipe := d.recipe, steps := storeSteps d.steps first steps } }, Reply.bare .ok)) := by
  unfold draftSteps
  rw [hd]
  refine ⟨fun h => (if_neg (not_not.2 rfl)).trans ?_, fun hfit hgroup => (if_neg (not_not.2 rfl)).trans ?_⟩
  · by_cases hlong : d.steps.length < first + steps.length
    · exact if_pos hlong
    · exact (if_neg hlong).trans (if_pos ((any_group_iff steps).2 (h.resolve_left hlong)))
  · have inRange : ¬ steps.any (fun k => decide (15 < k.group)) = true := by
      rw [any_group_iff]
      rintro ⟨k, hk, hk'⟩
      exact absurd (hgroup k hk) (by omega)
    exact (if_neg (by omega)).trans (if_neg inRange)

theorem draftSteps_answers (r first : Nat) (steps : List RawStep) (s : State) (hp : PortFree s .p0) :
    ((∀ d, s.draft = some d → d.recipe ≠ r) →
      Answers (.draftSteps r first steps) s .p0 (s.opened .p0 (4 + 11 * steps.length)) (Reply.bare .notNow))
    ∧ (∀ d, s.draft = some d → d.recipe = r →
      ((d.steps.length < first + steps.length ∨ ∃ k ∈ steps, 15 < k.group) →
        Answers (.draftSteps r first steps) s .p0 (s.opened .p0 (4 + 11 * steps.length)) (Reply.bare .badArg))
      ∧ (first + steps.length ≤ d.steps.length → (∀ k ∈ steps, k.group ≤ 15) → ∃ l,
        Answers (.draftSteps r first steps) s .p0
          { s.opened .p0 (4 + 11 * steps.length) with draft := some { recipe := r, steps := l } } (Reply.bare .ok)
        ∧ l.length = d.steps.length
        ∧ ∀ i, l[i]? = if first ≤ i ∧ i < first + steps.length then (steps[i - first]?).map some else d.steps[i]?)) := by
  refine ⟨fun h => answers_draftSteps hp (draftSteps_noDraft (s := s.opened .p0 (4 + 11 * steps.length)) h first steps), ?_⟩
  rintro d hd rfl
  obtain ⟨refused, stored⟩ := draftSteps_drafted (s := s.opened .p0 (4 + 11 * steps.length)) hd first steps
  exact ⟨fun h => answers_draftSteps hp (refused h), fun hfit hgroup =>
    ⟨_, answers_draftSteps hp (stored hfit hgroup), length_storeSteps hfit, getElem?_storeSteps hfit⟩⟩

/-! ### WRITE-RECIPE (R23, R25) -/

theorem answers_writeRecipe {s t : State} {r : Nat} {q : Reply} (hp : PortFree s .p0)
    (h : writeRecipe r (s.opened .p0 3) = (t, q)) : Answers (.writeRecipe r) s .p0 t q :=
  Answers.of_rule (c := 0x12) (l := bytes1 r) rfl hp h

/-- The first place of a draft that has received no step. -/
theorem findIdx?_isNone_of_first {l : List (Option RawStep)} {i : Nat} (hi : l[i]? = some none)
    (hbefore : ∀ j < i, l[j]? ≠ some none) : l.findIdx? Option.isNone = some i := by
  obtain ⟨hlen, hget⟩ := List.getElem?_eq_some_iff.1 hi
  rw [List.findIdx?_eq_some_iff_getElem]
  refine ⟨hlen, by rw [hget]; rfl, fun j hj hnone => hbefore j hj ?_⟩
  rw [List.getElem?_eq_getElem (by omega), Option.isNone_iff_eq_none.1 hnone]

/-- A draft whose every place has received its step. -/
theorem findIdx?_isNone_of_full (steps : List RawStep) : (steps.map some).findIdx? Option.isNone = none := by
  rw [List.findIdx?_eq_none_iff]
  simp

theorem filterMap_id_of_full (steps : List RawStep) : (steps.map some).filterMap id = steps := by
  rw [List.filterMap_map]
  exact List.filterMap_some

theorem writeRecipe_noDraft {s : State} {r : Nat} (hr : r ≤ 15) (h : ∀ d, s.draft = some d → d.recipe ≠ r) :
    writeRecipe r s = (s, Reply.bare .notNow) := by
  refine (if_neg (by omega)).trans ?_
  split
  · rename_i d hd
    exact if_pos (h d hd)
  · rfl

/-- WRITE-RECIPE with a draft of the recipe, by what its places and its validation say. -/
theorem writeRecipe_drafted {s : State} {d : Draft} (hr : d.recipe ≤ 15) (hd : s.draft = some d) :
    writeRecipe d.recipe s = match d.steps.findIdx? Option.isNone with
      | some i => s.badRecipe d.recipe (i, .incomplete)
      | none => match s.versionFault false ((d.steps.filterMap id).map s.stepOf) with
        | some f => s.badRecipe d.recipe f
        | none => s.storeVersion d.recipe ((d.steps.filterMap id).map s.stepOf) := by
  unfold writeRecipe
  rw [if_neg (by omega), hd]
  exact if_neg (not_not.2 rfl)

/-- A draft with every step received is validated. -/
theorem writeRecipe_full {s : State} {d : Draft} (hr : d.recipe ≤ 15) (hd : s.draft = some d) {steps : List RawStep}
    (hfull : d.steps = steps.map some) :
    (∀ f, s.versionFault false (steps.map s.stepOf) = some f → writeRecipe d.recipe s = s.badRecipe d.recipe f)
    ∧ (s.versionFault false (steps.map s.stepOf) = none →
      writeRecipe d.recipe s = s.storeVersion d.recipe (steps.map s.stepOf)) := by
  rw [writeRecipe_drafted hr hd, hfull, findIdx?_isNone_of_full, filterMap_id_of_full]
  refine ⟨fun f h => ?_, fun h => ?_⟩ <;> simp only [h]

/-- Opening a port changes nothing of the version a draft's steps make. -/
theorem State.opened_steps (s : State) (p : PortId) (n : Nat) (steps : List RawStep) :
    steps.map (s.opened p n).stepOf = steps.map s.stepOf :=
  List.map_congr_left fun k _ => State.opened_stepOf s p n k

theorem writeRecipe_answers (r : Nat) (s : State) (hp : PortFree s .p0) :
    (15 < r → Answers (.writeRecipe r) s .p0 (s.opened .p0 3) (Reply.bare .badArg))
    ∧ (r ≤ 15 → (∀ d, s.draft = some d → d.recipe ≠ r) →
      Answers (.writeRecipe r) s .p0 (s.opened .p0 3) (Reply.bare .notNow)) :=
  ⟨fun h => answers_writeRecipe hp (if_pos h),
    fun hr h => answers_writeRecipe hp (writeRecipe_noDraft (s := s.opened .p0 3) hr h)⟩

/-- Settles O14: each request by its tests in their order; the draft of a write is incomplete, fails validation, or passes. -/
theorem draftsAreFilledWrittenAndDiscarded : Obligations.DraftsAreFilledWrittenAndDiscarded := by
  refine ⟨⟨fun r n s hp => ?_, draftSteps_answers⟩, fun r s hp => ?_⟩
  · obtain ⟨badDraft, drafted⟩ := draftRecipe_answers r n hp
    exact ⟨badDraft, drafted, discardStaged_answers r hp⟩
  · obtain ⟨outOfRange, noDraft⟩ := writeRecipe_answers r s hp
    refine ⟨outOfRange, noDraft, ?_⟩
    rintro d hr hd rfl
    refine ⟨fun i hi hbefore => answers_writeRecipe hp ?_, fun steps hfull => ?_⟩
    · rw [writeRecipe_drafted (s := s.opened .p0 3) hr hd, findIdx?_isNone_of_first hi hbefore]
      rfl
    obtain ⟨faulty, passes⟩ := writeRecipe_full (s := s.opened .p0 3) hr hd hfull
    rw [State.opened_versionFault, State.opened_steps] at faulty passes
    refine ⟨fun i reason h => answers_writeRecipe hp (faulty _ h), fun h huse => answers_writeRecipe hp ?_,
      fun h huse => answers_writeRecipe hp ?_⟩
    · rw [passes h]
      exact if_pos huse
    · rw [passes h]
      exact if_neg (Nat.ne_of_gt huse)

end Sys2Proof.Machine
end

