-- ==== Sys2Proof/Proofs/LineModes.lean ====
section
/-! PROOFS. RUN, DRAIN, HOLD, STOP, HOLD-AT and the set point by the mode they find (O48). -/

namespace Sys2Proof.Machine

/-! ### The mode (R165) -/

/-- R165: the LINE-MODE notice of a change to mode `m` with cause `c`. -/
def modeNotice (now : LineTime) (m : LineMode) (c : Nat) : Notice :=
  { kind := .lineMode, time := now, tag := none, station := none, move := none, codeA := m.code, codeB := c, codeC := 0,
    codeD := 0 }

theorem State.setMode_same {s : State} {m : LineMode} (h : s.mode = m) (c : Nat) : s.setMode m c = s := if_pos h

/-- A change of mode changes the mode and the supervisor's port alone: LINE-MODE is maskable and displaces no notice. -/
theorem State.setMode_changes {s : State} {m : LineMode} (h : s.mode ≠ m) (c : Nat) :
    s.setMode m c = { s with mode := m, port0 := s.port0.push (modeNotice s.lineTime m c) } :=
  (if_neg h).trans (State.post_of_maskable { s with mode := m } .p0 rfl)

/-! ### DRAIN, HOLD and STOP (R166) -/

section
variable {s t : State} {q : Reply} (hp : PortFree s .p0)
include hp

theorem answers_drain (h : drainLine (s.opened .p0 2) = (t, q)) : Answers .drain s .p0 t q :=
  Answers.of_rule (c := 0x51) (l := []) rfl hp h

theorem answers_hold (h : holdLine (s.opened .p0 2) = (t, q)) : Answers .hold s .p0 t q :=
  Answers.of_rule (c := 0x52) (l := []) rfl hp h

theorem answers_stop (h : stopLine (s.opened .p0 2) = (t, q)) : Answers .stop s .p0 t q :=
  Answers.of_rule (c := 0x53) (l := []) rfl hp h

theorem answers_run (h : runLine (s.opened .p0 2) = (t, q)) : Answers .run s .p0 t q :=
  Answers.of_rule (c := 0x50) (l := []) rfl hp h

theorem answers_holdAt {x : LineTime} (h : holdAt x (s.opened .p0 6) = (t, q)) : Answers (.holdAt x) s .p0 t q :=
  Answers.of_rule (c := 0x54) (l := bytes4 x.toNat) rfl hp h

end

/-- R166: DRAIN and HOLD leave RUN for their mode. -/
theorem drainLine_holdLine_run {s : State} (h : s.mode = .run) :
    drainLine s = ({ s with mode := .drain, port0 := s.port0.push (modeNotice s.lineTime .drain 0) }, Reply.bare .ok)
    ∧ holdLine s = ({ s with mode := .hold, port0 := s.port0.push (modeNotice s.lineTime .hold 0) }, Reply.bare .ok) := by
  unfold drainLine holdLine
  rw [if_pos h, if_pos h, State.setMode_changes (by simp [h]), State.setMode_changes (by simp [h])]
  exact ⟨rfl, rfl⟩

theorem stopLine_free {s : State} (ha : s.gantryA.link ≠ .busy) (hb : s.gantryB.link ≠ .busy) :
    stopLine s = (s.setMode .idle 0, Reply.bare .ok) := if_neg (not_or.2 ⟨ha, hb⟩)

/-! ### RUN (R26, R166) -/

/-- R26: the fault a re-validation finds and the mark it leaves, for a recipe of the table. -/
theorem State.recipe_revalidateAll (s : State) {r : Nat} (h : r ≤ 15) :
    s.revalidateAll.recipe r = if (s.recipe r).active = [] then { s.recipe r with valid := false, lastFault := some (0, .empty) }
      else match s.versionFault true (s.recipe r).active with
        | some f => { s.recipe r with valid := false, lastFault := some f }
        | none => { s.recipe r with valid := true, lastFault := none } := by
  have found : s.revalidateAll.recipe r = s.revalidated (s.recipe r) := by
    have hr : r < 16 := by omega
    simp only [State.recipe, State.revalidateAll, Vector.getElem?_eq_getElem hr, Option.getD_some, Vector.getElem_map]
  rw [found]
  unfold State.revalidated State.revalidationFault
  by_cases hempty : (s.recipe r).active = []
  · rw [if_pos hempty, if_pos (List.isEmpty_iff.2 hempty)]
    rfl
  · rw [if_neg hempty, if_neg (mt List.isEmpty_iff.1 hempty)]
    cases s.versionFault true (s.recipe r).active <;> rfl

/-- R166: RUN re-validates, then leaves its mode for RUN, and answers with the recipes marked INVALID. -/
theorem runLine_changes {s : State} (h : s.mode ≠ .run) :
    runLine s = ({ s with mode := .run, port0 := s.port0.push (modeNotice s.lineTime .run 0)
                          recipes := s.revalidateAll.recipes },
      { status := .ok, payload := bytes2 s.revalidateAll.invalidSet }) := by
  unfold runLine
  dsimp only
  rw [if_neg h, State.setMode_changes (s := s.revalidateAll) h]
  rfl

/-! ### The set point (R167) -/

theorem State.holdAtDue_not_reached {s : State} (h : ∀ t, s.holdAt = some t → reached s.lineTime t = false) :
    s.holdAtDue = s := by
  unfold State.holdAtDue
  split
  · rename_i t ht
    exact if_neg (by simp [h t ht])
  · rfl

/-- R167: a set point that is reached is spent; in RUN the mode becomes HOLD with cause HOLD-AT. -/
theorem State.holdAtDue_reached {s : State} {t : LineTime} (ht : s.holdAt = some t) (h : reached s.lineTime t = true) :
    s.holdAtDue = if s.mode = .run then
        { s with holdAt := none, mode := .hold, port0 := s.port0.push (modeNotice s.lineTime .hold 1) }
      else { s with holdAt := none } := by
  unfold State.holdAtDue
  rw [ht]
  dsimp only
  rw [if_pos h]
  by_cases hrun : s.mode = .run
  · rw [if_pos hrun, if_pos hrun, State.setMode_changes (by simp [hrun])]
  · rw [if_neg hrun, if_neg hrun]

theorem holdAt_answers {s : State} (hp : PortFree s .p0) :
    Answers (.holdAt 0) s .p0 { s.opened .p0 6 with holdAt := none } (Reply.bare .ok)
    ∧ (∀ t, t ≠ 0 → reached s.lineTime t = true → Answers (.holdAt t) s .p0 (s.opened .p0 6) (Reply.bare .badArg))
    ∧ (∀ t, t ≠ 0 → reached s.lineTime t = false →
      Answers (.holdAt t) s .p0 { s.opened .p0 6 with holdAt := some t } (Reply.bare .ok)) := by
  refine ⟨answers_holdAt hp (if_pos rfl), fun t h0 h => answers_holdAt hp ?_, fun t h0 h => answers_holdAt hp ?_⟩
  · exact (if_neg h0).trans (if_pos h)
  · exact (if_neg h0).trans (if_neg (by simp [h]))

/-- Settles O48: each request by the mode it finds, and the set point by whether it is reached. -/
theorem lineModesByRequestAndSetPoint : Obligations.LineModesByRequestAndSetPoint := by
  intro s
  refine ⟨s.opened .p0 2, modeNotice s.lineTime, rfl, fun _ _ => rfl, fun hp => ?_, fun h => ?_, fun t ht h => ?_⟩
  · refine ⟨fun hrun => ?_, fun hrun => ⟨answers_drain hp (if_neg hrun), answers_hold hp (if_neg hrun), ?_⟩,
      fun hbusy => answers_stop hp (if_pos hbusy), fun ha hb => ?_, holdAt_answers hp⟩
    · obtain ⟨drain, hold⟩ := drainLine_holdLine_run (s := s.opened .p0 2) hrun
      exact ⟨answers_run hp (if_pos hrun), answers_drain hp drain, answers_hold hp hold⟩
    · refine ⟨_, rfl, fun r hr => ?_, answers_run hp (runLine_changes hrun)⟩
      have marked := State.recipe_revalidateAll (s.opened .p0 2) hr
      rw [State.opened_recipe, State.opened_versionFault] at marked
      exact marked
    · have free := stopLine_free (s := s.opened .p0 2) ha hb
      refine ⟨fun hidle => answers_stop hp ?_, fun hidle => answers_stop hp ?_⟩
      · rw [free, State.setMode_same (s := s.opened .p0 2) hidle]
      · rw [free, State.setMode_changes (s := s.opened .p0 2) hidle]
        rfl
  · exact congrArg Host.Outcome.next (State.holdAtDue_not_reached h)
  · have due := State.holdAtDue_reached ht h
    exact ⟨fun hrun => congrArg Host.Outcome.next (due.trans (if_pos hrun)),
      fun hrun => congrArg Host.Outcome.next (due.trans (if_neg hrun))⟩

end Sys2Proof.Machine
end

