-- ==== Sys2Proof/Proofs/Occupancy.lean ====
section
/-! PROOFS. What a change of a station's occupancy tells its gas channel (R155), in the words of `OccupancyTold`. -/

namespace Sys2Proof.Machine

/-! ### One channel -/

theorem State.channelEmptied_channel (s : State) {n : Nat} (h : n < 8) (o : Nat) :
    (s.channelEmptied n).channel o = if o = n then (s.channel n).emptied else s.channel o := by
  rw [State.channelEmptied_eq, State.channel_modChannel h]

/-- The valves in use are counted by the channels' states. -/
theorem State.gasInUse_modChannel (s : State) (n : Nat) {f : Channel → Channel}
    (hf : (f (s.channel n)).state = (s.channel n).state) :
    (s.modChannel n f).gasInUse = s.gasInUse := by
  by_cases hn : n < 8
  · have hlen : n < s.channels.toList.length := by simpa using hn
    have here : s.channel n = s.channels.toList[n] := by simp [State.channel, hn]
    have counted : ∀ l : List Channel,
        l.countP (fun c => c.state == .bursting) = (l.map Channel.state).countP (· == .bursting) :=
      fun l => by rw [List.countP_map]; rfl
    have states : (s.channels.toList.set n (f (s.channel n))).map Channel.state = s.channels.toList.map Channel.state := by
      rw [List.map_set, hf, here, ← List.getElem_map Channel.state (h := by simpa using hn), List.set_getElem_self]
    unfold State.gasInUse
    rw [State.modChannel_channels, Vector.toList_setIfInBounds, counted, states, counted]
  · have same : s.channels.setIfInBounds n (f (s.channel n)) = s.channels := Vector.setIfInBounds_eq_of_size_le (by omega)
    unfold State.gasInUse
    rw [State.modChannel_channels, same]

/-- R156, R158: a valve opened for a burst that is scheduled on: a scheduling leaves the length and the counts. -/
theorem Channel.openValve_schedule (c : Channel) (x : LineTime) :
    (c.schedule x).openValve x = { c.schedule x with state := .bursting, burstEnd := some (x + BitVec.ofNat 32 c.length)
                                                     deferredDue := none, bursts := min 65535 (c.bursts + 1) } := by
  have saturates : satAdd 65535 c.bursts 1 = min 65535 (c.bursts + 1) := by unfold satAdd; split <;> omega
  unfold Channel.openValve Channel.schedule
  split <;> simp only [saturates, plus]

/-- R155: a channel whose station has become occupied: PAUSED, a burst falls due at once on a cadence started from 0. -/
def State.occupiedChannel (s : State) (c : Channel) : Channel :=
  match c.state with
  | .paused =>
    if s.gasInUse < s.gasLimit then (Channel.schedule { c with empty := false, accumulator := 0 } s.lineTime).openValve s.lineTime
    else { Channel.schedule { c with empty := false, accumulator := 0 } s.lineTime with
             state := .deferred, deferredDue := some s.lineTime }
  | .held => { c with empty := false, accumulator := 0, nextDue := some s.lineTime }
  | _ => { c with empty := false }

theorem State.modChannel_modChannel (s : State) {n : Nat} (h : n < 8) (f g : Channel → Channel) :
    (s.modChannel n f).modChannel n g = s.modChannel n (fun c => g (f c)) := by
  have here : (s.modChannel n f).channel n = f (s.channel n) := by rw [State.channel_modChannel h, if_pos rfl]
  unfold State.modChannel at *
  rw [here]
  dsimp only
  rw [Vector.setIfInBounds_setIfInBounds]

theorem State.channelOccupied_eq (s : State) {n : Nat} (h : n < 8) :
    s.channelOccupied n = s.modChannel n s.occupiedChannel := by
  unfold State.channelOccupied
  split
  case h_1 hpaused =>
    have here : (s.modChannel n (fun c => { c with empty := false, accumulator := 0 })).channel n
        = { s.channel n with empty := false, accumulator := 0 } := by rw [State.channel_modChannel h, if_pos rfl]
    have valves : (s.modChannel n (fun c => { c with empty := false, accumulator := 0 })).gasInUse = s.gasInUse :=
      s.gasInUse_modChannel n rfl
    unfold State.fallDue
    rw [here, valves]
    simp only [hpaused, State.modChannel_gasLimit, State.modChannel_modChannel s h]
    unfold State.modChannel State.occupiedChannel
    simp only [hpaused]
    split <;> rfl
  case h_2 hheld => simp only [State.modChannel, State.occupiedChannel, hheld]
  case h_3 hpaused hheld =>
    unfold State.modChannel State.occupiedChannel
    split
    · contradiction
    · contradiction
    · rfl

theorem State.channelOccupied_channel (s : State) {n : Nat} (h : n < 8) (o : Nat) :
    (s.channelOccupied n).channel o = if o = n then s.occupiedChannel (s.channel n) else s.channel o := by
  rw [State.channelOccupied_eq s h, State.channel_modChannel h]

/-! ### The report of a station (R155) -/

/-- The channel of a station after a report, by the counts of OCCUPIED slots before and after. -/
theorem State.reportOccupancy_assigned {s : State} {st n : Nat} (hgas : (s.station st).gasChannel = some n) (was : Nat) :
    s.reportOccupancy st was = if was = 0 ∧ 0 < (s.station st).occupiedCount then s.channelOccupied n
      else if 0 < was ∧ (s.station st).occupiedCount = 0 then s.channelEmptied n else s := by
  unfold State.reportOccupancy
  rw [hgas]

/-- The report is what `OccupancyTold` says. The change is made in `u`, and `t` is the state after the event: `u` has the channels,
the line time and the gas limit of `s`, and `t` the channels the report leaves. -/
theorem occupancyTold_of_report {s u t : State} {st : Nat} (hchannels : u.channels = s.channels) (htime : u.lineTime = s.lineTime)
    (hlimit : u.gasLimit = s.gasLimit) (hgas : (u.station st).gasChannel = (s.station st).gasChannel)
    (hcount : (t.station st).occupiedCount = (u.station st).occupiedCount)
    (ht : t.channels = (u.reportOccupancy st (s.station st).occupiedCount).channels) : OccupancyTold s t st := by
  have found : ∀ o, t.channel o = (u.reportOccupancy st (s.station st).occupiedCount).channel o := fun o => by
    unfold State.channel; rw [ht]
  have before : ∀ o, u.channel o = s.channel o := fun o => by unfold State.channel; rw [hchannels]
  have valves : u.gasInUse = s.gasInUse := by unfold State.gasInUse; rw [hchannels]
  refine ⟨fun hnone => ?_, fun n hn h7 =>
    ⟨_, _, rfl, rfl, fun o ho => ?_, fun hsame => ?_, fun hwas hnow => ?_, fun hwas hnow => ?_⟩⟩
  · rw [ht]
    unfold State.reportOccupancy
    rw [hgas, hnone]
    exact hchannels
  all_goals
    rw [found, State.reportOccupancy_assigned (hgas.trans hn), ← hcount]
  · split
    · rw [State.channelOccupied_channel u (by omega), if_neg ho, before]
    · split
      · rw [State.channelEmptied_channel u (by omega), if_neg ho, before]
      · exact before o
  · rw [if_neg (by omega), if_neg (by omega), before]
  · rw [if_pos ⟨hwas, hnow⟩, State.channelOccupied_channel u (by omega), if_pos rfl, before]
    unfold State.occupiedChannel
    rw [valves, hlimit, htime]
    cases hstate : (s.channel n).state with
    | paused =>
      dsimp only
      split
      · exact Channel.openValve_schedule _ s.lineTime
      · rfl
    | _ => rfl
  · rw [if_neg (by omega), if_pos ⟨hwas, hnow⟩, State.channelEmptied_channel u (by omega), if_pos rfl, before]
    unfold Channel.emptied
    cases hstate : (s.channel n).state <;> rfl

end Sys2Proof.Machine
end

