-- ==== Sys2Proof/Proofs/Unloaded.lean ====
section
/-! PROOFS. UNLOADED (O22): what the withdrawal of a hanger leaves of the slots, the records and the moves, and what becomes of the
recipe it was bound to. -/

namespace Sys2Proof.Machine

/-! ### The use of a recipe (R27, R28) -/

/-- R28: a staged version becomes active, with its notice. -/
theorem State.swapRecipe_some {s : State} {r : Nat} {v : List RecipeStep} (h : (s.recipe r).staged = some v) :
    s.swapRecipe r = { s with
      recipes := s.recipes.setIfInBounds r { s.recipe r with active := v, staged := none, valid := true, lastFault := none }
      port0 := s.port0.push (swapNotice s.lineTime r) } := by
  unfold State.swapRecipe
  rw [h]
  exact State.post_of_maskable _ .p0 rfl

theorem State.swapRecipe_none {s : State} {r : Nat} (h : (s.recipe r).staged = none) : s.swapRecipe r = s := by
  unfold State.swapRecipe
  rw [h]

/-- R27, R28: a recipe entry that one bound hanger leaves: at use count 0 a staged version becomes active. -/
def Recipe.left (e : Recipe) : Recipe :=
  match e.staged with
  | some v =>
    if e.useCount ≤ 1 then { active := v, staged := none, useCount := e.useCount - 1, valid := true, lastFault := none }
    else { e with useCount := e.useCount - 1 }
  | none => { e with useCount := e.useCount - 1 }

theorem Recipe.left_some {e : Recipe} {v : List RecipeStep} (h : e.staged = some v) (hu : e.useCount ≤ 1) :
    e.left = { active := v, staged := none, useCount := e.useCount - 1, valid := true, lastFault := none } := by
  unfold Recipe.left
  rw [h]
  exact if_pos hu

theorem Recipe.left_of_kept {e : Recipe} (h : ¬ (e.useCount ≤ 1 ∧ e.staged ≠ none)) :
    e.left = { e with useCount := e.useCount - 1 } := by
  unfold Recipe.left
  split
  · rename_i v hv
    exact if_neg (fun hu => h ⟨hu, by simp [hv]⟩)
  · rfl

/-- A recipe index past the last names a blank entry. -/
theorem State.recipe_outside (s : State) {r : Nat} (h : ¬ r < 16) : s.recipe r = Recipe.blank := by
  unfold State.recipe
  rw [Vector.getElem?_eq_none (by omega)]
  rfl

/-- R27, R28: leaving a recipe changes its entry and, where it swaps, the supervisor's port. -/
theorem State.leaveRecipe_eq (s : State) (r : Nat) :
    s.leaveRecipe r = { s with
      recipes := s.recipes.setIfInBounds r (s.recipe r).left
      port0 := if (s.recipe r).useCount ≤ 1 ∧ (s.recipe r).staged ≠ none then s.port0.push (swapNotice s.lineTime r)
        else s.port0 } := by
  have counted : (s.modRecipe r (fun e => { e with useCount := e.useCount - 1 })).recipe r
      = { s.recipe r with useCount := (s.recipe r).useCount - 1 } := by
    by_cases hr : r < 16
    · rw [State.recipe_modRecipe hr, if_pos rfl]
    · rw [State.recipe_outside _ hr, State.recipe_outside _ hr]
      rfl
  by_cases hswap : (s.recipe r).useCount ≤ 1 ∧ (s.recipe r).staged ≠ none
  · obtain ⟨hu, hstaged⟩ := hswap
    obtain ⟨v, hv⟩ := Option.ne_none_iff_exists'.1 hstaged
    have zero : (s.recipe r).useCount - 1 = 0 := by omega
    unfold State.leaveRecipe
    dsimp only
    rw [if_pos zero, if_pos ⟨hu, hstaged⟩, Recipe.left_some hv hu, State.swapRecipe_some (v := v) (by rw [counted]; exact hv),
      counted]
    unfold State.modRecipe
    dsimp only
    rw [Vector.setIfInBounds_setIfInBounds]
  · have kept : s.leaveRecipe r = s.modRecipe r (fun e => { e with useCount := e.useCount - 1 }) := by
      unfold State.leaveRecipe
      dsimp only
      split
      · rename_i zero
        refine State.swapRecipe_none ?_
        rw [counted]
        exact not_not.1 fun hs => hswap ⟨by omega, hs⟩
      · rfl
    rw [kept, if_neg hswap, Recipe.left_of_kept hswap]
    rfl

/-! ### Slots and their stations -/

/-- The record of a station with every reservation of a tag released, at every index. -/
theorem State.station_releaseAll (s : State) (tag st : Nat) : (s.releaseAll tag).station st = (s.station st).releaseAll tag := by
  by_cases h : st < 24
  · simp only [State.station, State.releaseAll, Vector.getElem?_eq_getElem h, Option.getD_some, Vector.getElem_map]
  · rw [State.station_outside _ h, State.station_outside _ h]
    simp [Station.releaseAll, Station.absent, Slot.reservedFor]

/-- The OCCUPIED slots are counted by the places of the station alone. -/
theorem Station.occupiedCount_congr {x y : Station} (hc : y.slotCount = x.slotCount)
    (h : ∀ i tag, y.slot i = .occupied tag ↔ x.slot i = .occupied tag) : y.occupiedCount = x.occupiedCount := by
  unfold Station.occupiedCount
  rw [hc]
  congr 1
  refine List.filter_congr fun i _ => ?_
  cases hx : x.slot i with
  | occupied tag => rw [(h i tag).2 hx]
  | _ =>
    split
    · rename_i tag hy
      rw [(h i tag).1 hy] at hx
      cases hx
    · rfl

/-- R6: a release changes no OCCUPIED slot. -/
theorem Station.occupiedCount_releaseAll (x : Station) (tag : Nat) : (x.releaseAll tag).occupiedCount = x.occupiedCount := by
  refine Station.occupiedCount_congr rfl fun i held => ?_
  rw [Station.slot_releaseAll]
  cases x.slot i with
  | reserved t k => cases h : Slot.reservedFor (.reserved t k) tag <;> simp
  | _ => exact Iff.rfl

/-! ### The withdrawal (R56) -/

/-- R56: the hanger of a tag withdrawn from slot `r`, before its recipe is told. -/
def State.withdrawn (s : State) (tag : Nat) (r : SlotRef) : State :=
  (((((s.setSlot r .free).reportOccupancy r.station (s.station r.station).occupiedCount).leaveOrder tag).removeHangerMove
    tag).releaseAll tag).dropHanger tag

theorem State.withdraw_of {s : State} {h : Hanger} {r : SlotRef} (hr : s.slotAt r = .occupied h.tag) :
    s.withdraw h r = if h.bound then (s.withdrawn h.tag r).leaveRecipe h.recipe else s.withdrawn h.tag r := by
  unfold State.withdraw
  rw [State.vacate_of hr]
  rfl

/-- The removal of a hanger's move changes the move list alone, and reads nothing else. -/
theorem State.removeHangerMove_rest (s : State) (tag : Nat) :
    s.removeHangerMove tag = { s with moves := (s.removeHangerMove tag).moves } := by
  unfold State.removeHangerMove
  split <;> rfl

theorem State.removeHangerMove_congr {s t : State} (h : t.moves = s.moves) (tag : Nat) :
    (t.removeHangerMove tag).moves = (s.removeHangerMove tag).moves := by
  unfold State.removeHangerMove
  rw [State.hangerMove_congr h]
  cases s.hangerMove? tag with
  | none => exact h
  | some m =>
    unfold State.removeMove
    dsimp only
    rw [h]

/-- A report of occupancy changes the channels alone. -/
theorem State.reportOccupancy_rest (s : State) (st was : Nat) :
    s.reportOccupancy st was = { s with channels := (s.reportOccupancy st was).channels } := by
  unfold State.reportOccupancy State.channelOccupied State.channelEmptied State.fallDue
  repeat' split
  all_goals rfl

/-- The withdrawal changes the stations, the channels, the hangers, their order and the moves. -/
theorem State.withdrawn_rest (s : State) (tag : Nat) (r : SlotRef) :
    s.withdrawn tag r = { s with
      stations := ((s.setSlot r .free).releaseAll tag).stations
      channels := ((s.setSlot r .free).reportOccupancy r.station (s.station r.station).occupiedCount).channels
      hangers := s.hangers.filter (fun x => x.tag != tag)
      startOrder := s.startOrder.filter (fun x => x != tag)
      moves := (s.removeHangerMove tag).moves } := by
  have moves : ((((s.setSlot r .free).reportOccupancy r.station (s.station r.station).occupiedCount).leaveOrder
      tag).removeHangerMove tag).moves = (s.removeHangerMove tag).moves :=
    State.removeHangerMove_congr (by simp) tag
  unfold State.withdrawn
  rw [State.removeHangerMove_rest, moves, State.reportOccupancy_rest]
  rfl

/-- The slots a withdrawal leaves: the hanger's own is FREE, and so is each RESERVED for it. -/
theorem State.slotAt_withdrawn {s : State} {tag : Nat} {r : SlotRef} (hr : s.slotAt r = .occupied tag) (ref : SlotRef) :
    (s.withdrawn tag r).slotAt ref =
      if ref = r ∨ (s.slotAt ref).reservedFor tag = true then .free else s.slotAt ref := by
  obtain ⟨hst, hsl⟩ := State.slot_bound (s := s) (r := r) (by simp [hr])
  have stations : (s.withdrawn tag r).stations = ((s.setSlot r .free).releaseAll tag).stations := by rw [State.withdrawn_rest]
  rw [State.slotAt_congr stations, State.slotAt_releaseAll, State.slotAt_setSlot hst hsl]
  by_cases e : ref = r
  · simp [e]
  · simp [e]

/-- A station after a withdrawal: the slot it frees, and then the reservations it releases. -/
theorem State.station_withdrawn (s : State) (tag : Nat) {r : SlotRef} (hst : r.station < 24) (st : Nat) :
    (s.withdrawn tag r).station st =
      (if st = r.station then (s.station st).setSlot r.slot .free else s.station st).releaseAll tag := by
  have stations : (s.withdrawn tag r).stations = ((s.setSlot r .free).releaseAll tag).stations := by rw [State.withdrawn_rest]
  rw [State.station_congr stations, State.station_releaseAll]
  unfold State.setSlot
  rw [State.station_modStation hst]
  split
  · rename_i e; rw [e]
  · rfl

theorem State.withdrawn_keepsStationFields (s : State) (tag : Nat) {r : SlotRef} (hst : r.station < 24) :
    KeepsStationFields s (s.withdrawn tag r) := by
  intro st
  rw [State.station_withdrawn s tag hst]
  split <;> rfl

/-- What a channel is told is read of the stations and the channels the event leaves. -/
theorem OccupancyTold.congr {s t t' : State} {st : Nat} (h : OccupancyTold s t st) (hs : t'.stations = t.stations)
    (hc : t'.channels = t.channels) : OccupancyTold s t' st := by
  unfold OccupancyTold State.channel State.station at *
  rw [hs, hc]
  exact h

/-- R155: the channel of the station is told of the slot that is freed; the released ones held no hanger. -/
theorem State.withdrawn_occupancyTold (s : State) (tag : Nat) {r : SlotRef} (hst : r.station < 24) :
    OccupancyTold s (s.withdrawn tag r) r.station := by
  have freed : (s.setSlot r .free).station r.station = (s.station r.station).setSlot r.slot .free := by
    unfold State.setSlot
    rw [State.station_modStation hst, if_pos rfl]
  refine occupancyTold_of_report (u := s.setSlot r .free) rfl rfl rfl (by rw [freed]; rfl) ?_ (by rw [State.withdrawn_rest])
  rw [State.station_withdrawn s tag hst, if_pos rfl, Station.occupiedCount_releaseAll, freed]

/-- What UNLOADED changes: beside the parts a withdrawal changes, the recipes and the supervisor's port. -/
theorem State.withdraw_rest {s : State} {h : Hanger} {r : SlotRef} (hr : s.slotAt r = .occupied h.tag) :
    s.withdraw h r = { s with
      stations := (s.withdrawn h.tag r).stations
      channels := (s.withdrawn h.tag r).channels
      hangers := s.hangers.filter (fun x => x.tag != h.tag)
      startOrder := s.startOrder.filter (fun x => x != h.tag)
      moves := (s.removeHangerMove h.tag).moves
      recipes := if h.bound = true then s.recipes.setIfInBounds h.recipe (s.recipe h.recipe).left else s.recipes
      port0 := if h.bound = true ∧ (s.recipe h.recipe).useCount ≤ 1 ∧ (s.recipe h.recipe).staged ≠ none then
          s.port0.push (swapNotice s.lineTime h.recipe)
        else s.port0 } := by
  rw [State.withdraw_of hr, State.withdrawn_rest]
  cases h.bound with
  | true =>
    rw [if_pos rfl, State.leaveRecipe_eq]
    simp only [true_and, if_true]
    rfl
  | false => simp

/-! ### UNLOADED -/

theorem answers_unloaded {s t : State} {st sl : Nat} {q : Reply} (hp : PortFree s .p0)
    (h : unloaded st sl (s.opened .p0 4) = (t, q)) : Answers (.unloaded st sl) s .p0 t q :=
  Answers.of_rule (c := 0x25) (l := bytes1 st ++ bytes1 sl) rfl hp h

/-- R56: a LOADED, DONE or ABORTED hanger in the slot can be withdrawn. -/
theorem State.withdrawable_some {s : State} {tag : Nat} {h : Hanger} {r : SlotRef} (hr : s.slotAt r = .occupied tag)
    (hh : s.hanger? tag = some h) (hs : h.state = .loaded ∨ h.state = .done ∨ h.state = .aborted) :
    s.withdrawable r = some h := by
  unfold State.withdrawable
  rw [hr]
  dsimp only
  rw [hh]
  exact Option.filter_some_pos (by simpa [or_assoc] using hs)

theorem State.withdrawable_none {s : State} {r : SlotRef}
    (h : ∀ tag h, s.slotAt r = .occupied tag → s.hanger? tag = some h →
      h.state ≠ .loaded ∧ h.state ≠ .done ∧ h.state ≠ .aborted) : s.withdrawable r = none := by
  unfold State.withdrawable
  split
  · rename_i tag hr
    rw [Option.filter_eq_none_iff]
    intro x hx
    simpa [not_or, and_assoc] using h tag x hr hx
  · rfl

/-- R56: the refusals of UNLOADED, in the order of its tests. -/
theorem unloaded_refuses {s : State} {st sl : Nat} :
    ((23 < st ∨ 3 < sl) → unloaded st sl s = (s, Reply.bare .badArg))
    ∧ (st ≤ 23 → sl ≤ 3 → (s.station st).hasSlot sl = false → unloaded st sl s = (s, Reply.bare .noSuch))
    ∧ (st ≤ 23 → sl ≤ 3 → (s.station st).hasSlot sl = true → s.withdrawable ⟨st, sl⟩ = none →
      unloaded st sl s = (s, Reply.bare .inUse)) := by
  unfold unloaded
  refine ⟨fun h => ?_, fun h1 h2 hslot => ?_, fun h1 h2 hslot hnone => ?_⟩
  · have outside : slotInRange st sl = false := by rw [Bool.eq_false_iff, ne_eq, slotInRange_iff]; omega
    simp [outside]
  · simp [(slotInRange_iff st sl).2 ⟨h1, h2⟩, hslot]
  · simp [(slotInRange_iff st sl).2 ⟨h1, h2⟩, hslot, hnone]

theorem unloaded_withdraws {s : State} {st sl : Nat} {h : Hanger} (h1 : st ≤ 23) (h2 : sl ≤ 3)
    (hslot : (s.station st).hasSlot sl = true) (hw : s.withdrawable ⟨st, sl⟩ = some h) :
    unloaded st sl s = (s.withdraw h ⟨st, sl⟩, Reply.bare .ok) := by
  unfold unloaded
  simp [(slotInRange_iff st sl).2 ⟨h1, h2⟩, hslot, hw]

/-- R27, R28: the recipe table after a hanger, bound or not, has left recipe `r`. -/
theorem State.recipe_left {s t : State} {r : Nat} {bound : Bool}
    (h : t.recipes = if bound = true then s.recipes.setIfInBounds r (s.recipe r).left else s.recipes) (k : Nat) :
    t.recipe k = if bound = true ∧ k = r ∧ k ≤ 15 then (s.recipe k).left else s.recipe k := by
  cases bound with
  | false => exact State.recipe_congr h k
  | true =>
    by_cases hr : r < 16
    · refine (State.recipe_congr (s := s.modRecipe r (fun _ => (s.recipe r).left)) h k).trans ?_
      rw [State.recipe_modRecipe hr]
      by_cases e : k = r
      · subst e
        rw [if_pos rfl, if_pos ⟨rfl, rfl, by omega⟩]
      · rw [if_neg e, if_neg (fun h => e h.2.1)]
    · rw [if_neg (by omega)]
      exact State.recipe_congr (h.trans (Vector.setIfInBounds_eq_of_size_le (by omega))) k

theorem State.removeHangerMove_moves (s : State) (tag : Nat) :
    (∀ m, s.hangerMove? tag = some m → (s.removeHangerMove tag).moves = (s.removeMove m.id).moves)
    ∧ (s.hangerMove? tag = none → (s.removeHangerMove tag).moves = s.moves) := by
  unfold State.removeHangerMove
  refine ⟨fun m hm => ?_, fun hnone => ?_⟩
  · rw [hm]
  · rw [hnone]

/-- Settles O22: the tests of UNLOADED in their order, and what the withdrawal leaves of each part of the state. -/
theorem unloadedFreesTheRecord : Obligations.UnloadedFreesTheRecord := by
  intro st sl s hp
  obtain ⟨outside, noSlot, inUse⟩ := unloaded_refuses (s := s.opened .p0 4) (st := st) (sl := sl)
  refine ⟨fun h => answers_unloaded hp (outside h), fun h1 h2 => ⟨fun hslot => answers_unloaded hp (noSlot h1 h2 hslot),
    fun hslot hrest => ?_, fun tag h hslot hr hh hs => ?_⟩⟩
  · exact answers_unloaded hp (inUse h1 h2 hslot (State.withdrawable_none (s := s.opened .p0 4) hrest))
  cases (State.hanger_tag hh : h.tag = tag)
  have withdraws := unloaded_withdraws (s := s.opened .p0 4) h1 h2 hslot (State.withdrawable_some (s := s.opened .p0 4) hr hh hs)
  refine ⟨_, answers_unloaded hp withdraws, ?_⟩
  have rest := State.withdraw_rest (s := s.opened .p0 4) (h := h) (r := ⟨st, sl⟩) hr
  generalize (s.opened .p0 4).withdraw h ⟨st, sl⟩ = t at rest
  have hst : st < 24 := by omega
  have stations : t.stations = ((s.opened .p0 4).withdrawn h.tag ⟨st, sl⟩).stations := by rw [rest]
  have channels : t.channels = ((s.opened .p0 4).withdrawn h.tag ⟨st, sl⟩).channels := by rw [rest]
  have moves : t.moves = (s.removeHangerMove h.tag).moves := by
    rw [rest]
    exact State.removeHangerMove_congr (s := s) (t := s.opened .p0 4) rfl h.tag
  obtain ⟨moved, unmoved⟩ := State.removeHangerMove_moves s h.tag
  refine ⟨by rw [rest]; rfl, by rw [rest]; rfl, fun m hm => moves.trans (moved m hm), fun hm => moves.trans (unmoved hm),
    fun ref => ?_, fun k => ?_, fun k => ?_, ?_, by rw [rest]; rfl, by rw [rest]; rfl, ?_, by rw [rest]; rfl, by rw [rest]; rfl,
    by rw [rest]; rfl, by rw [rest]; rfl, ?_⟩
  · exact (State.slotAt_congr stations ref).trans (State.slotAt_withdrawn (s := s.opened .p0 4) hr ref)
  · exact State.recipe_left (s := s) (by rw [rest]; rfl) k
  · rw [State.station_congr stations]
    exact State.withdrawn_keepsStationFields (s.opened .p0 4) h.tag hst k
  · unfold KeepsSettings
    rw [rest]
    exact ⟨rfl, rfl, rfl, rfl, rfl, rfl, rfl, rfl, rfl⟩
  · rw [rest]
    rfl
  · exact OccupancyTold.congr (s := s)
      (State.withdrawn_occupancyTold (s.opened .p0 4) h.tag (r := ⟨st, sl⟩) hst) stations channels

end Sys2Proof.Machine
end

