-- ==== Sys2Proof/Proofs/NamesTested.lean ====
section
/-! PROOFS. The test of the name a request carries (O16): the requests that name a tag, a bath or a gantry hand it to one test, so
each refusal is proved once, of the test. -/

namespace Sys2Proof.Machine

/-! ### The three tests -/

theorem State.withHanger_outside {s : State} {tag : Nat} (h : tag = 0 ∨ 255 < tag) (body : Hanger → State × Reply) :
    s.withHanger tag body = (s, Reply.bare .badArg) := by
  unfold State.withHanger
  rw [if_pos (by omega)]
  rfl

theorem State.withHanger_absent {s : State} {tag : Nat} (h1 : 1 ≤ tag) (h2 : tag ≤ 255) (hh : s.hanger? tag = none)
    (body : Hanger → State × Reply) : s.withHanger tag body = (s, Reply.bare .noSuch) := by
  unfold State.withHanger
  rw [if_neg (by omega), hh]
  rfl

theorem State.withBath_outside {s : State} {st : Nat} (h : 23 < st) (body : Bath → State × Reply) :
    s.withBath st body = (s, Reply.bare .badArg) := if_pos h

theorem State.withBath_inactive {s : State} {st : Nat} (h : st ≤ 23) (hb : s.bath? st = none) (body : Bath → State × Reply) :
    s.withBath st body = (s, Reply.bare .noSuch) := by
  unfold State.withBath
  rw [if_neg (by omega), hb]
  rfl

theorem State.withGantry_outside {s : State} {g : Nat} (h : 1 < g) (body : GantryId → State × Reply) :
    s.withGantry g body = (s, Reply.bare .badArg) := by
  obtain ⟨n, rfl⟩ : ∃ n, g = n + 2 := ⟨g - 2, by omega⟩
  rfl

/-! ### The requests that make them -/

/-- A request of the supervisor's port, of `n` bytes, whose rule is one of the tests with a body of its own. -/
def TestsFirst {α : Type} (test : State → (α → State × Reply) → State × Reply) (i : Instr) (n : Nat) : Prop :=
  ∃ (c : Nat) (l : List Byte) (body : State → α → State × Reply), encodeRequest i = some (.p0, c, l) ∧ 2 + l.length = n
    ∧ ∀ s, handRequest i s = test s (body s)

/-- A test that refuses the state the session opens refuses the request. -/
theorem TestsFirst.answers {α : Type} {test : State → (α → State × Reply) → State × Reply} {i : Instr} {n : Nat} {r : Reply}
    {s : State} (hi : TestsFirst test i n) (hp : PortFree s .p0) (h : ∀ body, test (s.opened .p0 n) body = (s.opened .p0 n, r)) :
    Answers i s .p0 (s.opened .p0 n) r := by
  obtain ⟨c, l, body, encoded, rfl, rule⟩ := hi
  exact Answers.of_rule encoded hp ((rule _).trans (h _))

theorem testsFirst_hanger {tag : Nat} {i : Instr} (h : i = .abortHanger tag ∨ i = .resumeHanger tag ∨ i = .restartHanger tag
    ∨ i = .readHanger tag ∨ i = .readTiming tag) : TestsFirst (fun s body => s.withHanger tag body) i 3 := by
  rcases h with rfl | rfl | rfl | rfl | rfl <;> exact ⟨_, _, _, rfl, rfl, fun _ => rfl⟩

theorem testsFirst_bath {st n : Nat} {i : Instr}
    (h : (n = 3 ∧ (i = .bathTrip st ∨ i = .bathClear st ∨ i = .replenished st ∨ i = .readBath st))
      ∨ (n = 5 ∧ ∃ z, i = .bathReport st z) ∨ (n = 28 ∧ ∃ b, i = .setBath st b)) :
    TestsFirst (fun s body => s.withBath st body) i n := by
  rcases h with ⟨rfl, rfl | rfl | rfl | rfl⟩ | ⟨rfl, z, rfl⟩ | ⟨rfl, b, rfl⟩
  case inr.inr => exact ⟨_, _, _, rfl, by simp, fun _ => rfl⟩
  all_goals exact ⟨_, _, _, rfl, rfl, fun _ => rfl⟩

theorem testsFirst_gantry {g n : Nat} {i : Instr}
    (h : (n = 3 ∧ (i = .gantryPause g ∨ i = .gantryResume g ∨ i = .gantryReset g ∨ i = .readGantry g))
      ∨ (n = 10 ∧ ∃ lo hi h p m, i = .setGantry g lo hi h p m)) : TestsFirst (fun s body => s.withGantry g body) i n := by
  rcases h with ⟨rfl, rfl | rfl | rfl | rfl⟩ | ⟨rfl, lo, hi, h, p, m, rfl⟩ <;> exact ⟨_, _, _, rfl, rfl, fun _ => rfl⟩

/-- READ-RUN tests its first index before the name. -/
theorem readRun_answers {s : State} {tag first : Nat} {r : Reply} (hp : PortFree s .p0) (hf : first ≤ 12)
    (h : ∀ body, (s.opened .p0 4).withHanger tag body = (s.opened .p0 4, r)) :
    Answers (.readRun tag first) s .p0 (s.opened .p0 4) r :=
  Answers.of_rule (c := 0x27) (l := bytes1 tag ++ bytes1 first) rfl hp ((if_neg (by omega)).trans (h _))

/-- Settles O16: each request is its test with a body of its own, and a test that fails leaves the state it is given. -/
theorem namesAreTestedFirst : Obligations.NamesAreTestedFirst := by
  refine ⟨fun tag i s hp hi => ⟨fun h => ?_, fun h1 h2 hh => ?_⟩, fun tag first s hp hf => ⟨fun h => ?_, fun h1 h2 hh => ?_⟩,
    fun st i n s hp hi => ⟨fun h => ?_, fun h hb => ?_⟩, fun g i n s hp hg hi => ?_⟩
  · exact (testsFirst_hanger hi).answers hp (State.withHanger_outside h)
  · exact (testsFirst_hanger hi).answers hp (State.withHanger_absent h1 h2 ((State.opened_hanger s .p0 3 tag).trans hh))
  · exact readRun_answers hp hf (State.withHanger_outside h)
  · exact readRun_answers hp hf (State.withHanger_absent h1 h2 ((State.opened_hanger s .p0 4 tag).trans hh))
  · exact (testsFirst_bath hi).answers hp (State.withBath_outside h)
  · exact (testsFirst_bath hi).answers hp (State.withBath_inactive h ((State.opened_bath s .p0 n st).trans hb))
  · exact (testsFirst_gantry hi).answers hp (State.withGantry_outside hg)

end Sys2Proof.Machine
end

