-- ==== Sys2Proof/Proofs/Windows.lean ====
section
/-! PROOFS. The immersion record (O53): what a step begins with, the exactness of a prediction, the times of the move, and the
condition at a lift. -/

namespace Sys2Proof.Machine

/-! ### The beginning (R62, R65 to R67, R78) -/

/-- R66, R67, R78: the record of a step in a STRICT station, its compare point armed at the predicted closing edge. -/
theorem Immersion.start_strict (now : LineTime) (st scale rate grace : Nat) (k : RecipeStep) {e : Nat}
    (he : e = (k.timeA * scale + 500) / 1000) :
    Immersion.start now st k .strict scale rate grace =
      { Immersion.blank with
          cls := some .strict, station := st, counting := true, entryTime := now, effective := e
          opening := max 1 (e - k.timeB), closing := e + k.timeC, predOpening := predict now (max 1 (e - k.timeB)) 0 rate
          predTarget := predict now e 0 rate, predClosing := predict now (e + k.timeC) 0 rate
          compare := some (predict now (e + k.timeC) 0 rate + BitVec.ofNat 32 grace) } := by
  subst he
  rfl

/-- R65, log 9: the record of a step in any other station has no window and no compare point. -/
theorem Immersion.start_plain (now : LineTime) (st scale rate grace : Nat) (k : RecipeStep) {c : StationClass} (hc : c ≠ .strict) :
    Immersion.start now st k c scale rate grace =
      { Immersion.blank with
          cls := some c, station := st, counting := true, entryTime := now, minimum := k.timeA, maximum := k.timeB } := by
  cases c with
  | strict => exact absurd rfl hc
  | _ => rfl

/-! ### The prediction of an edge (R72) -/

/-- A quotient rounded up is the least multiplier that reaches the dividend. -/
theorem ceilDiv_bounds {x y : Nat} (hx : 0 < x) (hy : 0 < y) :
    1 ≤ ceilDiv x y ∧ x ≤ ceilDiv x y * y ∧ (ceilDiv x y - 1) * y < x := by
  have reaches : x + y - 1 < (ceilDiv x y + 1) * y := by
    rw [Nat.mul_comm]
    exact Nat.lt_mul_div_succ _ hy
  have least : ceilDiv x y * y ≤ x + y - 1 := Nat.div_mul_le_self _ _
  have one : 1 ≤ ceilDiv x y := (Nat.one_le_div_iff hy).2 (by omega)
  rw [Nat.add_mul, Nat.one_mul] at reaches
  refine ⟨one, by omega, ?_⟩
  rw [Nat.sub_mul, Nat.one_mul]
  omega

/-- R72: at a constant rate the count passes the edge in the predicted tenth and not in the one before. -/
theorem predict_exact {now : LineTime} {x p rate : Nat} (hr : 1 ≤ rate) (hp : p < x * 1024) :
    ∃ n, 1 ≤ n ∧ predict now x p rate = now + BitVec.ofNat 32 n ∧ x * 1024 ≤ p + n * rate ∧ p + (n - 1) * rate < x * 1024 := by
  obtain ⟨one, reaches, least⟩ := ceilDiv_bounds (x := x * 1024 - p) (y := rate) (by omega) hr
  exact ⟨_, one, rfl, by omega, by omega⟩

/-! ### The move's times and the condition at a lift (R40, R65, R74, R77) -/

theorem Move.timed_strict {i : Immersion} (m : Move) (now : LineTime) (allowance : Nat) (h : i.cls = some .strict) :
    m.timed i now allowance =
      { m with due := some i.predTarget, deadline := some i.predClosing, ready := readyBy now i.predTarget allowance } := by
  unfold Move.timed
  rw [h]

theorem Move.timed_bounded {i : Immersion} (m : Move) (now : LineTime) (allowance : Nat) (h : i.cls = some .bounded) :
    m.timed i now allowance =
      { m with due := some (plus i.entryTime i.minimum)
               deadline := if i.maximum = 0 then none else some (plus i.entryTime i.maximum)
               ready := readyBy now (plus i.entryTime i.minimum) allowance } := by
  unfold Move.timed
  rw [h]

theorem Move.timed_opened {i : Immersion} (m : Move) (now : LineTime) (allowance : Nat) (h : i.cls = some .opened) :
    m.timed i now allowance =
      { m with due := some (plus i.entryTime i.minimum), deadline := none
               ready := readyBy now (plus i.entryTime i.minimum) allowance } := by
  unfold Move.timed
  rw [h]

theorem Immersion.liftCondition_strict {i : Immersion} (h : i.cls = some .strict) :
    i.liftCondition =
      if i.progress < i.opening * 1024 then .early else if i.closing * 1024 < i.progress then .late else .onTime := by
  unfold Immersion.liftCondition
  rw [h]

theorem Immersion.liftCondition_bounded {i : Immersion} (h : i.cls = some .bounded) :
    i.liftCondition =
      if i.elapsed < i.minimum then .under else if i.maximum ≠ 0 ∧ i.maximum < i.elapsed then .over else .onTime := by
  unfold Immersion.liftCondition
  rw [h]

theorem Immersion.liftCondition_opened {i : Immersion} (h : i.cls = some .opened) :
    i.liftCondition = if i.elapsed < i.minimum then .under else .onTime := by
  unfold Immersion.liftCondition
  rw [h]

/-- Settles O53: the immersion by its class; a prediction is a quotient rounded up, so it is the first tenth that reaches the edge. -/
theorem immersionWindowsTimesAndConditions : Obligations.ImmersionWindowsTimesAndConditions := by
  refine ⟨fun now st scale rate grace k => ?_, fun now x p rate hr hp => predict_exact hr hp, fun m i now allowance => ?_,
    fun i => ⟨fun h => ?_, fun h => ?_, fun h => ?_⟩⟩
  · exact ⟨_, _, _, rfl, rfl, rfl, Immersion.start_strict now st scale rate grace k rfl,
      fun c hc => Immersion.start_plain now st scale rate grace k hc⟩
  · exact ⟨fun d => readyBy now d allowance, fun d => rfl, m.timed_strict now allowance, m.timed_bounded now allowance,
      m.timed_opened now allowance⟩
  · rw [Immersion.liftCondition_strict h]
    exact ⟨fun early => if_pos early, fun h1 h2 => by rw [if_neg (by omega), if_neg (by omega)],
      fun h1 h2 => by rw [if_neg (by omega), if_pos h2]⟩
  · rw [Immersion.liftCondition_bounded h]
    exact ⟨fun under => if_pos under, fun h1 h2 h3 => by rw [if_neg (by omega), if_pos ⟨h2, h3⟩],
      fun h1 h2 => by rw [if_neg (by omega), if_neg (by omega)]⟩
  · rw [Immersion.liftCondition_opened h]
    exact ⟨fun under => if_pos under, fun h1 => if_neg (by omega)⟩

end Sys2Proof.Machine
end

