-- ==== Sys2Proof/Proofs/WorkNotices.lean ====
section
/-! PROOFS. What the posting of notices writes: each post as a change of one port, the WORK notices of a move as a change of the
ports of the gantries that are sent one, and what decides who is sent one (R104, R110). -/

namespace Sys2Proof.Machine

/-! ### Ports -/

theorem State.modPort_congr {s : State} {p : PortId} {f f' : Port → Port} (h : f (s.port p) = f' (s.port p)) :
    s.modPort p f = s.modPort p f' := by
  cases p
  · exact congrArg (fun q => { s with port0 := q }) h
  · exact congrArg (fun q => { s with port1 := q }) h
  · exact congrArg (fun q => { s with port2 := q }) h

theorem State.modPort_same {s : State} {p : PortId} {f : Port → Port} (h : f (s.port p) = s.port p) : s.modPort p f = s :=
  (State.modPort_congr (f' := id) h).trans (by cases p <;> rfl)

/-- A notice of a gantry's port changes that port and nothing else. -/
theorem State.post_gantry (s : State) (g : GantryId) (n : Notice) : s.post g.port n = s.modPort g.port (fun q => q.push n) := by
  cases g <;> rfl

/-! ### WORK (R110) -/

theorem worked_eq (q : Port) (n : Notice) : worked q n = if q.queue.any (fun x => x.kind == .work) then q else q.push n := by
  unfold worked
  by_cases h : q.queue.any (fun x => x.kind == .work) = true
  · rw [if_pos h, if_neg]
    intro none
    obtain ⟨x, hx, hk⟩ := List.any_eq_true.1 h
    exact none x hx (eq_of_beq hk)
  · rw [if_neg h, if_pos]
    intro x hx hk
    exact h (List.any_eq_true.2 ⟨x, hx, beq_iff_eq.2 hk⟩)

theorem Move.workNotice_eq (m : Move) (now : LineTime) :
    workNotice now m = { kind := .work, time := now, tag := m.tag, station := m.sourceStation, move := some m.id, codeA := 0,
                         codeB := 0, codeC := 0, codeD := 0 } := by
  unfold workNotice Move.sourceStation
  cases m.source <;> rfl

/-- R110: a WORK notice changes the port of its gantry alone. -/
theorem State.postWork_eq (s : State) (g : GantryId) (m : Move) :
    s.postWork g m = s.modPort g.port (fun q => worked q (workNotice s.lineTime m)) := by
  unfold State.postWork
  rw [State.post_gantry, ← Move.workNotice_eq]
  split
  · rename_i stands
    exact (State.modPort_same (f := fun q => worked q (workNotice s.lineTime m)) ((worked_eq _ _).trans (if_pos stands))).symm
  · rename_i none
    exact (State.modPort_congr (f := fun q => worked q (workNotice s.lineTime m)) ((worked_eq _ _).trans (if_neg none))).symm

/-- R104: what decides which gantry can serve a move: the map, the recipes, the hangers and the reaches. -/
theorem State.canServe_congr {s t : State} (hs : t.stations = s.stations) (hr : t.recipes = s.recipes)
    (hh : t.hangers = s.hangers) {g : GantryId} (hg : t.gantry g = s.gantry g) (m : Move) : t.canServe g m = s.canServe g m := by
  have target : t.moveTarget? m = s.moveTarget? m := by
    unfold State.moveTarget? State.hanger? State.target? State.recipe
    rw [hr, hh]
  have reach : ∀ x, t.targetInReach (s.gantry g) x = s.targetInReach (s.gantry g) x := by
    intro x
    unfold State.targetInReach State.serves State.station
    rw [hs]
  unfold State.canServe
  simp only [hg, target, reach]

/-- R104: the gantry field of a move, and its state, times and identifier, decide nothing but for a YIELD move. -/
theorem State.canServe_move {s : State} {g : GantryId} {m m' : Move} (hs : m'.source = m.source) (hd : m'.dest = m.dest)
    (ht : m'.tag = m.tag) (hg : m'.gantry = m.gantry ∨ ∃ r, m.source = .slot r) : s.canServe g m' = s.canServe g m := by
  have target : s.moveTarget? m' = s.moveTarget? m := by unfold State.moveTarget?; rw [ht]
  unfold State.canServe
  rw [hs, hd, target]
  rcases hg with hg | ⟨r, hr⟩
  · rw [hg]
  · rw [hr]
    cases m.dest with
    | none => rfl
    | some p => cases p <;> rfl

/-- R110: the port of gantry `g` after the WORK notices of a move that becomes READY. -/
def State.offeredPort (s : State) (g : GantryId) (m : Move) : Port :=
  if (s.gantry g).link = .ready ∧ s.canServe g m = true then worked (s.port g.port) (workNotice s.lineTime m) else s.port g.port

theorem State.announce_eq (s : State) (m : Move) :
    s.announce m = { s with port1 := s.offeredPort .a m, port2 := s.offeredPort .b m } := by
  have offer : ∀ (t : State) g, t.offerWork g m = t.modPort g.port (fun _ => t.offeredPort g m) := by
    intro t g
    unfold State.offerWork State.offeredPort
    split
    · rw [State.postWork_eq]
      cases g <;> rfl
    · cases g <;> rfl
  have second : (s.modPort .p1 (fun _ => s.offeredPort .a m)).offeredPort .b m = s.offeredPort .b m := by
    unfold State.offeredPort
    rw [State.canServe_congr (s := s) (t := s.modPort .p1 _) rfl rfl rfl rfl]
    rfl
  unfold State.announce
  rw [offer s .a, offer _ .b]
  exact congrArg (fun q => { s with port1 := s.offeredPort .a m, port2 := q }) second

/-- R110: a move made known in a state with the notices of an event yet to come and the same ports and line time. -/
theorem workPosted_announce {s u : State} (ports : ∀ g : GantryId, u.port g.port = s.port g.port) (time : u.lineTime = s.lineTime)
    (m : Move) : WorkPosted s (u.announce m) m := by
  intro g
  have served : (u.announce m).canServe g m = u.canServe g m := by
    rw [State.announce_eq]
    exact State.canServe_congr rfl rfl rfl (by cases g <;> rfl) m
  have link : (u.announce m).gantry g = u.gantry g := by rw [State.announce_eq]; cases g <;> rfl
  have port : (u.announce m).port g.port = u.offeredPort g m := by rw [State.announce_eq]; cases g <;> rfl
  rw [port, served, link]
  unfold State.offeredPort
  rw [ports g, time]

end Sys2Proof.Machine
end

