-- ==== Sys2Proof/Proofs/HeldIdentifiers.lean ====
section
/-! PROOFS. A state in which moves hold all 256 identifiers (O17, O19, O20 and O40 fail in one). A created move then shares its
identifier with an older one (R103 names no identifier to take), and the notices of R110 look the identifier up and find the older
move. R35 and R101 keep a run from such a state (O58: at most 34 moves stand), but the statements speak of every state. -/

namespace Sys2Proof.Machine

/-! ### Moves that hold the identifiers -/

/-- A move that leads from a point and is no gantry's: no gantry can serve it. -/
def Move.stray (id : Nat) : Move := { Move.fresh .yielding (.point 0) none with id := id }

/-- One for each identifier. -/
def Move.strays : List Move := (List.range 256).map Move.stray

theorem Move.mem_strays {i : Nat} (h : i < 256) : i ∈ Move.strays.map Move.id := by
  unfold Move.strays
  rw [List.map_map]
  exact List.mem_map.2 ⟨i, List.mem_range.2 h, rfl⟩

theorem State.canServe_stray (s : State) (g : GantryId) (id : Nat) : s.canServe g (Move.stray id) = false := by cases g <;> rfl

/-- Every identifier is held, and the one the counter names by a stray move first. -/
def State.Crowded (s : State) : Prop :=
  (∀ i < 256, i ∈ s.moves.map Move.id) ∧ ∃ id, s.move? (s.moveCounter % 256) = some (Move.stray id)

theorem State.Crowded.congr {s t : State} (h : s.Crowded) (hm : t.moves = s.moves) (hc : t.moveCounter = s.moveCounter) :
    t.Crowded := by
  unfold State.Crowded State.move? at *
  rwa [hm, hc]

/-! ### What is created there -/

theorem freshIdFrom_held {used : List Nat} (h : ∀ i < 256, i ∈ used) (start fuel : Nat) :
    freshIdFrom used start fuel = (start + fuel) % 256 := by
  induction fuel generalizing start with
  | zero => rfl
  | succ n ih =>
    unfold freshIdFrom
    rw [if_pos (by simpa using h _ (Nat.mod_lt _ (by decide))), ih]
    congr 1
    omega

/-- R103: after 256 tries the search is back at the counter. -/
theorem State.Crowded.freshId {s : State} (h : s.Crowded) : s.freshId = s.moveCounter % 256 := by
  unfold State.freshId
  rw [freshIdFrom_held h.1]
  omega

/-- R110: the notices of a created move are those of the stray move that holds its identifier, and go to nobody. -/
theorem State.Crowded.createMove {s : State} (h : s.Crowded) (m : Move) : s.createMove m = s.addMove m := by
  obtain ⟨id, held⟩ := h.2
  have found : (s.addMove m).move? s.freshId = some (Move.stray id) := by
    unfold State.addMove State.move?
    rw [List.find?_append, h.freshId]
    unfold State.move? at held
    rw [held]
    rfl
  unfold State.createMove
  dsimp only
  split
  · unfold State.announceId
    rw [found]
    dsimp only
    rw [State.announce_eq]
    unfold State.offeredPort
    rw [if_neg (by simp [State.canServe_stray]), if_neg (by simp [State.canServe_stray])]
    rfl
  · rfl

/-! ### The refutation -/

/-- What a command answers determines the state it leaves, but for the reply. -/
theorem Answers.unique {i : Instr} {s t t' : State} {p : PortId} {r r' : Reply} (h : Answers i s p t r) (h' : Answers i s p t' r') :
    t.forming p r = t'.forming p r' := by
  have same : Host.Outcome.next (t.forming p r) = Host.Outcome.next (t'.forming p r') := h.symm.trans h'
  injection same

theorem queue_worked_of_empty {q : Port} {n : Notice} (hq : q.queue = []) (hm : q.masks n.kind = false) :
    (worked q n).queue = [n] := by
  have none : ∀ x ∈ q.queue, x.kind ≠ .work := by rw [hq]; nofun
  unfold worked Port.push
  rw [if_pos none, hm, hq]
  rfl

theorem worked_of_empty {q : Port} {n : Notice} (hq : q.queue = []) (hm : q.masks n.kind = false) : worked q n ≠ q := by
  intro same
  have queue := queue_worked_of_empty hq hm
  rw [same, hq] at queue
  cases queue

/-- In a crowded state `u` no WORK is posted for a created move, though a READY gantry can serve it. -/
theorem State.Crowded.not_workPosted {u v t : State} {x y : Move} {g : GantryId} {p : PortId} {r r' : Reply} (hu : u.Crowded)
    (same : t.forming p r = (u.createMove y).forming p r') (hp : g.port ≠ p) (ready : (u.gantry g).link = .ready)
    (serves : u.canServe g x = true) (port : u.port g.port = v.port g.port) (empty : (v.port g.port).queue = [])
    (heard : (v.port g.port).masks .work = false) : ¬ WorkPosted v t x := by
  intro posted
  rw [hu.createMove] at same
  have formed : ∀ w : State, ∀ q, (w.forming p q).port g.port = w.port g.port ∧ (w.forming p q).gantry g = w.gantry g
      ∧ (w.forming p q).canServe g x = w.canServe g x := by
    intro w q
    refine ⟨?_, State.forming_gantry w p q g, State.canServe_congr ?_ ?_ ?_ (State.forming_gantry w p q g) x⟩
    · unfold State.forming
      rw [State.port_modPort, if_neg hp]
    all_goals cases p <;> rfl
  obtain ⟨port₁, gantry₁, served₁⟩ := formed t r
  obtain ⟨port₂, gantry₂, served₂⟩ := formed (u.addMove y) r'
  have unchanged : t.port g.port = v.port g.port := by
    rw [← port₁, same, port₂, ← port]
    cases g <;> rfl
  have link : (t.gantry g).link = .ready := by
    rw [← gantry₁, same, gantry₂, ← ready]
    cases g <;> rfl
  have serve : t.canServe g x = true := by
    rw [← served₁, same, served₂, ← serves]
    exact State.canServe_congr rfl rfl rfl (by cases g <;> rfl) x
  have notice := posted g
  rw [if_pos ⟨link, serve⟩, unchanged] at notice
  exact worked_of_empty empty heard notice.symm

/-! ### The line of the counterexamples -/

/-- A LOAD, an OPEN, an UNLOAD and a STRICT station, a recipe of one step, gantry A READY, and every identifier held. -/
def State.crowdedLine : State :=
  { State.reset with
      stations := ((((Vector.replicate 24 Station.absent).set 0 { Station.absent with configured := true }).set 1
        { Station.absent with configured := true, cls := .opened, group := 1 }).set 2
        { Station.absent with configured := true, cls := .unload, group := 2 }).set 3
        { Station.absent with configured := true, cls := .strict, group := 3 }
      recipes := (Vector.replicate 16 Recipe.blank).set 0
        { Recipe.blank with active := [{ group := 1, cls := .opened, timeA := 0, timeB := 0, timeC := 0, drip := 0, unagitated := 0 }] }
      moves := Move.strays
      gantryA := { Gantry.atPowerOn 0 with link := .ready } }

theorem State.crowdedLine_crowded : State.crowdedLine.Crowded := ⟨fun _ h => Move.mem_strays h, 0, rfl⟩

/-- The hanger ADMIT creates on that line. -/
def Hanger.crowdedLine : Hanger := Hanger.admitted 1 0 0 1000 0 { station := 0, slot := 0 }

/-- The line with that hanger admitted, but for its ENTRY move. -/
def State.admittedLine : State :=
  { (State.crowdedLine.opened .p0 10).setSlot { station := 0, slot := 0 } (.occupied 1) with
      hangers := [Hanger.crowdedLine], startOrder := [1], admissions := 1 }

theorem State.reportOccupancy_unassigned {s : State} {st : Nat} (h : (s.station st).gasChannel = none) (was : Nat) :
    s.reportOccupancy st was = s := by
  unfold State.reportOccupancy
  rw [h]

theorem State.crowdedLine_admits : admitRule 1 0 1000 0 0 0 (State.crowdedLine.opened .p0 10) =
    (State.admittedLine.createEntry Hanger.crowdedLine { station := 0, slot := 0 }, Reply.bare .ok) := by
  have scale : clampNat 500 2000 1000 = 1000 := rfl
  unfold admitRule State.admitAt
  dsimp only
  rw [if_neg (by decide), if_neg (by decide), if_neg (by decide), if_neg (by decide), if_neg (by decide), scale, if_pos rfl,
    State.occupy_of (by decide) (Or.inl (by decide)), State.reportOccupancy_unassigned (by decide)]
  dsimp only [State.answer_eq, State.together_some]
  refine congrArg (fun s => (State.createEntry s Hanger.crowdedLine { station := 0, slot := 0 }, Reply.bare Status.ok)) ?_
  rfl

/-- Refutes O17: with every identifier held, no WORK is posted for the ENTRY move of an admitted hanger. -/
theorem not_admitCreatesAHangerAndItsMove : ¬ Obligations.AdmitCreatesAHangerAndItsMove := by
  intro h
  obtain ⟨-, valid⟩ := h.1 1 0 1000 0 0 0 State.crowdedLine rfl
  obtain ⟨-, placed⟩ := valid (by decide) (by decide) (by decide) (by decide) (by decide)
  obtain ⟨-, -, passes⟩ := placed rfl rfl (by decide)
  obtain ⟨t, x, answers, -, -, -, rfl, -, posted, -⟩ := passes rfl rfl (by decide)
  have admits : Answers (.admitHanger 1 0 1000 0 0 0) State.crowdedLine .p0
      (State.admittedLine.createEntry Hanger.crowdedLine { station := 0, slot := 0 }) (Reply.bare .ok) :=
    Answers.of_rule (c := 0x20) rfl rfl State.crowdedLine_admits
  have crowded : State.admittedLine.Crowded := State.crowdedLine_crowded.congr rfl rfl
  exact crowded.not_workPosted (v := State.crowdedLine) (g := .a) (answers.unique admits) nofun rfl (by decide) rfl rfl rfl posted

/-! ### RESTART-HANGER and RESUME-HANGER -/

/-- A hanger that rests in the OPEN station, IN-STEP. -/
def Hanger.resting : Hanger :=
  { Hanger.admitted 1 0 0 1000 0 { station := 1, slot := 0 } with
      bound := true, state := .aborted, restCause := some .inStep, imm := { Immersion.blank with cls := some .opened } }

def State.restingLine : State := { State.crowdedLine with hangers := [Hanger.resting] }

/-- Refutes O20: with every identifier held, no WORK is posted for the ENTRY move of a hanger that starts again. -/
theorem not_restartResetsTheHanger : ¬ Obligations.RestartResetsTheHanger := by
  intro h
  obtain ⟨-, resets⟩ := h 1 Hanger.resting State.restingLine rfl (by decide) (by decide) rfl
  obtain ⟨t, x, answers, -, -, rfl, -, posted, -⟩ := resets { station := 1, slot := 0 } rfl rfl (by decide) rfl nofun
  have restarts : Answers (.restartHanger 1) State.restingLine .p0
      ((((State.restingLine.opened .p0 3).modHanger 1 Hanger.restarted).rejoin Hanger.resting).createEntry Hanger.resting
        { station := 1, slot := 0 }) (Reply.bare .ok) :=
    Answers.of_rule (c := 0x23) (l := bytes1 1) rfl rfl rfl
  have crowded : (((State.restingLine.opened .p0 3).modHanger 1 Hanger.restarted).rejoin Hanger.resting).Crowded :=
    State.crowdedLine_crowded.congr rfl rfl
  exact crowded.not_workPosted (v := State.restingLine) (g := .a) (answers.unique restarts) nofun rfl (by decide) rfl rfl rfl
    posted

/-- The line with the step of that hanger resumed, but for its EXIT move. -/
def State.resumedLine : State :=
  (((State.restingLine.opened .p0 3).modHanger 1 (fun h => h.resumed 0)).markIfStale 1 1).notify .step (some 1) (some 1) none 0 0

theorem State.restingLine_resumes : Machine.resumeHanger 1 (State.restingLine.opened .p0 3) =
    (State.resumedLine.createMove (State.resumedLine.nextMove (Hanger.resting.resumed 0) { station := 1, slot := 0 }),
      Reply.bare .ok) := by
  have resumed : State.resumedLine.hanger? 1 = some (Hanger.resting.resumed 0) := by decide
  have created : State.resumedLine.createNext 1 { station := 1, slot := 0 } =
      State.resumedLine.createMove (State.resumedLine.nextMove (Hanger.resting.resumed 0) { station := 1, slot := 0 }) := by
    unfold State.createNext
    rw [resumed]
  unfold Machine.resumeHanger
  rw [withHanger_live (h := Hanger.resting) (by decide) (by decide) rfl, ← created]
  exact if_neg (by decide)

/-- Refutes O19: with every identifier held, no WORK is posted for the READY move of a hanger that resumes. -/
theorem not_resumeIsTakenByTheRestCause : ¬ Obligations.ResumeIsTakenByTheRestCause := by
  intro h
  obtain ⟨-, causes⟩ := h 1 Hanger.resting State.restingLine rfl (by decide) (by decide) rfl
  obtain ⟨inStep, -⟩ := causes { station := 1, slot := 0 } rfl rfl rfl
  obtain ⟨t, h', x, answers, -, -, -, -, -, imm, -, -, -, tag, -, source, dest, -, -, timed, ⟨known, -⟩, -⟩ := inStep rfl
  have time : x.ready = 0 := by
    rw [timed, imm]
    exact (by decide : readyBy 0 (plus (0 - BitVec.ofNat 32 0) 0) 0 = 0)
  have ready : x.state = .ready := by
    rw [timed, time]
    rfl
  have resumes : Answers (.resumeHanger 1) State.restingLine .p0 _ (Reply.bare .ok) :=
    Answers.of_rule (c := 0x22) (l := bytes1 1) rfl rfl State.restingLine_resumes
  have crowded : State.resumedLine.Crowded := by
    refine State.crowdedLine_crowded.congr ?_ ?_ <;> simp [State.resumedLine] <;> rfl
  have serves : State.resumedLine.canServe .a x = true := by
    rw [State.canServe_move (m := { Move.stray 0 with source := .slot { station := 1, slot := 0 }, tag := some 1 }) source dest tag
      (Or.inr ⟨_, rfl⟩)]
    decide
  exact crowded.not_workPosted (v := State.restingLine) (g := .a) (answers.unique resumes) nofun (by decide) serves
    (by decide) rfl rfl (known ready)

/-! ### LOWERED with the pending abort set -/

/-- A hanger on gantry B, its abort pending, bound for the STRICT station with a slot of the OPEN one kept for it. -/
def Hanger.carried : Hanger :=
  { Hanger.admitted 1 0 0 1000 0 { station := 0, slot := 0 } with
      state := .inTransit, phase := some .carried, location := .gantry .b, forward := some { station := 1, slot := 0 }
      pendingAbort := true }

def Move.carried : Move :=
  { Move.stray 1 with kind := .step, tag := some 1, dest := some (.slot { station := 3, slot := 0 }), state := .carried }

def State.carryingLine : State :=
  { State.crowdedLine.setSlot { station := 3, slot := 0 } (.reserved 1 .destination) with
      hangers := [Hanger.carried], moves := Move.carried :: Move.strays
      gantryB := { Gantry.atPowerOn 4095 with link := .busy, granted := some 1 } }

/-- The line with that hanger lowered, before R51. -/
def State.placedLine : State :=
  ((State.carryingLine.opened .p2 3).setSlot { station := 3, slot := 0 } (.occupied 1)).place 1 { station := 3, slot := 0 } 0 1

/-- R51, third row: the line with the entry of the step closed and its count stopped, but for the ABORT move. -/
def State.loweredLine : State :=
  ((State.placedLine.openStep 1 0 { station := 3, slot := 0 }).closeEntry 1 .aborted).modHanger 1 Hanger.stopCount

theorem State.Crowded.modMove {s : State} (h : s.Crowded) {id : Nat} {f : Move → Move} (hf : ∀ m, (f m).id = m.id)
    (hid : id ≠ s.moveCounter % 256) : (s.modMove id f).Crowded := by
  obtain ⟨ids, stray, first⟩ := h
  have same : (s.modMove id f).moves.map Move.id = s.moves.map Move.id := by
    unfold State.modMove
    rw [List.map_map]
    refine List.map_congr_left (fun m _ => ?_)
    simp only [Function.comp_apply]
    split
    · exact hf m
    · rfl
  exact ⟨by rwa [same], stray, (State.move_modMove hf _).trans ((if_neg (Ne.symm hid)).trans first)⟩

theorem State.loweredLine_crowded : State.loweredLine.Crowded := by
  have held : State.carryingLine.Crowded := ⟨fun _ h => List.mem_cons_of_mem _ (Move.mem_strays h), 0, rfl⟩
  have placed := held.modMove (id := 1) (f := fun m => { m with state := .placed }) (fun _ => rfl) (by decide)
  refine placed.congr ?_ ?_ <;> simp [State.loweredLine, State.placedLine, State.place]

/-- R51, third row, where the bar is not raised. -/
theorem State.lowerAborted_strict {s : State} {h h' : Hanger} {r : SlotRef} {k q : Nat} {kind : MoveKind}
    (hc : (s.station r.station).cls = .strict) (ht : s.target? h = some (.step k q)) (hb : s.barRaised r.station = false)
    (hh : (((s.openStep h.tag k r).closeEntry h.tag .aborted).modHanger h.tag Hanger.stopCount).hanger? h.tag = some h') :
    s.lowerAborted h kind r = (((s.openStep h.tag k r).closeEntry h.tag .aborted).modHanger h.tag Hanger.stopCount).createMove
      ((((s.openStep h.tag k r).closeEntry h.tag .aborted).modHanger h.tag Hanger.stopCount).freshAbort h' r) := by
  unfold State.lowerAborted
  rw [hc, ht]
  unfold State.abortIntoStrict
  simp only [hh, hb]
  rfl

theorem State.carryingLine_lowers : ∃ y, lowered .b 1 (State.carryingLine.opened .p2 3) =
    (State.loweredLine.createMove y, Reply.bare .ok) := by
  have taken : lowered .b 1 (State.carryingLine.opened .p2 3) =
      ((State.carryingLine.opened .p2 3).lower Move.carried, Reply.bare .ok) := by
    unfold lowered State.report
    rw [if_neg (by decide), if_neg (by decide), if_neg (by decide),
      show (State.carryingLine.opened .p2 3).move? 1 = some Move.carried from rfl]
    exact if_pos rfl
  have placed : (State.carryingLine.opened .p2 3).lower Move.carried =
      State.placedLine.lowerAborted Hanger.carried .step { station := 3, slot := 0 } := by
    unfold State.lower
    rw [show Move.carried.tag.bind (State.carryingLine.opened .p2 3).hanger? = some Hanger.carried from rfl]
    dsimp only [Move.carried]
    rw [if_pos (by decide), State.occupy_of (by decide) (Or.inr (by decide)), State.reportOccupancy_unassigned (by decide)]
    dsimp only [State.together_some]
    rw [if_pos (by decide)]
    rfl
  obtain ⟨h', found⟩ := Option.isSome_iff_exists.1 (by decide : (State.loweredLine.hanger? 1).isSome = true)
  have aborted := State.lowerAborted_strict (s := State.placedLine) (h := Hanger.carried) (h' := h')
    (r := { station := 3, slot := 0 }) (k := 0) (q := 1) (kind := .step) (by decide) (by decide) (by decide) found
  exact ⟨_, taken.trans (congrArg (fun t => (t, Reply.bare .ok)) (placed.trans aborted))⟩

/-- Refutes O40: with every identifier held, no WORK is posted for the ABORT move of a hanger lowered into a STRICT station. -/
theorem not_loweredAppliesThePendingAbort : ¬ Obligations.LoweredAppliesThePendingAbort := by
  intro h
  obtain ⟨u, rfl, -, -, -, strict, -⟩ := h .b Move.carried Hanger.carried { station := 3, slot := 0 } State.carryingLine rfl
    ⟨nofun, nofun, rfl, rfl⟩ (by decide) rfl rfl rfl rfl rfl (by decide) (by decide) (by decide) (by decide)
  obtain ⟨t, h', e, x, answers, -, -, -, -, -, -, -, -, -, -, -, -, -, -, -, -, -, tag, -, source, dest, -, -, -, -, -, posted, -⟩ :=
    strict 0 1 _ (by decide) rfl (by decide) (by decide)
  obtain ⟨y, rule⟩ := State.carryingLine_lowers
  have lowers : Answers (.lowered .b 1) State.carryingLine .p2 _ (Reply.bare .ok) :=
    Answers.of_rule (c := 0x64) (l := bytes1 1) rfl rfl rule
  have serves : State.loweredLine.canServe .a x = true := by
    rw [State.canServe_move (m := { Move.stray 0 with
      source := .slot { station := 3, slot := 0 }, dest := some (.slot { station := 1, slot := 0 }), tag := some 1 }) source dest
      tag (Or.inr ⟨_, rfl⟩)]
    decide
  refine State.loweredLine_crowded.not_workPosted (g := .a) (answers.unique lowers) nofun (by decide) serves (by decide) (by decide)
    (by decide) posted

end Sys2Proof.Machine
end

