-- ==== Sys2Proof/Proofs/PointSources.lean ====
section
/-! PROOFS. A granted hanger move that leads from a point (O41 and O43 fail on one). R104 serves a move from a point by its owner, so
such a move can be served by the gantry that holds it; given back to READY it is no gantry's (R145), and WORK for it goes to none.
R101 gives only YIELD moves a point, but the statements speak of every state. -/

namespace Sys2Proof.Machine

/-- An ENTRY move that leads from a point, granted, with gantry `g` in its record. -/
def Move.pointed (g : GantryId) : Move :=
  { Move.stray 1 with kind := .entry, tag := some 1, state := .granted, gantry := some g }

theorem State.canServe_pointed (s : State) (g : GantryId) : s.canServe g (Move.pointed g) = true := by cases g <;> rfl

/-- Gantry A BUSY with that move, gantry B READY, and one hanger. -/
def State.pointedLine (g : GantryId) (h : Hanger) : State :=
  { State.reset with
      hangers := [h], moves := [Move.pointed g], gantryA := { Gantry.atPowerOn 0 with link := .busy, granted := some 1 }
      gantryB := { Gantry.atPowerOn 4095 with link := .ready } }

/-- The reply being formed is no part of a notice queue. -/
theorem State.queue_forming (w : State) (p o : PortId) (x : Reply) : ((w.forming p x).port o).queue = (w.port o).queue := by
  unfold State.forming
  rw [State.port_modPort]
  split
  · rename_i e; rw [e]
  · rfl

/-- The notices after a request taken at a free port are those its rule leaves. -/
theorem exec_queue {i : Instr} {s t : State} {p : PortId} {c : Nat} {l : List Byte} (result : exec i s = .next t)
    (encoded : encodeRequest i = some (p, c, l)) (free : PortFree s p) (o : PortId) :
    (t.port o).queue = ((handRequest i (s.opened p (2 + l.length))).1.port o).queue := by
  rw [exec_request i s (by simp [encoded]), State.request_free encoded free] at result
  injection result with result
  rw [← result, State.queue_forming]

/-- A LOADED hanger whose ENTRY move gantry A holds. -/
def State.abandoning : State := State.pointedLine .a (Hanger.admitted 1 0 0 1000 0 { station := 0, slot := 0 })

/-- Refutes O41: gantry A abandons the move, enters READY, and is not sent WORK for it. -/
theorem not_doneAndAbandonEndTheWork : ¬ Obligations.DoneAndAbandonEndTheWork := by
  intro h
  obtain ⟨-, -, -, abandons⟩ := h .a (Move.pointed .a) State.abandoning rfl ⟨nofun, nofun, rfl, rfl⟩ (by decide) rfl
  obtain ⟨t, answers, gantry, -, -, -, -, -, -, -, -, -, -, -, -, ⟨q, rfl, port⟩, -⟩ :=
    abandons 0 (Hanger.admitted 1 0 0 1000 0 { station := 0, slot := 0 }) rfl nofun (by decide) (by decide) (by decide) rfl rfl rfl
  have link : (t.gantry .a).link = .ready := by rw [gantry]; rfl
  rw [if_pos ⟨link, t.canServe_pointed .a⟩] at port
  have queue := exec_queue (l := bytes1 1 ++ bytes2 0) answers rfl rfl (GantryId.port .a)
  rw [State.queue_forming, port, queue_worked_of_empty (by decide) (by decide)] at queue
  revert queue
  decide

/-- A RESCUED hanger, its abort pending, whose move gantry A holds though gantry B is in its record. -/
def State.faulting : State :=
  State.pointedLine .b
    { Hanger.admitted 1 0 0 1000 0 { station := 0, slot := 0 } with state := .rescued, pendingAbort := true }

/-- Refutes O43: gantry A faults, the move becomes a READY ABORT move, and gantry B is not sent WORK for it. -/
theorem not_pendingAbortIsAppliedAtTheReturn : ¬ Obligations.PendingAbortIsAppliedAtTheReturn := by
  intro h
  obtain ⟨t, result, -, -, -, -, -, -, -, -, -, -, -, -, -, -, strict⟩ := h .a (Move.pointed .b)
    { Hanger.admitted 1 0 0 1000 0 { station := 0, slot := 0 } with state := .rescued, pendingAbort := true }
    (.fault .a 0 0 0) .faulted (some 0) State.faulting rfl (by simp [State.faulting, State.pointedLine]) (by decide) rfl
    nofun rfl rfl rfl rfl rfl rfl (Or.inl (Or.inl ⟨0, rfl, rfl, Or.inr ⟨0, rfl⟩, rfl⟩))
  obtain ⟨-, -, -, -, -, -, -, port⟩ := strict (Or.inl rfl)
  rw [if_pos ⟨rfl, t.canServe_pointed .b⟩] at port
  have queue := exec_queue (l := bytes1 0 ++ bytes1 0 ++ bytes1 0) result rfl rfl (GantryId.port (GantryId.other .a))
  rw [port, queue_worked_of_empty (by decide) (by decide)] at queue
  revert queue
  decide

end Sys2Proof.Machine
end

