-- ==== Sys2Proof/Proofs/Recovered.lean ====
section
/-! PROOFS. RECOVER (O21): what placing a STRANDED hanger in a slot leaves of the slots, the record and the stranded holds. -/

namespace Sys2Proof.Machine

/-! ### Records -/

/-- A change of the newest entry changes the run record alone. -/
theorem Hanger.modNewest_rest (h : Hanger) (f : RunEntry → RunEntry) : h.modNewest f = { h with run := (h.modNewest f).run } := by
  unfold Hanger.modNewest
  split <;> rfl

theorem Hanger.modNewest_run {h : Hanger} {e : RunEntry} (he : h.run.getLast? = some e) (f : RunEntry → RunEntry) :
    (h.modNewest f).run = h.run.dropLast ++ [f e] := by
  unfold Hanger.modNewest
  rw [he]

/-- R147: the stranded hold is all that a recovery can change of a gantry. -/
theorem Gantry.clearHold_eq (r : Gantry) (tag : Nat) :
    r.clearHold tag = { r with hold := if r.hold.map StrandedHold.tag = some tag then none else r.hold } := by
  unfold Gantry.clearHold
  cases r with
  | mk _ _ _ _ _ _ _ _ _ _ _ _ _ _ hold =>
    cases hold with
    | none => rfl
    | some x =>
      by_cases e : x.tag = tag
      · simp [e]
      · simp [e]

/-- R55: the record of a hanger that rests where it was placed. -/
def Hanger.recoveredAt (h : Hanger) (r : SlotRef) : Hanger :=
  { (h.rest .recovered).modNewest RunEntry.markStranded with location := .slot r }

theorem Hanger.recoveredAt_rest (h : Hanger) (r : SlotRef) :
    h.recoveredAt r = { h.rest .recovered with location := .slot r, run := (h.recoveredAt r).run } := by
  unfold Hanger.recoveredAt
  rw [Hanger.modNewest_rest]

/-! ### The recovery (R55) -/

/-- What RECOVER changes: the stations, the channels, the hangers and the two stranded holds. -/
theorem State.recoverAt_rest {s : State} {tag : Nat} {r : SlotRef} (hslot : (s.station r.station).hasSlot r.slot = true)
    (hfree : s.slotAt r = .free ∨ (s.slotAt r).reservedFor tag = true) :
    s.recoverAt tag r = { s with
      stations := ((s.setSlot r (.occupied tag)).releaseAll tag).stations
      channels := ((s.setSlot r (.occupied tag)).reportOccupancy r.station (s.station r.station).occupiedCount).channels
      hangers := (s.modHanger tag (fun h => h.recoveredAt r)).hangers
      gantryA := s.gantryA.clearHold tag
      gantryB := s.gantryB.clearHold tag } := by
  unfold State.recoverAt
  rw [State.occupy_of hslot hfree, State.reportOccupancy_rest]
  rfl

/-- The slots RECOVER leaves: the one named is OCCUPIED, and every other one RESERVED for the tag is FREE. -/
theorem State.slotAt_occupied_released {s : State} {tag : Nat} {r : SlotRef} (hst : r.station < 24) (hsl : r.slot < 4) (ref : SlotRef) :
    ((s.setSlot r (.occupied tag)).releaseAll tag).slotAt ref =
      if ref = r then .occupied tag else if (s.slotAt ref).reservedFor tag = true then .free else s.slotAt ref := by
  rw [State.slotAt_releaseAll, State.slotAt_setSlot hst hsl]
  by_cases e : ref = r
  · simp [e, Slot.reservedFor]
  · simp [e]

theorem State.station_setSlot (s : State) {r : SlotRef} (hst : r.station < 24) (x : Slot) (st : Nat) :
    (s.setSlot r x).station st = if st = r.station then (s.station st).setSlot r.slot x else s.station st := by
  unfold State.setSlot
  rw [State.station_modStation hst]
  split
  · rename_i e; rw [e]
  · rfl

/-- A write of one slot and a release keep every other field of the stations. -/
theorem State.keepsStationFields_setSlot_releaseAll (s : State) (tag : Nat) {r : SlotRef} (hst : r.station < 24) (x : Slot) :
    KeepsStationFields s ((s.setSlot r x).releaseAll tag) := by
  intro st
  rw [State.station_releaseAll, State.station_setSlot s hst]
  split <;> rfl

theorem KeepsStationFields.congr {s t t' : State} (h : KeepsStationFields s t) (hs : t'.stations = t.stations) :
    KeepsStationFields s t' := by
  intro st
  rw [State.station_congr hs]
  exact h st

/-- R155: the channel of the station is told of the slot that is taken; the released ones held no hanger. -/
theorem State.occupancyTold_occupied_released (s : State) (tag : Nat) {r : SlotRef} (hst : r.station < 24) {t : State}
    (hs : t.stations = ((s.setSlot r (.occupied tag)).releaseAll tag).stations)
    (hc : t.channels = ((s.setSlot r (.occupied tag)).reportOccupancy r.station (s.station r.station).occupiedCount).channels) :
    OccupancyTold s t r.station := by
  refine occupancyTold_of_report (u := s.setSlot r (.occupied tag)) rfl rfl rfl ?_ ?_ hc
  · rw [State.station_setSlot s hst, if_pos rfl]
    rfl
  · rw [State.station_congr hs, State.station_releaseAll, Station.occupiedCount_releaseAll]

/-! ### RECOVER -/

theorem answers_recover {s t : State} {tag st sl : Nat} {q : Reply} (hp : PortFree s .p0)
    (h : recover tag st sl (s.opened .p0 5) = (t, q)) : Answers (.recover tag st sl) s .p0 t q :=
  Answers.of_rule (c := 0x24) (l := bytes1 tag ++ bytes1 st ++ bytes1 sl) rfl hp h

/-- R55: the refusals of RECOVER, in the order of its tests. -/
theorem recover_refuses {s : State} {tag st sl : Nat} :
    ((tag = 0 ∨ 255 < tag ∨ 23 < st ∨ 3 < sl) → recover tag st sl s = (s, Reply.bare .badArg))
    ∧ (1 ≤ tag → tag ≤ 255 → st ≤ 23 → sl ≤ 3 →
      ((s.hanger? tag = none ∨ (s.station st).hasSlot sl = false) → recover tag st sl s = (s, Reply.bare .noSuch))
      ∧ ∀ h, s.hanger? tag = some h → (s.station st).hasSlot sl = true →
        (h.state ≠ .stranded → recover tag st sl s = (s, Reply.bare .notNow))
        ∧ (h.state = .stranded → s.slotAt ⟨st, sl⟩ ≠ .free → (s.slotAt ⟨st, sl⟩).reservedFor tag = false →
          recover tag st sl s = (s, Reply.bare .inUse))
        ∧ (h.state = .stranded → (s.slotAt ⟨st, sl⟩ = .free ∨ (s.slotAt ⟨st, sl⟩).reservedFor tag = true) →
          recover tag st sl s = (s.recoverAt tag ⟨st, sl⟩, Reply.bare .ok))) := by
  refine ⟨fun h => ?_, fun h1 h2 h3 h4 => ?_⟩
  · have outside : tag < 1 ∨ 255 < tag ∨ (!slotInRange st sl) = true := by
      have range := slotInRange_iff st sl
      cases hr : slotInRange st sl
      · simp
      · have := range.1 hr
        omega
    exact if_pos outside
  have inside : ¬ (tag < 1 ∨ 255 < tag ∨ (!slotInRange st sl) = true) := by
    simp [(slotInRange_iff st sl).2 ⟨h3, h4⟩]
    omega
  unfold recover
  rw [if_neg inside]
  refine ⟨fun h => ?_, fun h hh hslot => ?_⟩
  · cases hh : s.hanger? tag with
    | none => rfl
    | some x =>
      have absent : (s.station st).hasSlot sl = false := h.resolve_left (by simp [hh])
      simp [absent]
  · rw [hh]
    refine ⟨fun hs => by simp [hslot, hs], fun hs hf hr => by simp [hslot, hs, hf, hr], fun hs hf => ?_⟩
    have taken : ¬ (s.slotAt ⟨st, sl⟩ ≠ .free ∧ (s.slotAt ⟨st, sl⟩).reservedFor tag = false) := by
      rintro ⟨h1, h2⟩
      rcases hf with hf | hf
      · exact h1 hf
      · rw [hf] at h2
        cases h2
    dsimp only
    rw [if_neg (by simp [hslot]), if_neg (by simp [hs]), if_neg taken]
    rfl

/-- Settles O21: the tests of RECOVER in their order, and what it leaves of each part of the state. -/
theorem recoverRestsTheStrandedHanger : Obligations.RecoverRestsTheStrandedHanger := by
  intro tag st sl s hp
  obtain ⟨outside, tests⟩ := recover_refuses (s := s.opened .p0 5) (tag := tag) (st := st) (sl := sl)
  refine ⟨fun h => answers_recover hp (outside h), fun h1 h2 h3 h4 => ?_⟩
  obtain ⟨noSuch, live⟩ := tests h1 h2 h3 h4
  refine ⟨fun h => answers_recover hp (noSuch h), fun h hh hslot => ?_⟩
  obtain ⟨notNow, inUse, recovers⟩ := live h hh hslot
  refine ⟨fun hs => answers_recover hp (notNow hs), fun hs hf hr => answers_recover hp (inUse hs hf hr), fun hs hf => ?_⟩
  refine ⟨_, h.recoveredAt ⟨st, sl⟩, answers_recover hp (recovers hs hf), ?_⟩
  have rest := State.recoverAt_rest (s := s.opened .p0 5) (tag := tag) (r := ⟨st, sl⟩) hslot hf
  generalize (s.opened .p0 5).recoverAt tag ⟨st, sl⟩ = t at rest
  have stations : t.stations = (((s.opened .p0 5).setSlot ⟨st, sl⟩ (.occupied tag)).releaseAll tag).stations := by rw [rest]
  have channels : t.channels = (((s.opened .p0 5).setSlot ⟨st, sl⟩ (.occupied tag)).reportOccupancy st
      ((s.opened .p0 5).station st).occupiedCount).channels := by rw [rest]
  have hangers : ∀ tag', t.hanger? tag' = if tag' = tag then (s.hanger? tag).map (fun h => h.recoveredAt ⟨st, sl⟩)
      else s.hanger? tag' := by
    intro tag'
    rw [State.hanger_congr (s := s.modHanger tag (fun h => h.recoveredAt ⟨st, sl⟩)) (by rw [rest]; rfl)]
    exact State.hanger_modHanger (fun h => by rw [Hanger.recoveredAt_rest]; rfl) tag'
  have record := h.recoveredAt_rest ⟨st, sl⟩
  have hst : st < 24 := by omega
  refine ⟨?_, by rw [record]; rfl, by rw [record]; rfl, rfl, by rw [record]; rfl, by rw [record]; rfl, by rw [record]; rfl,
    by rw [record]; rfl, fun e he => ?_, fun ref => ?_, fun g => ?_, ?_, ?_, ?_, fun tag' hne => ?_, by rw [rest]; rfl,
    by rw [rest]; rfl, by rw [rest]; rfl, by rw [rest]; rfl, by rw [rest]; rfl, by rw [rest], by rw [rest]; rfl, by rw [rest]; rfl⟩
  · rw [hangers, if_pos rfl, show s.hanger? tag = some h from hh]
    rfl
  · exact Hanger.modNewest_run (h := h.rest .recovered) he RunEntry.markStranded
  · exact (State.slotAt_congr stations ref).trans (State.slotAt_occupied_released (s := s.opened .p0 5) hst (Nat.lt_succ_of_le h4) ref)
  · rw [rest]
    cases g <;> exact Gantry.clearHold_eq _ tag
  · exact State.occupancyTold_occupied_released (s.opened .p0 5) tag (r := ⟨st, sl⟩) hst stations channels
  · exact KeepsStationFields.congr ((s.opened .p0 5).keepsStationFields_setSlot_releaseAll tag (r := ⟨st, sl⟩) hst _) stations
  · unfold KeepsSettings
    rw [rest]
    exact ⟨rfl, rfl, rfl, rfl, rfl, rfl, rfl, rfl, rfl⟩
  · rw [hangers, if_neg hne]

end Sys2Proof.Machine
end

