-- ==== Sys2Proof/Proofs/Aborts.lean ====
section
/-! PROOFS. ABORT-HANGER (O18): what the closing of an entry writes, and then each of the three aborts as a change of the parts of
the state it names. -/

namespace Sys2Proof.Machine

variable {s : State} {tag : Nat} {h : Hanger}

/-! ### The closing of an entry (R40) -/

/-- CONDITION is maskable, so it changes the supervisor's port alone (R187, R190). -/
theorem State.notifyCondition_eq (s : State) (tag st : Nat) {c : Condition} (hc : c ≠ .onTime) :
    s.notifyCondition tag st c =
      { s with port0 := s.port0.push (plainNotice .condition s.lineTime (some tag) (some st) c.code) } :=
  (if_neg hc).trans (State.post_of_maskable _ .p0 rfl)

/-- R40: the record of a hanger whose newest entry, if open, has closed. -/
def Hanger.closedAt (h : Hanger) (now : LineTime) (c : Condition) : Hanger := { h with run := closedRun h now c }

/-- R38: no entry is open. -/
def Hanger.Closed (h : Hanger) : Prop := ∀ e, h.run.getLast? = some e → e.endTime ≠ none

theorem Hanger.Closed.closedAt (hc : h.Closed) (now : LineTime) (c : Condition) : h.closedAt now c = h := by
  unfold Hanger.closedAt closedRun
  cases he : h.run.getLast? with
  | none => rfl
  | some e =>
    dsimp only
    rw [if_neg (hc e he)]

theorem Hanger.Closed.closedPort (hc : h.Closed) (q : Port) (now : LineTime) (c : Condition) : closedPort q h now c = q := by
  unfold Machine.closedPort
  cases he : h.run.getLast? with
  | none => rfl
  | some e => exact if_neg (fun hand => hc e he hand.1)

theorem Hanger.Closed.closeEntry (hc : h.Closed) (hh : s.hanger? tag = some h) (c : Condition) : s.closeEntry tag c = s := by
  unfold State.closeEntry
  rw [hh]
  dsimp only
  cases he : h.run.getLast? with
  | none => rfl
  | some e =>
    have closed : ¬ e.isOpen = true := by
      unfold RunEntry.isOpen
      rw [Option.isNone_iff_eq_none]
      exact hc e he
    exact if_neg closed

theorem Hanger.closed_or_open (h : Hanger) : h.Closed ∨ ∃ e, h.run.getLast? = some e ∧ e.endTime = none := by
  unfold Hanger.Closed
  by_cases hc : ∀ e, h.run.getLast? = some e → e.endTime ≠ none
  · exact Or.inl hc
  · push Not at hc
    exact Or.inr hc

theorem Hanger.closedAt_open {e : RunEntry} (he : h.run.getLast? = some e) (ho : e.endTime = none) (now : LineTime) (c : Condition) :
    h.modNewest (fun e => e.close now h.imm c) = h.closedAt now c := by
  unfold Hanger.closedAt closedRun
  rw [Hanger.modNewest_rest, Hanger.modNewest_run he, he]
  dsimp only
  rw [if_pos ho]
  rfl

/-- R40: an open entry closes, and one that closes other than ON-TIME is told. -/
theorem State.closeEntry_open {e : RunEntry} (hh : s.hanger? tag = some h) (he : h.run.getLast? = some e) (ho : e.endTime = none)
    {c : Condition} (hc : c ≠ .onTime) :
    s.closeEntry tag c =
      { s.modHanger tag (fun h => h.modNewest (fun e => e.close s.lineTime h.imm c)) with
          port0 := closedPort s.port0 h s.lineTime c } := by
  obtain rfl := State.hanger_tag hh
  have told : closedPort s.port0 h s.lineTime c =
      s.port0.push (plainNotice .condition s.lineTime (some h.tag) (some e.station) c.code) := by
    unfold closedPort
    rw [he]
    exact if_pos ⟨ho, hc⟩
  unfold State.closeEntry
  rw [hh]
  dsimp only
  rw [he]
  dsimp only
  rw [if_pos (by simp [RunEntry.isOpen, ho]), State.notifyCondition_eq _ _ _ hc, told]
  rfl

/-- R40: a closing other than ON-TIME changes the hangers of the tag and the supervisor's port. -/
theorem State.closeEntry_rest (hh : s.hanger? tag = some h) {c : Condition} (hc : c ≠ .onTime) :
    s.closeEntry tag c =
      { s with hangers := (s.closeEntry tag c).hangers, port0 := closedPort s.port0 h s.lineTime c } := by
  rcases h.closed_or_open with closed | ⟨e, he, ho⟩
  · rw [closed.closeEntry hh, closed.closedPort]
  · rw [State.closeEntry_open hh he ho hc]
    rfl

theorem State.hanger_closeEntry (hh : s.hanger? tag = some h) {c : Condition} (hc : c ≠ .onTime) (tag' : Nat) :
    (s.closeEntry tag c).hanger? tag' = if tag' = tag then some (h.closedAt s.lineTime c) else s.hanger? tag' := by
  rcases h.closed_or_open with closed | ⟨e, he, ho⟩
  · rw [closed.closeEntry hh, closed.closedAt]
    split
    · rename_i same; rw [same, hh]
    · rfl
  · rw [State.closeEntry_open hh he ho hc]
    refine (State.hanger_modHanger (by exact fun x => by rw [Hanger.modNewest_rest]) tag').trans ?_
    rw [hh, Option.map_some, Hanger.closedAt_open he ho]

/-! ### The three aborts (R47 to R49) -/

/-- R47: the abort of a LOADED hanger. -/
theorem State.abortLoaded_rest (s : State) (tag : Nat) :
    s.abortLoaded tag = { s with
      startOrder := s.startOrder.filter (fun x => x != tag)
      moves := (s.removeHangerMove tag).moves
      stations := (s.releaseAll tag).stations
      hangers := (s.modHanger tag (fun h => h.rest .unstarted)).hangers } := by
  have moves : ((s.leaveOrder tag).removeHangerMove tag).moves = (s.removeHangerMove tag).moves :=
    State.removeHangerMove_congr (s := s) (t := s.leaveOrder tag) rfl tag
  unfold State.abortLoaded
  rw [State.removeHangerMove_rest, moves]
  rfl

/-- R48: the record of a hanger that rests IN-STEP. -/
def Hanger.restInStep (h : Hanger) (now : LineTime) : Hanger := ((h.closedAt now .aborted).stopCount).rest .inStep

/-- R48: the abort of a hanger IMMERSED in a BOUNDED or OPEN station. -/
theorem State.abortInPlace_rest (hh : s.hanger? tag = some h) :
    s.abortInPlace tag = { s with
      moves := (s.removeHangerMove tag).moves
      stations := (s.releaseAll tag).stations
      hangers := (s.abortInPlace tag).hangers
      port0 := closedPort s.port0 h s.lineTime .aborted } := by
  have moves : ((s.closeEntry tag .aborted).removeHangerMove tag).moves = (s.removeHangerMove tag).moves :=
    State.removeHangerMove_congr (by simp) tag
  unfold State.abortInPlace
  rw [State.removeHangerMove_rest, moves, State.closeEntry_rest hh (by decide)]
  rfl

theorem State.hanger_abortInPlace (hh : s.hanger? tag = some h) (tag' : Nat) :
    (s.abortInPlace tag).hanger? tag' = if tag' = tag then some (h.restInStep s.lineTime) else s.hanger? tag' := by
  have kept : ∀ o, (((s.closeEntry tag .aborted).removeHangerMove tag).releaseAll tag).hanger? o =
      if o = tag then some (h.closedAt s.lineTime .aborted) else s.hanger? o := by
    intro o
    rw [State.hanger_congr (s := s.closeEntry tag .aborted) (by simp)]
    exact State.hanger_closeEntry hh (by decide) o
  unfold State.abortInPlace
  rw [State.hanger_modHanger (by exact fun _ => rfl), State.hanger_modHanger (by exact fun _ => rfl),
    State.hanger_modHanger (by exact fun _ => rfl), kept, kept]
  by_cases e : tag' = tag
  · simp only [e, if_true]
    rfl
  · simp only [e, if_false]

/-- R49: the record of a hanger that waits for its ABORT move. -/
def Hanger.abortWaits (h : Hanger) (now : LineTime) : Hanger := { (h.closedAt now .aborted).stopCount with pendingAbort := true }

/-- R49: the state before the hanger's move becomes an ABORT move. -/
def State.abortMarked (s : State) (tag : Nat) : State :=
  ((s.closeEntry tag .aborted).modHanger tag Hanger.stopCount).modHanger tag (fun h => { h with pendingAbort := true })

theorem State.abortMarked_rest (hh : s.hanger? tag = some h) :
    s.abortMarked tag =
      { s with hangers := (s.abortMarked tag).hangers, port0 := closedPort s.port0 h s.lineTime .aborted } := by
  unfold State.abortMarked
  rw [State.closeEntry_rest hh (by decide)]
  rfl

theorem State.hanger_abortMarked (hh : s.hanger? tag = some h) (tag' : Nat) :
    (s.abortMarked tag).hanger? tag' = if tag' = tag then some (h.abortWaits s.lineTime) else s.hanger? tag' := by
  unfold State.abortMarked
  rw [State.hanger_modHanger (by exact fun _ => rfl), State.hanger_modHanger (by exact fun _ => rfl),
    State.hanger_modHanger (by exact fun _ => rfl), State.hanger_closeEntry hh (by decide), State.hanger_closeEntry hh (by decide)]
  by_cases e : tag' = tag
  · simp only [e, if_true]
    rfl
  · simp only [e, if_false]

/-- R107: the hanger's move made an ABORT move, and made known. -/
theorem State.makeAbortMove_some {m : Move} (hm : s.hangerMove? tag = some m) :
    s.makeAbortMove tag = (s.modMove m.id (fun x => x.toAbort s.lineTime)).announceId m.id := by
  unfold State.makeAbortMove
  rw [hm]

theorem State.makeAbortMove_none (hm : s.hangerMove? tag = none) : s.makeAbortMove tag = s := by
  unfold State.makeAbortMove
  rw [hm]

/-- R110: a move made known changes the gantries' ports alone. -/
theorem State.announceId_rest (s : State) (id : Nat) :
    s.announceId id = { s with port1 := (s.announceId id).port1, port2 := (s.announceId id).port2 } := by
  unfold State.announceId
  split
  · rw [State.announce_eq]
  · rfl

theorem State.makeAbortMove_rest (s : State) (tag : Nat) :
    s.makeAbortMove tag = { s with
      moves := (s.makeAbortMove tag).moves, port1 := (s.makeAbortMove tag).port1, port2 := (s.makeAbortMove tag).port2 } := by
  unfold State.makeAbortMove
  split
  · rw [State.announceId_rest]
    rfl
  · rfl

theorem Move.toAbort_id (m : Move) (now : LineTime) : (m.toAbort now).id = m.id := by unfold Move.toAbort; split <;> rfl

/-- An ABORT move goes where the move it was went: it is served by the same gantries, and its WORK notice is the same. -/
theorem WorkPosted.of_toAbort {t : State} {m : Move} {now : LineTime} (posted : WorkPosted s t (m.toAbort now)) : WorkPosted s t m := by
  have same : ∀ g, t.canServe g (m.toAbort now) = t.canServe g m ∧ workNotice s.lineTime (m.toAbort now) = workNotice s.lineTime m := by
    intro g
    unfold Move.toAbort
    split <;> exact ⟨State.canServe_move rfl rfl rfl (Or.inl rfl), rfl⟩
  intro g
  rw [← (same g).1, ← (same g).2]
  exact posted g

/-- What a WORK notice is posted to, and when, is read of the ports and the line time the event found. -/
theorem WorkPosted.congr {u t : State} {m : Move} (posted : WorkPosted u t m) (ports : ∀ g : GantryId, u.port g.port = s.port g.port)
    (time : u.lineTime = s.lineTime) : WorkPosted s t m := by
  intro g
  rw [← ports, ← time]
  exact posted g

/-- R107, R110: what the making of an ABORT move leaves, of the moves and of the gantries' ports. -/
theorem State.makeAbortMove_moves {m : Move} (hm : s.hangerMove? tag = some m) :
    (∀ id, (s.makeAbortMove tag).move? id = if id = m.id then (s.move? m.id).map (fun x => x.toAbort s.lineTime) else s.move? id)
    ∧ (s.move? m.id = some m → WorkPosted s (s.makeAbortMove tag) m) := by
  have moved := State.move_modMove (s := s) (id := m.id) (f := fun x => x.toAbort s.lineTime) (fun x => x.toAbort_id _)
  rw [State.makeAbortMove_some hm]
  refine ⟨fun id => ?_, fun found => ?_⟩
  · rw [State.announceId_rest]
    exact moved id
  · have named : (s.modMove m.id (fun x => x.toAbort s.lineTime)).move? m.id = some (m.toAbort s.lineTime) := by
      rw [moved, if_pos rfl, found]
      rfl
    unfold State.announceId
    rw [named]
    exact (workPosted_announce (s := s) (u := s.modMove m.id _) (fun g => by cases g <;> rfl) rfl _).of_toAbort

/-! ### ABORT-HANGER (R46) -/

section
variable (h1 : 1 ≤ tag) (h2 : tag ≤ 255) (hh : s.hanger? tag = some h)
include h1 h2 hh

theorem abortHanger_pending (hp : h.pendingAbort = true) : abortHanger tag s = (s, Reply.bare .acceptedPending) := by
  unfold abortHanger
  rw [withHanger_live h1 h2 hh]
  exact if_pos hp

theorem abortHanger_refused (hp : h.pendingAbort = false) (hs : h.state = .stranded ∨ h.state = .done ∨ h.state = .aborted) :
    abortHanger tag s = (s, Reply.bare .notNow) := by
  unfold abortHanger
  rw [withHanger_live h1 h2 hh]
  rcases hs with hs | hs | hs <;> simp [hp, hs]

theorem abortHanger_deferred (hp : h.pendingAbort = false)
    (hs : h.state = .inTransit ∨ (h.state = .rescued ∧ s.moveGranted tag = true)) :
    abortHanger tag s = (s.modHanger tag (fun h => { h with pendingAbort := true }), Reply.bare .acceptedPending) := by
  unfold abortHanger
  rw [withHanger_live h1 h2 hh]
  rcases hs with hs | ⟨hs, hm⟩
  · simp [hp, hs]
  · simp [hp, hs, hm]

theorem abortHanger_loaded (hp : h.pendingAbort = false) (hs : h.state = .loaded) :
    abortHanger tag s = (s.abortLoaded tag, Reply.bare .ok) := by
  unfold abortHanger
  rw [withHanger_live h1 h2 hh]
  simp [hp, hs]

theorem abortHanger_inPlace (hp : h.pendingAbort = false) (hs : h.state = .immersed) (hl : s.inStrict h = false) :
    abortHanger tag s = (s.abortInPlace tag, Reply.bare .ok) := by
  unfold abortHanger
  rw [withHanger_live h1 h2 hh]
  simp [hp, hs, hl]

theorem abortHanger_strict (hp : h.pendingAbort = false)
    (hs : (h.state = .immersed ∧ s.inStrict h = true) ∨ (h.state = .rescued ∧ s.moveGranted tag = false)) :
    abortHanger tag s = (s.abortStrict tag, Reply.bare .ok) := by
  unfold abortHanger
  rw [withHanger_live h1 h2 hh]
  rcases hs with ⟨hs, hl⟩ | ⟨hs, hm⟩
  · simp [hp, hs, hl]
  · simp [hp, hs, hm]

end

theorem answers_abortHanger {t : State} {q : Reply} (hp : PortFree s .p0) (h : abortHanger tag (s.opened .p0 3) = (t, q)) :
    Answers (.abortHanger tag) s .p0 t q :=
  Answers.of_rule (c := 0x21) (l := bytes1 tag) rfl hp h

theorem State.moveGranted_iff : s.moveGranted tag = true ↔
    ∃ m, s.hangerMove? tag = some m ∧ (m.state = .granted ∨ m.state = .carried) := by
  unfold State.moveGranted
  cases s.hangerMove? tag <;> simp

theorem KeepsOtherHangers.of_hanger {t : State} {x : Option Hanger}
    (h : ∀ tag', t.hanger? tag' = if tag' = tag then x else s.hanger? tag') : KeepsOtherHangers s t tag :=
  fun tag' hne => (h tag').trans (if_neg hne)

/-- Every reservation of a tag released: the slots and the other fields of the stations. -/
theorem State.releaseAll_slots (s : State) (tag : Nat) {t : State} (hs : t.stations = (s.releaseAll tag).stations) :
    (∀ ref, t.slotAt ref = if (s.slotAt ref).reservedFor tag = true then .free else s.slotAt ref) ∧ KeepsStationFields s t := by
  refine ⟨fun ref => ?_, fun st => ?_⟩
  · rw [State.slotAt_congr hs, State.slotAt_releaseAll]
  · rw [State.station_congr hs, State.station_releaseAll]
    rfl

/-- Settles O18: one abort for each state of the hanger, each written out as the parts of the state it changes. -/
theorem abortIsTakenByTheState : Obligations.AbortIsTakenByTheState := by
  intro tag h s hp h1 h2 hh
  have found : (s.opened .p0 3).hanger? tag = some h := hh
  refine ⟨fun pending => answers_abortHanger hp (abortHanger_pending h1 h2 found pending), fun unset =>
    ⟨fun hs => answers_abortHanger hp (abortHanger_refused h1 h2 found unset hs), fun hs => ?_, fun hs => ?_,
      fun r hs hl hc => ?_, fun hs => ?_⟩⟩
  · exact answers_abortHanger hp (abortHanger_deferred h1 h2 found unset (hs.imp_right (And.imp_right State.moveGranted_iff.2)))
  · refine ⟨_, answers_abortHanger hp (abortHanger_loaded h1 h2 found unset hs), ?_⟩
    have rest := (s.opened .p0 3).abortLoaded_rest tag
    generalize (s.opened .p0 3).abortLoaded tag = t at rest
    have moves : t.moves = (s.removeHangerMove tag).moves := by
      rw [rest]
      exact State.removeHangerMove_congr (s := s) (t := s.opened .p0 3) rfl tag
    obtain ⟨moved, unmoved⟩ := State.removeHangerMove_moves s tag
    have hangers : ∀ tag', t.hanger? tag' = if tag' = tag then (s.hanger? tag).map (fun h => h.rest .unstarted) else s.hanger? tag' := by
      intro tag'
      rw [State.hanger_congr (s := s.modHanger tag (fun h => h.rest .unstarted)) (by rw [rest]; rfl)]
      exact State.hanger_modHanger (by exact fun _ => rfl) tag'
    obtain ⟨slots, fields⟩ := State.releaseAll_slots (s.opened .p0 3) tag (t := t) (by rw [rest])
    refine ⟨?_, by rw [rest]; rfl, fun m hm => moves.trans (moved m hm), fun hm => moves.trans (unmoved hm), slots, fields, ?_,
      KeepsOtherHangers.of_hanger hangers, by rw [rest], by rw [rest]; rfl, by rw [rest]; rfl, by rw [rest]; rfl, by rw [rest]; rfl,
      by rw [rest]; rfl, by rw [rest]; rfl, by rw [rest]; rfl, by rw [rest]; rfl, by rw [rest]; rfl⟩
    · rw [hangers, if_pos rfl, hh, Option.map_some]
      unfold Hanger.rest
      rw [unset]
    · unfold KeepsSettings
      rw [rest]
      exact ⟨rfl, rfl, rfl, rfl, rfl, rfl, rfl, rfl, rfl⟩
  · have plain : (s.opened .p0 3).inStrict h = false := by
      unfold State.inStrict
      rw [hl]
      exact beq_false_of_ne hc
    refine ⟨_, answers_abortHanger hp (abortHanger_inPlace h1 h2 found unset hs plain), ?_⟩
    have rest := State.abortInPlace_rest found
    have hangers := State.hanger_abortInPlace found
    generalize (s.opened .p0 3).abortInPlace tag = t at rest hangers
    have moves : t.moves = (s.removeHangerMove tag).moves := by
      rw [rest]
      exact State.removeHangerMove_congr (s := s) (t := s.opened .p0 3) rfl tag
    obtain ⟨moved, unmoved⟩ := State.removeHangerMove_moves s tag
    obtain ⟨slots, fields⟩ := State.releaseAll_slots (s.opened .p0 3) tag (t := t) (by rw [rest])
    refine ⟨?_, fun m hm => moves.trans (moved m hm), fun hm => moves.trans (unmoved hm), slots, fields, ?_,
      KeepsOtherHangers.of_hanger (s := s.opened .p0 3) hangers, by rw [rest]; rfl, by rw [rest]; rfl, by rw [rest]; rfl,
      by rw [rest]; rfl, by rw [rest]; rfl, by rw [rest]; rfl, by rw [rest]; rfl, by rw [rest]; rfl, by rw [rest]; rfl,
      by rw [rest]; rfl⟩
    · rw [hangers, if_pos rfl]
      unfold Hanger.restInStep Hanger.stopCount Hanger.rest
      rw [unset]
      rfl
    · unfold KeepsSettings
      rw [rest]
      exact ⟨rfl, rfl, rfl, rfl, rfl, rfl, rfl, rfl, rfl⟩
  · have strict : (h.state = .immersed ∧ (s.opened .p0 3).inStrict h = true)
        ∨ (h.state = .rescued ∧ (s.opened .p0 3).moveGranted tag = false) := by
      refine hs.imp (fun ⟨r, hs, hl, hc⟩ => ⟨hs, ?_⟩) (fun ⟨hs, hm⟩ => ⟨hs, ?_⟩)
      · unfold State.inStrict
        rw [hl]
        exact beq_iff_eq.2 hc
      · rw [Bool.eq_false_iff, ne_eq, State.moveGranted_iff]
        rintro ⟨m, found, hg | hg⟩
        · exact (hm m found).1 hg
        · exact (hm m found).2 hg
    refine ⟨((s.opened .p0 3).abortMarked tag).makeAbortMove tag,
      answers_abortHanger hp (abortHanger_strict h1 h2 found unset strict), ?_⟩
    have marked := State.abortMarked_rest found
    have hangers := State.hanger_abortMarked found
    generalize (s.opened .p0 3).abortMarked tag = u at marked hangers
    have rest := u.makeAbortMove_rest tag
    have stands : u.hangerMove? tag = s.hangerMove? tag := State.hangerMove_congr (by rw [marked]; rfl) tag
    have moves : ∀ id, u.move? id = s.move? id := State.move_congr (by rw [marked]; rfl)
    have time : u.lineTime = s.lineTime := by rw [marked]; rfl
    have made : ∀ m, s.hangerMove? tag = some m →
        (∀ id, (u.makeAbortMove tag).move? id = if id = m.id then (s.move? m.id).map (fun x => x.toAbort s.lineTime) else s.move? id)
        ∧ (s.move? m.id = some m → WorkPosted s (u.makeAbortMove tag) m) := by
      intro m hm
      obtain ⟨moved, posted⟩ := State.makeAbortMove_moves (stands.trans hm)
      rw [time] at moved
      simp only [moves] at moved posted
      exact ⟨moved, fun hf => (posted hf).congr (fun g => by rw [marked]; cases g <;> rfl) time⟩
    have unmade : s.hangerMove? tag = none → (u.makeAbortMove tag).moves = s.moves := fun hm => by
      rw [State.makeAbortMove_none (stands.trans hm), marked]
      rfl
    have kept : ∀ tag', (u.makeAbortMove tag).hanger? tag' = u.hanger? tag' := State.hanger_congr (by rw [rest])
    generalize u.makeAbortMove tag = t at rest made unmade kept
    refine ⟨?_, fun m hm => ⟨((made m hm).1 m.id).trans (if_pos rfl), fun id hne => ((made m hm).1 id).trans (if_neg hne), (made m hm).2⟩,
      unmade, by rw [rest, marked]; rfl, by rw [rest, marked]; rfl, ?_, fun tag' hne => ?_, by rw [rest, marked]; rfl,
      by rw [rest, marked]; rfl, by rw [rest, marked]; rfl, by rw [rest, marked]; rfl, by rw [rest, marked]; rfl,
      by rw [rest, marked]; rfl, by rw [rest, marked]; rfl⟩
    · rw [kept, hangers, if_pos rfl]
      rfl
    · unfold KeepsSettings
      rw [rest, marked]
      exact ⟨rfl, rfl, rfl, rfl, rfl, rfl, rfl, rfl, rfl⟩
    · exact (kept tag').trans ((hangers tag').trans (if_neg hne))

end Sys2Proof.Machine
end

