-- ==== Sys2Proof/Proofs/Ledger.lean ====
section
/-! PROOFS. What the agreement of hangers, moves and gantries (R33, R35, R101 to R103, R131, R139, R147) reads of a state, on its own:
of each hanger its state, phase and place, of each move what the slots read of it too, of each gantry its link state and what it
holds, and whether the line is IDLE. An event is described once by what it does to this ledger. -/

namespace Sys2Proof.Machine

/-! ### The ledger of a state -/

structure HangerView where
  state : HangerState
  phase : Option TransitPhase
  location : Location

structure GantryView where
  link : LinkState
  granted : Option Nat
  hold : Option StrandedHold

structure Ledger where
  tags : List Nat
  hanger? : Nat → Option HangerView
  moves : List MoveCore
  gantry : GantryId → GantryView
  idle : Prop

def Hanger.view (h : Hanger) : HangerView := { state := h.state, phase := h.phase, location := h.location }

def Gantry.view (r : Gantry) : GantryView := { link := r.link, granted := r.granted, hold := r.hold }

def State.ledger (s : State) : Ledger :=
  { tags := s.tags, hanger? := fun tag => (s.hanger? tag).map Hanger.view, moves := s.moves.map Move.core,
    gantry := fun g => (s.gantry g).view, idle := s.mode = .idle }

/-- R101, R148: the fields of a move by its kind and its state. -/
structure MoveCore.Fits (m : MoveCore) : Prop where
  yields : m.yields = true → m.tag = none ∧ (∃ x, m.dest = some (.point x)) ∧ m.gantry ≠ none ∧ (m.state = .ready ∨ m.state = .granted)
  others : m.yields = false → m.tag ≠ none ∧ (∀ x, m.dest ≠ some (.point x)) ∧ (¬ m.InWork → m.gantry = none)
  leads : m.InWork → m.dest ≠ none
  limits : ¬ m.InWork → m.limited = false

/-- R101: the YIELD moves carry no tag. -/
theorem MoveCore.Fits.not_yields {m : MoveCore} {tag : Nat} (hf : m.Fits) (ht : m.tag = some tag) : m.yields = false := by
  by_contra hn
  rw [(hf.yields (by simpa using hn)).1] at ht
  cases ht

theorem Move.core_fits (m : Move) : m.core.Fits ↔ m.Fits := by
  have yields : m.core.yields = true ↔ m.kind = .yielding := by simp [Move.core]
  have others : m.core.yields = false ↔ m.kind ≠ .yielding := by simp [Move.core]
  have limited : m.core.limited = false ↔ m.limit = none := by simp [Move.core]
  have state : m.kind = .yielding → m.core.state = m.state := fun h => if_neg (fun h' => h'.1 h)
  constructor
  · rintro ⟨h1, h2, h3, h4⟩
    rw [Move.core_inWork] at h3 h4
    rw [others, Move.core_inWork] at h2
    refine ⟨fun hk => ?_, h2, h3, fun hw => limited.1 (h4 hw)⟩
    rw [← state hk]
    exact h1 (yields.2 hk)
  · rintro ⟨h1, h2, h3, h4⟩
    refine ⟨fun hk => ?_, ?_, ?_, ?_⟩
    · rw [state (yields.1 hk)]
      exact h1 (yields.1 hk)
    · rw [others, Move.core_inWork]
      exact h2
    · rw [Move.core_inWork]
      exact h3
    · rw [limited, Move.core_inWork]
      exact h4

namespace Ledger

/-- R35, R102: the move of a hanger that has not been placed. -/
def move? (c : Ledger) (tag : Nat) : Option MoveCore := c.moves.find? (fun m => m.tag == some tag && m.state != .placed)

theorem move_tag {c : Ledger} {tag : Nat} {m : MoveCore} (hm : c.move? tag = some m) : m.tag = some tag ∧ m.state ≠ .placed := by
  simpa using List.find?_some hm

theorem move_mem {c : Ledger} {tag : Nat} {m : MoveCore} (hm : c.move? tag = some m) : m ∈ c.moves :=
  List.mem_of_find?_eq_some hm

theorem move_none {c : Ledger} {tag : Nat} : c.move? tag = none ↔ ∀ m ∈ c.moves, m.tag = some tag → m.state = .placed := by
  unfold move?
  rw [List.find?_eq_none]
  simp

/-- R35: what the state of a hanger fixes of its phase, its place and its move. -/
def Bears (c : Ledger) (tag : Nat) (h : HangerView) : Prop :=
  match h.state with
  | .loaded => h.phase = none ∧ (∃ r, h.location = .slot r) ∧ ∃ m, c.move? tag = some m ∧ ¬ m.InWork
  | .immersed => h.phase = none ∧ (∃ r, h.location = .slot r) ∧ ∃ m, c.move? tag = some m ∧ ¬ m.InWork
  | .rescued => h.phase = none ∧ (∃ r, h.location = .slot r) ∧ ∃ m, c.move? tag = some m ∧ (m.InWork → m.state = .granted)
  | .inTransit => ∃ m, c.move? tag = some m
    ∧ ((h.phase = some .granted ∧ m.state = .granted ∧ ∃ r, h.location = .slot r)
      ∨ (h.phase = some .carried ∧ m.state = .carried ∧ ∃ g, h.location = .gantry g ∧ m.gantry = some g))
  | .stranded => c.move? tag = none ∧ h.phase = none
    ∧ ∃ g x, h.location = .gantry g ∧ (c.gantry g).hold = some x ∧ x.tag = tag
  | .done => c.move? tag = none ∧ h.phase = none ∧ ∃ r, h.location = .slot r
  | .aborted => c.move? tag = none ∧ h.phase = none ∧ ∃ r, h.location = .slot r

/-- What a hanger bears is read of its tag's move and of the stranded holds. -/
theorem Bears.congr {c c' : Ledger} {tag : Nat} {h : HangerView} (hb : c.Bears tag h) (hm : c'.move? tag = c.move? tag)
    (hg : ∀ g x, (c.gantry g).hold = some x → x.tag = tag → (c'.gantry g).hold = some x) : c'.Bears tag h := by
  unfold Bears at *
  rw [hm]
  split at hb
  case h_5 e =>
    obtain ⟨h1, h2, g, x, h3, h4, h5⟩ := hb
    exact ⟨h1, h2, g, x, h3, hg g x h4 h5, h5⟩
  all_goals exact hb

/-- The agreement of the ledger, but for a move in work `out` that no gantry need hold, and but for what the hanger of tag `away`
bears. -/
structure AgreesBut (c : Ledger) (out away : Option Nat) : Prop where
  tags : c.tags.Nodup
  count : c.tags.length ≤ 32
  listed : ∀ t, c.hanger? t ≠ none ↔ t ∈ c.tags
  ids : (c.moves.map MoveCore.id).Nodup
  sole : ∀ m ∈ c.moves, ∀ m' ∈ c.moves, ∀ t, m.tag = some t → m'.tag = some t → m.state ≠ .placed → m'.state ≠ .placed → m = m'
  fits : ∀ m ∈ c.moves, m.Fits
  live : ∀ m ∈ c.moves, m.state ≠ .placed → ∀ t, m.tag = some t → c.hanger? t ≠ none
  works : ∀ m ∈ c.moves, m.InWork → out ≠ some m.id → ∃ g, m.gantry = some g ∧ (c.gantry g).granted = some m.id
  bears : ∀ t h, c.hanger? t = some h → away ≠ some t → c.Bears t h
  busy : ∀ g, (c.gantry g).link = .busy ↔ (c.gantry g).granted ≠ none
  grants : ∀ g id, (c.gantry g).granted = some id → ∃ m ∈ c.moves, m.id = id ∧ m.InWork ∧ m.gantry = some g
  owns : ∀ g, ∀ m ∈ c.moves, m.yields = true → m.state = .ready → m.gantry = some g → (c.gantry g).link = .ready
    ∧ ∀ m' ∈ c.moves, m'.yields = true → m'.state = .ready → m'.gantry = some g → m' = m
  holds : ∀ g x, (c.gantry g).hold = some x → ((c.gantry g).link = .faulted ∨ (c.gantry g).link = .offline)
    ∧ ∃ h, c.hanger? x.tag = some h ∧ h.state = .stranded ∧ h.location = .gantry g
  rests : c.idle → ∀ g, (c.gantry g).link ≠ .busy

abbrev Agrees (c : Ledger) : Prop := c.AgreesBut none none

variable {c : Ledger} {out away : Option Nat}

theorem AgreesBut.same_move (hc : c.AgreesBut out away) {m x : MoveCore} (hm : m ∈ c.moves) (hx : x ∈ c.moves) (e : x.id = m.id) :
    x = m := List.inj_on_of_nodup_map hc.ids hx hm e

theorem AgreesBut.move_of_mem (hc : c.AgreesBut out away) {m : MoveCore} {tag : Nat} (hm : m ∈ c.moves) (ht : m.tag = some tag)
    (hp : m.state ≠ .placed) : c.move? tag = some m := by
  cases hf : c.move? tag with
  | none => exact absurd (move_none.1 hf m hm ht) hp
  | some m' => rw [hc.sole m' (move_mem hf) m hm tag (move_tag hf).1 ht (move_tag hf).2 hp]

/-- R147: a stranded hold names a STRANDED hanger. -/
theorem AgreesBut.unheld (hc : c.AgreesBut out away) {tag : Nat} {h : HangerView} (hh : c.hanger? tag = some h)
    (hs : h.state ≠ .stranded) (g : GantryId) (x : StrandedHold) (hx : (c.gantry g).hold = some x) : x.tag ≠ tag := by
  rintro rfl
  obtain ⟨-, y, hy, hst, -⟩ := hc.holds g x hx
  rw [hh] at hy; cases hy
  exact hs hst

/-- A hanger is exempt from now on. -/
theorem AgreesBut.spare (hc : c.AgreesBut out none) (tag : Option Nat) : c.AgreesBut out tag :=
  { hc with bears := fun t h ht _ => hc.bears t h ht (by simp) }

/-- A move is exempt from now on. -/
theorem AgreesBut.loosen (hc : c.AgreesBut none away) (id : Option Nat) : c.AgreesBut id away :=
  { hc with works := fun m hm hw _ => hc.works m hm hw (by simp) }

/-- An exempt hanger bears what its state asks for. -/
theorem AgreesBut.close {tag : Nat} (hc : c.AgreesBut out (some tag)) (hb : ∀ h, c.hanger? tag = some h → c.Bears tag h) :
    c.AgreesBut out none := by
  refine { hc with bears := fun t h ht _ => ?_ }
  by_cases e : tag = t
  · subst e; exact hb h ht
  · exact hc.bears t h ht (by simpa using e)

/-- An exempt move is held by its gantry, or is not in work. -/
theorem AgreesBut.tighten {id : Nat} (hc : c.AgreesBut (some id) away)
    (hw : ∀ m ∈ c.moves, m.id = id → m.InWork → ∃ g, m.gantry = some g ∧ (c.gantry g).granted = some id) :
    c.AgreesBut none away := by
  refine { hc with works := fun m hm h _ => ?_ }
  by_cases e : m.id = id
  · obtain ⟨g, hg, hid⟩ := hw m hm e h
    exact ⟨g, hg, by rw [e]; exact hid⟩
  · exact hc.works m hm h (by simpa using Ne.symm e)

end Ledger

/-! ### The agreement read off the ledger -/

theorem State.ledger_move (s : State) (tag : Nat) : s.ledger.move? tag = (s.hangerMove? tag).map Move.core := State.core_move s tag

theorem State.mem_tags {s : State} {t : Nat} : t ∈ s.tags ↔ s.hanger? t ≠ none := by
  unfold State.tags State.hanger?
  rw [ne_eq, List.find?_eq_none, List.mem_map]
  simp

/-- What a hanger bears is what R35 asks of it. -/
theorem State.bears_iff (s : State) (h : Hanger) :
    s.ledger.Bears h.tag h.view ↔ HangerAgrees s h := by
  unfold Ledger.Bears HangerAgrees
  rw [State.ledger_move]
  have state : h.view.state = h.state := rfl
  have phase : h.view.phase = h.phase := rfl
  have location : h.view.location = h.location := rfl
  rw [state, phase, location]
  have gone : (s.hangerMove? h.tag).map Move.core = none ↔ s.hangerMove? h.tag = none := Option.map_eq_none_iff
  have found : ∀ P : MoveCore → Prop, (∃ m, (s.hangerMove? h.tag).map Move.core = some m ∧ P m)
      ↔ ∃ m, s.hangerMove? h.tag = some m ∧ P m.core := by
    intro P
    constructor
    · rintro ⟨m, hm, hp⟩
      obtain ⟨x, hx, rfl⟩ := Option.map_eq_some_iff.1 hm
      exact ⟨x, hx, hp⟩
    · rintro ⟨m, hm, hp⟩
      exact ⟨m.core, by rw [hm]; rfl, hp⟩
  have same : ∀ (m : Move) (x : MoveState), x ≠ .waiting → x ≠ .ready → (m.core.state = x ↔ m.state = x) := by
    intro m x h1 h2
    unfold Move.core
    dsimp only
    split
    · rename_i hw
      rw [hw.2]
      exact ⟨fun e => absurd e.symm h2, fun e => absurd e.symm h1⟩
    · rfl
  have granted : ∀ m : Move, m.core.state = .granted ↔ m.state = .granted := fun m => same m _ (by decide) (by decide)
  have carried : ∀ m : Move, m.core.state = .carried ↔ m.state = .carried := fun m => same m _ (by decide) (by decide)
  simp only [found, gone, Move.core_inWork]
  simp only [granted, carried]
  cases h.state <;> rfl

theorem agrees_of_movesAgree {s : State} (hs : MovesAgree s) : s.ledger.Agrees := by
  have keyed := keyed_of_movesAgree hs
  obtain ⟨htags, hcount, hids, hmoves, hhangers, hgantries, hidle⟩ := hs
  refine { tags := htags, count := by simpa [State.ledger, State.tags] using hcount, listed := fun t => ?_,
           ids := by simpa [State.ledger, Function.comp_def, Move.core] using hids, sole := keyed.sole, fits := ?_, live := ?_,
           works := ?_, bears := ?_, busy := fun g => (hgantries g).1, grants := ?_, owns := ?_, holds := ?_, rests := hidle }
  · rw [show s.ledger.tags = s.tags from rfl, State.mem_tags]
    exact not_congr Option.map_eq_none_iff
  · intro m hm
    obtain ⟨x, hx, rfl⟩ := List.mem_map.1 hm
    exact (Move.core_fits x).2 (hmoves x hx).1
  · intro m hm hp t ht
    obtain ⟨x, hx, rfl⟩ := List.mem_map.1 hm
    obtain ⟨⟨h, hh⟩, -⟩ := (hmoves x hx).2.2 (fun e => hp ((Move.core_placed x).2 e)) t ht
    show (s.hanger? t).map _ ≠ none
    rw [hh]; simp
  · intro m hm hw _
    obtain ⟨x, hx, rfl⟩ := List.mem_map.1 hm
    exact (hmoves x hx).2.1 ((Move.core_inWork x).1 hw)
  · intro t y hy _
    obtain ⟨h, hh, rfl⟩ := Option.map_eq_some_iff.1 hy
    obtain ⟨hmem, rfl⟩ := State.mem_of_hanger hh
    exact (State.bears_iff s h).2 (hhangers h hmem)
  · intro g id hg
    obtain ⟨m, hm, hid, hw, hmg⟩ := (hgantries g).2.1 id hg
    exact ⟨m.core, List.mem_map_of_mem hm, hid, (Move.core_inWork m).2 hw, hmg⟩
  · intro g m hm hy hst hmg
    have ready : ∀ x : Move, x.core.yields = true → x.core.state = .ready → x.kind = .yielding ∧ x.state = .ready := by
      intro x hk hr
      have kind : x.kind = .yielding := by simpa [Move.core] using hk
      have e : x.core.state = x.state := if_neg (fun h => h.1 kind)
      exact ⟨kind, by rw [← e]; exact hr⟩
    obtain ⟨x, hx, rfl⟩ := List.mem_map.1 hm
    obtain ⟨h1, h2⟩ := ready x hy hst
    obtain ⟨h3, h4⟩ := (hgantries g).2.2.1 x hx h1 h2 hmg
    refine ⟨h3, fun m' hm' hy' hst' hmg' => ?_⟩
    obtain ⟨x', hx', rfl⟩ := List.mem_map.1 hm'
    obtain ⟨h5, h6⟩ := ready x' hy' hst'
    rw [h4 x' hx' h5 h6 hmg']
  · intro g x hx
    obtain ⟨h1, h, hh, hst, hl⟩ := (hgantries g).2.2.2 x hx
    exact ⟨h1, h.view, by show (s.hanger? x.tag).map _ = _; rw [hh]; rfl, hst, hl⟩

theorem movesAgree_of_agrees {s : State} (hs : s.ledger.Agrees) : MovesAgree s := by
  have ids : (s.moves.map Move.id).Nodup := by simpa [State.ledger, Function.comp_def, Move.core] using hs.ids
  have mem : ∀ {m : Move}, m ∈ s.moves → m.core ∈ s.ledger.moves := fun h => List.mem_map_of_mem h
  have same : ∀ {m m' : Move}, m ∈ s.moves → m' ∈ s.moves → m'.core = m.core → m' = m := fun hm hm' e =>
    List.inj_on_of_nodup_map ids hm' hm (congrArg MoveCore.id e)
  have live : ∀ {t : Nat} {y : HangerView}, s.ledger.hanger? t = some y → ∃ h, s.hanger? t = some h ∧ h.view = y :=
    fun h => Option.map_eq_some_iff.1 h
  refine ⟨hs.tags, by simpa [State.ledger, State.tags] using hs.count, ids, fun m hm => ⟨(Move.core_fits m).1 (hs.fits _ (mem hm)),
    fun hw => hs.works _ (mem hm) ((Move.core_inWork m).2 hw) (by simp), fun hp t ht => ?_⟩, fun h hh => ?_, fun g => ?_, hs.rests⟩
  · have hp' : m.core.state ≠ .placed := fun e => hp ((Move.core_placed m).1 e)
    obtain ⟨y, hy⟩ := Option.ne_none_iff_exists'.1 (hs.live _ (mem hm) hp' t ht)
    obtain ⟨h, hh, -⟩ := live hy
    have found := hs.move_of_mem (mem hm) ht hp'
    rw [State.ledger_move] at found
    obtain ⟨m', hm', e⟩ := Option.map_eq_some_iff.1 found
    exact ⟨⟨h, hh⟩, by rw [hm', same hm (State.mem_of_hangerMove hm').1 e]⟩
  · have found : s.hanger? h.tag = some h := by
      cases hf : s.hanger? h.tag with
      | none => exact absurd hf (State.mem_tags.1 (List.mem_map_of_mem hh))
      | some h' =>
        obtain ⟨h1, h2⟩ := State.mem_of_hanger hf
        rw [List.inj_on_of_nodup_map hs.tags h1 hh h2]
    exact (State.bears_iff s h).1 (hs.bears h.tag h.view (by show (s.hanger? h.tag).map _ = _; rw [found]; rfl) (by simp))
  · refine ⟨hs.busy g, fun id hg => ?_, fun m hm hk hst hmg => ?_, fun x hx => ?_⟩
    · obtain ⟨y, hy, hid, hw, hyg⟩ := hs.grants g id hg
      obtain ⟨m, hm, rfl⟩ := List.mem_map.1 hy
      exact ⟨m, hm, hid, (Move.core_inWork m).1 hw, hyg⟩
    · have core : ∀ x : Move, x.kind = .yielding → x.state = .ready → x.core.yields = true ∧ x.core.state = .ready := by
        intro x hk hst
        exact ⟨by simp [Move.core, hk], by simp [Move.core, hk, hst]⟩
      obtain ⟨h1, h2⟩ := core m hk hst
      obtain ⟨h3, h4⟩ := hs.owns g _ (mem hm) h1 h2 hmg
      refine ⟨h3, fun m' hm' hk' hst' hmg' => ?_⟩
      obtain ⟨h5, h6⟩ := core m' hk' hst'
      exact same hm hm' (h4 _ (mem hm') h5 h6 hmg')
    · obtain ⟨h1, y, hy, hst, hl⟩ := hs.holds g x hx
      obtain ⟨h, hh, rfl⟩ := live hy
      exact ⟨h1, h, hh, hst, hl⟩

end Sys2Proof.Machine
end

