-- ==== Sys2Proof/Proofs/LedgerOps.lean ====
section
/-! PROOFS. The operations on the ledger, and what each keeps of the agreement: an operation that touches one hanger, one move or one
gantry keeps all that is said of the others. -/

namespace Sys2Proof.Machine

/-- What a move stands for: its hanger while it is not in work, and else its gantry. -/
def MoveCore.seat (m : MoveCore) : Nat ⊕ GantryId :=
  match m.tag, m.state with
  | some t, .waiting => .inl t
  | some t, .ready => .inl t
  | _, _ => .inr (m.gantry.getD .a)

namespace Ledger

/-! ### The operations -/

def modHanger (c : Ledger) (tag : Nat) (f : HangerView → HangerView) : Ledger :=
  { c with hanger? := fun t => if t = tag then (c.hanger? tag).map f else c.hanger? t }

def addHanger (c : Ledger) (tag : Nat) (h : HangerView) : Ledger :=
  { c with tags := c.tags ++ [tag], hanger? := fun t => if t = tag then some h else c.hanger? t }

def dropHanger (c : Ledger) (tag : Nat) : Ledger :=
  { c with tags := c.tags.filter (fun t => t != tag), hanger? := fun t => if t = tag then none else c.hanger? t }

def modMove (c : Ledger) (id : Nat) (f : MoveCore → MoveCore) : Ledger :=
  { c with moves := c.moves.map (fun m => if m.id = id then f m else m) }

def addMove (c : Ledger) (m : MoveCore) : Ledger := { c with moves := c.moves ++ [m] }

def filterMoves (c : Ledger) (p : MoveCore → Bool) : Ledger := { c with moves := c.moves.filter p }

/-- R108, R139: a move goes, and with it the YIELD moves made for it that are not granted. -/
def removeMove (c : Ledger) (id : Nat) : Ledger :=
  c.filterMoves (fun m => m.id != id && !(m.yields && m.state == .ready && m.blocked == some id))

/-- The move of a hanger goes. -/
def removeMoveOf (c : Ledger) (tag : Nat) : Ledger :=
  match c.move? tag with
  | some m => c.removeMove m.id
  | none => c

/-- R131: the YIELD move of a gantry that is not granted goes. -/
def dropYield (c : Ledger) (g : GantryId) : Ledger :=
  c.filterMoves (fun m => !(m.yields && m.state == .ready && m.gantry == some g))

def setGantry (c : Ledger) (g : GantryId) (v : GantryView) : Ledger :=
  { c with gantry := fun g' => if g' = g then v else c.gantry g' }

/-- R147: the stranded holds of a tag end. -/
def clearHold (c : Ledger) (tag : Nat) : Ledger :=
  { c with gantry := fun g => { c.gantry g with hold := (c.gantry g).hold.filter (fun x => x.tag != tag) } }

variable {c : Ledger} {out away : Option Nat} {tag : Nat}

/-! ### Hangers -/

theorem hanger_modHanger_self {f : HangerView → HangerView} {h : HangerView} (hh : c.hanger? tag = some h) :
    (c.modHanger tag f).hanger? tag = some (f h) := by
  show (if tag = tag then (c.hanger? tag).map f else _) = _
  rw [if_pos rfl, hh]; rfl

theorem hanger_modHanger_other {f : HangerView → HangerView} {t : Nat} (ht : t ≠ tag) :
    (c.modHanger tag f).hanger? t = c.hanger? t := if_neg ht

theorem AgreesBut.modHanger (hc : c.AgreesBut out (some tag)) (hu : ∀ g x, (c.gantry g).hold = some x → x.tag ≠ tag)
    (f : HangerView → HangerView) : (c.modHanger tag f).AgreesBut out (some tag) := by
  have there : ∀ t, (c.modHanger tag f).hanger? t ≠ none ↔ c.hanger? t ≠ none := by
    intro t
    by_cases e : t = tag
    · subst e
      show (if t = t then (c.hanger? t).map f else _) ≠ none ↔ _
      rw [if_pos rfl, ne_eq, Option.map_eq_none_iff]
    · rw [hanger_modHanger_other e]
  refine { hc with listed := fun t => (there t).trans (hc.listed t), live := fun m hm hp t ht => (there t).2 (hc.live m hm hp t ht),
                   bears := fun t h ht ha => ?_, holds := fun g x hx => ?_ }
  · rw [hanger_modHanger_other (fun e => ha (by rw [e]))] at ht
    exact (hc.bears t h ht ha).congr rfl (fun _ _ h _ => h)
  · rw [hanger_modHanger_other (hu g x hx)]
    exact hc.holds g x hx

/-- A hanger of a new tag, which no move bears. -/
theorem AgreesBut.addHanger (hc : c.AgreesBut out none) (hn : c.hanger? tag = none) (hl : c.tags.length < 32) (h : HangerView) :
    (c.addHanger tag h).AgreesBut out (some tag) := by
  have new : tag ∉ c.tags := fun e => (hc.listed tag).2 e hn
  have other : ∀ {t}, t ≠ tag → (c.addHanger tag h).hanger? t = c.hanger? t := fun e => if_neg e
  refine { hc with tags := ?_, count := ?_, listed := fun t => ?_, live := fun m hm hp t ht => ?_,
                   bears := fun t x ht ha => ?_, holds := fun g x hx => ?_ }
  · exact List.nodup_append.2 ⟨hc.tags, by simp, fun a ha b hb e => new (by rw [← List.mem_singleton.1 hb, ← e]; exact ha)⟩
  · show (c.tags ++ [tag]).length ≤ 32
    simp; omega
  · show (if t = tag then some h else c.hanger? t) ≠ none ↔ t ∈ c.tags ++ [tag]
    by_cases e : t = tag
    · simp [e]
    · simpa [e] using hc.listed t
  · show (if t = tag then some h else c.hanger? t) ≠ none
    split
    · simp
    · exact hc.live m hm hp t ht
  · have e : t ≠ tag := fun e => ha (by rw [e])
    rw [other e] at ht
    exact (hc.bears t x ht (by simp)).congr rfl (fun _ _ h _ => h)
  · obtain ⟨h1, y, hy, h2⟩ := hc.holds g x hx
    rw [other (fun e => by rw [e, hn] at hy; cases hy)]
    exact ⟨h1, y, hy, h2⟩

/-- R56: the record of a hanger that has no move goes. -/
theorem AgreesBut.dropHanger (hc : c.AgreesBut out (some tag)) (hm : c.move? tag = none)
    (hu : ∀ g x, (c.gantry g).hold = some x → x.tag ≠ tag) : (c.dropHanger tag).AgreesBut out none := by
  have other : ∀ {t}, t ≠ tag → (c.dropHanger tag).hanger? t = c.hanger? t := fun e => if_neg e
  refine { hc with tags := hc.tags.filter _, count := (List.length_filter_le _ _).trans hc.count, listed := fun t => ?_,
                   live := fun m hm' hp t ht => ?_, bears := fun t x ht _ => ?_, holds := fun g x hx => ?_ }
  · show (if t = tag then none else c.hanger? t) ≠ none ↔ t ∈ c.tags.filter (fun t => t != tag)
    rw [List.mem_filter, ← hc.listed t]
    by_cases e : t = tag <;> simp [e]
  · rw [other (fun e => hp (move_none.1 hm m hm' (by rw [ht, e])))]
    exact hc.live m hm' hp t ht
  · have e : t ≠ tag := by
      rintro rfl
      have ht' : (if t = t then none else c.hanger? t) = some x := ht
      rw [if_pos rfl] at ht'; cases ht'
    rw [other e] at ht
    exact (hc.bears t x ht (by simpa using Ne.symm e)).congr rfl (fun _ _ h _ => h)
  · rw [other (hu g x hx)]
    exact hc.holds g x hx

/-! ### Moves -/

/-- A filter keeps the move of a hanger, or drops it. -/
theorem AgreesBut.move_filterMoves (hc : c.AgreesBut out away) (p : MoveCore → Bool) (t : Nat) :
    (c.filterMoves p).move? t = (c.move? t).filter p :=
  Core.Keyed.move_filterMoves
    (c := { slot := fun _ => .free, strict := fun _ => False, hold := fun _ => none, hangers := [], moves := c.moves })
    ⟨by simp, hc.sole⟩ p t

/-- Moves go that no gantry holds, and of hangers only placed ones and those of the tag that is exempt. -/
theorem AgreesBut.filterMoves (hc : c.AgreesBut out away) {p : MoveCore → Bool}
    (hg : ∀ m ∈ c.moves, p m = false → ∀ g, (c.gantry g).granted ≠ some m.id)
    (ht : ∀ m ∈ c.moves, p m = false → m.state = .placed ∨ m.tag = none ∨ m.tag = away) :
    (c.filterMoves p).AgreesBut out away := by
  have sub : ∀ m ∈ (c.filterMoves p).moves, m ∈ c.moves := fun m hm => List.mem_of_mem_filter hm
  refine { hc with ids := hc.ids.sublist (List.filter_sublist.map _), sole := fun m hm m' hm' => hc.sole m (sub m hm) m' (sub m' hm'),
                   fits := fun m hm => hc.fits m (sub m hm), live := fun m hm => hc.live m (sub m hm),
                   works := fun m hm => hc.works m (sub m hm), bears := fun t h hh ha => ?_, grants := fun g id hid => ?_,
                   owns := fun g m hm hy hs hmg => ?_ }
  · refine (hc.bears t h hh ha).congr ?_ (fun _ _ h _ => h)
    rw [hc.move_filterMoves]
    cases hm : c.move? t with
    | none => rfl
    | some m =>
      rw [Option.filter_some, if_pos]
      by_contra hp
      obtain ⟨h1, h2⟩ := move_tag hm
      rcases ht m (move_mem hm) (by simpa using hp) with e | e | e
      · exact h2 e
      · rw [e] at h1; cases h1
      · exact ha (by rw [← e, h1])
  · obtain ⟨m, hm, h1, h2⟩ := hc.grants g id hid
    refine ⟨m, List.mem_filter.2 ⟨hm, ?_⟩, h1, h2⟩
    by_contra hp
    exact hg m hm (by simpa using hp) g (by rw [h1]; exact hid)
  · obtain ⟨h1, h2⟩ := hc.owns g m (sub m hm) hy hs hmg
    exact ⟨h1, fun m' hm' => h2 m' (sub m' hm')⟩

/-- A gantry holds no move that is not in work. -/
theorem AgreesBut.not_granted (hc : c.AgreesBut out away) {m : MoveCore} (hm : m ∈ c.moves) (hw : ¬ m.InWork) (g : GantryId) :
    (c.gantry g).granted ≠ some m.id := by
  intro e
  obtain ⟨m', hm', hid, hw', -⟩ := hc.grants g _ e
  rw [hc.same_move hm hm' hid] at hw'
  exact hw hw'

/-- R108, R139: YIELD moves that are not granted go. -/
theorem AgreesBut.prune (hc : c.AgreesBut out away) (q : MoveCore → Bool) :
    (c.filterMoves (fun m => !(m.yields && m.state == .ready && q m))).AgreesBut out away := by
  have yields : ∀ m : MoveCore, (!(m.yields && m.state == .ready && q m)) = false → m.yields = true ∧ m.state = .ready := by
    intro m h
    simp only [Bool.not_eq_false', Bool.and_eq_true, beq_iff_eq] at h
    exact h.1
  refine hc.filterMoves (fun m hm hp g => ?_) (fun m hm hp => Or.inr (Or.inl ((hc.fits m hm).yields (yields m hp).1).1))
  refine hc.not_granted hm ?_ g
  rintro (e | e | e) <;> rw [(yields m hp).2] at e <;> cases e

/-- A move goes that no gantry holds: a YIELD move, a placed move or the move of the exempt hanger. -/
theorem AgreesBut.removeMove (hc : c.AgreesBut out away) {m : MoveCore} (hm : m ∈ c.moves)
    (hg : ∀ g, (c.gantry g).granted ≠ some m.id) (ht : m.state = .placed ∨ m.tag = none ∨ m.tag = away) :
    (c.removeMove m.id).AgreesBut out away := by
  have pruned := hc.prune (fun x => x.blocked == some m.id)
  have split : c.removeMove m.id = (c.filterMoves (fun x => !(x.yields && x.state == .ready && x.blocked == some m.id))).filterMoves
      (fun x => x.id != m.id) := by
    unfold Ledger.removeMove Ledger.filterMoves
    dsimp only
    rw [List.filter_filter]
  rw [split]
  have same : ∀ x ∈ c.moves, (x.id != m.id) = false → x = m := fun x hx e => hc.same_move hm hx (by simpa using e)
  refine pruned.filterMoves (fun x hx e g => ?_) (fun x hx e => ?_)
  · rw [same x (List.mem_of_mem_filter hx) e]; exact hg g
  · rw [same x (List.mem_of_mem_filter hx) e]; exact ht

/-- What is left when a move has gone is not that move. -/
theorem ne_of_mem_removeMove {id : Nat} {m : MoveCore} (hm : m ∈ (c.removeMove id).moves) : m.id ≠ id := by
  have := (List.mem_filter.1 hm).2
  simp only [Bool.and_eq_true, bne_iff_ne] at this
  exact this.1

/-- A move that its gantry gave up has gone. -/
theorem AgreesBut.removeMove_out {id : Nat} (hc : (c.removeMove id).AgreesBut (some id) away) :
    (c.removeMove id).AgreesBut none away :=
  hc.tighten (fun _ hm e => absurd e (ne_of_mem_removeMove hm))

theorem AgreesBut.move_removeMove (hc : c.AgreesBut out away) {m : MoveCore} (hm : c.move? tag = some m) :
    (c.removeMove m.id).move? tag = none := by
  unfold Ledger.removeMove
  rw [hc.move_filterMoves, hm, Option.filter_some, if_neg]
  simp

/-- The move of the exempt hanger, when it is not in work, goes. -/
theorem AgreesBut.removeMoveOf (hc : c.AgreesBut out (some tag)) (hi : ∀ m, c.move? tag = some m → ¬ m.InWork) :
    (c.removeMoveOf tag).AgreesBut out (some tag) ∧ (c.removeMoveOf tag).move? tag = none := by
  unfold Ledger.removeMoveOf
  split
  · rename_i m hm
    obtain ⟨ht, -⟩ := move_tag hm
    exact ⟨hc.removeMove (move_mem hm) (hc.not_granted (move_mem hm) (hi m hm)) (Or.inr (Or.inr ht)), hc.move_removeMove hm⟩
  · exact ⟨hc, by assumption⟩

/-- A removal changes the moves alone. -/
theorem removeMoveOf_fields (c : Ledger) (tag : Nat) :
    (c.removeMoveOf tag).hanger? = c.hanger? ∧ (c.removeMoveOf tag).gantry = c.gantry ∧ (c.removeMoveOf tag).tags = c.tags := by
  unfold Ledger.removeMoveOf
  split <;> exact ⟨rfl, rfl, rfl⟩

theorem ids_modMove (id : Nat) {f : MoveCore → MoveCore} (hf : ∀ m, (f m).id = m.id) :
    (c.modMove id f).moves.map MoveCore.id = c.moves.map MoveCore.id := by
  unfold Ledger.modMove
  rw [List.map_map]
  refine List.map_congr_left (fun x _ => ?_)
  show (if x.id = id then f x else x).id = x.id
  split
  · exact hf x
  · rfl

/-- After a change of one move each move is as it was but that one. -/
theorem AgreesBut.mem_modMove (hc : c.AgreesBut out away) {m x : MoveCore} {f : MoveCore → MoveCore} (hm : m ∈ c.moves) :
    x ∈ (c.modMove m.id f).moves → (x ∈ c.moves ∧ x.id ≠ m.id) ∨ x = f m := by
  intro hx
  obtain ⟨y, hy, rfl⟩ := List.mem_map.1 hx
  by_cases e : y.id = m.id
  · rw [if_pos e, hc.same_move hm hy e]; exact Or.inr rfl
  · rw [if_neg e]; exact Or.inl ⟨hy, e⟩

theorem mem_modMove_self {m : MoveCore} (f : MoveCore → MoveCore) (hm : m ∈ c.moves) : f m ∈ (c.modMove m.id f).moves :=
  List.mem_map.2 ⟨m, hm, if_pos rfl⟩

theorem mem_modMove_other {m : MoveCore} {id : Nat} (f : MoveCore → MoveCore) (hm : m ∈ c.moves) (hid : m.id ≠ id) :
    m ∈ (c.modMove id f).moves := List.mem_map.2 ⟨m, hm, if_neg hid⟩

/-- A move changes but for its tag: its gantry, when it holds it, holds it still, and it is no YIELD move left to be granted. -/
theorem AgreesBut.modMove {m : MoveCore} {f : MoveCore → MoveCore} (hc : c.AgreesBut (some m.id) m.tag) (hm : m ∈ c.moves)
    (hp : m.state ≠ .placed) (hf : ∀ x, (f x).id = x.id) (ht : (f m).tag = m.tag) (hfit : (f m).Fits)
    (hg : ∀ g, (c.gantry g).granted = some m.id → (f m).InWork ∧ (f m).gantry = some g)
    (hy : (f m).yields = true → (f m).state ≠ .ready) : (c.modMove m.id f).AgreesBut (some m.id) m.tag := by
  have split := fun x (hx : x ∈ (c.modMove m.id f).moves) => hc.mem_modMove (f := f) hm hx
  have placed : ∀ t, (f m).tag = some t → m.tag = some t := fun t e => ht ▸ e
  have other : ∀ t, m.tag ≠ some t → (c.modMove m.id f).move? t = c.move? t := by
    intro t hne
    refine Core.move_modMove_other
      (c := { slot := fun _ => .free, strict := fun _ => False, hold := fun _ => none, hangers := [], moves := c.moves })
      (fun x hx e => ?_)
    rw [hc.same_move hm hx e]
    exact ⟨hne, by rw [ht]; exact hne⟩
  refine { hc with ids := by rw [ids_modMove _ hf]; exact hc.ids, sole := fun x hx y hy' t hxt hyt hxp hyp => ?_,
                   fits := fun x hx => ?_, live := fun x hx hxp t hxt => ?_, works := fun x hx hw ho => ?_,
                   bears := fun t h hh ha => ?_, grants := fun g id hid => ?_, owns := fun g x hx hxy hxs hxg => ?_ }
  · rcases split x hx with ⟨hx', hxid⟩ | rfl <;> rcases split y hy' with ⟨hy'', hyid⟩ | rfl
    · exact hc.sole x hx' y hy'' t hxt hyt hxp hyp
    · exact absurd (congrArg MoveCore.id (hc.sole x hx' m hm t hxt (placed t hyt) hxp hp)) hxid
    · exact absurd (congrArg MoveCore.id (hc.sole y hy'' m hm t hyt (placed t hxt) hyp hp)) hyid
    · rfl
  · rcases split x hx with ⟨hx', -⟩ | rfl
    · exact hc.fits x hx'
    · exact hfit
  · rcases split x hx with ⟨hx', -⟩ | rfl
    · exact hc.live x hx' hxp t hxt
    · exact hc.live m hm hp t (placed t hxt)
  · rcases split x hx with ⟨hx', -⟩ | rfl
    · exact hc.works x hx' hw ho
    · exact absurd (congrArg some (hf m).symm) ho
  · exact (hc.bears t h hh ha).congr (other t ha) (fun _ _ h _ => h)
  · obtain ⟨x, hx, h1, h2⟩ := hc.grants g id hid
    by_cases e : x.id = m.id
    · exact ⟨f m, mem_modMove_self f hm, by rw [hf, ← e, h1], hg g (by rw [← e, h1]; exact hid)⟩
    · exact ⟨x, mem_modMove_other f hx e, h1, h2⟩
  · rcases split x hx with ⟨hx', -⟩ | rfl
    · obtain ⟨h1, h2⟩ := hc.owns g x hx' hxy hxs hxg
      refine ⟨h1, fun y hy' hyy hys hyg => ?_⟩
      rcases split y hy' with ⟨hy'', -⟩ | rfl
      · exact h2 y hy'' hyy hys hyg
      · exact absurd hys (hy hyy)
    · exact absurd hxs (hy hxy)

/-- The move of a hanger is placed. -/
theorem AgreesBut.move_placed {m : MoveCore} (hc : c.AgreesBut out away) (hm : c.move? tag = some m) :
    (c.modMove m.id (fun x => { x with state := .placed })).move? tag = none :=
  Core.Keyed.move_placed
    (c := { slot := fun _ => .free, strict := fun _ => False, hold := fun _ => none, hangers := [], moves := c.moves })
    ⟨by simp, hc.sole⟩ hm rfl (fun _ _ _ => ⟨rfl, rfl⟩)

/-- A move is added that is not in work: one of the exempt hanger, which has none, or a YIELD move of a READY gantry that owns none. -/
theorem AgreesBut.addMove (hc : c.AgreesBut out away) {m : MoveCore} (hid : m.id ∉ c.moves.map MoveCore.id) (hf : m.Fits)
    (hw : ¬ m.InWork) (ht : m.tag = away) (hl : ∀ t, away = some t → c.move? t = none ∧ c.hanger? t ≠ none)
    (hy : m.yields = true → ∀ g, m.gantry = some g → (c.gantry g).link = .ready
      ∧ ∀ x ∈ c.moves, x.yields = true → x.state = .ready → x.gantry ≠ some g) : (c.addMove m).AgreesBut out away := by
  have split : ∀ x ∈ (c.addMove m).moves, x ∈ c.moves ∨ x = m := fun x hx => by simpa [Ledger.addMove] using hx
  have mem : ∀ x ∈ c.moves, x ∈ (c.addMove m).moves := fun x hx => List.mem_append_left _ hx
  have absent : ∀ x ∈ c.moves, ∀ t, m.tag = some t → x.tag = some t → x.state = .placed := fun x hx t e e' =>
    move_none.1 (hl t (ht ▸ e)).1 x hx e'
  refine { hc with ids := ?_, sole := fun x hx y hy' t hxt hyt hxp hyp => ?_,
                   fits := fun x hx => ?_, live := fun x hx hxp t hxt => ?_, works := fun x hx hw' ho => ?_,
                   bears := fun t h hh ha => ?_, grants := fun g id hid => ?_, owns := fun g x hx hxy hxs hxg => ?_ }
  · unfold Ledger.addMove
    rw [List.map_append, List.nodup_append]
    refine ⟨hc.ids, by simp, fun a ha b hb e => hid ?_⟩
    rw [List.map_singleton, List.mem_singleton] at hb
    rw [← hb, ← e]; exact ha
  · rcases split x hx with hx' | rfl <;> rcases split y hy' with hy'' | rfl
    · exact hc.sole x hx' y hy'' t hxt hyt hxp hyp
    · exact absurd (absent x hx' t hyt hxt) hxp
    · exact absurd (absent y hy'' t hxt hyt) hyp
    · rfl
  · rcases split x hx with hx' | rfl
    · exact hc.fits x hx'
    · exact hf
  · rcases split x hx with hx' | rfl
    · exact hc.live x hx' hxp t hxt
    · exact (hl t (ht ▸ hxt)).2
  · rcases split x hx with hx' | rfl
    · exact hc.works x hx' hw' ho
    · exact absurd hw' hw
  · refine (hc.bears t h hh ha).congr ?_ (fun _ _ h _ => h)
    unfold Ledger.move? Ledger.addMove
    rw [List.find?_append, List.find?_singleton, if_neg, Option.or_none]
    simp [ht, ha]
  · obtain ⟨x, hx, h1⟩ := hc.grants g id hid
    exact ⟨x, mem x hx, h1⟩
  · rcases split x hx with hx' | rfl
    · obtain ⟨h1, h2⟩ := hc.owns g x hx' hxy hxs hxg
      refine ⟨h1, fun y hy' hyy hys hyg => ?_⟩
      rcases split y hy' with hy'' | rfl
      · exact h2 y hy'' hyy hys hyg
      · exact absurd hxg ((hy hyy g hyg).2 x hx' hxy hxs)
    · obtain ⟨h1, h2⟩ := hy hxy g hxg
      refine ⟨h1, fun y hy' hyy hys hyg => ?_⟩
      rcases split y hy' with hy'' | rfl
      · exact absurd hyg (h2 y hy'' hyy hys)
      · rfl

/-! ### Gantries -/

/-- A gantry that holds no move but the exempt one changes its link state and its granted move. -/
theorem AgreesBut.setGantry (hc : c.AgreesBut out away) {g : GantryId} {v : GantryView}
    (hold : v.hold = (c.gantry g).hold) (hb : v.link = .busy ↔ v.granted ≠ none)
    (old : ∀ id, (c.gantry g).granted = some id → out = some id)
    (new : ∀ id, v.granted = some id → ∃ m ∈ c.moves, m.id = id ∧ m.InWork ∧ m.gantry = some g)
    (hs : v.hold ≠ none → v.link = .faulted ∨ v.link = .offline)
    (hy : ∀ m ∈ c.moves, m.yields = true → m.state = .ready → m.gantry = some g → v.link = .ready)
    (hi : c.idle → v.link ≠ .busy) : (c.setGantry g v).AgreesBut out away := by
  have here : (c.setGantry g v).gantry g = v := if_pos rfl
  have other : ∀ {g'}, g' ≠ g → (c.setGantry g v).gantry g' = c.gantry g' := fun e => if_neg e
  have held : ∀ g', ((c.setGantry g v).gantry g').hold = (c.gantry g').hold := by
    intro g'
    by_cases e : g' = g
    · rw [e, here, hold]
    · rw [other e]
  refine { hc with works := fun m hm hw ho => ?_, bears := fun t h hh ha => ?_, busy := fun g' => ?_, grants := fun g' id hid => ?_,
                   owns := fun g' m hm hmy hms hmg => ?_, holds := fun g' x hx => ?_, rests := fun h g' => ?_ }
  · obtain ⟨g', h1, h2⟩ := hc.works m hm hw ho
    refine ⟨g', h1, ?_⟩
    rw [other (fun e => ho (old _ (by rw [← e]; exact h2)))]
    exact h2
  · exact (hc.bears t h hh ha).congr rfl (fun g' _ h _ => by rw [held]; exact h)
  all_goals by_cases e : g' = g
  · subst e; rw [here]; exact hb
  · rw [other e]; exact hc.busy g'
  · subst e
    rw [here] at hid
    exact new id hid
  · rw [other e] at hid; exact hc.grants g' id hid
  · subst e
    rw [here]
    exact ⟨hy m hm hmy hms hmg, (hc.owns g' m hm hmy hms hmg).2⟩
  · rw [other e]; exact hc.owns g' m hm hmy hms hmg
  · subst e
    rw [held] at hx
    rw [here]
    exact ⟨hs (by rw [hold, hx]; simp), (hc.holds g' x hx).2⟩
  · rw [other e] at hx ⊢; exact hc.holds g' x hx
  · subst e; rw [here]; exact hi h
  · rw [other e]; exact hc.rests h g'

/-- R147: a gantry that is out of service holds the exempt hanger, which is stranded on it. -/
theorem AgreesBut.strand (hc : c.AgreesBut out (some tag)) {g : GantryId} {d : SlotRef} {h : HangerView}
    (hn : (c.gantry g).hold = none) (hl : (c.gantry g).link = .faulted ∨ (c.gantry g).link = .offline)
    (hh : c.hanger? tag = some h) (hs : h.state = .stranded) (hg : h.location = .gantry g) :
    (c.setGantry g { c.gantry g with hold := some { tag := tag, dest := d } }).AgreesBut out (some tag) := by
  have here : (c.setGantry g { c.gantry g with hold := some { tag := tag, dest := d } }).gantry g
      = { c.gantry g with hold := some { tag := tag, dest := d } } := if_pos rfl
  have other : ∀ {g'}, g' ≠ g → (c.setGantry g { c.gantry g with hold := some { tag := tag, dest := d } }).gantry g' = c.gantry g' :=
    fun e => if_neg e
  have same : ∀ g', ((c.setGantry g { c.gantry g with hold := some { tag := tag, dest := d } }).gantry g').link = (c.gantry g').link
      ∧ ((c.setGantry g { c.gantry g with hold := some { tag := tag, dest := d } }).gantry g').granted = (c.gantry g').granted := by
    intro g'
    by_cases e : g' = g
    · subst e; rw [here]; exact ⟨rfl, rfl⟩
    · rw [other e]; exact ⟨rfl, rfl⟩
  refine { hc with works := fun m hm hw ho => ?_, bears := fun t y ht ha => ?_, busy := fun g' => ?_, grants := fun g' id hid => ?_,
                   owns := fun g' m hm hmy hms hmg => ?_, holds := fun g' x hx => ?_, rests := fun h g' => ?_ }
  · obtain ⟨g', h1, h2⟩ := hc.works m hm hw ho
    exact ⟨g', h1, by rw [(same g').2]; exact h2⟩
  · refine (hc.bears t y ht ha).congr rfl (fun g' x hx _ => ?_)
    rw [other (fun e => by rw [e, hn] at hx; cases hx)]
    exact hx
  · rw [(same g').1, (same g').2]; exact hc.busy g'
  · rw [(same g').2] at hid; exact hc.grants g' id hid
  · rw [(same g').1]; exact hc.owns g' m hm hmy hms hmg
  · rw [(same g').1]
    by_cases e : g' = g
    · subst e
      rw [here] at hx
      cases hx
      exact ⟨hl, h, hh, hs, hg⟩
    · rw [other e] at hx; exact hc.holds g' x hx
  · rw [(same g').1]; exact hc.rests h g'

/-- R147: the stranded holds of the exempt hanger end. -/
theorem AgreesBut.clearHold (hc : c.AgreesBut out (some tag)) : (c.clearHold tag).AgreesBut out (some tag) := by
  have held : ∀ g x, ((c.clearHold tag).gantry g).hold = some x → (c.gantry g).hold = some x := by
    intro g x hx
    exact (Option.filter_eq_some_iff.1 hx).1
  refine { hc with bears := fun t h hh ha => ?_, holds := fun g x hx => hc.holds g x (held g x hx) }
  refine (hc.bears t h hh ha).congr rfl (fun g x hx ht => Option.filter_eq_some_iff.2 ⟨hx, ?_⟩)
  rw [ht, bne_iff_ne]
  exact fun e => ha (by rw [e])

theorem unheld_clearHold (g : GantryId) (x : StrandedHold) (hx : ((c.clearHold tag).gantry g).hold = some x) : x.tag ≠ tag := by
  simpa using (Option.filter_eq_some_iff.1 hx).2

/-! ### The bound (R103) -/

theorem AgreesBut.seat_cases (hc : c.AgreesBut none away) {m : MoveCore} (hm : m ∈ c.moves) :
    (∃ t, m.seat = .inl t ∧ m.tag = some t ∧ m.state ≠ .placed)
      ∨ ∃ g, m.seat = .inr g ∧ m.gantry = some g ∧ ((c.gantry g).granted = some m.id ∨ (m.yields = true ∧ m.state = .ready)) := by
  have working : m.InWork → m.seat = .inr (m.gantry.getD .a) := by
    unfold MoveCore.seat
    rintro (e | e | e) <;> rw [e] <;> cases m.tag <;> rfl
  by_cases hw : m.InWork
  · obtain ⟨g, h1, h2⟩ := hc.works m hm hw (by simp)
    exact Or.inr ⟨g, by rw [working hw, h1]; rfl, h1, Or.inl h2⟩
  cases ht : m.tag with
  | none =>
    have yields : m.yields = true := by
      by_contra hn
      exact ((hc.fits m hm).others (by simpa using hn)).1 ht
    obtain ⟨-, -, hg, hs⟩ := (hc.fits m hm).yields yields
    obtain ⟨g, h1⟩ := Option.ne_none_iff_exists'.1 hg
    refine Or.inr ⟨g, ?_, h1, Or.inr ⟨yields, hs.resolve_right (fun e => hw (Or.inl e))⟩⟩
    unfold MoveCore.seat
    rw [ht, h1]; rfl
  | some t =>
    refine Or.inl ⟨t, ?_, rfl, fun e => hw (Or.inr (Or.inr e))⟩
    unfold MoveCore.seat
    rw [ht]
    unfold MoveCore.InWork at hw
    cases hs : m.state
    case waiting => rfl
    case ready => rfl
    all_goals simp [hs] at hw

/-- At most one move stands for each live hanger and one for each gantry. -/
theorem AgreesBut.moves_bound (hc : c.AgreesBut none away) : c.moves.length ≤ 34 := by
  have injective : ∀ x ∈ c.moves, ∀ y ∈ c.moves, x.seat = y.seat → x = y := by
    intro x hx y hy e
    rcases hc.seat_cases hx with ⟨t, h1, h2, h3⟩ | ⟨g, h1, h2, h3⟩ <;>
      rcases hc.seat_cases hy with ⟨t', h4, h5, h6⟩ | ⟨g', h4, h5, h6⟩ <;> rw [h1, h4] at e <;> cases e
    · exact hc.sole x hx y hy t h2 h5 h3 h6
    · have clash : ∀ id m, m ∈ c.moves → (c.gantry g).granted = some id → m.yields = true → m.state = .ready →
          m.gantry ≠ some g := by
        intro id m hm hg hmy hms hmg
        have busy := (hc.busy g).2 (by rw [hg]; simp)
        rw [(hc.owns g m hm hmy hms hmg).1] at busy
        cases busy
      rcases h3 with h3 | ⟨h3, h3'⟩ <;> rcases h6 with h6 | ⟨h6, h6'⟩
      · rw [h3] at h6
        exact hc.same_move hy hx (Option.some.inj h6)
      · exact absurd h5 (clash _ y hy h3 h6 h6')
      · exact absurd h2 (clash _ x hx h6 h3 h3')
      · exact (hc.owns g y hy h6 h6' h5).2 x hx h3 h3' h2
  have nodup : (c.moves.map MoveCore.seat).Nodup := (List.Nodup.of_map _ hc.ids).map_on injective
  have seats : c.moves.map MoveCore.seat ⊆ c.tags.map Sum.inl ++ [.inr .a, .inr .b] := by
    intro z hz
    obtain ⟨m, hm, rfl⟩ := List.mem_map.1 hz
    rcases hc.seat_cases hm with ⟨t, h1, h2, h3⟩ | ⟨g, h1, -⟩ <;> rw [h1]
    · exact List.mem_append_left _ (List.mem_map_of_mem ((hc.listed t).1 (hc.live m hm h3 t h2)))
    · cases g <;> simp
  have bound := (List.subperm_of_subset nodup seats).length_le
  have count := hc.count
  simp only [List.length_map, List.length_append, List.length_cons, List.length_nil] at bound
  omega

end Ledger

end Sys2Proof.Machine
end

