-- ==== Sys2Proof/Proofs/Identifiers.lean ====
section
/-! PROOFS. The identifier a created move takes (R103): the first, counting upward from the counter and wrapping, that no move holds. -/

namespace Sys2Proof.Machine

/-- The search ends at the first identifier that is not in use, or finds all its tries in use. -/
theorem freshIdFrom_cases (used : List Nat) (start fuel : Nat) :
    (∃ k < fuel, freshIdFrom used start fuel = (start + k) % 256 ∧ (start + k) % 256 ∉ used ∧ ∀ j < k, (start + j) % 256 ∈ used)
      ∨ ∀ j < fuel, (start + j) % 256 ∈ used := by
  induction fuel generalizing start with
  | zero => exact Or.inr (fun j hj => absurd hj (Nat.not_lt_zero j))
  | succ fuel ih =>
    unfold freshIdFrom
    have next : ∀ j, (start + 1 + j) % 256 = (start + (j + 1)) % 256 := fun j => by rw [Nat.add_assoc, Nat.add_comm 1]
    split
    · rename_i h
      have here : (start + 0) % 256 ∈ used := by simpa using h
      rcases ih (start + 1) with ⟨k, hk, heq, hfree, hall⟩ | hall
      · refine Or.inl ⟨k + 1, by omega, by rw [heq, next], by rw [← next]; exact hfree, fun j hj => ?_⟩
        cases j with
        | zero => exact here
        | succ j => rw [← next]; exact hall j (by omega)
      · refine Or.inr (fun j hj => ?_)
        cases j with
        | zero => exact here
        | succ j => rw [← next]; exact hall j (by omega)
    · rename_i h
      exact Or.inl ⟨0, by omega, rfl, by simpa using h, fun j hj => absurd hj (Nat.not_lt_zero j)⟩

/-- Fewer than 256 identifiers in use leave one free. -/
theorem freshIdFrom_free {used : List Nat} (h : used.length < 256) (start : Nat) :
    ∃ k < 256, freshIdFrom used start 256 = (start + k) % 256 ∧ (start + k) % 256 ∉ used ∧ ∀ j < k, (start + j) % 256 ∈ used := by
  refine (freshIdFrom_cases used start 256).resolve_right (fun hall => ?_)
  have nodup : ((List.range 256).map (fun j => (start + j) % 256)).Nodup := by
    refine List.nodup_range.map_on (fun x hx y hy e => ?_)
    rw [List.mem_range] at hx hy
    omega
  have sub : (List.range 256).map (fun j => (start + j) % 256) ⊆ used := by
    intro z hz
    obtain ⟨j, hj, rfl⟩ := List.mem_map.1 hz
    exact hall j (List.mem_range.1 hj)
  have := (List.subperm_of_subset nodup sub).length_le
  rw [List.length_map, List.length_range] at this
  omega

/-- R103: the identifier of the next move. -/
theorem State.freshId_spec {s : State} (h : s.moves.length < 256) :
    (∀ m ∈ s.moves, m.id ≠ s.freshId)
      ∧ ∃ k < 256, s.freshId = (s.moveCounter + k) % 256 ∧ ∀ j < k, ∃ m ∈ s.moves, m.id = (s.moveCounter + j) % 256 := by
  obtain ⟨k, hk, heq, hfree, hall⟩ := freshIdFrom_free (used := s.moves.map (fun m => m.id)) (by simpa using h) s.moveCounter
  refine ⟨fun m hm e => hfree ?_, k, hk, heq, fun j hj => List.mem_map.1 (hall j hj)⟩
  have held : m.id ∈ s.moves.map (fun m => m.id) := List.mem_map_of_mem hm
  rw [e] at held
  exact heq ▸ held

end Sys2Proof.Machine
end

