-- ==== Sys2Proof/Proofs/LedgerState.lean ====
section
/-! PROOFS. What each operation of the model does to the ledger: most leave it as it is, and the others are one of its operations. -/

namespace Sys2Proof.Machine

@[simp] theorem Hanger.view_modNewest (h : Hanger) (f : RunEntry → RunEntry) : (h.modNewest f).view = h.view := by
  unfold Hanger.modNewest
  split <;> rfl

@[simp] theorem Hanger.tag_modNewest (h : Hanger) (f : RunEntry → RunEntry) : (h.modNewest f).tag = h.tag := by
  unfold Hanger.modNewest
  split <;> rfl

theorem Hanger.tag_appendEntry (h : Hanger) (e : RunEntry) : (h.appendEntry e).tag = h.tag := by
  unfold Hanger.appendEntry
  split <;> rfl

namespace State

variable {s t : State}

/-- The ledger reads the hangers, the moves, the gantries and the mode. -/
theorem ledger_congr (hh : t.hangers = s.hangers) (hm : t.moves = s.moves) (hg : ∀ g, (t.gantry g).view = (s.gantry g).view)
    (hi : t.mode = s.mode) : t.ledger = s.ledger := by
  unfold State.ledger State.tags
  rw [hh, hm, hi]
  congr 1
  · funext tag; rw [State.hanger_congr hh]
  · funext g; exact hg g

theorem ledger_of_fields (hh : t.hangers = s.hangers) (hm : t.moves = s.moves) (ha : t.gantryA = s.gantryA)
    (hb : t.gantryB = s.gantryB) (hi : t.mode = s.mode) : t.ledger = s.ledger :=
  ledger_congr hh hm (fun g => by cases g <;> simp [State.gantry, ha, hb]) hi

/-! ### Operations on something else -/

@[simp] theorem ledger_notify (k : NoticeKind) (tag st mv : Option Nat) (a b : Nat) : (s.notify k tag st mv a b).ledger = s.ledger :=
  ledger_of_fields (by simp) (by simp) (by simp) (by simp) (by simp)
@[simp] theorem ledger_notifyGantry (g : GantryId) : (s.notifyGantry g).ledger = s.ledger :=
  ledger_of_fields (by simp) (by simp) (by simp) (by simp) (by simp)
@[simp] theorem ledger_notifyPause (g : GantryId) (n : Nat) : (s.notifyPause g n).ledger = s.ledger :=
  ledger_of_fields (by simp) (by simp) (by simp) (by simp) (by simp)
@[simp] theorem ledger_notifyCondition (tag st : Nat) (c : Condition) : (s.notifyCondition tag st c).ledger = s.ledger :=
  ledger_of_fields (by simp) (by simp) (by simp) (by simp) (by simp)
@[simp] theorem ledger_notifyTimeout (g : GantryId) (m : Move) : (s.notifyTimeout g m).ledger = s.ledger :=
  ledger_of_fields (by simp) (by simp) (by simp) (by simp) (by simp)
@[simp] theorem ledger_postWork (g : GantryId) (m : Move) : (s.postWork g m).ledger = s.ledger :=
  ledger_of_fields (by simp) (by simp) (by simp) (by simp) (by simp)
@[simp] theorem ledger_announceId (id : Nat) : (s.announceId id).ledger = s.ledger :=
  ledger_of_fields (by simp) (by simp) (by simp) (by simp) (by simp)
@[simp] theorem ledger_readyWork (g : GantryId) : (s.readyWork g).ledger = s.ledger :=
  ledger_of_fields (by simp) (by simp) (by simp) (by simp) (by simp)
@[simp] theorem ledger_modPort (p : PortId) (f : Port → Port) : (s.modPort p f).ledger = s.ledger :=
  ledger_of_fields (by simp) (by simp) (by simp) (by simp) (by simp)
@[simp] theorem ledger_opened (p : PortId) (n : Nat) : (s.opened p n).ledger = s.ledger := ledger_modPort p _
@[simp] theorem ledger_forming (p : PortId) (r : Reply) : (s.forming p r).ledger = s.ledger := ledger_modPort p _
@[simp] theorem ledger_ignored (p : PortId) (n : Nat) : (s.ignored p n).ledger = s.ledger := ledger_modPort p _
@[simp] theorem ledger_testAlarm : s.testAlarm.ledger = s.ledger := rfl
@[simp] theorem ledger_modLine (n : Nat) (f : RescueLine → RescueLine) : (s.modLine n f).ledger = s.ledger := rfl
@[simp] theorem ledger_modRecipe (r : Nat) (f : Recipe → Recipe) : (s.modRecipe r f).ledger = s.ledger := rfl
@[simp] theorem ledger_modChannel (n : Nat) (f : Channel → Channel) : (s.modChannel n f).ledger = s.ledger := rfl
@[simp] theorem ledger_modStation (st : Nat) (f : Station → Station) : (s.modStation st f).ledger = s.ledger := rfl
@[simp] theorem ledger_setSlot (r : SlotRef) (x : Slot) : (s.setSlot r x).ledger = s.ledger := rfl
@[simp] theorem ledger_releaseAll (tag : Nat) : (s.releaseAll tag).ledger = s.ledger := rfl
@[simp] theorem ledger_setBath (st : Nat) (b : Option Bath) : (s.setBath st b).ledger = s.ledger := rfl
@[simp] theorem ledger_modBath (st : Nat) (f : Bath → Bath) : (s.modBath st f).ledger = s.ledger := rfl
@[simp] theorem ledger_rejoin (h : Hanger) : (s.rejoin h).ledger = s.ledger := rfl
@[simp] theorem ledger_leaveOrder (tag : Nat) : (s.leaveOrder tag).ledger = s.ledger := rfl
@[simp] theorem ledger_revalidateAll : s.revalidateAll.ledger = s.ledger := rfl
@[simp] theorem ledger_reportOccupancy (st was : Nat) : (s.reportOccupancy st was).ledger = s.ledger :=
  ledger_of_fields (by simp) (by simp) (by simp) (by simp) (by simp)
@[simp] theorem ledger_gasHold (n : Nat) (k : HoldCause) : (s.setHold n k).ledger = s.ledger :=
  ledger_of_fields (by simp) (by simp) (by simp) (by simp) (by simp)
@[simp] theorem ledger_gasRelease (n : Nat) (k : HoldCause) : (s.clearHold n k).ledger = s.ledger :=
  ledger_of_fields (by simp) (by simp) (by simp) (by simp) (by simp)
@[simp] theorem ledger_holdStation (st : Nat) (k : HoldCause) : (s.holdStation st k).ledger = s.ledger :=
  ledger_of_fields (by simp) (by simp) (by simp) (by simp) (by simp)
@[simp] theorem ledger_releaseStation (st : Nat) (k : HoldCause) : (s.releaseStation st k).ledger = s.ledger :=
  ledger_of_fields (by simp) (by simp) (by simp) (by simp) (by simp)
@[simp] theorem ledger_fallDue (n : Nat) (d : LineTime) : (s.fallDue n d).ledger = s.ledger :=
  ledger_of_fields (by simp) (by simp) (by simp) (by simp) (by simp)
@[simp] theorem ledger_endBurst (n : Nat) : (s.endBurst n).ledger = s.ledger :=
  ledger_of_fields (by simp) (by simp) (by simp) (by simp) (by simp)
@[simp] theorem ledger_setReadiness (st : Nat) (r : Readiness) : (s.setReadiness st r).ledger = s.ledger :=
  ledger_of_fields (by simp) (by simp) (by simp) (by simp) (by simp)
@[simp] theorem ledger_tripBath (st : Nat) (c : TripCause) : (s.tripBath st c).ledger = s.ledger :=
  ledger_of_fields (by simp) (by simp) (by simp) (by simp) (by simp)
@[simp] theorem ledger_activateBath (st : Nat) : (s.activateBath st).ledger = s.ledger :=
  ledger_of_fields (by simp) (by simp) (by simp) (by simp) (by simp)
@[simp] theorem ledger_deactivateBath (st : Nat) : (s.deactivateBath st).ledger = s.ledger :=
  ledger_of_fields (by simp) (by simp) (by simp) (by simp) (by simp)
@[simp] theorem ledger_convertArea (st : Nat) : (s.convertArea st).ledger = s.ledger :=
  ledger_of_fields (by simp) (by simp) (by simp) (by simp) (by simp)
@[simp] theorem ledger_addArea (st a : Nat) : (s.addArea st a).ledger = s.ledger :=
  ledger_of_fields (by simp) (by simp) (by simp) (by simp) (by simp)
@[simp] theorem ledger_leaveRecipe (r : Nat) : (s.leaveRecipe r).ledger = s.ledger :=
  ledger_of_fields (by simp) (by simp) (by simp) (by simp) (by simp)

@[simp] theorem ledger_burstDue (n : Nat) : (s.burstDue n).ledger = s.ledger := by
  unfold State.burstDue
  dsimp only
  split
  · split
    · exact ledger_fallDue _ _
    · rfl
  · rfl

@[simp] theorem ledger_burstEndDue (n : Nat) : (s.burstEndDue n).ledger = s.ledger := by
  unfold State.burstEndDue
  dsimp only
  split
  · split
    · exact ledger_endBurst _
    · rfl
  · rfl

theorem ledger_occupy {r : SlotRef} {tag : Nat} (h : s.occupy r tag = some t) : t.ledger = s.ledger := by
  unfold State.occupy at h
  split at h <;> cases h
  simp

theorem ledger_vacate {r : SlotRef} {tag : Nat} (h : s.vacate r tag = some t) : t.ledger = s.ledger := by
  unfold State.vacate at h
  split at h <;> cases h
  simp

theorem ledger_reserve {r : SlotRef} {tag : Nat} {k : ReservationKind} (h : s.reserve r tag k = some t) : t.ledger = s.ledger := by
  unfold State.reserve at h
  split at h <;> cases h
  simp

theorem ledger_convert {r : SlotRef} {tag : Nat} (h : s.convert r tag = some t) : t.ledger = s.ledger := by
  unfold State.convert at h
  split at h <;> cases h
  simp

theorem ledger_reserveRoute {tag : Nat} {d : SlotRef} {f : Option SlotRef} (h : s.reserveRoute tag d f = some t) :
    t.ledger = s.ledger := by
  have first : ∀ u, (if s.slotAt d = .reserved tag .destination then some s
      else if s.slotAt d = .reserved tag .forward then s.convert d tag else s.reserve d tag .destination) = some u →
      u.ledger = s.ledger := by
    intro u hu
    split at hu
    · cases hu; rfl
    · split at hu
      · exact ledger_convert hu
      · exact ledger_reserve hu
  unfold State.reserveRoute at h
  dsimp only at h
  cases f with
  | none => exact first t h
  | some f =>
    obtain ⟨u, hu, ht⟩ := Option.bind_eq_some_iff.1 h
    split at ht
    · cases ht; exact first _ hu
    · exact (ledger_reserve ht).trans (first u hu)

/-! ### Hangers -/

theorem ledger_modHanger {tag : Nat} {f : Hanger → Hanger} {f' : HangerView → HangerView}
    (hf : ∀ h, (f h).tag = h.tag ∧ (f h).view = f' h.view) : (s.modHanger tag f).ledger = s.ledger.modHanger tag f' := by
  have tags : (s.modHanger tag f).tags = s.tags := by
    unfold State.tags State.modHanger
    rw [List.map_map]
    refine List.map_congr_left (fun h _ => ?_)
    show (if h.tag = tag then f h else h).tag = h.tag
    split
    · exact (hf h).1
    · rfl
  have hangers : (fun t => ((s.modHanger tag f).hanger? t).map Hanger.view)
      = fun t => if t = tag then ((s.hanger? tag).map Hanger.view).map f' else (s.hanger? t).map Hanger.view := by
    funext t
    rw [State.hanger_modHanger (fun h => (hf h).1)]
    split
    · cases s.hanger? tag with
      | none => rfl
      | some h => exact congrArg some (hf h).2
    · rfl
  have gantry : (s.modHanger tag f).gantry = s.gantry := by funext g; cases g <;> rfl
  unfold State.ledger Ledger.modHanger
  rw [tags, hangers, gantry]
  rfl

/-- A change of the hangers that the agreement does not see. -/
theorem ledger_modHanger_same {tag : Nat} {f : Hanger → Hanger} (hf : ∀ h, (f h).tag = h.tag ∧ (f h).view = h.view) :
    (s.modHanger tag f).ledger = s.ledger := by
  rw [ledger_modHanger (f' := id) hf]
  unfold Ledger.modHanger
  congr 1
  funext t
  split
  · rename_i e; rw [e]; exact Option.map_id'
  · rfl

theorem ledger_mapHangers {f : Hanger → Hanger} (hf : ∀ h, (f h).tag = h.tag ∧ (f h).view = h.view) :
    ({ s with hangers := s.hangers.map f } : State).ledger = s.ledger := by
  have tags : ({ s with hangers := s.hangers.map f } : State).tags = s.tags := by
    unfold State.tags
    dsimp only
    rw [List.map_map]
    exact List.map_congr_left (fun h _ => (hf h).1)
  have hangers : ∀ t, ({ s with hangers := s.hangers.map f } : State).hanger? t = (s.hanger? t).map f := by
    intro t
    unfold State.hanger?
    dsimp only
    rw [List.find?_map]
    congr 2
    funext h
    show ((f h).tag == t) = _
    rw [(hf h).1]
  unfold State.ledger
  rw [tags]
  congr 1
  funext t
  rw [hangers]
  cases s.hanger? t with
  | none => rfl
  | some h => exact congrArg some (hf h).2

theorem ledger_dropHanger (tag : Nat) : (s.dropHanger tag).ledger = s.ledger.dropHanger tag := by
  have tags : (s.dropHanger tag).tags = s.tags.filter (fun t => t != tag) := by
    unfold State.tags State.dropHanger
    rw [List.filter_map]
    rfl
  have hangers : ∀ t, (s.dropHanger tag).hanger? t = if t = tag then none else s.hanger? t := by
    intro t
    unfold State.dropHanger State.hanger?
    rw [List.find?_filter]
    split
    · rename_i e
      rw [List.find?_eq_none]
      intro h _
      simp [e]
    · rename_i e
      congr 1
      funext h
      by_cases ht : h.tag = t <;> simp [ht, e]
  unfold State.ledger Ledger.dropHanger
  rw [tags]
  congr 1
  funext t
  rw [hangers]
  dsimp only
  split <;> rfl

/-- R43: a record is added for a tag that has none. -/
theorem ledger_enter {h : Hanger} (hn : s.hanger? h.tag = none) (o : List Nat) (n : Seq) :
    ({ s with hangers := s.hangers ++ [h], startOrder := o, admissions := n } : State).ledger = s.ledger.addHanger h.tag h.view := by
  have tags : ({ s with hangers := s.hangers ++ [h], startOrder := o, admissions := n } : State).tags = s.tags ++ [h.tag] := by
    unfold State.tags
    exact List.map_append
  have hangers : ∀ t, ({ s with hangers := s.hangers ++ [h], startOrder := o, admissions := n } : State).hanger? t
      = if t = h.tag then some h else s.hanger? t := by
    intro t
    have found : ({ s with hangers := s.hangers ++ [h], startOrder := o, admissions := n } : State).hanger? t
        = (s.hanger? t).or (if h.tag = t then some h else none) := by
      unfold State.hanger?
      dsimp only
      rw [List.find?_append, List.find?_singleton]
      simp
    rw [found]
    by_cases e : t = h.tag
    · subst e; rw [hn]; simp
    · rw [if_neg e, if_neg (Ne.symm e), Option.or_none]
  unfold State.ledger Ledger.addHanger
  rw [tags]
  congr 1
  funext t
  rw [hangers]
  dsimp only
  split <;> rfl

@[simp] theorem ledger_closeEntry (tag : Nat) (c : Condition) : (s.closeEntry tag c).ledger = s.ledger := by
  unfold State.closeEntry
  split
  · split
    · split
      · rw [ledger_notifyCondition, ledger_modHanger_same (fun h => ⟨Hanger.tag_modNewest h _, Hanger.view_modNewest h _⟩)]
      · rfl
    · rfl
  · rfl

@[simp] theorem ledger_endImmersion (tag : Nat) : (s.endImmersion tag).ledger = s.ledger := by
  unfold State.endImmersion
  split
  · rw [ledger_modHanger_same (by exact fun _ => ⟨rfl, rfl⟩), ledger_closeEntry]
  · rfl

@[simp] theorem ledger_stopCount (tag : Nat) : (s.modHanger tag Hanger.stopCount).ledger = s.ledger :=
  ledger_modHanger_same (fun _ => ⟨rfl, rfl⟩)

@[simp] theorem ledger_markIfStale (tag st : Nat) : (s.markIfStale tag st).ledger = s.ledger := by
  unfold State.markIfStale
  split
  · exact ledger_modHanger_same (fun h => ⟨Hanger.tag_modNewest h _, Hanger.view_modNewest h _⟩)
  · rfl

@[simp] theorem ledger_markStale (st : Nat) : (s.markStale st).ledger = s.ledger := by
  refine ledger_mapHangers (fun h => ?_)
  split
  · exact ⟨Hanger.tag_modNewest h _, Hanger.view_modNewest h _⟩
  · exact ⟨rfl, rfl⟩

@[simp] theorem ledger_edgeDue (tag : Nat) (e : Edge) : (s.edgeDue tag e).ledger = s.ledger := by
  refine ledger_modHanger_same (fun h => ?_)
  split <;> exact ⟨rfl, rfl⟩

@[simp] theorem ledger_unagitatedDue (tag : Nat) : (s.unagitatedDue tag).ledger = s.ledger := by
  unfold State.unagitatedDue
  split
  · split
    · rw [ledger_notify, ledger_modHanger_same (fun h => ⟨Hanger.tag_modNewest h _, Hanger.view_modNewest h _⟩)]
    · rfl
  · rfl

@[simp] theorem ledger_tickCounts : s.tickCounts.ledger = s.ledger := ledger_mapHangers (fun _ => ⟨rfl, rfl⟩)

@[simp] theorem ledger_staleDue (st : Nat) : (s.staleDue st).ledger = s.ledger := by
  have stale : (s.goStale st).ledger = s.ledger := by
    unfold State.goStale
    rw [ledger_markStale]
    split
    · split <;> simp
    · simp
  unfold State.staleDue
  split
  · split
    · exact stale
    · rfl
  · rfl

/-! ### Moves -/

theorem ledger_modMove {id : Nat} {f : Move → Move} {f' : MoveCore → MoveCore} (hf : ∀ m, (f m).core = f' m.core) :
    (s.modMove id f).ledger = s.ledger.modMove id f' := by
  have moves : (s.modMove id f).moves.map Move.core = (s.moves.map Move.core).map (fun m => if m.id = id then f' m else m) :=
    congrArg Core.moves (core_modMove (s := s) (id := id) hf)
  have gantry : (s.modMove id f).gantry = s.gantry := by funext g; cases g <;> rfl
  unfold State.ledger Ledger.modMove
  rw [moves, gantry]
  rfl

/-- A change of one move that the agreement does not see. -/
theorem ledger_modMove_at {out away : Option Nat} (hc : s.ledger.AgreesBut out away) {m : Move} {f : Move → Move} (hm : m ∈ s.moves)
    (hf : (f m).core = m.core) : (s.modMove m.id f).ledger = s.ledger := by
  have moves : (s.modMove m.id f).moves.map Move.core = s.moves.map Move.core := by
    have ids : (s.moves.map Move.id).Nodup := by simpa [State.ledger, Function.comp_def, Move.core] using hc.ids
    refine congrArg Core.moves (core_modMove_of_mem (s := s) (fun x hx e => ?_))
    rw [List.inj_on_of_nodup_map ids hx hm e, hf]
  have gantry : (s.modMove m.id f).gantry = s.gantry := by funext g; cases g <;> rfl
  unfold State.ledger
  rw [moves, gantry]
  rfl

theorem ledger_addMove (m : Move) : (s.addMove m).ledger = s.ledger.addMove { m with id := s.freshId : Move }.core := by
  have moves : (s.addMove m).moves.map Move.core = s.moves.map Move.core ++ [{ m with id := s.freshId : Move }.core] :=
    congrArg Core.moves (core_addMove (s := s) m)
  have gantry : (s.addMove m).gantry = s.gantry := by funext g; cases g <;> rfl
  unfold State.ledger Ledger.addMove
  rw [moves, gantry]
  rfl

theorem ledger_createMove (m : Move) : (s.createMove m).ledger = s.ledger.addMove { m with id := s.freshId : Move }.core := by
  unfold State.createMove
  dsimp only
  split
  · rw [ledger_announceId, ledger_addMove]
  · exact ledger_addMove m

theorem ledger_filterMoves {p : Move → Bool} {p' : MoveCore → Bool} (hp : ∀ m, p m = p' m.core) :
    ({ s with moves := s.moves.filter p } : State).ledger = s.ledger.filterMoves p' := by
  have moves : (s.moves.filter p).map Move.core = (s.moves.map Move.core).filter p' :=
    congrArg Core.moves (core_filterMoves (s := s) hp)
  unfold State.ledger Ledger.filterMoves
  dsimp only
  rw [moves]
  rfl

theorem ledger_removeMove (id : Nat) : (s.removeMove id).ledger = s.ledger.removeMove id :=
  ledger_filterMoves (fun m => by rw [Move.yield_core]; rfl)

theorem ledger_removeMoveOf (tag : Nat) : (s.removeHangerMove tag).ledger = s.ledger.removeMoveOf tag := by
  unfold State.removeHangerMove Ledger.removeMoveOf
  rw [State.ledger_move]
  cases s.hangerMove? tag with
  | none => rfl
  | some m => exact ledger_removeMove m.id

theorem ledger_removeOwnYield (g : GantryId) : (s.removeOwnYield g).ledger = s.ledger.dropYield g :=
  ledger_filterMoves (fun m => by rw [Move.yield_core]; rfl)

theorem ledger_removeYieldFor (id : Nat) : (s.removeYieldFor id).ledger
    = s.ledger.filterMoves (fun m => !(m.yields && m.state == .ready && m.blocked == some id)) :=
  ledger_filterMoves (fun m => by rw [Move.yield_core]; rfl)

/-! ### Gantries -/

theorem ledger_modGantry (g : GantryId) (f : Gantry → Gantry) :
    (s.modGantry g f).ledger = s.ledger.setGantry g (f (s.gantry g)).view := by
  have gantry : (fun g' => ((s.modGantry g f).gantry g').view)
      = fun g' => if g' = g then (f (s.gantry g)).view else (s.gantry g').view := by
    funext g'
    rw [State.gantry_modGantry]
    split <;> rfl
  unfold State.ledger Ledger.setGantry
  rw [gantry]
  cases g <;> rfl

/-- A gantry record changed in what the agreement does not see. -/
theorem ledger_modGantry_same (g : GantryId) {f : Gantry → Gantry} (hf : (f (s.gantry g)).view = (s.gantry g).view) :
    (s.modGantry g f).ledger = s.ledger := by
  refine ledger_congr (by simp) (by simp) (fun g' => ?_) (by cases g <;> rfl)
  rw [State.gantry_modGantry]
  split
  · rename_i e; rw [e, hf]
  · rfl

end State

end Sys2Proof.Machine
end

