-- ==== Sys2Proof/Proofs/LedgerHangers.lean ====
section
/-! PROOFS. A hanger between two of its moves: how it comes to that (placed, recovered, admitted, its move gone), what may change of it
there, and how the agreement is closed again (at rest, with a next move, or with its record gone). -/

namespace Sys2Proof.Machine

/-- R35: DONE or ABORTED in a slot. -/
def HangerView.Rests (h : HangerView) : Prop := (h.state = .done ∨ h.state = .aborted) ∧ h.phase = none ∧ ∃ r, h.location = .slot r

/-- R35: LOADED, IMMERSED or RESCUED in a slot. -/
def HangerView.Waits (h : HangerView) : Prop :=
  (h.state = .loaded ∨ h.state = .immersed ∨ h.state = .rescued) ∧ h.phase = none ∧ ∃ r, h.location = .slot r

namespace Ledger

variable {c : Ledger} {out away : Option Nat} {tag : Nat} {h : HangerView}

/-! ### What the state of a hanger says of its move -/

theorem Bears.of_rests (hr : h.Rests) (hm : c.move? tag = none) : c.Bears tag h := by
  obtain ⟨hs, hp, hl⟩ := hr
  unfold Bears
  rcases hs with e | e <;> rw [e] <;> exact ⟨hm, hp, hl⟩

theorem Bears.of_waits {m : MoveCore} (hw : h.Waits) (hm : c.move? tag = some m) (hi : ¬ m.InWork) : c.Bears tag h := by
  obtain ⟨hs, hp, hl⟩ := hw
  unfold Bears
  rcases hs with e | e | e <;> rw [e]
  · exact ⟨hp, hl, m, hm, hi⟩
  · exact ⟨hp, hl, m, hm, hi⟩
  · exact ⟨hp, hl, m, hm, fun h => absurd h hi⟩

/-- A hanger whose move is not granted waits in a slot. -/
theorem Bears.waits {m : MoveCore} (hb : c.Bears tag h) (hm : c.move? tag = some m) (hi : ¬ m.InWork) : h.Waits := by
  unfold Bears at hb
  rw [hm] at hb
  split at hb
  case h_1 e => exact ⟨Or.inl e, hb.1, hb.2.1⟩
  case h_2 e => exact ⟨Or.inr (Or.inl e), hb.1, hb.2.1⟩
  case h_3 e => exact ⟨Or.inr (Or.inr e), hb.1, hb.2.1⟩
  case h_4 =>
    obtain ⟨n, hn, ⟨-, hs, -⟩ | ⟨-, hs, -⟩⟩ := hb <;> cases hn
    · exact absurd (Or.inl hs) hi
    · exact absurd (Or.inr (Or.inl hs)) hi
  all_goals cases hb.1

/-- A hanger whose move is granted is RESCUED, or IN-TRANSIT, in a slot. -/
theorem Bears.granted {m : MoveCore} (hb : c.Bears tag h) (hm : c.move? tag = some m) (hg : m.state = .granted) :
    (∃ r, h.location = .slot r) ∧ ((h.state = .rescued ∧ h.phase = none) ∨ (h.state = .inTransit ∧ h.phase = some .granted)) := by
  have work : m.InWork := Or.inl hg
  unfold Bears at hb
  rw [hm] at hb
  split at hb
  case h_1 => obtain ⟨-, -, n, hn, hi⟩ := hb; cases hn; exact absurd work hi
  case h_2 => obtain ⟨-, -, n, hn, hi⟩ := hb; cases hn; exact absurd work hi
  case h_3 e => exact ⟨hb.2.1, Or.inl ⟨e, hb.1⟩⟩
  case h_4 e =>
    obtain ⟨n, hn, ⟨hp, -, hl⟩ | ⟨-, hs, -⟩⟩ := hb <;> cases hn
    · exact ⟨hl, Or.inr ⟨e, hp⟩⟩
    · rw [hg] at hs; cases hs
  all_goals cases hb.1

/-- A hanger that has a move is not STRANDED. -/
theorem Bears.not_stranded (hb : c.Bears tag h) (hm : c.move? tag ≠ none) : h.state ≠ .stranded := by
  intro e
  unfold Bears at hb
  rw [e] at hb
  exact hm hb.1

/-- A hanger at rest or STRANDED has no move. -/
theorem Bears.moveless (hb : c.Bears tag h) (hs : h.state = .stranded ∨ h.state = .done ∨ h.state = .aborted) :
    c.move? tag = none ∧ h.phase = none := by
  unfold Bears at hb
  rcases hs with e | e | e <;> rw [e] at hb <;> exact ⟨hb.1, hb.2.1⟩

/-! ### The hanger of a move -/

theorem AgreesBut.hanger_of_move (hc : c.AgreesBut out none) {m : MoveCore} (hm : m ∈ c.moves) (ht : m.tag = some tag)
    (hp : m.state ≠ .placed) : ∃ h, c.hanger? tag = some h ∧ c.Bears tag h ∧ c.move? tag = some m
      ∧ ∀ g x, (c.gantry g).hold = some x → x.tag ≠ tag := by
  obtain ⟨h, hh⟩ := Option.ne_none_iff_exists'.1 (hc.live m hm hp tag ht)
  have hb := hc.bears tag h hh (by simp)
  have hmv := hc.move_of_mem hm ht hp
  exact ⟨h, hh, hb, hmv, hc.unheld hh (hb.not_stranded (by rw [hmv]; simp))⟩

/-- A change of a hanger that has a move, or is at rest, which leaves it what its state asks for. -/
theorem AgreesBut.modHanger_closed (hc : c.AgreesBut out none) (hh : c.hanger? tag = some h) (hs : h.state ≠ .stranded)
    {f : HangerView → HangerView} (hb : c.Bears tag (f h)) : (c.modHanger tag f).AgreesBut out none := by
  refine ((hc.spare (some tag)).modHanger (hc.unheld hh hs) f).close (fun y hy => ?_)
  rw [hanger_modHanger_self hh] at hy
  cases hy
  exact hb.congr rfl (fun _ _ h _ => h)

/-! ### Between two moves -/

/-- The hanger of the tag has no move and no stranded hold, and what it bears is left open. -/
structure Between (c : Ledger) (tag : Nat) (h : HangerView) : Prop where
  agrees : c.AgreesBut none (some tag)
  hanger : c.hanger? tag = some h
  moveless : c.move? tag = none
  unheld : ∀ g x, (c.gantry g).hold = some x → x.tag ≠ tag

/-- R35: a hanger at rest. -/
theorem AgreesBut.between_of_resting (hc : c.Agrees) (hh : c.hanger? tag = some h) (hs : h.state = .done ∨ h.state = .aborted) :
    c.Between tag h :=
  ⟨hc.spare _, hh, ((hc.bears tag h hh (by simp)).moveless (Or.inr hs)).1,
    hc.unheld hh (by rcases hs with e | e <;> rw [e] <;> decide)⟩

/-- R47, R48, R56: the move of a hanger that is not granted goes. -/
theorem AgreesBut.between_of_removed (hc : c.Agrees) (hh : c.hanger? tag = some h) (hs : h.state ≠ .stranded)
    (hi : ∀ m, c.move? tag = some m → ¬ m.InWork) : (c.removeMoveOf tag).Between tag h := by
  obtain ⟨agrees, moveless⟩ := (hc.spare (some tag)).removeMoveOf hi
  obtain ⟨hanger, gantry, -⟩ := removeMoveOf_fields c tag
  exact ⟨agrees, by rw [hanger]; exact hh, moveless, by rw [gantry]; exact hc.unheld hh hs⟩

/-- R43: a new hanger. -/
theorem AgreesBut.between_of_new (hc : c.Agrees) (hn : c.hanger? tag = none) (hl : c.tags.length < 32) :
    (c.addHanger tag h).Between tag h := by
  refine ⟨hc.addHanger hn hl h, if_pos rfl, ?_, fun g x hx e => ?_⟩
  · refine move_none.2 (fun m hm ht => ?_)
    by_contra hp
    exact hc.live m hm hp tag ht hn
  · obtain ⟨-, y, hy, -⟩ := hc.holds g x hx
    rw [e, hn] at hy; cases hy

/-- R55: a stranded hanger is recovered. -/
theorem AgreesBut.between_of_recovered (hc : c.Agrees) (hh : c.hanger? tag = some h) (hs : h.state = .stranded) :
    (c.clearHold tag).Between tag h :=
  ⟨(hc.spare (some tag)).clearHold, hh, ((hc.bears tag h hh (by simp)).moveless (Or.inl hs)).1, unheld_clearHold⟩

/-- A move in work changes its stage and stays with its gantry. -/
theorem AgreesBut.rework {m : MoveCore} {f : MoveCore → MoveCore} (hc : c.AgreesBut none m.tag) (hm : m ∈ c.moves) (hw : m.InWork)
    (hp : m.state ≠ .placed) (hf : ∀ x, (f x).id = x.id) (ht : (f m).tag = m.tag) (hg : (f m).gantry = m.gantry)
    (hw' : (f m).InWork) (hfit : (f m).Fits) : (c.modMove m.id f).AgreesBut none m.tag := by
  have not_ready : (f m).state ≠ .ready := by rcases hw' with e | e | e <;> rw [e] <;> decide
  obtain ⟨g, h1, h2⟩ := hc.works m hm hw (by simp)
  refine ((hc.loosen (some m.id)).modMove hm hp hf ht hfit (fun g' hid => ⟨hw', ?_⟩) (fun _ => not_ready)).tighten
    (fun x hx e _ => ⟨g, ?_, h2⟩)
  · obtain ⟨x, hx, h3, -, h4⟩ := hc.grants g' _ hid
    rw [hg, ← hc.same_move hm hx h3, h4]
  · rcases hc.mem_modMove hm hx with ⟨-, hne⟩ | rfl
    · exact absurd e hne
    · rw [hg]; exact h1

/-- R142, step 5: the hanger's carried move is placed. -/
theorem AgreesBut.between_of_placed (hc : c.Agrees) {m : MoveCore} (hm : m ∈ c.moves) (ht : m.tag = some tag)
    (hs : m.state = .carried) (f : HangerView → HangerView) : ∃ h, c.hanger? tag = some h
      ∧ ((c.modHanger tag f).modMove m.id (fun x => { x with state := .placed })).Between tag (f h) := by
  obtain ⟨h, hh, -, hmv, unheld⟩ := hc.hanger_of_move hm ht (by rw [hs]; decide)
  have yields := (hc.fits m hm).not_yields ht
  have work : m.InWork := Or.inr (Or.inl hs)
  have placed : MoveCore.InWork { m with state := .placed } := Or.inr (Or.inr rfl)
  have changed := (hc.spare (some tag)).modHanger unheld f
  rw [← ht] at changed
  obtain ⟨-, others, leads, -⟩ := hc.fits m hm
  have agrees := changed.rework (f := fun x => { x with state := .placed }) hm work (by rw [hs]; decide) (fun _ => rfl) rfl rfl placed
    { yields := fun e => by cases yields.symm.trans e
      others := fun e => ⟨(others e).1, (others e).2.1, fun e' => absurd placed e'⟩
      leads := fun _ => leads work
      limits := fun e' => absurd placed e' }
  refine ⟨h, hh, ht ▸ agrees, ?_, changed.move_placed hmv, unheld⟩
  exact hanger_modHanger_self (c := c) hh

namespace Between

theorem modHanger (hb : c.Between tag h) (f : HangerView → HangerView) : (c.modHanger tag f).Between tag (f h) :=
  ⟨hb.agrees.modHanger hb.unheld f, hanger_modHanger_self hb.hanger, hb.moveless, hb.unheld⟩

/-- The hanger is at rest. -/
theorem rest (hb : c.Between tag h) (hr : h.Rests) : c.Agrees := by
  refine hb.agrees.close (fun y hy => ?_)
  rw [hb.hanger] at hy
  cases hy
  exact Bears.of_rests hr hb.moveless

/-- The hanger waits in a slot with a new move. -/
theorem launch (hb : c.Between tag h) (hw : h.Waits) {m : MoveCore} (hid : m.id ∉ c.moves.map MoveCore.id) (hf : m.Fits)
    (hi : ¬ m.InWork) (ht : m.tag = some tag) : (c.addMove m).Agrees := by
  have yields := hf.not_yields ht
  have added : (c.addMove m).AgreesBut none (some tag) := by
    refine hb.agrees.addMove hid hf hi ht (fun t e => ?_) (fun e => by cases yields.symm.trans e)
    cases e
    exact ⟨hb.moveless, by rw [hb.hanger]; simp⟩
  refine added.close (fun y hy => ?_)
  have hy' : c.hanger? tag = some y := hy
  rw [hb.hanger] at hy'
  cases hy'
  have last : m ∈ (c.addMove m).moves := List.mem_append_right _ List.mem_cons_self
  exact Bears.of_waits hw (added.move_of_mem last ht (fun e => hi (Or.inr (Or.inr e)))) hi

/-- The record of the hanger goes. -/
theorem drop (hb : c.Between tag h) : (c.dropHanger tag).Agrees := hb.agrees.dropHanger hb.moveless hb.unheld

end Between

end Ledger

namespace State

variable {s : State} {tag : Nat}

theorem ledger_hanger {h : Hanger} (hh : s.hanger? tag = some h) : s.ledger.hanger? tag = some h.view := congrArg (Option.map Hanger.view) hh

/-- A move not yet in use has the identifier of none. -/
theorem freshId_new {away : Option Nat} (hc : s.ledger.AgreesBut none away) : s.freshId ∉ s.ledger.moves.map MoveCore.id := by
  have bound : s.moves.length ≤ 34 := by simpa [State.ledger] using hc.moves_bound
  intro hid
  obtain ⟨x, hx, e⟩ := List.mem_map.1 hid
  obtain ⟨m, hm, rfl⟩ := List.mem_map.1 hx
  exact (State.freshId_spec (by omega)).1 m hm e

/-- A hanger that waits in a slot is given its next move. -/
theorem agrees_createMove {h : HangerView} (hb : s.ledger.Between tag h) (hw : h.Waits) {m : Move} (ht : m.tag = some tag)
    (hk : m.kind ≠ .yielding) (hd : ∀ x, m.dest ≠ some (.point x)) (hg : m.gantry = none) (hl : m.limit = none)
    (hi : m.state = .waiting ∨ m.state = .ready) : (s.createMove m).ledger.Agrees := by
  have idle : ¬ ({ m with id := s.freshId } : Move).InWork := by
    rintro (e | e | e) <;> rcases hi with e' | e' <;> rw [show m.state = _ from e] at e' <;> cases e'
  rw [ledger_createMove]
  refine hb.launch hw (freshId_new hb.agrees) ?_ (fun e => idle ((Move.core_inWork _).1 e)) ht
  rw [Move.core_fits]
  exact ⟨fun e => absurd e hk, fun _ => ⟨by show m.tag ≠ none; rw [ht]; simp, hd, fun _ => hg⟩, fun e => absurd e idle, fun _ => hl⟩

/-- R106: the fields of a hanger's next move that the agreement reads. -/
theorem nextMove_ends (h : Hanger) (r : SlotRef) : (s.nextMove h r).kind ≠ .yielding ∧ (∀ x, (s.nextMove h r).dest ≠ some (.point x))
    ∧ (s.nextMove h r).gantry = none ∧ (s.nextMove h r).limit = none := by
  have dest := (nextMove_fields (s := s) h r).2.1
  refine ⟨?_, fun x e => ?_, ?_⟩
  · unfold State.nextMove
    dsimp only
    rw [(Move.timed_fields _ _ _ _).2.1]
    show (if _ then MoveKind.step else MoveKind.exit) ≠ _
    split <;> decide
  · rw [dest] at e
    split at e
    · obtain ⟨f, -, hf⟩ := Option.map_eq_some_iff.1 e
      cases hf
    · cases e
  · unfold State.nextMove
    dsimp only
    obtain ⟨-, -, -, -, -, hg, hl, -⟩ := Move.timed_fields
      { Move.fresh (if h.step + 1 < (s.recipe h.recipe).active.length then .step else .exit) (.slot r)
          (if (s.station r.station).cls = .strict then h.forward.map Place.slot else none) with
        tag := some h.tag, seq := some h.seq, drip := s.stepDrip h.recipe h.step } h.imm s.lineTime (s.station r.station).allowance
    exact ⟨hg, hl⟩

/-- A hanger between two moves has its record. -/
theorem hanger_of_between {c : Ledger} {h : HangerView} (hb : c.Between tag h) (hs : s.ledger = c) :
    ∃ x, s.hanger? tag = some x ∧ x.view = h := by
  have := hb.hanger
  rw [← hs] at this
  exact Option.map_eq_some_iff.1 this

theorem agrees_createNext {h : HangerView} (hb : s.ledger.Between tag h) (hw : h.Waits) (r : SlotRef) :
    (s.createNext tag r).ledger.Agrees := by
  obtain ⟨x, hx, rfl⟩ := hanger_of_between hb rfl
  obtain rfl := State.hanger_tag hx
  obtain ⟨ht, -, hi⟩ := nextMove_fields (s := s) x r
  obtain ⟨hk, hd, hg, hl⟩ := nextMove_ends (s := s) x r
  unfold State.createNext
  rw [hx]
  exact agrees_createMove hb hw ht hk hd hg hl hi

theorem agrees_createEntry {h : HangerView} (hb : s.ledger.Between tag h) (hw : h.Waits) {x : Hanger} (hx : x.tag = tag) (r : SlotRef) :
    (s.createEntry x r).ledger.Agrees :=
  agrees_createMove hb hw (congrArg some hx) (by decide : MoveKind.entry ≠ .yielding) (fun _ e => by cases e) rfl rfl (Or.inr rfl)

/-! ### The beginning of a step -/

/-- R44, but for the move: the hanger is IMMERSED in a slot. -/
theorem between_openStep {h : HangerView} (hb : s.ledger.Between tag h) {k : Nat} (r : SlotRef)
    (hk : ∀ x, s.hanger? tag = some x → s.recipeStep? x.recipe k ≠ none) :
    (s.openStep tag k r).ledger.Between tag { state := .immersed, phase := none, location := .slot r } := by
  obtain ⟨x, hx, rfl⟩ := hanger_of_between hb rfl
  obtain ⟨st, hst⟩ := Option.ne_none_iff_exists'.1 (hk x hx)
  unfold State.openStep
  rw [hx]
  dsimp only
  rw [hst]
  dsimp only
  have begun : ∀ i, (s.modHanger tag (fun y => y.beginAt r k i s.lineTime)).ledger =
      s.ledger.modHanger tag (fun _ => { state := .immersed, phase := none, location := .slot r }) :=
    fun i => ledger_modHanger (by exact fun y => ⟨Hanger.tag_appendEntry y _, rfl⟩)
  rw [ledger_notify, ledger_markIfStale, begun]
  exact hb.modHanger _

theorem agrees_beginStep {h : HangerView} (hb : s.ledger.Between tag h) {k : Nat} (r : SlotRef)
    (hk : ∀ x, s.hanger? tag = some x → s.recipeStep? x.recipe k ≠ none) : (s.beginStep tag k r).ledger.Agrees :=
  agrees_createNext (between_openStep hb r hk) ⟨Or.inr (Or.inl rfl), rfl, r, rfl⟩ r

/-! ### ADMIT, RESUME-HANGER, RESTART-HANGER, RECOVER and UNLOADED -/

theorem agrees_admitRule (hc : s.ledger.Agrees) (tag recipe scale area st sl : Nat) :
    (admitRule tag recipe scale area st sl s).1.ledger.Agrees := by
  unfold admitRule
  dsimp only
  split_ifs
  · exact hc
  · exact hc
  · exact hc
  · exact hc
  · exact hc
  all_goals
    rename_i hn _ hfull _
    refine together_keeps (P := fun t => t.ledger.Agrees) hc (fun t ht => ?_)
    have same := ledger_occupy ht
    have gone : t.ledger.hanger? tag = none := by
      rw [same]
      exact congrArg (Option.map Hanger.view) (Option.not_isSome_iff_eq_none.1 hn)
    have room : t.ledger.tags.length < 32 := by
      rw [same]
      simpa [State.ledger, State.tags, Config.hangers] using hfull
    refine agrees_createEntry (tag := tag)
      (h := (Hanger.admitted tag s.admissions recipe (clampNat 500 2000 scale) area { station := st, slot := sl }).view) ?_
      ⟨Or.inl rfl, rfl, _, rfl⟩ rfl _
    rw [ledger_enter (h := Hanger.admitted tag s.admissions recipe (clampNat 500 2000 scale) area { station := st, slot := sl })
      (Option.map_eq_none_iff.1 gone)]
    exact (same ▸ hc : t.ledger.Agrees).between_of_new gone room

theorem agrees_beginAfresh (hc : s.ledger.Agrees) {h : Hanger} {r : SlotRef} {k : Nat} (hh : s.hanger? h.tag = some h)
    (hs : h.state = .aborted) : (s.beginAfresh h k r).1.ledger.Agrees := by
  have between := hc.between_of_resting (ledger_hanger hh) (Or.inr hs)
  unfold State.beginAfresh
  split
  · exact hc
  · rename_i hk
    have step : s.recipeStep? h.recipe k ≠ none := fun e => hk (by rw [e]; rfl)
    split
    · split
      · exact hc
      · split
        · rename_i f _
          refine together_keeps (P := fun t => t.ledger.Agrees) hc (fun t ht => ?_)
          have forward : (t.modHanger h.tag (fun h => { h with forward := some f })).ledger = s.ledger :=
            (ledger_modHanger_same (by exact fun _ => ⟨rfl, rfl⟩)).trans (ledger_reserve ht)
          refine agrees_beginStep (by rw [forward]; exact between) r (fun x hx => ?_)
          unfold State.reserve at ht
          split at ht <;> cases ht
          rw [State.hanger_modHanger (by exact fun _ => rfl), if_pos rfl] at hx
          obtain ⟨y, hy, rfl⟩ := Option.map_eq_some_iff.1 hx
          rw [show s.hanger? h.tag = some y from hy] at hh
          cases hh
          exact step
        · exact hc
    · refine agrees_beginStep between r (fun x hx => ?_)
      rw [hh] at hx; cases hx
      exact step

theorem agrees_resumeInPlace (hc : s.ledger.Agrees) {h : Hanger} {r : SlotRef} (hh : s.hanger? h.tag = some h)
    (hs : h.state = .aborted) (hl : h.location = .slot r) : (s.resumeInPlace h r).ledger.Agrees := by
  have resumed := (hc.between_of_resting (ledger_hanger hh) (Or.inr hs)).modHanger
    (fun v => { v with state := .immersed, phase := none })
  refine agrees_createNext (h := { h.view with state := .immersed, phase := none }) ?_ ⟨Or.inr (Or.inl rfl), rfl, r, hl⟩ r
  rw [ledger_notify, ledger_markIfStale, ledger_modHanger (f' := fun v => { v with state := .immersed, phase := none }) (fun y => ?_)]
  · exact resumed
  · have view := Hanger.view_modNewest y RunEntry.reopen
    exact ⟨Hanger.tag_modNewest y _, congrArg (fun v : HangerView => { v with state := .immersed, phase := none }) view⟩

theorem agrees_resumeHanger (hc : s.ledger.Agrees) (tag : Nat) : (resumeHanger tag s).1.ledger.Agrees := by
  unfold resumeHanger
  refine withHanger_keeps (P := fun t => t.ledger.Agrees) hc (fun h hh => ?_)
  obtain rfl := State.hanger_tag hh
  split
  · rename_i r hloc
    split
    · exact hc
    · rename_i hst
      rw [not_or, not_not] at hst
      unfold State.resumeBy
      split
      · exact agrees_resumeInPlace hc hh hst.1 hloc
      · split
        · exact hc
        · exact agrees_beginAfresh hc hh hst.1
      · split
        · exact agrees_beginAfresh hc hh hst.1
        · exact hc
      all_goals exact hc
  · exact hc

theorem agrees_restartHanger (hc : s.ledger.Agrees) (tag : Nat) : (restartHanger tag s).1.ledger.Agrees := by
  unfold restartHanger
  refine withHanger_keeps (P := fun t => t.ledger.Agrees) hc (fun h hh => ?_)
  obtain rfl := State.hanger_tag hh
  split
  · rename_i r hloc
    split
    · exact hc
    · rename_i hst
      simp only [not_or, not_not] at hst
      have restarted := (hc.between_of_resting (ledger_hanger hh) (Or.inr hst.1)).modHanger
        (fun v => { v with state := .loaded, phase := none })
      refine agrees_createEntry (tag := h.tag) (h := { h.view with state := .loaded, phase := none }) ?_ ⟨Or.inl rfl, rfl, r, hloc⟩
        rfl r
      rw [ledger_rejoin, ledger_modHanger (f' := fun v => { v with state := .loaded, phase := none }) (by exact fun _ => ⟨rfl, rfl⟩)]
      exact restarted
  · exact hc

theorem ledger_endHold (t : State) (tag : Nat) :
    ({ t with gantryA := t.gantryA.clearHold tag, gantryB := t.gantryB.clearHold tag } : State).ledger = t.ledger.clearHold tag := by
  have view : ∀ g : Gantry, (g.clearHold tag).view = { g.view with hold := g.view.hold.filter (fun x => x.tag != tag) } := by
    intro g
    unfold Gantry.clearHold Gantry.view
    cases hx : g.hold with
    | none => simp [hx]
    | some x =>
      dsimp only
      split
      · rename_i e; simp [Option.filter_some, e]
      · rename_i e; simp [Option.filter_some, hx, e]
  unfold State.ledger Ledger.clearHold
  congr 1
  funext g
  cases g
  · exact view t.gantryA
  · exact view t.gantryB

theorem agrees_recover (hc : s.ledger.Agrees) (tag st sl : Nat) : (recover tag st sl s).1.ledger.Agrees := by
  unfold recover
  dsimp only
  split
  · exact hc
  · split
    · rename_i h hh
      split_ifs
      · exact hc
      · exact hc
      · exact hc
      · rename_i hst _
        refine together_keeps (P := fun t => t.ledger.Agrees) hc (fun t ht => ?_)
        have same := ledger_occupy ht
        have recovered := (hc.between_of_recovered (ledger_hanger hh) (not_not.1 hst)).modHanger
          (fun _ => { state := .aborted, phase := none, location := .slot { station := st, slot := sl } })
        dsimp only
        rw [ledger_endHold, ledger_modHanger
          (f' := fun _ => { state := .aborted, phase := none, location := .slot { station := st, slot := sl } }) (fun y => ?_),
          ledger_releaseAll, same]
        · exact recovered.rest ⟨Or.inr rfl, rfl, _, rfl⟩
        · have view := Hanger.view_modNewest (y.rest .recovered) RunEntry.markStranded
          exact ⟨Hanger.tag_modNewest (y.rest .recovered) _,
            congrArg (fun v : HangerView => { v with location := .slot { station := st, slot := sl } }) view⟩
    · exact hc

theorem agrees_unloaded (hc : s.ledger.Agrees) (st sl : Nat) : (unloaded st sl s).1.ledger.Agrees := by
  unfold unloaded
  dsimp only
  split_ifs
  · exact hc
  · exact hc
  · split
    · rename_i h hh
      refine together_keeps (P := fun t => t.ledger.Agrees) hc (fun t ht => ?_)
      have same := ledger_vacate ht
      unfold State.withdrawable at hh
      split at hh
      · rename_i tag _
        obtain ⟨hh, hst⟩ := Option.filter_eq_some_iff.1 hh
        obtain rfl := State.hanger_tag hh
        simp only [Bool.or_eq_true, beq_iff_eq] at hst
        have found := ledger_hanger hh
        have bears := hc.bears h.tag h.view found (by simp)
        have idle : ∀ m, s.ledger.move? h.tag = some m → ¬ m.InWork := by
          intro m hm
          rcases hst with (e | e) | e
          · unfold Ledger.Bears at bears
            rw [show h.view.state = .loaded from e] at bears
            obtain ⟨-, -, n, hn, hi⟩ := bears
            rw [hm] at hn; cases hn
            exact hi
          · rw [(bears.moveless (Or.inr (Or.inl e))).1] at hm; cases hm
          · rw [(bears.moveless (Or.inr (Or.inr e))).1] at hm; cases hm
        have between := hc.between_of_removed found
          (by show h.state ≠ _; rcases hst with (e | e) | e <;> rw [e] <;> decide) idle
        have gone : ((((t.leaveOrder h.tag).removeHangerMove h.tag).releaseAll h.tag).dropHanger h.tag).ledger.Agrees := by
          rw [ledger_dropHanger, ledger_releaseAll, ledger_removeMoveOf, ledger_leaveOrder, same]
          exact between.drop
        dsimp only
        split
        · rw [ledger_leaveRecipe]; exact gone
        · exact gone
      · cases hh
    · exact hc

end State

end Sys2Proof.Machine
end

