-- ==== Sys2Proof/Proofs/LedgerEvents.lean ====
section
/-! PROOFS. Aborts, rescue, the line time, the baths and the line modes keep the agreement: they leave the ledger as it is, or take
one hanger to rest or to RESCUED. -/

namespace Sys2Proof.Machine

namespace Ledger

variable {c : Ledger} {out away : Option Nat} {tag : Nat} {h : HangerView}

/-- R47, R48: the move of a hanger goes, and the hanger comes to rest ABORTED. -/
def abortRest (c : Ledger) (tag : Nat) : Ledger :=
  (c.removeMoveOf tag).modHanger tag (fun v => { v with state := .aborted, phase := none })

theorem AgreesBut.abortRest (hc : c.Agrees) (hh : c.hanger? tag = some h) (hs : h.state ≠ .stranded) (hl : ∃ r, h.location = .slot r)
    (hi : ∀ m, c.move? tag = some m → ¬ m.InWork) : (c.abortRest tag).Agrees :=
  ((hc.between_of_removed hh hs hi).modHanger _).rest ⟨Or.inr rfl, rfl, hl⟩

/-- R172: a hanger IMMERSED, or granted out of its slot, may be RESCUED. -/
theorem Bears.rescued (hb : c.Bears tag h) (hl : ∃ r, h.location = .slot r)
    (hs : h.state = .immersed ∨ (h.state = .inTransit ∧ h.phase = some .granted)) :
    c.Bears tag { h with state := .rescued, phase := none } := by
  unfold Bears at hb ⊢
  rcases hs with e | ⟨e, hp⟩
  · rw [e] at hb
    obtain ⟨-, -, m, hm, hi⟩ := hb
    exact ⟨rfl, hl, m, hm, fun hw => absurd hw hi⟩
  · rw [e] at hb
    obtain ⟨m, hm, ⟨-, hs, -⟩ | ⟨hp', -⟩⟩ := hb
    · exact ⟨rfl, hl, m, hm, fun _ => hs⟩
    · rw [hp] at hp'; cases hp'

/-- R165: the mode changes; none but an idle line has no gantry BUSY. -/
theorem AgreesBut.setIdle (hc : c.AgreesBut out away) {p : Prop} (hp : p → ∀ g, (c.gantry g).link ≠ .busy) :
    ({ c with idle := p } : Ledger).AgreesBut out away :=
  { hc with rests := hp, bears := fun t h hh ha => (hc.bears t h hh ha).congr rfl (fun _ _ h _ => h) }

end Ledger

namespace State

variable {s : State} {out away : Option Nat} {tag : Nat}

/-! ### Records of a state in agreement -/

theorem fits_of_mem (hc : s.ledger.AgreesBut out away) {m : Move} (hm : m ∈ s.moves) : m.Fits :=
  (Move.core_fits m).1 (hc.fits m.core (List.mem_map_of_mem hm))

theorem not_yielding_of_tag (hc : s.ledger.AgreesBut out away) {m : Move} (hm : m ∈ s.moves) (ht : m.tag = some tag) :
    m.kind ≠ .yielding := by
  intro hk
  obtain ⟨yields, -⟩ := fits_of_mem hc hm
  rw [(yields hk).1] at ht
  cases ht

theorem not_yielding_of_waiting (hc : s.ledger.AgreesBut out away) {m : Move} (hm : m ∈ s.moves) (hs : m.state = .waiting) :
    m.kind ≠ .yielding := by
  intro hk
  obtain ⟨yields, -⟩ := fits_of_mem hc hm
  obtain ⟨-, -, -, e⟩ := yields hk
  rcases e with e | e <;> rw [hs] at e <;> cases e

theorem idle_of_not_inWork {m : Move} (hw : ¬ m.InWork) : m.state = .waiting ∨ m.state = .ready := by
  unfold Move.InWork at hw
  cases e : m.state
  case waiting => exact Or.inl rfl
  case ready => exact Or.inr rfl
  all_goals simp [e] at hw

/-- Of the hangers one tag names, there is one. -/
theorem modHanger_congr (ht : s.tags.Nodup) {h : Hanger} {f g : Hanger → Hanger} (hh : s.hanger? tag = some h) (e : f h = g h) :
    s.modHanger tag f = s.modHanger tag g := by
  obtain ⟨hm, rfl⟩ := mem_of_hanger hh
  unfold State.modHanger
  congr 1
  refine List.map_congr_left (fun x hx => ?_)
  split
  · rename_i ex
    rw [List.inj_on_of_nodup_map ht hx hm ex, e]
  · rfl

theorem agrees_foldl {α : Type} {f : State → α → State} (hf : ∀ t a, t.ledger.Agrees → (f t a).ledger.Agrees) (l : List α) :
    ∀ s : State, s.ledger.Agrees → (l.foldl f s).ledger.Agrees := by
  induction l with
  | nil => exact fun _ hc => hc
  | cons a l ih => exact fun s hc => ih _ (hf s a hc)

/-- A loop whose turns leave the ledger as it is keeps the agreement. -/
theorem agrees_foldl_steady {α : Type} {f : State → α → State} (hf : ∀ t a, t.ledger.Agrees → (f t a).ledger = t.ledger) (l : List α)
    {s : State} (hc : s.ledger.Agrees) : (l.foldl f s).ledger.Agrees :=
  agrees_foldl (fun t a ht => by rw [hf t a ht]; exact ht) l s hc

/-! ### Ready times, predictions and rescue -/

theorem ledger_readyDue (hc : s.ledger.AgreesBut out away) (id : Nat) : (s.readyDue id).ledger = s.ledger := by
  unfold State.readyDue
  split
  · rename_i m hm
    obtain ⟨hmem, rfl⟩ := mem_of_move hm
    split
    · rename_i hw
      have kind := not_yielding_of_waiting hc hmem hw.1
      rw [ledger_announceId, ledger_modMove_at hc hmem (Move.core_idle kind kind (Or.inl hw.1) (Or.inr rfl) rfl rfl rfl rfl rfl rfl)]
    · rfl
  · rfl

theorem ledger_feedMove (hc : s.ledger.AgreesBut out away) (h : Hanger) : (s.feedMove h).ledger = s.ledger := by
  unfold State.feedMove
  split
  · rename_i m hm
    obtain ⟨hmem, ht, -⟩ := mem_of_hangerMove hm
    split
    · have kind := not_yielding_of_tag hc hmem ht
      have fed : ∀ a, (s.modMove m.id (fun _ => (m.timed h.imm s.lineTime a).settled s.lineTime)).ledger = s.ledger := by
        intro a
        refine ledger_modMove_at hc hmem ?_
        rw [Move.core_settled (by rw [(m.timed_fields _ _ _).2.1]; exact kind), Move.core_timed]
      dsimp only
      split
      · rw [ledger_announceId, fed]
      · exact fed _
    · rfl
  · rfl

theorem ledger_remakeOne (hc : s.ledger.AgreesBut out away) (st tag : Nat) : (s.remakeOne st tag).ledger = s.ledger := by
  unfold State.remakeOne
  split
  · rename_i h hh
    split
    · dsimp only
      have changed : (s.modHanger tag (fun _ => { h with imm := h.imm.repredict s.lineTime (s.rateOf st) s.grace })).ledger
          = s.ledger := by
        rw [modHanger_congr hc.tags (g := fun x => { x with imm := h.imm.repredict s.lineTime (s.rateOf st) s.grace }) hh rfl]
        exact ledger_modHanger_same (by exact fun _ => ⟨rfl, rfl⟩)
      rw [ledger_feedMove (by rw [changed]; exact hc), changed]
    · rfl
  · rfl

theorem ledger_rescueMove (hc : s.ledger.AgreesBut out away) (st tag : Nat) : (s.rescueMove st tag).ledger = s.ledger := by
  unfold State.rescueMove
  split
  · rename_i m hm
    obtain ⟨hmem, -⟩ := mem_of_hangerMove hm
    split
    · rfl
    · have timed : (s.modMove m.id (fun m => if m.state = .waiting then
          { m.rescueTimes s.lineTime (s.exitAllowance st) with state := .ready }
          else m.rescueTimes s.lineTime (s.exitAllowance st))).ledger = s.ledger := by
        refine ledger_modMove_at hc hmem ?_
        split
        · rename_i hw
          have kind := not_yielding_of_waiting hc hmem hw
          exact Move.core_idle kind kind (Or.inl hw) (Or.inr rfl) rfl rfl rfl rfl rfl rfl
        · rfl
      dsimp only
      split
      · rw [ledger_announceId]; exact timed
      · exact timed
  · rfl

/-- R172: the hanger rests in a slot, and may be RESCUED. -/
theorem restsIn_cases {h : Hanger} {st : Nat} (hr : h.restsIn st = true) : (∃ r, h.location = .slot r)
    ∧ (h.state = .immersed ∨ (h.state = .inTransit ∧ h.phase = some .granted)) := by
  unfold Hanger.restsIn at hr
  rw [Bool.and_eq_true, Bool.or_eq_true, Bool.and_eq_true] at hr
  simp only [beq_iff_eq] at hr
  refine ⟨?_, hr.2⟩
  cases hl : h.location with
  | slot r => exact ⟨r, rfl⟩
  | gantry g => rw [hl] at hr; cases hr.1

theorem agrees_rescueHanger (hc : s.ledger.Agrees) (st tag : Nat) : (s.rescueHanger st tag).ledger.Agrees := by
  unfold State.rescueHanger
  split
  · rename_i h hh
    split
    · rename_i hr
      obtain ⟨hl, hs⟩ := restsIn_cases hr
      have found := ledger_hanger hh
      have changed : (((s.modHanger tag (fun h => (h.signalled s.lineTime).rescued)).closeEntry tag h.imm.rescueCondition).modHanger tag
          (fun h => h.modNewest RunEntry.markRescued)).ledger
          = s.ledger.modHanger tag (fun v => { v with state := .rescued, phase := none }) := by
        rw [ledger_modHanger_same (fun h => ⟨Hanger.tag_modNewest h _, Hanger.view_modNewest h _⟩), ledger_closeEntry]
        exact ledger_modHanger (by exact fun _ => ⟨rfl, rfl⟩)
      have rescued : (s.ledger.modHanger tag (fun v => { v with state := .rescued, phase := none })).Agrees :=
        hc.modHanger_closed found (fun e => by
            rcases hs with e' | ⟨e', -⟩ <;> rw [show h.state = .stranded from e] at e' <;> cases e')
          ((hc.bears tag _ found (by simp)).rescued hl hs)
      rw [← changed] at rescued
      rw [ledger_rescueMove rescued]
      exact rescued
    · exact hc
  · exact hc

theorem agrees_assertLine (hc : s.ledger.Agrees) (l st tag : Nat) : (s.assertLine l st tag).ledger.Agrees := by
  unfold State.assertLine
  dsimp only
  exact agrees_foldl (fun t a ht => agrees_rescueHanger ht st a) _ _ (by simpa using hc)

theorem agrees_signal (hc : s.ledger.Agrees) (tag : Nat) : (s.signal tag).ledger.Agrees := by
  unfold State.signal
  split
  · split
    · have fired : (s.modHanger tag (fun h => { h with imm := { h.imm with fired := true } })).ledger = s.ledger :=
        ledger_modHanger_same (by exact fun _ => ⟨rfl, rfl⟩)
      dsimp only
      split
      · rw [ledger_notify, fired]; exact hc
      · split
        · rw [fired]; exact hc
        · exact agrees_assertLine (by rw [fired]; exact hc) _ _ _
    · exact hc
  · exact hc

theorem agrees_rateChanged (hc : s.ledger.Agrees) (st : Nat) : (s.rateChanged st).ledger.Agrees := by
  unfold State.rateChanged State.remakeStation
  exact agrees_foldl (fun t tag ht => agrees_signal ht tag) _ _ (agrees_foldl_steady (fun t tag ht => ledger_remakeOne ht st tag) _ hc)

theorem agrees_storeBath (hc : s.ledger.Agrees) (st : Nat) (old new : Bath) : (s.storeBath st old new).ledger.Agrees := by
  unfold State.storeBath
  split
  · exact hc
  · exact agrees_rateChanged (by rw [ledger_setBath]; exact hc) st

theorem agrees_setGrace (hc : s.ledger.Agrees) (g : Nat) : (setGrace g s).1.ledger.Agrees := by
  refine agrees_foldl (fun t tag ht => agrees_signal ht tag) s.tags _ ?_
  have regraced : ({ s with grace := clampNat 0 600 g, hangers := s.hangers.map (fun h =>
      { h with imm := h.imm.regrace (clampNat 0 600 g) }) } : State).ledger = s.ledger := ledger_mapHangers (fun _ => ⟨rfl, rfl⟩)
  exact regraced ▸ hc

/-! ### Baths -/

theorem ledger_placeInService (st : Nat) : (s.placeInService st).ledger = s.ledger := by
  unfold State.placeInService
  split
  · split
    · exact ledger_setReadiness _ _
    · rfl
  · rfl

theorem agrees_setBathRequest (hc : s.ledger.Agrees) (st : Nat) (b : BathSettings) : (setBathRequest st b s).1.ledger.Agrees := by
  unfold setBathRequest
  refine withBath_keeps (P := fun t => t.ledger.Agrees) hc (fun b => ?_)
  have written : ∀ n, (s.writeSettings st b n).ledger.Agrees := fun n => by
    unfold State.writeSettings
    rw [ledger_convertArea, ledger_staleDue, ledger_modBath, ledger_placeInService]
    exact agrees_storeBath hc st _ _
  dsimp only
  split_ifs
  · exact hc
  · exact hc
  all_goals exact written _

theorem agrees_bathReport (hc : s.ledger.Agrees) (st : Nat) (z : Int) : (bathReport st z s).1.ledger.Agrees := by
  unfold bathReport
  refine withBath_keeps (P := fun t => t.ledger.Agrees) hc (fun b => ?_)
  split
  · exact hc
  · show (s.acceptReading st b z).ledger.Agrees
    unfold State.acceptReading State.judge
    split
    · rw [ledger_tripBath]; exact agrees_storeBath hc st _ _
    · rw [ledger_setReadiness]; exact agrees_storeBath hc st _ _

/-! ### Aborts -/

theorem ledger_makeAbortMove (hc : s.ledger.AgreesBut out away) (hi : ∀ m, s.ledger.move? tag = some m → ¬ m.InWork) :
    (s.makeAbortMove tag).ledger = s.ledger := by
  unfold State.makeAbortMove
  split
  · rename_i m hm
    obtain ⟨hmem, ht, -⟩ := mem_of_hangerMove hm
    have kind := not_yielding_of_tag hc hmem ht
    have idle := idle_of_not_inWork (fun hw => hi m.core (by rw [State.ledger_move, hm]; rfl) ((Move.core_inWork m).2 hw))
    rw [ledger_announceId, ledger_modMove_at hc hmem ?_]
    unfold Move.toAbort
    split
    · exact Move.core_idle kind kind idle (Or.inr rfl) rfl rfl rfl rfl rfl rfl
    · exact Move.core_idle kind (by simp) idle (Or.inr rfl) rfl rfl rfl rfl rfl rfl
  · rfl

/-- R49: an abort that waits for its move leaves hanger and move as they are. -/
theorem ledger_abortStrict (hc : s.ledger.AgreesBut out away) (hi : ∀ m, s.ledger.move? tag = some m → ¬ m.InWork) :
    (s.abortStrict tag).ledger = s.ledger := by
  unfold State.abortStrict
  have changed : (((s.closeEntry tag .aborted).modHanger tag Hanger.stopCount).modHanger tag
      (fun h => { h with pendingAbort := true })).ledger = s.ledger := by
    rw [ledger_modHanger_same (by exact fun _ => ⟨rfl, rfl⟩), ledger_stopCount, ledger_closeEntry]
  rw [ledger_makeAbortMove (by rw [changed]; exact hc) (by rw [changed]; exact hi), changed]

theorem ledger_abortLoaded (tag : Nat) : (s.abortLoaded tag).ledger = s.ledger.abortRest tag := by
  unfold State.abortLoaded Ledger.abortRest
  rw [ledger_modHanger (f' := fun v => { v with state := .aborted, phase := none }) (by exact fun _ => ⟨rfl, rfl⟩), ledger_releaseAll,
    ledger_removeMoveOf, ledger_leaveOrder]

theorem ledger_abortInPlace (tag : Nat) : (s.abortInPlace tag).ledger = s.ledger.abortRest tag := by
  unfold State.abortInPlace Ledger.abortRest
  rw [ledger_modHanger (f' := fun v => { v with state := .aborted, phase := none }) (by exact fun _ => ⟨rfl, rfl⟩), ledger_stopCount,
    ledger_releaseAll, ledger_removeMoveOf, ledger_closeEntry]

/-- R46: the abort of a LOADED or IMMERSED hanger. -/
theorem agrees_abort_waiting (hc : s.ledger.Agrees) {h : Hanger} (hh : s.hanger? tag = some h)
    (hs : h.state = .loaded ∨ h.state = .immersed) :
    (s.ledger.abortRest tag).Agrees ∧ (s.abortStrict tag).ledger.Agrees := by
  have found := ledger_hanger hh
  have bears := hc.bears tag _ found (by simp)
  have waits : (∃ r, h.location = .slot r) ∧ ∃ m, s.ledger.move? tag = some m ∧ ¬ m.InWork := by
    unfold Ledger.Bears at bears
    rcases hs with e | e
    · rw [show h.view.state = .loaded from e] at bears; exact bears.2
    · rw [show h.view.state = .immersed from e] at bears; exact bears.2
  obtain ⟨hl, m, hm, idle⟩ := waits
  have idle : ∀ n, s.ledger.move? tag = some n → ¬ n.InWork := fun n hn => by rw [hm] at hn; cases hn; exact idle
  refine ⟨hc.abortRest found (fun e => ?_) hl idle, by rw [ledger_abortStrict hc idle]; exact hc⟩
  rcases hs with e' | e' <;> rw [show h.state = .stranded from e] at e' <;> cases e'

theorem agrees_abortHanger (hc : s.ledger.Agrees) (tag : Nat) : (abortHanger tag s).1.ledger.Agrees := by
  unfold abortHanger
  refine withHanger_keeps (P := fun t => t.ledger.Agrees) hc (fun h hh => ?_)
  have pend : (s.modHanger tag (fun h => { h with pendingAbort := true })).ledger.Agrees := by
    rw [ledger_modHanger_same (by exact fun _ => ⟨rfl, rfl⟩)]; exact hc
  split
  · exact hc
  · dsimp only
    split
    · rename_i e
      show (s.abortLoaded tag).ledger.Agrees
      rw [ledger_abortLoaded]
      exact (agrees_abort_waiting hc hh (Or.inl e)).1
    · rename_i e
      obtain ⟨rest, wait⟩ := agrees_abort_waiting hc hh (Or.inr e)
      split
      · exact wait
      · show (s.abortInPlace tag).ledger.Agrees
        rw [ledger_abortInPlace]
        exact rest
    · split
      · exact pend
      · rename_i hg
        have idle : ∀ m, s.ledger.move? tag = some m → ¬ m.InWork := by
          intro m hm hw
          rw [State.ledger_move] at hm
          obtain ⟨n, hn, rfl⟩ := Option.map_eq_some_iff.1 hm
          refine hg ?_
          unfold State.moveGranted
          rw [hn]
          obtain ⟨-, -, hp⟩ := mem_of_hangerMove hn
          rcases (Move.core_inWork n).1 hw with e | e | e
          · simp [e]
          · simp [e]
          · exact absurd e hp
        show (s.abortStrict tag).ledger.Agrees
        rw [ledger_abortStrict hc idle]
        exact hc
    · exact pend
    all_goals exact hc

/-! ### The mode of the line -/

theorem agrees_setMode (hc : s.ledger.Agrees) {m : LineMode} (hm : m = .idle → ∀ g, (s.gantry g).link ≠ .busy) (cause : Nat) :
    (s.setMode m cause).ledger.Agrees := by
  unfold State.setMode
  split
  · exact hc
  · rw [ledger_notify]
    exact hc.setIdle hm

theorem agrees_runLine (hc : s.ledger.Agrees) : (runLine s).1.ledger.Agrees := by
  unfold runLine
  split
  · exact hc
  · exact agrees_setMode (by rw [ledger_revalidateAll]; exact hc) (fun e => by cases e) _

theorem agrees_drainLine (hc : s.ledger.Agrees) : (drainLine s).1.ledger.Agrees := by
  unfold drainLine
  split
  · exact agrees_setMode hc (fun e => by cases e) _
  · exact hc

theorem agrees_holdLine (hc : s.ledger.Agrees) : (holdLine s).1.ledger.Agrees := by
  unfold holdLine
  split
  · exact agrees_setMode hc (fun e => by cases e) _
  · exact hc

theorem agrees_stopLine (hc : s.ledger.Agrees) : (stopLine s).1.ledger.Agrees := by
  unfold stopLine
  split
  · exact hc
  · rename_i hb
    rw [not_or] at hb
    refine agrees_setMode hc (fun _ g => ?_) _
    cases g
    · exact hb.1
    · exact hb.2

theorem agrees_holdAtDue (hc : s.ledger.Agrees) : s.holdAtDue.ledger.Agrees := by
  have cleared : ({ s with holdAt := none } : State).ledger.Agrees := hc
  unfold State.holdAtDue
  split
  · split
    · dsimp only
      split
      · exact agrees_setMode cleared (fun e => by cases e) _
      · exact cleared
    · exact hc
  · exact hc

end State

end Sys2Proof.Machine
end

