-- ==== Sys2Proof/Proofs/LedgerGantries.lean ====
section
/-! PROOFS. The gantries keep the agreement: a change of a link state, the moment at which a gantry gives up the move it holds, and
what then becomes of that move (R131, R143 to R148). -/

namespace Sys2Proof.Machine

/-- R145: the state a hanger returns to. -/
def HangerView.returned (v : HangerView) (entry : Bool) : HangerView :=
  if v.state = .inTransit then { v with state := if entry then .loaded else .immersed, phase := none } else v

/-- R145: a move returns to READY. -/
def MoveCore.returned (m : MoveCore) : MoveCore := { m with state := .ready, gantry := none, limited := false }

namespace Ledger

variable {c : Ledger} {out away : Option Nat} {tag : Nat} {g : GantryId} {l : LinkState} {m : MoveCore}

/-! ### Link states -/

/-- R131: the link state changes; leaving READY for a state other than BUSY takes the gantry's own YIELD move. -/
def relink (c : Ledger) (g : GantryId) (l : LinkState) : Ledger :=
  if (c.gantry g).link = l then c
  else if (c.gantry g).link = .ready ∧ l ≠ .busy then (c.dropYield g).setGantry g { c.gantry g with link := l }
  else c.setGantry g { c.gantry g with link := l }

/-- A gantry gives up the move it holds and leaves BUSY. -/
def release (c : Ledger) (g : GantryId) (l : LinkState) : Ledger := (c.setGantry g { c.gantry g with granted := none }).relink g l

theorem gantry_setGantry_self (v : GantryView) : (c.setGantry g v).gantry g = v := if_pos rfl

theorem setGantry_setGantry (v w : GantryView) : (c.setGantry g v).setGantry g w = c.setGantry g w := by
  unfold Ledger.setGantry
  congr 1
  funext g'
  dsimp only
  split <;> rfl

theorem setGantry_self : c.setGantry g (c.gantry g) = c := by
  unfold Ledger.setGantry
  congr 1
  funext g'
  split
  · rename_i e; rw [e]
  · rfl

theorem release_busy (hb : (c.gantry g).link = .busy) (hl : l ≠ .busy) :
    c.release g l = c.setGantry g { link := l, granted := none, hold := (c.gantry g).hold } := by
  unfold Ledger.release Ledger.relink
  rw [gantry_setGantry_self, if_neg (by rw [hb]; exact Ne.symm hl), if_neg (by rw [hb]; exact fun e => by cases e.1),
    setGantry_setGantry]

/-- R147: a gantry in service has no stranded hold. -/
theorem AgreesBut.no_hold (hc : c.AgreesBut out away) (h1 : (c.gantry g).link ≠ .faulted) (h2 : (c.gantry g).link ≠ .offline) :
    (c.gantry g).hold = none := by
  by_contra hn
  obtain ⟨x, hx⟩ := Option.ne_none_iff_exists'.1 hn
  exact (hc.holds g x hx).1.elim h1 h2

theorem AgreesBut.granted_none (hc : c.AgreesBut out away) (hb : (c.gantry g).link ≠ .busy) : (c.gantry g).granted = none :=
  by_contra fun hn => hb ((hc.busy g).2 hn)

/-- A gantry that is not BUSY enters a state in which it may have the stranded hold it has. -/
theorem AgreesBut.relink (hc : c.AgreesBut out away) (hb : (c.gantry g).link ≠ .busy) (hl : l ≠ .busy)
    (hh : (c.gantry g).hold ≠ none → l = .faulted ∨ l = .offline) : (c.relink g l).AgreesBut out away := by
  have free := hc.granted_none hb
  have idle : l = .busy ↔ (c.gantry g).granted ≠ none := ⟨fun e => absurd e hl, fun e => absurd free e⟩
  have old : ∀ id, (c.gantry g).granted = some id → out = some id := fun id e => by rw [free] at e; cases e
  have new : ∀ ms : List MoveCore, ∀ id, (c.gantry g).granted = some id → ∃ m ∈ ms, m.id = id ∧ m.InWork ∧ m.gantry = some g :=
    fun ms id e => by rw [free] at e; cases e
  unfold Ledger.relink
  split
  · exact hc
  · split
    · have dropped : (c.dropYield g).AgreesBut out away := hc.prune (fun m => m.gantry == some g)
      refine dropped.setGantry rfl idle old (new _) hh (fun m hm hy hs hg => ?_) (fun _ => hl)
      have kept := (List.mem_filter.1 hm).2
      simp [hy, hs, hg] at kept
    · rename_i hr
      refine hc.setGantry rfl idle old (new _) hh (fun m hm hy hs hg => ?_) (fun _ => hl)
      exact absurd ⟨(hc.owns g m hm hy hs hg).1, hl⟩ hr

/-- A gantry that gives up its move leaves that move to be disposed of. -/
theorem AgreesBut.release (hc : c.AgreesBut none away) (hl : l ≠ .busy) (hh : (c.gantry g).hold ≠ none → l = .faulted ∨ l = .offline) :
    (c.release g l).AgreesBut (c.gantry g).granted away := by
  by_cases hb : (c.gantry g).link = .busy
  · rw [release_busy hb hl]
    refine (hc.loosen _).setGantry rfl ⟨fun e => absurd e hl, fun e => absurd rfl e⟩ (fun id e => e) (fun id e => by cases e) hh
      (fun m hm hy hs hg => ?_) (fun _ => hl)
    rw [(hc.owns g m hm hy hs hg).1] at hb
    cases hb
  · have free := hc.granted_none hb
    have same : c.setGantry g { c.gantry g with granted := none } = c := by
      rw [← free]; exact setGantry_self
    unfold Ledger.release
    rw [same, free]
    exact hc.relink hb hl hh

/-- No gantry holds a move that its own gantry has given up. -/
theorem AgreesBut.not_held (hc : c.AgreesBut out away) (hm : m ∈ c.moves) (hg : m.gantry = some g)
    (hn : (c.gantry g).granted = none) (g' : GantryId) : (c.gantry g').granted ≠ some m.id := by
  intro e
  obtain ⟨x, hx, hid, -, hxg⟩ := hc.grants g' _ e
  rw [hc.same_move hm hx hid, hg] at hxg
  cases hxg
  rw [hn] at e
  cases e

/-! ### The return to READY (R145) -/

/-- R145: the granted move of a hanger that no gantry holds returns to READY, and its hanger to the state it had. -/
theorem AgreesBut.returned (hc : c.AgreesBut (some m.id) none) (hm : m ∈ c.moves) (hs : m.state = .granted) (ht : m.tag = some tag)
    (hg : ∀ g, (c.gantry g).granted ≠ some m.id) (entry : Bool) :
    ((c.modMove m.id MoveCore.returned).modHanger tag (fun v => v.returned entry)).Agrees
      ∧ ∀ n, ((c.modMove m.id MoveCore.returned).modHanger tag (fun v => v.returned entry)).move? tag = some n → ¬ n.InWork := by
  obtain ⟨h, hh, bears, hmv, unheld⟩ := hc.hanger_of_move hm ht (by rw [hs]; decide)
  have idle : ¬ m.returned.InWork := by rintro (e | e | e) <;> cases e
  have yields := (hc.fits m hm).not_yields ht
  have fits : m.returned.Fits :=
    { yields := fun e => by cases yields.symm.trans e
      others := fun e => ⟨((hc.fits m hm).others e).1, ((hc.fits m hm).others e).2.1, fun _ => rfl⟩
      leads := fun e => absurd e idle
      limits := fun _ => rfl }
  have changed : (c.modMove m.id MoveCore.returned).AgreesBut (some m.id) (some tag) := by
    rw [← ht]
    exact (hc.spare m.tag).modMove hm (by rw [hs]; decide) (fun _ => rfl) rfl fits (fun g e => absurd e (hg g))
      (fun e => by cases yields.symm.trans e)
  have back : (c.modMove m.id MoveCore.returned).AgreesBut none (some tag) := by
    refine changed.tighten (fun x hx e hw => ?_)
    rcases hc.mem_modMove hm hx with ⟨-, hne⟩ | rfl
    · exact absurd e hne
    · exact absurd hw idle
  have found : (c.modMove m.id MoveCore.returned).move? tag = some m.returned :=
    back.move_of_mem (mem_modMove_self _ hm) ht (fun e => idle (Or.inr (Or.inr e)))
  have waits : (h.returned entry).Waits := by
    obtain ⟨⟨r, hl⟩, ⟨hst, hp⟩ | ⟨hst, -⟩⟩ := bears.granted hmv hs
    · unfold HangerView.returned
      rw [if_neg (by rw [hst]; decide)]
      exact ⟨Or.inr (Or.inr hst), hp, r, hl⟩
    · unfold HangerView.returned
      rw [if_pos hst]
      cases entry
      · exact ⟨Or.inr (Or.inl rfl), rfl, r, hl⟩
      · exact ⟨Or.inl rfl, rfl, r, hl⟩
  refine ⟨(back.modHanger unheld _).close (fun y hy => ?_), fun n hn => ?_⟩
  · rw [hanger_modHanger_self (c := c.modMove m.id MoveCore.returned) hh] at hy
    cases hy
    exact Bears.of_waits waits found idle
  · have hn' : (c.modMove m.id MoveCore.returned).move? tag = some n := hn
    rw [found] at hn'
    cases hn'
    exact idle

/-! ### Stranding (R147) -/

/-- R147: the hanger of a carried move that its gantry has given up is stranded on it, and the move goes. -/
theorem AgreesBut.stranded (hc : c.AgreesBut (some m.id) none) (hm : m ∈ c.moves) (hs : m.state = .carried) (ht : m.tag = some tag)
    (hmg : m.gantry = some g) (hn : (c.gantry g).granted = none) (hh : (c.gantry g).hold = none)
    (hl : (c.gantry g).link = .faulted ∨ (c.gantry g).link = .offline) (d : SlotRef) :
    (((c.removeMove m.id).modHanger tag (fun v => { v with state := .stranded, location := .gantry g, phase := none })).setGantry g
      { c.gantry g with hold := some { tag := tag, dest := d } }).Agrees := by
  obtain ⟨h, hf, -, hmv, unheld⟩ := hc.hanger_of_move hm ht (by rw [hs]; decide)
  have gone : (c.removeMove m.id).AgreesBut none (some tag) :=
    ((hc.spare (some tag)).removeMove hm (hc.not_held hm hmg hn) (Or.inr (Or.inr ht))).removeMove_out
  have moved := gone.modHanger unheld (fun v => { v with state := .stranded, location := .gantry g, phase := none })
  have found : ((c.removeMove m.id).modHanger tag
      (fun v => { v with state := .stranded, location := .gantry g, phase := none })).hanger? tag
      = some { h with state := .stranded, location := .gantry g, phase := none } :=
    hanger_modHanger_self (c := c.removeMove m.id) hf
  refine (moved.strand (d := d) hh hl found rfl rfl).close (fun y hy => ?_)
  obtain rfl := Option.some.inj (hy.symm.trans found)
  exact ⟨hc.move_removeMove hmv, rfl, g, _, rfl, congrArg GantryView.hold (gantry_setGantry_self _), rfl⟩

/-- R143, R146, R148: a YIELD or placed move that its gantry has given up goes. -/
theorem AgreesBut.spent (hc : c.AgreesBut (some m.id) none) (hm : m ∈ c.moves) (hmg : m.gantry = some g)
    (hn : (c.gantry g).granted = none) (ht : m.state = .placed ∨ m.tag = none) : (c.removeMove m.id).Agrees :=
  (hc.removeMove hm (hc.not_held hm hmg hn) (ht.imp_right Or.inl)).removeMove_out

end Ledger

namespace State

variable {s : State} {out away : Option Nat} {tag : Nat} {g : GantryId} {m : Move}

/-! ### Link states -/

theorem ledger_setLink (g : GantryId) (l : LinkState) : (s.setLink g l).ledger = s.ledger.relink g l := by
  have linked : ((s.modGantry g (fun r => { r with link := l })).notifyGantry g).ledger
      = s.ledger.setGantry g { s.ledger.gantry g with link := l } := by
    rw [ledger_notifyGantry, ledger_modGantry]; rfl
  unfold State.setLink Ledger.relink
  by_cases h1 : (s.gantry g).link = l
  · rw [if_pos h1, if_pos (show (s.ledger.gantry g).link = l from h1)]
  · rw [if_neg h1, if_neg (show ¬ (s.ledger.gantry g).link = l from h1)]
    dsimp only
    by_cases h2 : (s.gantry g).link = .ready ∧ l ≠ .busy
    · rw [if_pos h2, if_pos (show (s.ledger.gantry g).link = .ready ∧ l ≠ .busy from h2), ledger_removeOwnYield, linked]; rfl
    · rw [if_neg h2, if_neg (show ¬ ((s.ledger.gantry g).link = .ready ∧ l ≠ .busy) from h2)]
      exact linked

theorem agrees_setLink (hc : s.ledger.Agrees) {l : LinkState} (hb : (s.gantry g).link ≠ .busy) (hl : l ≠ .busy)
    (hh : (s.gantry g).hold ≠ none → l = .faulted ∨ l = .offline) : (s.setLink g l).ledger.Agrees := by
  rw [ledger_setLink]
  exact hc.relink hb hl hh

/-- A gantry's record changed in what the agreement does not see, and then its link state. -/
theorem agrees_modGantry_setLink (hc : s.ledger.Agrees) {f : Gantry → Gantry} {l : LinkState}
    (hf : (f (s.gantry g)).view = (s.gantry g).view) (hb : (s.gantry g).link ≠ .busy) (hl : l ≠ .busy)
    (hh : (s.gantry g).hold ≠ none → l = .faulted ∨ l = .offline) : ((s.modGantry g f).setLink g l).ledger.Agrees := by
  rw [ledger_setLink, ledger_modGantry_same g hf]
  exact hc.relink hb hl hh

/-- A gantry whose record no longer names its move leaves BUSY. -/
theorem ledger_release {f : Gantry → Gantry} (l : LinkState)
    (hf : (f (s.gantry g)).view = { (s.gantry g).view with granted := none }) :
    ((s.modGantry g f).setLink g l).ledger = s.ledger.release g l := by
  rw [ledger_setLink, ledger_modGantry, hf]; rfl

theorem no_hold_in_service (hc : s.ledger.AgreesBut out away) {l : LinkState} (hl : (s.gantry g).link = l) (h1 : l ≠ .faulted)
    (h2 : l ≠ .offline) : (s.gantry g).hold = none := hc.no_hold (g := g) (fun e => h1 (hl.symm.trans e)) (fun e => h2 (hl.symm.trans e))

theorem agrees_gantryPause (hc : s.ledger.Agrees) (x : Nat) : (gantryPause x s).1.ledger.Agrees := by
  unfold gantryPause
  refine withGantry_keeps (P := fun t => t.ledger.Agrees) hc (fun g => ?_)
  split
  · rename_i hl
    show ((s.setLink g .paused).notifyPause g 0).ledger.Agrees
    rw [ledger_notifyPause]
    exact agrees_setLink hc (by rw [hl]; decide) (by decide) (absurd (no_hold_in_service hc hl (by decide) (by decide)))
  · split
    · exact hc
    · show ((s.modGantry g _).notifyPause g 1).ledger.Agrees
      rw [ledger_notifyPause, ledger_modGantry_same g (by rfl)]
      exact hc
  all_goals exact hc

theorem agrees_gantryResume (hc : s.ledger.Agrees) (x : Nat) : (gantryResume x s).1.ledger.Agrees := by
  unfold gantryResume
  refine withGantry_keeps (P := fun t => t.ledger.Agrees) hc (fun g => ?_)
  split
  · rename_i hl
    show (((s.setLink g .ready).notifyPause g 2).readyWork g).ledger.Agrees
    rw [ledger_readyWork, ledger_notifyPause]
    exact agrees_setLink hc (by rw [hl]; decide) (by decide) (absurd (no_hold_in_service hc hl (by decide) (by decide)))
  · split
    · show ((s.modGantry g _).notifyPause g 2).ledger.Agrees
      rw [ledger_notifyPause, ledger_modGantry_same g (by rfl)]
      exact hc
    · exact hc

/-- R132: a gantry on which no hanger is STRANDED has no stranded hold. -/
theorem no_hold_of_strandedOn (hc : s.ledger.AgreesBut out away) (hn : s.strandedOn g = false) : (s.gantry g).hold = none := by
  by_contra hx
  obtain ⟨x, hx⟩ := Option.ne_none_iff_exists'.1 hx
  obtain ⟨-, v, hv, hs, hl⟩ := hc.holds g x hx
  obtain ⟨h, hh, rfl⟩ := Option.map_eq_some_iff.1 hv
  have on : s.strandedOn g = true := by
    refine List.any_eq_true.2 ⟨h, (mem_of_hanger hh).1, ?_⟩
    rw [Bool.and_eq_true, beq_iff_eq, beq_iff_eq]
    exact ⟨hs, hl⟩
  rw [hn] at on
  cases on

theorem agrees_hello (hc : s.ledger.Agrees) (g : GantryId) : (hello g s).1.ledger.Agrees := by
  unfold hello
  dsimp only
  split
  · rename_i hl
    split_ifs
    · exact hc
    · exact hc
    · rename_i hn _
      exact agrees_modGantry_setLink hc rfl (by rw [hl]; decide) (by decide)
        (fun e => absurd (no_hold_of_strandedOn hc (by simpa using hn)) e)
  · exact hc
  · exact hc

theorem agrees_homed (hc : s.ledger.Agrees) (g : GantryId) : (homed g s).1.ledger.Agrees := by
  unfold homed
  split
  · rename_i hl
    show (((s.modGantry g (fun r => r.standAt r.homing)).setLink g .ready).readyWork g).ledger.Agrees
    rw [ledger_readyWork]
    exact agrees_modGantry_setLink hc rfl (by rw [hl]; decide) (by decide) (absurd (no_hold_in_service hc hl (by decide) (by decide)))
  · exact hc

/-! ### The move a gantry gives up -/

/-- R52: the pending abort of a hanger that has returned. -/
theorem agrees_abortReturned (hc : s.ledger.Agrees) {h : Hanger} (hh : s.hanger? tag = some h)
    (hi : ∀ n, s.ledger.move? tag = some n → ¬ n.InWork) : (s.abortReturned tag h).ledger.Agrees := by
  unfold State.abortReturned
  split
  · rename_i e
    rw [ledger_abortLoaded]
    exact (agrees_abort_waiting hc hh (Or.inl e)).1
  · rename_i e
    obtain ⟨rest, wait⟩ := agrees_abort_waiting hc hh (Or.inr e)
    split
    · exact wait
    · rw [ledger_abortInPlace]; exact rest
  · rw [ledger_abortStrict hc hi]; exact hc

theorem view_returned (h : Hanger) (k : MoveKind) : (h.returned k).view = h.view.returned (k == .entry) := by
  unfold Hanger.returned HangerView.returned
  by_cases e : h.state = .inTransit
  · rw [if_pos e, if_pos (show h.view.state = .inTransit from e)]
    cases k <;> rfl
  · rw [if_neg e, if_neg (show ¬ h.view.state = .inTransit from e)]

theorem tag_returned (h : Hanger) (k : MoveKind) : (h.returned k).tag = h.tag := congrArg HangerCore.tag (Hanger.core_returned h k)

theorem agrees_returnToReady (hc : s.ledger.AgreesBut (some m.id) none) (hm : m ∈ s.moves) (hs : m.state = .granted)
    (hk : m.kind ≠ .yielding) (hg : ∀ g, (s.gantry g).granted ≠ some m.id) : (s.returnToReady m).ledger.Agrees := by
  have hmem : m.core ∈ s.ledger.moves := List.mem_map_of_mem hm
  obtain ⟨-, others, -, -⟩ := fits_of_mem hc hm
  obtain ⟨tag, ht⟩ := Option.ne_none_iff_exists'.1 (others hk).1
  have state : m.core.state = .granted := by rw [Move.core_state (by rw [hs]; decide), hs]
  obtain ⟨agrees, idle⟩ := Ledger.AgreesBut.returned (m := m.core) hc hmem state ht hg (m.kind == .entry)
  obtain ⟨v, hv⟩ := Option.ne_none_iff_exists'.1 (hc.live _ hmem (by rw [state]; decide) tag ht)
  obtain ⟨h, hh, -⟩ := Option.map_eq_some_iff.1 hv
  obtain rfl := State.hanger_tag hh
  have ledger : ((s.modMove m.id Move.returned).modHanger h.tag (fun h => h.returned m.kind)).ledger
      = (s.ledger.modMove m.id MoveCore.returned).modHanger h.tag (fun v => v.returned (m.kind == .entry)) := by
    rw [ledger_modHanger (f' := fun v => v.returned (m.kind == .entry)) (fun x => ⟨tag_returned x m.kind, view_returned x m.kind⟩),
      ledger_modMove (f' := MoveCore.returned) (fun x => by simp [Move.core, Move.returned, MoveCore.returned])]
  rw [show m.core.id = m.id from rfl, ← ledger] at agrees idle
  have found : ((s.modMove m.id Move.returned).modHanger h.tag (fun h => h.returned m.kind)).hanger? h.tag
      = some (h.returned m.kind) := by
    rw [State.hanger_modHanger (fun x => tag_returned x m.kind), if_pos rfl]
    exact congrArg (Option.map _) hh
  unfold State.returnToReady
  dsimp only
  rw [ht, Option.bind_some, hh]
  dsimp only
  split
  · exact agrees_abortReturned agrees found idle
  · split
    · rw [ledger_announceId, ledger_rejoin]; exact agrees
    · rw [ledger_announceId]; exact agrees

/-- R146, R148: what becomes of the move a gantry out of service has given up. -/
theorem agrees_dispose (hc : s.ledger.AgreesBut (some m.id) none) (hm : m ∈ s.moves) (hw : m.InWork) (hmg : m.gantry = some g)
    (hn : (s.gantry g).granted = none) (hh : (s.gantry g).hold = none)
    (hl : (s.gantry g).link = .faulted ∨ (s.gantry g).link = .offline) : (s.dispose g m).ledger.Agrees := by
  have hmem : m.core ∈ s.ledger.moves := List.mem_map_of_mem hm
  obtain ⟨yields, others, leads, -⟩ := fits_of_mem hc hm
  have spent : m.core.state = .placed ∨ m.tag = none → (s.removeMove m.id).ledger.Agrees := fun e => by
    rw [ledger_removeMove]
    exact Ledger.AgreesBut.spent (m := m.core) hc hmem hmg hn e
  unfold State.dispose
  split
  · rename_i hs
    split
    · rename_i hk
      exact spent (Or.inr (yields hk).1)
    · rename_i hk
      exact agrees_returnToReady hc hm hs hk (hc.not_held hmem hmg hn)
  · rename_i hs
    have state : m.core.state = .carried := by rw [Move.core_state (by rw [hs]; decide), hs]
    have kind : m.kind ≠ .yielding := fun e => by
      obtain ⟨-, -, -, e'⟩ := yields e
      rcases e' with e' | e' <;> rw [hs] at e' <;> cases e'
    obtain ⟨tag, ht⟩ := Option.ne_none_iff_exists'.1 (others kind).1
    obtain ⟨p, hp⟩ := Option.ne_none_iff_exists'.1 (leads hw)
    cases p with
    | point x => exact absurd hp ((others kind).2.1 x)
    | slot d =>
      have stranded := Ledger.AgreesBut.stranded (m := m.core) hc hmem state ht hmg hn hh hl d
      unfold State.strand
      rw [ht, hp]
      dsimp only
      rw [ledger_notify, ledger_modGantry, ledger_modHanger
        (f' := fun v => { v with state := .stranded, location := .gantry g, phase := none }) (by exact fun _ => ⟨rfl, rfl⟩),
        ledger_removeMove]
      have same : ∀ f, ((s.removeMove m.id).modHanger tag f).gantry g = s.gantry g := fun f => by cases g <;> rfl
      rw [same]
      exact stranded
  · rename_i h1 h2
    rcases hw with e | e | e
    · exact absurd e h1
    · exact absurd e h2
    · exact spent (Or.inl ((Move.core_placed m).2 e))

end State

end Sys2Proof.Machine
end

