-- ==== Sys2Proof/Proofs/LedgerReports.lean ====
section
/-! PROOFS. The reports of the gantries, their faults, their limits and their resets keep the agreement. -/

namespace Sys2Proof.Machine

/-- R141: a hanger carried by a gantry. -/
def HangerView.onGantry (g : GantryId) : HangerView := { state := .inTransit, phase := some .carried, location := .gantry g }

namespace Ledger

variable {c : Ledger} {tag : Nat} {g : GantryId} {l : LinkState} {m : MoveCore}

/-- R131: the move a gantry holds from its grant is one in work on it, and the gantry is BUSY with no stranded hold. -/
theorem AgreesBut.works_on {out away : Option Nat} (hc : c.AgreesBut out away) (hm : m ∈ c.moves)
    (hg : (c.gantry g).granted = some m.id) :
    m.InWork ∧ m.gantry = some g ∧ (c.gantry g).link = .busy ∧ (c.gantry g).hold = none := by
  obtain ⟨x, hx, hid, hw, hxg⟩ := hc.grants g _ hg
  obtain rfl := hc.same_move hm hx hid
  have busy := (hc.busy g).2 (by rw [hg]; simp)
  exact ⟨hw, hxg, busy, hc.no_hold (by rw [busy]; decide) (by rw [busy]; decide)⟩

/-- What a gantry that has given up its move is. -/
theorem gantry_release (hb : (c.gantry g).link = .busy) (hl : l ≠ .busy) :
    (c.release g l).gantry g = { link := l, granted := none, hold := (c.gantry g).hold } := by
  rw [release_busy hb hl, gantry_setGantry_self]

theorem moves_release (hb : (c.gantry g).link = .busy) (hl : l ≠ .busy) : (c.release g l).moves = c.moves := by
  rw [release_busy hb hl]; rfl

/-- A BUSY gantry gives up its move before the move goes, or after. -/
theorem removeMove_release (hb : (c.gantry g).link = .busy) (hl : l ≠ .busy) (id : Nat) :
    (c.removeMove id).release g l = (c.release g l).removeMove id := by
  rw [release_busy hb hl, release_busy (c := c.removeMove id) hb hl]; rfl

/-- R141: the hanger of a granted move is lifted off its slot. -/
theorem AgreesBut.lifted (hc : c.Agrees) (hm : m ∈ c.moves) (ht : m.tag = some tag) (hs : m.state = .granted)
    (hmg : m.gantry = some g) : ((c.modHanger tag (fun _ => .onGantry g)).modMove
      m.id (fun x => { x with state := .carried })).Agrees := by
  obtain ⟨h, hh, -, -, unheld⟩ := hc.hanger_of_move hm ht (by rw [hs]; decide)
  have work : m.InWork := Or.inl hs
  have carried : MoveCore.InWork { m with state := .carried } := Or.inr (Or.inl rfl)
  have yields := (hc.fits m hm).not_yields ht
  obtain ⟨-, others, leads, -⟩ := hc.fits m hm
  have moved := (hc.spare (some tag)).modHanger unheld (fun _ => .onGantry g)
  rw [← ht] at moved
  have changed := moved.rework (f := fun x => { x with state := .carried }) hm work (by rw [hs]; decide) (fun _ => rfl) rfl rfl carried
    { yields := fun e => by cases yields.symm.trans e
      others := fun e => ⟨(others e).1, (others e).2.1, fun e' => absurd carried e'⟩
      leads := fun _ => leads work
      limits := fun e' => absurd carried e' }
  rw [ht] at changed
  refine changed.close (fun y hy => ?_)
  have hy' : (c.modHanger tag (fun _ => .onGantry g)).hanger? tag = some y := hy
  rw [hanger_modHanger_self hh] at hy'
  cases hy'
  refine ⟨{ m with state := .carried }, changed.move_of_mem ?_ ht (by simp), Or.inr ⟨rfl, rfl, g, rfl, hmg⟩⟩
  exact mem_modMove_self (c := c.modHanger tag _) (fun x => { x with state := .carried }) hm

end Ledger

namespace State

variable {s : State} {tag : Nat} {g : GantryId} {m : Move}

/-! ### Failures (R146, R148) -/

theorem link_dispose (s : State) (g : GantryId) (m : Move) (g' : GantryId) :
    ((s.dispose g m).gantry g').link = (s.gantry g').link := by
  have removed : ((s.removeMove m.id).gantry g').link = (s.gantry g').link := by cases g' <;> rfl
  unfold State.dispose
  split
  · split
    · exact removed
    · cases g' <;> simp [State.gantry]
  · unfold State.strand
    split
    · have held : ∀ t : State, ∀ x, ((t.modGantry g (fun r => { r with hold := x })).gantry g').link = (t.gantry g').link := by
        intro t x
        rw [State.gantry_modGantry]
        split
        · rename_i e; rw [e]
        · rfl
      have noticed : ∀ t : State, ∀ k a b c d e, ((t.notify k a b c d e).gantry g').link = (t.gantry g').link := by
        intro t k a b c d e
        cases g' <;> simp [State.gantry]
      rw [noticed, held]
      cases g' <;> rfl
    · exact removed
  · exact removed

/-- The move of a gantry that fails is disposed of. -/
theorem agrees_failed (hc : s.ledger.Agrees) (hm : m ∈ s.moves) (hg : (s.gantry g).granted = some m.id) {t : State} {l : LinkState}
    (hl : l = .faulted ∨ l = .offline) (ht : t.ledger = s.ledger.release g l) (hmt : m ∈ t.moves) : (t.dispose g m).ledger.Agrees := by
  have idle : l ≠ .busy := by rcases hl with e | e <;> rw [e] <;> decide
  obtain ⟨work, on, busy, hold⟩ := hc.works_on (m := m.core) (List.mem_map_of_mem hm) hg
  have gantry := Ledger.gantry_release (c := s.ledger) busy idle
  have agrees := hc.release (g := g) idle (fun _ => hl)
  rw [← ht] at gantry agrees
  have granted : (s.ledger.gantry g).granted = some m.id := hg
  rw [granted] at agrees
  have view : (t.gantry g).view = { link := l, granted := none, hold := (s.ledger.gantry g).hold } := gantry
  refine agrees_dispose agrees hmt ((Move.core_inWork m).1 work) on (congrArg GantryView.granted view) ?_ ?_
  · exact (congrArg GantryView.hold view).trans hold
  · rw [show (t.gantry g).link = l from congrArg GantryView.link view]; exact hl

/-- R127: the move a gantry holds from its grant. -/
theorem mem_of_grantedMove (hm : s.grantedMove? g = some m) : m ∈ s.moves ∧ (s.gantry g).granted = some m.id := by
  obtain ⟨id, hg, hm⟩ := Option.bind_eq_some_iff.1 hm
  obtain ⟨hmem, rfl⟩ := mem_of_move hm
  exact ⟨hmem, hg⟩

theorem granted_none_of_grantedMove (hc : s.ledger.Agrees) (hn : s.grantedMove? g = none) : (s.gantry g).granted = none := by
  cases hg : (s.gantry g).granted with
  | none => rfl
  | some id =>
    obtain ⟨x, hx, hid, -⟩ := hc.grants g id hg
    obtain ⟨m, hm, rfl⟩ := List.mem_map.1 hx
    unfold State.grantedMove? at hn
    rw [hg, Option.bind_some] at hn
    have absent := List.find?_eq_none.1 hn m hm
    exact absurd (beq_iff_eq.2 hid) absent

theorem agrees_faultGantry (hc : s.ledger.Agrees) (g : GantryId) (code : Nat) : (s.faultGantry g code).ledger.Agrees := by
  have ledger : ((s.modGantry g (fun r => r.failed (some code))).setLink g .faulted).ledger = s.ledger.release g .faulted :=
    ledger_release _ rfl
  unfold State.faultGantry
  dsimp only
  split
  · rename_i m hm
    obtain ⟨hmem, hg⟩ := mem_of_grantedMove hm
    have work := (hc.works_on (m := m.core) (List.mem_map_of_mem hmem) hg).1
    exact agrees_failed hc hmem hg (Or.inl rfl) ledger
      (mem_setLink (by simpa using hmem) (Or.inr (Move.not_ready_of_inWork ((Move.core_inWork m).1 work))))
  · rename_i hm
    have agrees := hc.release (g := g) (l := .faulted) (by decide) (fun _ => Or.inl rfl)
    rw [← ledger] at agrees
    have none : (s.ledger.gantry g).granted = none := granted_none_of_grantedMove hc hm
    rw [none] at agrees
    exact agrees

theorem agrees_fault (hc : s.ledger.Agrees) (g : GantryId) (pr id code : Nat) : (fault g pr id code s).1.ledger.Agrees := by
  have faulted := agrees_faultGantry hc g code
  unfold fault
  split
  · exact report_keeps (P := fun t => t.ledger.Agrees) hc (fun _ _ _ _ _ => faulted)
  · split
    · exact hc
    · exact faulted
  · exact hc

theorem agrees_resetBusy (hc : s.ledger.Agrees) (hb : (s.gantry g).link = .busy) :
    (s.resetBusy g).ledger.Agrees ∧ ((s.resetBusy g).gantry g).link = .faulted := by
  have ledger : (s.modGantry g (fun r => { r.failed (some 0) with link := .faulted })).ledger = s.ledger.release g .faulted := by
    rw [ledger_modGantry, Ledger.release_busy (c := s.ledger) hb (by decide)]; rfl
  have link : ((s.modGantry g (fun r => { r.failed (some 0) with link := .faulted })).gantry g).link = .faulted := by
    rw [State.gantry_modGantry, if_pos rfl]
  unfold State.resetBusy
  dsimp only
  split
  · rename_i m hm
    obtain ⟨hmem, hg⟩ := mem_of_grantedMove hm
    exact ⟨agrees_failed hc hmem hg (Or.inl rfl) ledger (by simpa using hmem), by rw [link_dispose]; exact link⟩
  · rename_i hm
    exact absurd (granted_none_of_grantedMove hc hm) ((hc.busy g).1 hb)

theorem agrees_gantryReset (hc : s.ledger.Agrees) (x : Nat) : (gantryReset x s).1.ledger.Agrees := by
  unfold gantryReset
  refine withGantry_keeps (P := fun t => t.ledger.Agrees) hc (fun g => ?_)
  split
  · exact hc
  · rename_i hb
    obtain ⟨agrees, link⟩ := agrees_resetBusy hc hb
    exact agrees_setLink agrees (by rw [link]; decide) (by decide) (fun _ => Or.inr rfl)
  · rename_i hb
    exact agrees_modGantry_setLink hc rfl hb (by decide) (fun _ => Or.inr rfl)

theorem agrees_limitDue (hc : s.ledger.Agrees) (id : Nat) : (s.limitDue id).ledger.Agrees := by
  unfold State.limitDue
  split
  · rename_i m hm
    obtain ⟨hmem, rfl⟩ := mem_of_move hm
    split
    · rename_i t g hl hg
      split
      · obtain ⟨-, -, -, limits⟩ := fits_of_mem hc hmem
        have work : m.InWork := by
          by_contra hn
          rw [limits hn] at hl
          cases hl
        obtain ⟨g', hg', held⟩ := hc.works m.core (List.mem_map_of_mem hmem) ((Move.core_inWork m).2 work) (by simp)
        rw [show m.core.gantry = some g from hg] at hg'
        cases hg'
        unfold State.timeOut
        refine agrees_failed hc hmem held (Or.inl rfl) ?_ ?_
        · rw [show ∀ t : State, (t.notifyTimeout g m).ledger = t.ledger from fun t => ledger_notifyTimeout g m]
          exact ledger_release _ rfl
        · rw [State.notifyTimeout_moves]
          exact mem_setLink (by simpa using hmem) (Or.inr (Move.not_ready_of_inWork work))
      · exact hc
    · exact hc
  · exact hc

/-! ### DONE, ABANDON and LIFTED -/

theorem idleState_ne_busy (r : Gantry) : r.idleState ≠ .busy := by
  unfold Gantry.idleState
  split <;> decide

theorem ledger_standIdle (g : GantryId) (x : Nat) : (s.standIdle g x).ledger = s.ledger.release g (s.gantry g).idleState := by
  unfold State.standIdle
  dsimp only
  split
  · rw [ledger_readyWork]; exact ledger_release _ rfl
  · exact ledger_release _ rfl

theorem agrees_reportDone (hc : s.ledger.Agrees) (g : GantryId) (id : Nat) : (reportDone g id s).1.ledger.Agrees := by
  unfold reportDone
  refine report_keeps (P := fun t => t.ledger.Agrees) hc (fun m hm hid hg hp => ?_)
  subst hid
  have hmem : m.core ∈ s.ledger.moves := List.mem_map_of_mem hm
  obtain ⟨-, on, busy, hold⟩ := hc.works_on hmem hg
  obtain ⟨yields, -⟩ := fits_of_mem hc hm
  have spent : m.core.state = .placed ∨ m.core.tag = none := by
    unfold Move.awaitsDone at hp
    simp only [Bool.or_eq_true, Bool.and_eq_true, beq_iff_eq] at hp
    rcases hp with e | ⟨-, e⟩
    · exact Or.inl ((Move.core_placed m).2 e)
    · exact Or.inr (yields e).1
  have idle := idleState_ne_busy (s.gantry g)
  have released := hc.release (g := g) idle (fun e => absurd hold e)
  have granted : (s.ledger.gantry g).granted = some m.core.id := hg
  rw [granted] at released
  have same : (s.removeMove m.id).gantry g = s.gantry g := by cases g <;> rfl
  show ((s.removeMove m.id).standIdle g _).ledger.Agrees
  rw [ledger_standIdle, same, ledger_removeMove, Ledger.removeMove_release busy idle]
  exact released.spent (m := m.core) (by rw [Ledger.moves_release busy idle]; exact hmem) on
    (by rw [Ledger.gantry_release busy idle]) spent

theorem agrees_abandon (hc : s.ledger.Agrees) (g : GantryId) (id x : Nat) : (abandon g id x s).1.ledger.Agrees := by
  unfold abandon
  split
  · exact hc
  · refine report_keeps (P := fun t => t.ledger.Agrees) hc (fun m hm hid hg hp => ?_)
    subst hid
    unfold Move.awaitsLift at hp
    rw [Bool.and_eq_true, beq_iff_eq, bne_iff_ne] at hp
    split
    · exact hc
    · have hmem : m.core ∈ s.ledger.moves := List.mem_map_of_mem hm
      obtain ⟨-, on, busy, hold⟩ := hc.works_on hmem hg
      have idle := idleState_ne_busy (s.gantry g)
      have released := hc.release (g := g) idle (fun e => absurd hold e)
      have gantry := Ledger.gantry_release (c := s.ledger) busy idle
      have granted : (s.ledger.gantry g).granted = some m.id := hg
      rw [granted] at released
      rw [← ledger_standIdle g x] at released gantry
      have kept : m ∈ (s.standIdle g x).moves := mem_standIdle hm (Or.inl hp.2)
      exact agrees_returnToReady released kept hp.1 hp.2
        (released.not_held (m := m.core) (List.mem_map_of_mem kept) on (by rw [gantry]))

theorem agrees_lifted (hc : s.ledger.Agrees) (g : GantryId) (id : Nat) : (lifted g id s).1.ledger.Agrees := by
  unfold lifted
  refine report_keeps (P := fun t => t.ledger.Agrees) hc (fun m hm hid hg hp => ?_)
  subst hid
  have hmem : m.core ∈ s.ledger.moves := List.mem_map_of_mem hm
  have granted : m.state = .granted := by
    unfold Move.awaitsLift at hp
    rw [Bool.and_eq_true, beq_iff_eq] at hp
    exact hp.1
  show (s.lift g m).ledger.Agrees
  unfold State.lift
  split
  · rename_i tag r ht _
    refine together_keeps (P := fun t => t.ledger.Agrees) hc (fun t hv => ?_)
    have same : t.ledger = s.ledger := (ledger_vacate hv).trans (ledger_endImmersion tag)
    rw [ledger_modMove (f' := fun m => { m with state := .carried }) (fun m => by simp [Move.core]),
      ledger_modHanger (f' := fun _ => { state := .inTransit, phase := some .carried, location := .gantry g })
        (by exact fun _ => ⟨rfl, rfl⟩), same]
    exact hc.lifted (m := m.core) hmem ht (by rw [Move.core_state (by rw [granted]; decide), granted]) (hc.works_on hmem hg).2.1
  · exact hc

end State

end Sys2Proof.Machine
end

