-- ==== Sys2Proof/Proofs/LedgerLowering.lean ====
section
/-! PROOFS. LOWERED keeps the agreement: the hanger's move is placed, which leaves it between two moves, and what follows gives it its
next move or brings it to rest (R44, R45, R51, R142, R174). -/

namespace Sys2Proof.Machine

namespace State

variable {s : State} {tag : Nat} {v : HangerView} {r : SlotRef}

/-- A hanger comes to rest in a slot. -/
theorem agrees_atRest {c : Ledger} {t : State} {f : HangerView → HangerView} (hb : c.Between tag v)
    (ht : t.ledger = c.modHanger tag f) (hr : (f v).Rests) : t.ledger.Agrees := by
  rw [ht]
  exact (hb.modHanger f).rest hr

theorem ledger_place (t : State) (tag : Nat) (r : SlotRef) (area id : Nat) : (t.place tag r area id).ledger
    = (t.ledger.modHanger tag (fun v => { v with location := .slot r })).modMove id (fun x => { x with state := .placed }) := by
  unfold State.place
  rw [ledger_modMove (f' := fun x => { x with state := .placed }) (fun m => by simp [Move.core]), ledger_addArea,
    ledger_modHanger (f' := fun v => { v with location := .slot r }) (by exact fun _ => ⟨rfl, rfl⟩)]

/-! ### To the exit, and to rest -/

theorem agrees_reachExit {h : Hanger} (hb : s.ledger.Between h.tag v) (r : SlotRef) : (s.reachExit h r).ledger.Agrees := by
  refine agrees_atRest (f := fun _ => { state := .done, phase := none, location := .slot r }) hb ?_ ⟨Or.inl rfl, rfl, r, rfl⟩
  unfold State.reachExit
  rw [ledger_notify, ledger_modHanger (f' := fun _ => { state := .done, phase := none, location := .slot r })
    (by exact fun y => ⟨Hanger.tag_appendEntry y _, rfl⟩), ledger_releaseAll]

theorem agrees_restAfterAbort {h : Hanger} (hb : s.ledger.Between h.tag v) (r : SlotRef) : (s.restAfterAbort h r).ledger.Agrees := by
  refine agrees_atRest (f := fun _ => { state := .aborted, phase := none, location := .slot r }) hb ?_ ⟨Or.inr rfl, rfl, r, rfl⟩
  unfold State.restAfterAbort
  dsimp only
  rw [ledger_modHanger (f' := fun _ => { state := .aborted, phase := none, location := .slot r }) (by exact fun _ => ⟨rfl, rfl⟩),
    ledger_releaseAll]

theorem agrees_abortAtExit {h : Hanger} (hb : s.ledger.Between h.tag v) (r : SlotRef) : (s.abortAtExit h r).ledger.Agrees := by
  refine agrees_atRest (f := fun _ => { state := .aborted, phase := none, location := .slot r }) hb ?_ ⟨Or.inr rfl, rfl, r, rfl⟩
  unfold State.abortAtExit
  rw [ledger_notifyCondition, ledger_modHanger (f' := fun _ => { state := .aborted, phase := none, location := .slot r })
    (by exact fun y => ⟨Hanger.tag_appendEntry y _, rfl⟩), ledger_releaseAll]

/-! ### Into a step -/

theorem agrees_abortAtStep (hb : s.ledger.Between tag v) {k : Nat} (r : SlotRef)
    (hk : ∀ x, s.hanger? tag = some x → s.recipeStep? x.recipe k ≠ none) : (s.abortAtStep tag k r).ledger.Agrees := by
  refine agrees_atRest (f := fun v => { v with state := .aborted, phase := none }) (between_openStep hb r hk) ?_
    ⟨Or.inr rfl, rfl, r, rfl⟩
  unfold State.abortAtStep
  rw [ledger_modHanger (f' := fun v => { v with state := .aborted, phase := none }) (by exact fun _ => ⟨rfl, rfl⟩), ledger_stopCount,
    ledger_releaseAll, ledger_closeEntry]

theorem rescuedView (h : Hanger) : (h.rescued.modNewest RunEntry.markRescued).tag = h.tag
    ∧ (h.rescued.modNewest RunEntry.markRescued).view = { h.view with state := .rescued, phase := none } :=
  ⟨Hanger.tag_modNewest h.rescued _, Hanger.view_modNewest h.rescued _⟩

theorem agrees_abortIntoStrict (hb : s.ledger.Between tag v) {k : Nat} (r : SlotRef)
    (hk : ∀ x, s.hanger? tag = some x → s.recipeStep? x.recipe k ≠ none) : (s.abortIntoStrict tag k r).ledger.Agrees := by
  have stopped : (((s.openStep tag k r).closeEntry tag .aborted).modHanger tag Hanger.stopCount).ledger.Between tag
      { state := .immersed, phase := none, location := .slot r } := by
    rw [ledger_stopCount, ledger_closeEntry]
    exact between_openStep hb r hk
  unfold State.abortIntoStrict
  dsimp only
  generalize ((s.openStep tag k r).closeEntry tag .aborted).modHanger tag Hanger.stopCount = u at stopped ⊢
  obtain ⟨h, hh, hv⟩ := hanger_of_between stopped rfl
  obtain rfl := State.hanger_tag hh
  rw [hh]
  dsimp only
  have dest : ∀ x, (u.freshAbort h r).dest ≠ some (.point x) := by
    intro x e
    obtain ⟨f, -, hf⟩ := Option.map_eq_some_iff.1 (show h.forward.map Place.slot = some (.point x) from e)
    cases hf
  have made : (u.createMove (u.freshAbort h r)).ledger.Agrees :=
    agrees_createMove stopped ⟨Or.inr (Or.inl rfl), rfl, r, rfl⟩ rfl (by decide : MoveKind.abort ≠ .yielding) dest rfl rfl (Or.inr rfl)
  split
  · have found : (u.createMove (u.freshAbort h r)).ledger.hanger? h.tag = some h.view := by
      refine ledger_hanger ?_
      rw [State.hanger_congr (State.createMove_hangers _ _)]
      exact hh
    have bears := made.bears h.tag h.view found (by simp)
    rw [hv] at found bears
    rw [ledger_modHanger (f' := fun v => { v with state := .rescued, phase := none }) rescuedView]
    exact made.modHanger_closed found (by decide : HangerState.immersed ≠ .stranded) (bears.rescued ⟨r, rfl⟩ (Or.inl rfl))
  · exact made

theorem agrees_lowerOnBar (hb : s.ledger.Between tag v) {k : Nat} (r : SlotRef)
    (hk : ∀ x, s.hanger? tag = some x → s.recipeStep? x.recipe k ≠ none) : (s.lowerOnBar tag k r).ledger.Agrees := by
  have rescued : (((s.openStep tag k r).closeEntry tag .under).modHanger tag
      (fun h => h.rescued.modNewest RunEntry.markRescued)).ledger.Between tag
      { state := .rescued, phase := none, location := .slot r } := by
    rw [ledger_modHanger (f' := fun v => { v with state := .rescued, phase := none }) rescuedView, ledger_closeEntry]
    exact (between_openStep hb r hk).modHanger (fun v => { v with state := .rescued, phase := none })
  unfold State.lowerOnBar
  dsimp only
  generalize ((s.openStep tag k r).closeEntry tag .under).modHanger tag
    (fun h => h.rescued.modNewest RunEntry.markRescued) = u at rescued ⊢
  obtain ⟨h, hh, -⟩ := hanger_of_between rescued rfl
  obtain rfl := State.hanger_tag hh
  rw [hh]
  dsimp only
  obtain ⟨hkind, hd, hg, hl⟩ := nextMove_ends (s := u) h r
  exact agrees_createMove rescued ⟨Or.inr (Or.inr rfl), rfl, r, rfl⟩ (nextMove_fields h r).1 hkind hd hg hl (Or.inr rfl)

/-- R36: a target step is a step of the version. -/
theorem recipeStep_of_target {h : Hanger} {k group : Nat} (ht : s.target? h = some (.step k group)) :
    s.recipeStep? h.recipe k ≠ none := by
  have step : ∀ (i : Nat) (l : List RecipeStep), (match l[i]? with
      | some st => some (Target.step i st.group)
      | none => none) = some (.step k group) → l[k]? ≠ none := by
    intro i l e
    split at e
    · rename_i st hst
      cases e
      rw [hst]; simp
    · cases e
  unfold State.target? at ht
  dsimp only at ht
  split at ht
  · exact step 0 _ ht
  · unfold followingTarget at ht
    split at ht
    · cases ht
    · exact step _ _ ht

/-- R142, step 4: what follows the placing of a hanger without a pending abort. -/
theorem agrees_lowerStep {h : Hanger} (hb : s.ledger.Between h.tag v) (r : SlotRef) (ht : s.target? h ≠ none)
    (hr : ∀ x, s.hanger? h.tag = some x → x.recipe = h.recipe) : (s.lowerStep h r).ledger.Agrees := by
  unfold State.lowerStep
  split
  · rename_i k group hk
    have step : ∀ x, s.hanger? h.tag = some x → s.recipeStep? x.recipe k ≠ none := fun x hx => by
      rw [hr x hx]; exact recipeStep_of_target hk
    split
    · exact agrees_lowerOnBar hb r step
    · exact agrees_beginStep hb r step
  · exact agrees_reachExit hb r
  · rename_i hn
    exact absurd hn ht

/-- R51: what follows the placing of a hanger with a pending abort. -/
theorem agrees_lowerAborted {h : Hanger} (hb : s.ledger.Between h.tag v) (k : MoveKind) (r : SlotRef)
    (hr : ∀ x, s.hanger? h.tag = some x → x.recipe = h.recipe) : (s.lowerAborted h k r).ledger.Agrees := by
  have step : ∀ {k group}, s.target? h = some (.step k group) → ∀ x, s.hanger? h.tag = some x → s.recipeStep? x.recipe k ≠ none :=
    fun hk x hx => by rw [hr x hx]; exact recipeStep_of_target hk
  unfold State.lowerAborted
  split
  · rename_i hk
    exact agrees_abortIntoStrict hb r (step hk)
  · split
    · exact agrees_restAfterAbort hb r
    · exact agrees_abortAtExit hb r
  · rename_i hk _ _
    split
    · exact agrees_restAfterAbort hb r
    · exact agrees_abortAtStep hb r (step hk)
  · exact agrees_restAfterAbort hb r

theorem agrees_lowered (hc : s.ledger.Agrees) (g : GantryId) (id : Nat) : (lowered g id s).1.ledger.Agrees := by
  unfold lowered
  refine report_keeps (P := fun t => t.ledger.Agrees) hc (fun m hm _ _ hp => ?_)
  have carried : m.state = .carried := by simpa using hp
  show (s.lower m).ledger.Agrees
  unfold State.lower
  split
  · rename_i h r hh hd
    obtain ⟨tag, ht, hh⟩ := Option.bind_eq_some_iff.1 hh
    obtain rfl := State.hanger_tag hh
    refine together_keeps (P := fun t => t.ledger.Agrees) hc (fun t hocc => ?_)
    split at hocc
    · rename_i hgo
      have same := ledger_occupy hocc
      obtain ⟨x, -, between⟩ := hc.between_of_placed (m := m.core) (List.mem_map_of_mem hm) ht
        (by rw [Move.core_state (by rw [carried]; decide), carried]) (fun v => { v with location := .slot r })
      rw [← same, show m.core.id = m.id from rfl, ← ledger_place t h.tag r h.area m.id] at between
      have kept : t.hangers = s.hangers ∧ t.recipes = s.recipes := by
        unfold State.occupy at hocc
        split at hocc <;> cases hocc
        simp
      have recipes : (t.place h.tag r h.area m.id).recipes = s.recipes := by
        refine Eq.trans ?_ kept.2
        unfold State.place
        show ((t.modHanger h.tag _).addArea r.station h.area).recipes = _
        rw [State.addArea_recipes]; rfl
      have recipe : ∀ x, (t.place h.tag r h.area m.id).hanger? h.tag = some x → x.recipe = h.recipe := by
        intro x hx
        have placed : (t.place h.tag r h.area m.id).hangers = (t.modHanger h.tag (fun h => { h with location := .slot r, forward :=
            if (t.station r.station).cls = .strict then h.forward else none })).hangers := by
          unfold State.place
          show ((t.modHanger h.tag _).addArea r.station h.area).hangers = _
          rw [State.addArea_hangers]
        rw [State.hanger_congr placed, State.hanger_modHanger (by exact fun _ => rfl), if_pos rfl, State.hanger_congr kept.1, hh] at hx
        cases hx
        rfl
      dsimp only
      split
      · exact agrees_lowerAborted between _ r recipe
      · rename_i hpend
        refine agrees_lowerStep between r ?_ recipe
        have target : (t.place h.tag r h.area m.id).target? h = s.target? h := by
          unfold State.target? State.recipe
          rw [recipes]
        rw [target]
        simpa [hpend, Option.isSome_iff_ne_none] using hgo
    · cases hocc
  · exact hc

end State

end Sys2Proof.Machine
end

