-- ==== Sys2Proof/Proofs/LedgerClaims.lean ====
section
/-! PROOFS. CLAIM keeps the agreement: the walk makes YIELD moves for a READY gantry that owns none, and a grant makes its gantry BUSY
with a move that was READY (R113, R123, R138, R139). -/

namespace Sys2Proof.Machine

/-- R123: a move is granted to a gantry. -/
def MoveCore.granted (m : MoveCore) (g : GantryId) (p : Place) : MoveCore :=
  { m with dest := some p, state := .granted, gantry := some g, limited := true }

/-- R123: the hanger of a granted move is IN-TRANSIT, unless RESCUED. -/
def HangerView.granted (v : HangerView) : HangerView :=
  if v.state = .loaded ∨ v.state = .immersed then { v with state := .inTransit, phase := some .granted } else v

namespace Ledger

variable {c : Ledger} {tag : Nat} {g : GantryId} {m : MoveCore}

/-- R123, R139: the gantry is BUSY with a move, and the YIELD moves made for that move or owned by the gantry go. -/
def engage (c : Ledger) (g : GantryId) (id : Nat) : Ledger :=
  ((c.filterMoves (fun m => !(m.yields && m.state == .ready && m.blocked == some id))).dropYield g).setGantry g
    { link := .busy, granted := some id, hold := (c.gantry g).hold }

/-- A move is granted to a gantry, but for what becomes of its hanger. -/
def grantTo (c : Ledger) (g : GantryId) (m : MoveCore) (p : Place) : Ledger :=
  (c.modMove m.id (fun x => x.granted g p)).engage g m.id

/-- A READY gantry is granted a move that is not in work. -/
theorem AgreesBut.engage (hc : c.Agrees) (hm : m ∈ c.moves) (hi : ¬ m.InWork) (hl : (c.gantry g).link = .ready) (hn : ¬ c.idle)
    {p : Place} (hf : (m.granted g p).Fits) : (c.grantTo g m p).AgreesBut none m.tag
      ∧ m.granted g p ∈ (c.grantTo g m p).moves := by
  have work : (m.granted g p).InWork := Or.inl rfl
  have free := hc.granted_none (g := g) (by rw [hl]; decide)
  have hold := hc.no_hold (g := g) (by rw [hl]; decide) (by rw [hl]; decide)
  have changed : (c.modMove m.id (fun x => x.granted g p)).AgreesBut (some m.id) m.tag :=
    ((hc.loosen (some m.id)).spare m.tag).modMove hm (fun e => hi (Or.inr (Or.inr e))) (fun _ => rfl) rfl hf
      (fun g' e => absurd e (hc.not_granted hm hi g')) (fun _ e => by cases e)
  have pruned := (changed.prune (fun x => x.blocked == some m.id)).prune (fun x => x.gantry == some g)
  have kept : m.granted g p ∈ (c.grantTo g m p).moves :=
    List.mem_filter.2 ⟨List.mem_filter.2 ⟨mem_modMove_self _ hm, by simp [MoveCore.granted]⟩, by simp [MoveCore.granted]⟩
  refine ⟨?_, kept⟩
  have busy : (c.grantTo g m p).AgreesBut (some m.id) m.tag := by
    refine pruned.setGantry rfl (by simp) (fun id e => ?_) (fun id e => ?_) (fun e => absurd hold e) (fun x hx hy hs hg => ?_)
      (fun e => absurd e hn)
    · rw [show (c.gantry g).granted = some id from e] at free; cases free
    · cases e
      exact ⟨m.granted g p, kept, rfl, work, rfl⟩
    · have := (List.mem_filter.1 hx).2
      simp [hy, hs, hg] at this
  refine busy.tighten (fun x hx e _ => ?_)
  rw [busy.same_move kept hx e]
  exact ⟨g, rfl, congrArg GantryView.granted (gantry_setGantry_self _)⟩

/-- R123: the grant of a hanger's move. -/
theorem AgreesBut.grant (hc : c.Agrees) (hm : m ∈ c.moves) (ht : m.tag = some tag) (hi : ¬ m.InWork)
    (hl : (c.gantry g).link = .ready) (hn : ¬ c.idle) (d : SlotRef) :
    (((c.modMove m.id (fun x => x.granted g (.slot d))).modHanger tag HangerView.granted).engage g m.id).Agrees := by
  obtain ⟨h, hh, bears, hmv, unheld⟩ := hc.hanger_of_move hm ht (fun e => hi (Or.inr (Or.inr e)))
  have yields := (hc.fits m hm).not_yields ht
  have work : (m.granted g (.slot d)).InWork := Or.inl rfl
  obtain ⟨engaged, kept⟩ := hc.engage hm hi hl hn (p := .slot d)
    { yields := fun e => by cases yields.symm.trans e
      others := fun e => ⟨((hc.fits m hm).others e).1, fun x e' => by (cases e'), fun e' => absurd work e'⟩
      leads := fun _ e => by cases e
      limits := fun e => absurd work e }
  rw [ht] at engaged
  have unheld' : ∀ g' x, ((c.grantTo g m (.slot d)).gantry g').hold = some x → x.tag ≠ tag := by
    intro g' x hx
    refine unheld g' x ?_
    by_cases e : g' = g
    · subst e
      rwa [show (c.grantTo g' m (.slot d)).gantry g' = _ from gantry_setGantry_self _] at hx
    · rwa [show (c.grantTo g m (.slot d)).gantry g' = c.gantry g' from if_neg e] at hx
  have found := engaged.move_of_mem (tag := tag) kept ht (by decide : MoveState.granted ≠ .placed)
  obtain ⟨hst, hp, r, hloc⟩ := bears.waits hmv hi
  refine (engaged.modHanger unheld' HangerView.granted).close (fun y hy => ?_)
  have hy' : ((c.grantTo g m (.slot d)).modHanger tag HangerView.granted).hanger? tag = some y := hy
  rw [hanger_modHanger_self (c := c.grantTo g m (.slot d)) hh] at hy'
  cases hy'
  have moving : h.state = .loaded ∨ h.state = .immersed →
      ((c.grantTo g m (.slot d)).modHanger tag HangerView.granted).Bears tag h.granted := by
    intro e
    unfold HangerView.granted
    rw [if_pos e]
    exact ⟨_, found, Or.inl ⟨rfl, rfl, r, hloc⟩⟩
  rcases hst with e | e | e
  · exact moving (Or.inl e)
  · exact moving (Or.inr e)
  · unfold HangerView.granted
    rw [if_neg (by rw [e]; decide)]
    unfold Bears
    rw [e]
    exact ⟨hp, ⟨r, hloc⟩, _, found, fun _ => rfl⟩

end Ledger

namespace State

variable {s : State} {g : GantryId}

/-! ### The grant -/

theorem view_granted (h : Hanger) (f : Option SlotRef) : (h.granted f).tag = h.tag ∧ (h.granted f).view = h.view.granted := by
  unfold Hanger.granted HangerView.granted
  by_cases e : h.state = .loaded ∨ h.state = .immersed
  · rw [if_pos e, if_pos (show h.view.state = .loaded ∨ h.view.state = .immersed from e)]
    cases f <;> exact ⟨rfl, rfl⟩
  · rw [if_neg e, if_neg (show ¬ (h.view.state = .loaded ∨ h.view.state = .immersed) from e)]
    cases f <;> exact ⟨rfl, rfl⟩

theorem ledger_bindEntry (h : Hanger) : (s.bindEntry h).ledger = s.ledger := by
  unfold State.bindEntry
  dsimp only
  split
  · rfl
  · rw [ledger_modRecipe, ledger_modHanger_same (by exact fun _ => ⟨rfl, rfl⟩), ledger_leaveOrder]

theorem ledger_engage (hl : (s.gantry g).link = .ready) (id lo hi : Nat) : (s.engage g id lo hi).ledger = s.ledger.engage g id := by
  have ready : ((s.ledger.setGantry g { (s.gantry g).view with granted := some id }).gantry g).link = .ready :=
    (congrArg GantryView.link (Ledger.gantry_setGantry_self _)).trans hl
  have linked : (s.ledger.setGantry g { (s.gantry g).view with granted := some id }).relink g .busy
      = s.ledger.setGantry g { link := .busy, granted := some id, hold := (s.gantry g).hold } := by
    unfold Ledger.relink
    rw [ready, if_neg (by decide), if_neg (by decide), Ledger.setGantry_setGantry, Ledger.gantry_setGantry_self]
    rfl
  unfold State.engage
  rw [ledger_removeOwnYield, ledger_removeYieldFor, ledger_setLink, ledger_modGantry]
  show Ledger.dropYield (((s.ledger.setGantry g { (s.gantry g).view with granted := some id }).relink g .busy).filterMoves _) g = _
  rw [linked]
  rfl

theorem core_granted (m : Move) (g : GantryId) (p : Place) (now : LineTime) (e k : Nat) :
    (m.granted g p now e k).core = m.core.granted g p := by
  simp [Move.core, Move.granted, MoveCore.granted]

theorem not_inWork_of_ready {m : Move} (hs : m.state = .ready) : ¬ m.core.InWork := not_inWork_of_idle (Or.inr hs)

/-- R114: on an IDLE line no move is permitted. -/
theorem not_idle_of_modeAllows {m : Move} (h : s.modeAllows m = true) : ¬ s.ledger.idle := by
  intro e
  unfold State.modeAllows at h
  rw [show s.mode = .idle from e] at h
  cases h

theorem modeAllows_of_passed {m : Move} {d : SlotRef} {f : Option SlotRef} (h : s.trial g m = .passed d f) : s.modeAllows m = true := by
  unfold State.trial at h
  split at h
  · cases h
  · rename_i hm; simpa using hm

/-- R123: the grant of a READY hanger move that passed its tests. -/
theorem agrees_grant (hc : s.ledger.Agrees) {m : Move} (hm : m ∈ s.moves) (hs : m.state = .ready)
    (hl : (s.gantry g).link = .ready) (hn : ¬ s.ledger.idle) (d : SlotRef) (f : Option SlotRef) : (s.grant g m d f).ledger.Agrees := by
  unfold State.grant
  split
  · rename_i h hh
    obtain ⟨tag, ht, hh⟩ := Option.bind_eq_some_iff.1 hh
    obtain rfl := State.hanger_tag hh
    refine together_keeps (P := fun t => t.ledger.Agrees) hc (fun t hr => ?_)
    have same := ledger_reserveRoute hr
    have moved : ((t.modMove m.id (fun m => m.granted g (.slot d) s.lineTime (s.estimateFor g m d) (s.gantry g).margin)).modHanger h.tag
        (fun h => h.granted f)).ledger
        = (s.ledger.modMove m.id (fun x => x.granted g (.slot d))).modHanger h.tag HangerView.granted := by
      rw [ledger_modHanger (fun x => view_granted x f),
        ledger_modMove (f' := fun x => x.granted g (.slot d)) (by exact fun x => core_granted x _ _ _ _ _), same]
    have bound : ∀ u : State, (if m.kind = .entry then u.bindEntry h else u).ledger = u.ledger := by
      intro u
      split
      · exact ledger_bindEntry h
      · rfl
    have link : ∀ u : State, u.ledger = (s.ledger.modMove m.id (fun x => x.granted g (.slot d))).modHanger h.tag HangerView.granted →
        (u.gantry g).link = .ready := fun u e => by
      have view : (u.gantry g).view = (s.gantry g).view := congrFun (congrArg Ledger.gantry e) g
      exact (congrArg GantryView.link view).trans hl
    dsimp only
    rw [ledger_engage (link _ ((bound _).trans moved)), bound, moved]
    exact hc.grant (m := m.core) (List.mem_map_of_mem hm) ht (not_inWork_of_ready hs) hl hn d
  · exact hc

/-- R139: the grant of the gantry's own YIELD move. -/
theorem agrees_grantYield (hc : s.ledger.Agrees) {y : Move} (hy : y ∈ s.moves) (hk : y.kind = .yielding) (hs : y.state = .ready)
    (hl : (s.gantry g).link = .ready) (hn : ¬ s.ledger.idle) (x : Nat) : (s.grantYield g y x).ledger.Agrees := by
  obtain ⟨yields, -⟩ := fits_of_mem hc hy
  have tagless := (yields hk).1
  have work : (y.core.granted g (.point x)).InWork := Or.inl rfl
  have kind : y.core.yields = true := by simp [Move.core, hk]
  obtain ⟨engaged, -⟩ := hc.engage (m := y.core) (List.mem_map_of_mem hy) (not_inWork_of_ready hs) hl hn (p := .point x)
    { yields := fun _ => ⟨tagless, ⟨x, rfl⟩, by simp [MoveCore.granted], Or.inr rfl⟩
      others := fun e => by cases kind.symm.trans e
      leads := fun _ e => by cases e
      limits := fun e => absurd work e }
  have granted : ∀ e k, (s.modMove y.id (fun m => m.granted g (.point x) s.lineTime e k)).ledger
      = s.ledger.modMove y.id (fun n => n.granted g (.point x)) :=
    fun e k => ledger_modMove (by exact fun n => core_granted n _ _ _ _ _)
  unfold State.grantYield
  dsimp only
  rw [ledger_engage (by
    have same : ∀ f, (s.modMove y.id f).gantry g = s.gantry g := fun f => by cases g <;> rfl
    rw [same]; exact hl), granted]
  rw [show y.core.tag = none from tagless] at engaged
  exact engaged

/-! ### The walk -/

/-- A state that a walk has come to: YIELD moves may have been made. -/
structure Strolled (s v : State) : Prop where
  agrees : v.ledger.Agrees
  gantry : ∀ g, v.gantry g = s.gantry g
  kept : ∀ m ∈ s.moves, m ∈ v.moves

/-- R138: the YIELD move is made for a READY gantry that owns none. -/
theorem Strolled.makeYield {v : State} (hw : Strolled s v) (g : GantryId) (m : Move) (d : SlotRef) : Strolled s (v.makeYield g m d) := by
  unfold State.makeYield
  dsimp only
  split
  · rename_i hy
    obtain ⟨hl, hown, -⟩ := hy
    split
    · rename_i x _
      refine ⟨?_, fun g' => ?_, fun n hn => ?_⟩
      · rw [ledger_postWork, ledger_addMove]
        refine hw.agrees.addMove (freshId_new hw.agrees) ?_ (not_inWork_of_idle (Or.inr rfl)) rfl (fun t e => by cases e) (fun _ g' e => ?_)
        · rw [Move.core_fits]
          refine ⟨fun _ => ⟨rfl, ⟨x, rfl⟩, by simp, Or.inl rfl⟩, fun e => absurd rfl e, fun _ => by simp [Move.fresh], fun _ => rfl⟩
        · cases e
          refine ⟨hl, fun n hn hy hs hg => ?_⟩
          obtain ⟨z, hz, rfl⟩ := List.mem_map.1 hn
          have own := List.find?_eq_none.1 (Option.isNone_iff_eq_none.1 hown) z hz
          have kind : z.kind = .yielding := by simpa [Move.core] using hy
          have state : z.state = .ready := by
            have e : z.core.state = z.state := if_neg (fun h => h.1 kind)
            rw [← e]; exact hs
          simp [kind, state, show z.gantry = _ from hg] at own
      · rw [← hw.gantry g']
        cases g' <;> simp [State.gantry]
      · rw [State.postWork_moves]
        exact List.mem_append_left _ (hw.kept n hn)
    · exact hw
  · exact hw

theorem walk_strolled (g : GantryId) (ms : List Move) : ∀ (v : State) (held : List (Nat × HoldTest)), Strolled s v →
    Strolled s (State.walk g ms v held).state ∧ ∀ m d f, (State.walk g ms v held).found = some (m, d, f) →
      m ∈ ms ∧ (State.walk g ms v held).state.trial g m = .passed d f := by
  induction ms with
  | nil => exact fun v held hw => ⟨hw, fun m d f e => by cases e⟩
  | cons m ms ih =>
    intro v held hw
    have later : ∀ w held', Strolled s w → Strolled s (State.walk g ms w held').state ∧ ∀ n d f,
        (State.walk g ms w held').found = some (n, d, f) → n ∈ m :: ms ∧ (State.walk g ms w held').state.trial g n = .passed d f := by
      intro w held' hw'
      obtain ⟨h1, h2⟩ := ih w held' hw'
      exact ⟨h1, fun n d f e => ⟨List.mem_cons_of_mem _ (h2 n d f e).1, (h2 n d f e).2⟩⟩
    unfold State.walk
    split
    · rename_i d f htrial
      refine ⟨hw, fun n d' f' e => ?_⟩
      cases e
      exact ⟨List.mem_cons_self, htrial⟩
    · exact later _ _ (hw.makeYield g m _)
    · exact later _ _ hw
    · exact later _ _ hw

theorem agrees_claimWalk (hc : s.ledger.Agrees) (hl : (s.gantry g).link = .ready) (last : List (Nat × HoldTest)) :
    (s.claimWalk g last).1.ledger.Agrees := by
  obtain ⟨walked, found⟩ := walk_strolled (s := s) g s.offered s [] ⟨hc, fun _ => rfl, fun _ h => h⟩
  unfold State.claimWalk
  dsimp only
  split
  · rename_i m d f hf
    obtain ⟨hm, ht⟩ := found m d f hf
    obtain ⟨hmem, -, ready⟩ := mem_offered hm
    exact agrees_grant walked.agrees (walked.kept m hmem) ready (by rw [walked.gantry]; exact hl)
      (not_idle_of_modeAllows (modeAllows_of_passed ht)) d f
  · exact walked.agrees

theorem agrees_claim (hc : s.ledger.Agrees) (g : GantryId) : (claim g s).1.ledger.Agrees := by
  unfold claim
  split
  · exact hc
  · rename_i hl
    rw [not_not] at hl
    split
    · rename_i y hy
      have own := List.find?_some hy
      simp only [Bool.and_eq_true, beq_iff_eq] at own
      obtain ⟨⟨kind, -⟩, state⟩ := own
      split
      · split
        · rename_i hf
          have allowed : s.modeAllows y = true := by
            unfold State.yieldFails at hf
            dsimp only at hf
            split at hf
            · cases hf
            · rename_i hm; simpa using hm
          exact agrees_grantYield hc (List.mem_of_find?_eq_some hy) kind state hl (not_idle_of_modeAllows allowed) _
        · exact agrees_claimWalk hc hl _
      · exact agrees_claimWalk hc hl _
    · exact agrees_claimWalk hc hl _

end State

end Sys2Proof.Machine
end

