-- ==== Sys2Proof/Proofs/LedgerRequests.lean ====
section
/-! PROOFS. The requests that touch neither hangers, moves nor gantries leave the ledger as it is; CLEAR-LINE and the resets empty
it. -/

namespace Sys2Proof.Machine

/-- A ledger with no hanger, no move and no gantry at work has nothing to agree on. -/
theorem Ledger.agrees_of_empty {c : Ledger} (ht : c.tags = []) (hh : ∀ t, c.hanger? t = none) (hm : c.moves = [])
    (hg : ∀ g, (c.gantry g).link ≠ .busy ∧ (c.gantry g).granted = none ∧ (c.gantry g).hold = none) : c.Agrees := by
  have none : ∀ {P : MoveCore → Prop}, ∀ m ∈ c.moves, P m := fun {P} m h => by rw [hm] at h; cases h
  refine { tags := by rw [ht]; exact List.nodup_nil, count := by rw [ht]; exact Nat.zero_le _, listed := fun t => ?_,
           ids := by rw [hm]; exact List.nodup_nil, sole := none, fits := none, live := none, works := none,
           bears := fun t h e => ?_, busy := fun g => ?_, grants := fun g id e => ?_, owns := fun g => none, holds := fun g x e => ?_,
           rests := fun _ g => (hg g).1 }
  · rw [hh, ht]; simp
  · rw [hh] at e; cases e
  · exact ⟨fun e => absurd e (hg g).1, fun e => absurd (hg g).2.1 e⟩
  · rw [(hg g).2.1] at e; cases e
  · rw [(hg g).2.2] at e; cases e

namespace State

variable {s : State}

/-! ### The station map -/

theorem ledger_setStation (st cls grp x n a sv rl : Nat) : (setStation st cls grp x n a sv rl s).1.ledger = s.ledger := by
  have written : ∀ w, (s.writeStation st w a).ledger = s.ledger := by
    intro w
    unfold State.writeStation
    dsimp only
    split
    · rw [ledger_activateBath, ledger_modStation]
    · rw [ledger_deactivateBath, ledger_modStation]
    · rfl
  unfold setStation
  split_ifs
  · rfl
  · rfl
  · rfl
  · split
    · rfl
    · split_ifs
      · rfl
      all_goals exact written _

theorem ledger_clearStation (st : Nat) : (clearStation st s).1.ledger = s.ledger := by
  unfold clearStation
  split_ifs
  · rfl
  · rfl
  · rfl
  · rfl
  · exact ledger_deactivateBath st

theorem ledger_block (st sl : Nat) : (block st sl s).1.ledger = s.ledger := by
  unfold block
  split_ifs
  · rfl
  · rfl
  · split <;> rfl

theorem ledger_unblock (st sl : Nat) : (unblock st sl s).1.ledger = s.ledger := by
  unfold unblock
  split_ifs
  · rfl
  · rfl
  · split <;> rfl

/-! ### Recipes, settings and ports -/

theorem ledger_draftRecipe (r n : Nat) : (draftRecipe r n s).1.ledger = s.ledger := by
  unfold draftRecipe
  split <;> rfl

theorem ledger_draftSteps (r f : Nat) (l : List RawStep) : (draftSteps r f l s).1.ledger = s.ledger := by
  unfold draftSteps
  split
  · split_ifs <;> rfl
  · rfl

theorem ledger_writeRecipe (r : Nat) : (writeRecipe r s).1.ledger = s.ledger := by
  have stored : ∀ v, (s.storeVersion r v).1.ledger = s.ledger := fun v => by
    unfold State.storeVersion
    dsimp only
    split <;> rfl
  unfold writeRecipe
  split
  · rfl
  · split
    · split
      · rfl
      · split
        · rfl
        · dsimp only
          split
          · rfl
          · exact stored _
    · rfl

theorem ledger_discardStaged (r : Nat) : (discardStaged r s).1.ledger = s.ledger := by
  unfold discardStaged
  split_ifs <;> rfl

theorem ledger_setGuard (gap : Nat) : (setGuard gap s).1.ledger = s.ledger := by
  unfold setGuard
  split_ifs <;> rfl

theorem ledger_setGantry (g lo hi h p m : Nat) : (setGantry g lo hi h p m s).1.ledger = s.ledger := by
  unfold setGantry
  refine withGantry_keeps (P := fun t => t.ledger = s.ledger) rfl (fun g => ?_)
  dsimp only
  split_ifs
  · rfl
  · rfl
  · rfl
  · exact ledger_modGantry_same g rfl
  · exact ledger_modGantry_same g rfl

theorem ledger_setGasLimit (g : Nat) : (setGasLimit g s).1.ledger = s.ledger := by
  unfold setGasLimit
  split_ifs <;> rfl

theorem ledger_gasHoldRequest (c k : Nat) : (gasHold c k s).1.ledger = s.ledger := by
  unfold gasHold
  split
  · split_ifs
    · rfl
    · exact ledger_gasHold _ _
    · exact ledger_gasRelease _ _
  · rfl

theorem ledger_moveChannel (n : Nat) (new : Option Nat) : (s.moveChannel n new).ledger = s.ledger := by
  unfold State.moveChannel
  dsimp only
  rw [ledger_modChannel]
  cases (s.channel n).station <;> cases new <;> rfl

theorem ledger_startChannel (n : Nat) : (s.startChannel n).ledger = s.ledger := by
  unfold State.startChannel
  dsimp only
  split_ifs
  · rfl
  · rfl
  · rw [ledger_fallDue]; rfl

theorem ledger_applyChannel (n : Nat) (new : Option Nat) (e : Bool) (b len : Nat) : (s.applyChannel n new e b len).ledger = s.ledger := by
  have moved : (if (s.channel n).station = new then s else s.moveChannel n new).ledger = s.ledger := by
    split
    · rfl
    · exact ledger_moveChannel n new
  unfold State.applyChannel
  dsimp only
  split
  · rw [ledger_modChannel, ledger_modChannel]; exact moved
  · split
    · rw [ledger_startChannel, ledger_modChannel]; exact moved
    · rw [ledger_modChannel]; exact moved

theorem ledger_setChannel (c st en b len : Nat) : (setChannel c st en b len s).1.ledger = s.ledger := by
  unfold setChannel
  split
  · split_ifs
    · rfl
    · rfl
    · dsimp only
      split
      · rfl
      · exact ledger_applyChannel _ _ _ _ _
  · rfl

theorem ledger_holdAt (t : LineTime) : (Machine.holdAt t s).1.ledger = s.ledger := by
  unfold Machine.holdAt
  split_ifs <;> rfl

theorem ledger_rescueClear (l : Nat) : (rescueClear l s).1.ledger = s.ledger := by
  unfold rescueClear
  split_ifs
  · rfl
  · rfl
  · dsimp only
    split
    · split
      · rfl
      · exact ledger_releaseStation _ _
    · rfl

theorem ledger_getNotice (p : PortId) : (getNotice p s).1.ledger = s.ledger := by
  unfold getNotice
  split
  · exact ledger_modPort _ _
  · dsimp only
    split
    · rw [ledger_testAlarm, ledger_modPort]
    · exact ledger_modPort _ _

theorem ledger_setMask (p : PortId) (m : BitVec 16) : (setMask p m s).1.ledger = s.ledger := by
  unfold setMask
  split
  · rfl
  · exact ledger_modPort _ _

/-! ### Baths -/

theorem ledger_bathTrip (st : Nat) : (bathTrip st s).1.ledger = s.ledger := by
  unfold bathTrip
  refine withBath_keeps (P := fun t => t.ledger = s.ledger) rfl (fun b => ?_)
  split
  · rfl
  · exact ledger_tripBath _ _

theorem ledger_clearTrip (st : Nat) (b : Bath) : (s.clearTrip st b).ledger = s.ledger := by
  unfold State.clearTrip
  dsimp only
  split <;> simp

theorem ledger_bathClear (st : Nat) : (bathClear st s).1.ledger = s.ledger := by
  unfold bathClear
  refine withBath_keeps (P := fun t => t.ledger = s.ledger) rfl (fun b => ?_)
  split
  · rfl
  · split
    · split
      · rfl
      · exact ledger_clearTrip _ _
    · exact ledger_clearTrip _ _

theorem ledger_replenished (st : Nat) : (replenished st s).1.ledger = s.ledger := by
  unfold replenished
  refine withBath_keeps (P := fun t => t.ledger = s.ledger) rfl (fun b => ?_)
  split <;> rfl

/-! ### CLEAR-LINE and the resets -/

/-- R168: on an IDLE line no gantry holds a move, and CLEAR-LINE leaves no record. -/
theorem agrees_clearLine (hc : s.ledger.Agrees) : (clearLine s).1.ledger.Agrees := by
  unfold clearLine
  split
  · rename_i idle
    obtain ⟨t, slots, recipes⟩ := s.clearAll_cleared
    generalize s.clearAll = u at recipes
    show u.ledger.Agrees
    have ledger : u.ledger = s.emptied.ledger := by
      rw [recipes.rest]
      refine (ledger_of_fields (s := t) rfl rfl rfl rfl rfl).trans ?_
      rw [slots.rest]
      exact ledger_of_fields rfl rfl rfl rfl rfl
    rw [ledger]
    refine Ledger.agrees_of_empty rfl (fun _ => rfl) rfl (fun g => ?_)
    have rests := hc.rests idle g
    have free := hc.granted_none rests
    cases g <;> exact ⟨rests, free, rfl⟩
  · exact hc

theorem agrees_afterReset : s.afterReset.ledger.Agrees :=
  Ledger.agrees_of_empty rfl (fun _ => rfl) rfl (fun g => by cases g <;> exact ⟨(fun e => by cases e), rfl, rfl⟩)

/-! ### An advance of the line time -/

theorem agrees_settle (hc : s.ledger.Agrees) : s.settle.ledger.Agrees := by
  unfold State.settle State.settleEdges
  dsimp only
  rw [ledger_testAlarm]
  refine agrees_foldl_steady (fun t n _ => ledger_burstDue n) _ ?_
  refine agrees_foldl_steady (fun t n _ => ledger_burstEndDue n) _ ?_
  refine agrees_foldl (fun t id ht => agrees_limitDue ht id) _ _ ?_
  refine agrees_foldl_steady (fun t st _ => ledger_staleDue st) _ ?_
  refine agrees_holdAtDue ?_
  refine agrees_foldl (fun t tag ht => agrees_signal ht tag) _ _ ?_
  refine agrees_foldl_steady (fun t id ht => ledger_readyDue ht id) _ ?_
  refine agrees_foldl_steady (fun t tag _ => ledger_unagitatedDue tag) _ ?_
  exact agrees_foldl_steady (fun t tag _ => by simp) _ hc

theorem agrees_advance (hc : s.ledger.Agrees) : s.advance.ledger.Agrees := by
  have ledger : s.advance.ledger = s.ledger := (ledger_of_fields (s := s.tickCounts) rfl rfl rfl rfl rfl).trans ledger_tickCounts
  rw [ledger]; exact hc

theorem agrees_lineTimeAdvance (hc : s.ledger.Agrees) (e : AdvanceEvents) {t : State} (ht : execLineTimeAdvance e s = .next t) :
    t.ledger.Agrees := by
  have advanced := agrees_advance (agrees_settle hc)
  unfold execLineTimeAdvance at ht
  rw [← Host.Outcome.next.inj ht]
  cases e with
  | taken => exact agrees_settle advanced
  | left => exact advanced

end State

end Sys2Proof.Machine
end

