-- ==== Sys2Proof/Proofs/LedgerSteps.lean ====
section
/-! PROOFS. Every command keeps the agreement of hangers, moves and gantries (O58): the requests one by one, the events of the line
time, and the resets. -/

namespace Sys2Proof.Machine

namespace State

variable {s : State}

/-- A request that leaves the ledger as it is. -/
theorem agrees_of_ledger (hc : s.ledger.Agrees) {t : State} (ht : t.ledger = s.ledger) : t.ledger.Agrees := by
  rw [ht]; exact hc

theorem agrees_handRequest (hc : s.ledger.Agrees) (i : Instr) : (handRequest i s).1.ledger.Agrees := by
  obtain ⟨r1, r2, r3, r4, r5, r6, r7, r8, r9, r10⟩ := Wide.readRequests s
  have unchanged : ∀ {t : State}, t = s → t.ledger.Agrees := fun e => e ▸ hc
  cases i
  case setStation => exact agrees_of_ledger hc (ledger_setStation _ _ _ _ _ _ _ _)
  case clearStation => exact agrees_of_ledger hc (ledger_clearStation _)
  case block => exact agrees_of_ledger hc (ledger_block _ _)
  case unblock => exact agrees_of_ledger hc (ledger_unblock _ _)
  case readStation => exact unchanged (r1 _)
  case draftRecipe => exact agrees_of_ledger hc (ledger_draftRecipe _ _)
  case draftSteps => exact agrees_of_ledger hc (ledger_draftSteps _ _ _)
  case writeRecipe => exact agrees_of_ledger hc (ledger_writeRecipe _)
  case discardStaged => exact agrees_of_ledger hc (ledger_discardStaged _)
  case readRecipe => exact unchanged (r2 _ _ _)
  case admitHanger => exact agrees_admitRule hc _ _ _ _ _ _
  case abortHanger => exact agrees_abortHanger hc _
  case resumeHanger => exact agrees_resumeHanger hc _
  case restartHanger => exact agrees_restartHanger hc _
  case recover => exact agrees_recover hc _ _ _
  case unloaded => exact agrees_unloaded hc _ _
  case readHanger => exact unchanged (r3 _)
  case readRun => exact unchanged (r4 _ _)
  case readTiming => exact unchanged (r5 _)
  case setBath => exact agrees_setBathRequest hc _ _
  case bathReport => exact agrees_bathReport hc _ _
  case bathTrip => exact agrees_of_ledger hc (ledger_bathTrip _)
  case bathClear => exact agrees_of_ledger hc (ledger_bathClear _)
  case replenished => exact agrees_of_ledger hc (ledger_replenished _)
  case readBath => exact unchanged (r6 _)
  case readMoves => exact unchanged (r7 _)
  case setGantry => exact agrees_of_ledger hc (ledger_setGantry _ _ _ _ _ _)
  case setGuard => exact agrees_of_ledger hc (ledger_setGuard _)
  case gantryPause => exact agrees_gantryPause hc _
  case gantryResume => exact agrees_gantryResume hc _
  case gantryReset => exact agrees_gantryReset hc _
  case readGantry => exact unchanged (r8 _)
  case setChannel => exact agrees_of_ledger hc (ledger_setChannel _ _ _ _ _)
  case setGasLimit => exact agrees_of_ledger hc (ledger_setGasLimit _)
  case gasHold => exact agrees_of_ledger hc (ledger_gasHoldRequest _ _)
  case readChannel => exact unchanged (r9 _)
  case run => exact agrees_runLine hc
  case drain => exact agrees_drainLine hc
  case hold => exact agrees_holdLine hc
  case stop => exact agrees_stopLine hc
  case holdAt => exact agrees_of_ledger hc (ledger_holdAt _)
  case clearLine => exact agrees_clearLine hc
  case setGrace => exact agrees_setGrace hc _
  case rescueClear => exact agrees_of_ledger hc (ledger_rescueClear _)
  case readLine => exact unchanged r10
  case hello => exact agrees_hello hc _
  case homed => exact agrees_homed hc _
  case claim => exact agrees_claim hc _
  case lifted => exact agrees_lifted hc _ _
  case lowered => exact agrees_lowered hc _ _
  case done => exact agrees_reportDone hc _ _
  case abandon => exact agrees_abandon hc _ _ _
  case fault => exact agrees_fault hc _ _ _ _
  case getNotice => exact agrees_of_ledger hc (ledger_getNotice _)
  case setMask => exact agrees_of_ledger hc (ledger_setMask _ _)
  all_goals exact hc

/-! ### The commands -/

theorem agrees_takeRequest (hc : s.ledger.Agrees) (p : PortId) (n : Nat) {body : State → State × Reply}
    (hb : ∀ u, u.ledger.Agrees → (body u).1.ledger.Agrees) : (s.takeRequest p n body).ledger.Agrees := by
  unfold State.takeRequest
  split
  · rw [ledger_ignored]; exact hc
  · rw [ledger_forming]; exact hb _ (by rw [ledger_opened]; exact hc)

theorem agrees_takeSession (hc : s.ledger.Agrees) (p : PortId) (l : List Byte) (x : Nat) : (s.takeSession p l x).ledger.Agrees := by
  unfold State.takeSession
  split
  · exact hc
  · rw [ledger_modPort]; exact hc
  · exact agrees_takeRequest hc p _ (fun _ hu => hu)
  · exact agrees_takeRequest hc p _ (fun _ hu => hu)
  · exact agrees_takeRequest hc p _ (fun _ hu => hu)
  · exact agrees_takeRequest hc p _ (fun _ hu => agrees_handRequest hu _)

theorem agrees_exec (hc : s.ledger.Agrees) {i : Instr} {t : State} (ht : exec i s = .next t) : t.ledger.Agrees := by
  by_cases hi : (encodeRequest i).isSome = true
  · rw [exec_request i s hi] at ht
    unfold State.request at ht
    split at ht
    · cases ht
      exact agrees_takeRequest hc _ _ (fun _ hu => agrees_handRequest hu i)
    · cases ht; exact hc
  · cases i
    case unknownRequest p l x => cases ht; exact agrees_takeSession hc p l x
    case busyRefused => cases ht; exact agrees_of_ledger hc (ledger_modPort _ _)
    case readSession => cases ht; exact agrees_of_ledger hc (ledger_modPort _ _)
    case replyReady => cases ht; exact agrees_of_ledger hc (ledger_modPort _ _)
    case lineTimeAdvance e => exact agrees_lineTimeAdvance hc e ht
    case edgeCrossed => cases ht; exact agrees_of_ledger hc (ledger_edgeDue _ _)
    case readyTimeReached => cases ht; exact agrees_of_ledger hc (ledger_readyDue hc _)
    case rescueCompareReached => cases ht; exact agrees_signal hc _
    case holdAtReached => cases ht; exact agrees_holdAtDue hc
    case staleCompareReached => cases ht; exact agrees_of_ledger hc (ledger_staleDue _)
    case moveLimitReached => cases ht; exact agrees_limitDue hc _
    case burstFallsDue => cases ht; exact agrees_of_ledger hc ((ledger_burstDue _).trans (ledger_burstEndDue _))
    case burstEnd => cases ht; exact agrees_of_ledger hc (ledger_burstEndDue _)
    case unagitatedLimitPassed => cases ht; exact agrees_of_ledger hc (ledger_unagitatedDue _)
    case alarmAssert =>
      cases ht
      split
      · exact hc
      · exact hc
    case powerOn => cases ht; exact agrees_afterReset
    case resetn => cases ht; exact agrees_afterReset
    all_goals exact absurd rfl hi

end State

/-- Settles O58: the agreement is one of the ledger, which each command keeps; a ledger in agreement holds at most one move for each
live hanger and one for each gantry. -/
theorem everyStepKeepsTheMovesInAgreement : Obligations.EveryStepKeepsTheMovesInAgreement := by
  intro s hs
  have agrees := agrees_of_movesAgree hs
  refine ⟨by simpa [State.ledger] using agrees.moves_bound, fun t ht => ?_⟩
  unfold step at ht
  split at ht
  · cases ht; exact hs
  · rename_i i rest _
    have waiting : ({ s with pending := rest } : State).ledger.Agrees := agrees
    exact movesAgree_of_agrees (State.agrees_exec waiting ht)

end Sys2Proof.Machine
end

