-- ==== Sys2Proof/Proofs/DueEvents.lean ====
section
/-! PROOFS. The rows of ready times, edges and unagitated limits (O30): what each does when it is due, and that it does nothing
when it is not. -/

namespace Sys2Proof.Machine

variable {s : State}

/-! ### Ready times (R109, R110) -/

theorem State.readyDue_not_due {id : Nat}
    (h : ∀ m, s.move? id = some m → m.state ≠ .waiting ∨ reached s.lineTime m.ready = false) : s.readyDue id = s := by
  unfold State.readyDue
  split
  · rename_i m hm
    refine if_neg (fun due => ?_)
    rcases h m hm with hw | hr
    · exact hw due.1
    · rw [hr] at due
      cases due.2
  · rfl

/-- R110: a move made known, found by its identifier. -/
theorem State.announceId_eq {id : Nat} {m : Move} (hm : s.move? id = some m) : s.announceId id = s.announce m := by
  unfold State.announceId
  rw [hm]

/-- R104, R110: what decides the notice of a move stands where its state and its times do not. -/
theorem State.offeredPort_move {t : State} (hs : t.stations = s.stations) (hr : t.recipes = s.recipes) (hh : t.hangers = s.hangers)
    {g : GantryId} (hg : t.gantry g = s.gantry g) (hp : t.port g.port = s.port g.port) (ht : t.lineTime = s.lineTime) {m m' : Move}
    (hid : m'.id = m.id) (hsrc : m'.source = m.source) (hd : m'.dest = m.dest) (htag : m'.tag = m.tag) (hgan : m'.gantry = m.gantry) :
    t.offeredPort g m' = s.offeredPort g m := by
  have notice : workNotice s.lineTime m' = workNotice s.lineTime m := by
    unfold workNotice
    rw [hid, hsrc, htag]
  unfold State.offeredPort
  rw [State.canServe_congr hs hr hh hg, State.canServe_move hsrc hd htag (Or.inl hgan), hg, hp, ht, notice]

/-- R109: a WAITING move whose ready time is reached goes READY and is made known. -/
theorem State.readyDue_due {id : Nat} {m : Move} (hm : s.move? id = some m) (hw : m.state = .waiting)
    (hr : reached s.lineTime m.ready = true) :
    s.readyDue id = { s with moves := s.moves.map (fun x => if x.id = id then { x with state := .ready } else x)
                             port1 := s.offeredPort .a m, port2 := s.offeredPort .b m } := by
  have found : (s.modMove id (fun m => { m with state := .ready })).move? id = some { m with state := .ready } := by
    rw [State.move_modMove (by exact fun _ => rfl), if_pos rfl, hm]
    rfl
  have offered : ∀ g : GantryId, (s.modMove id (fun m => { m with state := .ready })).offeredPort g { m with state := .ready }
      = s.offeredPort g m := by
    intro g
    refine State.offeredPort_move rfl rfl rfl ?_ ?_ rfl rfl rfl rfl rfl rfl <;> cases g <;> rfl
  unfold State.readyDue
  rw [hm]
  dsimp only
  rw [if_pos ⟨hw, hr⟩, State.announceId_eq found, State.announce_eq, offered, offered]
  rfl

/-! ### Edges (R71, R72) -/

/-- R71: the row of an edge, with its condition and its change of the record written out. -/
theorem State.edgeDue_eq {e : Edge} {passed : Hanger → Prop} [DecidablePred passed] {crossed : Hanger → Hanger}
    (hp : ∀ h : Hanger, h.imm.edgePassed e = true ↔ passed h)
    (hc : ∀ h : Hanger, { h with imm := h.imm.cross e s.lineTime } = crossed h) (tag : Nat) :
    s.edgeDue tag e = { s with hangers := s.hangers.map (fun h => if h.tag = tag ∧ passed h then crossed h else h) } := by
  have record : ∀ h : Hanger,
      (if h.tag = tag then (if h.imm.edgePassed e = true then { h with imm := h.imm.cross e s.lineTime } else h) else h)
        = if h.tag = tag ∧ passed h then crossed h else h := by
    intro h
    rw [ite_and, hc h]
    simp only [hp h]
  exact congrArg (fun f => { s with hangers := s.hangers.map f }) (funext record)

/-! ### Unagitated limits (R162) -/

section
variable {tag : Nat} {h : Hanger} {k : RecipeStep} {e : RunEntry}

theorem State.unagitatedPassed_iff (hk : s.recipeStep? h.recipe h.step = some k) (he : h.run.getLast? = some e) :
    s.unagitatedPassed h = true ↔ h.imm.cls = some .strict ∧ k.unagitated ≠ 0 ∧ k.unagitated < h.imm.unagitated
      ∧ e.endTime = none ∧ e.notes.unagitated = false := by
  unfold State.unagitatedPassed RunEntry.isOpen
  rw [hk, he]
  simp [and_assoc]

theorem State.unagitatedDue_passed (hh : s.hanger? tag = some h) (hp : s.unagitatedPassed h = true) :
    s.unagitatedDue tag = (s.modHanger tag (fun h => h.modNewest RunEntry.markUnagitated)).notify .unagitated (some tag)
      (some h.imm.station) none h.step 0 := by
  unfold State.unagitatedDue
  rw [hh]
  exact if_pos hp

theorem State.unagitatedDue_not_passed (hh : s.hanger? tag = some h) (hp : ¬ s.unagitatedPassed h = true) :
    s.unagitatedDue tag = s := by
  unfold State.unagitatedDue
  rw [hh]
  exact if_neg hp

end

/-- Settles O30: the row of a ready time, of each edge and of an unagitated limit, due and not due. -/
theorem dueTimesOfMovesAndImmersionsAreTakenOnce : Obligations.DueTimesOfMovesAndImmersionsAreTakenOnce := by
  refine ⟨fun id s => ⟨fun h => congrArg Host.Outcome.next (State.readyDue_not_due h), fun m hm hw hr => ?_⟩,
    fun tag s => ⟨congrArg Host.Outcome.next (State.edgeDue_eq (fun h => by simp [Immersion.edgePassed]) (fun _ => rfl) tag),
      congrArg Host.Outcome.next (State.edgeDue_eq (fun h => by simp [Immersion.edgePassed]) (fun _ => rfl) tag),
      congrArg Host.Outcome.next (State.edgeDue_eq (fun h => by simp [Immersion.edgePassed]) (fun _ => rfl) tag)⟩,
    fun tag h k e s hh hk he => ⟨fun hs hu hl ho hn => ?_, fun hn => congrArg Host.Outcome.next ?_⟩⟩
  · refine ⟨_, _, rfl, congrArg Host.Outcome.next (State.readyDue_due hm hw hr), rfl, fun g => ?_, rfl⟩
    have sent : ∀ g : GantryId, s.offeredPort g m =
        if (s.gantry g).link = .ready ∧ s.canServe g m = true ∧ (∀ x ∈ (s.port g.port).queue, x.kind ≠ .work) then
          (s.port g.port).push (workNotice s.lineTime m)
        else s.port g.port := by
      intro g
      unfold State.offeredPort worked
      rw [← ite_and]
      simp only [and_assoc]
    have named : m.id = id := State.move_id hm
    rw [← named]
    cases g
    · exact sent .a
    · exact sent .b
  · have passed := (State.unagitatedPassed_iff hk he).2 ⟨hs, hu, hl, ho, hn⟩
    exact ⟨_, rfl, congrArg Host.Outcome.next (State.unagitatedDue_passed hh passed)⟩
  · refine State.unagitatedDue_not_passed hh (fun passed => ?_)
    obtain ⟨hs, hu, hl, ho, hnote⟩ := (State.unagitatedPassed_iff hk he).1 passed
    rcases hn with h1 | h1 | h1 | h1 | h1
    · exact h1 hs
    · exact hu h1
    · omega
    · exact h1 ho
    · rw [hnote] at h1; cases h1

end Sys2Proof.Machine
end

