-- ==== Sys2Proof/Proofs/Rescue.lean ====
section
/-! PROOFS. Compare points and rescue (O50): what the signal of a compare point and the assertion it may raise leave alone, what
they make of each hanger and of its move, and the notices they post. -/

namespace Sys2Proof.Machine

variable {s t u : State} {tag st l : Nat} {h : Hanger} {m : Move}

/-! ### What a signal leaves alone -/

/-- The parts of the state that the signal of a compare point may change. -/
def KeptByRescue (s t : State) : Prop :=
  t = { s with hangers := t.hangers, moves := t.moves, lines := t.lines, channels := t.channels, port0 := t.port0
               port1 := t.port1, port2 := t.port2, alarm := t.alarm }

theorem KeptByRescue.refl (s : State) : KeptByRescue s s := rfl

theorem KeptByRescue.trans (h1 : KeptByRescue s t) (h2 : KeptByRescue t u) : KeptByRescue s u :=
  Eq.trans h2 (congrArg (fun w : State => { w with
    hangers := u.hangers, moves := u.moves, lines := u.lines, channels := u.channels, port0 := u.port0, port1 := u.port1
    port2 := u.port2, alarm := u.alarm }) h1)

theorem KeptByRescue.foldl {α : Type} {f : State → α → State} (hf : ∀ t a, KeptByRescue t (f t a)) (l : List α) (s : State) :
    KeptByRescue s (l.foldl f s) := by
  induction l generalizing s with
  | nil => exact .refl s
  | cons a l ih => exact (hf s a).trans (ih _)

theorem keptByRescue_post (s : State) (p : PortId) (n : Notice) : KeptByRescue s (s.post p n) := by
  unfold State.post
  dsimp only
  split <;> cases p <;> rfl

theorem keptByRescue_closeEntry (s : State) (tag : Nat) (c : Condition) : KeptByRescue s (s.closeEntry tag c) := by
  unfold State.closeEntry State.notifyCondition
  repeat' split
  · rfl
  · exact KeptByRescue.trans (t := s.modHanger tag _) rfl (keptByRescue_post _ _ _)
  all_goals rfl

theorem keptByRescue_announceId (s : State) (id : Nat) : KeptByRescue s (s.announceId id) := by
  rw [State.announceId_rest]
  rfl

theorem keptByRescue_rescueMove (s : State) (st tag : Nat) : KeptByRescue s (s.rescueMove st tag) := by
  unfold State.rescueMove
  split
  · split
    · rfl
    · dsimp only
      split
      · exact KeptByRescue.trans (t := s.modMove _ _) rfl (keptByRescue_announceId _ _)
      · rfl
  · rfl

theorem keptByRescue_rescueHanger (s : State) (st tag : Nat) : KeptByRescue s (s.rescueHanger st tag) := by
  unfold State.rescueHanger
  split
  · rename_i h _
    split
    · have closed : KeptByRescue s
          ((s.modHanger tag (fun h => (h.signalled s.lineTime).rescued)).closeEntry tag h.imm.rescueCondition) :=
        KeptByRescue.trans (t := s.modHanger tag _) rfl (keptByRescue_closeEntry _ _ _)
      exact (closed.trans (u := State.modHanger _ tag _) rfl).trans (keptByRescue_rescueMove _ st tag)
    · rfl
  · rfl

/-- R160: a hold changes the channels alone. -/
theorem State.holdStation_rest (s : State) (st : Nat) (k : HoldCause) :
    s.holdStation st k = { s with channels := (s.holdStation st k).channels } := by
  unfold State.holdStation State.setHold State.offerValve
  dsimp only
  repeat' split
  all_goals rfl

/-- R171: the state in which the hangers of the station are rescued. -/
def State.asserted (s : State) (l st tag : Nat) : State :=
  ((s.modLine l (fun _ => { asserted := true, assertTime := some s.lineTime, causeTag := some tag })).notify .rescue (some tag)
    (some st) none l 0).holdStation st .rescue

theorem keptByRescue_asserted (s : State) (l st tag : Nat) : KeptByRescue s (s.asserted l st tag) := by
  have posted : KeptByRescue s ((s.modLine l (fun _ =>
      { asserted := true, assertTime := some s.lineTime, causeTag := some tag })).notify .rescue (some tag) (some st) none l 0) :=
    KeptByRescue.trans (t := s.modLine l _) rfl (keptByRescue_post _ _ _)
  refine posted.trans ?_
  unfold State.asserted
  rw [State.holdStation_rest]
  rfl

theorem State.assertLine_eq (s : State) (l st tag : Nat) :
    s.assertLine l st tag = s.tags.foldl (fun t tag' => t.rescueHanger st tag') (s.asserted l st tag) := rfl

theorem keptByRescue_assertLine (s : State) (l st tag : Nat) : KeptByRescue s (s.assertLine l st tag) :=
  (keptByRescue_asserted s l st tag).trans (.foldl (fun t a => keptByRescue_rescueHanger t st a) _ _)

theorem keptByRescue_signal (s : State) (tag : Nat) : KeptByRescue s (s.signal tag) := by
  unfold State.signal
  split
  · rename_i h _
    split
    · have fired : KeptByRescue s (s.modHanger tag (fun h => { h with imm := { h.imm with fired := true } })) := rfl
      dsimp only
      split
      · exact fired.trans (keptByRescue_post _ _ _)
      · split
        · exact fired
        · exact fired.trans (keptByRescue_assertLine _ _ _ _)
    · rfl
  · rfl

namespace KeptByRescue

variable (hk : KeptByRescue s t)
include hk

theorem lineTime : t.lineTime = s.lineTime := by rw [hk]
theorem stations : t.stations = s.stations := by rw [hk]
theorem baths : t.baths = s.baths := by rw [hk]
theorem station (st : Nat) : t.station st = s.station st := State.station_congr hk.stations st
theorem exitAllowance (st : Nat) : t.exitAllowance st = s.exitAllowance st := by
  unfold State.exitAllowance
  rw [State.bath_congr hk.baths]

theorem settings : KeepsSettings s t := by
  unfold KeepsSettings
  rw [hk]
  exact ⟨rfl, rfl, rfl, rfl, rfl, rfl, rfl, rfl, rfl⟩

end KeptByRescue

/-! ### The record of a rescued hanger (R172) -/

/-- R172: the record of a hanger after the assertion of the rescue line of the station it rests in. -/
def Hanger.rescuedAt (h : Hanger) (now : LineTime) : Hanger :=
  ((h.signalled now).rescued.closedAt now h.imm.rescueCondition).modNewest RunEntry.markRescued

/-- The run record with a note set in its newest entry. -/
theorem Hanger.modNewest_toList (h : Hanger) (f : RunEntry → RunEntry) :
    h.modNewest f = { h with run := h.run.dropLast ++ (h.run.getLast?.map f).toList } := by
  unfold Hanger.modNewest
  split
  · rename_i e he
    rw [he]
    rfl
  · rename_i he
    have none : h.run = [] := List.getLast?_eq_none_iff.1 he
    rw [he, none]
    cases h
    cases none
    rfl

theorem Hanger.rescuedAt_eq (h : Hanger) (now : LineTime) :
    h.rescuedAt now = { h with
      state := .rescued, phase := none
      imm := { h.imm with
        counting := false, compare := none
        fired := h.imm.fired || (h.imm.compare.any (fun x => reached now x)) }
      run := (closedRun h now h.imm.rescueCondition).dropLast
        ++ ((closedRun h now h.imm.rescueCondition).getLast?.map RunEntry.markRescued).toList } := by
  have fired : (h.imm.fired || h.imm.compareDue now) = (h.imm.fired || (h.imm.compare.any (fun x => reached now x))) := by
    unfold Immersion.compareDue
    cases h.imm.compare <;> cases h.imm.fired <;> rfl
  unfold Hanger.rescuedAt
  rw [Hanger.modNewest_toList, ← fired]
  rfl

/-- R172: a RESCUED hanger is not rescued again. -/
theorem Hanger.restsIn_rescuedAt (h : Hanger) (now : LineTime) (st : Nat) : (h.rescuedAt now).restsIn st = false := by
  rw [Hanger.rescuedAt_eq]
  simp [Hanger.restsIn]

/-! ### One hanger (R172) -/

/-- R40: the closing of an open entry, with the notice of its condition. -/
theorem State.closeEntry_told {e : RunEntry} (hh : s.hanger? tag = some h) (he : h.run.getLast? = some e) (ho : e.endTime = none)
    (c : Condition) : s.closeEntry tag c =
      (s.modHanger tag (fun h => h.modNewest (fun e => e.close s.lineTime h.imm c))).notifyCondition tag e.station c := by
  unfold State.closeEntry
  rw [hh]
  dsimp only
  rw [he]
  exact if_pos (by simp [RunEntry.isOpen, ho])

theorem State.hanger_closeEntry_any (hh : s.hanger? tag = some h) (c : Condition) (tag' : Nat) :
    (s.closeEntry tag c).hanger? tag' = if tag' = tag then some (h.closedAt s.lineTime c) else s.hanger? tag' := by
  rcases h.closed_or_open with closed | ⟨e, he, ho⟩
  · rw [closed.closeEntry hh, closed.closedAt]
    split
    · rename_i same; rw [same, hh]
    · rfl
  · rw [State.closeEntry_told hh he ho,
      State.hanger_congr (s := s.modHanger tag (fun h => h.modNewest (fun e => e.close s.lineTime h.imm c))) (by simp),
      State.hanger_modHanger (fun x => by rw [Hanger.modNewest_rest]), hh, Option.map_some, Hanger.closedAt_open he ho]

/-- R40: the closing of an entry posts its CONDITION, or nothing. -/
theorem State.closeEntry_port0 (s : State) (tag : Nat) (c : Condition) : ∃ told : List Notice,
    (∀ n ∈ told, n.kind = .condition) ∧ (s.closeEntry tag c).port0 = told.foldl Port.push s.port0 := by
  have none : ∃ told : List Notice, (∀ n ∈ told, n.kind = .condition) ∧ s.port0 = told.foldl Port.push s.port0 :=
    ⟨[], by simp, rfl⟩
  unfold State.closeEntry
  split
  · split
    · rename_i e _
      split
      · by_cases hc : c = .onTime
        · rw [State.notifyCondition, if_pos hc]
          exact none
        · rw [State.notifyCondition_eq _ _ _ hc]
          exact ⟨[plainNotice .condition s.lineTime (some tag) (some e.station) c.code], by simp [plainNotice], rfl⟩
      · exact none
    · exact none
  · exact none

theorem State.rescueHanger_eq (hh : s.hanger? tag = some h) (hr : h.restsIn st = true) :
    s.rescueHanger st tag =
      (((s.modHanger tag (fun h => (h.signalled s.lineTime).rescued)).closeEntry tag h.imm.rescueCondition).modHanger tag
        (fun h => h.modNewest RunEntry.markRescued)).rescueMove st tag := by
  unfold State.rescueHanger
  rw [hh]
  exact if_pos hr

theorem State.rescueHanger_same (hr : ∀ h, s.hanger? tag = some h → h.restsIn st = false) : s.rescueHanger st tag = s := by
  unfold State.rescueHanger
  split
  · rename_i h hh
    exact if_neg (by simp [hr h hh])
  · rfl

/-- R172: the records after one hanger of a station is rescued. -/
theorem State.hanger_rescueHanger (hh : s.hanger? tag = some h) (hr : h.restsIn st = true) (tag' : Nat) :
    (s.rescueHanger st tag).hanger? tag' = if tag' = tag then some (h.rescuedAt s.lineTime) else s.hanger? tag' := by
  have rescued : ∀ o, (s.modHanger tag (fun h => (h.signalled s.lineTime).rescued)).hanger? o =
      if o = tag then some (h.signalled s.lineTime).rescued else s.hanger? o := by
    intro o
    rw [State.hanger_modHanger (by exact fun _ => rfl), hh]
    rfl
  have closed := State.hanger_closeEntry_any ((rescued tag).trans (if_pos rfl)) h.imm.rescueCondition
  rw [State.rescueHanger_eq hh hr, State.hanger_congr (State.rescueMove_hangers _ st tag),
    State.hanger_modHanger (fun x => by rw [Hanger.modNewest_rest]), closed, closed, rescued, if_pos rfl]
  split
  · rfl
  · rename_i other
    exact (rescued tag').trans (if_neg other)

/-! ### The move of a rescued hanger (R173) -/

/-- R35, R102: the hanger's move, the one move of its identifier. -/
structure State.Names (s : State) (tag : Nat) (m : Move) : Prop where
  found : s.hangerMove? tag = some m
  only : ∀ x ∈ s.moves, x.id = m.id → x = m

theorem State.Names.congr (hn : s.Names tag m) (hm : t.moves = s.moves) : t.Names tag m :=
  ⟨(State.hangerMove_congr hm tag).trans hn.found, by rw [hm]; exact hn.only⟩

theorem State.Names.move (hn : s.Names tag m) : s.move? m.id = some m := by
  obtain ⟨mem, -⟩ := State.mem_of_hangerMove hn.found
  cases e : s.move? m.id with
  | none => exact absurd (beq_self_eq_true m.id) (List.find?_eq_none.1 e m mem)
  | some x =>
    obtain ⟨hx, hid⟩ := State.mem_of_move e
    rw [hn.only x hx hid]

/-- A change of a move that keeps its name, its hanger and whether it is placed. -/
theorem State.Names.modMove (hn : s.Names tag m) {f : Move → Move} (hid : ∀ x, (f x).id = x.id) (htag : ∀ x, (f x).tag = x.tag)
    (hp : ∀ x, (f x).state = .placed ↔ x.state = .placed) (id : Nat) :
    (s.modMove id f).Names tag (if m.id = id then f m else m) := by
  have same : ∀ x : Move, (if x.id = id then f x else x).id = x.id := by intro x; split <;> simp [hid]
  have picks : ((fun x : Move => x.tag == some tag && x.state != .placed) ∘ fun x => if x.id = id then f x else x)
      = fun x : Move => x.tag == some tag && x.state != .placed := by
    funext x
    dsimp only [Function.comp]
    split
    · rw [htag, Bool.eq_iff_iff]
      simp [hp]
    · rfl
  refine ⟨?_, fun x hx hxid => ?_⟩
  · have found := hn.found
    unfold State.hangerMove? at found ⊢
    rw [State.modMove, List.find?_map, picks, found]
    rfl
  · obtain ⟨y, hy, rfl⟩ := List.mem_map.1 hx
    rw [same, same] at hxid
    rw [hn.only y hy hxid]

/-- R173: the move of a hanger made RESCUED. -/
def Move.rescuedOut (m : Move) (now : LineTime) (allowance : Nat) : Move :=
  if m.kind = .abort then m
  else { m with deadline := some (plus now allowance), due := some now, ready := now
                state := if m.state = .waiting then .ready else m.state }

theorem Move.rescuedOut_eq (m : Move) (now : LineTime) (allowance : Nat) (hk : m.kind ≠ .abort) :
    (if m.state = .waiting then { m.rescueTimes now allowance with state := .ready } else m.rescueTimes now allowance)
      = m.rescuedOut now allowance := by
  unfold Move.rescuedOut Move.rescueTimes
  rw [if_neg hk]
  split <;> rfl

theorem State.rescueMove_names (hn : s.Names tag m) (st tag' : Nat) :
    (s.rescueMove st tag').Names tag (if tag = tag' then m.rescuedOut s.lineTime (s.exitAllowance st) else m) := by
  have timed : ∀ id, (s.modMove id (fun m => if m.state = .waiting then
      { m.rescueTimes s.lineTime (s.exitAllowance st) with state := .ready }
      else m.rescueTimes s.lineTime (s.exitAllowance st))).Names tag (if m.id = id then
        (if m.state = .waiting then { m.rescueTimes s.lineTime (s.exitAllowance st) with state := .ready }
          else m.rescueTimes s.lineTime (s.exitAllowance st)) else m) := by
    refine hn.modMove (fun x => ?_) (fun x => ?_) (fun x => ?_)
    · split <;> rfl
    · split <;> rfl
    · split
      · rename_i hw; simp [hw]
      · rfl
  cases hf : s.hangerMove? tag' with
  | none =>
    have other : tag ≠ tag' := by rintro rfl; rw [hn.found] at hf; cases hf
    rw [if_neg other]
    unfold State.rescueMove
    rw [hf]
    exact hn
  | some x =>
    have moved : (s.rescueMove st tag').moves = if x.kind = .abort then s.moves
        else (s.modMove x.id (fun m => if m.state = .waiting then
          { m.rescueTimes s.lineTime (s.exitAllowance st) with state := .ready }
          else m.rescueTimes s.lineTime (s.exitAllowance st))).moves := by
      unfold State.rescueMove
      rw [hf]
      dsimp only
      split
      · rfl
      · split
        · rw [State.announceId_rest]
        · rfl
    by_cases same : tag = tag'
    · subst same
      obtain rfl : m = x := Option.some.inj (hn.found.symm.trans hf)
      rw [if_pos rfl]
      by_cases hk : m.kind = .abort
      · rw [show m.rescuedOut s.lineTime (s.exitAllowance st) = m from if_pos hk]
        exact hn.congr (moved.trans (if_pos hk))
      · have mine := timed m.id
        rw [if_pos rfl, Move.rescuedOut_eq _ _ _ hk] at mine
        exact mine.congr (moved.trans (if_neg hk))
    · obtain ⟨hx, htag', -⟩ := State.mem_of_hangerMove hf
      obtain ⟨-, htag, -⟩ := State.mem_of_hangerMove hn.found
      have apart : m.id ≠ x.id := by
        intro e
        rw [hn.only x hx e.symm] at htag'
        exact same (Option.some.inj (htag.symm.trans htag'))
      rw [if_neg same]
      by_cases hk : x.kind = .abort
      · exact hn.congr (moved.trans (if_pos hk))
      · have mine := timed x.id
        rw [if_neg apart] at mine
        exact mine.congr (moved.trans (if_neg hk))

theorem State.rescueHanger_names (hn : s.Names tag m) {tag' : Nat} (hh : s.hanger? tag' = some h) (hr : h.restsIn st = true) :
    (s.rescueHanger st tag').Names tag (if tag = tag' then m.rescuedOut s.lineTime (s.exitAllowance st) else m) := by
  have kept : KeptByRescue s (((s.modHanger tag' (fun h => (h.signalled s.lineTime).rescued)).closeEntry tag'
      h.imm.rescueCondition).modHanger tag' (fun h => h.modNewest RunEntry.markRescued)) :=
    (KeptByRescue.trans (t := s.modHanger tag' _) rfl (keptByRescue_closeEntry _ _ _)).trans (u := State.modHanger _ tag' _) rfl
  have named := State.rescueMove_names (hn.congr (t := ((s.modHanger tag' (fun h => (h.signalled s.lineTime).rescued)).closeEntry tag'
      h.imm.rescueCondition).modHanger tag' (fun h => h.modNewest RunEntry.markRescued)) (by simp)) st tag'
  rw [kept.lineTime, kept.exitAllowance] at named
  rw [State.rescueHanger_eq hh hr]
  exact named

/-! ### Every hanger of the station (R172, R173) -/

/-- R172: the records after the hangers of a list of tags are rescued. -/
theorem State.hanger_rescueAll (l : List Nat) (s : State) (st tag : Nat) :
    (l.foldl (fun t tag' => t.rescueHanger st tag') s).hanger? tag =
      (s.hanger? tag).map (fun h => if tag ∈ l ∧ h.restsIn st = true then h.rescuedAt s.lineTime else h) := by
  induction l generalizing s with
  | nil => simp
  | cons a l ih =>
    rw [List.foldl_cons, ih, (keptByRescue_rescueHanger s st a).lineTime]
    by_cases rests : ∃ h, s.hanger? a = some h ∧ h.restsIn st = true
    · obtain ⟨h, hh, hr⟩ := rests
      rw [State.hanger_rescueHanger hh hr]
      by_cases e : tag = a
      · subst e
        simp [hh, hr, Hanger.restsIn_rescuedAt]
      · simp [e]
    · have still : ∀ h, s.hanger? a = some h → h.restsIn st = false := fun h hh => by
        by_contra hr
        exact rests ⟨h, hh, by simpa using hr⟩
      rw [State.rescueHanger_same still]
      cases hh : s.hanger? tag with
      | none => rfl
      | some h =>
        by_cases e : tag = a
        · subst e
          simp [still h hh]
        · simp [e]

/-- R173: a hanger's move after the hangers of a list of tags are rescued. -/
theorem State.rescueAll_names (l : List Nat) (hn : s.Names tag m) (hh : s.hanger? tag = some h) :
    (l.foldl (fun t tag' => t.rescueHanger st tag') s).Names tag
      (if tag ∈ l ∧ h.restsIn st = true then m.rescuedOut s.lineTime (s.exitAllowance st) else m) := by
  induction l generalizing s m h with
  | nil => simpa using hn
  | cons a l ih =>
    rw [List.foldl_cons]
    have kept := keptByRescue_rescueHanger s st a
    by_cases rests : ∃ x, s.hanger? a = some x ∧ x.restsIn st = true
    · obtain ⟨x, hx, hr⟩ := rests
      have named := State.rescueHanger_names hn hx hr
      have found := State.hanger_rescueHanger hx hr tag
      by_cases e : tag = a
      · subst e
        obtain rfl : h = x := Option.some.inj (hh.symm.trans hx)
        rw [if_pos rfl] at named found
        have rest := ih named found
        rw [Hanger.restsIn_rescuedAt] at rest
        simpa [hr] using rest
      · rw [if_neg e] at named found
        have rest := ih named (found.trans hh)
        rw [kept.lineTime, kept.exitAllowance] at rest
        simpa [e] using rest
    · have still : ∀ x, s.hanger? a = some x → x.restsIn st = false := fun x hx => by
        by_contra hr
        exact rests ⟨x, hx, by simpa using hr⟩
      rw [State.rescueHanger_same still]
      by_cases e : tag = a
      · subst e
        have rest := ih hn hh
        simpa [still h hh] using rest
      · simpa [e] using ih hn hh

/-- R40, R172: the rescue of the hangers of a list of tags posts CONDITION notices alone to the supervisor. -/
theorem State.rescueAll_port0 (l : List Nat) (s : State) (st : Nat) : ∃ told : List Notice, (∀ n ∈ told, n.kind = .condition)
    ∧ (l.foldl (fun t tag' => t.rescueHanger st tag') s).port0 = told.foldl Port.push s.port0 := by
  have one : ∀ (s : State) a, ∃ told : List Notice, (∀ n ∈ told, n.kind = .condition)
      ∧ (s.rescueHanger st a).port0 = told.foldl Port.push s.port0 := by
    intro s a
    have moves : ∀ u : State, (u.rescueMove st a).port0 = u.port0 := by
      intro u
      unfold State.rescueMove
      split
      · split
        · rfl
        · dsimp only
          split
          · rw [State.announceId_rest]
            rfl
          · rfl
      · rfl
    unfold State.rescueHanger
    split
    · split
      · rw [moves]
        exact State.closeEntry_port0 _ _ _
      · exact ⟨[], by simp, rfl⟩
    · exact ⟨[], by simp, rfl⟩
  induction l generalizing s with
  | nil => exact ⟨[], by simp, rfl⟩
  | cons a l ih =>
    obtain ⟨first, h1, e1⟩ := one s a
    obtain ⟨rest, h2, e2⟩ := ih (s.rescueHanger st a)
    refine ⟨first ++ rest, fun n hn => (List.mem_append.1 hn).elim (h1 n) (h2 n), ?_⟩
    rw [List.foldl_cons, e2, e1, List.foldl_append]

/-! ### The assertion of a rescue line (R171) -/

theorem State.asserted_line (s : State) (hl : l ≤ 3) (st tag n : Nat) : (s.asserted l st tag).line n =
    if n = l then { asserted := true, assertTime := some s.lineTime, causeTag := some tag } else s.line n := by
  have lines : (s.asserted l st tag).lines
      = (s.modLine l (fun _ => { asserted := true, assertTime := some s.lineTime, causeTag := some tag })).lines := by
    unfold State.asserted
    simp
  unfold State.line
  rw [lines]
  exact State.line_modLine (by omega) n

theorem State.assertLine_line (s : State) (hl : l ≤ 3) (st tag n : Nat) : (s.assertLine l st tag).line n =
    if n = l then { asserted := true, assertTime := some s.lineTime, causeTag := some tag } else s.line n := by
  have lines : (s.assertLine l st tag).lines = (s.asserted l st tag).lines :=
    foldl_field State.lines _ (fun t a => State.rescueHanger_lines t st a) _ _
  rw [← State.asserted_line s hl]
  unfold State.line
  rw [lines]

theorem State.asserted_hangers (s : State) (l st tag : Nat) : (s.asserted l st tag).hangers = s.hangers := by
  unfold State.asserted
  simp

theorem State.asserted_moves (s : State) (l st tag : Nat) : (s.asserted l st tag).moves = s.moves := by
  unfold State.asserted
  simp

theorem State.mem_tags_of_hanger (hh : s.hanger? tag = some h) : tag ∈ s.tags := State.mem_tags.2 (by rw [hh]; simp)

/-- R172: the assertion rescues every hanger that rests in the station. -/
theorem State.hanger_assertLine (s : State) (l st cause tag : Nat) : (s.assertLine l st cause).hanger? tag =
    (s.hanger? tag).map (fun h => if h.restsIn st = true then h.rescuedAt s.lineTime else h) := by
  rw [State.assertLine_eq, State.hanger_rescueAll, (keptByRescue_asserted s l st cause).lineTime,
    State.hanger_congr (State.asserted_hangers s l st cause)]
  cases hh : s.hanger? tag with
  | none => rfl
  | some h => simp [State.mem_tags_of_hanger hh]

/-- R173: the assertion gives the move of a hanger it rescues the rescue exit times. -/
theorem State.move_assertLine (hn : s.Names tag m) (hh : s.hanger? tag = some h) (hr : h.restsIn st = true) (l cause : Nat) :
    (s.assertLine l st cause).move? m.id = some (m.rescuedOut s.lineTime (s.exitAllowance st)) := by
  have kept := keptByRescue_asserted s l st cause
  have named := State.rescueAll_names (st := st) s.tags (hn.congr (State.asserted_moves s l st cause))
    ((State.hanger_congr (State.asserted_hangers s l st cause) tag).trans hh)
  rw [if_pos ⟨State.mem_tags_of_hanger hh, hr⟩, kept.lineTime, kept.exitAllowance] at named
  have id : (m.rescuedOut s.lineTime (s.exitAllowance st)).id = m.id := by unfold Move.rescuedOut; split <;> rfl
  rw [← id, State.assertLine_eq]
  exact named.move

/-- R171, R172: the assertion posts RESCUE and, behind it, CONDITION notices. -/
theorem State.assertLine_port0 (s : State) (l st tag : Nat) : ∃ told : List Notice, (∀ n ∈ told, n.kind = .condition)
    ∧ (s.assertLine l st tag).port0 = told.foldl Port.push (s.port0.push
      { kind := .rescue, time := s.lineTime, tag := some tag, station := some st, move := none, codeA := l, codeB := 0, codeC := 0
        codeD := 0 }) := by
  obtain ⟨told, kinds, pushed⟩ := State.rescueAll_port0 s.tags (s.asserted l st tag) st
  refine ⟨told, kinds, pushed.trans (congrArg (fun q => told.foldl Port.push q) ?_)⟩
  unfold State.asserted
  rw [State.holdStation_port0]
  unfold State.notify State.post
  dsimp only
  split <;> rfl

/-- R160, R171: the assertion holds the station's gas channel. -/
theorem State.assertLine_held (s : State) (l st tag : Nat) : StationHeld s (s.assertLine l st tag) st .rescue := by
  have channels : (s.assertLine l st tag).channels = (s.asserted l st tag).channels :=
    foldl_field State.channels _ (fun t a => State.rescueHanger_channels t st a) _ _
  have held : StationHeld _ (s.asserted l st tag) st .rescue := State.holdStation_holds _ st .rescue
  unfold StationHeld HoldSet State.station State.channel at held ⊢
  rw [channels]
  simpa using held

/-! ### The signal of a compare point (R78, R171) -/

/-- R78: a compare point that has been signalled. -/
def Hanger.fire (h : Hanger) : Hanger := { h with imm := { h.imm with fired := true } }

/-- R78: the compare point of a hanger is signalled. -/
def State.fired (s : State) (tag : Nat) : State := s.modHanger tag Hanger.fire

theorem Immersion.compareDue_iff (i : Immersion) (now : LineTime) :
    i.compareDue now = true ↔ ∃ x, i.compare = some x ∧ i.fired = false ∧ reached now x = true := by
  unfold Immersion.compareDue
  cases i.compare <;> simp

theorem State.signal_same (hd : ∀ h, s.hanger? tag = some h → h.imm.compareDue s.lineTime = false) : s.signal tag = s := by
  unfold State.signal
  split
  · rename_i h hh
    exact if_neg (by simp [hd h hh])
  · rfl

section
variable (hh : s.hanger? tag = some h) (hd : h.imm.compareDue s.lineTime = true)
include hh hd

theorem State.signal_overdue (hl : (s.station h.imm.station).rescueLine = none) :
    s.signal tag = { s.fired tag with
      port0 := s.port0.push (plainNotice .overdue s.lineTime (some tag) (some h.imm.station) 0) } := by
  unfold State.signal
  rw [hh]
  dsimp only
  rw [if_pos hd, hl]
  exact State.post_of_maskable _ .p0 rfl

theorem State.signal_line (hl : (s.station h.imm.station).rescueLine = some l) :
    s.signal tag = if (s.line l).asserted = true then s.fired tag else (s.fired tag).assertLine l h.imm.station tag := by
  unfold State.signal
  rw [hh]
  dsimp only
  rw [if_pos hd, hl]
  rfl

end

/-- Settles O50: the three outcomes of a signal, and in the assertion each hanger, each move, the notices and the hold. -/
theorem comparePointRaisesTheBarOrOverdue : Obligations.ComparePointRaisesTheBarOrOverdue := by
  intro tag s
  refine ⟨fun hn => congrArg Host.Outcome.next (State.signal_same (fun h hh => ?_)), fun h x v hh hx hf hr hv => ?_⟩
  · rw [Bool.eq_false_iff, ne_eq, Immersion.compareDue_iff]
    rintro ⟨x, hx, hf, hr⟩
    rcases hn h x hh hx with e | e
    · rw [hf] at e; cases e
    · rw [hr] at e; cases e
  have due := (Immersion.compareDue_iff h.imm s.lineTime).2 ⟨x, hx, hf, hr⟩
  obtain rfl : v = s.fired tag := hv
  refine ⟨fun hl => congrArg Host.Outcome.next (State.signal_overdue hh due hl),
    fun l hl ha => congrArg Host.Outcome.next ((State.signal_line hh due hl).trans (if_pos ha)), fun l hl hl3 ha => ?_⟩
  refine ⟨_, congrArg Host.Outcome.next ((State.signal_line hh due hl).trans (if_neg (by simp [ha]))), ?_⟩
  have line := State.assertLine_line (s.fired tag) hl3 h.imm.station tag
  have hangers := State.hanger_assertLine (s.fired tag) l h.imm.station tag
  have moves := fun tag' m y (hn : s.Names tag' m) (hy : (s.fired tag).hanger? tag' = some y)
    (hr : y.restsIn h.imm.station = true) => State.move_assertLine (hn.congr (t := s.fired tag) rfl) hy hr l tag
  have notices := State.assertLine_port0 (s.fired tag) l h.imm.station tag
  have held : StationHeld s ((s.fired tag).assertLine l h.imm.station tag) h.imm.station .rescue :=
    State.assertLine_held (s.fired tag) l h.imm.station tag
  have kept : KeptByRescue s ((s.fired tag).assertLine l h.imm.station tag) :=
    KeptByRescue.trans (t := s.fired tag) rfl (keptByRescue_assertLine _ _ _ _)
  generalize (s.fired tag).assertLine l h.imm.station tag = t at line hangers moves notices held kept
  refine ⟨(line l).trans (if_pos rfl), fun n hn => (line n).trans (if_neg hn), ?_, fun tag' y hy => ⟨fun hr => ?_, fun hr => ?_⟩,
    notices, held, kept.settings, kept.stations, by rw [kept], by rw [kept], kept.baths, by rw [kept], by rw [kept]⟩
  · have asserted : (t.line l).asserted = true := by rw [line, if_pos rfl]
    unfold State.line at asserted
    unfold State.rescuePin
    cases e : t.lines[l]? <;> rw [e] at asserted
    · cases asserted
    · exact asserted
  · rw [hangers, hy, Option.map_some, if_neg (by simp [hr])]
  · refine ⟨_, rfl, ?_, fun m hm only => ⟨fun hk => ?_, fun hk => ?_⟩⟩
    · rw [hangers, hy, Option.map_some, if_pos hr, Hanger.rescuedAt_eq]
      rfl
    · rw [moves tag' m y ⟨hm, only⟩ hy hr]
      exact congrArg some (if_pos hk)
    · rw [moves tag' m y ⟨hm, only⟩ hy hr]
      exact congrArg some (if_neg hk)

end Sys2Proof.Machine
end

