-- ==== Sys2Proof/Proofs/Signals.lean ====
section
/-! PROOFS. Several compare points signalled in one event, as at a SET-GRACE (O51) and at a change of rate (O25): what one signal
makes of every hanger and rescue line, and what the signals of a list of hangers make of one that is due among them. -/

namespace Sys2Proof.Machine

variable {s : State} {tag a st l : Nat} {h k : Hanger}

/-! ### One signal -/

/-- R78: the record of a hanger after a signal, its own or another's, but for a rescue. -/
def Hanger.atSignal (h : Hanger) (now : LineTime) (own : Bool) : Hanger :=
  if own = true ∧ h.imm.compareDue now = true then h.fire else h

theorem Hanger.atSignal_cases (h : Hanger) (now : LineTime) (own : Bool) :
    h.atSignal now own = h ∨ (own = true ∧ h.atSignal now own = h.fire) := by
  unfold Hanger.atSignal
  split
  · rename_i e; exact Or.inr ⟨e.1, rfl⟩
  · exact Or.inl rfl

/-- R171: the signal of hanger `tag` asserts rescue line `l` of station `st`. -/
structure State.Asserts (s : State) (tag l st : Nat) : Prop where
  due : ∃ k, s.hanger? tag = some k ∧ k.imm.compareDue s.lineTime = true ∧ k.imm.station = st
  line : (s.station st).rescueLine = some l
  unasserted : (s.line l).asserted = false

theorem State.hanger_fired (hk : s.hanger? tag = some k) (hd : k.imm.compareDue s.lineTime = true) (a : Nat) :
    (s.fired tag).hanger? a = (s.hanger? a).map (fun x => x.atSignal s.lineTime (a == tag)) := by
  unfold State.fired Hanger.atSignal
  rw [State.hanger_modHanger (by exact fun _ => rfl)]
  split
  · rename_i e
    subst e
    simp [hk, hd]
  · rename_i e
    simp [e]

/-- R171, R172: a signal that asserts a line rescues the hangers of the station. -/
theorem State.Asserts.signal (ha : s.Asserts tag l st) : s.signal tag = (s.fired tag).assertLine l st tag := by
  obtain ⟨k, hk, hd, rfl⟩ := ha.due
  rw [State.signal_line hk hd ha.line, if_neg (by simp [ha.unasserted])]

theorem State.Asserts.hanger (ha : s.Asserts tag l st) (a : Nat) : (s.signal tag).hanger? a = (s.hanger? a).map (fun x =>
    if x.restsIn st = true then (x.atSignal s.lineTime (a == tag)).rescuedAt s.lineTime else x.atSignal s.lineTime (a == tag)) := by
  obtain ⟨k, hk, hd, -⟩ := ha.due
  have rests : ∀ x : Hanger, (x.atSignal s.lineTime (a == tag)).restsIn st = x.restsIn st := by
    intro x
    rcases x.atSignal_cases s.lineTime (a == tag) with e | ⟨-, e⟩ <;> rw [e]
    rfl
  rw [ha.signal, State.hanger_assertLine, State.hanger_fired hk hd, Option.map_map]
  refine congrArg (fun f => (s.hanger? a).map f) (funext fun x => ?_)
  dsimp only [Function.comp]
  rw [rests]
  rfl

/-- R171: a signal that asserts no line marks its own hanger alone. -/
theorem State.signal_quiet (hq : ∀ l st, ¬ s.Asserts tag l st) :
    (∀ a, (s.signal tag).hanger? a = (s.hanger? a).map (fun x => x.atSignal s.lineTime (a == tag)))
    ∧ (s.signal tag).lines = s.lines := by
  by_cases due : ∃ k, s.hanger? tag = some k ∧ k.imm.compareDue s.lineTime = true
  · obtain ⟨k, hk, hd⟩ := due
    cases hl : (s.station k.imm.station).rescueLine with
    | none =>
      rw [State.signal_overdue hk hd hl]
      exact ⟨State.hanger_fired hk hd, rfl⟩
    | some l =>
      have asserted : (s.line l).asserted = true := by
        by_contra hn
        exact hq l _ ⟨⟨k, hk, hd, rfl⟩, hl, by simpa using hn⟩
      rw [State.signal_line hk hd hl, if_pos asserted]
      exact ⟨State.hanger_fired hk hd, rfl⟩
  · have undue : ∀ k, s.hanger? tag = some k → k.imm.compareDue s.lineTime = false := fun k hk => by
      by_contra hd
      exact due ⟨k, hk, by simpa using hd⟩
    rw [State.signal_same undue]
    refine ⟨fun a => ?_, rfl⟩
    cases hx : s.hanger? a with
    | none => rfl
    | some x =>
      refine congrArg some (Eq.symm (if_neg fun own => ?_))
      rw [beq_iff_eq] at own
      have := undue x (own.1 ▸ hx)
      rw [this] at own
      cases own.2

/-- What a signal can make of the record of a hanger: what its own compare point asks, and a rescue where the signal asserts the
line of the station it rests in. -/
theorem State.hanger_signal (hh : s.hanger? a = some h) (tag : Nat) :
    (s.signal tag).hanger? a = some (h.atSignal s.lineTime (a == tag))
    ∨ ((s.signal tag).hanger? a = some ((h.atSignal s.lineTime (a == tag)).rescuedAt s.lineTime)
      ∧ ∃ l st, s.Asserts tag l st ∧ h.restsIn st = true) := by
  by_cases ha : ∃ l st, s.Asserts tag l st
  · obtain ⟨l, st, ha⟩ := ha
    rw [ha.hanger, hh, Option.map_some]
    split
    · rename_i hr; exact Or.inr ⟨rfl, l, st, ha, hr⟩
    · exact Or.inl rfl
  · push Not at ha
    left
    rw [(State.signal_quiet ha).1, hh]
    rfl

/-! ### What every signal keeps -/

/-- The station of the immersion of the hanger a tag names. -/
def State.immStation? (s : State) (tag : Nat) : Option Nat := (s.hanger? tag).map (fun k => k.imm.station)

theorem State.immStation_signal (s : State) (tag a : Nat) : (s.signal tag).immStation? a = s.immStation? a := by
  have own : ∀ x : Hanger, (x.atSignal s.lineTime (a == tag)).imm.station = x.imm.station := by
    intro x
    rcases x.atSignal_cases s.lineTime (a == tag) with e | ⟨-, e⟩ <;> rw [e]
    rfl
  have rescued : ∀ x : Hanger, ((x.atSignal s.lineTime (a == tag)).rescuedAt s.lineTime).imm.station = x.imm.station := by
    intro x
    rw [Hanger.rescuedAt_eq]
    exact own x
  unfold State.immStation?
  by_cases ha : ∃ l st, s.Asserts tag l st
  · obtain ⟨l, st, ha⟩ := ha
    rw [ha.hanger, Option.map_map]
    refine congrArg (fun f => (s.hanger? a).map f) (funext fun x => ?_)
    dsimp only [Function.comp]
    split
    · exact rescued x
    · exact own x
  · push Not at ha
    rw [(State.signal_quiet ha).1, Option.map_map]
    exact congrArg (fun f => (s.hanger? a).map f) (funext own)

/-- The stations of the immersions of the hangers of a list. -/
def State.ListOnly (s : State) (tags : List Nat) (P : Nat → Prop) : Prop := ∀ tag ∈ tags, ∀ o, s.immStation? tag = some o → P o

theorem State.ListOnly.signal {P : Nat → Prop} {tags : List Nat} (hp : s.ListOnly (tag :: tags) P) :
    (s.signal tag).ListOnly tags P := fun x hx o ho =>
  hp x (List.mem_cons_of_mem _ hx) o ((s.immStation_signal tag x).symm.trans ho)

theorem State.Asserts.only {P : Nat → Prop} {tags : List Nat} (ha : s.Asserts tag l st) (hp : s.ListOnly (tag :: tags) P) : P st := by
  obtain ⟨k, hk, -, rfl⟩ := ha.due
  exact hp tag (by simp) _ (by rw [State.immStation?, hk]; rfl)

/-! ### A compare point that is due among the signals of a list -/

/-- R78: the compare point has been signalled, or is due. -/
def Hanger.Pending (h : Hanger) (now : LineTime) : Prop := h.imm.fired = true ∨ h.imm.compareDue now = true

/-- R78, R171: a signal keeps a compare point that has been signalled or is due one of the two, and its own signal, or a rescue on
the way, signals it. -/
theorem State.pending_signal (hh : s.hanger? a = some h) (hp : h.Pending s.lineTime) (tag : Nat) :
    ∃ x, (s.signal tag).hanger? a = some x ∧ x.Pending s.lineTime ∧ (h.imm.fired = true ∨ a = tag → x.imm.fired = true) := by
  have own : (h.atSignal s.lineTime (a == tag)).Pending s.lineTime
      ∧ (h.imm.fired = true ∨ a = tag → (h.atSignal s.lineTime (a == tag)).imm.fired = true) := by
    by_cases e : (a == tag) = true ∧ h.imm.compareDue s.lineTime = true
    · rw [show h.atSignal s.lineTime (a == tag) = h.fire from if_pos e]
      exact ⟨Or.inl rfl, fun _ => rfl⟩
    · rw [show h.atSignal s.lineTime (a == tag) = h from if_neg e]
      refine ⟨hp, fun hf => ?_⟩
      rcases hf with hf | rfl
      · exact hf
      · exact hp.resolve_right (fun hd => e ⟨beq_self_eq_true a, hd⟩)
  rcases State.hanger_signal hh tag with e | ⟨e, -⟩
  · exact ⟨_, e, own⟩
  · have fired : ((h.atSignal s.lineTime (a == tag)).rescuedAt s.lineTime).imm.fired = true := by
      rw [Hanger.rescuedAt_eq]
      rcases own.1 with hf | hd
      · simp [hf]
      · obtain ⟨x, hx, -, hr⟩ := (Immersion.compareDue_iff _ _).1 hd
        simp [hx, hr]
    exact ⟨_, e, Or.inl fired, fun _ => fired⟩

/-- R78: the signals of a list of hangers signal each compare point of the list that is due. -/
theorem State.fired_of_signals (tags : List Nat) (hh : s.hanger? a = some h) (hp : h.Pending s.lineTime)
    (ha : h.imm.fired = true ∨ a ∈ tags) :
    ∃ x, (tags.foldl State.signal s).hanger? a = some x ∧ x.imm.fired = true := by
  induction tags generalizing s h with
  | nil => exact ⟨h, hh, by simpa using ha⟩
  | cons tag tags ih =>
    obtain ⟨x, hx, hxp, hf⟩ := State.pending_signal hh hp tag
    refine ih hx (by rw [(keptByRescue_signal s tag).lineTime]; exact hxp) ?_
    rcases ha with ha | ha
    · exact Or.inl (hf (Or.inl ha))
    · rcases List.mem_cons.1 ha with e | ha
      · exact Or.inl (hf (Or.inr e))
      · exact Or.inr ha

/-- R171: signals of hangers of other stations, and of stations with no rescue line, change nothing of a hanger but the mark of its
own compare point. -/
theorem State.unrescued_by_signals (tags : List Nat) {x : Hanger} (hx : s.hanger? a = some x) (hxh : x = h ∨ x = h.fire)
    (ho : s.ListOnly tags (fun o => h.restsIn o = true → (s.station o).rescueLine = none)) :
    ∃ y, (tags.foldl State.signal s).hanger? a = some y ∧ (y = h ∨ y = h.fire) := by
  induction tags generalizing s x with
  | nil => exact ⟨x, hx, hxh⟩
  | cons tag tags ih =>
    have rests : ∀ o, x.restsIn o = h.restsIn o := by intro o; rcases hxh with rfl | rfl <;> rfl
    have next : (s.signal tag).hanger? a = some (x.atSignal s.lineTime (a == tag)) := by
      refine (State.hanger_signal hx tag).resolve_right ?_
      rintro ⟨-, l, st, ha, hr⟩
      have none := ha.only ho ((rests st).symm.trans hr)
      rw [ha.line] at none
      cases none
    refine ih next ?_ ?_
    · rcases x.atSignal_cases s.lineTime (a == tag) with e | ⟨-, e⟩ <;> rw [e]
      · exact hxh
      · rcases hxh with rfl | rfl <;> exact Or.inr rfl
    · simp only [(keptByRescue_signal s tag).station]
      exact ho.signal

/-- R78, R171: such a hanger whose compare point is due is marked, and nothing else. -/
theorem State.fire_of_signals (tags : List Nat) (hh : s.hanger? a = some h) (hd : h.imm.compareDue s.lineTime = true) (ha : a ∈ tags)
    (ho : s.ListOnly tags (fun o => h.restsIn o = true → (s.station o).rescueLine = none)) :
    (tags.foldl State.signal s).hanger? a = some h.fire := by
  obtain ⟨x, hx, hf⟩ := State.fired_of_signals tags hh (Or.inr hd) (Or.inr ha)
  obtain ⟨y, hy, hyh⟩ := State.unrescued_by_signals tags hh (Or.inl rfl) ho
  obtain rfl : x = y := Option.some.inj (hx.symm.trans hy)
  obtain ⟨-, -, unfired, -⟩ := (Immersion.compareDue_iff _ _).1 hd
  rcases hyh with rfl | rfl
  · rw [unfired] at hf
    cases hf
  · exact hy

/-! ### The line a due compare point asserts (R171, R172) -/

/-- R171: rescue line `l` has been asserted at this line time, and hanger `a`, if it rested in station `st`, is RESCUED. -/
structure State.BarRaised (s : State) (l st a : Nat) (h : Hanger) : Prop where
  asserted : (s.line l).asserted = true
  time : (s.line l).assertTime = some s.lineTime
  rescued : h.restsIn st = true → ∃ x, s.hanger? a = some x ∧ x.state = .rescued

theorem State.assertLine_line_other (s : State) {l n : Nat} (hn : n ≠ l) (st tag : Nat) :
    (s.assertLine l st tag).line n = s.line n := by
  have lines : (s.assertLine l st tag).lines
      = (s.modLine l (fun _ => { asserted := true, assertTime := some s.lineTime, causeTag := some tag })).lines :=
    (foldl_field State.lines _ (fun t a => State.rescueHanger_lines t st a) _ _).trans (by simp)
  unfold State.line
  rw [lines, State.modLine_lines, Vector.getElem?_setIfInBounds, if_neg (fun e => hn e.symm)]

theorem State.Asserts.line_other (ha : s.Asserts tag l st) {n : Nat} (hn : n ≠ l) : (s.signal tag).line n = s.line n := by
  rw [ha.signal, State.assertLine_line_other _ hn]
  rfl

/-- A raised bar stays raised, and a RESCUED hanger stays RESCUED. -/
theorem State.BarRaised.signal (hb : s.BarRaised l st a h) (tag : Nat) : (s.signal tag).BarRaised l st a h := by
  have line : (s.signal tag).line l = s.line l := by
    by_cases ha : ∃ n o, s.Asserts tag n o
    · obtain ⟨n, o, ha⟩ := ha
      refine ha.line_other (fun e => ?_)
      have := ha.unasserted
      rw [← e, hb.asserted] at this
      cases this
    · push Not at ha
      unfold State.line
      rw [(State.signal_quiet ha).2]
  refine ⟨by rw [line]; exact hb.asserted, by rw [line, (keptByRescue_signal s tag).lineTime]; exact hb.time, fun hr => ?_⟩
  obtain ⟨x, hx, hs⟩ := hb.rescued hr
  have own : (x.atSignal s.lineTime (a == tag)).state = .rescued := by
    rcases x.atSignal_cases s.lineTime (a == tag) with e | ⟨-, e⟩ <;> rw [e] <;> exact hs
  rcases State.hanger_signal hx tag with e | ⟨e, -⟩
  · exact ⟨_, e, own⟩
  · exact ⟨_, e, by rw [Hanger.rescuedAt_eq]⟩

theorem State.Asserts.barRaised (ha : s.Asserts tag l st) (hl : l ≤ 3) (hh : s.hanger? a = some h) :
    (s.signal tag).BarRaised l st a h := by
  have line : (s.signal tag).line l = { asserted := true, assertTime := some s.lineTime, causeTag := some tag } := by
    rw [ha.signal, State.assertLine_line _ hl, if_pos rfl]
    rfl
  refine ⟨by rw [line], by rw [line, (keptByRescue_signal s tag).lineTime],
    fun hr => ⟨(h.atSignal s.lineTime (a == tag)).rescuedAt s.lineTime, ?_, ?_⟩⟩
  · rw [ha.hanger, hh, Option.map_some, if_pos hr]
  · rw [Hanger.rescuedAt_eq]

/-- R171, R172: where no hanger of another station can assert the line or rescue the hanger, the signals of a list in which its
compare point is due raise the bar. -/
theorem State.barRaised_by_signals (tags : List Nat) (hh : s.hanger? a = some h) (hd : h.imm.compareDue s.lineTime = true)
    (ha : a ∈ tags) (hst : h.imm.station = st) (hl : (s.station st).rescueLine = some l) (hl3 : l ≤ 3)
    (hn : (s.line l).asserted = false)
    (ho : s.ListOnly tags (fun o => h.restsIn o = true ∨ (s.station o).rescueLine = some l → o = st)) :
    (tags.foldl State.signal s).BarRaised l st a h := by
  have raised : ∀ (rest : List Nat) (u : State), u.BarRaised l st a h → (rest.foldl State.signal u).BarRaised l st a h := by
    intro rest
    induction rest with
    | nil => exact fun u hb => hb
    | cons tag rest ih => exact fun u hb => ih _ (hb.signal tag)
  induction tags generalizing s with
  | nil => cases ha
  | cons tag tags ih =>
    by_cases hs : s.Asserts tag l st
    · exact raised tags _ (hs.barRaised hl3 hh)
    have other : a ≠ tag := by
      rintro rfl
      exact hs ⟨⟨h, hh, hd, hst⟩, hl, hn⟩
    have own : h.atSignal s.lineTime (a == tag) = h := if_neg (by simp [other])
    have same : (s.signal tag).hanger? a = some h ∧ ((s.signal tag).line l).asserted = false := by
      by_cases hq : ∃ n o, s.Asserts tag n o
      · obtain ⟨n, o, hq⟩ := hq
        have elsewhere : o ≠ st := by
          rintro rfl
          obtain rfl : n = l := Option.some.inj (hq.line.symm.trans hl)
          exact hs hq
        have line : l ≠ n := by
          rintro rfl
          exact elsewhere (hq.only ho (Or.inr hq.line))
        have away : ¬ h.restsIn o = true := fun hr => elsewhere (hq.only ho (Or.inl hr))
        rw [hq.hanger, hh, Option.map_some, if_neg away, own, hq.line_other line]
        exact ⟨rfl, hn⟩
      · push Not at hq
        obtain ⟨hangers, lines⟩ := State.signal_quiet hq
        rw [hangers, hh, Option.map_some, own]
        refine ⟨rfl, ?_⟩
        unfold State.line at hn ⊢
        rw [lines]
        exact hn
    have kept := keptByRescue_signal s tag
    refine ih same.1 (by rw [kept.lineTime]; exact hd) ((List.mem_cons.1 ha).resolve_left other)
      ((congrArg Station.rescueLine (kept.station st)).trans hl) same.2 ?_
    simp only [kept.station]
    exact ho.signal

/-- R78: signals of compare points that are not due change nothing. -/
theorem State.signals_same (tags : List Nat)
    (hd : ∀ tag ∈ tags, ∀ k, s.hanger? tag = some k → k.imm.compareDue s.lineTime = false) : tags.foldl State.signal s = s := by
  induction tags with
  | nil => rfl
  | cons tag tags ih =>
    rw [List.foldl_cons, State.signal_same (hd tag (by simp))]
    exact ih (fun x hx => hd x (by simp [hx]))

theorem keptByRescue_signals (tags : List Nat) (s : State) : KeptByRescue s (tags.foldl State.signal s) :=
  .foldl keptByRescue_signal tags s

end Sys2Proof.Machine
end

