-- ==== Sys2Proof/Proofs/Grace.lean ====
section
/-! PROOFS. SET-GRACE and RESCUE-CLEAR (O51): the compare points a new grace remakes and the signals it brings, and the lowering of
a raised bar. -/

namespace Sys2Proof.Machine

variable {s t : State} {l st : Nat} {h : Hanger}

/-! ### Events taken one after the other -/

/-- Commands that each do what an event does are taken as the events are. -/
theorem takeAll_map {α : Type} {i : α → Instr} {f : State → α → State} (hf : ∀ s a, exec (i a) s = .next (f s a)) (l : List α)
    (s : State) : takeAll (l.map i) s = l.foldl f s := by
  unfold takeAll
  rw [List.foldl_map]
  refine congrArg (fun g => l.foldl g s) (funext fun t => funext fun a => ?_)
  rw [hf]

theorem takeAll_signals (hangers : List Hanger) (s : State) :
    takeAll (hangers.map (fun h => .rescueCompareReached h.tag)) s = (hangers.map Hanger.tag).foldl State.signal s := by
  rw [List.foldl_map]
  exact takeAll_map (fun _ _ => rfl) hangers s

/-! ### SET-GRACE (R169) -/

/-- "Clamped to [0, m]". -/
theorem clampNat_zero (m x : Nat) : clampNat 0 m x = min x m := by
  unfold clampNat
  rw [if_neg (Nat.not_lt_zero x)]
  split <;> omega

/-- R78: the record of a hanger whose compare point, if armed, is remade with a grace. -/
def Hanger.regraced (h : Hanger) (grace : Nat) : Hanger := { h with imm := h.imm.regrace grace }

/-- R169: the grace stored and the compare points remade. -/
def State.regraced (s : State) (g : Nat) : State :=
  { s with grace := min g 600, hangers := s.hangers.map (fun h => h.regraced (min g 600)) }

theorem setGrace_eq (g : Nat) (s : State) :
    setGrace g s = (s.tags.foldl State.signal (s.regraced g), Reply.bare (if g ≤ 600 then .ok else .clamped)) := by
  have kept : (min g 600 = g) = (g ≤ 600) := propext (by omega)
  unfold setGrace
  rw [clampNat_zero]
  simp only [kept, State.answer_eq]
  rfl

theorem State.hanger_regraced (s : State) (g tag : Nat) :
    (s.regraced g).hanger? tag = (s.hanger? tag).map (fun h => h.regraced (min g 600)) := by
  unfold State.hanger? State.regraced
  rw [List.find?_map]
  rfl

/-- R33: where each tag names one record, the record of a tag is found by it. -/
theorem State.hanger_of_mem (tags : (s.hangers.map Hanger.tag).Nodup) (hm : h ∈ s.hangers) : s.hanger? h.tag = some h := by
  cases hx : s.hanger? h.tag with
  | none => exact absurd hx (State.mem_tags.1 (List.mem_map_of_mem hm))
  | some x =>
    obtain ⟨mem, tag⟩ := State.mem_of_hanger hx
    rw [List.inj_on_of_nodup_map tags mem hm tag]

theorem Hanger.regraced_due (h : Hanger) (grace : Nat) (now : LineTime) : (h.regraced grace).imm.compareDue now = true ↔
    h.imm.compare ≠ none ∧ h.imm.fired = false ∧ reached now (plus h.imm.predClosing grace) = true := by
  rw [Immersion.compareDue_iff]
  cases hc : h.imm.compare with
  | none => simp [Hanger.regraced, Immersion.regrace, hc]
  | some x => simp [Hanger.regraced, Immersion.regrace, hc]

/-- R172: a hanger rests in one station. -/
theorem Hanger.restsIn_unique {o : Nat} (h1 : h.restsIn st = true) (h2 : h.restsIn o = true) : o = st := by
  unfold Hanger.restsIn at h1 h2
  cases hl : h.location with
  | slot r =>
    rw [hl, Bool.and_eq_true] at h1 h2
    exact (beq_iff_eq.1 h2.1).symm.trans (beq_iff_eq.1 h1.1)
  | gantry g =>
    rw [hl] at h1
    cases h1

section
variable (s) (g : Nat)

/-- R78, R169: what a SET-GRACE does beside the signals it brings. -/
theorem State.signals_regraced_same (hn : ∀ h ∈ s.hangers, h.imm.compare ≠ none → h.imm.fired = true
      ∨ reached s.lineTime (plus h.imm.predClosing (min g 600)) = false) :
    s.tags.foldl State.signal (s.regraced g) = s.regraced g := by
  refine State.signals_same _ (fun tag _ k hk => ?_)
  rw [State.hanger_regraced, Option.map_eq_some_iff] at hk
  obtain ⟨h, hh, rfl⟩ := hk
  rw [Bool.eq_false_iff, ne_eq, Hanger.regraced_due]
  rintro ⟨armed, unfired, hr⟩
  rcases hn h (State.mem_of_hanger hh).1 armed with e | e
  · rw [unfired] at e; cases e
  · exact absurd hr (by rw [show (s.regraced g).lineTime = s.lineTime from rfl, e]; simp)

variable {s g} (tags : (s.hangers.map Hanger.tag).Nodup) (hm : h ∈ s.hangers) (armed : h.imm.compare ≠ none)
  (unfired : h.imm.fired = false) (hr : reached s.lineTime (plus h.imm.predClosing (min g 600)) = true)
include tags hm armed unfired hr

/-- R78, R171: a compare point that the new grace brings to a line time already reached is signalled. -/
theorem State.signals_regraced_due :
    (∃ h', (s.tags.foldl State.signal (s.regraced g)).hanger? h.tag = some h' ∧ h'.imm.fired = true)
    ∧ (h.restsIn h.imm.station = true → (s.station h.imm.station).rescueLine = none →
      (s.tags.foldl State.signal (s.regraced g)).hanger? h.tag = some (h.regraced (min g 600)).fire)
    ∧ (∀ l, h.restsIn h.imm.station = true → (s.station h.imm.station).rescueLine = some l → l ≤ 3 → (s.line l).asserted = false →
      (∀ o, o ≤ 23 → o ≠ h.imm.station → (s.station o).rescueLine ≠ some l) →
      (s.tags.foldl State.signal (s.regraced g)).BarRaised l h.imm.station h.tag (h.regraced (min g 600))) := by
  have found := State.hanger_of_mem tags hm
  have remade : (s.regraced g).hanger? h.tag = some (h.regraced (min g 600)) := by
    rw [State.hanger_regraced, found]
    rfl
  have due := (Hanger.regraced_due h (min g 600) s.lineTime).2 ⟨armed, unfired, hr⟩
  have named := State.mem_tags_of_hanger found
  refine ⟨State.fired_of_signals _ remade (Or.inr due) (Or.inr named), fun rests hl => ?_, fun l rests hl hl3 hn only => ?_⟩
  · refine State.fire_of_signals _ remade due named (fun tag _ o _ ho => ?_)
    rw [Hanger.restsIn_unique rests ho]
    exact hl
  · refine State.barRaised_by_signals _ remade due named rfl hl hl3 hn (fun tag _ o _ ho => ?_)
    by_contra other
    rcases ho with ho | ho
    · exact other (Hanger.restsIn_unique rests ho)
    · by_cases inside : o ≤ 23
      · exact only o inside other ho
      · rw [State.station_outside _ (by omega)] at ho
        cases ho

end

/-! ### RESCUE-CLEAR (R175) -/

theorem State.lineStation_eq (hst : st ≤ 23) (hc : (s.station st).configured = true) (hl : (s.station st).rescueLine = some l)
    (only : ∀ o, o ≤ 23 → o ≠ st → (s.station o).configured = true → (s.station o).rescueLine ≠ some l) :
    s.lineStation l = some st := by
  have mem : st ∈ List.range Config.stations := List.mem_range.2 (by unfold Config.stations; omega)
  unfold State.lineStation
  cases hf : (List.range Config.stations).find?
      (fun st => (s.station st).configured && (s.station st).rescueLine == some l) with
  | none => exact absurd (by simp [hc, hl]) (List.find?_eq_none.1 hf st mem)
  | some o =>
    have found := List.find?_some hf
    have inside := List.mem_range.1 (List.mem_of_find?_eq_some hf)
    rw [Bool.and_eq_true, beq_iff_eq] at found
    by_contra other
    exact only o (by unfold Config.stations at inside; omega) (fun e => other (congrArg some e)) found.1 found.2

theorem State.rescuedIn_pos : 0 < s.rescuedIn st ↔
    ∃ h ∈ s.hangers, h.state = .rescued ∧ ∃ r : SlotRef, h.location = .slot r ∧ r.station = st := by
  unfold State.rescuedIn
  rw [List.countP_pos_iff]
  refine exists_congr (fun h => and_congr_right (fun _ => ?_))
  rw [Bool.and_eq_true, beq_iff_eq]
  refine and_congr_right (fun _ => ?_)
  cases h.location <;> simp

section
variable {q : Reply} (hp : PortFree s .p0)
include hp

theorem answers_setGrace {g : Nat} (h : setGrace g (s.opened .p0 4) = (t, q)) : Answers (.setGrace g) s .p0 t q :=
  Answers.of_rule (c := 0x56) (l := bytes2 g) rfl hp h

theorem answers_rescueClear (h : rescueClear l (s.opened .p0 3) = (t, q)) : Answers (.rescueClear l) s .p0 t q :=
  Answers.of_rule (c := 0x57) (l := bytes1 l) rfl hp h

end

theorem rescueClear_station (hl3 : l ≤ 3) (ha : (s.line l).asserted = true) (hs : s.lineStation l = some st) :
    rescueClear l s = if 0 < s.rescuedIn st then (s, Reply.bare .notNow)
      else ((s.modLine l (fun r => { r with asserted := false })).releaseStation st .rescue, Reply.bare .ok) := by
  unfold rescueClear
  rw [if_neg (by omega), if_neg (by simp [ha]), hs]
  rfl

/-- R161: the end of a hold changes the channels alone. -/
theorem State.releaseStation_rest (s : State) (st : Nat) (k : HoldCause) :
    s.releaseStation st k = { s with channels := (s.releaseStation st k).channels } := by
  unfold State.releaseStation
  split <;> rfl

/-- Settles O51: SET-GRACE as the state it remakes and the signals that follow, and RESCUE-CLEAR by its tests in their order. -/
theorem graceAndRescueClear : Obligations.GraceAndRescueClear := by
  intro s hp
  refine ⟨fun g => ?_, fun l => ⟨fun h3 => answers_rescueClear hp (if_pos h3), fun h3 ha => answers_rescueClear hp ?_, ?_⟩⟩
  · have kept : KeptByRescue ((s.opened .p0 4).regraced g) _ := keptByRescue_signals s.tags ((s.opened .p0 4).regraced g)
    refine ⟨(s.opened .p0 4).regraced g, s.tags.foldl State.signal ((s.opened .p0 4).regraced g), rfl,
      (takeAll_signals s.hangers _).symm, answers_setGrace hp (setGrace_eq g _), by rw [kept]; rfl, by rw [kept]; rfl,
      by rw [kept]; rfl, by rw [kept]; rfl, by rw [kept]; rfl, by rw [kept]; rfl,
      fun hn => State.signals_regraced_same (s.opened .p0 4) g hn, fun tags h hm armed unfired hr => ?_⟩
    obtain ⟨⟨h', hh', fired⟩, overdue, raised⟩ :=
      State.signals_regraced_due (s := s.opened .p0 4) tags hm armed unfired hr
    refine ⟨h', hh', fired, fun rests hl => ?_, fun l rests hl hl3 hn only => ?_⟩
    · obtain ⟨x, hx⟩ := Option.ne_none_iff_exists'.1 armed
      have same : h' = (h.regraced (min g 600)).fire := Option.some.inj (hh'.symm.trans (overdue rests hl))
      rw [same]
      unfold Hanger.regraced Hanger.fire Immersion.regrace
      rw [hx]
      rfl
    · have bar := raised l rests hl hl3 hn only
      obtain ⟨x, hx, hs⟩ := bar.rescued rests
      obtain rfl : x = h' := Option.some.inj (hx.symm.trans hh')
      exact ⟨hs, bar.asserted, bar.time.trans (congrArg some kept.lineTime)⟩
  · unfold rescueClear
    rw [if_neg (by omega)]
    exact if_pos (by simp [ha])
  · intro st h3 ha hst hc hl only
    have rule := rescueClear_station (s := s.opened .p0 3) h3 ha (State.lineStation_eq hst hc hl only)
    refine ⟨fun hr => answers_rescueClear hp (rule.trans (if_pos (State.rescuedIn_pos.2 hr))), fun hr => ?_⟩
    have none : ¬ 0 < (s.opened .p0 3).rescuedIn st := by
      rw [State.rescuedIn_pos]
      rintro ⟨h, hm, hs, r, hloc, e⟩
      exact hr h hm hs r hloc e
    have cleared := rule.trans (if_neg none)
    exact ⟨_, State.releaseStation_rest _ _ _,
      State.releaseStation_ends ((s.opened .p0 3).modLine l (fun r => { r with asserted := false })) st .rescue,
      answers_rescueClear hp cleared⟩

end Sys2Proof.Machine
end

