-- ==== Sys2Proof/Proofs/RemadeStation.lean ====
section
/-! PROOFS. What a change of a bath's rate remakes (R72 to R76): the immersions that run in its station, the moves they feed and the
WORK notices of those that go READY, first for one hanger and then for the hangers of the station in turn. -/

namespace Sys2Proof.Machine

variable {s t : State} {tag a st : Nat} {h : Hanger} {m : Move}

/-! ### Records of a state in agreement -/

theorem State.tags_nodup (hc : s.ledger.Agrees) : s.tags.Nodup := hc.tags

theorem State.ids_nodup (hc : s.ledger.Agrees) : (s.moves.map Move.id).Nodup := (movesAgree_of_agrees hc).2.2.1

/-- R102: a move that is not placed is the one move of its hanger. -/
theorem State.hangerMove_of_mem (hc : s.ledger.Agrees) (hm : m ∈ s.moves) (hp : m.state ≠ .placed) (ht : m.tag = some tag) :
    s.hangerMove? tag = some m := by
  obtain ⟨-, -, -, moves, -⟩ := movesAgree_of_agrees hc
  exact ((moves m hm).2.2 hp tag ht).2

/-- A look-up by identifier after a change of every move that keeps the identifiers. -/
theorem State.move_of_map {f : Move → Move} (hf : ∀ x, (f x).id = x.id) (ht : t.moves = s.moves.map f)
    (ids : (s.moves.map Move.id).Nodup) (hm : m ∈ s.moves) : t.move? m.id = some (f m) := by
  have picks : ((fun x : Move => x.id == m.id) ∘ f) = fun x => x.id == m.id := funext (fun x => by simp [hf])
  have found : s.move? m.id = some m := by
    cases e : s.move? m.id with
    | none => exact absurd (beq_self_eq_true m.id) (List.find?_eq_none.1 e m hm)
    | some x =>
      obtain ⟨hx, hid⟩ := State.mem_of_move e
      rw [List.inj_on_of_nodup_map ids hx hm hid]
  unfold State.move? at found ⊢
  rw [ht, List.find?_map, picks, found]
  rfl

/-! ### What decides who is sent WORK (R36, R104) -/

/-- R36: what a hanger's target is read of. -/
def Hanger.route (h : Hanger) : Nat × Bool × Nat := (h.recipe, h.run.isEmpty, h.step)

theorem State.target_route (hr : t.recipes = s.recipes) {h h' : Hanger} (e : h'.route = h.route) : t.target? h' = s.target? h := by
  unfold Hanger.route at e
  simp only [Prod.mk.injEq] at e
  obtain ⟨e1, e2, e3⟩ := e
  unfold State.target? State.recipe
  rw [hr, e1, e2, e3]

/-- R104: which gantry can serve a move is read of the map, the recipes, the reaches and where each hanger goes next. -/
theorem State.canServe_routes (hs : t.stations = s.stations) (hr : t.recipes = s.recipes)
    (hh : ∀ tag, (t.hanger? tag).map Hanger.route = (s.hanger? tag).map Hanger.route) {g : GantryId} (hg : t.gantry g = s.gantry g)
    (m : Move) : t.canServe g m = s.canServe g m := by
  have target : t.moveTarget? m = s.moveTarget? m := by
    unfold State.moveTarget?
    cases m.tag with
    | none => rfl
    | some tag =>
      have same := hh tag
      dsimp only
      cases e : s.hanger? tag <;> cases e' : t.hanger? tag <;> rw [e, e'] at same
      · rfl
      · cases same
      · cases same
      · exact State.target_route hr (Option.some.inj same)
  have reach : ∀ x, t.targetInReach (s.gantry g) x = s.targetInReach (s.gantry g) x := by
    intro x
    unfold State.targetInReach State.serves State.station
    rw [hs]
  unfold State.canServe
  simp only [hg, target, reach]

/-- R110: a second WORK notice changes nothing: the first stands unread, is masked, or finds the queue full. -/
theorem worked_worked (q : Port) {n n' : Notice} (hn : n.kind = .work) (hn' : n'.kind = .work) :
    worked (worked q n) n' = worked q n := by
  have none_or : (∀ x ∈ (worked q n).queue, x.kind ≠ .work) → (worked q n).push n' = worked q n := by
    intro none
    unfold worked at none ⊢
    split
    · rename_i clear
      rw [if_pos clear] at none
      unfold Port.push at none ⊢
      rw [hn] at none ⊢
      rw [hn']
      by_cases hm : q.masks .work = true
      · simp [hm]
      · simp only [hm] at none ⊢
        by_cases hq : q.queue.length < Config.queueDepth
        · simp only [hq, if_true] at none
          exact absurd hn (none n (by simp))
        · have hm' : ({ q with overflow := true } : Port).masks .work = q.masks .work := rfl
          simp [hq, NoticeKind.maskable, hm', hm]
    · rename_i stands
      rw [if_neg stands] at none
      exact absurd none stands
  rw [worked.eq_def (worked q n)]
  split
  · rename_i none; exact none_or none
  · rfl

/-! ### One hanger (R72 to R75) -/

theorem Immersion.repredict_eq (i : Immersion) (now : LineTime) (rate grace : Nat) :
    i.repredict now rate grace = remadeImmersion i now rate grace := by
  unfold Immersion.repredict remadeImmersion
  cases i.crossOpening <;> cases i.crossTarget <;> cases i.crossClosing <;> rfl

/-- R72, R78: the record of a hanger whose immersion is remade with the rate of station `st`. -/
def State.remade (s : State) (st : Nat) (h : Hanger) : Hanger :=
  { h with imm := remadeImmersion h.imm s.lineTime (s.rateOf st) s.grace }

/-- R74, R75: the move of hanger `h` after it is fed. -/
def State.fedTo (s : State) (st : Nat) (h : Hanger) (m : Move) : Move :=
  fedMove m (s.remade st h).imm s.lineTime (s.station st).allowance

theorem fedMove_fields (m : Move) (i : Immersion) (now : LineTime) (x : Nat) : (fedMove m i now x).id = m.id
    ∧ (fedMove m i now x).tag = m.tag ∧ (fedMove m i now x).source = m.source ∧ (fedMove m i now x).dest = m.dest
    ∧ (fedMove m i now x).gantry = m.gantry := by
  unfold fedMove Move.timed
  split <;> exact ⟨rfl, rfl, rfl, rfl, rfl⟩

/-- R76: the moves that predictions feed. -/
theorem Move.fed_iff (m : Move) : m.fed = true ↔
    (m.kind = .step ∨ m.kind = .exit) ∧ (m.state = .waiting ∨ m.state = .ready ∨ m.state = .granted) := by
  simp [Move.fed, or_assoc]

theorem Move.settled_timed (hf : m.fed = true) (i : Immersion) (now : LineTime) (x : Nat) :
    (m.timed i now x).settled now = fedMove m i now x := by
  have state : (m.timed i now x).state = m.state := (m.timed_fields i now x).2.2.2.2.1
  unfold Move.settled fedMove readyState
  rw [state]
  rcases ((Move.fed_iff m).1 hf).2 with e | e | e
  · simp [e]
  · simp [e]
  · rw [if_neg (by simp [e]), if_pos e, ← e, ← state]

section
variable (hc : s.ledger.Agrees) (hh : s.hanger? a = some h) (hr : h.imm.RunsIn st)
include hh hr

theorem State.remakeOne_runs : s.remakeOne st a = (s.modHanger a (fun _ => s.remade st h)).feedMove (s.remade st h) := by
  unfold State.remakeOne
  rw [hh]
  dsimp only
  rw [Immersion.repredict_eq]
  exact if_pos hr

theorem State.hanger_remakeOne (tag : Nat) :
    (s.remakeOne st a).hanger? tag = if tag = a then some (s.remade st h) else s.hanger? tag := by
  have named : s.modHanger a (fun _ => s.remade st h) = s.modHanger a (fun x => { s.remade st h with tag := x.tag }) := by
    unfold State.modHanger
    refine congrArg (fun l => { s with hangers := l }) (List.map_congr_left (fun x _ => ?_))
    split
    · rename_i e
      have same : x.tag = (s.remade st h).tag := e.trans (State.hanger_tag hh).symm
      dsimp only
      rw [same]
    · rfl
  rw [State.remakeOne_runs hh hr, State.hanger_congr (State.feedMove_hangers _ _), named,
    State.hanger_modHanger (by exact fun _ => rfl), hh]
  obtain rfl := State.hanger_tag hh
  rfl

/-- R74, R110: how the hanger's move is fed. -/
theorem State.feedMove_remade : ∃ u : State, u = s.modHanger a (fun _ => s.remade st h)
    ∧ (s.hangerMove? a = none → s.remakeOne st a = u)
    ∧ ∀ m, s.hangerMove? a = some m →
      (m.fed = false → s.remakeOne st a = u)
      ∧ (m.fed = true → s.remakeOne st a =
        if m.state = .waiting ∧ (s.fedTo st h m).state = .ready then (u.modMove m.id (fun _ => s.fedTo st h m)).announceId m.id
        else u.modMove m.id (fun _ => s.fedTo st h m)) := by
  obtain ⟨counting, strict, station⟩ := hr
  have tag : (s.remade st h).tag = a := (State.hanger_tag hh :)
  have stands : (s.modHanger a (fun _ => s.remade st h)).hangerMove? (s.remade st h).tag = s.hangerMove? a := by rw [tag]; rfl
  have runs : (s.remade st h).imm.cls = some .strict ∧ (s.remade st h).imm.counting = true := ⟨strict, counting⟩
  have allowance : ((s.modHanger a (fun _ => s.remade st h)).station (s.remade st h).imm.station).allowance
      = (s.station st).allowance := congrArg (fun o => (s.station o).allowance) station
  refine ⟨_, rfl, fun hm => ?_, fun m hm => ⟨fun hf => ?_, fun hf => ?_⟩⟩ <;>
    rw [State.remakeOne_runs hh ⟨counting, strict, station⟩] <;> unfold State.feedMove <;> rw [stands, hm]
  · exact if_neg (by simp [hf])
  · dsimp only
    rw [if_pos ⟨hf, runs⟩, Move.settled_timed hf, allowance]
    rfl

include hc

/-- R74, R75: the moves after one hanger is remade. -/
theorem State.moves_remakeOne : (s.remakeOne st a).moves =
    s.moves.map (fun m => if m.tag = some a ∧ m.fed = true then s.fedTo st h m else m) := by
  obtain ⟨u, rfl, idle, feeds⟩ := State.feedMove_remade hh hr
  have placed : ∀ x : Move, x.fed = true → x.state ≠ .placed := by
    intro x hx e
    have := ((Move.fed_iff x).1 hx).2
    rw [e] at this
    simp at this
  have mine : ∀ x ∈ s.moves, x.tag = some a → x.fed = true → s.hangerMove? a = some x :=
    fun x hx ht hf => State.hangerMove_of_mem hc hx (placed x hf) ht
  have unfed : (∀ x ∈ s.moves, ¬ (x.tag = some a ∧ x.fed = true)) →
      s.moves = s.moves.map (fun m => if m.tag = some a ∧ m.fed = true then s.fedTo st h m else m) := by
    intro none
    conv_lhs => rw [← List.map_id s.moves]
    exact List.map_congr_left (fun x hx => (if_neg (none x hx)).symm)
  cases hm : s.hangerMove? a with
  | none =>
    rw [idle hm]
    refine unfed (fun x hx hxa => ?_)
    rw [mine x hx hxa.1 hxa.2] at hm
    cases hm
  | some m =>
    obtain ⟨hmem, htag, -⟩ := State.mem_of_hangerMove hm
    by_cases hf : m.fed = true
    · have moved : (s.remakeOne st a).moves = s.moves.map (fun x => if x.id = m.id then s.fedTo st h m else x) := by
        rw [(feeds m hm).2 hf]
        split
        · rw [State.announceId_rest]
          rfl
        · rfl
      rw [moved]
      refine List.map_congr_left (fun x hx => ?_)
      by_cases e : x = m
      · rw [e, if_pos rfl, if_pos ⟨htag, hf⟩]
      · rw [if_neg (fun id => e (List.inj_on_of_nodup_map (State.ids_nodup hc) hx hmem id)), if_neg (fun hxa => ?_)]
        exact e (Option.some.inj ((mine x hx hxa.1 hxa.2).symm.trans hm))
    · rw [(feeds m hm).1 (by simpa using hf)]
      refine unfed (fun x hx hxa => hf ?_)
      rw [Option.some.inj (hm.symm.trans (mine x hx hxa.1 hxa.2))]
      exact hxa.2

/-- R75, R110: the ports of the gantries after one hanger is remade: its move, if it goes READY, is made known. -/
theorem State.ports_remakeOne (g : GantryId) :
    ((∀ m ∈ s.moves, m.tag = some a → m.fed = true → m.state = .waiting → (s.fedTo st h m).state ≠ .ready)
      ∧ (s.remakeOne st a).port g.port = s.port g.port)
    ∨ ∃ m ∈ s.moves, m.tag = some a ∧ m.fed = true ∧ m.state = .waiting ∧ (s.fedTo st h m).state = .ready
      ∧ (s.remakeOne st a).port g.port = s.offeredPort g m := by
  obtain ⟨u, rfl, idle, feeds⟩ := State.feedMove_remade hh hr
  have mine : ∀ x ∈ s.moves, x.tag = some a → x.state = .waiting → s.hangerMove? a = some x :=
    fun x hx ht hw => State.hangerMove_of_mem hc hx (by simp [hw]) ht
  have same : (s.modHanger a (fun _ => s.remade st h)).port g.port = s.port g.port := by cases g <;> rfl
  cases hm : s.hangerMove? a with
  | none =>
    left
    rw [idle hm]
    refine ⟨fun x hx ht _ hw => ?_, same⟩
    rw [mine x hx ht hw] at hm
    cases hm
  | some m =>
    obtain ⟨hmem, htag, -⟩ := State.mem_of_hangerMove hm
    by_cases goes : m.fed = true ∧ m.state = .waiting ∧ (s.fedTo st h m).state = .ready
    · obtain ⟨hf, hw, hready⟩ := goes
      right
      refine ⟨m, hmem, htag, hf, hw, hready, ?_⟩
      obtain ⟨id, ftag, source, dest, gantry⟩ := fedMove_fields m (s.remade st h).imm s.lineTime (s.station st).allowance
      have found : ((s.modHanger a (fun _ => s.remade st h)).modMove m.id (fun _ => s.fedTo st h m)).move? m.id
          = some (s.fedTo st h m) := by
        refine State.move_of_map (s := s) (f := fun x => if x.id = m.id then s.fedTo st h m else x) (fun x => ?_) rfl
          (State.ids_nodup hc) hmem |>.trans (congrArg some (if_pos rfl))
        split
        · rename_i e; exact id.trans e.symm
        · rfl
      have routes : ∀ o, (((s.modHanger a (fun _ => s.remade st h)).modMove m.id (fun _ => s.fedTo st h m)).hanger? o).map Hanger.route
          = (s.hanger? o).map Hanger.route := by
        intro o
        have remade := State.hanger_remakeOne hh hr o
        rw [State.remakeOne_runs hh hr, State.hanger_congr (State.feedMove_hangers _ _)] at remade
        refine (congrArg (Option.map Hanger.route) remade).trans ?_
        split
        · rename_i e; rw [e, hh]; rfl
        · rfl
      have notice : workNotice s.lineTime (s.fedTo st h m) = workNotice s.lineTime m := by
        unfold workNotice State.fedTo
        rw [id, ftag, source]
      have served : ((s.modHanger a (fun _ => s.remade st h)).modMove m.id (fun _ => s.fedTo st h m)).canServe g (s.fedTo st h m)
          = s.canServe g m :=
        (State.canServe_routes (s := s) (t := (s.modHanger a (fun _ => s.remade st h)).modMove m.id (fun _ => s.fedTo st h m))
          rfl rfl routes (by cases g <;> rfl) _).trans
          (State.canServe_move source dest ftag (Or.inl gantry))
      rw [(feeds m hm).2 hf, if_pos ⟨hw, hready⟩, State.announceId_eq found, State.announce_eq]
      have offered : ((s.modHanger a (fun _ => s.remade st h)).modMove m.id (fun _ => s.fedTo st h m)).offeredPort g (s.fedTo st h m)
          = s.offeredPort g m := by
        unfold State.offeredPort
        rw [served, ← notice]
        cases g <;> rfl
      cases g <;> exact offered
    · left
      refine ⟨fun x hx ht hf hw hready => ?_, ?_⟩
      · obtain rfl : x = m := Option.some.inj ((mine x hx ht hw).symm.trans hm)
        exact goes ⟨hf, hw, hready⟩
      · by_cases hf : m.fed = true
        · rw [(feeds m hm).2 hf, if_neg (fun e => goes ⟨hf, e⟩)]
          cases g <;> rfl
        · rw [(feeds m hm).1 (by simpa using hf)]
          exact same

end

theorem keptByRescue_remakeOne (s : State) (st tag : Nat) : KeptByRescue s (s.remakeOne st tag) := by
  unfold State.remakeOne State.feedMove
  split
  · split
    · dsimp only
      split
      · split
        · split
          · exact KeptByRescue.trans (t := (s.modHanger tag _).modMove _ _) rfl (keptByRescue_announceId _ _)
          · rfl
        · rfl
      · rfl
    · rfl
  · rfl

end Sys2Proof.Machine
end

