-- ==== Sys2Proof/Proofs/RateChange.lean ====
section
/-! PROOFS. A change of a bath's rate (O25): the hangers of the station remade in turn, the signals that follow, and what the request
does behind them. -/

namespace Sys2Proof.Machine

variable {s t u w : State} {tag a st : Nat} {h : Hanger} {m : Move}

/-! ### The hangers of the station in turn (R73 to R75, R110) -/

/-- R74, R75: a move after the hangers of a list of tags have fed theirs. -/
def State.fedBy (s : State) (st : Nat) (tags : List Nat) (m : Move) : Move :=
  match m.tag.bind s.hanger? with
  | some h => if h.tag ∈ tags ∧ m.fed = true then s.fedTo st h m else m
  | none => m

theorem State.fedBy_hanger {tags : List Nat} (ht : m.tag = some tag) (hh : s.hanger? tag = some h) :
    s.fedBy st tags m = if tag ∈ tags ∧ m.fed = true then s.fedTo st h m else m := by
  unfold State.fedBy
  rw [ht, Option.bind_some, hh]
  dsimp only
  rw [State.hanger_tag hh]

theorem State.fedBy_not {tags : List Nat} (hn : ∀ h, m.tag = some h.tag → s.hanger? h.tag = some h → h.tag ∈ tags → m.fed = false) :
    s.fedBy st tags m = m := by
  unfold State.fedBy
  split
  · rename_i h hb
    obtain ⟨tag, ht, hh⟩ := Option.bind_eq_some_iff.1 hb
    obtain rfl := State.hanger_tag hh
    refine if_neg (fun e => ?_)
    rw [hn h ht hh e.1] at e
    cases e.2
  · rfl

theorem State.fedBy_fields (s : State) (st : Nat) (tags : List Nat) (m : Move) :
    (s.fedBy st tags m).id = m.id ∧ (s.fedBy st tags m).tag = m.tag := by
  unfold State.fedBy
  split
  · split
    · obtain ⟨id, tag, -⟩ := fedMove_fields m (s.remade st ‹_›).imm s.lineTime (s.station st).allowance
      exact ⟨id, tag⟩
    · exact ⟨rfl, rfl⟩
  · exact ⟨rfl, rfl⟩

/-- R110: the feeding of a list of hangers' moves makes a WAITING move READY that gantry `g`, being READY, can serve. -/
def State.Told (s : State) (st : Nat) (tags : List Nat) (g : GantryId) (m : Move) : Prop :=
  m.state = .waiting ∧ (s.fedBy st tags m).state = .ready ∧ (s.gantry g).link = .ready ∧ s.canServe g m = true

/-- What the remaking of the hangers of a list of tags leaves. -/
structure State.Remade (s : State) (st : Nat) (tags : List Nat) (w : State) : Prop where
  kept : KeptByRescue s w
  agrees : w.ledger.Agrees
  hangers : ∀ x, w.hanger? x = if x ∈ tags then (s.hanger? x).map (s.remade st) else s.hanger? x
  moves : w.moves = s.moves.map (s.fedBy st tags)
  ports : ∀ g : GantryId, (w.port g.port = s.port g.port ∧ ∀ m ∈ s.moves, ¬ s.Told st tags g m)
    ∨ ∃ m ∈ s.moves, s.Told st tags g m ∧ w.port g.port = worked (s.port g.port) (workNotice s.lineTime m)

theorem State.Remade.nil (hc : s.ledger.Agrees) : s.Remade st [] s := by
  have same : ∀ m : Move, s.fedBy st [] m = m := fun m => State.fedBy_not (fun h _ _ e => by cases e)
  refine ⟨.refl s, hc, fun x => by simp, ?_, fun g => Or.inl ⟨rfl, fun m _ told => ?_⟩⟩
  · rw [show s.fedBy st [] = id from funext same, List.map_id]
  · have := told.2.1
    rw [same, told.1] at this
    cases this

theorem KeptByRescue.remade (hk : KeptByRescue s w) (st : Nat) : w.remade st = s.remade st := by
  have rate : w.rateOf st = s.rateOf st := by
    unfold State.rateOf
    rw [State.bath_congr hk.baths]
  have grace : w.grace = s.grace := by rw [hk]
  unfold State.remade
  rw [hk.lineTime, rate, grace]

theorem State.Remade.routes {tags : List Nat} (hw : s.Remade st tags w) (x : Nat) :
    (w.hanger? x).map Hanger.route = (s.hanger? x).map Hanger.route := by
  rw [hw.hangers]
  split
  · rw [Option.map_map]; rfl
  · rfl

/-- One more hanger remade. -/
theorem State.Remade.snoc {tags : List Nat} (hw : s.Remade st tags w) (ha : a ∉ tags) (hh : s.hanger? a = some h)
    (hr : h.imm.RunsIn st) : s.Remade st (tags ++ [a]) (w.remakeOne st a) := by
  have hhw : w.hanger? a = some h := by rw [hw.hangers, if_neg ha, hh]
  have fedTo : w.fedTo st h = s.fedTo st h := by
    unfold State.fedTo
    rw [hw.kept.remade, hw.kept.lineTime, hw.kept.station]
  have feeds : ∀ m : Move, s.fedBy st (tags ++ [a]) m =
      if (s.fedBy st tags m).tag = some a ∧ (s.fedBy st tags m).fed = true then s.fedTo st h (s.fedBy st tags m)
      else s.fedBy st tags m := by
    intro m
    rw [(s.fedBy_fields st tags m).2]
    by_cases mine : m.tag = some a
    · have before : s.fedBy st tags m = m := by
        rw [State.fedBy_hanger mine hh, if_neg (fun e => ha e.1)]
      rw [before, State.fedBy_hanger mine hh]
      simp [mine]
    · rw [if_neg (fun e => mine e.1)]
      cases ht : m.tag with
      | none => rw [State.fedBy_not (fun h e => by simp [ht] at e), State.fedBy_not (fun h e => by simp [ht] at e)]
      | some b =>
        cases hb : s.hanger? b with
        | none =>
          have gone : ∀ l, s.fedBy st l m = m := by
            intro l
            unfold State.fedBy
            rw [ht, Option.bind_some, hb]
          rw [gone, gone]
        | some x =>
          have other : ¬ b = a := fun e => mine (by rw [ht, e])
          rw [State.fedBy_hanger ht hb, State.fedBy_hanger ht hb]
          simp [other]
  refine ⟨hw.kept.trans (keptByRescue_remakeOne w st a), by rw [State.ledger_remakeOne hw.agrees]; exact hw.agrees, fun x => ?_, ?_,
    fun g => ?_⟩
  · rw [State.hanger_remakeOne hhw hr, hw.kept.remade]
    by_cases e : x = a
    · subst e; simp [hh]
    · rw [if_neg e, hw.hangers]; simp [e]
  · rw [State.moves_remakeOne hw.agrees hhw hr, hw.moves, List.map_map, fedTo]
    exact List.map_congr_left (fun m _ => (feeds m).symm)
  · have gantry : w.gantry g = s.gantry g := by rw [hw.kept]; cases g <;> rfl
    have served : ∀ m, w.canServe g m = s.canServe g m :=
      State.canServe_routes hw.kept.stations (by rw [hw.kept]) hw.routes gantry
    have waited : ∀ {m : Move}, m.tag = some a → s.fedBy st tags m = m := by
      intro m mine
      rw [State.fedBy_hanger mine hh, if_neg (fun e => ha e.1)]
    have told_before : ∀ {m : Move}, s.Told st tags g m → s.Told st (tags ++ [a]) g m := by
      rintro m ⟨h1, h2, h3⟩
      refine ⟨h1, ?_, h3⟩
      rw [feeds, if_neg]
      · exact h2
      · rintro ⟨mine, -⟩
        rw [(s.fedBy_fields st tags m).2] at mine
        rw [waited mine, h1] at h2
        cases h2
    have mem : ∀ {m : Move}, m ∈ s.moves → m.tag = some a → m ∈ w.moves := by
      intro m hm mine
      rw [hw.moves]
      exact List.mem_map.2 ⟨m, hm, waited mine⟩
    have told_after : ∀ {m : Move}, m ∈ s.moves → s.Told st (tags ++ [a]) g m → s.Told st tags g m
        ∨ (m.tag = some a ∧ m.fed = true ∧ m.state = .waiting ∧ (w.fedTo st h m).state = .ready) := by
      rintro m hm ⟨h1, h2, h3⟩
      rw [feeds] at h2
      split at h2
      · rename_i mine
        rw [(s.fedBy_fields st tags m).2] at mine
        rw [waited mine.1] at h2 mine
        exact Or.inr ⟨mine.1, mine.2, h1, by rw [fedTo]; exact h2⟩
      · exact Or.inl ⟨h1, h2, h3⟩
    rcases State.ports_remakeOne hw.agrees hhw hr g with ⟨none, same⟩ | ⟨x, hx, htag, hf, hwait, hready, told⟩
    · rw [same]
      refine (hw.ports g).imp (fun ⟨e, quiet⟩ => ⟨e, fun m hm h2 => ?_⟩) (fun ⟨m, hm, h2, e⟩ => ⟨m, hm, told_before h2, e⟩)
      rcases told_after hm h2 with h3 | ⟨h3, h4, h5, h6⟩
      · exact quiet m hm h3
      · exact none m (mem hm h3) h3 h4 h5 h6
    · have hxs : x ∈ s.moves := by
        rw [hw.moves] at hx
        obtain ⟨y, hy, rfl⟩ := List.mem_map.1 hx
        rw [(s.fedBy_fields st tags y).2] at htag
        rw [waited htag]
        exact hy
      rw [told]
      unfold State.offeredPort
      rw [served, gantry, hw.kept.lineTime]
      by_cases offers : (s.gantry g).link = .ready ∧ s.canServe g x = true
      · rw [if_pos offers]
        right
        rcases hw.ports g with ⟨e, -⟩ | ⟨y, hy, h2, e⟩
        · refine ⟨x, hxs, ⟨hwait, ?_, offers⟩, by rw [e]⟩
          rw [feeds, waited htag, if_pos ⟨htag, hf⟩, ← fedTo]
          exact hready
        · exact ⟨y, hy, told_before h2, by rw [e, worked_worked _ rfl rfl]⟩
      · rw [if_neg offers]
        refine (hw.ports g).imp (fun ⟨e, quiet⟩ => ⟨e, fun m hm h2 => ?_⟩) (fun ⟨m, hm, h2, e⟩ => ⟨m, hm, told_before h2, e⟩)
        rcases told_after hm h2 with h3 | ⟨h3, -, h5, -⟩
        · exact quiet m hm h3
        · have same := State.hangerMove_of_mem hw.agrees (mem hm h3) (by rw [h5]; simp) h3
          rw [State.hangerMove_of_mem hw.agrees hx (by rw [hwait]; simp) htag] at same
          obtain rfl := Option.some.inj same
          exact offers h2.2.2

/-- R73: the hangers with a running STRICT immersion in a station. -/
theorem State.mem_running (hc : s.ledger.Agrees) : a ∈ s.running st ↔ ∃ h, s.hanger? a = some h ∧ h.imm.RunsIn st := by
  unfold State.running Immersion.RunsIn
  rw [List.mem_map]
  constructor
  · rintro ⟨h, hm, rfl⟩
    rw [List.mem_filter] at hm
    exact ⟨h, State.hanger_of_mem (State.tags_nodup hc) hm.1, by simpa [and_assoc] using hm.2⟩
  · rintro ⟨h, hh, hr⟩
    obtain ⟨hm, ht⟩ := State.mem_of_hanger hh
    exact ⟨h, List.mem_filter.2 ⟨hm, by simpa [and_assoc] using hr⟩, ht⟩

theorem State.remade_remakeStation (hc : s.ledger.Agrees) (st : Nat) : s.Remade st (s.running st) (s.remakeStation st) := by
  have nodup : (s.running st).Nodup := (State.tags_nodup hc).sublist (List.filter_sublist.map _)
  have runs : ∀ x ∈ s.running st, ∃ h, s.hanger? x = some h ∧ h.imm.RunsIn st := fun x hx => (State.mem_running hc).1 hx
  unfold State.remakeStation
  generalize s.running st = tags at nodup runs
  induction tags using List.reverseRecOn with
  | nil => exact .nil hc
  | append_singleton tags a ih =>
    rw [List.foldl_append]
    obtain ⟨nodup', -, apart⟩ := List.nodup_append.1 nodup
    obtain ⟨h, hh, hr⟩ := runs a (by simp)
    exact (ih nodup' (fun x hx => runs x (by simp [hx]))).snoc (fun e => apart a e a (by simp) rfl) hh hr

/-! ### The signals that follow (R73, R78) -/

/-- R78: where no remade compare point is reached, a change of rate signals none. -/
theorem State.rateChanged_quiet (hc : s.ledger.Agrees) (hq : ∀ h ∈ s.hangers, h.imm.RunsIn st → h.imm.fired = true
      ∨ ∀ x, (s.remade st h).imm.compare = some x → reached s.lineTime x = false) :
    s.rateChanged st = s.remakeStation st := by
  have hw := State.remade_remakeStation hc st
  refine State.signals_same _ (fun tag mem k hk => ?_)
  obtain ⟨h, hh, hr⟩ := (State.mem_running hc).1 mem
  rw [hw.hangers, if_pos mem, hh] at hk
  obtain rfl := Option.some.inj hk
  rw [hw.kept.lineTime, Bool.eq_false_iff, ne_eq, Immersion.compareDue_iff]
  rintro ⟨x, hx, unfired, reach⟩
  rcases hq h (State.mem_of_hanger hh).1 hr with e | e
  · rw [show h.imm.fired = false from unfired] at e
    cases e
  · rw [e x hx] at reach
    cases reach

/-- R78, R171: what becomes of a hanger whose remade compare point is already reached. -/
theorem State.rateChanged_due (hc : s.ledger.Agrees) (hh : s.hanger? a = some h) (hr : h.imm.RunsIn st)
    (hd : (s.remade st h).imm.compareDue s.lineTime = true) :
    (∃ x, (s.rateChanged st).hanger? a = some x ∧ x.imm.fired = true)
    ∧ ((s.station st).rescueLine = none → (s.rateChanged st).hanger? a = some (s.remade st h).fire)
    ∧ (∀ l, (s.station st).rescueLine = some l → l ≤ 3 → (s.line l).asserted = false →
      (s.rateChanged st).BarRaised l st a (s.remade st h)) := by
  have hw := State.remade_remakeStation hc st
  have mem : a ∈ s.running st := (State.mem_running hc).2 ⟨h, hh, hr⟩
  have remade : (s.remakeStation st).hanger? a = some (s.remade st h) := by rw [hw.hangers, if_pos mem, hh]; rfl
  have due : (s.remade st h).imm.compareDue (s.remakeStation st).lineTime = true := by rw [hw.kept.lineTime]; exact hd
  have stations : (s.remakeStation st).ListOnly (s.running st) (fun o => o = st) := by
    intro x hx o ho
    obtain ⟨k, hk, -, -, station⟩ := (State.mem_running hc).1 hx
    unfold State.immStation? at ho
    rw [hw.hangers, if_pos hx, hk] at ho
    exact (Option.some.inj ho).symm.trans station
  refine ⟨State.fired_of_signals _ remade (Or.inr due) (Or.inr mem), fun hl => ?_, fun l hl hl3 hn => ?_⟩
  · refine State.fire_of_signals _ remade due mem (fun x hx o ho _ => ?_)
    rw [stations x hx o ho, hw.kept.station]
    exact hl
  · have lines : (s.remakeStation st).lines = s.lines := by
      unfold State.remakeStation
      refine foldl_field State.lines _ (fun t x => ?_) _ _
      simp
    refine State.barRaised_by_signals _ remade due mem hr.2.2 (by rw [hw.kept.station]; exact hl) hl3 ?_
      (fun x hx o ho _ => stations x hx o ho)
    unfold State.line at hn ⊢
    rw [lines]
    exact hn

/-! ### What the request does behind the change of rate -/

/-- The parts of the state that a request of a bath may change once the record is stored. -/
def KeptByBath (s t : State) : Prop :=
  t = { s with baths := t.baths, hangers := t.hangers, channels := t.channels, port0 := t.port0 }

theorem KeptByBath.trans (h1 : KeptByBath s t) (h2 : KeptByBath t u) : KeptByBath s u :=
  Eq.trans h2 (congrArg (fun w : State => { w with
    baths := u.baths, hangers := u.hangers, channels := u.channels, port0 := u.port0 }) h1)

/-- What follows a stored bath record: the bath's rate stands, and of a hanger's record only the run can change, by notes. -/
structure State.Followed (s : State) (st : Nat) (t : State) : Prop where
  kept : KeptByBath s t
  rate : (t.bath? st).map Bath.rate = (s.bath? st).map Bath.rate
  runs : ∀ tag, ∃ f : Hanger → List RunEntry, t.hanger? tag = (s.hanger? tag).map (fun h => { h with run := f h })
    ∧ ∀ h, (f h).isEmpty = h.run.isEmpty

theorem State.Followed.trans (h1 : s.Followed st t) (h2 : t.Followed st u) : s.Followed st u := by
  refine ⟨h1.kept.trans h2.kept, h2.rate.trans h1.rate, fun tag => ?_⟩
  obtain ⟨f, hf, ef⟩ := h1.runs tag
  obtain ⟨g, hg, eg⟩ := h2.runs tag
  refine ⟨fun h => g { h with run := f h }, ?_, fun h => (eg _).trans (ef h)⟩
  rw [hg, hf, Option.map_map]
  rfl

theorem State.Followed.of_hangers (hk : KeptByBath s t) (hr : (t.bath? st).map Bath.rate = (s.bath? st).map Bath.rate)
    (hh : t.hangers = s.hangers) : s.Followed st t :=
  ⟨hk, hr, fun tag => ⟨Hanger.run, by rw [State.hanger_congr hh]; exact Option.map_id.symm ▸ rfl, fun _ => rfl⟩⟩

theorem State.Followed.refl (s : State) (st : Nat) : s.Followed st s := .of_hangers rfl rfl rfl

theorem State.followed_modBath (s : State) (st : Nat) {f : Bath → Bath} (hf : ∀ b, (f b).rate = b.rate) :
    s.Followed st (s.modBath st f) := by
  refine .of_hangers rfl ?_ rfl
  by_cases inside : st < 24
  · unfold State.modBath
    rw [State.bath_setBath inside, if_pos rfl, Option.map_map]
    exact congrArg (fun f => (s.bath? st).map f) (funext hf)
  · have none : ∀ t : State, t.bath? st = none := fun t => by
      unfold State.bath?
      rw [Vector.getElem?_eq_none (by omega)]
      rfl
    rw [none, none]

theorem State.followed_setReadiness (s : State) (st : Nat) (r : Readiness) : s.Followed st (s.setReadiness st r) := by
  unfold State.setReadiness
  split
  · split
    · exact .refl s st
    · unfold State.notify
      rw [State.post_of_maskable _ .p0 rfl]
      exact (s.followed_modBath st (f := fun b => { b with readiness := r }) (fun _ => rfl)).trans (.of_hangers rfl rfl rfl)
  · exact .refl s st

theorem State.followed_holdStation (s : State) (st o : Nat) (k : HoldCause) : s.Followed st (s.holdStation o k) := by
  rw [State.holdStation_rest]
  exact .of_hangers rfl rfl rfl

theorem State.followed_markStale (s : State) (st : Nat) : s.Followed st (s.markStale st) := by
  refine ⟨rfl, rfl, fun tag => ⟨fun h => (if h.imm.counting = true ∧ h.imm.station = st ∧ h.entryOpen = true then
    h.modNewest RunEntry.markUncompensated else h).run, ?_, fun h => ?_⟩⟩
  · have record : ∀ h : Hanger, (if h.imm.counting = true ∧ h.imm.station = st ∧ h.entryOpen = true then
        h.modNewest RunEntry.markUncompensated else h) = { h with run := (if h.imm.counting = true ∧ h.imm.station = st
          ∧ h.entryOpen = true then h.modNewest RunEntry.markUncompensated else h).run } := by
      intro h
      split
      · exact Hanger.modNewest_rest h _
      · rfl
    unfold State.hanger? State.markStale
    rw [← funext record, List.find?_map]
    refine congrArg (Option.map _) (congrArg (fun p => s.hangers.find? p) (funext fun h => ?_))
    dsimp only [Function.comp]
    rw [record h]
  · dsimp only
    split
    · rw [Hanger.modNewest_toList]
      cases hl : h.run.getLast? with
      | none => rw [List.getLast?_eq_none_iff.1 hl]; rfl
      | some e =>
        have full : h.run.isEmpty = false := by
          rw [List.isEmpty_eq_false_iff]
          rintro none
          rw [none] at hl
          cases hl
        rw [full]
        simp
    · rfl

theorem State.followed_staleDue (s : State) (st : Nat) : s.Followed st (s.staleDue st) := by
  have held := s.followed_modBath st (f := fun b => { b with rateHeld := true, firstReading := true, staleCompare := none })
    (fun _ => rfl)
  have stale : ∀ r : ReturnState, s.Followed st (((s.modBath st (fun b =>
      { b with rateHeld := true, firstReading := true, staleCompare := none })).modBath st
        (fun b => { b with returnState := r })).setReadiness st .stale) := fun r =>
    (held.trans (State.followed_modBath _ st (f := fun b => { b with returnState := r }) (fun _ => rfl))).trans
      (State.followed_setReadiness _ st .stale)
  unfold State.staleDue State.goStale
  split
  · split
    · refine State.Followed.trans ?_ (State.followed_markStale _ st)
      split
      · split
        · exact stale _
        · exact stale _
        · exact stale _
        · exact held
        · exact held
      · exact held
    · exact .refl s st
  · exact .refl s st

theorem State.followed_convertArea (s : State) (st : Nat) : s.Followed st (s.convertArea st) := by
  unfold State.convertArea
  split
  · rename_i b hb
    split
    · have converted : s.setBath st (some b.convert) = s.modBath st Bath.convert := by
        unfold State.modBath
        rw [hb]
        rfl
      unfold State.notify
      rw [State.post_of_maskable _ .p0 rfl, converted]
      exact (s.followed_modBath st (f := Bath.convert) (fun _ => rfl)).trans (.of_hangers rfl rfl rfl)
    · exact .refl s st
  · exact .refl s st

theorem State.followed_placeInService (s : State) (st : Nat) : s.Followed st (s.placeInService st) := by
  unfold State.placeInService
  split
  · split
    · exact State.followed_setReadiness s st _
    · exact .refl s st
  · exact .refl s st

/-- R85: what follows the stored record of a SET-BATH. -/
theorem State.followed_writeSettings (s : State) (st : Nat) (b : Bath) (n : BathSettings) :
    (s.storeBath st b (b.resettle n)).Followed st (s.writeSettings st b n) :=
  (((State.followed_placeInService _ st).trans (State.followed_modBath _ st (f := Bath.rearm) (fun _ => rfl))).trans
    (State.followed_staleDue _ st)).trans (State.followed_convertArea _ st)

/-- R86: what follows the stored record of a BATH-REPORT. -/
theorem State.followed_judge (s : State) (st : Nat) (b : Bath) (z : Int) :
    s.Followed st (s.judge st b z) ∧ (s.judge st b z).hangers = s.hangers := by
  unfold State.judge State.tripBath
  split
  · exact ⟨((s.followed_modBath st (f := fun b => { b with tripCause := some .reading }) (fun _ => rfl)).trans
      (State.followed_setReadiness _ st _)).trans (State.followed_holdStation _ st st _), by simp⟩
  · exact ⟨State.followed_setReadiness s st _, by simp⟩

/-- R84, R86: a SET-BATH or a BATH-REPORT of an active bath is refused, or stores a record, and what follows keeps its rate. -/
theorem rateRequest_cases {i : Instr} {b : Bath} (hp : PortFree s .p0) (hb : s.bath? st = some b)
    (hi : (∃ z, i = .bathReport st z) ∨ ∃ c, i = .setBath st c) (he : exec i s = .next t) :
    ∃ (n : Nat) (v : State) (r : Reply), t = v.forming .p0 r ∧ (v = s.opened .p0 n
      ∨ ∃ new, ((s.opened .p0 n).storeBath st b new).Followed st v
        ∧ ((∃ z, i = .bathReport st z) → v.hangers = ((s.opened .p0 n).storeBath st b new).hangers)) := by
  have inside : st ≤ 23 := by have := State.bath_bound hb; omega
  rcases hi with ⟨z, rfl⟩ | ⟨c, rfl⟩
  · rw [exec_request _ s rfl, State.request_free rfl hp] at he
    have rule : handRequest (.bathReport st z) = bathReport st z := rfl
    rw [rule] at he
    refine ⟨2 + (bytes1 st ++ bytesSigned2 z).length, _, _, (Host.Outcome.next.inj he).symm, ?_⟩
    unfold bathReport
    rw [withBath_active inside (by exact hb)]
    split
    · exact Or.inl rfl
    · exact Or.inr ⟨_, (State.followed_judge _ st _ z).1, fun _ => (State.followed_judge _ st _ z).2⟩
  · rw [exec_request _ s rfl, State.request_free rfl hp] at he
    have rule : handRequest (.setBath st c) = setBathRequest st c := rfl
    rw [rule] at he
    refine ⟨2 + (bytes1 st ++ c.bytes).length, _, _, (Host.Outcome.next.inj he).symm, ?_⟩
    unfold setBathRequest
    rw [withBath_active inside (by exact hb)]
    dsimp only
    split
    · exact Or.inl rfl
    · split
      · exact Or.inl rfl
      · exact Or.inr ⟨_, State.followed_writeSettings _ st b c.clamped, fun ⟨_, e⟩ => by cases e⟩

end Sys2Proof.Machine
end

