-- ==== Sys2Proof/Proofs/RateRequests.lean ====
section
/-! PROOFS. SET-BATH and BATH-REPORT at a change of rate (O25): what the request leaves of the hangers, the moves and the gantries'
ports of the station it remakes, and of the hangers whose compare points it signals. -/

namespace Sys2Proof.Machine

variable {s v w : State} {tag st : Nat} {h : Hanger} {m : Move} {b new : Bath}

/-! ### The stored record (R73, R88) -/

theorem State.storeBath_same (hr : b.rate = new.rate) : s.storeBath st b new = s.setBath st (some new) := if_pos hr

theorem State.storeBath_changed (hr : b.rate ≠ new.rate) : s.storeBath st b new = (s.setBath st (some new)).rateChanged st :=
  if_neg hr

theorem keptByRescue_rateChanged (s : State) (st : Nat) : KeptByRescue s (s.rateChanged st) :=
  (KeptByRescue.foldl (fun t x => keptByRescue_remakeOne t st x) (s.running st) s).trans (keptByRescue_signals _ _)

/-- The rate that stands behind the request is that of the stored record. -/
theorem State.rate_of_followed (hb : s.bath? st = some b) (hv : (s.storeBath st b new).Followed st v) {b' : Bath}
    (hb' : v.bath? st = some b') : b'.rate = new.rate := by
  have stored : (s.setBath st (some new)).bath? st = some new := by rw [State.bath_setBath (State.bath_bound hb), if_pos rfl]
  have found : (s.storeBath st b new).bath? st = some new := by
    by_cases hr : b.rate = new.rate
    · rw [State.storeBath_same hr, stored]
    · rw [State.storeBath_changed hr, State.bath_congr (keptByRescue_rateChanged _ st).baths, stored]
  have same := hv.rate
  rw [hb', found] at same
  exact Option.some.inj same

/-! ### What the request leaves of a record (R39, R79) -/

/-- What follows the stored record leaves the record of a hanger, but for the notes of its run. -/
theorem State.Followed.hanger (hv : w.Followed st v) (hh : w.hanger? tag = some h) :
    ∃ run, v.hanger? tag = some { h with run := run } ∧ (v.hangers = w.hangers → run = h.run) := by
  obtain ⟨f, hf, -⟩ := hv.runs tag
  rw [hh, Option.map_some] at hf
  refine ⟨f h, hf, fun e => ?_⟩
  rw [State.hanger_congr e, hh] at hf
  exact (congrArg Hanger.run (Option.some.inj hf)).symm

theorem State.Followed.routes (hv : w.Followed st v) (x : Nat) : (v.hanger? x).map Hanger.route = (w.hanger? x).map Hanger.route := by
  obtain ⟨f, hf, empty⟩ := hv.runs x
  rw [hf, Option.map_map]
  refine congrArg (fun g => (w.hanger? x).map g) (funext fun h => ?_)
  unfold Hanger.route
  dsimp only [Function.comp]
  rw [empty]

/-! ### A change of rate that signals no compare point -/

section
variable (hw : s.Remade st (s.running st) w) (hv : w.Followed st v)
include hw hv

/-- R75: a move after the request. -/
theorem State.move_followed (hc : s.ledger.Agrees) (hm : m ∈ s.moves) :
    v.move? m.id = some (s.fedBy st (s.running st) m) :=
  State.move_of_map (fun x => (s.fedBy_fields st _ x).1) ((by rw [hv.kept] : v.moves = w.moves).trans hw.moves)
    (State.ids_nodup hc) hm

/-- R104: which gantry can serve a move is read of records that a change of rate leaves. -/
theorem State.canServe_followed (g : GantryId) (m : Move) : v.canServe g m = s.canServe g m := by
  have stations : v.stations = s.stations := by rw [hv.kept]; exact hw.kept.stations
  have recipes : v.recipes = s.recipes := by rw [hv.kept, hw.kept]
  have gantry : v.gantry g = s.gantry g := by rw [hv.kept, hw.kept]; cases g <;> rfl
  exact State.canServe_routes stations recipes (fun x => (hv.routes x).trans (hw.routes x)) gantry m

/-- R110: the port of a gantry after the request, when a move it can serve goes READY, and when none does. -/
theorem State.port_followed (hc : s.ledger.Agrees) (g : GantryId) :
    ((∀ m ∈ s.moves, m.state = .waiting → ∀ m', v.move? m.id = some m' → m'.state = .ready → v.canServe g m = true →
        (s.gantry g).link ≠ .ready) → v.port g.port = s.port g.port)
    ∧ (∀ m ∈ s.moves, ∀ m', m.state = .waiting → v.move? m.id = some m' → m'.state = .ready → v.canServe g m = true →
      (s.gantry g).link = .ready → ∃ x ∈ s.moves, x.state = .waiting ∧ (∃ x', v.move? x.id = some x' ∧ x'.state = .ready)
        ∧ v.port g.port = worked (s.port g.port) (workNotice s.lineTime x)) := by
  have port : v.port g.port = w.port g.port := by rw [hv.kept]; cases g <;> rfl
  have moved := fun m hm => State.move_followed hw hv hc (m := m) hm
  have served := State.canServe_followed hw hv g
  rcases hw.ports g with ⟨same, quiet⟩ | ⟨x, hx, told, e⟩
  · refine ⟨fun _ => port.trans same, fun m hm m' h1 h2 h3 h4 h5 => absurd ?_ (quiet m hm)⟩
    rw [moved m hm] at h2
    obtain rfl := Option.some.inj h2
    exact ⟨h1, h3, h5, (served m).symm.trans h4⟩
  · obtain ⟨h1, h2, h3, h4⟩ := told
    exact ⟨fun none => absurd h3 (none x hx h1 _ (moved x hx) h2 ((served x).trans h4)),
      fun _ _ _ _ _ _ _ _ => ⟨x, hx, h1, ⟨_, moved x hx, h2⟩, port.trans e⟩⟩

end

/-! ### The three cases of a change of rate -/

section
variable (hc : s.ledger.Agrees)
include hc

theorem State.hanger_requiet (hq : ∀ h ∈ s.hangers, h.imm.RunsIn st → h.imm.fired = true
      ∨ ∀ x, (s.remade st h).imm.compare = some x → reached s.lineTime x = false)
    (hv : (s.rateChanged st).Followed st v) (hh : s.hanger? tag = some h) :
    ∃ run, (v.hangers = (s.rateChanged st).hangers → run = h.run)
      ∧ (h.imm.RunsIn st → v.hanger? tag = some { s.remade st h with run := run })
      ∧ (¬ h.imm.RunsIn st → v.hanger? tag = some { h with run := run }) := by
  rw [State.rateChanged_quiet hc hq] at hv ⊢
  have hw := (State.remade_remakeStation hc st).hangers tag
  by_cases hr : h.imm.RunsIn st
  · rw [if_pos ((State.mem_running hc).2 ⟨h, hh, hr⟩), hh] at hw
    obtain ⟨run, found, same⟩ := hv.hanger hw
    exact ⟨run, same, fun _ => found, fun e => absurd hr e⟩
  · rw [if_neg (fun e => ?_), hh] at hw
    · obtain ⟨run, found, same⟩ := hv.hanger hw
      exact ⟨run, same, fun e => absurd e hr, fun _ => found⟩
    · obtain ⟨x, hx, hxr⟩ := (State.mem_running hc).1 e
      rw [Option.some.inj (hh.symm.trans hx)] at hr
      exact hr hxr

/-- R74 to R76: the three things that can be asked of a move of the station. -/
theorem State.fedBy_running :
    (∀ h, m.tag = some h.tag → s.hanger? h.tag = some h → h.imm.RunsIn st → (m.kind = .step ∨ m.kind = .exit) →
      (m.state = .waiting ∨ m.state = .ready ∨ m.state = .granted) → s.fedBy st (s.running st) m = s.fedTo st h m)
    ∧ ((∀ h, m.tag = some h.tag → s.hanger? h.tag = some h → ¬ h.imm.RunsIn st) → s.fedBy st (s.running st) m = m)
    ∧ ((m.kind = .entry ∨ m.kind = .abort ∨ m.kind = .yielding ∨ m.state = .carried ∨ m.state = .placed) →
      s.fedBy st (s.running st) m = m) := by
  refine ⟨fun h ht hh hr hk hs => ?_, fun hn => State.fedBy_not (fun h ht hh mem => ?_), fun hn => State.fedBy_not (fun h _ _ _ => ?_)⟩
  · rw [State.fedBy_hanger ht hh]
    exact if_pos ⟨(State.mem_running hc).2 ⟨h, hh, hr⟩, (Move.fed_iff m).2 ⟨hk, hs⟩⟩
  · obtain ⟨x, hx, hxr⟩ := (State.mem_running hc).1 mem
    rw [← Option.some.inj (hh.symm.trans hx)] at hxr
    exact absurd hxr (hn h ht hh)
  · rw [Bool.eq_false_iff, ne_eq, Move.fed_iff]
    rintro ⟨hk, hs⟩
    rcases hn with e | e | e | e | e
    · simp [e] at hk
    · simp [e] at hk
    · simp [e] at hk
    · simp [e] at hs
    · simp [e] at hs

end

/-! ### The stored record, and the change of rate behind it -/

/-- The session taken on port 0 and the new record of the bath stored. -/
def State.stored (s : State) (n st : Nat) (new : Bath) : State := (s.opened .p0 n).setBath st (some new)

section
variable {n : Nat} (hb : s.bath? st = some b)
include hb

theorem State.remade_stored (h : Hanger) :
    (s.stored n st new).remade st h = { h with imm := remadeImmersion h.imm s.lineTime new.rate s.grace } := by
  have rate : (s.stored n st new).rateOf st = new.rate := by
    unfold State.rateOf State.stored
    rw [State.bath_setBath (by exact State.bath_bound hb), if_pos rfl]
  have lineTime : (s.stored n st new).lineTime = s.lineTime := rfl
  have grace : (s.stored n st new).grace = s.grace := rfl
  unfold State.remade
  rw [rate, lineTime, grace]

variable (hc : (s.stored n st new).ledger.Agrees)
include hc

/-- R74 to R76: a move after a change of rate that signals no compare point. -/
theorem State.move_rateChanged (hv : ((s.stored n st new).rateChanged st).Followed st v)
    (quiet : (s.stored n st new).rateChanged st = (s.stored n st new).remakeStation st) (hm : m ∈ s.moves) :
    (∀ h, m.tag = some h.tag → s.hanger? h.tag = some h → h.imm.RunsIn st → (m.kind = .step ∨ m.kind = .exit) →
      (m.state = .waiting ∨ m.state = .ready ∨ m.state = .granted) → v.move? m.id
        = some (fedMove m (remadeImmersion h.imm s.lineTime new.rate s.grace) s.lineTime (s.station st).allowance))
    ∧ ((∀ h, m.tag = some h.tag → s.hanger? h.tag = some h → ¬ h.imm.RunsIn st) → v.move? m.id = some m)
    ∧ ((m.kind = .entry ∨ m.kind = .abort ∨ m.kind = .yielding ∨ m.state = .carried ∨ m.state = .placed) →
      v.move? m.id = some m) := by
  rw [quiet] at hv
  obtain ⟨feeds, leaves, other⟩ := State.fedBy_running (st := st) (m := m) hc
  rw [State.move_followed (State.remade_remakeStation hc st) hv hc hm]
  refine ⟨fun h ht hh hr hk hs => ?_, fun hn => congrArg some (leaves hn), fun hn => congrArg some (other hn)⟩
  rw [feeds h ht hh hr hk hs]
  unfold State.fedTo
  rw [State.remade_stored hb]
  rfl

/-- R78, R171: a hanger whose remade compare point is already reached, after the request. -/
theorem State.hanger_redue (hv : ((s.stored n st new).rateChanged st).Followed st v) (hh : s.hanger? tag = some h)
    (hr : h.imm.RunsIn st)
    (hd : (remadeImmersion h.imm s.lineTime new.rate s.grace).compareDue s.lineTime = true) :
    ∃ h', v.hanger? tag = some h' ∧ h'.imm.fired = true
      ∧ ((s.station st).rescueLine = none → h'.state = h.state
        ∧ h'.imm = { remadeImmersion h.imm s.lineTime new.rate s.grace with fired := true })
      ∧ (∀ l, (s.station st).rescueLine = some l → l ≤ 3 → (s.line l).asserted = false →
        (v.line l).asserted = true ∧ (v.line l).assertTime = some s.lineTime ∧ (h.restsIn st = true → h'.state = .rescued)) := by
  have made := State.remade_stored (n := n) (new := new) hb h
  obtain ⟨⟨y, hy, fired⟩, overdue, raised⟩ := State.rateChanged_due hc hh hr (by rw [made]; exact hd)
  rw [made] at overdue raised
  obtain ⟨run, found, -⟩ := hv.hanger hy
  refine ⟨_, found, fired, fun hl => ?_, fun l hl hl3 hn => ?_⟩
  · rw [overdue hl] at hy
    obtain rfl := Option.some.inj hy
    exact ⟨rfl, rfl⟩
  · obtain ⟨asserted, time, rescued⟩ := raised l hl hl3 hn
    have line : v.line l = ((s.stored n st new).rateChanged st).line l := by
      rw [hv.kept]
      rfl
    rw [line]
    refine ⟨asserted, time.trans (congrArg some (keptByRescue_rateChanged _ st).lineTime), fun hrest => ?_⟩
    obtain ⟨z, hz, hs⟩ := rescued hrest
    obtain rfl := Option.some.inj (hy.symm.trans hz)
    exact hs

end

/-! ### The statement -/

/-- What stands behind the port of the request is the reply alone. -/
theorem State.canServe_forming (v : State) (r : Reply) (g : GantryId) (m : Move) : (v.forming .p0 r).canServe g m = v.canServe g m := by
  cases g <;> rfl

theorem State.port_forming (v : State) (r : Reply) (g : GantryId) : (v.forming .p0 r).port g.port = v.port g.port := by
  cases g <;> rfl

/-- The request leaves the gantries and their ports until the rate changes. -/
theorem State.stored_gantry (s : State) (n st : Nat) (new : Bath) (g : GantryId) :
    (s.stored n st new).gantry g = s.gantry g ∧ (s.stored n st new).port g.port = s.port g.port := by
  cases g <;> exact ⟨rfl, rfl⟩

/-- Settles O25: the request is refused or stores a record (`rateRequest_cases`), and a change of rate remakes the station. -/
theorem rateChangesRemakeTheStation : Obligations.RateChangesRemakeTheStation := by
  unfold Obligations.RateChangesRemakeTheStation
  intro st i b b' s t hp ha hb hi he hb'
  refine ⟨fun h => remadeImmersion h.imm s.lineTime b'.rate s.grace, fun h => rfl, ?_⟩
  obtain ⟨n, v, r, rfl, hv⟩ := rateRequest_cases hp hb hi he
  simp only [State.forming_hanger, State.forming_move, State.canServe_forming, State.forming_line, State.forming_bath,
    State.port_forming] at hb' ⊢
  rcases hv with rfl | ⟨new, hv, report⟩
  · rw [State.opened_bath, hb] at hb'
    obtain rfl := Option.some.inj hb'
    exact ⟨fun _ => ⟨rfl, fun tag h hh => ⟨h.run, hh, fun _ => rfl⟩⟩, fun e => absurd rfl e, fun e => absurd rfl e⟩
  rw [State.rate_of_followed (s := s.opened .p0 n) hb hv hb']
  by_cases hr : b.rate = new.rate
  · rw [State.storeBath_same hr] at hv report
    refine ⟨fun _ => ⟨by rw [State.forming_moves, hv.kept]; rfl, fun tag h hh => ?_⟩, fun e => absurd hr.symm e,
      fun e => absurd hr.symm e⟩
    obtain ⟨run, found, same⟩ := hv.hanger (tag := tag) (h := h) hh
    exact ⟨run, found, fun z => same (report z)⟩
  rw [State.storeBath_changed hr] at hv report
  have hc : (s.stored n st new).ledger.Agrees := by
    unfold State.stored
    rw [State.ledger_setBath, State.ledger_opened]
    exact agrees_of_movesAgree ha
  have made := State.remade_stored (n := n) (new := new) hb
  refine ⟨fun e => absurd e.symm hr, fun _ hq => ?_, fun _ tag h x hh hrun hf hx hreach =>
    State.hanger_redue hb hc hv hh hrun ((Immersion.compareDue_iff _ _).2 ⟨x, hx, hf, hreach⟩)⟩
  have unsignalled : ∀ h ∈ (s.stored n st new).hangers, h.imm.RunsIn st → h.imm.fired = true
      ∨ ∀ x, ((s.stored n st new).remade st h).imm.compare = some x → reached (s.stored n st new).lineTime x = false := by
    intro h hm hrun
    rw [made]
    exact hq h hm hrun
  have quiet := State.rateChanged_quiet hc unsignalled
  refine ⟨fun tag h hh => ?_, fun m hm => State.move_rateChanged hb hc hv quiet hm, fun g => ?_⟩
  · obtain ⟨run, same, runs, rests⟩ := State.hanger_requiet hc unsignalled hv hh
    rw [made] at runs
    exact ⟨run, fun z => same (report z), runs, rests⟩
  · obtain ⟨gantry, port⟩ := s.stored_gantry n st new g
    rw [← gantry, ← port]
    exact State.port_followed (State.remade_remakeStation hc st) (quiet ▸ hv) hc g

end Sys2Proof.Machine
end

