-- ==== Sys2Proof/Proofs/LineClock.lean ====
section
/-! PROOFS. What leaves the line time and the line mode (O52): every small update of an event and every setting, so every command
but an advance and a reset, and of the mode every command but those of the mode. -/

namespace Sys2Proof.Machine

/-- A part of the state that is read of the line time and the line mode alone. -/
def ReadsClock {α : Type} (g : State → α) : Prop := ∀ s t : State, t.lineTime = s.lineTime → t.mode = s.mode → g t = g s

theorem readsClock_lineTime : ReadsClock State.lineTime := fun _ _ h _ => h

theorem readsClock_mode : ReadsClock State.mode := fun _ _ _ h => h

section
variable {α : Type} {g : State → α}

theorem ReadsClock.closed (hg : ReadsClock g) : Closed (fun s t => g t = g s) where
  refl _ := rfl
  trans h1 h2 := h2.trans h1
  stations _ _ _ := hg _ _ rfl rfl
  recipes _ _ := hg _ _ rfl rfl
  hangers _ _ := hg _ _ rfl rfl
  startOrder _ _ := hg _ _ rfl rfl
  moves _ _ _ := hg _ _ rfl rfl
  gantry _ _ _ := hg _ _ (by simp) (by simp)
  lines _ _ := hg _ _ rfl rfl
  post _ _ _ := hg _ _ (by simp) (by simp)
  alarm _ _ := hg _ _ rfl rfl
  channel _ _ _ _ _ := hg _ _ rfl rfl
  opens _ _ _ _ _ := hg _ _ rfl rfl
  handOver _ _ _ _ _ _ := hg _ _ (by simp) (by simp)
  bathTo _ _ _ _ _ _ := hg _ _ rfl rfl
  bathOn _ _ _ _ := hg _ _ rfl rfl
  bathOff _ _ := hg _ _ rfl rfl
  area _ _ _ := hg _ _ (by simp) (by simp)

/-- SET-BATH stores its record and may change the rate behind it (R73, R85). -/
theorem ReadsClock.writeSettings (hg : ReadsClock g) (s : State) (st : Nat) (b : Bath) (n : BathSettings) :
    g (s.writeSettings st b n) = g s := by
  have followed := (State.followed_writeSettings s st b n).kept
  have stored : g (s.storeBath st b (b.resettle n)) = g s := by
    by_cases hr : b.rate = (b.resettle n).rate
    · rw [State.storeBath_same hr]; exact hg _ _ rfl rfl
    · rw [State.storeBath_changed hr]; exact (hg.closed.rateChanged rfl st).trans (hg _ _ rfl rfl)
  exact (hg _ _ (by rw [followed]) (by rw [followed])).trans stored

theorem ReadsClock.wide (hg : ReadsClock g) : Wide (fun s t => g t = g s) where
  toClosed := hg.closed
  draft _ _ := hg _ _ rfl rfl
  admissions _ _ := hg _ _ rfl rfl
  guardGap _ _ := hg _ _ rfl rfl
  holdAt _ _ := hg _ _ rfl rfl
  grace _ _ := hg _ _ rfl rfl
  alarmDelay _ _ := hg _ _ rfl rfl
  gasLimit _ _ _ := hg _ _ rfl rfl
  written _ _ _ _ _ _ := hg _ _ rfl rfl
  erased _ _ := hg _ _ rfl rfl
  port _ _ _ _ := hg _ _ (by simp) (by simp)
  settings s st b n _ _ := hg.writeSettings s st b n

end

/-! ### The line mode (R165, R166) -/

/-- The commands that write the line mode, and the session with any request in it. -/
def SetsMode : Instr → Prop
  | .run | .drain | .hold | .stop | .holdAtReached | .unknownRequest _ _ _ => True
  | _ => False

/-- R165, R166: a request that is not of the mode leaves the mode. -/
theorem mode_handRequest {i : Instr} (hi : ¬ SetsMode i) (s : State) : (handRequest i s).1.mode = s.mode := by
  obtain ⟨r1, r2, r3, r4, r5, r6, r7, r8, r9, r10⟩ := Wide.readRequests s
  have hR := readsClock_mode.wide
  have same : ∀ {t : State}, t = s → t.mode = s.mode := fun e => e ▸ rfl
  cases i
  case run | drain | hold | stop => exact absurd trivial hi
  case setStation => exact hR.setStation _ _ _ _ _ _ _ _
  case clearStation => exact hR.clearStation _
  case block => exact hR.block _ _
  case unblock => exact hR.unblock _ _
  case readStation => exact same (r1 _)
  case draftRecipe => exact hR.draftRecipe _ _
  case draftSteps => exact hR.draftSteps _ _ _
  case writeRecipe => exact hR.writeRecipe _
  case discardStaged => exact hR.discardStaged _
  case readRecipe => exact same (r2 _ _ _)
  case admitHanger => exact hR.admitRule _ _ _ _ _ _
  case abortHanger => exact hR.abortHanger _
  case resumeHanger => exact hR.resumeHanger _
  case restartHanger => exact hR.restartHanger _
  case recover => exact hR.recover _ _ _
  case unloaded => exact hR.unloaded _ _
  case readHanger => exact same (r3 _)
  case readRun => exact same (r4 _ _)
  case readTiming => exact same (r5 _)
  case setBath => exact hR.setBathRequest _ _
  case bathReport => exact hR.bathReport _ _
  case bathTrip => exact hR.bathTrip _
  case bathClear => exact hR.bathClear _
  case replenished => exact hR.replenished _
  case readBath => exact same (r6 _)
  case readMoves => exact same (r7 _)
  case setGantry => exact hR.setGantry _ _ _ _ _ _
  case setGuard => exact hR.setGuard _
  case gantryPause => exact hR.gantryPause _
  case gantryResume => exact hR.gantryResume _
  case gantryReset => exact hR.gantryReset _
  case readGantry => exact same (r8 _)
  case setChannel => exact hR.setChannel _ _ _ _ _
  case setGasLimit => exact hR.setGasLimit _
  case gasHold => exact hR.gasHold _ _
  case readChannel => exact same (r9 _)
  case holdAt => exact hR.holdAtRequest _
  case clearLine => exact hR.clearLine
  case setGrace => exact hR.setGrace _
  case rescueClear => exact hR.rescueClear _
  case readLine => exact same r10
  case setAlarm => exact hR.setAlarm _
  case hello => exact hR.hello _
  case homed => exact hR.homed _
  case claim => exact hR.claim _
  case lifted => exact hR.lifted _ _
  case lowered => exact hR.lowered _ _
  case done => exact hR.reportDone _ _
  case abandon => exact hR.abandon _ _ _
  case fault => exact hR.fault _ _ _ _
  case getNotice => exact hR.getNotice _
  case setMask => exact hR.setMask _ _
  all_goals rfl

theorem not_setsMode_of (i : Instr) (h1 : i ≠ .run) (h2 : i ≠ .drain) (h3 : i ≠ .hold) (h4 : i ≠ .stop) (h5 : i ≠ .holdAtReached)
    (h6 : ∀ p l n, i ≠ .unknownRequest p l n) : ¬ SetsMode i := by
  unfold SetsMode
  split
  · exact absurd rfl h1
  · exact absurd rfl h2
  · exact absurd rfl h3
  · exact absurd rfl h4
  · exact absurd rfl h5
  · exact absurd rfl (h6 _ _ _)
  · exact id

/-- A command that is not of the mode, an advance or a reset leaves the mode. -/
theorem mode_exec {i : Instr} {s t : State} (hi : ∀ e, i ≠ .lineTimeAdvance e) (hp : i ≠ .powerOn) (hn : i ≠ .resetn)
    (hm : ¬ SetsMode i) (h : exec i s = .next t) : t.mode = s.mode := by
  have hR := readsClock_mode.wide
  by_cases request : (encodeRequest i).isSome = true
  · exact hR.request i _ (mode_handRequest hm) ((exec_request i s request).symm.trans h)
  cases i
  case lineTimeAdvance e => exact absurd rfl (hi e)
  case powerOn => exact absurd rfl hp
  case resetn => exact absurd rfl hn
  case unknownRequest | holdAtReached => exact absurd trivial hm
  case busyRefused | readSession | replyReady => cases h; exact State.modPort_mode _ _ _
  case edgeCrossed => cases h; exact hR.edgeDue rfl _ _
  case readyTimeReached => cases h; exact hR.readyDue rfl _
  case rescueCompareReached => cases h; exact hR.signal rfl _
  case staleCompareReached => cases h; exact hR.staleDue rfl _
  case moveLimitReached => cases h; exact hR.limitDue rfl _
  case burstFallsDue => cases h; exact hR.burstDue (hR.burstEndDue rfl _) _
  case burstEnd => cases h; exact hR.burstEndDue rfl _
  case unagitatedLimitPassed => cases h; exact hR.unagitatedDue rfl _
  case alarmAssert =>
    have left : t = if s.alarmDue then { s with alarm := true } else s := by cases h; rfl
    rw [left]
    split <;> rfl
  all_goals exact absurd rfl request

end Sys2Proof.Machine
end

