-- ==== Sys2Proof/Proofs/Advance.lean ====
section
/-! PROOFS. An advance of the line time (O52): the tenth it counts, and the events it takes as the commands of their own rows, one
after the other. -/

namespace Sys2Proof.Machine

variable {s t : State} {n m : Nat}

/-! ### The tenth that is counted (R60, R63) -/

theorem State.settle_lineTime (s : State) : s.settle.lineTime = s.lineTime :=
  readsClock_lineTime.wide.settle (fun _ _ => rfl) rfl

theorem State.advance_lineTime (s : State) : s.advance.lineTime = s.lineTime + 1 := rfl

theorem satAdd_eq_min (m x y : Nat) : satAdd m x y = min m (x + y) := by
  unfold satAdd
  split <;> omega

/-- R63: the record of a hanger one tenth later. -/
def State.ticked (s : State) (h : Hanger) : Hanger :=
  { h with imm := h.imm.tick (s.rateOf h.imm.station) (s.gasHeld h.imm.station) }

theorem State.hanger_advance (s : State) (tag : Nat) : s.advance.hanger? tag = (s.hanger? tag).map s.ticked := by
  unfold State.hanger? State.advance State.tickCounts
  rw [List.find?_map]
  rfl

/-- R63, R68, R70, R162: what one tenth adds to a record, by its class. -/
theorem State.ticked_eq (s : State) (h : Hanger) : s.ticked h =
    if h.imm.counting = false then h
    else if h.imm.cls = some .strict then
      { h with imm := { h.imm with
          elapsed := min 16777215 (h.imm.elapsed + 1)
          progress := min 134217727 (h.imm.progress + s.rateOf h.imm.station)
          unagitated := if s.gasHeld h.imm.station = true then min 16777215 (h.imm.unagitated + 1) else h.imm.unagitated } }
    else { h with imm := { h.imm with elapsed := min 16777215 (h.imm.elapsed + 1) } } := by
  unfold State.ticked Immersion.tick
  simp only [satAdd_eq_min]
  by_cases counts : h.imm.counting = true
  · have running : ¬ h.imm.counting = false := by simp [counts]
    rw [if_pos counts, if_neg running]
    by_cases strict : h.imm.cls = some .strict
    · rw [if_pos strict, if_pos strict]
      rfl
    · rw [if_neg strict, if_neg strict]
      rfl
  · rw [if_neg counts, if_pos (Bool.eq_false_iff.2 counts)]

/-- R162: the gas of a station is held when its channel is. -/
theorem State.gasHeld_ite {α : Type} (s : State) (st : Nat) (x y : α) : (if s.gasHeld st = true then x else y) =
    match (s.station st).gasChannel with
    | some n => if (s.channel n).state = .held then x else y
    | none => y := by
  unfold State.gasHeld
  cases (s.station st).gasChannel with
  | none => rfl
  | some n => exact if_congr beq_iff_eq rfl rfl

/-! ### The events that are due, as commands (log 3) -/

theorem takeAll_edges (s : State) :
    takeAll (s.hangers.flatMap (fun h => [.edgeCrossed h.tag .opening, .edgeCrossed h.tag .target, .edgeCrossed h.tag .closing])) s
      = s.settleEdges := by
  unfold takeAll State.settleEdges State.tags
  rw [List.foldl_flatMap, List.foldl_map]
  rfl

/-- The commands of the hangers' rows are taken as the events of their tags. -/
theorem takeAll_tags {i : Nat → Instr} {f : State → Nat → State} (hf : ∀ s a, exec (i a) s = .next (f s a)) (s : State) :
    takeAll (s.hangers.map (fun h => i h.tag)) s = s.tags.foldl f s := by
  rw [← takeAll_map hf, State.tags, List.map_map]
  rfl

/-- The commands of the moves' rows are taken as the events of their identifiers. -/
theorem takeAll_ids {i : Nat → Instr} {f : State → Nat → State} (hf : ∀ s a, exec (i a) s = .next (f s a)) (s : State) :
    takeAll (s.moves.map (fun m => i m.id)) s = (s.moves.map Move.id).foldl f s := by
  rw [← takeAll_map hf, List.map_map]
  rfl

/-! ### Burst ends before bursts (R157) -/

/-- No burst end of channel `n` is due. -/
def State.EndTaken (s : State) (n : Nat) : Prop :=
  (s.channel n).state = .bursting → ∀ e, (s.channel n).burstEnd = some e → reached s.lineTime e = false

theorem State.EndTaken.congr (hn : s.EndTaken n) (hc : t.channel n = s.channel n) (ht : t.lineTime = s.lineTime) : t.EndTaken n := by
  unfold State.EndTaken
  rw [hc, ht]
  exact hn

theorem State.EndTaken.burstEndDue (hn : s.EndTaken n) : s.burstEndDue n = s := by
  unfold State.burstEndDue
  dsimp only
  cases he : (s.channel n).burstEnd with
  | none => rfl
  | some e =>
    refine if_neg (fun due => ?_)
    rw [hn due.1 e he] at due
    cases due.2

/-- A lawful length of at most five seconds ends in the future. -/
theorem reached_plus_length {c : Channel} (hc : c.Lawful) (now : LineTime) : reached now (plus now c.length) = false := by
  obtain ⟨-, -, -, -, hlo, hhi, -⟩ := hc
  unfold reached plus
  rw [decide_eq_false_iff_not]
  bv_omega

theorem State.EndTaken.offerValve (hl : ChannelsLawful s) (hn : s.EndTaken n) : s.offerValve.EndTaken n := by
  unfold State.offerValve
  split
  · rename_i k _
    by_cases mine : n = k ∧ k < 8
    · obtain ⟨rfl, inside⟩ := mine
      intro _ e he
      rw [State.channel_modChannel inside, if_pos rfl] at he
      obtain rfl := Option.some.inj he
      exact reached_plus_length (hl n) s.lineTime
    · refine hn.congr ?_ rfl
      by_cases inside : k < 8
      · exact channel_modChannel_ne (fun e => mine ⟨e, inside⟩)
      · unfold State.channel State.modChannel
        rw [Vector.setIfInBounds_eq_of_size_le (by omega)]
  · exact hn

/-- A channel whose burst ends is not BURSTING until the arbiter opens its valve. -/
def Channel.ended (c : Channel) : Channel :=
  if c.empty then { c with state := .paused, burstEnd := none, nextDue := none } else { c with state := .waiting, burstEnd := none }

theorem Channel.ended_lawful {c : Channel} (hc : c.Lawful) : c.ended.Lawful := by
  unfold Channel.ended
  split <;> exact hc

theorem Channel.ended_state (c : Channel) : c.ended.state ≠ .bursting := by
  unfold Channel.ended
  split <;> simp

theorem State.endBurst_eq (s : State) (n : Nat) : s.endBurst n = (s.modChannel n Channel.ended).offerValve := rfl

/-- The taking of the burst end of a channel leaves none of it due, and brings none of another. -/
theorem State.endTaken_burstEndDue (hl : ChannelsLawful s) (hm : m < 8) (hn : n = m ∨ s.EndTaken n) :
    (s.burstEndDue m).EndTaken n := by
  unfold State.burstEndDue
  dsimp only
  split
  · rename_i e he
    split
    · rw [State.endBurst_eq]
      refine State.EndTaken.offerValve (channelsLawful_modChannel (fun _ h => Channel.ended_lawful h) hl) ?_
      by_cases mine : n = m
      · intro bursting
        rw [State.channel_modChannel hm, if_pos mine] at bursting
        exact absurd bursting (Channel.ended_state _)
      · exact (hn.resolve_left mine).congr (channel_modChannel_ne mine) rfl
    · rename_i waits
      rcases hn with rfl | hn
      · intro bursting e' he'
        rw [he] at he'
        obtain rfl := Option.some.inj he'
        exact Bool.eq_false_iff.2 (fun due => waits ⟨bursting, due⟩)
      · exact hn
  · rename_i none
    rcases hn with rfl | hn
    · intro _ e he
      rw [none] at he
      cases he
    · exact hn

/-- After the burst ends of a list of channels none of them is due. -/
theorem State.endTaken_burstEnds {l : List Nat} (hl : ChannelsLawful s) (hb : ∀ m ∈ l, m < 8) (hn : n ∈ l ∨ s.EndTaken n) :
    (l.foldl State.burstEndDue s).EndTaken n := by
  induction l generalizing s with
  | nil => exact hn.resolve_left (by simp)
  | cons m l ih =>
    have lawful := (keepsGasAndMap_closed.burstEndDue (keepsGasAndMap_closed.refl s) m).1 hl
    refine ih lawful (fun k hk => hb k (by simp [hk])) ?_
    by_cases later : n ∈ l
    · exact Or.inl later
    · refine Or.inr (State.endTaken_burstEndDue hl (hb m (by simp)) ?_)
      exact hn.imp_left (fun e => (List.mem_cons.1 e).resolve_right later)

/-- A burst that falls due at one channel leaves the others. -/
theorem State.channel_fallDue_ne (hn : n ≠ m) (s : State) (due : LineTime) : (s.fallDue m due).channel n = s.channel n := by
  unfold State.fallDue
  repeat' split
  all_goals exact channel_modChannel_ne hn

theorem State.channel_burstDue_ne (hn : n ≠ m) (s : State) : (s.burstDue m).channel n = s.channel n := by
  unfold State.burstDue
  dsimp only
  split
  · split
    · exact State.channel_fallDue_ne hn s _
    · rfl
  · rfl

theorem State.EndTaken.burstDue (hs : s.EndTaken n) (hn : n ≠ m) : (s.burstDue m).EndTaken n :=
  hs.congr (State.channel_burstDue_ne hn s) (readsClock_lineTime.closed.burstDue rfl m)

/-- R157: where no burst end is due, BURST-FALLS-DUE is the burst alone. -/
theorem takeAll_bursts {l : List Nat} (hd : l.Nodup) (hn : ∀ n ∈ l, s.EndTaken n) :
    takeAll (l.map .burstFallsDue) s = l.foldl State.burstDue s := by
  rw [takeAll_map (f := fun t n => (t.burstEndDue n).burstDue n) (fun _ _ => rfl)]
  induction l generalizing s with
  | nil => rfl
  | cons n l ih =>
    obtain ⟨fresh, rest⟩ := List.nodup_cons.1 hd
    rw [List.foldl_cons, List.foldl_cons, (hn n (by simp)).burstEndDue]
    exact ih rest (fun k hk => (hn k (by simp [hk])).burstDue (fun e => fresh (e ▸ hk)))

/-! ### The statement -/

/-- The state of `settle` before the bursts: every event up to the move limits is taken. -/
def State.settledToLimits (s : State) : State :=
  let s2 := s.settleEdges.tags.foldl State.unagitatedDue s.settleEdges
  let s3 := (s2.moves.map Move.id).foldl State.readyDue s2
  let s6 := (List.range Config.stations).foldl State.staleDue (s3.tags.foldl State.signal s3).holdAtDue
  (s6.moves.map Move.id).foldl State.limitDue s6

theorem State.settle_eq (s : State) : s.settle = ((List.range 8).foldl State.burstDue
    ((List.range 8).foldl State.burstEndDue s.settledToLimits)).testAlarm := rfl

theorem channelsLawful_settledToLimits (hs : ChannelsLawful s) : ChannelsLawful s.settledToLimits := by
  have hR := keepsGasAndMap_wide
  have kept : KeepsGasAndMap s s.settledToLimits := by
    unfold State.settledToLimits
    refine hR.foldl _ (fun _ _ => hR.limitDue (hR.refl _) _) _ (hR.foldl _ (fun _ _ => hR.staleDue (hR.refl _) _) _ ?_)
    refine hR.holdAtDue (fun _ _ => .of_untouched rfl rfl) (hR.foldl _ (fun _ _ => hR.signal (hR.refl _) _) _ ?_)
    exact hR.foldl _ (fun _ _ => hR.readyDue (hR.refl _) _) _ (hR.foldl _ (fun _ _ => hR.unagitatedDue (hR.refl _) _) _
      (hR.settleEdges (hR.refl s)))
  exact kept.1 hs

/-- The events of an advance are those of the commands of their rows. -/
theorem settle_commands (hs : ChannelsLawful s) :
    ∃ s1 s2 s3 s4 s5 s6 s7 s8 s9 : State,
      s1 = takeAll (s.hangers.flatMap (fun h =>
        [.edgeCrossed h.tag .opening, .edgeCrossed h.tag .target, .edgeCrossed h.tag .closing])) s
      ∧ s2 = takeAll (s1.hangers.map (fun h => .unagitatedLimitPassed h.tag)) s1
      ∧ s3 = takeAll (s2.moves.map (fun m => .readyTimeReached m.id)) s2
      ∧ s4 = takeAll (s3.hangers.map (fun h => .rescueCompareReached h.tag)) s3
      ∧ s5 = takeAll [.holdAtReached] s4
      ∧ s6 = takeAll ((List.range 24).map .staleCompareReached) s5
      ∧ s7 = takeAll (s6.moves.map (fun m => .moveLimitReached m.id)) s6
      ∧ s8 = takeAll ((List.range 8).map .burstEnd) s7
      ∧ s9 = takeAll ((List.range 8).map .burstFallsDue) s8
      ∧ s.settle = { s9 with alarm := s9.port0.queue.any (fun n =>
          !n.kind.maskable && decide (s9.alarmDelay < (s9.lineTime - n.time).toNat)) } := by
  refine ⟨_, _, _, _, _, _, _, _, _, rfl, rfl, rfl, rfl, rfl, rfl, rfl, rfl, rfl, ?_⟩
  have unagitated := takeAll_tags (i := .unagitatedLimitPassed) (f := State.unagitatedDue) (fun _ _ => rfl)
  have ready := takeAll_ids (i := .readyTimeReached) (f := State.readyDue) (fun _ _ => rfl)
  have compares := takeAll_tags (i := .rescueCompareReached) (f := State.signal) (fun _ _ => rfl)
  have stale := takeAll_map (i := .staleCompareReached) (f := State.staleDue) (fun _ _ => rfl)
  have limits := takeAll_ids (i := .moveLimitReached) (f := State.limitDue) (fun _ _ => rfl)
  have ends := takeAll_map (i := .burstEnd) (f := State.burstEndDue) (fun _ _ => rfl)
  have holdAt : ∀ u, takeAll [.holdAtReached] u = u.holdAtDue := fun _ => rfl
  rw [takeAll_edges, unagitated, ready, compares, holdAt, stale, limits, ends]
  have taken : ∀ n ∈ List.range 8, ((List.range 8).foldl State.burstEndDue s.settledToLimits).EndTaken n := fun n hn =>
    State.endTaken_burstEnds (channelsLawful_settledToLimits hs) (fun m hm => List.mem_range.1 hm) (Or.inl hn)
  have bursts := takeAll_bursts List.nodup_range taken
  rw [State.settle_eq]
  exact congrArg State.testAlarm bursts.symm

/-- Settles O52: the events of an advance are taken by `settle`, which leaves the line time, and every other command keeps it. -/
theorem lineTimeIsCountedByAdvancesOnly : Obligations.LineTimeIsCountedByAdvancesOnly := by
  unfold Obligations.LineTimeIsCountedByAdvancesOnly
  refine ⟨⟨fun e s => ?_, fun s settled => ?_, fun s u h => ?_, fun s hs => settle_commands hs⟩, fun i s t h hi hp hn => ⟨?_, ?_⟩⟩
  · have counted : s.settle.advance.lineTime = s.lineTime + 1 := by
      rw [State.advance_lineTime, s.settle_lineTime]
    cases e with
    | taken => exact ⟨_, rfl, (State.settle_lineTime _).trans counted⟩
    | left => exact ⟨_, rfl, counted⟩
  · have left : exec (.lineTimeAdvance .left) s = .next s.settle.advance := rfl
    refine ⟨s.advance, left.trans (by rw [settled]), rfl, ?_, fun tag => ?_⟩
    · unfold State.advance State.tickCounts
      rw [List.map_map]
      rfl
    · rw [State.hanger_advance]
      refine congrArg (fun f => (s.hanger? tag).map f) (funext fun h => ?_)
      rw [State.ticked_eq, State.gasHeld_ite]
      rfl
  · obtain rfl := Host.Outcome.next.inj h
    rfl
  · exact readsClock_lineTime.wide.exec (fun _ _ => rfl) hi hp hn h
  · exact fun h1 h2 h3 h4 h5 h6 => mode_exec hi hp hn (not_setsMode_of i h1 h2 h3 h4 h5 h6) h

end Sys2Proof.Machine
end

