-- ==== Sys2Proof/Proofs/BathRecords.lean ====
section
/-! PROOFS. What each operation of the bath supervisor makes of the record it names, and what it posts: the layer under the six bath
requests and the stale compare (O23, O24, O26 to O29). -/

namespace Sys2Proof.Machine

variable {s t u : State} {st : Nat} {b c : Bath}

/-! ### The record of one station -/

/-- The baths after an event that makes `b` the record of station `st`, and leaves the others. -/
def State.BathBecomes (s : State) (st : Nat) (b : Bath) (t : State) : Prop := t.baths = s.baths.setIfInBounds st (some b)

theorem State.BathBecomes.trans (h1 : s.BathBecomes st b t) (h2 : t.BathBecomes st c u) : s.BathBecomes st c u := by
  unfold State.BathBecomes at *
  rw [h2, h1, Vector.setIfInBounds_setIfInBounds]

theorem State.BathBecomes.congr (h : s.BathBecomes st b t) (hu : u.baths = t.baths) : s.BathBecomes st b u := Eq.trans hu h

theorem State.bathBecomes_self (hb : s.bath? st = some b) : s.BathBecomes st b s := by
  have inside : st < 24 := State.bath_bound hb
  have held : s.baths[st] = some b := by simpa [State.bath?, inside] using hb
  unfold State.BathBecomes
  ext i hi : 1
  rw [Vector.getElem_setIfInBounds]
  split
  · rename_i e
    subst e
    exact held
  · rfl

section
variable (h : s.BathBecomes st b t)
include h

theorem State.BathBecomes.bath (inside : st < 24) : t.bath? st = some b := by
  rw [State.bath_congr (s := s.setBath st (some b)) h, State.bath_setBath inside, if_pos rfl]

theorem State.BathBecomes.others (inside : st < 24) (o : Nat) (ho : o ≠ st) : t.bath? o = s.bath? o := by
  rw [State.bath_congr (s := s.setBath st (some b)) h, State.bath_setBath inside, if_neg ho]

end

theorem State.modBath_eq (hb : s.bath? st = some b) (f : Bath → Bath) : s.modBath st f = s.setBath st (some (f b)) := by
  unfold State.modBath
  rw [hb]
  rfl

theorem State.setBath_self (hb : s.bath? st = some b) : s.setBath st (some b) = s := by
  unfold State.setBath
  rw [← show s.baths = _ from State.bathBecomes_self hb]

theorem State.setBath_setBath (x y : Option Bath) : (s.setBath st x).setBath st y = s.setBath st y := by
  unfold State.setBath
  rw [Vector.setIfInBounds_setIfInBounds]

theorem State.bath_setBath_same (hb : s.bath? st = some b) (x : Option Bath) : (s.setBath st x).bath? st = x := by
  rw [State.bath_setBath (State.bath_bound hb), if_pos rfl]

/-! ### The readiness and its notice (R89) -/

/-- R89: a port after the readiness of the bath of station `st` has gone from `old` to `new`. -/
def readinessTold (q : Port) (now : LineTime) (st : Nat) (old new : Readiness) : Port :=
  if new = old then q else q.push (plainNotice .bathState now none (some st) new.code)

/-- The record `b` of station `st` stored, and a change of its readiness from `old` told. -/
def State.told (s : State) (st : Nat) (old : Readiness) (b : Bath) : State :=
  { s.setBath st (some b) with port0 := readinessTold s.port0 s.lineTime st old b.readiness }

theorem State.told_becomes (s : State) (st : Nat) (old : Readiness) (b : Bath) : s.BathBecomes st b (s.told st old b) := rfl

theorem State.told_same (hb : s.bath? st = some b) : s.told st b.readiness b = s := by
  unfold State.told readinessTold
  rw [if_pos rfl, State.setBath_self hb]

theorem State.setReadiness_eq (hb : s.bath? st = some b) (r : Readiness) :
    s.setReadiness st r = s.told st b.readiness { b with readiness := r } := by
  unfold State.setReadiness
  rw [hb]
  dsimp only
  by_cases same : b.readiness = r
  · subst same
    rw [if_pos rfl, State.told_same hb]
  · unfold State.told readinessTold
    rw [if_neg same, if_neg (fun e => same e.symm), State.modBath_eq hb]
    exact State.post_of_maskable _ .p0 rfl

/-- A change of the record that keeps its readiness, and then its readiness. -/
theorem State.setReadiness_modBath (hb : s.bath? st = some b) {f : Bath → Bath} (hf : (f b).readiness = b.readiness)
    (r : Readiness) : (s.modBath st f).setReadiness st r = s.told st b.readiness { f b with readiness := r } := by
  rw [State.modBath_eq hb, State.setReadiness_eq (State.bath_setBath_same hb _)]
  unfold State.told
  rw [State.setBath_setBath, hf]
  rfl

/-! ### A reading (R86 to R88) -/

theorem clampInt_eq {lo hi : Int} (h : lo ≤ hi) (x : Int) : clampInt lo hi x = max lo (min hi x) := by
  unfold clampInt
  split
  · omega
  · split <;> omega

theorem clampNat_eq {lo hi : Nat} (h : lo ≤ hi) (x : Nat) : clampNat lo hi x = max lo (min hi x) := by
  unfold clampNat
  split
  · omega
  · split <;> omega

theorem deviationOf_eq (n : BathSettings) (u : Int) :
    deviationOf n u = max (-(n.dmax : Int)) (min (n.dmax : Int) (u - n.tset)) :=
  clampInt_eq (by omega) _

theorem rateFor_eq {n : BathSettings} (h : n.rmin ≤ n.rmax) (d : Int) : (rateFor n d : Int) =
    max (n.rmin : Int) (min (n.rmax : Int) (1024 + (n.gain * d).tdiv ((2 : Int) ^ n.shift))) := by
  unfold rateFor correctionOf
  rw [clampInt_eq (by omega), Int.toNat_of_nonneg (by omega)]

/-- R86, R88: the record after steps 1 to 3 of an accepted reading. -/
theorem Bath.take_eq (b : Bath) (z : Int) (now : LineTime) : b.take z now =
    { b with latest := some (z, now), staleCompare := some (plus now b.settings.stale), rateHeld := false, firstReading := false
             used := some (b.nextUsed z), deviation := deviationOf b.settings (b.nextUsed z)
             rate := rateFor b.settings (deviationOf b.settings (b.nextUsed z)) } := rfl

/-- R87: the first reading is used as it is. -/
theorem Bath.nextUsed_first (h : b.firstReading = true ∨ b.used = none) (z : Int) : b.nextUsed z = z := by
  unfold Bath.nextUsed
  rcases h with h | h
  · rw [h]
  · rw [h]
    cases b.firstReading <;> rfl

/-- R87: a later reading moves the used temperature by at most the slew limit. -/
theorem Bath.nextUsed_later {old : Int} (hf : b.firstReading = false) (hu : b.used = some old) (z : Int) : b.nextUsed z =
    if b.settings.slew = 0 ∨ (z - old).natAbs ≤ b.settings.slew then z
    else if old < z then old + b.settings.slew else old - b.settings.slew := by
  unfold Bath.nextUsed
  rw [hf, hu]

theorem Bath.serviceState_eq {x : Int} (hu : b.used.getD b.settings.tset = x) :
    b.serviceState = if (x - b.settings.tset).natAbs ≤ b.settings.band then .ready else .drift := by
  unfold Bath.serviceState BathSettings.inBand
  rw [hu]
  exact if_congr decide_eq_true_iff rfl rfl

theorem beyondTrip_iff (n : BathSettings) (z : Int) : n.beyondTrip z = true ↔ n.trip < (z - n.tset).natAbs :=
  decide_eq_true_iff

/-! ### The trip test and the settled readiness (R86, steps 4 and 5) -/

/-- R86, R93: the record after the trip test and the readiness of a reading. -/
def Bath.judged (b : Bath) (z : Int) (now : LineTime) : Bath :=
  if b.settings.beyondTrip z = true then { b with readiness := .tripped, tripCause := some .reading }
  else { b with readiness := b.settledState z now }

theorem State.tripBath_eq (hb : s.bath? st = some b) (k : TripCause) : s.tripBath st k =
    (s.told st b.readiness { b with readiness := .tripped, tripCause := some k }).holdStation st .trip := by
  unfold State.tripBath
  rw [State.setReadiness_modBath hb (by rfl)]

theorem State.judge_eq (hb : s.bath? st = some b) (z : Int) : s.judge st b z =
    if b.settings.beyondTrip z = true then (s.told st b.readiness (b.judged z s.lineTime)).holdStation st .trip
    else s.told st b.readiness (b.judged z s.lineTime) := by
  unfold State.judge Bath.judged
  split
  · exact State.tripBath_eq hb _
  · exact State.setReadiness_eq hb _

theorem State.judge_becomes (hb : s.bath? st = some b) (z : Int) :
    s.BathBecomes st (b.judged z s.lineTime) (s.judge st b z) := by
  rw [State.judge_eq hb]
  split
  · exact (s.told_becomes _ _ _).congr (State.holdStation_baths _ _ _)
  · exact s.told_becomes _ _ _

theorem State.judge_port0 (hb : s.bath? st = some b) (z : Int) :
    (s.judge st b z).port0 = readinessTold s.port0 s.lineTime st b.readiness (b.judged z s.lineTime).readiness := by
  rw [State.judge_eq hb]
  split
  · exact State.holdStation_port0 _ _ _
  · rfl

/-- R91, R92: a bath in service is placed by its used temperature. -/
theorem Bath.settledState_in_service (h : b.readiness = .ready ∨ b.readiness = .drift
      ∨ (b.readiness = .stale ∧ b.returnState = .inService)) (z : Int) (now : LineTime) : b.settledState z now = b.serviceState := by
  unfold Bath.settledState
  rcases h with h | h | ⟨h, hr⟩
  · rw [h]
  · rw [h]
  · rw [h, hr]

/-- R90, R92: a bath that warms up leaves WARMING when its settle time is over and the reading stands in the band. -/
theorem Bath.settledState_warming (h : b.readiness = .warming ∨ (b.readiness = .stale ∧ b.returnState = .warming)) (z : Int)
    (now : LineTime) : b.settledState z now =
      if reached now (plus b.warmingEntry b.settings.settle) = true ∧ (z - b.settings.tset).natAbs ≤ b.settings.band then
        b.serviceState
      else .warming := by
  have warms : b.settledState z now = b.warmingState z now := by
    unfold Bath.settledState
    rcases h with h | ⟨h, hr⟩
    · rw [h]
    · rw [h, hr]
  rw [warms]
  unfold Bath.warmingState BathSettings.inBand
  exact if_congr (and_congr_right' decide_eq_true_iff) rfl rfl

/-- The setting of a station's hold reads the channels, the line time and the station's gas channel alone. -/
theorem StationHeld.congr {k : HoldCause} (h : StationHeld s t st k) (hc : s.channels = u.channels) (ht : s.lineTime = u.lineTime)
    (hg : (s.station st).gasChannel = (u.station st).gasChannel) : StationHeld u t st k := by
  unfold StationHeld HoldSet State.channel at *
  rw [← hc, ← ht, ← hg]
  exact h

/-- R93: the hold behind a record that is stored and told. -/
theorem State.told_held (s : State) (st : Nat) (old : Readiness) (b c : Bath) (k : HoldCause) :
    StationHeld s (((s.setBath st (some c)).told st old b).holdStation st k) st k :=
  (State.holdStation_holds _ st k).congr rfl rfl rfl

/-! ### The stored record and a change of its rate (R73, R88) -/

/-- The notices a change of rate can post to the supervisor: those of the compare points it signals. -/
def SignalNotices (l : List Notice) : Prop := ∀ n ∈ l, n.kind = .overdue ∨ n.kind = .rescue ∨ n.kind = .condition

/-- R78, R171, R172: what a signal posts to the supervisor. -/
theorem State.signal_port0 (s : State) (tag : Nat) :
    ∃ l, SignalNotices l ∧ (s.signal tag).port0 = l.foldl Port.push s.port0 := by
  have none : ∃ l, SignalNotices l ∧ s.port0 = l.foldl Port.push s.port0 := ⟨[], by simp [SignalNotices], rfl⟩
  by_cases due : ∃ h, s.hanger? tag = some h ∧ h.imm.compareDue s.lineTime = true
  · obtain ⟨h, hh, hd⟩ := due
    cases hl : (s.station h.imm.station).rescueLine with
    | none =>
      rw [State.signal_overdue hh hd hl]
      exact ⟨[_], by simp [SignalNotices, plainNotice], rfl⟩
    | some l =>
      rw [State.signal_line hh hd hl]
      split
      · exact none
      · obtain ⟨told, kinds, posted⟩ := (s.fired tag).assertLine_port0 l h.imm.station tag
        refine ⟨_ :: told, fun n hn => ?_, posted⟩
        rcases List.mem_cons.1 hn with rfl | hn
        · exact Or.inr (Or.inl rfl)
        · exact Or.inr (Or.inr (kinds n hn))
  · rw [State.signal_same (fun h hh => by by_contra hd; exact due ⟨h, hh, by simpa using hd⟩)]
    exact none

theorem State.signals_port0 (tags : List Nat) (s : State) :
    ∃ l, SignalNotices l ∧ (tags.foldl State.signal s).port0 = l.foldl Port.push s.port0 := by
  induction tags generalizing s with
  | nil => exact ⟨[], by simp [SignalNotices], rfl⟩
  | cons tag tags ih =>
    obtain ⟨first, h1, e1⟩ := s.signal_port0 tag
    obtain ⟨rest, h2, e2⟩ := ih (s.signal tag)
    refine ⟨first ++ rest, fun n hn => (List.mem_append.1 hn).elim (h1 n) (h2 n), ?_⟩
    rw [List.foldl_cons, e2, e1, List.foldl_append]

/-- R110: a remade hanger posts WORK to the gantries alone. -/
theorem State.remakeOne_port0 (s : State) (st tag : Nat) : (s.remakeOne st tag).port0 = s.port0 := by
  unfold State.remakeOne State.feedMove
  dsimp only
  repeat' split
  · rw [State.announceId_rest]
    rfl
  all_goals rfl

theorem State.rateChanged_port0 (s : State) (st : Nat) :
    ∃ l, SignalNotices l ∧ (s.rateChanged st).port0 = l.foldl Port.push s.port0 := by
  have remade : (s.remakeStation st).port0 = s.port0 :=
    foldl_field State.port0 _ (fun t a => State.remakeOne_port0 t st a) _ _
  rw [← remade]
  exact State.signals_port0 _ _

/-- R73: with no STRICT count running in the station a change of rate has nothing to remake. -/
theorem State.rateChanged_idle (h : ∀ h ∈ s.hangers, ¬ h.imm.RunsIn st) : s.rateChanged st = s := by
  have idle : s.running st = [] := by
    unfold State.running
    rw [List.map_eq_nil_iff, List.filter_eq_nil_iff]
    intro x hx
    have := h x hx
    unfold Immersion.RunsIn at this
    simpa [and_assoc] using this
  unfold State.rateChanged State.remakeStation
  rw [idle]
  rfl

theorem keptByRescue_storeBath (s : State) (st : Nat) (b c : Bath) :
    KeptByRescue (s.setBath st (some c)) (s.storeBath st b c) := by
  by_cases same : b.rate = c.rate
  · rw [State.storeBath_same same]
    exact .refl _
  · rw [State.storeBath_changed same]
    exact keptByRescue_rateChanged _ st

theorem State.storeBath_becomes (s : State) (st : Nat) (b c : Bath) : s.BathBecomes st c (s.storeBath st b c) :=
  (keptByRescue_storeBath s st b c).baths

/-- R73: at an unchanged rate, and where no STRICT count runs in the station, the record is stored and nothing else. -/
theorem State.storeBath_idle (h : c.rate = b.rate ∨ ∀ h ∈ s.hangers, ¬ h.imm.RunsIn st) :
    s.storeBath st b c = s.setBath st (some c) := by
  by_cases same : b.rate = c.rate
  · exact State.storeBath_same same
  · rw [State.storeBath_changed same]
    exact State.rateChanged_idle (h.resolve_left (fun e => same e.symm))

/-- What a stored record posts to the supervisor, by the signals of a changed rate. -/
theorem State.storeBath_port0 (s : State) (st : Nat) (b c : Bath) : ∃ l, SignalNotices l
    ∧ ((c.rate = b.rate ∨ ∀ h ∈ s.hangers, ¬ h.imm.RunsIn st) → l = [])
    ∧ (s.storeBath st b c).port0 = l.foldl Port.push s.port0 := by
  by_cases idle : c.rate = b.rate ∨ ∀ h ∈ s.hangers, ¬ h.imm.RunsIn st
  · rw [State.storeBath_idle idle]
    exact ⟨[], by simp [SignalNotices], fun _ => rfl, rfl⟩
  · have changed : ¬ b.rate = c.rate := fun e => idle (Or.inl e.symm)
    obtain ⟨l, kinds, posted⟩ := (s.setBath st (some c)).rateChanged_port0 st
    rw [State.storeBath_changed changed]
    exact ⟨l, kinds, fun h => absurd h idle, posted⟩

/-- What a request of a bath leaves alone: the record stored by R73 and R88, and what follows it. -/
theorem KeptByRescue.request_frame {n : Nat} {w : State} (h1 : KeptByRescue (s.stored n st c) w)
    (h2 : KeptByBath w t) : KeepsSettings s t ∧ t.stations = s.stations ∧ t.recipes = s.recipes ∧ t.startOrder = s.startOrder
      ∧ t.gantryA = s.gantryA ∧ t.gantryB = s.gantryB := by
  have kept : KeepsSettings w t ∧ t.stations = w.stations ∧ t.recipes = w.recipes ∧ t.startOrder = w.startOrder
      ∧ t.gantryA = w.gantryA ∧ t.gantryB = w.gantryB := by
    rw [h2]
    exact ⟨⟨rfl, rfl, rfl, rfl, rfl, rfl, rfl, rfl, rfl⟩, rfl, rfl, rfl, rfl, rfl⟩
  rw [h1] at kept
  exact kept

end Sys2Proof.Machine
end

