-- ==== Sys2Proof/Proofs/BathReports.lean ====
section
/-! PROOFS. BATH-REPORT (O23): the record an accepted reading leaves, and what its storing and its judging do to the rest. -/

namespace Sys2Proof.Machine

variable {s t : State} {st : Nat} {b : Bath} {z : Int}

/-! ### The record (R86 to R93) -/

/-- R86: the record an accepted reading leaves. -/
def Bath.reported (b : Bath) (z : Int) (now : LineTime) : Bath := (b.take z now).judged z now

/-- R86: beside the readiness and the trip cause, a reading leaves what steps 1 to 3 make of the record. -/
theorem Bath.reported_rest (b : Bath) (z : Int) (now : LineTime) : b.reported z now =
    { b.take z now with readiness := (b.reported z now).readiness, tripCause := (b.reported z now).tripCause } := by
  unfold Bath.reported Bath.judged
  split <;> rfl

theorem Bath.reported_beyond (h : b.settings.trip < (z - b.settings.tset).natAbs) (now : LineTime) :
    b.reported z now = { b.take z now with readiness := .tripped, tripCause := some .reading } :=
  if_pos ((beyondTrip_iff b.settings z).2 h)

theorem Bath.reported_within (h : (z - b.settings.tset).natAbs ≤ b.settings.trip) (now : LineTime) :
    b.reported z now = { b.take z now with readiness := (b.take z now).settledState z now } :=
  if_neg (fun e => Nat.not_lt.2 h ((beyondTrip_iff b.settings z).1 e))

/-- R86 to R88: what the record holds of the reading, and what it keeps. -/
theorem Bath.reported_fields (b : Bath) (z : Int) (now : LineTime) :
    (b.reported z now).settings = b.settings ∧ (b.reported z now).latest = some (z, now)
    ∧ (b.reported z now).staleCompare = some (now + BitVec.ofNat 32 b.settings.stale) ∧ (b.reported z now).rateHeld = false
    ∧ (b.reported z now).firstReading = false ∧ (b.reported z now).area = b.area ∧ (b.reported z now).debt = b.debt
    ∧ (b.reported z now).activation = b.activation ∧ (b.reported z now).used = some (b.nextUsed z)
    ∧ (b.reported z now).deviation = deviationOf b.settings (b.nextUsed z)
    ∧ (b.reported z now).rate = rateFor b.settings (deviationOf b.settings (b.nextUsed z)) := by
  rw [b.reported_rest, b.take_eq]
  exact ⟨rfl, rfl, rfl, rfl, rfl, rfl, rfl, rfl, rfl, rfl, rfl⟩

/-- R89 to R92: the readiness a reading within the trip limit settles. -/
theorem Bath.reported_readiness (h : (z - b.settings.tset).natAbs ≤ b.settings.trip) (now : LineTime) :
    (b.reported z now).tripCause = b.tripCause
    ∧ (b.readiness = .tripped → (b.reported z now).readiness = .tripped)
    ∧ ((b.readiness = .ready ∨ b.readiness = .drift ∨ (b.readiness = .stale ∧ b.returnState = .inService)) →
      (b.reported z now).readiness = if (b.nextUsed z - b.settings.tset).natAbs ≤ b.settings.band then .ready else .drift)
    ∧ ((b.readiness = .warming ∨ (b.readiness = .stale ∧ b.returnState = .warming)) →
      (b.reported z now).readiness =
        if reached now (b.warmingEntry + BitVec.ofNat 32 b.settings.settle) = true
            ∧ (z - b.settings.tset).natAbs ≤ b.settings.band then
          (if (b.nextUsed z - b.settings.tset).natAbs ≤ b.settings.band then .ready else .drift)
        else .warming) := by
  have service := (b.take z now).serviceState_eq (x := b.nextUsed z) rfl
  rw [Bath.reported_within h]
  refine ⟨rfl, fun tripped => ?_, fun serves => ?_, fun warms => ?_⟩
  · have still : (b.take z now).readiness = .tripped := tripped
    dsimp only
    unfold Bath.settledState
    rw [still]
  · exact ((b.take z now).settledState_in_service serves z now).trans service
  · exact ((b.take z now).settledState_warming warms z now).trans (if_congr Iff.rfl service rfl)

/-- R86: the state an accepted reading leaves, behind the session of its request. -/
theorem State.acceptReading_spec (hb : s.bath? st = some b) (z : Int) : ∃ w : State, w = s.storeBath st b (b.take z s.lineTime)
    ∧ w.bath? st = some (b.take z s.lineTime) ∧ w.lineTime = s.lineTime
    ∧ s.acceptReading st b z = w.judge st (b.take z s.lineTime) z :=
  ⟨_, rfl, (State.storeBath_becomes s st b _).bath (State.bath_bound hb), (keptByRescue_storeBath s st b _).lineTime, rfl⟩

theorem State.acceptReading_becomes (hb : s.bath? st = some b) (z : Int) :
    s.BathBecomes st (b.reported z s.lineTime) (s.acceptReading st b z) := by
  obtain ⟨w, rfl, hw, time, e⟩ := State.acceptReading_spec hb z
  have judged := State.judge_becomes hw z
  rw [time] at judged
  exact e ▸ (State.storeBath_becomes s st b _).trans judged

/-- R89: the notices of an accepted reading: those of the signals its rate brings, then its BATH-STATE. -/
theorem State.acceptReading_port0 (hb : s.bath? st = some b) (z : Int) : ∃ l, SignalNotices l
    ∧ (((b.reported z s.lineTime).rate = b.rate ∨ ∀ h ∈ s.hangers, ¬ h.imm.RunsIn st) → l = [])
    ∧ (s.acceptReading st b z).port0 =
      readinessTold (l.foldl Port.push s.port0) s.lineTime st b.readiness (b.reported z s.lineTime).readiness := by
  obtain ⟨w, hs, hw, time, e⟩ := State.acceptReading_spec hb z
  obtain ⟨l, kinds, quiet, posted⟩ := s.storeBath_port0 st b (b.take z s.lineTime)
  have rate : (b.reported z s.lineTime).rate = (b.take z s.lineTime).rate := by rw [b.reported_rest]
  refine ⟨l, kinds, fun h => quiet (rate ▸ h), ?_⟩
  rw [e, State.judge_port0 hw, hs, posted, ← hs, time]
  rfl

/-- R93: where the rate remakes nothing, a reading beyond the trip limit holds the station's gas channel, and another leaves the
channels. -/
theorem State.acceptReading_channels (hb : s.bath? st = some b)
    (idle : (b.reported z s.lineTime).rate = b.rate ∨ ∀ h ∈ s.hangers, ¬ h.imm.RunsIn st) :
    (b.settings.trip < (z - b.settings.tset).natAbs → StationHeld s (s.acceptReading st b z) st .trip)
    ∧ ((z - b.settings.tset).natAbs ≤ b.settings.trip → (s.acceptReading st b z).channels = s.channels) := by
  have rate : (b.reported z s.lineTime).rate = (b.take z s.lineTime).rate := by rw [b.reported_rest]
  have stored : s.storeBath st b (b.take z s.lineTime) = s.setBath st (some (b.take z s.lineTime)) :=
    State.storeBath_idle (rate ▸ idle)
  have settings : (b.take z s.lineTime).settings = b.settings := rfl
  unfold State.acceptReading
  rw [stored, State.judge_eq (State.bath_setBath_same hb _), settings]
  refine ⟨fun beyond => ?_, fun within => ?_⟩
  · rw [if_pos ((beyondTrip_iff b.settings z).2 beyond)]
    exact s.told_held st _ _ _ .trip
  · rw [if_neg (fun e => Nat.not_lt.2 within ((beyondTrip_iff b.settings z).1 e))]
    rfl

theorem State.acceptReading_frame {n : Nat} : KeepsSettings s ((s.opened .p0 n).acceptReading st b z) ∧
    ((s.opened .p0 n).acceptReading st b z).stations = s.stations ∧ ((s.opened .p0 n).acceptReading st b z).recipes = s.recipes
    ∧ ((s.opened .p0 n).acceptReading st b z).startOrder = s.startOrder
    ∧ ((s.opened .p0 n).acceptReading st b z).gantryA = s.gantryA
    ∧ ((s.opened .p0 n).acceptReading st b z).gantryB = s.gantryB :=
  (keptByRescue_storeBath (s.opened .p0 n) st b _).request_frame (State.followed_judge _ st _ z).1.kept

/-- R86: BATH-REPORT of an active bath: the range of the reading, then the reading. -/
theorem answers_bathReport (hp : PortFree s .p0) (hb : s.bath? st = some b) :
    ((z < -2000 ∨ 8000 < z) → Answers (.bathReport st z) s .p0 (s.opened .p0 5) (Reply.bare .badReading))
    ∧ (-2000 ≤ z → z ≤ 8000 → Answers (.bathReport st z) s .p0 ((s.opened .p0 5).acceptReading st b z)
      { status := .ok
        payload := bytes1 (b.reported z s.lineTime).readiness.code ++ bytes2 (b.reported z s.lineTime).rate }) := by
  have inside := State.bath_bound hb
  have rule : handRequest (.bathReport st z) = bathReport st z := rfl
  refine ⟨fun range => ?_, fun low high => ?_⟩
  all_goals
    refine Answers.of_rule (c := 0x31) (l := bytes1 st ++ bytesSigned2 z) rfl hp ?_
    rw [rule, bathReport, withBath_active (by omega) (by exact hb)]
  · exact if_pos range
  · rw [if_neg (by omega)]
    have record := (State.acceptReading_becomes (s := s.opened .p0 5) hb z).bath inside
    dsimp only
    unfold reportPayload
    rw [show ((s.opened .p0 (2 + (bytes1 st ++ bytesSigned2 z).length)).acceptReading st b z).bath? st = _ from record]
    rfl

/-- Settles O23: the record of `Bath.reported`, and beside it the notices, the channels and the frame of the reading. -/
theorem bathReportTakesTheReading : Obligations.BathReportTakesTheReading := by
  intro st z b s hp hb
  have inside := State.bath_bound hb
  refine ⟨(answers_bathReport hp hb).1, fun low high => ⟨(s.opened .p0 5).acceptReading st b z, b.reported z s.lineTime,
    b.nextUsed z, (answers_bathReport hp hb).2 low high, ?_⟩⟩
  have becomes := State.acceptReading_becomes (s := s.opened .p0 5) hb z
  obtain ⟨settings, latest, compare, held, first, area, debt, activation, used, deviation, rate⟩ := b.reported_fields z s.lineTime
  refine ⟨becomes.bath inside, becomes.others inside, settings, latest, compare, held, first, area, debt, activation, used,
    fun h => b.nextUsed_first h z, fun old hf hu => ?_, deviation.trans (deviationOf_eq _ _), fun bounds => ?_, fun beyond => ?_,
    fun within => Bath.reported_readiness within s.lineTime, State.acceptReading_port0 (s := s.opened .p0 5) hb z,
    State.acceptReading_channels (s := s.opened .p0 5) hb, State.acceptReading_frame⟩
  · rw [Bath.nextUsed_later hf hu]
    exact ⟨fun near => if_pos near, fun slews far => if_neg (by omega)⟩
  · rw [rate, deviation]
    exact rateFor_eq bounds _
  · rw [Bath.reported_beyond beyond]
    exact ⟨rfl, rfl⟩

end Sys2Proof.Machine
end

