-- ==== Sys2Proof/Proofs/StaleCompare.lean ====
section
/-! PROOFS. The stale compare (O27): the record it leaves, its notice and the entries it marks, and that a compare not reached is no
event. -/

namespace Sys2Proof.Machine

variable {s t : State} {st : Nat} {b : Bath}

/-! ### The compare that is reached (R92) -/

/-- R92: the part of the record that every stale compare changes. -/
def Bath.heldRate (b : Bath) : Bath := { b with rateHeld := true, firstReading := true, staleCompare := none }

/-- R92: the record at its stale compare. -/
def Bath.wentStale (b : Bath) : Bath :=
  { b.heldRate with
      readiness := if b.readiness = .tripped then .tripped else .stale
      returnState := match b.readiness with
        | .warming => .warming
        | .ready => .inService
        | .drift => .inService
        | .stale => b.returnState
        | .tripped => b.returnState }

section
variable {old : Readiness} (hb : s.bath? st = some b) (hr : b.readiness = old)
include hb hr

/-- R92: a bath goes STALE and is to return to `r`. -/
theorem State.setReadiness_stale (r : ReturnState) :
    ((s.modBath st Bath.heldRate).modBath st (fun b => { b with returnState := r })).setReadiness st .stale
      = s.told st old { b.heldRate with returnState := r, readiness := .stale } := by
  subst hr
  rw [State.modBath_eq hb, State.setReadiness_modBath (State.bath_setBath_same hb _) (by rfl)]
  unfold State.told
  rw [State.setBath_setBath]
  rfl

/-- R92: a bath that is STALE or TRIPPED already keeps its readiness. -/
theorem State.modBath_heldRate : s.modBath st Bath.heldRate = s.told st old { b.heldRate with readiness := old } := by
  subst hr
  rw [State.modBath_eq hb]
  unfold State.told readinessTold
  rw [if_pos rfl]
  rfl

end

/-- R79, R92: a stale compare stores the record, tells the readiness and marks the entries of the station. -/
theorem State.goStale_eq (hb : s.bath? st = some b) : s.goStale st = (s.told st b.readiness b.wentStale).markStale st := by
  unfold State.goStale Bath.wentStale
  rw [hb]
  refine congrArg (State.markStale · st) ?_
  dsimp only
  cases hr : b.readiness with
  | warming => exact State.setReadiness_stale hb hr .warming
  | ready => exact State.setReadiness_stale hb hr .inService
  | drift => exact State.setReadiness_stale hb hr .inService
  | stale => exact State.modBath_heldRate hb hr
  | tripped => exact State.modBath_heldRate hb hr

/-! ### The row (log 4) -/

theorem State.staleDue_same (h : ∀ b x, s.bath? st = some b → b.staleCompare = some x → reached s.lineTime x = false) :
    s.staleDue st = s := by
  unfold State.staleDue
  split
  · rename_i x hx
    obtain ⟨b, hb, armed⟩ := Option.bind_eq_some_iff.1 hx
    exact if_neg (by simp [h b x hb armed])
  · rfl

theorem State.staleDue_reached {x : LineTime} (hb : s.bath? st = some b) (hx : b.staleCompare = some x)
    (hr : reached s.lineTime x = true) : s.staleDue st = (s.told st b.readiness b.wentStale).markStale st := by
  rw [← State.goStale_eq hb]
  unfold State.staleDue
  rw [hb, Option.bind_some, hx]
  exact if_pos hr

/-- R89, R92: a stale compare posts BATH-STATE where the bath was neither TRIPPED nor STALE. -/
theorem readinessTold_wentStale (q : Port) (now : LineTime) (st : Nat) (b : Bath) :
    readinessTold q now st b.readiness b.wentStale.readiness = if b.readiness = .tripped ∨ b.readiness = .stale then q
      else q.push (plainNotice .bathState now none (some st) Readiness.stale.code) := by
  unfold readinessTold Bath.wentStale
  cases b.readiness <;> rfl

/-- Settles O27: the row leaves the state as it is, or stores the record of `Bath.wentStale`, tells it and marks the entries. -/
theorem staleCompareHoldsTheRate : Obligations.StaleCompareHoldsTheRate := by
  intro st s
  have row : exec (.staleCompareReached st) s = .next (s.staleDue st) := rfl
  refine ⟨fun h => row.trans (congrArg _ (State.staleDue_same h)), fun b x hb hx hr => ?_⟩
  have inside := State.bath_bound hb
  have becomes := s.told_becomes st b.readiness b.wentStale
  refine ⟨_, b.wentStale, row.trans (congrArg _ (State.staleDue_reached hb hx hr)), becomes.bath inside, becomes.others inside,
    rfl, rfl, ⟨rfl, rfl, rfl, rfl, rfl, rfl, rfl, rfl, rfl⟩, rfl, rfl, rfl, rfl, rfl, rfl, rfl, rfl,
    readinessTold_wentStale _ _ st b, rfl, rfl⟩

end Sys2Proof.Machine
end

