-- ==== Sys2Proof/Proofs/BathArea.lean ====
section
/-! PROOFS. The area accounting (O28, O29): whole quanta taken from the counter into the debt, and REPLENISHED. -/

namespace Sys2Proof.Machine

variable {s : State} {st : Nat} {b : Bath}

/-! ### The conversion (R97) -/

theorem Bath.convert_eq (b : Bath) : b.convert =
    { b with area := b.area % b.settings.quantum, debt := min 15 (b.debt + b.area / b.settings.quantum) } := by
  unfold Bath.convert
  rw [satAdd_eq_min]

theorem State.convertArea_below (hb : s.bath? st = some b) (h : b.area < b.settings.quantum) : s.convertArea st = s := by
  unfold State.convertArea
  rw [hb]
  exact if_neg (Nat.not_le.2 h)

theorem State.convertArea_reached (hb : s.bath? st = some b) (h : b.settings.quantum ≤ b.area) : s.convertArea st =
    (s.setBath st (some b.convert)).post .p0 (plainNotice .replenish s.lineTime none (some st) b.convert.debt) := by
  unfold State.convertArea
  rw [hb]
  exact if_pos h

/-- Settles O29: the counter below the quantum, and the conversion of whole quanta. -/
theorem areaIsCountedInQuanta : Obligations.AreaIsCountedInQuanta := by
  intro st a b s hb _
  have counted : (s.setBath st (some { b with area := b.area + a })).bath? st = some { b with area := b.area + a } :=
    State.bath_setBath_same hb _
  have added : s.addArea st a = (s.setBath st (some { b with area := b.area + a })).convertArea st := by
    unfold State.addArea
    rw [State.modBath_eq hb]
  refine ⟨fun below => ?_, fun whole => ⟨_, rfl, ?_⟩⟩
  · rw [added, State.convertArea_below counted below]
    rfl
  · rw [added, State.convertArea_reached counted whole, State.setBath_setBath, Bath.convert_eq]
    rfl

/-! ### REPLENISHED (R98) -/

theorem answers_replenished {q : Reply} {t : State} (hp : PortFree s .p0) (h : replenished st (s.opened .p0 3) = (t, q)) :
    Answers (.replenished st) s .p0 t q :=
  Answers.of_rule (c := 0x34) (l := bytes1 st) rfl hp h

/-- R96: a supervised station accepts lowering by its bath, its debt and its rescue line. -/
theorem State.acceptsLowering_supervised (hs : (s.station st).supervised = true) (hb : s.bath? st = some b) : s.acceptsLowering st =
    ((b.readiness == .ready || b.readiness == .drift) && b.debt == 0 && !s.barRaised st) := by
  unfold State.acceptsLowering State.bathAccepts
  rw [if_pos hs, hb]

/-- R98: REPLENISHED of an active bath. -/
theorem replenished_active (hb : s.bath? st = some b) : replenished st s =
    if b.debt = 0 then (s, Reply.bare .notNow)
    else (s.setBath st (some { b with debt := b.debt - 1 }), { status := .ok, payload := bytes1 (b.debt - 1) }) :=
  withBath_active (Nat.le_of_lt_succ (State.bath_bound hb)) hb _

/-- R96, R98: with the last unit of the debt gone a supervised station accepts lowering by its bath and its rescue line. -/
theorem State.acceptsLowering_undebted (hs : (s.station st).supervised = true) (hb : s.bath? st = some b) :
    (s.setBath st (some { b with debt := 0 })).acceptsLowering st
      = ((b.readiness == .ready || b.readiness == .drift) && !s.barRaised st) := by
  have still : ((s.setBath st (some { b with debt := 0 })).station st).supervised = true := hs
  rw [State.acceptsLowering_supervised still (State.bath_setBath_same hb _), beq_self_eq_true, Bool.and_true]
  rfl

/-- Settles O28: the two tests of the name, then the debt of the record. -/
theorem replenishedTakesOneFromTheDebt : Obligations.ReplenishedTakesOneFromTheDebt := by
  intro st s hp
  refine ⟨fun outside => answers_replenished hp (State.withBath_outside outside _),
    fun range none => answers_replenished hp (State.withBath_inactive (s := s.opened .p0 3) range none _), fun b hb => ?_⟩
  have rule := replenished_active (s := s.opened .p0 3) hb
  refine ⟨fun none => answers_replenished hp (rule.trans (if_pos none)), fun owed => ⟨_, rfl,
    answers_replenished hp (rule.trans (if_neg (by omega))), fun last supervised => ?_⟩⟩
  rw [last]
  exact State.acceptsLowering_undebted (s := s.opened .p0 3) supervised hb

end Sys2Proof.Machine
end

