-- ==== Sys2Proof/Proofs/BathTrips.lean ====
section
/-! PROOFS. BATH-TRIP and BATH-CLEAR (O26): a trip by request with its hold of the gas channel, and the end of a trip. -/

namespace Sys2Proof.Machine

variable {s t : State} {st : Nat} {b : Bath}

/-! ### BATH-TRIP (R93, R94) -/

theorem bathTrip_active (hb : s.bath? st = some b) : bathTrip st s =
    if b.readiness = .tripped then (s, Reply.bare .ok) else (s.tripBath st .request, Reply.bare .ok) :=
  withBath_active (Nat.le_of_lt_succ (State.bath_bound hb)) hb _

/-- R93: the record, the notice and the hold of a trip, each in its part of the state. -/
theorem State.tripBath_parts (hb : s.bath? st = some b) (hr : b.readiness ≠ .tripped) (k : TripCause) : s.tripBath st k =
    { s with
        baths := s.baths.setIfInBounds st (some { b with readiness := .tripped, tripCause := some k })
        port0 := s.port0.push (plainNotice .bathState s.lineTime none (some st) 4)
        channels := (s.tripBath st k).channels } := by
  have posted : readinessTold s.port0 s.lineTime st b.readiness .tripped =
      s.port0.push (plainNotice .bathState s.lineTime none (some st) 4) := if_neg (fun e => hr e.symm)
  rw [← posted, State.tripBath_eq hb, State.holdStation_rest]
  rfl

theorem State.tripBath_held (hb : s.bath? st = some b) (k : TripCause) : StationHeld s (s.tripBath st k) st .trip := by
  rw [State.tripBath_eq hb]
  exact (State.holdStation_holds _ st .trip).congr rfl rfl rfl

/-! ### The end of a trip (R95) -/

/-- R95: the record a cleared trip leaves. -/
def Bath.cleared (b : Bath) (now : LineTime) : Bath := { b.clearTrip now with readiness := b.clearedState }

theorem Bath.cleared_fields (b : Bath) (now : LineTime) :
    (b.cleared now).tripCause = none ∧ (b.cleared now).rate = b.rate ∧ (b.cleared now).used = b.used
    ∧ (b.cleared now).latest = b.latest ∧ (b.cleared now).rateHeld = b.rateHeld ∧ (b.cleared now).staleCompare = b.staleCompare
    ∧ (b.cleared now).settings = b.settings ∧ (b.cleared now).area = b.area ∧ (b.cleared now).debt = b.debt := by
  unfold Bath.cleared Bath.clearTrip
  dsimp only
  split <;> exact ⟨rfl, rfl, rfl, rfl, rfl, rfl, rfl, rfl, rfl⟩

theorem Bath.clearTrip_readiness (b : Bath) (now : LineTime) : (b.clearTrip now).readiness = b.readiness := by
  unfold Bath.clearTrip
  split <;> rfl

/-- R95: a trip by a reading, and one of a bath with no reading yet, ends in WARMING. -/
theorem Bath.clearedState_warming (h : b.tripCause = some .reading ∨ b.latest = none) : b.clearedState = .warming := by
  unfold Bath.clearedState
  split
  · rfl
  · rename_i other
    rw [h.resolve_left other]
    rfl

/-- R95: a trip by request of a bath with a reading ends in STALE while the rate is held, and else in service. -/
theorem Bath.clearedState_request (hc : b.tripCause = some .request) (hl : b.latest ≠ none) :
    b.clearedState = if b.rateHeld = true then .stale else b.serviceState := by
  unfold Bath.clearedState
  rw [hc]
  exact if_neg (by simpa using hl)

theorem Bath.serviceState_cases (b : Bath) : b.serviceState = .ready ∨ b.serviceState = .drift := by
  unfold Bath.serviceState
  split
  · exact Or.inl rfl
  · exact Or.inr rfl

/-- R95: the end of a trip leaves TRIPPED. -/
theorem Bath.clearedState_ne (b : Bath) : b.clearedState ≠ .tripped := by
  have service : b.serviceState ≠ .tripped := by rcases b.serviceState_cases with e | e <;> simp [e]
  unfold Bath.clearedState
  split
  · simp
  · split
    · simp
    · split
      · simp
      · exact service

/-- R95: the state a cleared trip leaves but for the marks of R79. -/
def State.clearedTrip (s : State) (st : Nat) (b : Bath) : State :=
  ((s.setBath st (some (b.clearTrip s.lineTime))).releaseStation st .trip).told st b.readiness (b.cleared s.lineTime)

theorem State.clearTrip_eq (hb : s.bath? st = some b) : s.clearTrip st b =
    if b.clearedState = .stale then (s.clearedTrip st b).markStale st else s.clearedTrip st b := by
  have released : ((s.setBath st (some (b.clearTrip s.lineTime))).releaseStation st .trip).bath? st
      = some (b.clearTrip s.lineTime) :=
    (State.bath_congr (State.releaseStation_baths _ _ _) st).trans (State.bath_setBath_same hb _)
  have told := State.setReadiness_eq released b.clearedState
  rw [Bath.clearTrip_readiness] at told
  unfold State.clearTrip
  rw [State.modBath_eq hb]
  dsimp only
  rw [told]
  rfl

/-- What a cleared trip leaves, whether or not it marks the entries of the station. -/
theorem State.clearTrip_parts (hb : s.bath? st = some b) :
    s.BathBecomes st (b.cleared s.lineTime) (s.clearTrip st b) ∧ StationReleased s (s.clearTrip st b) st .trip
    ∧ (s.clearTrip st b).port0 = readinessTold s.port0 s.lineTime st b.readiness b.clearedState
    ∧ KeptByBath s (s.clearTrip st b) := by
  have rest := State.releaseStation_rest (s.setBath st (some (b.clearTrip s.lineTime))) st .trip
  have becomes : s.BathBecomes st (b.cleared s.lineTime) (s.clearedTrip st b) := by
    have released : s.BathBecomes st (b.clearTrip s.lineTime)
        ((s.setBath st (some (b.clearTrip s.lineTime))).releaseStation st .trip) := by rw [rest]; rfl
    exact released.trans (State.told_becomes _ _ _ _)
  have ended : StationReleased s (s.clearedTrip st b) st .trip :=
    (State.releaseStation_ends (s.setBath st (some (b.clearTrip s.lineTime))) st .trip).congr rfl rfl rfl
  have posted : (s.clearedTrip st b).port0 = readinessTold s.port0 s.lineTime st b.readiness b.clearedState := by
    unfold State.clearedTrip
    rw [rest]
    rfl
  have kept : KeptByBath s (s.clearedTrip st b) := by
    unfold State.clearedTrip
    rw [rest]
    rfl
  rw [State.clearTrip_eq hb]
  split
  · exact ⟨becomes, ended, posted, kept.trans (u := (s.clearedTrip st b).markStale st) rfl⟩
  · exact ⟨becomes, ended, posted, kept⟩

/-! ### BATH-CLEAR (R95) -/

theorem bathClear_active (hb : s.bath? st = some b) : bathClear st s =
    if b.readiness ≠ .tripped then (s, Reply.bare .notNow)
    else match b.latest with
      | some (z, _) =>
        if b.settings.beyondTrip z = true then (s, Reply.bare .stillTripped) else (s.clearTrip st b, Reply.bare .ok)
      | none => (s.clearTrip st b, Reply.bare .ok) := by
  unfold bathClear
  rw [withBath_active (Nat.le_of_lt_succ (State.bath_bound hb)) hb]
  rfl

/-- R95: the latest reading, where there is one, stands within the trip limit, and the trip ends. -/
theorem bathClear_within (hb : s.bath? st = some b) (hr : b.readiness = .tripped)
    (hl : ∀ z x, b.latest = some (z, x) → (z - b.settings.tset).natAbs ≤ b.settings.trip) :
    bathClear st s = (s.clearTrip st b, Reply.bare .ok) := by
  rw [bathClear_active hb, if_neg (fun e => e hr)]
  split
  · rename_i z x hz
    exact if_neg (fun e => Nat.not_lt.2 (hl z x hz) ((beyondTrip_iff b.settings z).1 e))
  · rfl

theorem bathClear_beyond {z : Int} {x : LineTime} (hb : s.bath? st = some b) (hr : b.readiness = .tripped)
    (hl : b.latest = some (z, x)) (hz : b.settings.trip < (z - b.settings.tset).natAbs) :
    bathClear st s = (s, Reply.bare .stillTripped) := by
  rw [bathClear_active hb, if_neg (fun e => e hr), hl]
  exact if_pos ((beyondTrip_iff b.settings z).2 hz)

section
variable {q : Reply} (hp : PortFree s .p0)
include hp

theorem answers_bathTrip (h : bathTrip st (s.opened .p0 3) = (t, q)) : Answers (.bathTrip st) s .p0 t q :=
  Answers.of_rule (c := 0x32) (l := bytes1 st) rfl hp h

theorem answers_bathClear (h : bathClear st (s.opened .p0 3) = (t, q)) : Answers (.bathClear st) s .p0 t q :=
  Answers.of_rule (c := 0x33) (l := bytes1 st) rfl hp h

end

/-- R95: the readiness, the warming entry and the return state a cleared trip leaves, by its cause and its readings. -/
theorem Bath.cleared_state (b : Bath) (now : LineTime) :
    ((b.tripCause = some .reading ∨ b.latest = none) → (b.cleared now).readiness = .warming ∧ (b.cleared now).warmingEntry = now)
    ∧ (b.tripCause = some .request → b.latest ≠ none → b.rateHeld = true →
      (b.cleared now).readiness = .stale ∧ (b.cleared now).returnState = .inService)
    ∧ (b.tripCause = some .request → b.latest ≠ none → b.rateHeld = false → (b.cleared now).readiness =
      if ((b.used.getD b.settings.tset) - b.settings.tset).natAbs ≤ b.settings.band then .ready else .drift) := by
  unfold Bath.cleared Bath.clearTrip
  refine ⟨fun warms => ?_, fun cause read held => ?_, fun cause read free => ?_⟩
  · rw [Bath.clearedState_warming warms]
    exact ⟨rfl, rfl⟩
  · rw [Bath.clearedState_request cause read, if_pos held]
    exact ⟨rfl, rfl⟩
  · rw [Bath.clearedState_request cause read, if_neg (by simp [free])]
    exact Bath.serviceState_eq rfl

/-- Settles O26: each request by its tests, with the parts of the state a trip and its end leave. -/
theorem bathTripAndClear : Obligations.BathTripAndClear := by
  intro st b s hp hb
  have inside := State.bath_bound hb
  have tripRule := bathTrip_active (s := s.opened .p0 3) hb
  have clearRule := bathClear_active (s := s.opened .p0 3) hb
  refine ⟨fun tripped => answers_bathTrip hp (tripRule.trans (if_pos tripped)), fun untripped => ?_,
    fun untripped => answers_bathClear hp (clearRule.trans (if_pos untripped)), fun tripped ⟨z, x, latest, beyond⟩ =>
      answers_bathClear hp (bathClear_beyond (s := s.opened .p0 3) hb tripped latest beyond), fun tripped within => ?_⟩
  · exact ⟨_, State.tripBath_parts (s := s.opened .p0 3) hb untripped .request,
      (State.tripBath_held (s := s.opened .p0 3) hb .request).congr rfl rfl rfl,
      answers_bathTrip hp (tripRule.trans (if_neg untripped))⟩
  · obtain ⟨becomes, ended, posted, kept⟩ := State.clearTrip_parts (s := s.opened .p0 3) hb
    obtain ⟨cause, rate, used, latest, held, compare, settings, area, debt⟩ := b.cleared_fields s.lineTime
    obtain ⟨warms, stale, serves⟩ := b.cleared_state s.lineTime
    have left : readinessTold (s.opened .p0 3).port0 s.lineTime st b.readiness b.clearedState = _ :=
      if_neg (fun e => b.clearedState_ne (e.trans tripped))
    refine ⟨_, b.cleared s.lineTime, answers_bathClear hp (bathClear_within (s := s.opened .p0 3) hb tripped within),
      becomes.bath inside, becomes.others inside, cause, rate, used, latest, held, compare, settings, area, debt, warms, stale,
      serves, ended.congr rfl rfl rfl, posted.trans left, ?_⟩
    rw [kept]
    exact ⟨⟨rfl, rfl, rfl, rfl, rfl, rfl, rfl, rfl, rfl⟩, rfl, rfl, rfl, rfl, rfl, rfl, rfl, rfl, rfl⟩

end Sys2Proof.Machine
end

