-- ==== Sys2Proof/Proofs/BathSettings.lean ====
section
/-! PROOFS. SET-BATH (O24): the clamps, and the record the new settings leave in the four steps of R85: the rate, the readiness, the
stale compare and the area. -/

namespace Sys2Proof.Machine

variable {s t u : State} {st : Nat} {b : Bath} {n : BathSettings}

/-! ### The clamps (R84) -/

/-- R84: the clamps of the settings. -/
theorem clamped_eq (c : BathSettings) : c.clamped =
    { tset := max (-2000) (min 8000 c.tset), band := max 1 (min 500 c.band), trip := max 1 (min 2000 c.trip),
      settle := min 6000 c.settle, stale := max 10 (min 3000 c.stale), slew := min 500 c.slew, gain := c.gain,
      shift := min 15 c.shift, dmax := min 1000 c.dmax, rmin := max 64 (min 4096 c.rmin),
      rmax := max 64 (min 4096 c.rmax), quantum := max 1 (min 65535 c.quantum),
      exitAllowance := min 600 c.exitAllowance } := by
  unfold BathSettings.clamped
  simp only [clampNat_eq (by decide : 1 ≤ 500), clampNat_eq (by decide : 1 ≤ 2000), clampNat_eq (by decide : 10 ≤ 3000),
    clampNat_eq (by decide : 64 ≤ 4096), clampNat_eq (by decide : 1 ≤ 65535), clampInt_eq (by decide : (-2000 : Int) ≤ 8000),
    clampNat_zero, min_comm]

/-! ### The record in the four steps of R85 -/

/-- R85, step 1: the settings are replaced, and beside them only the deviation and the rate can change. -/
theorem Bath.resettle_rest (b : Bath) (n : BathSettings) :
    b.resettle n = { b with settings := n, deviation := (b.resettle n).deviation, rate := (b.resettle n).rate } := by
  unfold Bath.resettle Bath.recompute
  dsimp only
  repeat' split
  all_goals rfl

/-- R85, R88: the rate stands while it is held, and where there is no used temperature. -/
theorem Bath.resettle_stands (h : b.rateHeld = true ∨ b.used = none) (n : BathSettings) :
    (b.resettle n).rate = b.rate ∧ (b.resettle n).deviation = b.deviation := by
  unfold Bath.resettle Bath.recompute
  split
  · exact ⟨rfl, rfl⟩
  · rename_i free
    dsimp only
    rw [h.resolve_left free]
    exact ⟨rfl, rfl⟩

/-- R85, R88: a rate that is not held is remade from the used temperature. -/
theorem Bath.resettle_remade {x : Int} (hr : b.rateHeld = false) (hu : b.used = some x) (n : BathSettings) :
    (b.resettle n).deviation = deviationOf n x ∧ (b.resettle n).rate = rateFor n (deviationOf n x) := by
  unfold Bath.resettle Bath.recompute
  rw [if_neg (by simp [hr])]
  dsimp only
  rw [hu]
  exact ⟨rfl, rfl⟩

/-- R85, step 2: a READY or DRIFT bath is placed by R91. -/
def Bath.placed (b : Bath) : Bath :=
  { b with readiness := if b.readiness = .ready ∨ b.readiness = .drift then b.serviceState else b.readiness }

/-- R85, R92: a stale compare that its move has brought to a line time already reached is taken at once. -/
def Bath.compared (b : Bath) (now : LineTime) : Bath := if b.staleCompare.any (reached now) = true then b.wentStale else b

theorem Bath.compared_rest (b : Bath) (now : LineTime) : b.compared now =
    { b with rateHeld := (b.compared now).rateHeld, firstReading := (b.compared now).firstReading
             staleCompare := (b.compared now).staleCompare, readiness := (b.compared now).readiness
             returnState := (b.compared now).returnState } := by
  unfold Bath.compared
  split <;> rfl

/-- R97: the counter below the quantum, its whole quanta in the debt. -/
def Bath.converted (b : Bath) : Bath := if b.settings.quantum ≤ b.area then b.convert else b

theorem Bath.converted_eq (hd : b.debt ≤ 15) : b.converted =
    { b with area := b.area % b.settings.quantum, debt := min 15 (b.debt + b.area / b.settings.quantum) } := by
  unfold Bath.converted
  split
  · exact b.convert_eq
  · rename_i below
    rw [Nat.mod_eq_of_lt (by omega), Nat.div_eq_of_lt (by omega), Nat.add_zero, Nat.min_eq_right hd]

/-- R85: the record before a stale compare that may be due, and before the conversion. -/
def Bath.rewritten (b : Bath) (n : BathSettings) : Bath := (b.resettle n).placed.rearm

/-- R85: what the steps before them make of the record. -/
theorem Bath.rewritten_eq (b : Bath) (n : BathSettings) : b.rewritten n =
    { b with settings := n, deviation := (b.resettle n).deviation, rate := (b.resettle n).rate
             readiness := (b.resettle n).placed.readiness, staleCompare := (b.rewritten n).staleCompare } := by
  unfold Bath.rewritten Bath.rearm Bath.placed
  rw [b.resettle_rest n]

/-- R85: the record a SET-BATH leaves. -/
def Bath.reset (b : Bath) (n : BathSettings) (now : LineTime) : Bath := ((b.rewritten n).compared now).converted

/-- R85, R97: what every SET-BATH leaves of the record, its stale compare due or not. -/
theorem Bath.reset_fields (hd : b.debt ≤ 15) (n : BathSettings) (now : LineTime) :
    (b.reset n now).settings = n ∧ (b.reset n now).latest = b.latest ∧ (b.reset n now).used = b.used
    ∧ (b.reset n now).tripCause = b.tripCause ∧ (b.reset n now).area = b.area % n.quantum
    ∧ (b.reset n now).debt = min 15 (b.debt + b.area / n.quantum) ∧ (b.reset n now).rate = (b.resettle n).rate
    ∧ (b.reset n now).deviation = (b.resettle n).deviation := by
  have owed : ((b.rewritten n).compared now).debt ≤ 15 := by
    rw [Bath.compared_rest, Bath.rewritten_eq]
    exact hd
  unfold Bath.reset
  rw [Bath.converted_eq owed, Bath.compared_rest, Bath.rewritten_eq]
  exact ⟨rfl, rfl, rfl, rfl, rfl, rfl, rfl, rfl⟩

/-- R85: the line time a stale compare is counted from: that of the latest reading, or of the activation (log 24). -/
def Bath.countedFrom (b : Bath) : LineTime :=
  match b.latest with
  | some (_, x) => x
  | none => b.activation

/-- R85, step 3: an armed stale compare is moved by the new stale time. -/
theorem Bath.rewritten_staleCompare (b : Bath) (n : BathSettings) :
    (b.rewritten n).staleCompare = b.staleCompare.map (fun _ => b.countedFrom + BitVec.ofNat 32 n.stale) := by
  unfold Bath.rewritten Bath.rearm Bath.placed
  rw [b.resettle_rest n]
  rfl

/-- R85: no stale compare is brought to a line time already reached. -/
def Bath.Unreached (b : Bath) (n : BathSettings) (now : LineTime) : Prop :=
  ∀ x, (b.rewritten n).staleCompare = some x → reached now x = false

theorem Bath.unreached_of {now : LineTime}
    (h : b.staleCompare = none ∨ reached now (b.countedFrom + BitVec.ofNat 32 n.stale) = false) : b.Unreached n now := by
  intro x hx
  rw [b.rewritten_staleCompare, Option.map_eq_some_iff] at hx
  obtain ⟨y, hy, rfl⟩ := hx
  exact h.resolve_left (by simp [hy])

theorem Bath.compared_unreached {now : LineTime} (h : ∀ x, b.staleCompare = some x → reached now x = false) :
    b.compared now = b := by
  unfold Bath.compared
  cases hx : b.staleCompare with
  | none => rfl
  | some x => exact if_neg (by simp [h x hx])

/-- R85, step 2: the readiness of a bath in service is that of R91 with the new settings. -/
theorem Bath.resettle_placed (b : Bath) (n : BathSettings) : (b.resettle n).placed.readiness =
    if b.readiness = .ready ∨ b.readiness = .drift then
      (if ((b.used.getD n.tset) - n.tset).natAbs ≤ n.band then .ready else .drift)
    else b.readiness := by
  have service : (b.resettle n).serviceState = if ((b.used.getD n.tset) - n.tset).natAbs ≤ n.band then .ready else .drift := by
    rw [b.resettle_rest n]
    exact Bath.serviceState_eq rfl
  unfold Bath.placed
  rw [service, b.resettle_rest n]

/-- R85: what a SET-BATH whose stale compare is not due leaves of the rest of the record. -/
theorem Bath.reset_unreached {now : LineTime} (hd : b.debt ≤ 15) (h : b.Unreached n now) :
    (b.reset n now).staleCompare = (b.rewritten n).staleCompare ∧ (b.reset n now).rateHeld = b.rateHeld
    ∧ (b.reset n now).readiness = (b.resettle n).placed.readiness := by
  have owed : (b.rewritten n).debt ≤ 15 := by
    rw [Bath.rewritten_eq]
    exact hd
  unfold Bath.reset
  rw [Bath.compared_unreached h, Bath.converted_eq owed]
  refine ⟨rfl, ?_, ?_⟩
  all_goals rw [b.rewritten_eq n]

/-! ### The state in the same steps -/

theorem State.placeInService_eq (hb : s.bath? st = some b) : s.placeInService st = s.told st b.readiness b.placed := by
  unfold State.placeInService Bath.placed
  rw [hb]
  dsimp only
  split
  · exact State.setReadiness_eq hb _
  · exact (State.told_same hb).symm

theorem State.staleDue_becomes (hb : s.bath? st = some b) : s.BathBecomes st (b.compared s.lineTime) (s.staleDue st) := by
  unfold Bath.compared
  cases hx : b.staleCompare with
  | none =>
    rw [State.staleDue_same (fun c x hc hcx => by rw [Option.some.inj (hb.symm.trans hc), hcx] at hx; cases hx)]
    exact State.bathBecomes_self hb
  | some x =>
    by_cases due : reached s.lineTime x = true
    · rw [State.staleDue_reached hb hx due, Option.any_some, if_pos due]
      exact s.told_becomes st b.readiness b.wentStale
    · rw [State.staleDue_same, Option.any_some, if_neg due]
      · exact State.bathBecomes_self hb
      · intro c y hc hy
        rw [← Option.some.inj (hb.symm.trans hc), hx] at hy
        rw [← Option.some.inj hy]
        exact Bool.eq_false_iff.2 due

theorem State.convertArea_becomes (hb : s.bath? st = some b) : s.BathBecomes st b.converted (s.convertArea st) := by
  unfold Bath.converted
  split
  · rename_i whole
    rw [State.convertArea_reached hb whole, State.post_of_maskable _ .p0 rfl]
    rfl
  · rename_i below
    rw [State.convertArea_below hb (Nat.not_le.1 below)]
    exact State.bathBecomes_self hb

/-- R97: the conversion of whole quanta posts REPLENISH with the debt it leaves. -/
theorem State.convertArea_port0 (hb : s.bath? st = some b) : (s.convertArea st).port0 =
    if b.settings.quantum ≤ b.area then
      s.port0.push (plainNotice .replenish s.lineTime none (some st) b.converted.debt)
    else s.port0 := by
  unfold Bath.converted
  split
  · rename_i whole
    rw [State.convertArea_reached hb whole, State.post_of_maskable _ .p0 rfl]
    rfl
  · rename_i below
    rw [State.convertArea_below hb (Nat.not_le.1 below)]

/-- R85: the state before a stale compare that may be due, and before the conversion. -/
def State.rewritten (s : State) (st : Nat) (b : Bath) (n : BathSettings) : State :=
  ((s.storeBath st b (b.resettle n)).told st b.readiness (b.resettle n).placed).setBath st (some (b.rewritten n))

theorem State.rewritten_becomes (s : State) (st : Nat) (b : Bath) (n : BathSettings) :
    s.BathBecomes st (b.rewritten n) (s.rewritten st b n) :=
  (State.storeBath_becomes s st b _).trans
    ((State.told_becomes _ st b.readiness (b.resettle n).placed).trans (u := s.rewritten st b n) rfl)

section
variable (hb : s.bath? st = some b)
include hb

theorem State.writeSettings_eq (n : BathSettings) :
    s.writeSettings st b n = ((s.rewritten st b n).staleDue st).convertArea st := by
  have inside := State.bath_bound hb
  have stored := (State.storeBath_becomes s st b (b.resettle n)).bath inside
  have readiness : (b.resettle n).readiness = b.readiness := by rw [b.resettle_rest n]
  unfold State.writeSettings State.rewritten
  rw [State.placeInService_eq stored, readiness, State.modBath_eq ((State.told_becomes _ _ _ _).bath inside)]
  rfl

theorem State.writeSettings_becomes (n : BathSettings) :
    s.BathBecomes st (b.reset n s.lineTime) (s.writeSettings st b n) := by
  have inside := State.bath_bound hb
  have rewritten := s.rewritten_becomes st b n
  have compared := State.staleDue_becomes (rewritten.bath inside)
  have time : (s.rewritten st b n).lineTime = s.lineTime := (keptByRescue_storeBath s st b (b.resettle n)).lineTime
  rw [time] at compared
  rw [State.writeSettings_eq hb]
  exact (rewritten.trans compared).trans (State.convertArea_becomes (compared.bath inside))

/-- R89, R97: the notices of a SET-BATH whose stale compare is not due: those of the signals its rate brings, then BATH-STATE, then
REPLENISH. Where the rate remakes nothing the channels are left too. -/
theorem State.writeSettings_told (hd : b.debt ≤ 15) (h : b.Unreached n s.lineTime) : ∃ l, SignalNotices l
    ∧ (((b.reset n s.lineTime).rate = b.rate ∨ ∀ h ∈ s.hangers, ¬ h.imm.RunsIn st) →
      l = [] ∧ (s.writeSettings st b n).channels = s.channels)
    ∧ (s.writeSettings st b n).port0 =
      if n.quantum ≤ b.area then
        (readinessTold (l.foldl Port.push s.port0) s.lineTime st b.readiness (b.reset n s.lineTime).readiness).push
          (plainNotice .replenish s.lineTime none (some st) (b.reset n s.lineTime).debt)
      else readinessTold (l.foldl Port.push s.port0) s.lineTime st b.readiness (b.reset n s.lineTime).readiness := by
  have inside := State.bath_bound hb
  obtain ⟨-, -, -, -, -, -, rate, -⟩ := b.reset_fields hd n s.lineTime
  obtain ⟨-, -, readiness⟩ := Bath.reset_unreached hd h
  have time : (s.rewritten st b n).lineTime = s.lineTime := (keptByRescue_storeBath s st b (b.resettle n)).lineTime
  have found := (s.rewritten_becomes st b n).bath inside
  have undue : (s.rewritten st b n).staleDue st = s.rewritten st b n := State.staleDue_same (fun c x hc hx => by
    rw [← Option.some.inj (found.symm.trans hc)] at hx
    rw [time]
    exact h x hx)
  obtain ⟨l, kinds, quiet, posted⟩ := s.storeBath_port0 st b (b.resettle n)
  have told : (s.rewritten st b n).port0 =
      readinessTold (l.foldl Port.push s.port0) s.lineTime st b.readiness (b.reset n s.lineTime).readiness := by
    rw [readiness, ← posted, ← time]
    rfl
  have reset : (b.rewritten n).converted = b.reset n s.lineTime := by
    unfold Bath.reset
    rw [Bath.compared_unreached h]
  have fields : (b.rewritten n).settings.quantum = n.quantum ∧ (b.rewritten n).area = b.area := by
    rw [b.rewritten_eq n]
    exact ⟨rfl, rfl⟩
  rw [State.writeSettings_eq hb, undue]
  refine ⟨l, kinds, fun idle => ⟨quiet (rate ▸ idle), ?_⟩, ?_⟩
  · rw [State.convertArea_channels]
    unfold State.rewritten
    rw [State.storeBath_idle (rate ▸ idle)]
    rfl
  · rw [State.convertArea_port0 found, fields.1, fields.2, told, time, reset]

end

theorem State.writeSettings_frame {k : Nat} : KeepsSettings s ((s.opened .p0 k).writeSettings st b n) ∧
    ((s.opened .p0 k).writeSettings st b n).stations = s.stations ∧ ((s.opened .p0 k).writeSettings st b n).recipes = s.recipes
    ∧ ((s.opened .p0 k).writeSettings st b n).startOrder = s.startOrder
    ∧ ((s.opened .p0 k).writeSettings st b n).gantryA = s.gantryA
    ∧ ((s.opened .p0 k).writeSettings st b n).gantryB = s.gantryB :=
  (keptByRescue_storeBath (s.opened .p0 k) st b _).request_frame (State.followed_writeSettings _ st b n).kept

/-! ### SET-BATH (R84) -/

/-- R84: SET-BATH of an active bath: the two tests on the clamped settings, then the settings. -/
theorem setBathRequest_active (hb : s.bath? st = some b) (c : BathSettings) : setBathRequest st c s =
    if c.clamped.rmax < c.clamped.rmin then (s, Reply.bare .badArg)
    else if c.clamped.trip ≤ c.clamped.band then (s, Reply.bare .badArg)
    else (s.writeSettings st b c.clamped, Reply.bare (if c.clamped = c then .ok else .clamped)) :=
  withBath_active (Nat.le_of_lt_succ (State.bath_bound hb)) hb _

theorem answers_setBath {c : BathSettings} {q : Reply} (hp : PortFree s .p0) (h : setBathRequest st c (s.opened .p0 28) = (t, q)) :
    Answers (.setBath st c) s .p0 t q :=
  Answers.of_rule (c := 0x30) (l := bytes1 st ++ c.bytes) rfl hp (by
    rw [show 2 + (bytes1 st ++ c.bytes).length = 28 by simp]
    exact h)

/-- Settles O24: the record of `Bath.reset`, the stale compare due or not, and the notices where it is not. -/
theorem setBathReplacesTheSettings : Obligations.SetBathReplacesTheSettings := by
  intro st c b s hp hb
  have inside := State.bath_bound hb
  have rule := setBathRequest_active (s := s.opened .p0 28) hb c
  refine ⟨c.clamped, clamped_eq c, fun crossed => answers_setBath hp (rule.trans ?_), fun rates limits owed =>
    ⟨(s.opened .p0 28).writeSettings st b c.clamped, b.reset c.clamped s.lineTime, answers_setBath hp (rule.trans ?_), ?_⟩⟩
  · by_cases rates : c.clamped.rmax < c.clamped.rmin
    · exact if_pos rates
    · rw [if_neg rates]
      exact if_pos (crossed.resolve_left rates)
  · rw [if_neg (by omega), if_neg (by omega)]
  · have becomes := State.writeSettings_becomes (s := s.opened .p0 28) hb c.clamped
    obtain ⟨settings, latest, used, cause, area, debt, rate, deviation⟩ := b.reset_fields owed c.clamped s.lineTime
    refine ⟨becomes.bath inside, becomes.others inside, settings, latest, used, cause, area, debt, fun stands => ?_,
      fun x free read => ?_, fun waits => ?_, State.writeSettings_frame⟩
    · rw [rate, deviation]
      exact Bath.resettle_stands stands c.clamped
    · obtain ⟨remade, remadeRate⟩ := Bath.resettle_remade free read c.clamped
      rw [rate, deviation, remadeRate, remade]
      exact ⟨deviationOf_eq _ _, rateFor_eq rates _⟩
    · have unreached : b.Unreached c.clamped s.lineTime := Bath.unreached_of waits
      obtain ⟨compare, held, readiness⟩ := Bath.reset_unreached owed unreached
      obtain ⟨l, kinds, quiet, posted⟩ := State.writeSettings_told (s := s.opened .p0 28) hb owed unreached
      exact ⟨compare.trans (b.rewritten_staleCompare _), held, readiness.trans (b.resettle_placed _),
        l, _, kinds, quiet, rfl, posted⟩

end Sys2Proof.Machine
end

