-- ==== Sys2Proof/Proofs/UrgencyOrder.lean ====
section
/-! PROOFS. The urgency order (R111): the comparison of two moves, the insertion that places them, and what a claim offers. -/

namespace Sys2Proof.Machine

/-! ### The comparison of two moves (R34, R61, R111) -/

/-- R34: of two admission sequences at most one is the older. -/
theorem olderSeq_asymm {x y : Seq} (h : olderSeq x y = true) : olderSeq y x = false := by
  simp only [olderSeq, Bool.and_eq_true, decide_eq_true_eq, Bool.and_eq_false_imp, decide_eq_false_iff_not] at *
  obtain ⟨low, high⟩ := h
  rw [BitVec.toNat_sub] at *
  have := x.isLt
  have := y.isLt
  omega

theorem tieBefore_asymm {a b : Move} (h : tieBefore a b = true) : tieBefore b a = false := by
  have ids : decide (a.id < b.id) = true → decide (b.id < a.id) = false := by
    simp only [decide_eq_true_eq, decide_eq_false_iff_not]
    omega
  unfold tieBefore at *
  cases ha : a.seq <;> cases hb : b.seq <;> simp only [ha, hb] at h ⊢
  case some.some x y =>
    by_cases e : x = y
    · rw [if_pos e] at h
      rw [if_pos e.symm]
      exact ids h
    · rw [if_neg e] at h
      rw [if_neg (Ne.symm e)]
      exact olderSeq_asymm h
  all_goals exact ids h

theorem urgentBefore_asymm {a b : Move} (h : urgentBefore a b = true) : urgentBefore b a = false := by
  have keys : ∀ x y : LineTime, (if x = y then tieBefore a b else earlier x y) = true →
      (if y = x then tieBefore b a else earlier y x) = false := by
    intro x y h
    by_cases e : x = y
    · rw [if_pos e] at h
      rw [if_pos e.symm]
      exact tieBefore_asymm h
    · rw [if_neg e] at h
      rw [if_neg (Ne.symm e)]
      exact earlier_asymm h
  unfold urgentBefore at *
  cases ha : a.deadline <;> cases hb : b.deadline <;> simp only [ha, hb] at h ⊢
  case none.none => exact keys _ _ h
  case some.some x y => exact keys _ _ h
  case none.some => cases h

theorem TieGoesTo.tieBefore {a b : Move} (h : TieGoesTo a b) : tieBefore a b = true := by
  unfold Machine.tieBefore
  obtain ⟨x, y, ha, hb, low, high⟩ | ⟨same, lower⟩ := h
  · have differ : x ≠ y := by
      rintro rfl
      simp at low
    rw [ha, hb]
    dsimp only
    rw [if_neg differ, olderSeq, Bool.and_eq_true, decide_eq_true_eq, decide_eq_true_eq]
    exact ⟨low, high⟩
  · cases hb : b.seq <;> simp [same, hb, lower]

theorem MoreUrgent.urgentBefore {a b : Move} (h : MoreUrgent a b) : urgentBefore a b = true := by
  have keys : ∀ x y : LineTime, earlier x y = true ∨ (x = y ∧ TieGoesTo a b) →
      (if x = y then tieBefore a b else earlier x y) = true := by
    rintro x y (first | ⟨rfl, tie⟩)
    · rw [if_neg (fun e => by rw [e, earlier_irrefl] at first; cases first)]
      exact first
    · rw [if_pos rfl]
      exact tie.tieBefore
  unfold Machine.urgentBefore
  obtain ⟨x, y, ha, hb, first⟩ | ⟨ha, hb⟩ | ⟨ha, hb, first⟩ := h
  · rw [ha, hb]
    exact keys x y first
  · obtain ⟨x, ha⟩ := Option.ne_none_iff_exists'.1 ha
    rw [ha, hb]
  · rw [ha, hb]
    exact keys _ _ first

/-! ### The insertion (log 14) -/

theorem insertUrgent_perm (m : Move) (l : List Move) : (insertUrgent m l).Perm (m :: l) := by
  induction l with
  | nil => rfl
  | cons x xs ih =>
    unfold insertUrgent
    split
    · exact (ih.cons x).trans (List.Perm.swap m x xs)
    · rfl

/-- Each move but the last stands before one that is not more urgent. -/
def Ranked (l : List Move) : Prop := l.IsChain (fun a b => ¬ MoreUrgent b a)

theorem ranked_insertUrgent (m : Move) {l : List Move} (h : Ranked l) : Ranked (insertUrgent m l) := by
  induction l with
  | nil => exact List.isChain_singleton m
  | cons x xs ih =>
    obtain ⟨next, rest⟩ := List.isChain_cons.1 h
    unfold insertUrgent
    split
    · rename_i first
      have ahead : ¬ MoreUrgent m x := fun e => by
        have := urgentBefore_asymm first
        rw [e.urgentBefore] at this
        cases this
      refine (ih rest).cons (fun y hy => ?_)
      cases xs with
      | nil => cases hy; exact ahead
      | cons z zs =>
        unfold insertUrgent at hy
        split at hy
        · exact next y hy
        · cases hy; exact ahead
    · rename_i behind
      exact h.cons (fun y hy => by cases hy; exact fun e => behind e.urgentBefore)

namespace State

variable (s : State)

theorem urgencyOrder_perm : s.urgencyOrder.Perm (s.moves.filter (fun m => m.kind != .yielding)) := by
  unfold State.urgencyOrder
  induction s.moves.filter (fun m => m.kind != .yielding) with
  | nil => rfl
  | cons m l ih => exact (insertUrgent_perm m _).trans (ih.cons m)

theorem ranked_urgencyOrder : Ranked s.urgencyOrder := by
  unfold State.urgencyOrder
  induction s.moves.filter (fun m => m.kind != .yielding) with
  | nil => exact List.isChain_nil
  | cons m l ih => exact ranked_insertUrgent m ih

/-- R109, R113: a claim offers the READY moves of hangers. -/
theorem mem_offered_iff (m : Move) : m ∈ s.offered ↔ m ∈ s.moves ∧ m.state = .ready ∧ m.kind ≠ .yielding := by
  unfold State.offered
  rw [List.mem_filter, s.urgencyOrder_perm.mem_iff, List.mem_filter, beq_iff_eq, bne_iff_ne]
  tauto

end State

end Sys2Proof.Machine
end

