-- ==== Sys2Proof/Proofs/ClaimTests.lean ====
section
/-! PROOFS. The tests of a claim in the words of their rules: the target, the gate, the reach, the zone and the
protection (O35). -/

namespace Sys2Proof.Machine

/-! ### Targets (R20, R36) -/

theorem followingTarget_iff (v : List RecipeStep) (k : Nat) (x : Target) : followingTarget v k = some x ↔ IsFollowing v k x := by
  unfold followingTarget IsFollowing
  by_cases last : k + 1 = v.length
  · have none : v[k + 1]? = none := List.getElem?_eq_none (le_of_eq last.symm)
    rw [if_pos last]
    cases x with
    | exit => simpa using last
    | step j group =>
      simp only [Option.some.injEq, reduceCtorEq, false_iff]
      rintro ⟨rfl, f, hf, -⟩
      rw [none] at hf
      cases hf
  · rw [if_neg last]
    cases x with
    | exit => cases v[k + 1]? <;> simp [last]
    | step j group =>
      have swap : (∃ f, v[k + 1]? = some f ∧ k + 1 = j ∧ f.group = group) ↔ j = k + 1 ∧ ∃ f, v[j]? = some f ∧ f.group = group :=
        ⟨fun ⟨f, hf, e, hg⟩ => ⟨e.symm, f, e ▸ hf, hg⟩, fun ⟨e, f, hf, hg⟩ => ⟨f, e ▸ hf, e.symm, hg⟩⟩
      refine Iff.trans ?_ swap
      cases v[k + 1]? <;> simp

theorem State.target_iff (s : State) (h : Hanger) (x : Target) : s.target? h = some x ↔ IsTarget s h x := by
  unfold State.target? IsTarget
  dsimp only
  cases run : h.run with
  | nil =>
    have none : ¬ (([] : List RunEntry) ≠ [] ∧ IsFollowing (s.recipe h.recipe).active h.step x) := fun e => e.1 rfl
    rw [or_iff_left none, List.isEmpty_nil, if_pos rfl]
    cases (s.recipe h.recipe).active[0]? <;> simp [eq_comm]
  | cons e es =>
    have following := followingTarget_iff (s.recipe h.recipe).active h.step x
    simpa using following

namespace State

variable (s : State) (g : GantryId)

/-! ### Estimate, gate, reach, zone and protection -/

/-- R120: the travel is rounded up. -/
theorem estimateFor_eq (m : Move) (d : SlotRef) : s.estimateFor g m d = moveEstimate s g m d := by
  unfold State.estimateFor moveEstimate travelTime ceilDiv
  dsimp only
  rw [railDistance_eq, railDistance_eq]
  omega

/-- R122: a tag names a hanger that its recipe does not hold. -/
def freeOfRecipe (tag : Nat) : Bool := (s.hanger? tag).any (fun h => !s.heldByRecipe h)

theorem freeOfRecipe_iff (tag : Nat) : s.freeOfRecipe tag = true ↔ ∃ h, s.hanger? tag = some h ∧ ¬ HeldByRecipe s h := by
  unfold State.freeOfRecipe
  cases s.hanger? tag <;> simp [← State.heldByRecipe_iff]

theorem gateHanger_eq : s.gateHanger? = s.startOrder.find? s.freeOfRecipe := by
  unfold State.gateHanger?
  congr 1
  funext tag
  unfold State.freeOfRecipe
  cases s.hanger? tag <;> rfl

/-- R122: the gate hanger stands before every other of the start order that its recipe does not hold. -/
theorem gateHanger_iff (tag : Nat) : s.gateHanger? = some tag ↔ ∃ h before after, s.hanger? tag = some h ∧ ¬ HeldByRecipe s h
    ∧ s.startOrder = before ++ tag :: after ∧ ∀ x ∈ before, ∀ e, s.hanger? x = some e → HeldByRecipe s e := by
  rw [gateHanger_eq, List.find?_eq_some_iff_append, freeOfRecipe_iff]
  simp only [Bool.not_eq_true', ← Bool.not_eq_true, freeOfRecipe_iff]
  constructor
  · rintro ⟨⟨h, hh, free⟩, before, after, order, held⟩
    exact ⟨h, before, after, hh, free, order, fun x hx e he => by_contra (fun n => held x hx ⟨e, he, n⟩)⟩
  · rintro ⟨h, before, after, hh, free, order, held⟩
    exact ⟨⟨h, hh, free⟩, before, after, order, fun x hx ⟨e, he, n⟩ => n (held x hx e he)⟩

theorem gatePasses_iff (m : Move) : s.gatePasses m = true ↔ GatePermits s m := by
  unfold State.gatePasses GatePermits
  by_cases entry : m.kind = .entry
  · cases tag : m.tag with
    | none => simp [entry]
    | some t =>
      have gate := s.gateHanger_iff t
      simp only [entry, bne_self_eq_false, Option.isSome_some, Bool.true_and, Bool.false_or, beq_iff_eq, gate, forall_const,
        Option.some.injEq]
      constructor
      · rintro ⟨h, before, after, rest⟩
        exact ⟨t, h, before, after, rfl, rest⟩
      · rintro ⟨t', h, before, after, rfl, rest⟩
        exact ⟨h, before, after, rest⟩
  · simp [entry]

/-- R115, for a move whose To is no coordinate. -/
theorem reachPasses_iff {m : Move} (slots : ∀ x, m.dest ≠ some (.point x)) : s.reachPasses g m = true ↔ ReachPermits s g m := by
  unfold State.reachPasses ReachPermits
  cases m.source with
  | point x => simp
  | slot f =>
    cases dest : m.dest with
    | none => simp [Gantry.reaches_iff]
    | some p =>
      cases p with
      | slot d => simp [Gantry.reaches_iff]
      | point x => exact absurd dest (slots x)

theorem spanTest_iff (m : Move) (d : SlotRef) :
    s.spanTest g (s.spanLowFor g m d) (s.spanHighFor g m d) = true ↔ ZonePermits s g m d := by
  cases g <;> exact decide_eq_true_iff

/-- R121: what protects a gantry against a move of an estimate. -/
theorem protects_iff (e : Nat) (x : Move) : s.protects g e x = true ↔ StrictExit s x ∧ (x.state = .waiting ∨ x.state = .ready)
    ∧ (∃ a b, x.source = .slot a ∧ x.dest = some (.slot b) ∧ InReach s g a.station ∧ InReach s g b.station)
    ∧ reached (s.lineTime + BitVec.ofNat 32 e) x.ready = true := by
  have fixed : (x.dest.isSome = true ∧ s.reachPasses g x = true) ↔
      ∃ a b, x.source = .slot a ∧ x.dest = some (.slot b) ∧ InReach s g a.station ∧ InReach s g b.station := by
    unfold State.reachPasses
    cases x.source with
    | point c => simp
    | slot f =>
      cases x.dest with
      | none => simp
      | some p => cases p <;> simp [Gantry.reaches_iff]
  unfold State.protects
  simp only [Bool.and_eq_true, Bool.or_eq_true, beq_iff_eq, State.strictExit_iff, ← fixed, plus]
  tauto

theorem protectionPasses_iff (m : Move) (d : SlotRef) : s.protectionPasses g m d = true ↔ ProtectionPermits s g m d := by
  unfold State.protectionPasses ProtectionPermits
  rw [Bool.or_eq_true, State.strictExit_iff, Bool.not_eq_true', ← Bool.not_eq_true, List.any_eq_true]
  refine or_congr_right ?_
  simp only [protects_iff, estimateFor_eq, not_exists, not_and, Bool.not_eq_true]
end State
end Sys2Proof.Machine
end

