-- ==== Sys2Proof/Proofs/ClaimRoutes.lean ====
section
/-! PROOFS. The reservation of a route (R123) slot by slot, the destination test in the words of R116 to R118, and the tests of a
claim in their order (O35). -/

namespace Sys2Proof.Machine

/-! ### The reservation of a route -/

/-- The state `t` is `s` with slot `r` written. -/
structure SlotWritten (s t : State) (r : SlotRef) (x : Slot) : Prop where
  rest : t = { s with stations := t.stations }
  slot : ∀ q, t.slotAt q = if q = r then x else s.slotAt q
  fields : KeepsStationFields s t

namespace State

variable {s t : State} {tag : Nat} {d f : SlotRef}

theorem slotWritten_self {r : SlotRef} {x : Slot} (h : s.slotAt r = x) : SlotWritten s s r x where
  rest := rfl
  slot q := by
    split
    · rename_i e; rw [e, h]
    · rfl
  fields _ := rfl

theorem slotWritten_setSlot (s : State) {r : SlotRef} (x : Slot) (station : r.station < 24) (slot : r.slot < 4) :
    SlotWritten s (s.setSlot r x) r x where
  rest := rfl
  slot := State.slotAt_setSlot station slot
  fields st := by
    rw [State.station_setSlot s station]
    split <;> rfl

theorem slotWritten_of_reserve {r : SlotRef} {k : ReservationKind} (inside : r.slot < (s.station r.station).slotCount → r.slot < 4)
    (h : s.reserve r tag k = some t) : s.slotAt r = .free ∧ SlotWritten s t r (.reserved tag k) := by
  unfold State.reserve at h
  split at h
  · rename_i free
    obtain ⟨exists_, free⟩ := free
    obtain ⟨configured, below⟩ := (Station.hasSlot_iff _ _).1 exists_
    cases h
    exact ⟨free, slotWritten_setSlot s _ (Nat.lt_succ_of_le (State.configured_bound configured)) (inside below)⟩
  · cases h

/-- R123: the destination becomes RESERVED DESTINATION. -/
def holdDestination (s : State) (tag : Nat) (d : SlotRef) : Option State :=
  if s.slotAt d = .reserved tag .destination then some s
  else if s.slotAt d = .reserved tag .forward then s.convert d tag
  else s.reserve d tag .destination

/-- R123: a new forward slot becomes RESERVED FORWARD. -/
def holdForward (s : State) (tag : Nat) (f : SlotRef) : Option State :=
  if s.slotAt f = .reserved tag .forward then some s else s.reserve f tag .forward

theorem reserveRoute_none : s.reserveRoute tag d none = s.holdDestination tag d := rfl

theorem reserveRoute_some : s.reserveRoute tag d (some f) = (s.holdDestination tag d).bind (fun t => t.holdForward tag f) := rfl

theorem holdDestination_written (inside : d.slot < (s.station d.station).slotCount → d.slot < 4)
    (h : s.holdDestination tag d = some t) : SlotWritten s t d (.reserved tag .destination) := by
  unfold holdDestination at h
  split at h
  · rename_i held
    cases h
    exact slotWritten_self held
  · split at h
    · rename_i held
      rw [State.convert_of held] at h
      cases h
      obtain ⟨station, slot⟩ := slot_bound (s := s) (r := d) (by rw [held]; simp)
      exact slotWritten_setSlot s _ station slot
    · exact (slotWritten_of_reserve inside h).2

theorem holdForward_written (inside : f.slot < (s.station f.station).slotCount → f.slot < 4) (h : s.holdForward tag f = some t) :
    (s.slotAt f = .free ∨ s.slotAt f = .reserved tag .forward) ∧ SlotWritten s t f (.reserved tag .forward) := by
  unfold holdForward at h
  split at h
  · rename_i held
    cases h
    exact ⟨Or.inr held, slotWritten_self held⟩
  · obtain ⟨free, written⟩ := slotWritten_of_reserve inside h
    exact ⟨Or.inl free, written⟩

theorem holdDestination_of (h : (s.slotAt d).reservedFor tag = true
    ∨ (s.station d.station).hasSlot d.slot = true ∧ s.slotAt d = .free) : ∃ t, s.holdDestination tag d = some t := by
  unfold holdDestination
  rcases h with held | ⟨exists_, free⟩
  · cases at_ : s.slotAt d with
    | reserved tag' k =>
      obtain rfl : tag' = tag := by simpa [at_, Slot.reservedFor] using held
      cases k with
      | destination => exact ⟨s, if_pos rfl⟩
      | forward => exact ⟨_, (if_neg (by simp)).trans ((if_pos rfl).trans (State.convert_of at_))⟩
    | _ => simp [at_, Slot.reservedFor] at held
  · rw [if_neg (by rw [free]; simp), if_neg (by rw [free]; simp)]
    exact ⟨_, State.reserve_of exists_ free tag .destination⟩

theorem holdForward_of (h : s.slotAt f = .reserved tag .forward
    ∨ (s.station f.station).hasSlot f.slot = true ∧ s.slotAt f = .free) : ∃ t, s.holdForward tag f = some t := by
  unfold holdForward
  rcases h with held | ⟨exists_, free⟩
  · exact ⟨s, if_pos held⟩
  · rw [if_neg (by rw [free]; simp)]
    exact ⟨_, State.reserve_of exists_ free tag .forward⟩

theorem hasSlot_congr (h : KeepsStationFields s t) (r : SlotRef) :
    (t.station r.station).hasSlot r.slot = (s.station r.station).hasSlot r.slot := by
  rw [← h r.station]
  rfl

end State

/-- A slot is within the four of a station whenever it lies below the station's slot count (R2). -/
def SlotInside (s : State) (r : SlotRef) : Prop := r.slot < (s.station r.station).slotCount → r.slot < 4

/-- R123: what a route's reservation leaves: both slots reserved, and nothing else touched. -/
structure RouteReserved (s t : State) (tag : Nat) (d : SlotRef) (f : Option SlotRef) : Prop where
  rest : t = { s with stations := t.stations }
  fields : KeepsStationFields s t
  destination : t.slotAt d = .reserved tag .destination
  distinct : f ≠ some d
  ahead : ∀ r, f = some r → t.slotAt r = .reserved tag .forward
  others : ∀ r, r ≠ d → f ≠ some r → t.slotAt r = s.slotAt r

theorem State.routeReserved_of_reserveRoute {s t : State} {tag : Nat} {d : SlotRef} {f : Option SlotRef} (inside : SlotInside s d)
    (ahead : ∀ r, f = some r → SlotInside s r) (h : s.reserveRoute tag d f = some t) : RouteReserved s t tag d f := by
  cases f with
  | none =>
    rw [State.reserveRoute_none] at h
    have written := State.holdDestination_written inside h
    exact { rest := written.rest, fields := written.fields, destination := by rw [written.slot, if_pos rfl], distinct := by simp
            ahead := fun r e => by cases e
            others := fun r away _ => by rw [written.slot, if_neg away] }
  | some f =>
    rw [State.reserveRoute_some] at h
    obtain ⟨u, first, second⟩ := Option.bind_eq_some_iff.1 h
    have written := State.holdDestination_written inside first
    have inside' : SlotInside u f := fun below => ahead f rfl (by rw [← written.fields f.station]; exact below)
    obtain ⟨open_, written'⟩ := State.holdForward_written inside' second
    have distinct : d ≠ f := by
      rintro rfl
      rw [written.slot, if_pos rfl] at open_
      rcases open_ with e | e <;> cases e
    exact { rest := by rw [written'.rest, written.rest]
            fields := fun st => by rw [← written.fields st, ← written'.fields st]
            destination := by rw [written'.slot, if_neg distinct, written.slot, if_pos rfl]
            distinct := fun e => distinct (Option.some.inj e).symm
            ahead := fun r e => by cases e; rw [written'.slot, if_pos rfl]
            others := fun r away away' => by
              rw [written'.slot, if_neg (fun e => away' (congrArg some e.symm)), written.slot, if_neg away] }

/-- R123: the two slots of a route can be reserved when each is free or holds the reservation it needs. -/
theorem State.reserveRoute_of {s : State} {tag : Nat} {d : SlotRef} {f : Option SlotRef} (inside : SlotInside s d)
    (hd : (s.slotAt d).reservedFor tag = true ∨ (s.station d.station).hasSlot d.slot = true ∧ s.slotAt d = .free)
    (hf : ∀ r, f = some r → r ≠ d ∧ (s.slotAt r = .reserved tag .forward
      ∨ (s.station r.station).hasSlot r.slot = true ∧ s.slotAt r = .free)) : ∃ t, s.reserveRoute tag d f = some t := by
  obtain ⟨u, first⟩ := State.holdDestination_of hd
  cases f with
  | none => exact ⟨u, first⟩
  | some f =>
    have written := State.holdDestination_written inside first
    obtain ⟨distinct, open_⟩ := hf f rfl
    rw [← State.hasSlot_congr written.fields, ← (written.slot f).trans (if_neg distinct)] at open_
    obtain ⟨t, second⟩ := State.holdForward_of open_
    exact ⟨t, by rw [State.reserveRoute_some, first]; exact second⟩

/-! ### The destination test (R116 to R118) -/

section

variable {s : State} {g : GantryId} {m : Move} {h : Hanger}

theorem State.moveTarget_of (tagged : m.tag = some h.tag) (found : s.hanger? h.tag = some h) : s.moveTarget? m = s.target? h := by
  unfold State.moveTarget?
  rw [tagged]
  dsimp only
  rw [found]
  rfl

theorem State.destinationFor_iff (slots : ∀ x, m.dest ≠ some (.point x)) (tagged : m.tag = some h.tag)
    (found : s.hanger? h.tag = some h) (d : SlotRef) : s.destinationFor g m = some d ↔
      (m.dest = some (.slot d) ∧ LoweringAccepted s d.station)
        ∨ (m.dest = none ∧ ∃ x, IsTarget s h x ∧ IsChosen s g x (s.coordOf m.source) d) := by
  unfold State.destinationFor
  cases dest : m.dest with
  | none =>
    simp only [State.moveTarget_of tagged found, Option.bind_eq_some_iff, State.target_iff, State.chooseSlot_iff]
    simp
  | some p =>
    cases p with
    | point x => exact absurd dest (slots x)
    | slot d' =>
      by_cases accepts : s.acceptsLowering d'.station = true
      · have lowering := (State.acceptsLowering_iff s _).1 accepts
        simp only [accepts, if_true, Option.some.injEq, Place.slot.injEq, reduceCtorEq, false_and, or_false]
        exact ⟨fun e => ⟨e, e ▸ lowering⟩, fun e => e.1⟩
      · have refused : ¬ LoweringAccepted s d'.station := fun e => accepts ((State.acceptsLowering_iff s _).2 e)
        simp only [accepts, Bool.false_eq_true, if_false, Option.some.injEq, Place.slot.injEq, reduceCtorEq, false_and, or_false,
          false_iff, not_and]
        rintro rfl
        exact refused

theorem Hanger.keptForward_iff (h : Hanger) (d r : SlotRef) : h.keptForward d = some r ↔ h.forward = some r ∧ r ≠ d := by
  unfold Hanger.keptForward
  rw [Option.filter_eq_some_iff, bne_iff_ne]

theorem Hanger.keptForward_none (h : Hanger) (d : SlotRef) : h.keptForward d = none ↔ h.forward = none ∨ h.forward = some d := by
  unfold Hanger.keptForward
  cases h.forward <;> simp [Option.filter_some]

theorem State.forwardFor_iff (d r : SlotRef) : s.forwardFor g h d = some r ↔
    (h.forward = some r ∧ r ≠ d ∧ LoweringAccepted s r.station)
      ∨ ((h.forward = none ∨ h.forward = some d) ∧ ∃ k group x, IsTarget s h (.step k group)
        ∧ IsFollowing (s.recipe h.recipe).active k x ∧ IsChosen s g x (s.station d.station).coordinate r) := by
  unfold State.forwardFor
  rw [← Hanger.keptForward_none]
  cases kept : h.keptForward d with
  | some q =>
    obtain ⟨forward, away⟩ := (h.keptForward_iff d q).1 kept
    by_cases accepts : s.acceptsLowering q.station = true
    · have lowering := (State.acceptsLowering_iff s _).1 accepts
      simp only [accepts, if_true, forward, Option.some.injEq, reduceCtorEq, false_and, or_false]
      exact ⟨fun e => e ▸ ⟨rfl, away, lowering⟩, fun e => e.1⟩
    · have refused : ¬ LoweringAccepted s q.station := fun e => accepts ((State.acceptsLowering_iff s _).2 e)
      simp only [accepts, Bool.false_eq_true, if_false, forward, Option.some.injEq, reduceCtorEq, false_and, or_false,
        false_iff, not_and]
      rintro rfl -
      exact refused
  | none =>
    have unkept : ¬ (h.forward = some r ∧ r ≠ d ∧ LoweringAccepted s r.station) := fun ⟨forward, away, _⟩ => by
      rw [(h.keptForward_iff d r).2 ⟨forward, away⟩] at kept
      cases kept
    rw [or_iff_right unkept]
    simp only [true_and, ← State.target_iff, ← followingTarget_iff]
    cases target : s.target? h with
    | none => simp
    | some x => cases x <;> simp [Option.bind_eq_some_iff, State.chooseSlot_iff]

/-- R116 to R118, R5: the destination test, its forward slot, and the reservation the station map allows. -/
theorem State.routeFor_eq_some_iff (tagged : m.tag = some h.tag) (found : s.hanger? h.tag = some h) (d : SlotRef)
    (f : Option SlotRef) : s.routeFor g m = some (d, f) ↔ s.destinationFor g m = some d
      ∧ (if (s.station d.station).cls = .strict then ∃ r, f = some r ∧ s.forwardFor g h d = some r else f = none)
      ∧ ∃ t, s.reserveRoute h.tag d f = some t := by
  have bound : m.tag.bind s.hanger? = some h := by rw [tagged]; exact found
  unfold State.routeFor
  rw [bound]
  cases destination : s.destinationFor g m with
  | none => simp
  | some d' =>
    dsimp only
    rw [Option.filter_eq_some_iff, Option.isSome_iff_exists, Option.some.injEq, ← and_assoc]
    refine and_congr_left' ?_
    split
    · rename_i strict
      rw [Option.map_eq_some_iff]
      constructor
      · rintro ⟨r, hr, e⟩
        cases e
        exact ⟨rfl, by rw [if_pos strict]; exact ⟨r, rfl, hr⟩⟩
      · rintro ⟨rfl, hr⟩
        rw [if_pos strict] at hr
        obtain ⟨r, rfl, hr⟩ := hr
        exact ⟨r, hr, rfl⟩
    · rename_i other
      constructor
      · intro e
        cases e
        exact ⟨rfl, if_neg other ▸ rfl⟩
      · rintro ⟨rfl, hf⟩
        rw [if_neg other] at hf
        rw [hf]

/-! ### The route under the agreement of moves and slots (R4, R5, R35) -/

theorem IsChosen.free {x : Target} {c : Nat} {r : SlotRef} (h : IsChosen s g x c r) :
    (s.station r.station).hasSlot r.slot = true ∧ s.slotAt r = .free := by
  obtain ⟨⟨-, configured, -⟩, -, below, free, -⟩ := h
  exact ⟨(Station.hasSlot_iff _ _).2 ⟨configured, below⟩, free⟩

/-- R101: the To of a hanger's move is no coordinate. -/
theorem MovesAgree.dest_slot (moves : MovesAgree s) (hm : m ∈ s.moves) (kind : m.kind ≠ .yielding) (x : Nat) :
    m.dest ≠ some (.point x) := by
  obtain ⟨-, -, -, each, -⟩ := moves
  obtain ⟨⟨-, others, -⟩, -⟩ := each m hm
  exact (others kind).2.1 x

/-- R5: the slot a READY move leads to is RESERVED for its hanger. -/
theorem SlotsAgree.dest_reserved (slots : SlotsAgree s) (hm : m ∈ s.moves) (ready : m.state = .ready) (tagged : m.tag = some h.tag)
    (found : s.hanger? h.tag = some h) {d : SlotRef} (leads : m.dest = some (.slot d)) : (s.slotAt d).reservedFor h.tag = true := by
  obtain ⟨-, -, each, -⟩ := slots
  obtain ⟨reserved, -⟩ := each m hm h d (by rw [ready]; decide) tagged found
  exact (reserved leads).1

/-- R117: a forward slot that a READY move does not lead to is RESERVED FORWARD. -/
theorem SlotsAgree.forward (slots : SlotsAgree s) (moves : MovesAgree s) (hm : m ∈ s.moves) (ready : m.state = .ready)
    (tagged : m.tag = some h.tag) (found : s.hanger? h.tag = some h) {r : SlotRef} (forward : h.forward = some r)
    (away : m.dest ≠ some (.slot r)) : s.slotAt r = .reserved h.tag .forward := by
  obtain ⟨named, hangers, -⟩ := slots
  obtain ⟨-, -, -, each, bears, gantries, -⟩ := moves
  have live := (State.mem_of_hanger found).1
  have unplaced : m.state ≠ .placed := by rw [ready]; decide
  have bearing := ((each m hm).2.2 unplaced h.tag tagged).2
  have reserved := ((hangers h live).2 r forward).1
  have agrees := named r
  unfold SlotAgrees at agrees
  cases at_ : s.slotAt r with
  | reserved tag k =>
    obtain rfl : tag = h.tag := by simpa [at_, Slot.reservedFor] using reserved
    cases k with
    | forward => rfl
    | destination =>
      rw [at_] at agrees
      obtain ⟨h', -, ⟨x, hx, leads⟩ | ⟨g, riding, held⟩⟩ := agrees
      · rw [bearing] at hx
        cases hx
        exact absurd leads away
      · obtain ⟨-, y, hy, stranded, -⟩ := (gantries g).2.2.2 _ held
        rw [found] at hy
        cases hy
        have := bears h live
        unfold HangerAgrees at this
        rw [stranded] at this
        rw [this.1] at bearing
        cases bearing
  | _ => simp [at_, Slot.reservedFor] at reserved

/-- R116 to R118: what the destination test fixes of a READY hanger move. -/
theorem State.routeFor_iff (moves : MovesAgree s) (slots : SlotsAgree s) (counts : ∀ st, (s.station st).slotCount ≤ 4)
    (hm : m ∈ s.moves) (ready : m.state = .ready) (kind : m.kind ≠ .yielding) (tagged : m.tag = some h.tag)
    (found : s.hanger? h.tag = some h) (d : SlotRef) (f : Option SlotRef) :
    s.routeFor g m = some (d, f) ↔ RoutePermits s g m h d f := by
  have inside : ∀ r, SlotInside s r := fun r below => lt_of_lt_of_le below (counts r.station)
  rw [State.routeFor_eq_some_iff tagged found, State.destinationFor_iff (moves.dest_slot hm kind) tagged found]
  unfold RoutePermits
  refine and_congr_right (fun destination => ?_)
  by_cases strict : (s.station d.station).cls = .strict
  · rw [if_pos strict, and_iff_right (fun other => absurd strict other), forall_prop_of_true strict]
    constructor
    · rintro ⟨⟨r, rfl, ahead⟩, t, reserved⟩
      have distinct := (State.routeReserved_of_reserveRoute (inside d) (fun r _ => inside r) reserved).distinct
      refine ⟨r, rfl, fun e => distinct (congrArg some e), ?_⟩
      exact ((State.forwardFor_iff d r).1 ahead).imp_left (fun ⟨forward, _, lowering⟩ => ⟨forward, lowering⟩)
    · rintro ⟨r, rfl, distinct, ahead⟩
      have forward := (State.forwardFor_iff d r).2 (ahead.imp_left (fun ⟨forward, lowering⟩ => ⟨forward, distinct, lowering⟩))
      refine ⟨⟨r, rfl, forward⟩, ?_⟩
      refine State.reserveRoute_of (inside d) ?_ (fun q e => ?_)
      · exact destination.imp (fun e => slots.dest_reserved hm ready tagged found e.1) (fun ⟨_, x, _, chosen⟩ => chosen.free)
      · cases e
        refine ⟨distinct, ahead.imp (fun ⟨forward, _⟩ => ?_) (fun ⟨_, _, _, _, _, _, chosen⟩ => chosen.free)⟩
        refine slots.forward moves hm ready tagged found forward (fun leads => ?_)
        rcases destination with ⟨leads', -⟩ | ⟨none, -⟩
        · rw [leads] at leads'
          cases leads'
          exact distinct rfl
        · rw [leads] at none
          cases none
  · rw [if_neg strict, and_iff_left (fun e => absurd e strict), forall_prop_of_true strict]
    refine and_iff_left_of_imp (fun none => ?_)
    refine State.reserveRoute_of (inside d) ?_ (fun q e => by rw [none] at e; cases e)
    exact destination.imp (fun e => slots.dest_reserved hm ready tagged found e.1) (fun ⟨_, x, _, chosen⟩ => chosen.free)

end

/-! ### The tests in their order (R113) -/

section

variable {s : State} {g : GantryId} {m : Move}

theorem State.trial_mode (h : s.modeAllows m = false) : s.trial g m = .fails .mode := by simp [State.trial, h]

theorem State.trial_gate (mode : s.modeAllows m = true) (h : s.gatePasses m = false) : s.trial g m = .fails .gate := by
  simp [State.trial, mode, h]

theorem State.trial_reach (mode : s.modeAllows m = true) (gate : s.gatePasses m = true) (h : s.reachPasses g m = false) :
    s.trial g m = .unreached := by
  simp [State.trial, mode, gate, h]

/-- The three tests that ask for no route. -/
def State.firstTests (s : State) (g : GantryId) (m : Move) : Prop :=
  s.modeAllows m = true ∧ s.gatePasses m = true ∧ s.reachPasses g m = true

theorem State.trial_noRoute (first : s.firstTests g m) (h : s.routeFor g m = none) : s.trial g m = .fails .destination := by
  obtain ⟨mode, gate, reach⟩ := first
  simp [State.trial, mode, gate, reach, h]

theorem State.trial_route (first : s.firstTests g m) {d : SlotRef} {f : Option SlotRef} (h : s.routeFor g m = some (d, f)) :
    s.trial g m = if s.spanTest g (s.spanLowFor g m d) (s.spanHighFor g m d) = true then
      if s.protectionPasses g m d = true then .passed d f else .fails .protection
    else .zoned d := by
  obtain ⟨mode, gate, reach⟩ := first
  cases zone : s.spanTest g (s.spanLowFor g m d) (s.spanHighFor g m d) <;> cases protection : s.protectionPasses g m d <;>
    simp [State.trial, mode, gate, reach, h, zone, protection]

end

/-- Settles O35: each test in its rule's words, and the branches of `trial` by them. -/
theorem claimTestsAreMadeInOrder : Obligations.ClaimTestsAreMadeInOrder := by
  refine ⟨State.target_iff, fun g s => s.estimateFor_eq g, fun s => ⟨s.mem_offered_iff, fun before a b after order =>
    List.isChain_iff_forall_rel_of_append_cons_cons.1 s.ranked_urgencyOrder order⟩, ?_⟩
  intro g m h s moves slots counts hm ready kind tagged found
  have reaches := s.reachPasses_iff g (moves.dest_slot hm kind)
  have route := fun d f => State.routeFor_iff (g := g) moves slots counts hm ready kind tagged found d f
  have first : ModePermits s m → GatePermits s m → ReachPermits s g m → s.firstTests g m := fun mode gate reach =>
    ⟨(s.modeAllows_iff m).2 mode, (s.gatePasses_iff m).2 gate, reaches.2 reach⟩
  refine ⟨fun mode => ?_, fun mode gate => ?_, fun mode gate reach => ?_, fun mode gate reach none => ?_,
    fun d f mode gate reach found => ⟨fun zone => ?_, fun zone protection => ?_, fun zone protection => ?_⟩⟩
  · exact State.trial_mode (Bool.eq_false_iff.2 (fun e => mode ((s.modeAllows_iff m).1 e)))
  · exact State.trial_gate ((s.modeAllows_iff m).2 mode) (Bool.eq_false_iff.2 (fun e => gate ((s.gatePasses_iff m).1 e)))
  · exact State.trial_reach ((s.modeAllows_iff m).2 mode) ((s.gatePasses_iff m).2 gate)
      (Bool.eq_false_iff.2 (fun e => reach (reaches.1 e)))
  · refine State.trial_noRoute (first mode gate reach) (Option.eq_none_iff_forall_ne_some.2 (fun x e => ?_))
    exact none x.1 x.2 ((route x.1 x.2).1 e)
  · rw [State.trial_route (first mode gate reach) ((route d f).2 found), if_neg (fun e => zone ((s.spanTest_iff g m d).1 e))]
  · rw [State.trial_route (first mode gate reach) ((route d f).2 found), if_pos ((s.spanTest_iff g m d).2 zone),
      if_neg (fun e => protection ((s.protectionPasses_iff g m d).1 e))]
  · rw [State.trial_route (first mode gate reach) ((route d f).2 found), if_pos ((s.spanTest_iff g m d).2 zone),
      if_pos ((s.protectionPasses_iff g m d).2 protection)]

end Sys2Proof.Machine
end

