-- ==== Sys2Proof/Proofs/ClaimWalks.lean ====
section
/-! PROOFS. The walk of a claim past moves that fail a test (R113): the moves it holds, and the one YIELD move it may make (R138),
which no test of the walk reads. -/

namespace Sys2Proof.Machine

/-! ### What the tests of a move read -/

section

variable {s t : State} {g : GantryId} {m : Move}

theorem State.reserve_stations (h : t.stations = s.stations) (r : SlotRef) (tag : Nat) (k : ReservationKind) :
    (t.reserve r tag k).map State.stations = (s.reserve r tag k).map State.stations := by
  unfold State.reserve
  rw [State.station_congr h, State.slotAt_congr h]
  split
  · unfold State.setSlot State.modStation
    simp [h, State.station_congr h]
  · rfl

theorem State.convert_stations (h : t.stations = s.stations) (r : SlotRef) (tag : Nat) :
    (t.convert r tag).map State.stations = (s.convert r tag).map State.stations := by
  unfold State.convert
  rw [State.slotAt_congr h]
  split
  · unfold State.setSlot State.modStation
    simp [h, State.station_congr h]
  · rfl

theorem State.holdDestination_stations (h : t.stations = s.stations) (tag : Nat) (d : SlotRef) :
    (t.holdDestination tag d).map State.stations = (s.holdDestination tag d).map State.stations := by
  unfold State.holdDestination
  rw [State.slotAt_congr h]
  split
  · exact congrArg some h
  · split
    · exact State.convert_stations h d tag
    · exact State.reserve_stations h d tag .destination

theorem State.holdForward_stations (h : t.stations = s.stations) (tag : Nat) (f : SlotRef) :
    (t.holdForward tag f).map State.stations = (s.holdForward tag f).map State.stations := by
  unfold State.holdForward
  rw [State.slotAt_congr h]
  split
  · exact congrArg some h
  · exact State.reserve_stations h f tag .forward

/-- The reservation of a route reads and writes the station map alone. -/
theorem State.reserveRoute_stations (h : t.stations = s.stations) (tag : Nat) (d : SlotRef) (f : Option SlotRef) :
    (t.reserveRoute tag d f).map State.stations = (s.reserveRoute tag d f).map State.stations := by
  have first := State.holdDestination_stations h tag d
  cases f with
  | none => exact first
  | some f =>
    rw [State.reserveRoute_some, State.reserveRoute_some]
    cases hs : s.holdDestination tag d with
    | none =>
      rw [hs, Option.map_none, Option.map_eq_none_iff] at first
      rw [first]
    | some u =>
      rw [hs, Option.map_some, Option.map_eq_some_iff] at first
      obtain ⟨v, hv, same⟩ := first
      rw [hv]
      exact State.holdForward_stations same tag f

/-- The state `t` is `s` but for its moves, the counter of their identifiers, and the ports of the gantries. -/
def State.SameButMoves (s t : State) : Prop :=
  t = { s with moves := t.moves, moveCounter := t.moveCounter, port1 := t.port1, port2 := t.port2 }

theorem State.SameButMoves.routeFor (h : s.SameButMoves t) : t.routeFor g m = s.routeFor g m := by
  have destination : t.destinationFor g m = s.destinationFor g m := by rw [h]; rfl
  have forward : ∀ x d, t.forwardFor g x d = s.forwardFor g x d := by intro x d; rw [h]; rfl
  have hangers : t.hanger? = s.hanger? := by rw [h]; rfl
  have stations : t.stations = s.stations := by rw [h]
  have reserved : ∀ tag d f, (t.reserveRoute tag d f).isSome = (s.reserveRoute tag d f).isSome := fun tag d f => by
    rw [← Option.isSome_map, State.reserveRoute_stations stations, Option.isSome_map]
  unfold State.routeFor
  simp only [destination, forward, hangers, State.station_congr stations, reserved]

/-- R121: the protection test alone reads the move list. -/
theorem State.SameButMoves.trial (h : s.SameButMoves t)
    (protection : ∀ d, t.protectionPasses g m d = s.protectionPasses g m d) : t.trial g m = s.trial g m := by
  have mode : t.modeAllows m = s.modeAllows m := by rw [h]; rfl
  have gate : t.gatePasses m = s.gatePasses m := by rw [h]; rfl
  have reach : t.reachPasses g m = s.reachPasses g m := by rw [h]; rfl
  have low : ∀ d, t.spanLowFor g m d = s.spanLowFor g m d := by intro d; rw [h]; rfl
  have high : ∀ d, t.spanHighFor g m d = s.spanHighFor g m d := by intro d; rw [h]; rfl
  have zone : ∀ lo hi, t.spanTest g lo hi = s.spanTest g lo hi := by intro lo hi; rw [h]; rfl
  unfold State.trial
  simp only [mode, gate, reach, h.routeFor, low, high, zone, protection]

theorem State.SameButMoves.canServe (h : s.SameButMoves t) : t.canServe g m = s.canServe g m :=
  State.canServe_congr (by rw [h]) (by rw [h]) (by rw [h]) (by rw [h]; rfl) m

end

/-! ### The YIELD move (R138) -/

/-- R138: the YIELD move of the other gantry that a claim of gantry `g` makes for move `m`, with target `x`. -/
def State.yieldMove (s : State) (g : GantryId) (m : Move) (x : Nat) : Move :=
  { id := s.freshId, kind := .yielding, tag := none, seq := none, source := .point (s.gantry g.other).point,
    dest := some (.point x), ready := s.lineTime, due := none, deadline := none, drip := 0, state := .ready,
    gantry := some g.other, grantTime := none, estimate := none, limit := none, blocked := some m.id }

/-- R138, R110: the state with that YIELD move and its WORK notice. -/
def State.yielded (s : State) (g : GantryId) (m : Move) (x : Nat) : State :=
  { s with moves := s.moves ++ [s.yieldMove g m x], moveCounter := (s.freshId + 1) % 256 }.modPort g.other.port
    (fun q => worked q (workNotice s.lineTime (s.yieldMove g m x)))

section

variable (s : State) (g : GantryId)

theorem State.yielded_moves (m : Move) (x : Nat) : (s.yielded g m x).moves = s.moves ++ [s.yieldMove g m x] :=
  State.modPort_moves _ _ _

theorem State.sameButMoves_yielded (m : Move) (x : Nat) : s.SameButMoves (s.yielded g m x) := by
  cases g <;> rfl

theorem State.yielded_trial (n : Move) (x : Nat) (m : Move) : (s.yielded g n x).trial g m = s.trial g m := by
  have same := s.sameButMoves_yielded g n x
  refine same.trial (fun d => ?_)
  have strict : (s.yielded g n x).strictExit m = s.strictExit m := by rw [same]; rfl
  have estimate : (s.yielded g n x).estimateFor g m d = s.estimateFor g m d := by rw [same]; rfl
  have protects : (s.yielded g n x).protects = s.protects := by rw [same]; rfl
  have none : ∀ e, s.protects g e (s.yieldMove g n x) = false := fun _ => rfl
  unfold State.protectionPasses
  rw [strict, estimate, protects, State.yielded_moves, List.any_append]
  simp [none]

theorem State.mem_reachCoordinates (o : GantryId) (x : Nat) : x ∈ s.reachCoordinates o ↔
    ∃ st, st ≤ 23 ∧ (s.station st).configured = true ∧ (s.gantry o).reaches st = true ∧ (s.station st).coordinate = x := by
  unfold State.reachCoordinates State.reachStations Gantry.reaches
  simp only [List.mem_map, List.mem_filter, List.mem_range, Bool.and_eq_true, and_assoc]
  exact exists_congr (fun st => and_congr_left' Nat.lt_succ_iff)

theorem State.yieldTarget_iff (o : GantryId) (lo hi x : Nat) : s.yieldTarget o lo hi = some x ↔ IsYieldTarget s o lo hi x := by
  unfold State.yieldTarget IsYieldTarget
  rw [← State.mem_reachCoordinates]
  cases o with
  | a =>
    dsimp only
    rw [List.max?_eq_some_iff]
    simp only [List.mem_filter, decide_eq_true_eq, and_assoc, and_imp]
    refine and_congr_right' (and_congr_right' ⟨fun h st inside configured reach apart => ?_, fun h y hy apart => ?_⟩)
    · exact h _ ((s.mem_reachCoordinates .a _).2 ⟨st, inside, configured, reach, rfl⟩) apart
    · obtain ⟨st, inside, configured, reach, rfl⟩ := (s.mem_reachCoordinates .a y).1 hy
      exact h st inside configured reach apart
  | b =>
    dsimp only
    rw [List.min?_eq_some_iff]
    simp only [List.mem_filter, decide_eq_true_eq, and_assoc, and_imp]
    refine and_congr_right' (and_congr_right' ⟨fun h st inside configured reach apart => ?_, fun h y hy apart => ?_⟩)
    · exact h _ ((s.mem_reachCoordinates .b _).2 ⟨st, inside, configured, reach, rfl⟩) apart
    · obtain ⟨st, inside, configured, reach, rfl⟩ := (s.mem_reachCoordinates .b y).1 hy
      exact h st inside configured reach apart

end

section

variable {s : State} {g : GantryId} {m : Move}

theorem ZoneYields.makeYield {x : Nat} (h : ZoneYields s g m x) {d : SlotRef} (zoned : s.trial g m = .zoned d) :
    s.makeYield g m d = s.yielded g m x := by
  obtain ⟨d', zoned', link, own, protection, target⟩ := h
  rw [zoned'] at zoned
  cases zoned
  unfold State.makeYield
  dsimp only
  rw [if_pos ⟨link, by rw [own]; rfl, protection⟩, (s.yieldTarget_iff _ _ _ x).2 target]
  exact State.postWork_eq _ _ _

theorem State.makeYield_of_none (h : ∀ x, ¬ ZoneYields s g m x) {d : SlotRef} (zoned : s.trial g m = .zoned d) :
    s.makeYield g m d = s := by
  unfold State.makeYield
  dsimp only
  split
  · rename_i open_
    obtain ⟨link, own, protection⟩ := open_
    split
    · rename_i x target
      exact absurd ⟨d, zoned, link, Option.isNone_iff_eq_none.1 own, protection, (s.yieldTarget_iff _ _ _ x).1 target⟩ (h x)
    · rfl
  · rfl

theorem ZoneYields.unique {x y : Nat} (hx : ZoneYields s g m x) (hy : ZoneYields s g m y) : x = y := by
  obtain ⟨d, zoned, -, -, -, target⟩ := hx
  obtain ⟨d', zoned', -, -, -, target'⟩ := hy
  rw [zoned] at zoned'
  cases zoned'
  have same := ((s.yieldTarget_iff _ _ _ x).2 target).symm.trans ((s.yieldTarget_iff _ _ _ y).2 target')
  exact Option.some.inj same

/-- R138: the other gantry owns the YIELD move, so no other is made. -/
theorem State.yielded_unyielding (s : State) (g : GantryId) (n : Move) (x : Nat) (m : Move) (y : Nat) :
    ¬ ZoneYields (s.yielded g n x) g m y := by
  rintro ⟨-, -, -, own, -⟩
  refine List.find?_eq_none.1 own (s.yieldMove g n x) ?_ (by simp [State.yieldMove])
  rw [State.yielded_moves]
  exact List.mem_append_right _ List.mem_cons_self

end

/-! ### The walk (R113, R124) -/

/-- R124: the test of a move that is held for one. -/
def Trial.held : Trial → Option HoldTest
  | .fails c => some c
  | .zoned _ => some .zone
  | .unreached => none
  | .passed _ _ => none

/-- R124: the moves of a list that gantry `g` can serve, each with the test it failed. -/
def State.heldOf (s : State) (g : GantryId) (l : List Move) : List (Nat × HoldTest) :=
  (l.filter (fun m => s.canServe g m)).filterMap (fun m => (s.trial g m).held.map (fun c => (m.id, c)))

/-- No move of the list passes every test of a claim of gantry `g`. -/
def State.NonePasses (s : State) (g : GantryId) (l : List Move) : Prop := ∀ m ∈ l, ∀ d f, s.trial g m ≠ .passed d f

/-- R138: the state behind a move that does not pass: a failed zone test may have made a YIELD move. -/
def State.passedBy (s : State) (g : GantryId) (m : Move) : State :=
  match s.trial g m with
  | .zoned d => s.makeYield g m d
  | _ => s

section

variable {s : State} {g : GantryId} {m : Move} {l : List Move}

theorem State.NonePasses.head (h : s.NonePasses g (m :: l)) : ∀ d f, s.trial g m ≠ .passed d f := h m List.mem_cons_self

theorem State.NonePasses.tail (h : s.NonePasses g (m :: l)) : s.NonePasses g l := fun n hn => h n (List.mem_cons_of_mem _ hn)

theorem State.heldOf_cons (s : State) (g : GantryId) (m : Move) (l : List Move) :
    s.heldOf g (m :: l) = s.heldOf g [m] ++ s.heldOf g l := by
  unfold State.heldOf
  rw [← List.singleton_append, List.filter_append, List.filterMap_append]

theorem State.heldOf_yielded (s : State) (g : GantryId) (n : Move) (x : Nat) (l : List Move) :
    (s.yielded g n x).heldOf g l = s.heldOf g l := by
  unfold State.heldOf
  simp only [(s.sameButMoves_yielded g n x).canServe, State.yielded_trial]

theorem State.walk_cons (fails : ∀ d f, s.trial g m ≠ .passed d f) (held : List (Nat × HoldTest)) :
    State.walk g (m :: l) s held = State.walk g l (s.passedBy g m) (held ++ s.heldOf g [m]) := by
  have noted : ∀ c, (s.trial g m).held = some c → noteHeld s g m c held = held ++ s.heldOf g [m] := by
    intro c hc
    unfold noteHeld State.heldOf
    by_cases serves : s.canServe g m = true <;> simp [serves, hc]
  have unnoted : (s.trial g m).held = none → held = held ++ s.heldOf g [m] := by
    intro hc
    unfold State.heldOf
    by_cases serves : s.canServe g m = true <;> simp [serves, hc]
  rw [State.walk]
  unfold State.passedBy
  cases trial : s.trial g m with
  | passed d f => exact absurd trial (fails d f)
  | zoned d => exact congrArg _ (noted .zone (by rw [trial]; rfl))
  | fails c => exact congrArg _ (noted c (by rw [trial]; rfl))
  | unreached => exact congrArg _ (unnoted (by rw [trial]; rfl))

theorem ZoneYields.passedBy {x : Nat} (h : ZoneYields s g m x) : s.passedBy g m = s.yielded g m x := by
  have yields := h
  obtain ⟨d, zoned, -⟩ := h
  unfold State.passedBy
  rw [zoned]
  exact yields.makeYield zoned

theorem State.passedBy_of_none (h : ∀ x, ¬ ZoneYields s g m x) : s.passedBy g m = s := by
  unfold State.passedBy
  split
  · rename_i d zoned
    exact State.makeYield_of_none h zoned
  · rfl

/-- A walk that makes no YIELD move and finds no move that passes. -/
theorem State.walk_unyielding (fails : s.NonePasses g l) (h : ∀ m ∈ l, ∀ x, ¬ ZoneYields s g m x) (held : List (Nat × HoldTest)) :
    State.walk g l s held = { state := s, found := none, held := held ++ s.heldOf g l } := by
  induction l generalizing held with
  | nil => rw [State.walk, show s.heldOf g [] = [] from rfl, List.append_nil]
  | cons m ms ih =>
    rw [State.walk_cons fails.head, State.passedBy_of_none (h m List.mem_cons_self),
      ih fails.tail (fun n hn => h n (List.mem_cons_of_mem _ hn)), List.append_assoc, ← State.heldOf_cons]

theorem YieldMade.cons {u : State} (h : ∀ x, ¬ ZoneYields s g m x) (made : YieldMade s u g l) : YieldMade s u g (m :: l) := by
  obtain ⟨none, first⟩ := made
  refine ⟨fun all => none (fun n hn => all n (List.mem_cons_of_mem _ hn)), fun before n rest x split yields earlier => ?_⟩
  cases before with
  | nil =>
    cases split
    exact absurd yields (h x)
  | cons b bs =>
    cases split
    exact first bs n rest x rfl yields (fun n' hn' => earlier n' (List.mem_cons_of_mem _ hn'))

theorem ZoneYields.yieldMade {x : Nat} (h : ZoneYields s g m x) : YieldMade s (s.yielded g m x) g (m :: l) := by
  refine ⟨fun none => absurd h (none m List.mem_cons_self x), fun before n rest y split yields earlier => ?_⟩
  cases before with
  | nil =>
    cases split
    rw [yields.unique h]
    exact ⟨_, rfl, rfl⟩
  | cons b bs =>
    cases split
    exact absurd h (earlier m List.mem_cons_self x)

/-- R113, R138: a walk past moves that fail ends with none found, every served move held, and the YIELD move made. -/
theorem State.walk_nonePasses (fails : s.NonePasses g l) (held : List (Nat × HoldTest)) : ∃ u,
    State.walk g l s held = { state := u, found := none, held := held ++ s.heldOf g l } ∧ YieldMade s u g l
    ∧ (u = s ∨ ∃ m x, u = s.yielded g m x) := by
  induction l generalizing held with
  | nil =>
    exact ⟨s, State.walk_unyielding fails (fun m hm => by cases hm) held,
      ⟨fun _ => rfl, fun before m rest x split => by simp at split⟩, Or.inl rfl⟩
  | cons m ms ih =>
    by_cases yields : ∃ x, ZoneYields s g m x
    · obtain ⟨x, yields⟩ := yields
      refine ⟨s.yielded g m x, ?_, yields.yieldMade, Or.inr ⟨m, x, rfl⟩⟩
      have fails' : (s.yielded g m x).NonePasses g ms := fun n hn d f => by
        rw [State.yielded_trial]
        exact fails.tail n hn d f
      rw [State.walk_cons fails.head, yields.passedBy, State.walk_unyielding fails' (fun n _ => State.yielded_unyielding s g m x n),
        State.heldOf_yielded, List.append_assoc, ← State.heldOf_cons]
    · have none : ∀ x, ¬ ZoneYields s g m x := fun x h => yields ⟨x, h⟩
      obtain ⟨u, walk, made, shape⟩ := ih fails.tail (held ++ s.heldOf g [m])
      refine ⟨u, ?_, made.cons none, shape⟩
      rw [State.walk_cons fails.head, State.passedBy_of_none none, walk, List.append_assoc, ← State.heldOf_cons]

/-- The walk goes on behind the moves it has passed by. -/
theorem State.walk_append {before rest : List Move} {held : List (Nat × HoldTest)} {v : State} {held' : List (Nat × HoldTest)}
    (h : State.walk g before s held = { state := v, found := none, held := held' }) :
    State.walk g (before ++ rest) s held = State.walk g rest v held' := by
  induction before generalizing s held with
  | nil =>
    rw [State.walk] at h
    cases h
    rfl
  | cons m ms ih =>
    rw [State.walk] at h
    rw [List.cons_append, State.walk]
    cases trial : s.trial g m with
    | passed d f => rw [trial] at h; cases h
    | _ =>
      rw [trial] at h
      exact ih h

end

end Sys2Proof.Machine
end

