-- ==== Sys2Proof/Proofs/ClaimGantries.lean ====
section
/-! PROOFS. What a grant does to its gantry and the move list (R123, R131, R139), and the three ends of a claim: refused, the own YIELD
move, the walk (R113, R124; O37). -/

namespace Sys2Proof.Machine

/-! ### The gantry of a grant (R123, R131, R139) -/

/-- R139: the YIELD move, not granted, was made for move `id` or is owned by gantry `g`. -/
def Move.yieldsAt (x : Move) (g : GantryId) (id : Nat) : Bool :=
  x.kind == .yielding && x.state == .ready && (x.blocked == some id || x.gantry == some g)

namespace State

variable {s t : State} {g : GantryId} {id lo hi : Nat}

/-- R131: READY to BUSY posts GANTRY-STATE and removes no move. -/
theorem setLink_busy (ready : (s.gantry g).link = .ready) : s.setLink g .busy =
    { s.modGantry g (fun r => { r with link := .busy }) with
      port0 := s.port0.push (gantryNotice s.lineTime g .busy (s.gantry g).faultCode) } := by
  unfold State.setLink
  rw [ready, if_neg (by decide)]
  dsimp only
  rw [if_neg (by simp)]
  unfold State.notifyGantry
  rw [State.post_of_maskable _ .p0 rfl]
  cases g <;> rfl

theorem engage_eq (ready : (s.gantry g).link = .ready) : s.engage g id lo hi =
    { s.modGantry g (fun r => { r with link := .busy, granted := some id, spanLow := lo, spanHigh := hi }) with
      moves := s.moves.filter (fun x => !x.yieldsAt g id)
      port0 := s.port0.push (gantryNotice s.lineTime g .busy (s.gantry g).faultCode) } := by
  have still : ((s.modGantry g (fun r => { r with granted := some id, spanLow := lo, spanHigh := hi })).gantry g).link = .ready := by
    rw [State.gantry_modGantry, if_pos rfl]
    exact ready
  have pruned : ∀ l : List Move,
      (l.filter (fun m => !(m.kind == .yielding && m.state == .ready && m.blocked == some id))).filter
        (fun m => !(m.kind == .yielding && m.state == .ready && m.gantry == some g)) = l.filter (fun x => !x.yieldsAt g id) := by
    intro l
    rw [List.filter_filter]
    refine List.filter_congr (fun x _ => ?_)
    unfold Move.yieldsAt
    rw [Bool.and_or_distrib_left, Bool.not_or, Bool.and_comm]
  unfold State.engage
  rw [setLink_busy still]
  unfold State.removeYieldFor State.removeOwnYield
  dsimp only
  rw [pruned]
  cases g <;> rfl

theorem engage_moves (ready : (s.gantry g).link = .ready) :
    (s.engage g id lo hi).moves = s.moves.filter (fun x => !x.yieldsAt g id) := by rw [engage_eq ready]

theorem engage_port0 (ready : (s.gantry g).link = .ready) : (s.engage g id lo hi).port0 =
    s.port0.push (gantryNotice s.lineTime g .busy (s.gantry g).faultCode) := by rw [engage_eq ready]

theorem engage_alarm (ready : (s.gantry g).link = .ready) : (s.engage g id lo hi).alarm = s.alarm := by
  rw [engage_eq ready]
  cases g <;> rfl

theorem engage_gantry (ready : (s.gantry g).link = .ready) : (s.engage g id lo hi).gantry g =
    { s.gantry g with link := .busy, granted := some id, spanLow := lo, spanHigh := hi } := by
  rw [engage_eq ready]
  cases g <;> rfl

theorem engage_other (ready : (s.gantry g).link = .ready) : (s.engage g id lo hi).gantry g.other = s.gantry g.other := by
  rw [engage_eq ready]
  cases g <;> rfl

theorem engage_port (ready : (s.gantry g).link = .ready) (o : GantryId) :
    (s.engage g id lo hi).port o.port = s.port o.port := by
  rw [engage_eq ready]
  cases g <;> cases o <;> rfl

/-- A move is looked up in a pruned list as before when no move of its identifier goes. -/
theorem move_filter {p : Move → Bool} (pruned : t.moves = s.moves.filter p) (kept : ∀ x ∈ s.moves, x.id = id → p x = true) :
    t.move? id = s.move? id := by
  unfold State.move?
  rw [pruned, List.find?_filter]
  refine List.find?_congr (fun x hx => ?_)
  by_cases e : x.id = id
  · simp [e, kept x hx e]
  · simp [e]

end State

/-! ### The grant of the own YIELD move (R139) -/

section

variable {s : State} {g : GantryId} {y : Move}

theorem State.ownYield_fields (own : s.ownYield? g = some y) :
    y ∈ s.moves ∧ y.kind = .yielding ∧ y.gantry = some g ∧ y.state = .ready := by
  have fields := List.find?_some own
  simp only [Bool.and_eq_true, beq_iff_eq, and_assoc] at fields
  exact ⟨List.mem_of_find?_eq_some own, fields⟩

/-- R139, R148: the YIELD move once granted to gantry `g` with target `x`. -/
def State.yieldGrant (s : State) (g : GantryId) (x : Nat) (z : Move) : Move :=
  z.granted g (.point x) s.lineTime ((s.gantry g).yieldEstimate x) (s.gantry g).margin

theorem State.opened_yieldGrant (s : State) (p : PortId) (n : Nat) (g : GantryId) (x : Nat) :
    (s.opened p n).yieldGrant g x = s.yieldGrant g x := by
  cases p <;> rfl

theorem State.grantYield_eq (s : State) (g : GantryId) (y : Move) (x : Nat) : s.grantYield g y x =
    (s.modMove y.id (s.yieldGrant g x)).engage g y.id (min (s.gantry g).point x) (max (s.gantry g).point x) := rfl

theorem State.modMove_gantry (s : State) (id : Nat) (f : Move → Move) (g : GantryId) : (s.modMove id f).gantry g = s.gantry g := by
  cases g <;> rfl

theorem State.grantYield_moves (ready : (s.gantry g).link = .ready) (x : Nat) : (s.grantYield g y x).moves =
    (s.modMove y.id (s.yieldGrant g x)).moves.filter (fun z => !z.yieldsAt g y.id) := by
  rw [State.grantYield_eq]
  exact State.engage_moves (by rw [State.modMove_gantry]; exact ready)

theorem State.grantYield_move_self (ready : (s.gantry g).link = .ready) (found : s.move? y.id = some y) (x : Nat) :
    (s.grantYield g y x).move? y.id = some (s.yieldGrant g x y) := by
  have kept : ∀ z ∈ (s.modMove y.id (s.yieldGrant g x)).moves, z.id = y.id → (!z.yieldsAt g y.id) = true := by
    intro z hz e
    obtain ⟨w, -, rfl⟩ := List.mem_map.1 hz
    split at e
    · rename_i same
      rw [if_pos same]
      simp [Move.yieldsAt, State.yieldGrant, Move.granted]
    · rename_i other
      exact absurd e other
  rw [State.move_filter (State.grantYield_moves ready x) kept,
    State.move_modMove (f := s.yieldGrant g x) (fun _ => rfl), if_pos rfl, found]
  rfl

/-- R139: under the agreement of moves no other move goes but one made for the granted move. -/
theorem State.grantYield_keepsOtherMoves (moves : MovesAgree s) (own : s.ownYield? g = some y) (ready : (s.gantry g).link = .ready)
    (unblocked : ∀ z ∈ s.moves, z.blocked ≠ some y.id) (x : Nat) : KeepsOtherMoves s (s.grantYield g y x) y.id := by
  obtain ⟨hy, kind, owner, state⟩ := State.ownYield_fields own
  obtain ⟨-, -, -, -, -, gantries, -⟩ := moves
  obtain ⟨-, -, yields, -⟩ := gantries g
  obtain ⟨-, sole⟩ := yields y hy kind state owner
  intro id' away
  have kept : ∀ z ∈ (s.modMove y.id (s.yieldGrant g x)).moves, z.id = id' → (!z.yieldsAt g y.id) = true := by
    intro z hz e
    obtain ⟨w, hw, rfl⟩ := List.mem_map.1 hz
    have other : w.id ≠ y.id := by
      intro same
      rw [if_pos same] at e
      exact away (e.symm.trans same)
    rw [if_neg other]
    have unowned : ¬ (w.kind = .yielding ∧ w.state = .ready ∧ w.gantry = some g) := fun ⟨k, r, o⟩ =>
      other (congrArg Move.id (sole w hw k r o))
    have free := unblocked w hw
    by_cases k : w.kind = .yielding <;> by_cases r : w.state = .ready <;> simp_all [Move.yieldsAt]
  rw [State.move_filter (State.grantYield_moves ready x) kept,
    State.move_modMove (f := s.yieldGrant g x) (fun _ => rfl), if_neg away]

end

/-- What the grant of the own YIELD move leaves of the gantries, the ports and ALARM. -/
theorem State.grantYield_frame (s : State) {g : GantryId} (ready : (s.gantry g).link = .ready) (y : Move) (x : Nat) :
    (s.grantYield g y x).gantry g = { s.gantry g with link := .busy, granted := some y.id, spanLow := min (s.gantry g).point x,
                                                      spanHigh := max (s.gantry g).point x }
    ∧ (s.grantYield g y x).gantry g.other = s.gantry g.other
    ∧ (s.grantYield g y x).port0 = s.port0.push (gantryNotice s.lineTime g .busy (s.gantry g).faultCode)
    ∧ (∀ o : GantryId, (s.grantYield g y x).port o.port = s.port o.port) ∧ (s.grantYield g y x).alarm = s.alarm := by
  have same := fun o => s.modMove_gantry y.id (s.yieldGrant g x) o
  have ready' : ((s.modMove y.id (s.yieldGrant g x)).gantry g).link = .ready := by rw [same]; exact ready
  rw [State.grantYield_eq]
  refine ⟨?_, ?_, ?_, fun o => ?_, ?_⟩
  · rw [State.engage_gantry ready', same]
  · rw [State.engage_other ready', same]
  · rw [State.engage_port0 ready', same]
    rfl
  · rw [State.engage_port ready']
    cases o <;> rfl
  · rw [State.engage_alarm ready']
    rfl

theorem State.grantYield_keepsRecords (s : State) (g : GantryId) (y : Move) (x : Nat) : KeepsRecords s (s.grantYield g y x) := by
  simp [KeepsRecords, State.grantYield_eq]

theorem State.grantYield_keepsSettings (s : State) (g : GantryId) (y : Move) (x : Nat) : KeepsSettings s (s.grantYield g y x) := by
  simp [KeepsSettings, State.grantYield_eq]

/-! ### The ends of a claim (R113) -/

theorem answers_claim {s t : State} {g : GantryId} {r : Reply} (hp : PortFree s g.port) (h : claim g (s.opened g.port 2) = (t, r)) :
    Answers (.claim g) s g.port t r :=
  Answers.of_rule (c := 0x62) (l := []) rfl hp h

/-- R114: every mode but IDLE permits a YIELD move. -/
theorem State.modeAllows_yield (s : State) {y : Move} (kind : y.kind = .yielding) : s.modeAllows y = true ↔ s.mode ≠ .idle := by
  unfold State.modeAllows
  cases s.mode <;> simp [kind]

section

variable {s : State} {g : GantryId}

theorem State.ownYield_kind {y : Move} (own : s.ownYield? g = some y) : y.kind = .yielding :=
  (State.ownYield_fields own).2.1

theorem State.yieldFails_mode {y : Move} (kind : y.kind = .yielding) (idle : s.mode = .idle) (x : Nat) :
    s.yieldFails g y x = some .mode := by
  have held : s.modeAllows y = false := Bool.eq_false_iff.2 (fun e => (s.modeAllows_yield kind).1 e idle)
  unfold State.yieldFails
  simp [held]

theorem State.yieldFails_zone {y : Move} (kind : y.kind = .yielding) (mode : s.mode ≠ .idle) (x : Nat) :
    s.yieldFails g y x =
      if s.spanTest g (min (s.gantry g).point x) (max (s.gantry g).point x) = true then none else some .zone := by
  have allowed := (s.modeAllows_yield kind).2 mode
  unfold State.yieldFails
  by_cases apart : s.spanTest g (min (s.gantry g).point x) (max (s.gantry g).point x) = true <;> simp [allowed, apart]

/-- R113, step 1: the gantry owns no YIELD move, or its YIELD move fails a test, and `last` is what a NONE reply then holds of it. -/
def State.OwnYieldHeld (s : State) (g : GantryId) (last : List (Nat × HoldTest)) : Prop :=
  (s.ownYield? g = none ∧ last = [])
    ∨ ∃ y x c, s.ownYield? g = some y ∧ y.dest = some (.point x) ∧ s.yieldFails g y x = some c ∧ last = [(y.id, c)]

theorem claim_notReady (h : (s.gantry g).link ≠ .ready) : claim g s = (s, Reply.bare .notNow) := if_pos h

theorem claim_walk (ready : (s.gantry g).link = .ready) {last : List (Nat × HoldTest)} (own : s.OwnYieldHeld g last) :
    claim g s = s.claimWalk g last := by
  unfold claim
  rw [if_neg (not_not.2 ready)]
  obtain ⟨none, rfl⟩ | ⟨y, x, c, own, dest, fails, rfl⟩ := own
  · rw [none]
  · rw [own]
    dsimp only
    rw [dest]
    dsimp only
    rw [fails]

theorem claim_yield (ready : (s.gantry g).link = .ready) {y : Move} {x : Nat} (own : s.ownYield? g = some y)
    (dest : y.dest = some (.point x)) (passes : s.yieldFails g y x = none) :
    claim g s = (s.grantYield g y x, { status := .ok, payload := grantPayload (s.grantYield g y x) y.id }) := by
  unfold claim
  rw [if_neg (not_not.2 ready), own]
  dsimp only
  rw [dest]
  dsimp only
  rw [passes]

/-- R124: no offered move passes. -/
theorem State.claimWalk_none (fails : s.NonePasses g s.offered) (last : List (Nat × HoldTest)) : ∃ u, YieldMade s u g s.offered
    ∧ s.claimWalk g last =
      (u, { status := .none, payload := nonePayload (s.nextReady g) (s.heldOf g s.offered ++ last) }) := by
  obtain ⟨u, walk, made, -⟩ := State.walk_nonePasses fails []
  refine ⟨u, made, ?_⟩
  unfold State.claimWalk
  rw [walk]
  rfl

/-- R123: the first offered move that passes. -/
theorem State.claimWalk_found {before rest : List Move} {m : Move} {d : SlotRef} {f : Option SlotRef}
    (order : s.offered = before ++ m :: rest) (fails : s.NonePasses g before) (passes : s.trial g m = .passed d f)
    (last : List (Nat × HoldTest)) : ∃ u, YieldMade s u g before ∧ (u = s ∨ ∃ n x, u = s.yielded g n x)
    ∧ u.trial g m = .passed d f
    ∧ s.claimWalk g last = (u.grant g m d f, { status := .ok, payload := grantPayload (u.grant g m d f) m.id }) := by
  obtain ⟨u, walk, made, shape⟩ := State.walk_nonePasses fails []
  have passes' : u.trial g m = .passed d f := by
    rcases shape with rfl | ⟨n, x, rfl⟩
    · exact passes
    · rw [State.yielded_trial]
      exact passes
  refine ⟨u, made, shape, passes', ?_⟩
  unfold State.claimWalk
  rw [order, State.walk_append walk, State.walk, passes']

theorem State.trial_idle (idle : s.mode = .idle) (m : Move) : s.trial g m = .fails .mode :=
  State.trial_mode (by unfold State.modeAllows; rw [idle])

theorem State.heldOf_idle (idle : s.mode = .idle) (l : List Move) :
    s.heldOf g l = (l.filter (fun m => s.canServe g m)).map (fun m => (m.id, .mode)) := by
  unfold State.heldOf
  simp only [State.trial_idle idle]
  exact congrFun List.filterMap_eq_map' _

/-- R124: the NONE reply that holds every move for MODE. -/
theorem nonePayload_mode (next : Option LineTime) (l : List Move) : nonePayload next (l.map (fun m => (m.id, .mode))) =
    presentTime next ++ bytes1 l.length ++ present1 (l.head?.map Move.id) ++ [if l.isEmpty then 0xFF#8 else 0x00#8] := by
  unfold nonePayload
  rw [List.length_map]
  cases l <;> rfl

theorem State.opened_nextReady (s : State) (p : PortId) (n : Nat) (g : GantryId) : (s.opened p n).nextReady g = s.nextReady g := by
  cases p <;> rfl

theorem State.opened_heldOf (s : State) (p : PortId) (n : Nat) (g : GantryId) (l : List Move) :
    (s.opened p n).heldOf g l = s.heldOf g l := by
  unfold State.heldOf
  simp only [State.opened_canServe, State.opened_trial]

theorem State.opened_nonePasses {p : PortId} {n : Nat} {l : List Move} : (s.opened p n).NonePasses g l ↔ s.NonePasses g l := by
  unfold State.NonePasses
  simp only [State.opened_trial]

theorem State.opened_ownYieldHeld {p : PortId} {n : Nat} {last : List (Nat × HoldTest)} :
    (s.opened p n).OwnYieldHeld g last ↔ s.OwnYieldHeld g last := by
  unfold State.OwnYieldHeld
  simp only [State.opened_ownYield, State.opened_yieldFails]

/-- R113, R119: the YIELD move of a gantry that the mode or the zone holds. -/
theorem State.ownYieldHeld_of {last : List (Nat × HoldTest)} (h : (s.ownYield? g = none ∧ last = [])
    ∨ ∃ y x, s.ownYield? g = some y ∧ y.dest = some (.point x) ∧ ((s.mode = .idle ∧ last = [(y.id, .mode)])
      ∨ (s.mode ≠ .idle ∧ s.spanTest g (min (s.gantry g).point x) (max (s.gantry g).point x) = false ∧ last = [(y.id, .zone)]))) :
    s.OwnYieldHeld g last := by
  refine h.imp_right ?_
  rintro ⟨y, x, own, dest, ⟨idle, rfl⟩ | ⟨mode, apart, rfl⟩⟩
  · exact ⟨y, x, .mode, own, dest, State.yieldFails_mode (State.ownYield_kind own) idle x, rfl⟩
  · exact ⟨y, x, .zone, own, dest, by rw [State.yieldFails_zone (State.ownYield_kind own) mode, apart]; rfl, rfl⟩

end

section

variable {s : State} {g : GantryId}

/-- R124: a claim on which no offered move passes is answered NONE. -/
theorem claim_none (hp : PortFree s g.port) (ready : (s.gantry g).link = .ready) {last : List (Nat × HoldTest)}
    (own : s.OwnYieldHeld g last) (fails : s.NonePasses g s.offered) : ∃ u, YieldMade (s.opened g.port 2) u g s.offered
    ∧ Answers (.claim g) s g.port u
      { status := .none, payload := nonePayload (s.nextReady g) (s.heldOf g s.offered ++ last) } := by
  have walk := State.claimWalk_none (s := s.opened g.port 2) (g := g)
    (by rw [State.opened_offered]; exact State.opened_nonePasses.2 fails) last
  rw [State.opened_offered, State.opened_nextReady, State.opened_heldOf] at walk
  obtain ⟨u, made, walk⟩ := walk
  have ready' : ((s.opened g.port 2).gantry g).link = .ready := by rw [State.opened_gantry]; exact ready
  exact ⟨u, made, answers_claim hp ((claim_walk ready' (State.opened_ownYieldHeld.2 own)).trans walk)⟩

/-- R124, R114: a claim in IDLE makes no YIELD move and holds every served move for MODE. -/
theorem claim_idle (hp : PortFree s g.port) (ready : (s.gantry g).link = .ready) (idle : s.mode = .idle)
    (own : s.ownYield? g = none) : Answers (.claim g) s g.port (s.opened g.port 2)
      { status := .none, payload := nonePayload (s.nextReady g)
          ((s.offered.filter (fun m => s.canServe g m)).map (fun m => (m.id, .mode))) } := by
  obtain ⟨u, ⟨same, -⟩, answer⟩ := claim_none hp ready (Or.inl ⟨own, rfl⟩)
    (fun m _ d f e => by rw [State.trial_idle idle] at e; cases e)
  rw [State.heldOf_idle idle, List.append_nil] at answer
  rwa [same (fun m _ x ⟨d, zoned, _⟩ => by
    rw [State.opened_trial, State.trial_idle idle] at zoned
    cases zoned)] at answer

end

/-- Settles O37: the three ends of a claim that grants no hanger move. -/
theorem claimRefusedHeldOrYielding : Obligations.ClaimRefusedHeldOrYielding := by
  intro g s hp
  refine ⟨fun link => ?_, fun ready idle own => ?_, fun last ready _ _ fails own => ?_,
    fun y x ready mode own dest found apart => ?_⟩
  · exact answers_claim hp (claim_notReady (by rw [State.opened_gantry]; exact link))
  · have answer := claim_idle hp ready idle own
    rwa [nonePayload_mode] at answer
  · obtain ⟨u, made, answer⟩ := claim_none hp ready (State.ownYieldHeld_of own) fails
    refine ⟨_, u, ?_, made, answer⟩
    refine congrArg (· ++ last) (congrArg (fun k => List.filterMap k _) (funext (fun m => ?_)))
    cases s.trial g m <;> rfl
  · have ready' : ((s.opened g.port 2).gantry g).link = .ready := by rw [State.opened_gantry]; exact ready
    have own' : (s.opened g.port 2).ownYield? g = some y := by rw [State.opened_ownYield]; exact own
    have time : (s.opened g.port 2).lineTime = s.lineTime := State.opened_lineTime s g.port 2
    have port0 : (s.opened g.port 2).port0 = s.port0 := by cases g <;> rfl
    have other : (s.opened g.port 2).port g.other.port = s.port g.other.port := by cases g <;> rfl
    obtain ⟨gantry, beside, notice, ports, alarm⟩ := (s.opened g.port 2).grantYield_frame ready' y x
    have self := State.grantYield_move_self (y := y) ready' (by rw [State.opened_move]; exact found) x
    have list := State.grantYield_moves (y := y) ready' x
    simp only [State.opened_gantry, State.opened_yieldGrant, time] at gantry beside notice self list
    refine ⟨(s.opened g.port 2).grantYield g y x, answers_claim hp (claim_yield ready' own' dest ?_), self, gantry,
      list.trans (by rw [State.modMove_moves, State.opened_moves]; rfl), fun moves unblocked => ?_, ?_, alarm.trans ?_, beside,
      ?_, ?_, notice.trans (by rw [port0]), ports g, (ports g.other).trans other⟩
    · rw [State.opened_yieldFails, State.yieldFails_zone (State.ownYield_kind own) mode, apart, if_pos rfl]
    · have agree : MovesAgree (s.opened g.port 2) := by cases g <;> exact moves
      have others := State.grantYield_keepsOtherMoves agree own' ready' (by rw [State.opened_moves]; exact unblocked) x
      exact fun id away => (others id away).trans (State.opened_move s g.port 2 id)
    · simp [State.grantYield_eq]
    · exact State.opened_alarm s g.port 2
    · have kept := (s.opened g.port 2).grantYield_keepsRecords g y x
      cases g <;> exact kept
    · have kept := (s.opened g.port 2).grantYield_keepsSettings g y x
      cases g <;> exact kept

end Sys2Proof.Machine
end

