-- ==== Sys2Proof/Proofs/ClaimGrants.lean ====
section
/-! PROOFS. The grant of a hanger move that passed its tests (R123): the route, the move, the hanger, the start order and the binding,
and then the gantry (O36). -/

namespace Sys2Proof.Machine

/-- The state `t` is `s` but for what a grant may write: moves, slots, hangers, start order, recipes, gantries and ports. -/
def OnlyGranted (s t : State) : Prop :=
  t = { s with
        stations := t.stations, recipes := t.recipes, hangers := t.hangers, startOrder := t.startOrder, moves := t.moves
        moveCounter := t.moveCounter, gantryA := t.gantryA, gantryB := t.gantryB, port0 := t.port0, port1 := t.port1
        port2 := t.port2 }

theorem OnlyGranted.trans {s t u : State} (h : OnlyGranted s t) (h' : OnlyGranted t u) : OnlyGranted s u := by
  unfold OnlyGranted at *
  rw [h', h]

theorem OnlyGranted.keepsSettings {s t : State} (h : OnlyGranted s t) : KeepsSettings s t := by
  unfold KeepsSettings
  rw [h]
  exact ⟨rfl, rfl, rfl, rfl, rfl, rfl, rfl, rfl, rfl⟩

theorem OnlyGranted.records {s t : State} (h : OnlyGranted s t) : t.admissions = s.admissions ∧ t.baths = s.baths
    ∧ t.channels = s.channels ∧ t.lines = s.lines := by
  rw [h]
  exact ⟨rfl, rfl, rfl, rfl⟩

theorem State.opened_onlyGranted (s : State) (g : GantryId) (n : Nat) : OnlyGranted s (s.opened g.port n) := by
  cases g <;> rfl

theorem State.SameButMoves.onlyGranted {s t : State} (h : s.SameButMoves t) : OnlyGranted s t := by
  unfold OnlyGranted
  rw [h]

theorem State.engage_onlyGranted {s : State} {g : GantryId} (ready : (s.gantry g).link = .ready) (id lo hi : Nat) :
    OnlyGranted s (s.engage g id lo hi) := by
  rw [State.engage_eq ready]
  cases g <;> rfl

/-! ### The hanger of a grant (R123) -/

/-- R123: the record of a hanger whose move is granted. -/
theorem Hanger.granted_eq (h : Hanger) (f : Option SlotRef) : h.granted f =
    { h with state := if h.state = .loaded ∨ h.state = .immersed then .inTransit else h.state
             phase := if h.state = .loaded ∨ h.state = .immersed then some .granted else h.phase
             forward := if f.isSome then f else h.forward } := by
  unfold Hanger.granted
  by_cases moving : h.state = .loaded ∨ h.state = .immersed
  · simp only [if_pos moving]
    cases f <;> rfl
  · simp only [if_neg moving]
    cases f <;> rfl

/-- R123: the start order and the binding, for an ENTRY move alone. -/
def State.entered (s : State) (m : Move) (h : Hanger) : State := if m.kind = .entry then s.bindEntry h else s

section

variable {s : State} {m : Move} {h : Hanger}

theorem State.entered_other (e : m.kind ≠ .entry) : s.entered m h = s := if_neg e

theorem State.entered_bound (e : m.kind = .entry) (bound : h.bound = true) : s.entered m h = s.leaveOrder h.tag := by
  unfold State.entered State.bindEntry
  rw [if_pos e]
  exact if_pos bound

theorem State.entered_unbound (e : m.kind = .entry) (unbound : h.bound = false) : s.entered m h =
    ((s.leaveOrder h.tag).modHanger h.tag (fun x => { x with bound := true })).modRecipe h.recipe
      (fun r => { r with useCount := r.useCount + 1 }) := by
  unfold State.entered State.bindEntry
  rw [if_pos e]
  exact if_neg (by rw [unbound]; decide)

theorem State.entered_onlyHanger (s : State) (m : Move) (h : Hanger) : s.entered m h =
    { s with hangers := (s.entered m h).hangers, startOrder := (s.entered m h).startOrder, recipes := (s.entered m h).recipes } := by
  by_cases e : m.kind = .entry
  · cases bound : h.bound
    · rw [State.entered_unbound e bound]
      rfl
    · rw [State.entered_bound e bound]
      rfl
  · rw [State.entered_other e]

theorem State.entered_startOrder (s : State) (m : Move) (h : Hanger) : (s.entered m h).startOrder =
    if m.kind = .entry then s.startOrder.filter (fun x => x != h.tag) else s.startOrder := by
  by_cases e : m.kind = .entry
  · rw [if_pos e]
    cases bound : h.bound
    · rw [State.entered_unbound e bound]
      rfl
    · rw [State.entered_bound e bound]
      rfl
  · rw [if_neg e, State.entered_other e]

theorem State.entered_recipe (inside : h.recipe ≤ 15) (r : Nat) : (s.entered m h).recipe r =
    if m.kind = .entry ∧ h.bound = false ∧ r = h.recipe then { s.recipe r with useCount := (s.recipe r).useCount + 1 }
    else s.recipe r := by
  by_cases e : m.kind = .entry
  · cases bound : h.bound
    · rw [State.entered_unbound e bound, State.recipe_modRecipe (Nat.lt_succ_of_le inside)]
      by_cases same : r = h.recipe
      · rw [if_pos same, if_pos ⟨e, rfl, same⟩, same]
        rfl
      · rw [if_neg same, if_neg (fun n => same n.2.2)]
        rfl
    · rw [State.entered_bound e bound, if_neg (by simp)]
      rfl
  · rw [if_neg (fun n => e n.1), State.entered_other e]

theorem State.entered_hanger {x : Hanger} (found : s.hanger? h.tag = some x) (same : x.bound = h.bound) :
    (s.entered m h).hanger? h.tag = some { x with bound := if m.kind = .entry then true else x.bound } := by
  by_cases e : m.kind = .entry
  · rw [if_pos e]
    cases bound : h.bound
    · rw [State.entered_unbound e bound]
      refine (State.hanger_modHanger (s := s.leaveOrder h.tag) (f := fun x => { x with bound := true }) (fun _ => rfl)
        h.tag).trans ?_
      rw [if_pos rfl, show (s.leaveOrder h.tag).hanger? h.tag = some x from found]
      rfl
    · rw [State.entered_bound e bound, ← same.trans bound]
      exact found
  · rw [if_neg e, State.entered_other e]
    exact found

theorem State.entered_hanger_other (tag : Nat) (away : tag ≠ h.tag) : (s.entered m h).hanger? tag = s.hanger? tag := by
  by_cases e : m.kind = .entry
  · cases bound : h.bound
    · rw [State.entered_unbound e bound]
      refine (State.hanger_modHanger (s := s.leaveOrder h.tag) (f := fun x => { x with bound := true }) (fun _ => rfl) tag).trans ?_
      rw [if_neg away]
      rfl
    · rw [State.entered_bound e bound]
      rfl
  · rw [State.entered_other e]

end

/-! ### The grant (R123) -/

/-- R123, Move, and R148: the move once granted to gantry `g` with destination `d`. -/
def State.moveGrant (s : State) (g : GantryId) (d : SlotRef) (m : Move) : Move :=
  m.granted g (.slot d) s.lineTime (s.estimateFor g m d) (s.gantry g).margin

/-- R123: the grant of a move before its gantry is engaged, `r` being the state with the route reserved. -/
def State.granting (s r : State) (g : GantryId) (m : Move) (h : Hanger) (d : SlotRef) (f : Option SlotRef) : State :=
  ((r.modMove m.id (s.moveGrant g d)).modHanger h.tag (fun x => x.granted f)).entered m h

section

variable {s r : State} {g : GantryId} {m : Move} {h : Hanger} {d : SlotRef} {f : Option SlotRef}

theorem State.grant_eq (tagged : m.tag = some h.tag) (found : s.hanger? h.tag = some h)
    (reserved : s.reserveRoute h.tag d f = some r) : s.grant g m d f =
      (s.granting r g m h d f).engage g m.id (s.spanLowFor g m d) (s.spanHighFor g m d) := by
  unfold State.grant
  rw [tagged, Option.bind_some, found]
  dsimp only
  rw [reserved]
  rfl

/-- What the grant writes before its gantry is engaged. -/
theorem State.granting_rest (reserved : RouteReserved s r h.tag d f) : s.granting r g m h d f =
    { s with stations := r.stations, moves := (s.granting r g m h d f).moves, hangers := (s.granting r g m h d f).hangers
             startOrder := (s.granting r g m h d f).startOrder, recipes := (s.granting r g m h d f).recipes } := by
  have rest := reserved.rest
  generalize r.stations = stations at rest ⊢
  subst rest
  unfold State.granting
  rw [State.entered_onlyHanger]
  rfl

theorem State.granting_moves (reserved : RouteReserved s r h.tag d f) :
    (s.granting r g m h d f).moves = s.moves.map (fun x => if x.id = m.id then s.moveGrant g d x else x) := by
  have same : r.moves = s.moves := by rw [reserved.rest]
  unfold State.granting
  rw [State.entered_onlyHanger, ← same]
  rfl

theorem State.granting_startOrder (reserved : RouteReserved s r h.tag d f) : (s.granting r g m h d f).startOrder =
    if m.kind = .entry then s.startOrder.filter (fun x => x != h.tag) else s.startOrder := by
  have same : r.startOrder = s.startOrder := by rw [reserved.rest]
  exact (State.entered_startOrder _ m h).trans (by rw [← same]; rfl)

theorem State.granting_recipe (reserved : RouteReserved s r h.tag d f) (inside : h.recipe ≤ 15) (n : Nat) :
    (s.granting r g m h d f).recipe n =
      if m.kind = .entry ∧ h.bound = false ∧ n = h.recipe then { s.recipe n with useCount := (s.recipe n).useCount + 1 }
      else s.recipe n := by
  have same : r.recipe n = s.recipe n := by rw [reserved.rest]; rfl
  exact (State.entered_recipe inside n).trans (by rw [← same]; rfl)

theorem State.granting_hanger (reserved : RouteReserved s r h.tag d f) (found : s.hanger? h.tag = some h) :
    (s.granting r g m h d f).hanger? h.tag =
      some { h.granted f with bound := if m.kind = .entry then true else h.bound } := by
  have there : r.hanger? h.tag = some h := by rw [reserved.rest]; exact found
  have same : (h.granted f).bound = h.bound := by rw [Hanger.granted_eq]
  have granted : ((r.modMove m.id (s.moveGrant g d)).modHanger h.tag (fun x => x.granted f)).hanger? h.tag = some (h.granted f) := by
    rw [State.hanger_modHanger (f := fun x => x.granted f) (fun x => (State.view_granted x f).1), if_pos rfl,
      show (r.modMove m.id (s.moveGrant g d)).hanger? h.tag = some h from there]
    rfl
  exact (State.entered_hanger granted same).trans (by rw [same])

theorem State.granting_keepsOtherHangers (reserved : RouteReserved s r h.tag d f) :
    KeepsOtherHangers s (s.granting r g m h d f) h.tag := by
  intro tag away
  have same : r.hanger? tag = s.hanger? tag := by rw [reserved.rest]; rfl
  refine (State.entered_hanger_other tag away).trans ?_
  rw [State.hanger_modHanger (f := fun x => x.granted f) (fun x => (State.view_granted x f).1), if_neg away, ← same]
  rfl

end

/-! ### A claim that grants a hanger move -/

section

variable {s t u r : State} {g : GantryId} {m : Move} {h : Hanger} {d : SlotRef} {f : Option SlotRef}

theorem State.spanTest_of_passed (passes : s.trial g m = .passed d f) :
    s.spanTest g (s.spanLowFor g m d) (s.spanHighFor g m d) = true := by
  unfold State.trial at passes
  split_ifs at passes
  split at passes
  · cases passes
  · split_ifs at passes with zone
    cases passes
    simpa using zone

/-- R96, R116, R118: the station of the destination accepts lowering. -/
theorem State.acceptsLowering_of_destinationFor (slots : ∀ x, m.dest ≠ some (.point x)) (tagged : m.tag = some h.tag)
    (found : s.hanger? h.tag = some h) (destination : s.destinationFor g m = some d) : s.acceptsLowering d.station = true := by
  rw [State.acceptsLowering_iff]
  obtain ⟨-, lowering⟩ | ⟨-, x, -, ⟨-, -, -, lowering, -⟩, -⟩ := (State.destinationFor_iff slots tagged found d).1 destination
  · exact lowering
  · exact lowering

theorem State.sameButMoves_opened (s : State) (g : GantryId) (n : Nat) : s.SameButMoves (s.opened g.port n) := by
  cases g <;> rfl

theorem State.SameButMoves.trans (h : s.SameButMoves t) (h' : t.SameButMoves u) : s.SameButMoves u := by
  unfold State.SameButMoves at *
  rw [h', h]

/-- R103: a YIELD move made on the way takes no identifier in use. -/
theorem State.same_move_of_walked (ids : (s.moves.map Move.id).Nodup) (few : s.moves.length < 256) (hm : m ∈ s.moves)
    (shape : u = s ∨ ∃ n x, u = s.yielded g n x) : ∀ x ∈ u.moves, x.id = m.id → x = m := by
  rcases shape with rfl | ⟨n, x, rfl⟩
  · exact fun x hx e => List.inj_on_of_nodup_map ids hx hm e
  · intro y hy e
    rw [State.yielded_moves] at hy
    rcases List.mem_append.1 hy with old | new
    · exact List.inj_on_of_nodup_map ids old hm e
    · rw [List.mem_singleton.1 new] at e
      exact absurd e.symm ((State.freshId_spec few).1 m hm)

/-- What a claim that grants a hanger move has come to: the walk's state `u`, and `r`, where the route is reserved. -/
structure ClaimGrants (s u r : State) (g : GantryId) (m : Move) (h : Hanger) (d : SlotRef) (f : Option SlotRef)
    (before : List Move) : Prop where
  made : YieldMade (s.opened g.port 2) u g before
  same : s.SameButMoves u
  sole : ∀ x ∈ u.moves, x.id = m.id → x = m
  reserved : RouteReserved u r h.tag d f
  granted : u.grant g m d f = (u.granting r g m h d f).engage g m.id (u.spanLowFor g m d) (u.spanHighFor g m d)
  answers : Answers (.claim g) s g.port (u.grant g m d f) { status := .ok, payload := grantPayload (u.grant g m d f) m.id }

/-- R113, R123: the first offered move that passes is granted. -/
theorem claim_grants {before rest : List Move} {last : List (Nat × HoldTest)} (hp : PortFree s g.port)
    (ready : (s.gantry g).link = .ready) (own : s.OwnYieldHeld g last) (order : s.offered = before ++ m :: rest)
    (fails : s.NonePasses g before) (passes : s.trial g m = .passed d f) (ids : (s.moves.map Move.id).Nodup)
    (few : s.moves.length < 256) (tagged : m.tag = some h.tag) (found : s.hanger? h.tag = some h) (inside : SlotInside s d)
    (ahead : ∀ q, f = some q → SlotInside s q) : ∃ u r, ClaimGrants s u r g m h d f before := by
  have hm : m ∈ s.moves := (State.mem_offered (by rw [order]; simp)).1
  obtain ⟨u, made, shape, passes', walk⟩ := State.claimWalk_found (s := s.opened g.port 2) (g := g) (m := m) (d := d) (f := f)
    (by rw [State.opened_offered]; exact order) (State.opened_nonePasses.2 fails) (by rw [State.opened_trial]; exact passes) last
  have walked : (s.opened g.port 2).SameButMoves u := by
    rcases shape with rfl | ⟨n, x, rfl⟩
    · rfl
    · exact State.sameButMoves_yielded _ g n x
  have same := (s.sameButMoves_opened g 2).trans walked
  have found' : u.hanger? h.tag = some h := by rw [same]; exact found
  obtain ⟨-, -, r, reserved⟩ := (State.routeFor_eq_some_iff tagged found' d f).1 (State.routeFor_of_passed passes')
  have stations : ∀ q, SlotInside s q → SlotInside u q := fun q hq => by rw [same]; exact hq
  exact ⟨u, r,
    { made := made
      same := same
      sole := State.same_move_of_walked (by rw [State.opened_moves]; exact ids) (by rw [State.opened_moves]; exact few)
        (by rw [State.opened_moves]; exact hm) shape
      reserved := State.routeReserved_of_reserveRoute (stations d inside) (fun q e => stations q (ahead q e)) reserved
      granted := State.grant_eq tagged found' reserved
      answers := answers_claim hp ((claim_walk (by rw [State.opened_gantry]; exact ready)
        (State.opened_ownYieldHeld.2 own)).trans walk) }⟩

namespace ClaimGrants

variable {before : List Move} (c : ClaimGrants s u r g m h d f before)

include c

theorem gantry_granting (o : GantryId) : (u.granting r g m h d f).gantry o = s.gantry o := by
  have rest := State.granting_rest (g := g) (m := m) c.reserved
  rw [rest, c.same]
  rfl

section

variable (ready : (s.gantry g).link = .ready)

include ready

theorem ready_granting : ((u.granting r g m h d f).gantry g).link = .ready := by rw [c.gantry_granting]; exact ready

theorem onlyGranted : OnlyGranted s (u.grant g m d f) := by
  have first : OnlyGranted u (u.granting r g m h d f) := by
    unfold OnlyGranted
    rw [State.granting_rest c.reserved]
  rw [c.granted]
  exact (c.same.onlyGranted.trans first).trans (State.engage_onlyGranted (c.ready_granting ready) _ _ _)

theorem moves : (u.grant g m d f).moves = (u.moves.map (fun x => if x.id = m.id then u.moveGrant g d m else x)).filter
    (fun x => !x.yieldsAt g m.id) := by
  rw [c.granted, State.engage_moves (c.ready_granting ready), State.granting_moves c.reserved]
  refine congrArg _ (List.map_congr_left (fun x hx => ?_))
  by_cases e : x.id = m.id
  · rw [if_pos e, if_pos e, c.sole x hx e]
  · rw [if_neg e, if_neg e]

theorem gantry_self : (u.grant g m d f).gantry g = { s.gantry g with
    link := .busy, granted := some m.id, spanLow := s.spanLowFor g m d, spanHigh := s.spanHighFor g m d } := by
  have low : u.spanLowFor g m d = s.spanLowFor g m d := by rw [c.same]; rfl
  have high : u.spanHighFor g m d = s.spanHighFor g m d := by rw [c.same]; rfl
  rw [c.granted, State.engage_gantry (c.ready_granting ready), c.gantry_granting, low, high]

theorem gantry_other : (u.grant g m d f).gantry g.other = s.gantry g.other := by
  rw [c.granted, State.engage_other (c.ready_granting ready), c.gantry_granting]

/-- R137: the two spans stand the guard gap apart. -/
theorem spans_apart (passes : s.trial g m = .passed d f) :
    (u.grant g m d f).gantryA.spanHigh + s.guardGap ≤ (u.grant g m d f).gantryB.spanLow := by
  have zone := (s.spanTest_iff g m d).1 (State.spanTest_of_passed passes)
  have self := c.gantry_self ready
  have other := c.gantry_other ready
  cases g with
  | a =>
    rw [show (u.grant .a m d f).gantryA = _ from self, show (u.grant .a m d f).gantryB = _ from other]
    exact zone
  | b =>
    rw [show (u.grant .b m d f).gantryB = _ from self, show (u.grant .b m d f).gantryA = _ from other]
    exact zone

theorem port0 : (u.grant g m d f).port0 = s.port0.push (gantryNotice s.lineTime g .busy (s.gantry g).faultCode) := by
  have time : (u.granting r g m h d f).lineTime = s.lineTime := by rw [State.granting_rest c.reserved, c.same]
  have port : (u.granting r g m h d f).port0 = s.port0 := by rw [State.granting_rest c.reserved, c.same]
  rw [c.granted, State.engage_port0 (c.ready_granting ready), c.gantry_granting, time, port]

theorem port (o : GantryId) : (u.grant g m d f).port o.port = u.port o.port := by
  rw [c.granted, State.engage_port (c.ready_granting ready), State.granting_rest c.reserved]
  rfl

end

theorem moveCounter : (u.grant g m d f).moveCounter = u.moveCounter := by
  rw [c.granted, State.engage_moveCounter, State.granting_rest c.reserved]

theorem stations : (u.grant g m d f).stations = r.stations := by
  rw [c.granted, State.engage_stations, State.granting_rest c.reserved]

theorem keepsStationFields : KeepsStationFields s (u.grant g m d f) := by
  have same : ∀ st, u.station st = s.station st := fun st => by rw [c.same]; rfl
  refine KeepsStationFields.congr (fun st => ?_) c.stations
  rw [← same st]
  exact c.reserved.fields st

theorem slot (q : SlotRef) : (u.grant g m d f).slotAt q = r.slotAt q := State.slotAt_congr c.stations q

theorem slot_other (q : SlotRef) (away : q ≠ d) (away' : f ≠ some q) : (u.grant g m d f).slotAt q = s.slotAt q := by
  have same : u.slotAt q = s.slotAt q := by rw [c.same]; rfl
  rw [c.slot, c.reserved.others q away away', same]

theorem hanger (found : s.hanger? h.tag = some h) : (u.grant g m d f).hanger? h.tag =
    some { h.granted f with bound := if m.kind = .entry then true else h.bound } := by
  have found' : u.hanger? h.tag = some h := by rw [c.same]; exact found
  rw [c.granted, State.hanger_congr (State.engage_hangers _ _ _ _ _), State.granting_hanger c.reserved found']

theorem keepsOtherHangers : KeepsOtherHangers s (u.grant g m d f) h.tag := by
  intro tag away
  have same : u.hanger? tag = s.hanger? tag := by rw [c.same]; rfl
  rw [c.granted, State.hanger_congr (State.engage_hangers _ _ _ _ _), State.granting_keepsOtherHangers c.reserved tag away, same]

theorem startOrder : (u.grant g m d f).startOrder =
    if m.kind = .entry then s.startOrder.filter (fun x => x != h.tag) else s.startOrder := by
  have same : u.startOrder = s.startOrder := by rw [c.same]
  rw [c.granted, State.engage_startOrder, State.granting_startOrder c.reserved, same]

theorem recipe (inside : h.recipe ≤ 15) (n : Nat) : (u.grant g m d f).recipe n =
    if m.kind = .entry ∧ h.bound = false ∧ n = h.recipe then { s.recipe n with useCount := (s.recipe n).useCount + 1 }
    else s.recipe n := by
  have same : u.recipe n = s.recipe n := by rw [c.same]; rfl
  rw [c.granted, State.recipe_congr (State.engage_recipes _ _ _ _ _), State.granting_recipe c.reserved inside, same]

end ClaimGrants

end

/-- Settles O36: the walk to the move, the reservation of its route, and what the grant writes. -/
theorem claimGrantsTheFirstMoveThatPasses : Obligations.ClaimGrantsTheFirstMoveThatPasses := by
  intro g m h d f before rest s hp ready own order fails passes moves few tagged found recipe dInside fInside
  have held : ∃ last, s.OwnYieldHeld g last := by
    cases yield_ : s.ownYield? g with
    | none => exact ⟨[], Or.inl ⟨yield_, rfl⟩⟩
    | some y =>
      obtain ⟨x, test, dest, fails⟩ := own y yield_
      exact ⟨_, Or.inr ⟨y, x, test, yield_, dest, fails, rfl⟩⟩
  obtain ⟨last, held⟩ := held
  obtain ⟨hm, kind, -⟩ := State.mem_offered (show m ∈ s.offered by rw [order]; simp)
  have slots := moves.dest_slot hm kind
  obtain ⟨-, -, ids, -⟩ := moves
  obtain ⟨destination, -⟩ := (State.routeFor_eq_some_iff tagged found d f).1 (State.routeFor_of_passed passes)
  obtain ⟨u, r, c⟩ := claim_grants hp ready held order fails passes ids few tagged found (fun _ => Nat.lt_succ_of_le dInside)
    (fun q e _ => Nat.lt_succ_of_le (fInside q e))
  have granted : u.moveGrant g d m = m.granted g (.slot d) s.lineTime (s.estimateFor g m d) (s.gantry g).margin := by
    rw [c.same]
    rfl
  obtain ⟨admissions, baths, channels, lines⟩ := (c.onlyGranted ready).records
  refine ⟨u, u.grant g m d f, c.made, c.answers, ?_, c.moveCounter, c.gantry_self ready, c.gantry_other ready,
    c.spans_apart ready passes, State.acceptsLowering_of_destinationFor slots tagged found destination,
    ?_, fun q e => ?_, fun q => c.slot_other q, ?_, c.startOrder, c.recipe recipe, c.keepsOtherHangers, c.keepsStationFields,
    (c.onlyGranted ready).keepsSettings, admissions, baths, channels, lines, c.port0 ready, c.port ready⟩
  · rw [c.moves ready, granted]
    rfl
  · exact (c.slot d).trans c.reserved.destination
  · exact (c.slot q).trans (c.reserved.ahead q e)
  · rw [c.hanger found, Hanger.granted_eq]

end Sys2Proof.Machine
end
